-- ==== Sys2Proof/Word.lean ====
section
/-! DEFINITION. The machine words of the PQ7480: a byte, a 64-bit register word (R6), a 128-bit instruction word (R119). -/

namespace Sys2Proof

/-- One byte of memory, scratchpad or a tile register. -/
abbrev Byte := BitVec 8

/-- A 64-bit register (R6) or scalar register (R124). -/
abbrev Word := BitVec 64

/-- A 128-bit cell instruction (R119) or capability word (R21). -/
abbrev Word128 := BitVec 128

end Sys2Proof
end

