-- ==== Sys2Proof/Syntax.lean ====
section
/-! DEFINITION. The commands of the block, one constructor per row of the table of operations and events, with their
operands; and the small operand types. -/

namespace Sys2Proof

/-- A die index (R41): 0 to 3 TD0 to TD3, 4 HD, 5 PD0, 6 PD1. -/
abbrev Die := Fin 7
/-- A tensor die. -/
abbrev TDie := Fin 4
/-- A port die: 0 PD0, 1 PD1. -/
abbrev PDie := Fin 2
/-- A die-to-die link L0 to L11 (R13). -/
abbrev LinkId := Fin 12
/-- A package cell number (TD index * 160 + logical cell). -/
abbrev PCell := Fin 640
/-- A hardware thread of a cell. -/
abbrev Tid := Fin 16
/-- A command queue (R436). -/
abbrev QueueId := Fin 65536
/-- A fabric port P0 to P31. -/
abbrev PortId := Fin 32
/-- A fabric sub-port Pk.s, as 4 k + s (R539). -/
abbrev SubPortId := Fin 128
/-- Who has a request to another package (R559): a thread's operation and request, or the request at a place of the list
of those that other units have made. -/
inductive Sender where
  | thread (op req : Nat)
  | queued (i : Nat)
deriving DecidableEq, Repr
/-- The head of an arbiter's requester that is eligible (R589, R590, R599): its requester, its wait and the service time of
its unit of service, in NoC cycles, the requests queued with it, and whether no choice has gone against it yet. -/
structure ArbReq where
  r : Fin 32
  wait : Nat
  service : Nat
  queued : Nat
  first : Bool
deriving DecidableEq, Repr
/-- A host-die port (R34). -/
abbrev HostPort := Fin 8

/-- Who makes a register access: the firmware mailbox answers only to host harts in M-mode and to the custodian (R468),
and the management registers only to the custodian, the management port and the host as R653 lays down. -/
inductive Requester where
  | hostM | host | custodian | mgmt | cell
deriving DecidableEq, Repr

/-- Where a packet command came from (R462): a queue, the firmware mailbox, or the management mailbox. -/
inductive CmdSrc where
  | queue (q : QueueId)
  | fw
  | mgmt
deriving DecidableEq, Repr

/-- An IEEE 1588 message on the management Ethernet port (R58). -/
inductive PtpKind where
  | announce | sync | followUp | delayReq | delayResp
deriving DecidableEq, Repr

/-- The contents of a received IEEE 1588 message that the device uses (R58, R59). -/
structure PtpMsg where
  kind : PtpKind
  domain : BitVec 8
  /-- 0 UDP/IPv4, 1 UDP/IPv6, 2 IEEE 802.3. -/
  transport : BitVec 2
  /-- The announced dataset, in the order of the best master clock algorithm: priority1, class, accuracy, variance,
  priority2, identity. -/
  dataset : BitVec 128
  /-- The message's timestamp in 2^-16 ns (precise origin, or receive time of a delay response). -/
  stamp : BitVec 80
deriving DecidableEq, Repr


/-- The commands of the block: one constructor per row of the table of operations and events. -/
inductive Instr where
  /-- REGISTER_WRITE (R8): A write to a register that has no row of its own replaces, clears or sets fields according to their access codes, or is discarded. -/
  | registerWrite (die : Die) (off : BitVec 24) (v : Word) (who : Requester)
  /-- CSR_NARROW_ACCESS (R7): A narrow or misaligned access to a CSR window returns zero or is discarded, without a fault. -/
  | csrNarrowAccess (die : Die) (off : BitVec 24) (store : Option Word)
  /-- LINK_UP (R23): A die-to-die link trains its modules and exchanges capability words, fixing the link's version and link features. -/
  | linkUp (l : LinkId) (modules : BitVec 24) (wordA : Word128) (wordB : Word128) (crcBad : Option Die)
  /-- LINK_DOWN (R19): A die-to-die link goes down and begins to retrain. -/
  | linkDown (l : LinkId)
  /-- LINK_RETRAIN_DONE (R20): A link retrain completes, replaying unacknowledged flits and repeating the capability exchange. -/
  | linkRetrainDone (l : LinkId) (wordA : Word128) (wordB : Word128)
  /-- LINK_LOST (R19): A link not retrained within 1 ms, or showing a changed capability word, is lost, and the package goes through Dawn. -/
  | linkLost (l : LinkId)
  /-- DEBUG_WINDOW_ACCESS (R113): An access to a debug window returns accumulator contents in debug mode, or is treated as a hole outside it. -/
  | debugWindowAccess (die : Die) (off : BitVec 24) (store : Option Word)
  /-- TIME_NOW_READ (R48): A load of TIME_NOW returns the nanosecond count and latches the fraction into TIME_NOW_FRAC. -/
  | timeNowRead
  /-- TIME_SET (R49): A write of TIME_SET sets device time while RUN is 0, or is discarded with STEP_REFUSED while RUN is 1. -/
  | timeSet (v : Word)
  /-- TIME_STEP (R49): A write of TIME_STEP adds a signed offset to device time while RUN is 0, or is discarded with STEP_REFUSED while RUN is 1. -/
  | timeStep (v : Word)
  /-- TIME_RATE_WRITE (R49): A write of TIME_RATE sets the rate adjustment, clamped to 100 ppm or 1,000 ppm. -/
  | timeRateWrite (v : Word)
  /-- TIME_CTL_SRC_CHANGE (R55): A write of TIME_CTL.SRC changes the discipline source within 1 µs and clears LOCKED. -/
  | timeCtlSrcChange (v : Word)
  /-- SOURCE_LOCK (R56): The source's offset stays below 8 ns for 16 measurements, so LOCKED is set, with a step on the first lock if needed. -/
  | sourceLock (first : BitVec 48) (meas : List (BitVec 48)) (adj : Option (BitVec 40))
  /-- SOURCE_LOST (R57): The source gives no valid measurement for 2 s, so the device enters holdover. -/
  | sourceLost
  /-- PPS_IN_EDGE (R54): A rising edge of PPS_IN is timestamped into TIME_PPS_CAPTURE. -/
  | ppsInEdge
  /-- PPS_OUT (R52): PPS_OUT rises at each whole second of device time when enabled and valid. -/
  | ppsOut
  /-- PTP_MESSAGE (R58): An IEEE 1588 message on the management Ethernet port is timestamped and handled by the client or grandmaster. -/
  | ptpMessage (m : PtpMsg)
  /-- PTP_ANNOUNCE_SEND (R59): As grandmaster, the custodian firmware sends Announce messages with the configured values. -/
  | ptpAnnounceSend (clockClass : BitVec 8) (accuracy : BitVec 8) (prio1 : BitVec 8) (prio2 : BitVec 8)
  /-- BEAT_EDGE (R70): A beat edge arrives in device time; if the work of beat B is complete, the device writes the census, applies swaps, control commands and roles, advances collectives and begins the next beat. -/
  | beatEdge
  /-- BEAT_RUN_START (R67): A write of 1 to BEAT_CTL.RUN starts beats at the next edge, or is discarded without valid time or a plan. -/
  | beatRunStart (v : Word)
  /-- BEAT_RUN_STOP (R68): A write of 0 to BEAT_CTL.RUN stops beats once the current beat's work is complete. -/
  | beatRunStop (v : Word)
  /-- PLAN_COMMIT (R74): A write to BEAT_PLAN_START commits the staged plan from index START. -/
  | planCommit (v : Word)
  /-- APPLY_WHILE_STOPPED (R71): While beats are not running, a setting or action due at the next edge is applied within 1 µs. -/
  | applyWhileStopped
  /-- CELL_COPY_DONE (R98): A carried-state copy to the incoming cell ends, and the swapped logical cell starts its threads. -/
  | cellCopyDone (c : PCell) (bad : List Nat)
  /-- ICACHE_INV (R120): A write of 1 to CELL_CTL.ICACHE_INV requests instruction-cache invalidation at the next edge. -/
  | icacheInv (die : TDie) (v : Word)
  /-- INSTRUCTION_FETCH (R119): An instruction-cache miss fills with 128-byte reads, and a fetch that ends with a status traps with cause FETCH. -/
  | instructionFetch (c : PCell) (t : Tid)
  /-- RUN_AHEAD_SCAN (R135): A waiting thread's following instructions are scanned, and run-ahead loads are issued into its buffer. -/
  | runAheadScan (c : PCell) (t : Tid)
  /-- ILLEGAL (R122): An instruction with a reserved class, a class that the role does not allow, or an undefined operation traps with cause ILLEGAL. -/
  | illegal (c : PCell) (t : Tid) (w : Word128)
  /-- NOP (R125): The control NOP instruction does nothing. -/
  | nop (c : PCell) (t : Tid) (w : Word128)
  /-- ENDB (R95): The thread enters ENDED, with CARRY deciding whether state is carried. -/
  | endb (c : PCell) (t : Tid) (w : Word128)
  /-- BR (R125): Relative branch. -/
  | br (c : PCell) (t : Tid) (w : Word128)
  /-- BRR (R125): Branch to a register target. -/
  | brr (c : PCell) (t : Tid) (w : Word128)
  /-- CALL (R125): Pushes the return address and branches. -/
  | call (c : PCell) (t : Tid) (w : Word128)
  /-- RET (R125): Pops the return stack into pc. -/
  | ret (c : PCell) (t : Tid) (w : Word128)
  /-- LOOP (R125): Repeats the following instructions a counted number of times. -/
  | loop (c : PCell) (t : Tid) (w : Word128)
  /-- CMP (R125): Compares a scalar register into a condition register. -/
  | cmp (c : PCell) (t : Tid) (w : Word128)
  /-- CLOG (R125): Combines condition registers logically. -/
  | clog (c : PCell) (t : Tid) (w : Word128)
  /-- WAITM (R125): Waits until the thread's memory requests in flight fall to a limit. -/
  | waitm (c : PCell) (t : Tid) (w : Word128)
  /-- WAITT (R125): Waits until a tile register has no pending write. -/
  | waitt (c : PCell) (t : Tid) (w : Word128)
  /-- SLEEP (R125): Puts the thread to sleep for IMM cycles, or for WAITHINT. -/
  | sleep (c : PCell) (t : Tid) (w : Word128)
  /-- SLEEP_EXPIRE (R125): A thread's sleep count expires, and the thread becomes READY. -/
  | sleepExpire (c : PCell) (t : Tid)
  /-- BAR (R126): The thread waits at a barrier, which completes when every thread in the masks has arrived. -/
  | bar (c : PCell) (t : Tid) (w : Word128)
  /-- FENCE (R397): Waits for earlier memory requests and acts as the read-after-flag fence at the port die. -/
  | fence (c : PCell) (t : Tid) (w : Word128)
  /-- MFS (R128): Reads a special register. -/
  | mfs (c : PCell) (t : Tid) (w : Word128)
  /-- MTS (R128): Writes a special register. -/
  | mts (c : PCell) (t : Tid) (w : Word128)
  /-- BRK (R125): Writes a BREAK trap record in debug mode, otherwise does nothing. -/
  | brk (c : PCell) (t : Tid) (w : Word128)
  /-- ADD (R127): Scalar add. -/
  | add (c : PCell) (t : Tid) (w : Word128)
  /-- SUB (R127): Scalar subtract. -/
  | sub (c : PCell) (t : Tid) (w : Word128)
  /-- AND (R127): Scalar AND. -/
  | and (c : PCell) (t : Tid) (w : Word128)
  /-- OR (R127): Scalar OR. -/
  | or (c : PCell) (t : Tid) (w : Word128)
  /-- XOR (R127): Scalar XOR. -/
  | xor (c : PCell) (t : Tid) (w : Word128)
  /-- SHL (R127): Shift left. -/
  | shl (c : PCell) (t : Tid) (w : Word128)
  /-- SHR (R127): Logical shift right. -/
  | shr (c : PCell) (t : Tid) (w : Word128)
  /-- SRA (R127): Arithmetic shift right. -/
  | sra (c : PCell) (t : Tid) (w : Word128)
  /-- MUL (R127): Low 64-bit product. -/
  | mul (c : PCell) (t : Tid) (w : Word128)
  /-- MULHU (R127): High unsigned 64-bit product. -/
  | mulhu (c : PCell) (t : Tid) (w : Word128)
  /-- MIN (R127): Signed minimum. -/
  | min (c : PCell) (t : Tid) (w : Word128)
  /-- MAX (R127): Signed maximum. -/
  | max (c : PCell) (t : Tid) (w : Word128)
  /-- MINU (R127): Unsigned minimum. -/
  | minu (c : PCell) (t : Tid) (w : Word128)
  /-- MAXU (R127): Unsigned maximum. -/
  | maxu (c : PCell) (t : Tid) (w : Word128)
  /-- LI (R127): Loads the immediate. -/
  | li (c : PCell) (t : Tid) (w : Word128)
  /-- SEL (R127): Selects one of two scalar registers by a condition register. -/
  | sel (c : PCell) (t : Tid) (w : Word128)
  /-- MMA (R185): Matrix multiply-accumulate into an accumulator tile, dense or structured-sparse, with k-slice skipping. -/
  | mma (c : PCell) (t : Tid) (w : Word128)
  /-- MZERO (R190): Initialises an accumulator tile to zero of a type. -/
  | mzero (c : PCell) (t : Tid) (w : Word128)
  /-- MINIT (R196): Copies an FP32 or INT32 tile into an accumulator. -/
  | minit (c : PCell) (t : Tid) (w : Word128)
  /-- MDRAIN (R193): Converts an accumulator into a destination tile band, optionally zeroing the accumulator. -/
  | mdrain (c : PCell) (t : Tid) (w : Word128)
  /-- MSATF (R190): Copies an accumulator's saturation flag to a condition register. -/
  | msatf (c : PCell) (t : Tid) (w : Word128)
  /-- VCVT (R213): Converts elements between formats, including MX encoding and decoding. -/
  | vcvt (c : PCell) (t : Tid) (w : Word128)
  /-- VADD (R210): Elementwise add. -/
  | vadd (c : PCell) (t : Tid) (w : Word128)
  /-- VSUB (R210): Elementwise subtract. -/
  | vsub (c : PCell) (t : Tid) (w : Word128)
  /-- VMUL (R210): Elementwise multiply. -/
  | vmul (c : PCell) (t : Tid) (w : Word128)
  /-- VFMA (R210): Elementwise fused multiply-add. -/
  | vfma (c : PCell) (t : Tid) (w : Word128)
  /-- VMAX (R210): Elementwise maximum. -/
  | vmax (c : PCell) (t : Tid) (w : Word128)
  /-- VMIN (R210): Elementwise minimum. -/
  | vmin (c : PCell) (t : Tid) (w : Word128)
  /-- VABS (R210): Elementwise absolute value. -/
  | vabs (c : PCell) (t : Tid) (w : Word128)
  /-- VNEG (R210): Elementwise negation. -/
  | vneg (c : PCell) (t : Tid) (w : Word128)
  /-- VCMP (R210): Elementwise comparison into a mask. -/
  | vcmp (c : PCell) (t : Tid) (w : Word128)
  /-- VSEL (R212): Elementwise selection by mask. -/
  | vsel (c : PCell) (t : Tid) (w : Word128)
  /-- VRECIP (R220): Reciprocal. -/
  | vrecip (c : PCell) (t : Tid) (w : Word128)
  /-- VRSQRT (R220): Reciprocal square root. -/
  | vrsqrt (c : PCell) (t : Tid) (w : Word128)
  /-- VSQRT (R220): Square root. -/
  | vsqrt (c : PCell) (t : Tid) (w : Word128)
  /-- VEXP (R220): Natural exponential. -/
  | vexp (c : PCell) (t : Tid) (w : Word128)
  /-- VEXP2 (R220): Base-2 exponential. -/
  | vexp2 (c : PCell) (t : Tid) (w : Word128)
  /-- VLOG (R220): Natural logarithm. -/
  | vlog (c : PCell) (t : Tid) (w : Word128)
  /-- VTANH (R220): Hyperbolic tangent. -/
  | vtanh (c : PCell) (t : Tid) (w : Word128)
  /-- VSIGM (R220): Logistic sigmoid. -/
  | vsigm (c : PCell) (t : Tid) (w : Word128)
  /-- VGELU (R220): GELU activation. -/
  | vgelu (c : PCell) (t : Tid) (w : Word128)
  /-- VSILU (R220): SiLU activation. -/
  | vsilu (c : PCell) (t : Tid) (w : Word128)
  /-- VRSUM (R217): Sum reduction. -/
  | vrsum (c : PCell) (t : Tid) (w : Word128)
  /-- VRMAX (R216): Maximum reduction. -/
  | vrmax (c : PCell) (t : Tid) (w : Word128)
  /-- VRMIN (R216): Minimum reduction. -/
  | vrmin (c : PCell) (t : Tid) (w : Word128)
  /-- VRSSQ (R217): Sum-of-squares reduction. -/
  | vrssq (c : PCell) (t : Tid) (w : Word128)
  /-- VRMVAR (R218): Mean and variance per row. -/
  | vrmvar (c : PCell) (t : Tid) (w : Word128)
  /-- VSOFTMAX (R219): Softmax along rows. -/
  | vsoftmax (c : PCell) (t : Tid) (w : Word128)
  /-- VTR (R214): Transposes 32 × 32 blocks. -/
  | vtr (c : PCell) (t : Tid) (w : Word128)
  /-- VOCC (R215): Queries occupancy maps. -/
  | vocc (c : PCell) (t : Tid) (w : Word128)
  /-- VAND (R210): Bitwise AND of raw bits. -/
  | vand (c : PCell) (t : Tid) (w : Word128)
  /-- VOR (R210): Bitwise OR of raw bits. -/
  | vor (c : PCell) (t : Tid) (w : Word128)
  /-- VXOR (R210): Bitwise XOR of raw bits. -/
  | vxor (c : PCell) (t : Tid) (w : Word128)
  /-- RTOPK (R228): Selects the top-k experts per token and writes choice records. -/
  | rtopk (c : PCell) (t : Tid) (w : Word128)
  /-- RDISP (R237): Turns choice records into claims on a route table and writes combine records. -/
  | rdisp (c : PCell) (t : Tid) (w : Word128)
  /-- DISPATCH_CLAIM (R237): A claim lane serves one claim, giving a slot and a dispatch entry, or failing it as a drop or LATE. -/
  | dispatchClaim (die : TDie) (tbl : Fin 2) (lane : Fin 4)
  /-- RRND_OPEN (R232): Opens a route table by loading its route descriptor and starting speculation. -/
  | rrndOpen (c : PCell) (t : Tid) (w : Word128)
  /-- ROUTE_TABLE_LOADED (R233): The descriptor read completes, and the table becomes OPEN or fails with ERROR. -/
  | routeTableLoaded (die : TDie) (tbl : Fin 2)
  /-- RRND_CLOSE (R245): Moves an OPEN table to CLOSING. -/
  | rrndClose (c : PCell) (t : Tid) (w : Word128)
  /-- ROUND_CLOSE_DONE (R245): After all claims are answered, the round summary is written, the predictor trains and the table closes. -/
  | roundCloseDone (die : TDie) (tbl : Fin 2)
  /-- RRND_ABORT (R246): Aborts a round, answering waiting claims LATE and writing an ABORTED summary. -/
  | rrndAbort (c : PCell) (t : Tid) (w : Word128)
  /-- SPECULATIVE_LINE_ARRIVE (R252): A speculative fetch returns and becomes a speculative line, or is discarded. -/
  | speculativeLineArrive (die : TDie) (tbl : Fin 2) (expert : BitVec 10) (va : BitVec 57)
  /-- RCOMB (R248): Combines gathered expert rows weighted into token outputs. -/
  | rcomb (c : PCell) (t : Tid) (w : Word128)
  /-- RAMX (R256): Expands activity-mask bits into a vector mask for a tile. -/
  | ramx (c : PCell) (t : Tid) (w : Word128)
  /-- RBMASK (R258): Builds a block mask from segment ids and positions. -/
  | rbmask (c : PCell) (t : Tid) (w : Word128)
  /-- RBNEXT (R259): Finds the next non-empty block in a block-mask row or column. -/
  | rbnext (c : PCell) (t : Tid) (w : Word128)
  /-- RBEMASK (R260): Writes the element mask of part of a block. -/
  | rbemask (c : PCell) (t : Tid) (w : Word128)
  /-- PRED_CLEAR (R254): A write of 1 to ROUTE_CTL.PRED_CLEAR clears every routing-predictor counter at the next edge. -/
  | predClear (die : TDie) (v : Word)
  /-- LDS (R269): Loads rows from memory into scratchpad, casting if in a casting range. -/
  | lds (c : PCell) (t : Tid) (w : Word128)
  /-- LDT (R269): Loads tiles from memory into tile registers, casting if in a casting range. -/
  | ldt (c : PCell) (t : Tid) (w : Word128)
  /-- STS (R280): Stores scratchpad rows to memory after translating every page. -/
  | sts (c : PCell) (t : Tid) (w : Word128)
  /-- STT (R280): Stores tile registers to memory. -/
  | stt (c : PCell) (t : Tid) (w : Word128)
  /-- MVST (R273): Moves scratchpad to tile registers. -/
  | mvst (c : PCell) (t : Tid) (w : Word128)
  /-- MVTS (R273): Moves tile registers to scratchpad. -/
  | mvts (c : PCell) (t : Tid) (w : Word128)
  /-- PFB (R294): Fills a prefetch buffer and subscribes its source granules. -/
  | pfb (c : PCell) (t : Tid) (w : Word128)
  /-- PFW (R296): Waits for a prefetch buffer, refetches stale granules and reports freshness. -/
  | pfw (c : PCell) (t : Tid) (w : Word128)
  /-- PFR (R298): Releases a prefetch buffer and ends its subscriptions. -/
  | pfr (c : PCell) (t : Tid) (w : Word128)
  /-- GATH (R285): Gathers table rows selected by an index stream into scratchpad. -/
  | gath (c : PCell) (t : Tid) (w : Word128)
  /-- SCAT (R285): Scatters scratchpad rows to table rows selected by an index stream. -/
  | scat (c : PCell) (t : Tid) (w : Word128)
  /-- LOAD_RESPONSE (R278): A load request returns data; once a commit group is complete it is written, or the instruction ends with a status. -/
  | loadResponse (op : Nat) (req : Nat) (mouldErr : Bool)
  /-- STORE_COMPLETE (R265): A store request reaches its point of coherence and frees its slot. -/
  | storeComplete (op : Nat) (req : Nat)
  /-- WAIT_HINT (R301): A wait hint arrives and sets the thread's WAITHINT. -/
  | waitHint (c : PCell) (t : Tid) (cycles : BitVec 32)
  /-- DMA_COPY (R302): Copies LEN bytes. -/
  | dmaCopy (src : CmdSrc) (n : BitVec 32)
  /-- DMA_COPY_2D (R302): Copies strided rows. -/
  | dmaCopy2d (src : CmdSrc) (n : BitVec 32)
  /-- DMA_FILL (R302): Fills memory with a 64-bit pattern. -/
  | dmaFill (src : CmdSrc) (n : BitVec 32)
  /-- DMA_TILES (R302): Copies listed tiles. -/
  | dmaTiles (src : CmdSrc) (n : BitVec 32)
  /-- DMA_CHUNK_DONE (R304): A DMA chunk completes or ends with a status, and the command records once all chunks are done. -/
  | dmaChunkDone (src : CmdSrc) (n : BitVec 32) (chunk : Nat) (late : Bool)
  /-- VQ_MOULD_LOAD (R316): Moves a FREE mould to LOADING and loads a codebook file into it. -/
  | vqMouldLoad (src : CmdSrc) (n : BitVec 32)
  /-- MOULD_LOAD_DONE (R316): The codebook read and checks finish, and the mould becomes LIVE or returns to FREE. -/
  | mouldLoadDone (src : CmdSrc) (n : BitVec 32)
  /-- VQ_MOULD_RETIRE (R317): Moves a LIVE mould to DRAINING. -/
  | vqMouldRetire (src : CmdSrc) (n : BitVec 32)
  /-- VQATT (R333): Attaches a mould and copies its entries into scratchpad. -/
  | vqatt (c : PCell) (t : Tid) (w : Word128)
  /-- VQX (R334): Expands a block in scratchpad using an attachment. -/
  | vqx (c : PCell) (t : Tid) (w : Word128)
  /-- VQREL (R336): Releases an attachment. -/
  | vqrel (c : PCell) (t : Tid) (w : Word128)
  /-- HBM_READ (R354): A pseudo-channel serves a sector read, decoding it as good, poisoned EARLIER or FRESH. -/
  | hbmRead (la : BitVec 41) (agent : BitVec 8) (die : Die) (errs : List (BitVec 7 × Byte))
  /-- HBM_WRITE (R352): A pseudo-channel serves a write, with a read-modify-write for a partial sector. -/
  | hbmWrite (la : BitVec 41) (mask : BitVec 64) (data : BitVec 512) (agent : BitVec 8) (die : Die)
  /-- HBM_REFRESH (R345): A per-bank refresh is due and runs. -/
  | hbmRefresh (die : TDie) (pc : BitVec 8) (bank : BitVec 6)
  /-- HBM_CALIBRATION_STEP (R346): In a refresh window one lane group is retrained, margins are checked and a pass may complete. -/
  | hbmCalibrationStep (die : TDie) (stack : Fin 3) (pc : BitVec 6) (eyePct : BitVec 7) (lost : Bool) (passEnd : Bool)
  /-- SCRUB_READ (R358): Patrol scrub reads a sector, writing back a corrected one or poisoning an uncorrectable one. -/
  | scrubRead (die : TDie) (errs : List (BitVec 7 × Byte))
  /-- MEM_RETIRE_ADD (R363): A write of MEM_RETIRE_ADD enters a frame in the retire table, or is rejected. -/
  | memRetireAdd (die : Die) (v : Word)
  /-- RETIRE_TAKES_EFFECT (R363): In-flight requests to the frame complete, the retirement takes effect and PENDING clears. -/
  | retireTakesEffect (die : Die) (frame : BitVec 29)
  /-- BULK_ENABLE (R368): A write of MEM_BULK_CFG_n.EN enables or disables a bulk-tier port. -/
  | bulkEnable (port : HostPort) (v : Word)
  /-- BULK_REQUEST (R369): A bulk-tier request is sent to a CXL port with a timer. -/
  | bulkRequest (port : HostPort) (line : BitVec 31) (data : Option (BitVec 512)) (answered : Bool) (agent : BitVec 8) (die : Die) (own : Option (Nat × Nat))
  /-- TIER_TIMEOUT (R369): A bulk-tier request timer expires; a read ends, and a write enters the fence list. -/
  | tierTimeout (id : Nat)
  /-- BULK_LATE_COMPLETION (R369): A late write completion arrives and removes its line from the fence list. -/
  | bulkLateCompletion (id : Nat)
  /-- PORT_FAULT (R370): A full fence list, an aged fence line or a link down makes the port FAULTED. -/
  | portFault (port : HostPort) (linkDown : Bool)
  /-- HOME_REQUEST (R375): A home accepts and serves a coherent request to a line, using the directory, memory or a broadcast. -/
  | homeRequest (agent : Fin 32) (line : BitVec 35) (kind : Fin 4) (data : Option (BitVec 512)) (evict : Option (BitVec 35))
  /-- UNTRACK_NOTICE (R378): A holder receives an untrack notice and sets its copy's U bit. -/
  | untrackNotice (agent : Fin 32) (line : BitVec 35)
  /-- DROP_NOTICE (R379): The home receives a drop notice and decrements the untracked filter. -/
  | dropNotice (line : BitVec 35)
  /-- BROADCAST_SNOOP (R380): A broadcast snoop reaches an agent, which answers with its state and clears its U bit. -/
  | broadcastSnoop (agent : Fin 32) (line : BitVec 35)
  /-- SNOOP (R384): A snoop or invalidation reaches an agent, which answers after its hold and marks subscribers stale. -/
  | snoop (agent : Fin 32) (line : BitVec 35)
  /-- HOLD_END (R384): An agent's minimum hold on a line ends, and waiting snoops are answered. -/
  | holdEnd (agent : Fin 32) (line : BitVec 35) (sc : Bool)
  /-- FAR_ATOMIC (R389): A home performs a far atomic after recalling and invalidating copies. -/
  | farAtomic (die : Die) (agent : BitVec 8) (la : BitVec 41) (op : Fin 11) (wide : Bool) (a : Word) (b : Word)
  /-- NEAR_ATOMIC (R389): An agent obtains the line and performs the atomic in its copy, updating the predictor. -/
  | nearAtomic (agent : Fin 32) (la : BitVec 41) (op : Fin 11) (wide : Bool) (a : Word) (b : Word) (waited : Bool)
  /-- COH_PRED_CLEAR (R391): A write of 1 to COH_CTL.PRED_CLEAR resets contention-predictor counters at the next edge. -/
  | cohPredClear (die : Die) (v : Word)
  /-- PAGE_WALK (R410): A shared-TLB miss walks Sv57 tables, installing a translation, updating A and D, or faulting. -/
  | pageWalk (op : Nat) (req : Nat)
  /-- FAULT_RECORD_DEFERRED (R428): A fault that waited for room is recorded once the ring allows it. -/
  | faultRecordDeferred (die : TDie)
  /-- XLAT_FQ_RESP_RETRY (R429): A RETRY response makes the faulted requests walk again. -/
  | xlatFqRespRetry (die : TDie) (number : BitVec 32)
  /-- XLAT_FQ_RESP_ABORT (R429): An ABORT response ends the faulted requests with TRANSLATION_ABORT. -/
  | xlatFqRespAbort (die : TDie) (number : BitVec 32)
  /-- FAULT_WATCHDOG_EXPIRE (R430): A fault's timer expires and ends its requests with TRANSLATION_ABORT or FAULTQ_OVERFLOW. -/
  | faultWatchdogExpire (die : TDie) (fault : Nat)
  /-- XLAT_INV_GO (R420): A write of GO to XLAT_INV_CTL starts an invalidation of the chosen scope. -/
  | xlatInvGo (die : Fin 5) (v : Word)
  /-- INVALIDATION_DONE (R422): All conditions of the invalidation hold, GO clears and DONE_COUNT increases. -/
  | invalidationDone (die : Fin 5)
  /-- AS_SLOT_INVALID (R408): Clearing XLAT_AS_CFG_n.VALID invalidates every cached translation of the slot's ASID. -/
  | asSlotInvalid (die : TDie) (n : BitVec 6) (v : Word)
  /-- QUEUE_ENABLE (R439): A write of 1 to CMD_QCFG_q.EN makes an OFF queue ON with pointers zeroed. -/
  | queueEnable (q : QueueId) (v : Word)
  /-- QUEUE_DISABLE (R439): A write of 0 to EN makes the queue DRAINING, and it becomes OFF when started commands are recorded. -/
  | queueDisable (q : QueueId) (v : Word)
  /-- DOORBELL (R441): A doorbell write publishes a new SQ_TAIL, or is discarded with DB_ERR. -/
  | doorbell (q : QueueId) (v : Word)
  /-- CQ_HEAD_WRITE (R472): A write of CQ_HEAD consumes records, or is discarded with DB_ERR. -/
  | cqHeadWrite (q : QueueId) (v : Word)
  /-- PACKET_READ (R447): The front end reads and parses one packet of a queue, starting the command when allowed or stopping the queue on a read error. -/
  | packetRead (die : TDie)
  /-- HELD_RECORD_WRITE (R459): A held work-list record is written once its completion ring has room. -/
  | heldRecordWrite (die : TDie) (q : QueueId)
  /-- THREAD_ENTRY_RECORD (R471): A THREAD entry's record becomes ready when its thread has ended and its requests have completed. -/
  | threadEntryRecord (index : Nat)
  /-- CMD_NOP (R452): The NOP command completes with OK, serving as a fence with ORDER. -/
  | cmdNop (src : CmdSrc) (n : BitVec 32)
  /-- SIGNAL (R452): After earlier commands record, writes VALUE to ADDR. -/
  | signal (src : CmdSrc) (n : BitVec 32)
  /-- ATOMIC (R454): Performs one atomic operation from a command packet. -/
  | atomic (src : CmdSrc) (n : BitVec 32)
  /-- CTL_ROLE (R464): Sets the role of named cells at the edge at which it is due. -/
  | ctlRole (src : CmdSrc) (n : BitVec 32)
  /-- CTL_POWER (R662): Sets the power level of named tensor dies. -/
  | ctlPower (src : CmdSrc) (n : BitVec 32)
  /-- CTL_SELFTEST (R625): Runs a self-test on named units by rotation, deferral, in-place or module-at-a-time testing. -/
  | ctlSelftest (src : CmdSrc) (n : BitVec 32)
  /-- CTL_CALIBRATE (R630): Requests calibration of lanes, HBM stacks or UCIe links. -/
  | ctlCalibrate (src : CmdSrc) (n : BitVec 32)
  /-- CTL_SWAP_RETIRE (R618): Retires named units and brings in spares, or makes them due. -/
  | ctlSwapRetire (src : CmdSrc) (n : BitVec 32)
  /-- CTL_SWAP_RETURN (R618): Returns a retired unit to probation. -/
  | ctlSwapReturn (src : CmdSrc) (n : BitVec 32)
  /-- CONTROL_APPLY_STOPPED (R465): While beats are stopped, a control command is applied alone within 50 µs of acceptance. -/
  | controlApplyStopped
  /-- FW_MAILBOX_GO (R468): Host-die firmware submits one control command through CMD_FW_CTL.GO. -/
  | fwMailboxGo (who : Requester)
  /-- MGMT_MAILBOX_GO (R655): The management port submits one control command through MGMT_MB_CTL.GO. -/
  | mgmtMailboxGo (who : Requester)
  /-- UPD_GROUPS_LOAD (R476): Reads and checks group records and curves for installation. -/
  | updGroupsLoad (src : CmdSrc) (n : BitVec 32)
  /-- UPD_GROUPS_STEP (R491): Reads q and commits or skips a step for the named groups. -/
  | updGroupsStep (src : CmdSrc) (n : BitVec 32)
  /-- UPD_GROUPS_SAVE (R479): Writes the current group records to memory. -/
  | updGroupsSave (src : CmdSrc) (n : BitVec 32)
  /-- UPD_INSTALL (R478): A LOAD or STEP is installed on a die when no update instruction on its groups is executing. -/
  | updInstall (src : CmdSrc) (n : BitVec 32) (die : TDie)
  /-- UPD (R483): Applies the group's update rule to parameter, gradient and state streams with clipping. -/
  | upd (c : PCell) (t : Tid) (w : Word128)
  /-- CKPT_ARM (R495): Arms regions for checkpointing to a neighbour, recalling M and E copies. -/
  | ckptArm (src : CmdSrc) (n : BitVec 32)
  /-- CKPT_DISARM (R503): Disarms checkpointing and abandons any maquette in progress. -/
  | ckptDisarm (src : CmdSrc) (n : BitVec 32)
  /-- CKPT_CUT (R503): Requests a cut at the next edge, completing with the maquette. -/
  | ckptCut (src : CmdSrc) (n : BitVec 32)
  /-- PAGE_STAGED (R499): A keeper finishes staging a page, and held writes to it are accepted. -/
  | pageStaged (page : Nat) (sent : List Nat)
  /-- MAQUETTE_COMPLETE (R501): All maquette writes complete at the neighbour, MNUM is written last, and NOTIFY is written. -/
  | maquetteComplete (status : BitVec 16) (sent : List Nat)
  /-- CKPT_FULL (R502): A write of 1 to CKPT_CTL.FULL marks every armed page dirty at the next cut. -/
  | ckptFull (v : Word)
  /-- CKPT_RESTORE (R505): Restores a maquette from a neighbour's bulk tier into HBM and the group stores. -/
  | ckptRestore (src : CmdSrc) (n : BitVec 32) (area : List (Nat × Byte)) (again : Word) (status : BitVec 16)
  /-- BLOAD (R515): Sets the bit reader. -/
  | bload (c : PCell) (t : Tid) (w : Word128)
  /-- BGET (R515): Reads bits from the bit reader. -/
  | bget (c : PCell) (t : Tid) (w : Word128)
  /-- BHUFF (R516): Decodes Huffman symbols with a table. -/
  | bhuff (c : PCell) (t : Tid) (w : Word128)
  /-- BUNPK (R515): Unpacks fixed-width codes. -/
  | bunpk (c : PCell) (t : Tid) (w : Word128)
  /-- BTAKE (R512): Takes the oldest untaken sample of the served job slots. -/
  | btake (c : PCell) (t : Tid) (w : Word128)
  /-- BPUT (R515): Ends or checks a sample. -/
  | bput (c : PCell) (t : Tid) (w : Word128)
  /-- ING_DECODE (R524): Accepts a decode job into a job slot. -/
  | ingDecode (src : CmdSrc) (n : BitVec 32)
  /-- STAGING_ALLOCATED (R522): A waiting sample obtains its staging allocation and may start decoding. -/
  | stagingAllocated (die : TDie) (slot : Fin 16) (sample : Nat) (head : List Byte)
  /-- SAMPLE_COPY_DONE (R528): A decoded sample's copy to the batch finishes with its MASK bits, and the sample is included. -/
  | sampleCopyDone (die : TDie) (slot : Fin 16) (sample : Nat)
  /-- SAMPLE_WITHDRAW (R533): A sample's decode time exceeds its budget, and it ends with DECODE_TIMEOUT. -/
  | sampleWithdraw (die : TDie) (slot : Fin 16) (sample : Nat)
  /-- ING_ENV_START (R535): Starts an alignment set of environment streams on a slot. -/
  | ingEnvStart (src : CmdSrc) (n : BitVec 32)
  /-- ING_ENV_STOP (R535): Stops a slot's alignment set after the tick in progress. -/
  | ingEnvStop (src : CmdSrc) (n : BitVec 32)
  /-- ENV_TICK (R536): At T + GRACE a tick selects stream records and makes a joint sample or counts a miss. -/
  | envTick (die : TDie) (slot : Fin 16)
  /-- FLIT_RECEIVE (R551): A native link flit is received, accepted in order or answered with NAK, and credits and ACKs are processed. -/
  | flitReceive (sp : SubPortId) (flit : List Byte) (uncorr : BitVec 8)
  /-- REPLAY_TIMEOUT (R551): After 10 µs without ACK progress, the sender replays from the flit after ACK. -/
  | replayTimeout (sp : SubPortId)
  /-- SUBPORT_DOWN (R551): 16 fruitless replays or 1 ms out of block lock take a sub-port down. -/
  | subportDown (sp : SubPortId) (unlocked : Bool)
  /-- FABRIC_LINK_UP (R552): A sub-port trains and exchanges identity control flits with its partner. -/
  | fabricLinkUp (sp : SubPortId) (lanes : BitVec 8) (phys : BitVec 15) (logical : BitVec 15) (credits : List (BitVec 16))
  /-- TIMING_FLIT (R60): A timing flit is sent every 1 µs on each native sub-port, or received and timestamped. -/
  | timingFlit (sp : SubPortId) (round : Option (BitVec 48))
  /-- LANE_LOSS (R542): A lost lane is replaced by a spare or the port degrades to 4 lanes or goes down. -/
  | laneLoss (port : PortId) (lane : Fin 8) (partner : Bool)
  /-- PORT_CFG_WRITE (R539): A write changing MODE or SPLIT of FAB_PORT_CFG_k takes the port down and retrains it. -/
  | portCfgWrite (port : PortId) (v : Word)
  /-- FAB_ID_WRITE (R545): A write of FAB_ID sets the package identities, or is discarded while RUN is 1. -/
  | fabIdWrite (v : Word)
  /-- FAB_REMAP_WRITE (R546): A write of a remap entry sets its destination and clears the lost mark. -/
  | fabRemapWrite (pd : PDie) (l : BitVec 15) (v : Word)
  /-- ETH_FRAME_RECEIVE (R553): A Lanty-over-Ethernet frame is checked and its transport packet taken, or discarded. -/
  | ethFrameReceive (sp : SubPortId) (frame : List Byte) (fcsBad : Bool)
  /-- ARP_REQUEST (R554): The device answers ARP requests and neighbour solicitations for its own address. -/
  | arpRequest (sp : SubPortId) (frame : List Byte)
  /-- TRANSPORT_REQUEST_SEND (R559): A request to another package is sent as a transport packet via the remap and route tables. -/
  | transportRequestSend (who : Sender)
  /-- TRANSPORT_PACKET_ACCEPT (R545): A port die accepts or NAKs a packet addressed to its package by identity checks. -/
  | transportPacketAccept (pd : PDie) (room : Bool)
  /-- READ (R560): A transport READ is issued to its home in PSN order. -/
  | read (pd : PDie)
  /-- WRITE (R560): A transport WRITE is issued, honouring ORDERED, and WRITE_ACK is sent at the point of coherence. -/
  | write (pd : PDie)
  /-- TRANSPORT_ATOMIC (R560): A transport ATOMIC runs far at the target's home. -/
  | transportAtomic (pd : PDie)
  /-- READ_DATA (R560): Read data returns with poison bits and may fill the remote line buffer. -/
  | readData (pd : PDie)
  /-- WRITE_ACK (R559): A remote store completes at WRITE_ACK. -/
  | writeAck (pd : PDie)
  /-- ATOMIC_DATA (R557): A remote atomic's old value returns. -/
  | atomicData (pd : PDie)
  /-- ACK (R558): A connection acknowledgement releases retained packets and adjusts the window. -/
  | ack (pd : PDie)
  /-- NAK (R557): A NAK ends a request or marks a partner lost, or REFUSED schedules a retransmission. -/
  | nak (pd : PDie)
  /-- ACK_TIMER (R558): The receiver acknowledges after 8 packets or 2 µs. -/
  | ackTimer (pd : PDie) (phys : BitVec 15) (cls : Fin 3) (logical : BitVec 15)
  /-- RETRANSMIT_TIMEOUT (R558): A packet is retransmitted after RTO_US, and exhausted retries lose the partner. -/
  | retransmitTimeout (pd : PDie) (phys : BitVec 15) (cls : Fin 3)
  /-- COLL (R575): A collective packet is received and combined into its phase. -/
  | coll (pd : PDie)
  /-- HEARTBEAT (R582): A HEARTBEAT is sent to each watched partner every period or received and answered at once. -/
  | heartbeat (pd : PDie) (received : Bool)
  /-- HEARTBEAT_MISS (R583): MISS consecutive heartbeats unanswered, so the partner is lost. -/
  | heartbeatMiss (pd : PDie) (logical : BitVec 15)
  /-- ANNOUNCE (R583): A received ANNOUNCE marks its sender lost. -/
  | announce (pd : PDie)
  /-- LT_PUT (R565): Copies bytes to another package and optionally writes a flag. -/
  | ltPut (src : CmdSrc) (n : BitVec 32)
  /-- LT_GET (R566): Copies bytes from another package. -/
  | ltGet (src : CmdSrc) (n : BitVec 32)
  /-- LT_READ_FENCE (R567): Completes when the read-after-flag fence has ended on both port dies. -/
  | ltReadFence (src : CmdSrc) (n : BitVec 32)
  /-- COLL_POST (R570): Posts a collective on the port die's engine. -/
  | collPost (src : CmdSrc) (n : BitVec 32)
  /-- COLLECTIVE_ABORT (R580): A received abort ends the collective with the member's status. -/
  | collectiveAbort (pd : PDie)
  /-- CTAKE (R581): Offers a scratchpad window to the engine and takes a reduction item if ready. -/
  | ctake (c : PCell) (t : Tid) (w : Word128)
  /-- CGIVE (R581): Returns a reduction item's result to the engine. -/
  | cgive (c : PCell) (t : Tid) (w : Word128)
  /-- ARBITER_GRANT (R594): At a break point or idle cycle the arbiter chooses a winner by aging, class and round robin, and gives wait hints. -/
  | arbiterGrant (die : Die) (inst : BitVec 8) (heads : List ArbReq)
  /-- ARB_WINDOW_END (R596): An arbiter window ends, clearing used counts and masks and applying staged settings. -/
  | arbWindowEnd (die : Die) (inst : BitVec 8)
  /-- ARB_MAX_CLR (R601): A write of 1 to ARB_CTL.MAX_CLR clears ARB_MAXWAIT at the next window end. -/
  | arbMaxClr (die : Die) (inst : BitVec 8) (v : Word)
  /-- SPARE_PATINA_WRITE (R614): A write of SPARE_PATINA sets the selected unit's patina, crossing thresholds as an event would. -/
  | sparePatinaWrite (v : Word)
  /-- PROBATION_TEST_END (R625): A probation self-test ends with a pass or fail, applied at the next edge. -/
  | probationTestEnd (kind : Fin 8) (die : Die) (idx : BitVec 16) (pass : Bool)
  /-- INPLACE_TEST_END (R627): An in-place test ends and its outcome is applied at once. -/
  | inplaceTestEnd (kind : Fin 8) (die : Die) (idx : BitVec 16) (pass : Bool)
  /-- HOST_CORE_SWAP_DONE (R621): A host-core swap finishes moving the hart's state, and the hart resumes. -/
  | hostCoreSwapDone (core : BitVec 7)
  /-- WAY_EVICTION_DONE (R623): A retired die-cache way finishes evicting and a repair way is brought in. -/
  | wayEvictionDone (die : TDie) (way : BitVec 5)
  /-- SPARE_PPR_REQ (R631): A write of GO to SPARE_PPR_REQ starts a soft post-package repair of an HBM row. -/
  | sparePprReq (die : TDie) (v : Word)
  /-- PPR_DONE (R631): A soft repair finishes, held requests are released and GO clears. -/
  | pprDone (die : TDie)
  /-- PWRGOOD_DEASSERT (R636): PWRGOOD deasserted takes the package to Night. -/
  | pwrgoodDeassert
  /-- RESET_N_ASSERT (R636): RESET_N asserted takes the package to Night. -/
  | resetNAssert
  /-- NIGHT_EXIT (R636): PWRGOOD asserted and RESET_N deasserted take the package from Night to Dawn. -/
  | nightExit (auxOff : Bool)
  /-- DAWN_SELFTEST_DONE (R638): Self-test, link-up and HBM training finish, and Dawn proceeds to AWAIT or is held. -/
  | dawnSelftestDone (failed : List (BitVec 28)) (sram : Option Die) (rows : List (BitVec 16)) (cols : List (BitVec 16)) (hbmBad : Option (Fin 12))
  /-- IDENTITY (R641): Derives the identity from written helper data. -/
  | identity
  /-- ENROLL (R641): Makes fresh helper data and derives the identity. -/
  | enroll
  /-- IMAGE_READY (R648): Starts verification of the staged image. -/
  | imageReady (length : BitVec 56)
  /-- FABRIC_BOOT (R647): Reads the image over the fabric into staging, then acts as IMAGE_READY. -/
  | fabricBoot (status : BitVec 16) (image : List Byte)
  /-- IMAGE_VERIFY_DONE (R648): Verification ends, passing to LOAD or holding with reason 0x7. -/
  | imageVerifyDone
  /-- IMAGE_LOAD_DONE (R650): The components are placed, BOOT_INFO is written and PHASE becomes READY. -/
  | imageLoadDone (ingAt : List (BitVec 41)) (collAt : List (BitVec 41))
  /-- DUSK_RESET (R659): Enters Dusk, ending in Dawn. -/
  | duskReset
  /-- DUSK_OFF (R659): Enters Dusk, ending in Night. -/
  | duskOff
  /-- RESET_NOW (R636): Takes the package to Dawn at once. -/
  | resetNow
  /-- DEBUG_ON (R664): Puts every die in debug mode until the next Dawn. -/
  | debugOn
  /-- ATTEST (R665): Management command that makes the custodian write an attestation report. -/
  | attest
  /-- SEC_ATT_GO (R665): A write of GO to SEC_ATT_CTL by host firmware requests an attestation report written to memory. -/
  | secAttGo (who : Requester)
  /-- ATTEST_REPORT_DONE (R665): The report is signed and made readable, with MAGIC written last in memory. -/
  | attestReportDone
  /-- MGMT_CMD_UNKNOWN (R666): An MGMT_CMD with an unknown code completes with ERR 0x1. -/
  | mgmtCmdUnknown (code : BitVec 8)
  /-- REGISTER_TRANSFER (R652): An I3C or SPI register transfer reads or writes CSR windows, or is discarded with BUS_ERR. -/
  | registerTransfer (addr : BitVec 32) (store : Option (List Byte)) (len : Nat)
  /-- MGMT_DW_ADDR_WRITE (R654): A write of MGMT_DW_ADDR selects a target and offset and resets MGMT_DW_CRC. -/
  | mgmtDwAddrWrite (v : Word)
  /-- MGMT_DW_DATA_WRITE (R654): A write of MGMT_DW_DATA moves 8 bytes to the target and advances the offset. -/
  | mgmtDwDataWrite (v : Word)
  /-- MGMT_DW_DATA_READ (R654): A read of MGMT_DW_DATA returns 8 bytes of the target and advances the offset. -/
  | mgmtDwDataRead
  /-- LEASE_GRANT (R657): A write of MGMT_LEASE.GRANT_MS sets the remaining lease and, in READY, takes the package to Day. -/
  | leaseGrant (v : Word)
  /-- LEASE_MESSAGE (R657): A lease message over Ethernet is checked and grants the lease, or is refused. -/
  | leaseMessage (frame : List Byte)
  /-- LEASE_LOW (R658): The remaining lease falls below LOW_PCT of the grant, and LEASE_LOW is raised. -/
  | leaseLow
  /-- LEASE_EXPIRE (R657): The lease reaches 0 in Day, so ANNOUNCE is sent and the package enters Dusk. -/
  | leaseExpire
  /-- DUSK_END (R659): Dusk's drain ends or times out, and the package enters Dawn or Night. -/
  | duskEnd
  /-- TEMPERATURE_SAMPLE (R682): Temperatures are sampled every 1 ms and HOTTEST_C is updated. -/
  | temperatureSample (dies : List (BitVec 8)) (hbm : List (BitVec 8)) (hold : BitVec 8)
  /-- HOST_HEARTBEAT (R663): HD sends a heartbeat with ALIVE on every TD–HD link every 10 µs. -/
  | hostHeartbeat
  /-- HOST_HEARTBEAT_TIMEOUT (R663): No ALIVE heartbeat for 100 µs is a host-die loss. -/
  | hostHeartbeatTimeout (die : TDie)
  /-- HOST_WDOG_EXPIRE (R651): The host watchdog expires and clears ALIVE in the heartbeat. -/
  | hostWdogExpire
  /-- HOST_WDOG_KICK (R666): A write of KICK to BOOT_HOST_WDOG restarts the host watchdog. -/
  | hostWdogKick (v : Word)
  /-- AVS_SETPOINT (R669): The custodian sets or raises a core rail over the AVS bus. -/
  | avsSetpoint (die : Die) (mv : BitVec 10)
  /-- INPUT_UNDERVOLTAGE (R673): The input falls below 38 V, and the power stage deasserts PWRGOOD and removes the rails. -/
  | inputUndervoltage
  /-- REFCLK_FAULT (R678): REFCLK100 leaves tolerance for more than 10 µs, FAULT_N is asserted and PWRGOOD falls. -/
  | refclkFault (romEnd : Bool)
  /-- CXL_LINK_UP (R368): A host-die port's CXL link trains, or is retrained after a reset, so that EN = 1 can be accepted and LINK_UP, WIDTH and GTS are set. -/
  | cxlLinkUp (port : HostPort) (width16 : Bool) (gts : BitVec 8) (pcie : Bool)
  /-- UCIE_LANE_FAILURE (R18): A lane inside a UCIe module fails and is replaced by a redundant lane, or the module becomes unrepairable and awaits removal at an edge. -/
  | ucieLaneFailure (l : LinkId) (m : Fin 24) (redundant : Bool)
  /-- UCIE_FLIT_RETRY (R17): A UCIe flit arrives with a bad flit CRC, and link-level retry replays it while the retry adds to the module's patina. -/
  | ucieFlitRetry (l : LinkId) (m : Fin 24)
  /-- LANE_ADAPTATION_PASS (R630): A SerDes lane finishes a continuous adaptation pass, completing a pending CTL_CALIBRATE and scoring patina when the eye is below LANE_MARGIN. -/
  | laneAdaptationPass (pd : PDie) (lane : BitVec 8) (eyePct : BitVec 7) (fec : BitVec 32)
  /-- TIMING_MARGIN_SAMPLE (R611): Once per ms the timing margin of each cell and host core is sampled, adding patina when it is below LOGIC_MARGIN and feeding the AVS raise of R669. -/
  | timingMarginSample (die : Die) (idx : BitVec 8) (pct : BitVec 7)
  /-- REFCLK_RESTORED (R678): REFCLK100 returns to tolerance while the custodian waits in phase ROM, so FAULT_N is released and Dawn continues. -/
  | refclkRestored
  /-- REF10M_OUT (R52): REF10M_OUT rises whenever device time mod 100 = 0, when it is enabled and device time is valid. -/
  | ref10mOut
  /-- HOST_HART_FENCE (R563): A host hart's FENCE with R in its predecessor set, or a load-acquire, begins the read-after-flag fence on both port dies. -/
  | hostHartFence
deriving DecidableEq, Repr

end Sys2Proof
end

