-- ==== Sys2Proof/Decode.lean ====
section
/-! DEFINITION. The table of commands gives no bits to any row, so no word spells a command. -/

namespace Sys2Proof

/-- The command that a word spells by the table's bits: none, for every row gives none. -/
def decodeTableWord (_nbits _w : Nat) : Option Instr := none

end Sys2Proof
end

