-- ==== Sys2Proof/Config.lean ====
section
/-! DEFINITION. What the spec leaves open: the free values. Each is a constant without a body, so no proof can see what it
is. Each is named in the assumption log. -/

namespace Sys2Proof.Config

/-- Undefined contents (R96, R191, R305, R627, R662, R663): what byte `addr` of a RAM reads as in epoch `epoch`, before it
is written. Free value; log 4. -/
opaque undefByte : (epoch addr : Nat) → Byte

/-- A bit whose value the spec leaves unspecified, chosen afresh for each index. Free value; log 5. -/
opaque freeBit : Nat → Bool

/-- A 64-bit value the spec leaves unspecified, chosen afresh for each index. Free value; log 5. -/
opaque freeWord : Nat → Word

/-- The hash of a connection that Lanty over Ethernet sends as UDP source port (R553): source, destination, class. -/
opaque connHash : Nat → Nat → Nat → BitVec 16

/-- The repair rows that a bank of a die's HBM has for soft repair, by pseudo-channel * 64 + bank (R631); log 38. -/
opaque pprRows : (die bank : Nat) → Nat

/-- The FP32 intermediate of a transcendental operation (R220): the operation's code and the exact source value as a
numerator and a denominator. The spec gives bounds (Safety.TranscBounds), not the value. Free value; log 6. -/
opaque transc : (op : Nat) → (num : Int) → (den : Nat) → BitVec 32

/-- Whether that intermediate lies beyond the FP32 range (R221): an overflow of the sign of `transc`. Free value; log 6. -/
opaque transcOver : (op : Nat) → (num : Int) → (den : Nat) → Bool

/-- Whether that intermediate, not zero exactly, is zero in FP32 (R221): a vanished value of the sign of `transc`. Free
value; log 6. -/
opaque transcVanish : (op : Nat) → (num : Int) → (den : Nat) → Bool

/-- The SHA3-256 digest of the Psiquin root key in the custodian mask ROM (R648): its 32 bytes; log 44. -/
opaque rootDigest : Nat → Byte

/-- Whether an ML-DSA-65 signature verifies (FIPS 204) under a public key, with an empty context string; log 44. -/
opaque mldsaVerify : (pub msg sig : List Byte) → Bool

/-- Byte i of the ML-DSA-65 signature of a message by the identity key of helper data (R641, R665); log 44. -/
opaque mldsaSign : (helper msg : List Byte) → Nat → Byte

/-- Byte i of the identity public key that helper data and this package's PUF give (R641, R642); log 44. -/
opaque identityKey : (helper : List Byte) → Nat → Byte

/-- Whether helper data pass their integrity check (R642); log 44. -/
opaque helperGood : (helper : List Byte) → Bool

/-- Byte i of fresh helper data, for each enrolment (R641); log 44. -/
opaque enrolData : (n i : Nat) → Byte

/-- Byte i of the boot information block (R650), whose layout the spec does not give, from what it lists: type, address,
length and digest of each component, the effective capability word, and FAB_ID; log 45. -/
opaque bootInfo : (comps : List (Nat × Nat × Nat × List Byte)) → (cap fabId : Nat) → Nat → Byte

end Sys2Proof.Config
end

