-- ==== Sys2Proof/Machine/Bits.lean ====
section
/-! DEFINITION. Bit fields, sign extension and byte order (R5), used by every other file. -/

namespace Sys2Proof.Machine

/-- Bits [lo + w - 1 : lo] of `v`. -/
def bitsOf (v lo w : Nat) : Nat := (v >>> lo) % 2 ^ w

/-- Bit `i` of `v`. -/
def bitOf (v i : Nat) : Bool := v.testBit i

/-- `v` with bits [lo + w - 1 : lo] replaced by `x`. -/
def putBits (v lo w x : Nat) : Nat :=
  v - (bitsOf v lo w) * 2 ^ lo + (x % 2 ^ w) * 2 ^ lo

/-- The signed value of a `w`-bit pattern (two's complement). -/
def signed (w v : Nat) : Int :=
  if v % 2 ^ w < 2 ^ (w - 1) then ((v % 2 ^ w : Nat) : Int) else ((v % 2 ^ w : Nat) : Int) - ((2 ^ w : Nat) : Int)

/-- The `w`-bit pattern of a signed value. -/
def unsigned (w : Nat) (z : Int) : Nat := (z % ((2 ^ w : Nat) : Int)).toNat

/-- The number whose little-endian bytes are `bs` (R5). -/
def leNat : List Byte → Nat
  | [] => 0
  | b :: bs => b.toNat + 256 * leNat bs

/-- The `k` little-endian bytes of `n` (R5). -/
def leBytes : Nat → Nat → List Byte
  | 0, _ => []
  | k + 1, n => BitVec.ofNat 8 n :: leBytes k (n / 256)

/-- A number as a 64-bit word. -/
def w64 (n : Nat) : Word := BitVec.ofNat 64 n

/-- A Bool as 0 or 1. -/
def b01 (b : Bool) : Nat := if b then 1 else 0

/-- Saturating count of `w` bits (R141 and the other register rules: 48-bit counters saturate). -/
def satAdd (w v n : Nat) : Nat := min (v + n) (2 ^ w - 1)

/-- Number of set bits among the low `k` bits. -/
def popCount : Nat → Nat → Nat
  | 0, _ => 0
  | k + 1, v => (v % 2) + popCount k (v / 2)

/-- Indexes of the set bits among the low `k` bits, ascending. -/
def setBits (k v : Nat) : List Nat := (List.range k).filter fun i => v.testBit i

/-- The field of `n` bytes at byte offset `o` of a byte list, little-endian. -/
def leAt (bs : List Byte) (o n : Nat) : Nat := leNat ((bs.drop o).take n)

/-- Ceiling division. -/
def cdiv (a b : Nat) : Nat := (a + b - 1) / b

/-- The smallest `k ≤ fuel` with `2 ^ k ≥ n`. -/
def clog2 (n : Nat) : Nat := Nat.log2 (2 * n - 1)

end Sys2Proof.Machine
end

