-- ==== Sys2Proof/Machine/RegMap.lean ====
section
/-! DEFINITION. The register map: every register of the CSR windows, its dies, its offset and its fields with their
access codes and reset values, as the register tables of the spec give them (R6, R8, R9, R10, R28, R40, R84, R141,
R182, R224, R263, R308, R337, R372, R405, R435, R472, R508, R509, R538, R587, R602, R634, R666). -/

namespace Sys2Proof.Machine

/-- The access codes of R8. -/
inductive Acc where
  | ro | rw | wo | w1c | rw1s
deriving DecidableEq, Repr

/-- One field of a register: its lowest bit, its width, its access code and its reset value. -/
structure Fld where
  lo : Nat
  w : Nat
  acc : Acc
  reset : Nat
deriving DecidableEq, Repr

/-- One register, or one array of registers: instance (i, j) lies at base + i * s1 + j * s2 of the CSR window of each of
`dies` (R6). `has` says which instances exist; `init` gives reset bits that the field table does not give as a constant. -/
structure Reg where
  dies : List Nat
  base : Nat
  n1 : Nat
  s1 : Nat
  n2 : Nat
  s2 : Nat
  fields : List Fld
  has : Nat → Nat → Nat → Bool := fun _ _ _ => true
  init : Nat → Nat → Nat → Nat := fun _ _ _ => 0

/-- The die indexes of R41: 0 to 3 the tensor dies. -/
def tds : List Nat := [0, 1, 2, 3]
/-- The tensor dies and HD. -/
def tdsHd : List Nat := [0, 1, 2, 3, 4]
/-- All seven dies. -/
def allDies : List Nat := [0, 1, 2, 3, 4, 5, 6]

/-- Bits [63:0] of the capability word of an A1 die (R21, R22): VER 1.2, FLOOR 1.0, DIE_TYPE, stepping A1, GENERATION 1. -/
def capSelfLo (die : Nat) : Nat :=
  0x02 + 0x01 * 2 ^ 8 + 0x00 * 2 ^ 16 + 0x01 * 2 ^ 24 +
    (if die < 4 then 1 else if die = 4 then 2 else 3) * 2 ^ 32 + 0 * 2 ^ 36 + 1 * 2 ^ 40 + 1 * 2 ^ 48

/-- Bits [127:64] of the capability word of an A1 die (R22): package features 64 to 69, link features 96 and 97, die
features 112 to 117 on a tensor die and 118 on HD. -/
def capSelfHi (die : Nat) : Nat :=
  0x3F + 0x3 * 2 ^ 32 + (if die < 4 then 0x3F * 2 ^ 48 else if die = 4 then 0x40 * 2 ^ 48 else 0)

/-- Requesters of arbiter instance `i` of a die (R593); 0 where the die has no such instance. -/
def arbRequesters (die i : Nat) : Nat :=
  if die < 4 then
    if i < 192 then 24 else if i < 208 then 7 else if i = 208 then 20 else if i < 213 then 5 else 0
  else if die = 4 then
    if i = 0 then 20 else if i < 9 then 6 else if i < 13 then 5 else 0
  else if i < 64 then 14 else if i < 66 then 5 else 0

/-- Reset class of a UCIe egress requester: 0 requests, 1 responses, 2 coherence, 3 and 4 transit (R593). -/
def arbEgressClass (r : Nat) : Nat := [2, 1, 0, 2, 1].getD r 0

/-- Reset class of requester `r` of arbiter instance `i` of a die (R593). -/
def arbResetClass (die i r : Nat) : Nat :=
  if die < 4 then
    if i < 192 then r % 4 else if i < 208 then [0, 1, 2, 3, 2, 3, 0].getD r 0 else if i = 208 then r % 4
    else arbEgressClass r
  else if die = 4 then
    if i = 0 then r % 4 else if i < 9 then [2, 2, 2, 2, 1, 1].getD r 0 else arbEgressClass r
  else if i < 64 then
    -- virtual channel v = r / 2: 6 is class 0; 2 to 5 class 1; 0 and 1 class 2
    if r / 2 = 6 then 0 else if r / 2 ≥ 2 then 1 else 2
  else arbEgressClass r

/-- The COUNT field of the 48-bit counters. -/
def COUNT : Fld := ⟨0, 48, .ro, 0⟩
/-- R28. -/
def BOOT_CAP_SELF_LO_CAP : Fld := ⟨0, 64, .ro, 0⟩
/-- R28, 01_package.md. -/
def BOOT_CAP_SELF_LO : Reg :=
  { dies := allDies, base := 0x100, n1 := 1, s1 := 0, n2 := 1, s2 := 0,
    fields := [BOOT_CAP_SELF_LO_CAP], init := fun d _ _ => capSelfLo d }
/-- R28. -/
def BOOT_CAP_SELF_HI_CAP : Fld := ⟨0, 64, .ro, 0⟩
/-- R28, 01_package.md. -/
def BOOT_CAP_SELF_HI : Reg :=
  { dies := allDies, base := 0x108, n1 := 1, s1 := 0, n2 := 1, s2 := 0,
    fields := [BOOT_CAP_SELF_HI_CAP], init := fun d _ _ => capSelfHi d }
/-- R28. -/
def BOOT_CAP_EFF_LO_CAP : Fld := ⟨0, 64, .ro, 0⟩
/-- R28, 01_package.md. -/
def BOOT_CAP_EFF_LO : Reg :=
  { dies := allDies, base := 0x110, n1 := 1, s1 := 0, n2 := 1, s2 := 0,
    fields := [BOOT_CAP_EFF_LO_CAP] }
/-- R28. -/
def BOOT_CAP_EFF_HI_CAP : Fld := ⟨0, 64, .ro, 0⟩
/-- R28, 01_package.md. -/
def BOOT_CAP_EFF_HI : Reg :=
  { dies := allDies, base := 0x118, n1 := 1, s1 := 0, n2 := 1, s2 := 0,
    fields := [BOOT_CAP_EFF_HI_CAP] }
/-- R28. -/
def BOOT_LINKUP_STATUS_DONE : Fld := ⟨0, 1, .ro, 0⟩
/-- R28. -/
def BOOT_LINKUP_STATUS_REFUSED : Fld := ⟨1, 1, .ro, 0⟩
/-- R28. -/
def BOOT_LINKUP_STATUS_REASON : Fld := ⟨4, 4, .ro, 0⟩
/-- R28. -/
def BOOT_LINKUP_STATUS_DIE : Fld := ⟨8, 3, .ro, 0⟩
/-- R28. -/
def BOOT_LINKUP_STATUS_LINK : Fld := ⟨16, 4, .ro, 0⟩
/-- R28. -/
def BOOT_LINKUP_STATUS_EFF_MINOR : Fld := ⟨24, 8, .ro, 0⟩
/-- R28. -/
def BOOT_LINKUP_STATUS_EFF_MAJOR : Fld := ⟨32, 8, .ro, 0⟩
/-- R28, 01_package.md. -/
def BOOT_LINKUP_STATUS : Reg :=
  { dies := [4], base := 0x120, n1 := 1, s1 := 0, n2 := 1, s2 := 0,
    fields := [BOOT_LINKUP_STATUS_DONE, BOOT_LINKUP_STATUS_REFUSED, BOOT_LINKUP_STATUS_REASON, BOOT_LINKUP_STATUS_DIE, BOOT_LINKUP_STATUS_LINK, BOOT_LINKUP_STATUS_EFF_MINOR, BOOT_LINKUP_STATUS_EFF_MAJOR] }
/-- R28. -/
def BOOT_CAP_DIE_LO_CAP : Fld := ⟨0, 64, .ro, 0⟩
/-- R28, 01_package.md. -/
def BOOT_CAP_DIE_LO : Reg :=
  { dies := [4], base := 0x140, n1 := 7, s1 := 0x10, n2 := 1, s2 := 0,
    fields := [BOOT_CAP_DIE_LO_CAP] }
/-- R28. -/
def BOOT_CAP_DIE_HI_CAP : Fld := ⟨0, 64, .ro, 0⟩
/-- R28, 01_package.md. -/
def BOOT_CAP_DIE_HI : Reg :=
  { dies := [4], base := 0x148, n1 := 7, s1 := 0x10, n2 := 1, s2 := 0,
    fields := [BOOT_CAP_DIE_HI_CAP] }
/-- R40. -/
def MEM_ILV_REQ_PKG_WIDE : Fld := ⟨0, 64, .rw, 0⟩
/-- R40, 01_package.md. -/
def MEM_ILV_REQ : Reg :=
  { dies := [4], base := 0x2000, n1 := 2, s1 := 8, n2 := 1, s2 := 0,
    fields := [MEM_ILV_REQ_PKG_WIDE] }
/-- R40. -/
def MEM_ILV_REQ_TOP_PKG_WIDE : Fld := ⟨0, 16, .rw, 0⟩
/-- R40, 01_package.md. -/
def MEM_ILV_REQ_TOP : Reg :=
  { dies := [4], base := 0x2010, n1 := 1, s1 := 0, n2 := 1, s2 := 0,
    fields := [MEM_ILV_REQ_TOP_PKG_WIDE] }
/-- R40. -/
def MEM_ILV_CUR_PKG_WIDE : Fld := ⟨0, 64, .ro, 0⟩
/-- R40, 01_package.md. -/
def MEM_ILV_CUR : Reg :=
  { dies := [4], base := 0x2018, n1 := 2, s1 := 8, n2 := 1, s2 := 0,
    fields := [MEM_ILV_CUR_PKG_WIDE] }
/-- R40. -/
def MEM_ILV_CUR_TOP_PKG_WIDE : Fld := ⟨0, 16, .ro, 0⟩
/-- R40, 01_package.md. -/
def MEM_ILV_CUR_TOP : Reg :=
  { dies := [4], base := 0x2028, n1 := 1, s1 := 0, n2 := 1, s2 := 0,
    fields := [MEM_ILV_CUR_TOP_PKG_WIDE] }
/-- R40. -/
def MEM_ILV_STATUS_PENDING : Fld := ⟨0, 1, .ro, 0⟩
/-- R40. -/
def MEM_ILV_STATUS_FIRST_PENDING : Fld := ⟨8, 8, .ro, 0⟩
/-- R40, 01_package.md. -/
def MEM_ILV_STATUS : Reg :=
  { dies := [4], base := 0x2030, n1 := 1, s1 := 0, n2 := 1, s2 := 0,
    fields := [MEM_ILV_STATUS_PENDING, MEM_ILV_STATUS_FIRST_PENDING] }
/-- R84. -/
def TIME_NOW_NS : Fld := ⟨0, 64, .ro, 0⟩
/-- R84, 02_beat_and_time.md. -/
def TIME_NOW : Reg :=
  { dies := [4], base := 0x3000, n1 := 1, s1 := 0, n2 := 1, s2 := 0,
    fields := [TIME_NOW_NS] }
/-- R84. -/
def BEAT_ORIGIN_VALUE : Fld := ⟨0, 64, .rw, 0⟩
/-- R84, 02_beat_and_time.md. -/
def BEAT_ORIGIN : Reg :=
  { dies := [4], base := 0x3100, n1 := 1, s1 := 0, n2 := 1, s2 := 0,
    fields := [BEAT_ORIGIN_VALUE] }
/-- R84. -/
def TIME_NOW_FRAC_FRAC : Fld := ⟨0, 16, .ro, 0⟩
/-- R84, 02_beat_and_time.md. -/
def TIME_NOW_FRAC : Reg :=
  { dies := [4], base := 0x3008, n1 := 1, s1 := 0, n2 := 1, s2 := 0,
    fields := [TIME_NOW_FRAC_FRAC] }
/-- R84. -/
def BEAT_PERIOD_PERIOD_US : Fld := ⟨0, 10, .rw, 0x14⟩
/-- R84, 02_beat_and_time.md. -/
def BEAT_PERIOD : Reg :=
  { dies := [4], base := 0x3108, n1 := 1, s1 := 0, n2 := 1, s2 := 0,
    fields := [BEAT_PERIOD_PERIOD_US] }
/-- R84. -/
def TIME_SET_NS : Fld := ⟨0, 64, .wo, 0⟩
/-- R84, 02_beat_and_time.md. -/
def TIME_SET : Reg :=
  { dies := [4], base := 0x3010, n1 := 1, s1 := 0, n2 := 1, s2 := 0,
    fields := [TIME_SET_NS] }
/-- R84. -/
def BEAT_CTL_RUN : Fld := ⟨0, 1, .rw, 0⟩
/-- R84. -/
def BEAT_CTL_SLIP_BUDGET : Fld := ⟨8, 8, .rw, 8⟩
/-- R84. -/
def BEAT_CTL_NOTIFY_QUEUE : Fld := ⟨16, 16, .rw, 0⟩
/-- R84, 02_beat_and_time.md. -/
def BEAT_CTL : Reg :=
  { dies := [4], base := 0x3110, n1 := 1, s1 := 0, n2 := 1, s2 := 0,
    fields := [BEAT_CTL_RUN, BEAT_CTL_SLIP_BUDGET, BEAT_CTL_NOTIFY_QUEUE] }
/-- R84. -/
def TIME_STEP_NS : Fld := ⟨0, 64, .wo, 0⟩
/-- R84, 02_beat_and_time.md. -/
def TIME_STEP : Reg :=
  { dies := [4], base := 0x3018, n1 := 1, s1 := 0, n2 := 1, s2 := 0,
    fields := [TIME_STEP_NS] }
/-- R84. -/
def BEAT_PLAN_BASE_BASE : Fld := ⟨4, 52, .rw, 0⟩
/-- R84, 02_beat_and_time.md. -/
def BEAT_PLAN_BASE : Reg :=
  { dies := [4], base := 0x3118, n1 := 1, s1 := 0, n2 := 1, s2 := 0,
    fields := [BEAT_PLAN_BASE_BASE] }
/-- R84. -/
def TIME_RATE_ADJ : Fld := ⟨0, 40, .rw, 0⟩
/-- R84, 02_beat_and_time.md. -/
def TIME_RATE : Reg :=
  { dies := [4], base := 0x3020, n1 := 1, s1 := 0, n2 := 1, s2 := 0,
    fields := [TIME_RATE_ADJ] }
/-- R84. -/
def BEAT_PLAN_CFG_LEN : Fld := ⟨0, 21, .rw, 1⟩
/-- R84, 02_beat_and_time.md. -/
def BEAT_PLAN_CFG : Reg :=
  { dies := [4], base := 0x3120, n1 := 1, s1 := 0, n2 := 1, s2 := 0,
    fields := [BEAT_PLAN_CFG_LEN] }
/-- R84. -/
def TIME_CTL_SRC : Fld := ⟨0, 3, .rw, 0⟩
/-- R84. -/
def TIME_CTL_UPSTREAM_PORT : Fld := ⟨8, 5, .rw, 0⟩
/-- R84. -/
def TIME_CTL_PTP_ROLE : Fld := ⟨16, 2, .rw, 0⟩
/-- R84. -/
def TIME_CTL_PTP_TRANSPORT : Fld := ⟨18, 2, .rw, 0⟩
/-- R84. -/
def TIME_CTL_PTP_DOMAIN : Fld := ⟨20, 8, .rw, 0⟩
/-- R84. -/
def TIME_CTL_PPS_OUT_EN : Fld := ⟨28, 1, .rw, 0⟩
/-- R84. -/
def TIME_CTL_REF10M_OUT_EN : Fld := ⟨29, 1, .rw, 0⟩
/-- R84, 02_beat_and_time.md. -/
def TIME_CTL : Reg :=
  { dies := [4], base := 0x3028, n1 := 1, s1 := 0, n2 := 1, s2 := 0,
    fields := [TIME_CTL_SRC, TIME_CTL_UPSTREAM_PORT, TIME_CTL_PTP_ROLE, TIME_CTL_PTP_TRANSPORT, TIME_CTL_PTP_DOMAIN, TIME_CTL_PPS_OUT_EN, TIME_CTL_REF10M_OUT_EN] }
/-- R84. -/
def BEAT_PLAN_START_VALUE : Fld := ⟨0, 64, .rw, 0⟩
/-- R84, 02_beat_and_time.md. -/
def BEAT_PLAN_START : Reg :=
  { dies := [4], base := 0x3128, n1 := 1, s1 := 0, n2 := 1, s2 := 0,
    fields := [BEAT_PLAN_START_VALUE] }
/-- R84. -/
def TIME_STATUS_VALID : Fld := ⟨0, 1, .ro, 0⟩
/-- R84. -/
def TIME_STATUS_LOCKED : Fld := ⟨1, 1, .ro, 0⟩
/-- R84. -/
def TIME_STATUS_HOLDOVER : Fld := ⟨2, 1, .ro, 0⟩
/-- R84. -/
def TIME_STATUS_SRC_LOST : Fld := ⟨3, 1, .w1c, 0⟩
/-- R84. -/
def TIME_STATUS_STEP_REFUSED : Fld := ⟨4, 1, .w1c, 0⟩
/-- R84, 02_beat_and_time.md. -/
def TIME_STATUS : Reg :=
  { dies := [4], base := 0x3030, n1 := 1, s1 := 0, n2 := 1, s2 := 0,
    fields := [TIME_STATUS_VALID, TIME_STATUS_LOCKED, TIME_STATUS_HOLDOVER, TIME_STATUS_SRC_LOST, TIME_STATUS_STEP_REFUSED] }
/-- R84. -/
def BEAT_INDEX_VALUE : Fld := ⟨0, 64, .ro, 0⟩
/-- R84, 02_beat_and_time.md. -/
def BEAT_INDEX : Reg :=
  { dies := allDies, base := 0x3130, n1 := 1, s1 := 0, n2 := 1, s2 := 0,
    fields := [BEAT_INDEX_VALUE] }
/-- R84. -/
def TIME_OFFSET_VALUE : Fld := ⟨0, 48, .ro, 0⟩
/-- R84, 02_beat_and_time.md. -/
def TIME_OFFSET : Reg :=
  { dies := [4], base := 0x3038, n1 := 1, s1 := 0, n2 := 1, s2 := 0,
    fields := [TIME_OFFSET_VALUE] }
/-- R84. -/
def BEAT_WALL_VALUE : Fld := ⟨0, 64, .ro, 0⟩
/-- R84, 02_beat_and_time.md. -/
def BEAT_WALL : Reg :=
  { dies := [4], base := 0x3138, n1 := 1, s1 := 0, n2 := 1, s2 := 0,
    fields := [BEAT_WALL_VALUE] }
/-- R84. -/
def TIME_LINK_DELAY_VALUE : Fld := ⟨0, 48, .ro, 0⟩
/-- R84, 02_beat_and_time.md. -/
def TIME_LINK_DELAY : Reg :=
  { dies := [4], base := 0x3040, n1 := 1, s1 := 0, n2 := 1, s2 := 0,
    fields := [TIME_LINK_DELAY_VALUE] }
/-- R84. -/
def BEAT_STATUS_RUNNING : Fld := ⟨0, 1, .ro, 0⟩
/-- R84. -/
def BEAT_STATUS_PLAN_PENDING : Fld := ⟨1, 1, .ro, 0⟩
/-- R84. -/
def BEAT_STATUS_SLIP_FAULT : Fld := ⟨2, 1, .w1c, 0⟩
/-- R84. -/
def BEAT_STATUS_PLAN_ERROR : Fld := ⟨3, 1, .w1c, 0⟩
/-- R84. -/
def BEAT_STATUS_NO_PLAN : Fld := ⟨4, 1, .ro, 1⟩
/-- R84. -/
def BEAT_STATUS_SLIP : Fld := ⟨8, 8, .ro, 0⟩
/-- R84, 02_beat_and_time.md. -/
def BEAT_STATUS : Reg :=
  { dies := [4], base := 0x3140, n1 := 1, s1 := 0, n2 := 1, s2 := 0,
    fields := [BEAT_STATUS_RUNNING, BEAT_STATUS_PLAN_PENDING, BEAT_STATUS_SLIP_FAULT, BEAT_STATUS_PLAN_ERROR, BEAT_STATUS_NO_PLAN, BEAT_STATUS_SLIP] }
/-- R84. -/
def TIME_PPS_CAPTURE_NS : Fld := ⟨0, 64, .ro, 0⟩
/-- R84, 02_beat_and_time.md. -/
def TIME_PPS_CAPTURE : Reg :=
  { dies := [4], base := 0x3048, n1 := 1, s1 := 0, n2 := 1, s2 := 0,
    fields := [TIME_PPS_CAPTURE_NS] }
/-- R84, 02_beat_and_time.md. -/
def BEAT_SLIPS : Reg :=
  { dies := [4], base := 0x3148, n1 := 1, s1 := 0, n2 := 1, s2 := 0,
    fields := [COUNT] }
/-- R84. -/
def TIME_PPS_CAPTURE_FRAC_FRAC : Fld := ⟨0, 16, .ro, 0⟩
/-- R84, 02_beat_and_time.md. -/
def TIME_PPS_CAPTURE_FRAC : Reg :=
  { dies := [4], base := 0x3050, n1 := 1, s1 := 0, n2 := 1, s2 := 0,
    fields := [TIME_PPS_CAPTURE_FRAC_FRAC] }
/-- R84, 02_beat_and_time.md. -/
def BEAT_SLACK_USED : Reg :=
  { dies := [4], base := 0x3150, n1 := 1, s1 := 0, n2 := 1, s2 := 0,
    fields := [COUNT] }
/-- R84, 02_beat_and_time.md. -/
def BEAT_EARLY_COUNT : Reg :=
  { dies := [4], base := 0x3158, n1 := 1, s1 := 0, n2 := 1, s2 := 0,
    fields := [COUNT] }
/-- R84, 02_beat_and_time.md. -/
def BEAT_LATE_COUNT : Reg :=
  { dies := [4], base := 0x3160, n1 := 1, s1 := 0, n2 := 1, s2 := 0,
    fields := [COUNT] }
/-- R141. -/
def CELL_CTL_RA_EN : Fld := ⟨0, 1, .rw, 1⟩
/-- R141. -/
def CELL_CTL_RA_RESERVE : Fld := ⟨8, 6, .rw, 8⟩
/-- R141. -/
def CELL_CTL_ICACHE_INV : Fld := ⟨16, 1, .rw1s, 0⟩
/-- R141, 03_cells.md. -/
def CELL_CTL : Reg :=
  { dies := tds, base := 0x40000, n1 := 1, s1 := 0, n2 := 1, s2 := 0,
    fields := [CELL_CTL_RA_EN, CELL_CTL_RA_RESERVE, CELL_CTL_ICACHE_INV] }
/-- R141. -/
def CELL_STATUS_ACTIVE : Fld := ⟨0, 8, .ro, 0⟩
/-- R141. -/
def CELL_STATUS_SPARES : Fld := ⟨8, 8, .ro, 0⟩
/-- R141. -/
def CELL_STATUS_PROBATION : Fld := ⟨16, 8, .ro, 0⟩
/-- R141. -/
def CELL_STATUS_RETIRED : Fld := ⟨24, 8, .ro, 0⟩
/-- R141. -/
def CELL_STATUS_BOOT_FAILED : Fld := ⟨32, 8, .ro, 0⟩
/-- R141, 03_cells.md. -/
def CELL_STATUS : Reg :=
  { dies := tds, base := 0x40008, n1 := 1, s1 := 0, n2 := 1, s2 := 0,
    fields := [CELL_STATUS_ACTIVE, CELL_STATUS_SPARES, CELL_STATUS_PROBATION, CELL_STATUS_RETIRED, CELL_STATUS_BOOT_FAILED] }
/-- R141. -/
def CELL_MAP_PHYS : Fld := ⟨0, 8, .ro, 0⟩
/-- R141. -/
def CELL_MAP_ROW : Fld := ⟨8, 4, .ro, 0⟩
/-- R141. -/
def CELL_MAP_COL : Fld := ⟨12, 4, .ro, 0⟩
/-- R141. -/
def CELL_MAP_UNBACKED : Fld := ⟨16, 1, .ro, 0⟩
/-- R141, 03_cells.md. -/
def CELL_MAP : Reg :=
  { dies := tds, base := 0x41000, n1 := 160, s1 := 8, n2 := 1, s2 := 0,
    fields := [CELL_MAP_PHYS, CELL_MAP_ROW, CELL_MAP_COL, CELL_MAP_UNBACKED] }
/-- R141. -/
def CELL_PHYS_STATE : Fld := ⟨0, 3, .ro, 0⟩
/-- R141. -/
def CELL_PHYS_LOGICAL : Fld := ⟨8, 8, .ro, 0⟩
/-- R141, 03_cells.md. -/
def CELL_PHYS : Reg :=
  { dies := tds, base := 0x41800, n1 := 168, s1 := 8, n2 := 1, s2 := 0,
    fields := [CELL_PHYS_STATE, CELL_PHYS_LOGICAL] }
/-- R141. -/
def CELL_ROLE_ROLE : Fld := ⟨0, 3, .ro, 0⟩
/-- R141. -/
def CELL_ROLE_NEXT : Fld := ⟨4, 3, .ro, 0⟩
/-- R141. -/
def CELL_ROLE_NEXT_VALID : Fld := ⟨7, 1, .ro, 0⟩
/-- R141. -/
def CELL_ROLE_VMODE : Fld := ⟨8, 1, .ro, 0⟩
/-- R141. -/
def CELL_ROLE_CARRY : Fld := ⟨9, 1, .ro, 0⟩
/-- R141, 03_cells.md. -/
def CELL_ROLE : Reg :=
  { dies := tds, base := 0x80000, n1 := 168, s1 := 0x400, n2 := 1, s2 := 0,
    fields := [CELL_ROLE_ROLE, CELL_ROLE_NEXT, CELL_ROLE_NEXT_VALID, CELL_ROLE_VMODE, CELL_ROLE_CARRY] }
/-- R141, 03_cells.md. -/
def CELL_BANK_CONFLICTS : Reg :=
  { dies := tds, base := 0x80048, n1 := 168, s1 := 0x400, n2 := 1, s2 := 0,
    fields := [COUNT] }
/-- R141. -/
def CELL_THREADS_STATE : Fld := ⟨0, 48, .ro, 0⟩
/-- R141, 03_cells.md. -/
def CELL_THREADS : Reg :=
  { dies := tds, base := 0x80008, n1 := 168, s1 := 0x400, n2 := 1, s2 := 0,
    fields := [CELL_THREADS_STATE] }
/-- R141, 03_cells.md. -/
def CELL_RA_ISSUED : Reg :=
  { dies := tds, base := 0x80050, n1 := 168, s1 := 0x400, n2 := 1, s2 := 0,
    fields := [COUNT] }
/-- R141. -/
def CELL_TRAP_VALID : Fld := ⟨0, 1, .w1c, 0⟩
/-- R141. -/
def CELL_TRAP_MORE : Fld := ⟨1, 1, .w1c, 0⟩
/-- R141. -/
def CELL_TRAP_CAUSE : Fld := ⟨4, 4, .ro, 0⟩
/-- R141. -/
def CELL_TRAP_THREAD : Fld := ⟨8, 4, .ro, 0⟩
/-- R141. -/
def CELL_TRAP_STATUS : Fld := ⟨16, 16, .ro, 0⟩
/-- R141, 03_cells.md. -/
def CELL_TRAP : Reg :=
  { dies := tds, base := 0x80010, n1 := 168, s1 := 0x400, n2 := 1, s2 := 0,
    fields := [CELL_TRAP_VALID, CELL_TRAP_MORE, CELL_TRAP_CAUSE, CELL_TRAP_THREAD, CELL_TRAP_STATUS] }
/-- R141, 03_cells.md. -/
def CELL_RA_USED : Reg :=
  { dies := tds, base := 0x80058, n1 := 168, s1 := 0x400, n2 := 1, s2 := 0,
    fields := [COUNT] }
/-- R141. -/
def CELL_TRAP_PC_VALUE : Fld := ⟨0, 64, .ro, 0⟩
/-- R141, 03_cells.md. -/
def CELL_TRAP_PC : Reg :=
  { dies := tds, base := 0x80018, n1 := 168, s1 := 0x400, n2 := 1, s2 := 0,
    fields := [CELL_TRAP_PC_VALUE] }
/-- R141, 03_cells.md. -/
def CELL_RA_DISCARDED : Reg :=
  { dies := tds, base := 0x80060, n1 := 168, s1 := 0x400, n2 := 1, s2 := 0,
    fields := [COUNT] }
/-- R141. -/
def CELL_TRAP_BEAT_VALUE : Fld := ⟨0, 64, .ro, 0⟩
/-- R141, 03_cells.md. -/
def CELL_TRAP_BEAT : Reg :=
  { dies := tds, base := 0x80020, n1 := 168, s1 := 0x400, n2 := 1, s2 := 0,
    fields := [CELL_TRAP_BEAT_VALUE] }
/-- R141, 03_cells.md. -/
def CELL_RA_STOPPED : Reg :=
  { dies := tds, base := 0x80068, n1 := 168, s1 := 0x400, n2 := 1, s2 := 0,
    fields := [COUNT] }
/-- R141, 03_cells.md. -/
def CELL_ISSUE_C : Reg :=
  { dies := tds, base := 0x80028, n1 := 168, s1 := 0x400, n2 := 1, s2 := 0,
    fields := [COUNT] }
/-- R141, 03_cells.md. -/
def CELL_ICACHE_MISSES : Reg :=
  { dies := tds, base := 0x80070, n1 := 168, s1 := 0x400, n2 := 1, s2 := 0,
    fields := [COUNT] }
/-- R141, 03_cells.md. -/
def CELL_ISSUE_M : Reg :=
  { dies := tds, base := 0x80030, n1 := 168, s1 := 0x400, n2 := 1, s2 := 0,
    fields := [COUNT] }
/-- R141. -/
def TILE_WINDOW_BASE : Fld := ⟨0, 6, .ro, 0⟩
/-- R141. -/
def TILE_WINDOW_SIZE : Fld := ⟨8, 3, .ro, 0⟩
/-- R141. -/
def TILE_WINDOW_VALID : Fld := ⟨16, 1, .ro, 0⟩
/-- R141, 03_cells.md. -/
def TILE_WINDOW : Reg :=
  { dies := tds, base := 0x80080, n1 := 168, s1 := 0x400, n2 := 16, s2 := 8,
    fields := [TILE_WINDOW_BASE, TILE_WINDOW_SIZE, TILE_WINDOW_VALID] }
/-- R141, 03_cells.md. -/
def CELL_ISSUE_X : Reg :=
  { dies := tds, base := 0x80038, n1 := 168, s1 := 0x400, n2 := 1, s2 := 0,
    fields := [COUNT] }
/-- R141. -/
def TILE_SCOREBOARD_R_PENDING : Fld := ⟨0, 64, .ro, 0⟩
/-- R141, 03_cells.md. -/
def TILE_SCOREBOARD_R : Reg :=
  { dies := tds, base := 0x80100, n1 := 168, s1 := 0x400, n2 := 1, s2 := 0,
    fields := [TILE_SCOREBOARD_R_PENDING] }
/-- R141, 03_cells.md. -/
def CELL_IDLE_CYCLES : Reg :=
  { dies := tds, base := 0x80040, n1 := 168, s1 := 0x400, n2 := 1, s2 := 0,
    fields := [COUNT] }
/-- R141. -/
def TILE_SCOREBOARD_W_PENDING : Fld := ⟨0, 64, .ro, 0⟩
/-- R141, 03_cells.md. -/
def TILE_SCOREBOARD_W : Reg :=
  { dies := tds, base := 0x80108, n1 := 168, s1 := 0x400, n2 := 1, s2 := 0,
    fields := [TILE_SCOREBOARD_W_PENDING] }
/-- R182. -/
def VEC_FPCTL_INIT_INIT : Fld := ⟨0, 8, .rw, 0⟩
/-- R182, 04_numerics.md. -/
def VEC_FPCTL_INIT : Reg :=
  { dies := tds, base := 0x60000, n1 := 1, s1 := 0, n2 := 1, s2 := 0,
    fields := [VEC_FPCTL_INIT_INIT] }
/-- R182. -/
def VEC_NANQ_BASE_BASE : Fld := ⟨6, 50, .rw, 0⟩
/-- R182, 04_numerics.md. -/
def VEC_NANQ_BASE : Reg :=
  { dies := tds, base := 0x60030, n1 := 1, s1 := 0, n2 := 1, s2 := 0,
    fields := [VEC_NANQ_BASE_BASE] }
/-- R182. -/
def VEC_SR_BASE_BASE : Fld := ⟨0, 64, .rw, 0⟩
/-- R182, 04_numerics.md. -/
def VEC_SR_BASE : Reg :=
  { dies := tds, base := 0x60008, n1 := 1, s1 := 0, n2 := 1, s2 := 0,
    fields := [VEC_SR_BASE_BASE] }
/-- R182. -/
def VEC_NANQ_CFG_EN : Fld := ⟨0, 1, .rw, 0⟩
/-- R182. -/
def VEC_NANQ_CFG_SIZE_LOG2 : Fld := ⟨8, 5, .rw, 4⟩
/-- R182, 04_numerics.md. -/
def VEC_NANQ_CFG : Reg :=
  { dies := tds, base := 0x60038, n1 := 1, s1 := 0, n2 := 1, s2 := 0,
    fields := [VEC_NANQ_CFG_EN, VEC_NANQ_CFG_SIZE_LOG2] }
/-- R182. -/
def VEC_CENSUS_BASE_BASE : Fld := ⟨6, 50, .rw, 0⟩
/-- R182, 04_numerics.md. -/
def VEC_CENSUS_BASE : Reg :=
  { dies := tds, base := 0x60010, n1 := 1, s1 := 0, n2 := 1, s2 := 0,
    fields := [VEC_CENSUS_BASE_BASE] }
/-- R182. -/
def VEC_NANQ_HEAD_INDEX : Fld := ⟨0, 32, .ro, 0⟩
/-- R182, 04_numerics.md. -/
def VEC_NANQ_HEAD : Reg :=
  { dies := tds, base := 0x60040, n1 := 1, s1 := 0, n2 := 1, s2 := 0,
    fields := [VEC_NANQ_HEAD_INDEX] }
/-- R182. -/
def VEC_CENSUS_CFG_MODE : Fld := ⟨0, 2, .rw, 0⟩
/-- R182. -/
def VEC_CENSUS_CFG_SLOTS_LOG2 : Fld := ⟨8, 4, .rw, 0⟩
/-- R182, 04_numerics.md. -/
def VEC_CENSUS_CFG : Reg :=
  { dies := tds, base := 0x60018, n1 := 1, s1 := 0, n2 := 1, s2 := 0,
    fields := [VEC_CENSUS_CFG_MODE, VEC_CENSUS_CFG_SLOTS_LOG2] }
/-- R182. -/
def VEC_NANQ_TAIL_INDEX : Fld := ⟨0, 32, .rw, 0⟩
/-- R182, 04_numerics.md. -/
def VEC_NANQ_TAIL : Reg :=
  { dies := tds, base := 0x60048, n1 := 1, s1 := 0, n2 := 1, s2 := 0,
    fields := [VEC_NANQ_TAIL_INDEX] }
/-- R182. -/
def VEC_CENSUS_STATUS_WRITE_ERR : Fld := ⟨0, 1, .w1c, 0⟩
/-- R182. -/
def VEC_CENSUS_STATUS_ACTIVE : Fld := ⟨1, 1, .ro, 0⟩
/-- R182, 04_numerics.md. -/
def VEC_CENSUS_STATUS : Reg :=
  { dies := tds, base := 0x60020, n1 := 1, s1 := 0, n2 := 1, s2 := 0,
    fields := [VEC_CENSUS_STATUS_WRITE_ERR, VEC_CENSUS_STATUS_ACTIVE] }
/-- R182, 04_numerics.md. -/
def VEC_NANQ_LOST : Reg :=
  { dies := tds, base := 0x60050, n1 := 1, s1 := 0, n2 := 1, s2 := 0,
    fields := [COUNT] }
/-- R182. -/
def VEC_CENSUS_LAST_BEAT : Fld := ⟨0, 64, .ro, 0⟩
/-- R182, 04_numerics.md. -/
def VEC_CENSUS_LAST : Reg :=
  { dies := tds, base := 0x60028, n1 := 1, s1 := 0, n2 := 1, s2 := 0,
    fields := [VEC_CENSUS_LAST_BEAT] }
/-- R224. -/
def MTX_ACC_STATE_ASAT : Fld := ⟨0, 16, .ro, 0⟩
/-- R224. -/
def MTX_ACC_STATE_INT32 : Fld := ⟨16, 16, .ro, 0⟩
/-- R224, 05_tensor_operations.md. -/
def MTX_ACC_STATE : Reg :=
  { dies := tds, base := 0x80180, n1 := 168, s1 := 0x400, n2 := 1, s2 := 0,
    fields := [MTX_ACC_STATE_ASAT, MTX_ACC_STATE_INT32] }
/-- R224, 05_tensor_operations.md. -/
def SPARSE_SLICES_RUN : Reg :=
  { dies := tds, base := 0x801b0, n1 := 168, s1 := 0x400, n2 := 1, s2 := 0,
    fields := [COUNT] }
/-- R224, 05_tensor_operations.md. -/
def MTX_BUSY : Reg :=
  { dies := tds, base := 0x80188, n1 := 168, s1 := 0x400, n2 := 1, s2 := 0,
    fields := [COUNT] }
/-- R224, 05_tensor_operations.md. -/
def SPARSE_SLICES_SKIPPED : Reg :=
  { dies := tds, base := 0x801b8, n1 := 168, s1 := 0x400, n2 := 1, s2 := 0,
    fields := [COUNT] }
/-- R224, 05_tensor_operations.md. -/
def MTX_INSTR : Reg :=
  { dies := tds, base := 0x80190, n1 := 168, s1 := 0x400, n2 := 1, s2 := 0,
    fields := [COUNT] }
/-- R224, 05_tensor_operations.md. -/
def SPARSE_INSTR_24 : Reg :=
  { dies := tds, base := 0x801c0, n1 := 168, s1 := 0x400, n2 := 1, s2 := 0,
    fields := [COUNT] }
/-- R224, 05_tensor_operations.md. -/
def VEC_BUSY : Reg :=
  { dies := tds, base := 0x801a0, n1 := 168, s1 := 0x400, n2 := 1, s2 := 0,
    fields := [COUNT] }
/-- R224, 05_tensor_operations.md. -/
def SPARSE_INSTR_14 : Reg :=
  { dies := tds, base := 0x801c8, n1 := 168, s1 := 0x400, n2 := 1, s2 := 0,
    fields := [COUNT] }
/-- R224, 05_tensor_operations.md. -/
def VEC_INSTR : Reg :=
  { dies := tds, base := 0x801a8, n1 := 168, s1 := 0x400, n2 := 1, s2 := 0,
    fields := [COUNT] }
/-- R224. -/
def MTX_OCC_MAP : Fld := ⟨0, 64, .ro, 0xffffffffffffffff⟩
/-- R224, 05_tensor_operations.md. -/
def MTX_OCC : Reg :=
  { dies := tds, base := 0x80200, n1 := 168, s1 := 0x400, n2 := 16, s2 := 8,
    fields := [MTX_OCC_MAP] }
/-- R263. -/
def ROUTE_CTL_PRED_EN : Fld := ⟨0, 1, .rw, 1⟩
/-- R263. -/
def ROUTE_CTL_THRESH : Fld := ⟨2, 2, .rw, 2⟩
/-- R263. -/
def ROUTE_CTL_PRED_CLEAR : Fld := ⟨8, 1, .rw1s, 0⟩
/-- R263. -/
def ROUTE_CTL_SPEC_WAYS : Fld := ⟨12, 4, .rw, 2⟩
/-- R263, 06_conditional_computation.md. -/
def ROUTE_CTL : Reg :=
  { dies := tds, base := 0x72000, n1 := 1, s1 := 0, n2 := 1, s2 := 0,
    fields := [ROUTE_CTL_PRED_EN, ROUTE_CTL_THRESH, ROUTE_CTL_PRED_CLEAR, ROUTE_CTL_SPEC_WAYS] }
/-- R263, 06_conditional_computation.md. -/
def ROUTE_NONFINITE : Reg :=
  { dies := tds, base := 0x72128, n1 := 1, s1 := 0, n2 := 1, s2 := 0,
    fields := [COUNT] }
/-- R263. -/
def ROUTE_SPEC_CFG_LIMIT : Fld := ⟨0, 13, .rw, 0x200⟩
/-- R263. -/
def ROUTE_SPEC_CFG_BUDGET : Fld := ⟨16, 32, .rw, 0x1000⟩
/-- R263, 06_conditional_computation.md. -/
def ROUTE_SPEC_CFG : Reg :=
  { dies := tds, base := 0x72008, n1 := 1, s1 := 0, n2 := 1, s2 := 0,
    fields := [ROUTE_SPEC_CFG_LIMIT, ROUTE_SPEC_CFG_BUDGET] }
/-- R263, 06_conditional_computation.md. -/
def ROUTE_PRED_HIT : Reg :=
  { dies := tds, base := 0x72130, n1 := 1, s1 := 0, n2 := 1, s2 := 0,
    fields := [COUNT] }
/-- R263. -/
def ROUTE_TBL_STATE : Fld := ⟨0, 2, .ro, 0⟩
/-- R263. -/
def ROUTE_TBL_ERROR : Fld := ⟨2, 1, .w1c, 0⟩
/-- R263. -/
def ROUTE_TBL_ERR_STATUS : Fld := ⟨16, 16, .ro, 0⟩
/-- R263. -/
def ROUTE_TBL_ROUND : Fld := ⟨32, 32, .ro, 0⟩
/-- R263, 06_conditional_computation.md. -/
def ROUTE_TBL : Reg :=
  { dies := tds, base := 0x72010, n1 := 2, s1 := 8, n2 := 1, s2 := 0,
    fields := [ROUTE_TBL_STATE, ROUTE_TBL_ERROR, ROUTE_TBL_ERR_STATUS, ROUTE_TBL_ROUND] }
/-- R263, 06_conditional_computation.md. -/
def ROUTE_PRED_WASTE : Reg :=
  { dies := tds, base := 0x72138, n1 := 1, s1 := 0, n2 := 1, s2 := 0,
    fields := [COUNT] }
/-- R263, 06_conditional_computation.md. -/
def ROUTE_PRED_MISS : Reg :=
  { dies := tds, base := 0x72140, n1 := 1, s1 := 0, n2 := 1, s2 := 0,
    fields := [COUNT] }
/-- R263, 06_conditional_computation.md. -/
def ROUTE_TOKENS : Reg :=
  { dies := tds, base := 0x72100, n1 := 1, s1 := 0, n2 := 1, s2 := 0,
    fields := [COUNT] }
/-- R263, 06_conditional_computation.md. -/
def ROUTE_SPEC_BYTES : Reg :=
  { dies := tds, base := 0x72148, n1 := 1, s1 := 0, n2 := 1, s2 := 0,
    fields := [COUNT] }
/-- R263, 06_conditional_computation.md. -/
def ROUTE_CLAIMS : Reg :=
  { dies := tds, base := 0x72108, n1 := 1, s1 := 0, n2 := 1, s2 := 0,
    fields := [COUNT] }
/-- R263, 06_conditional_computation.md. -/
def ROUTE_SPEC_DISCARD : Reg :=
  { dies := tds, base := 0x72150, n1 := 1, s1 := 0, n2 := 1, s2 := 0,
    fields := [COUNT] }
/-- R263, 06_conditional_computation.md. -/
def ROUTE_KEPT : Reg :=
  { dies := tds, base := 0x72110, n1 := 1, s1 := 0, n2 := 1, s2 := 0,
    fields := [COUNT] }
/-- R263, 06_conditional_computation.md. -/
def ROUTE_SPEC_STOPPED : Reg :=
  { dies := tds, base := 0x72158, n1 := 1, s1 := 0, n2 := 1, s2 := 0,
    fields := [COUNT] }
/-- R263, 06_conditional_computation.md. -/
def ROUTE_DROPS : Reg :=
  { dies := tds, base := 0x72118, n1 := 1, s1 := 0, n2 := 1, s2 := 0,
    fields := [COUNT] }
/-- R263, 06_conditional_computation.md. -/
def ROUTE_SPEC_EARLY : Reg :=
  { dies := tds, base := 0x72160, n1 := 1, s1 := 0, n2 := 1, s2 := 0,
    fields := [COUNT] }
/-- R263, 06_conditional_computation.md. -/
def ROUTE_LATE : Reg :=
  { dies := tds, base := 0x72120, n1 := 1, s1 := 0, n2 := 1, s2 := 0,
    fields := [COUNT] }
/-- R263, 06_conditional_computation.md. -/
def ROUTE_BLOCKS_RUN : Reg :=
  { dies := tds, base := 0x80280, n1 := 168, s1 := 0x400, n2 := 1, s2 := 0,
    fields := [COUNT] }
/-- R263, 06_conditional_computation.md. -/
def ROUTE_BLOCKS_SKIPPED : Reg :=
  { dies := tds, base := 0x80288, n1 := 168, s1 := 0x400, n2 := 1, s2 := 0,
    fields := [COUNT] }
/-- R308. -/
def STRM_CTL_MIN_CLASS : Fld := ⟨0, 2, .rw, 2⟩
/-- R308. -/
def STRM_CTL_HINT_EN : Fld := ⟨4, 1, .rw, 1⟩
/-- R308. -/
def STRM_CTL_HINT_DEFER : Fld := ⟨8, 8, .rw, 0x20⟩
/-- R308, 07_data_movement.md. -/
def STRM_CTL : Reg :=
  { dies := tds, base := 0x74000, n1 := 1, s1 := 0, n2 := 1, s2 := 0,
    fields := [STRM_CTL_MIN_CLASS, STRM_CTL_HINT_EN, STRM_CTL_HINT_DEFER] }
/-- R308. -/
def STRM_DIE_PEAK_TOTAL : Fld := ⟨0, 15, .ro, 0⟩
/-- R308. -/
def STRM_DIE_PEAK_DMA : Fld := ⟨16, 14, .ro, 0⟩
/-- R308. -/
def STRM_DIE_PEAK_SPEC : Fld := ⟨32, 13, .ro, 0⟩
/-- R308, 07_data_movement.md. -/
def STRM_DIE_PEAK : Reg :=
  { dies := tds, base := 0x74018, n1 := 1, s1 := 0, n2 := 1, s2 := 0,
    fields := [STRM_DIE_PEAK_TOTAL, STRM_DIE_PEAK_DMA, STRM_DIE_PEAK_SPEC] }
/-- R308. -/
def STRM_DMA_CFG_LIMIT : Fld := ⟨0, 14, .rw, 0x1000⟩
/-- R308, 07_data_movement.md. -/
def STRM_DMA_CFG : Reg :=
  { dies := tds, base := 0x74008, n1 := 1, s1 := 0, n2 := 1, s2 := 0,
    fields := [STRM_DMA_CFG_LIMIT] }
/-- R308, 07_data_movement.md. -/
def STRM_DMA_BYTES : Reg :=
  { dies := tds, base := 0x74020, n1 := 1, s1 := 0, n2 := 1, s2 := 0,
    fields := [COUNT] }
/-- R308. -/
def STRM_DIE_INFLIGHT_TOTAL : Fld := ⟨0, 15, .ro, 0⟩
/-- R308. -/
def STRM_DIE_INFLIGHT_DMA : Fld := ⟨16, 14, .ro, 0⟩
/-- R308. -/
def STRM_DIE_INFLIGHT_SPEC : Fld := ⟨32, 13, .ro, 0⟩
/-- R308, 07_data_movement.md. -/
def STRM_DIE_INFLIGHT : Reg :=
  { dies := tds, base := 0x74010, n1 := 1, s1 := 0, n2 := 1, s2 := 0,
    fields := [STRM_DIE_INFLIGHT_TOTAL, STRM_DIE_INFLIGHT_DMA, STRM_DIE_INFLIGHT_SPEC] }
/-- R308, 07_data_movement.md. -/
def STRM_POISON_FWD : Reg :=
  { dies := tds, base := 0x74028, n1 := 1, s1 := 0, n2 := 1, s2 := 0,
    fields := [COUNT] }
/-- R308. -/
def STRM_INFLIGHT_SLOTS : Fld := ⟨0, 7, .ro, 0⟩
/-- R308. -/
def STRM_INFLIGHT_PEAK : Fld := ⟨8, 7, .ro, 0⟩
/-- R308. -/
def STRM_INFLIGHT_RUNAHEAD : Fld := ⟨16, 8, .ro, 0⟩
/-- R308, 07_data_movement.md. -/
def STRM_INFLIGHT : Reg :=
  { dies := tds, base := 0x80300, n1 := 168, s1 := 0x400, n2 := 1, s2 := 0,
    fields := [STRM_INFLIGHT_SLOTS, STRM_INFLIGHT_PEAK, STRM_INFLIGHT_RUNAHEAD] }
/-- R308, 07_data_movement.md. -/
def STRM_GATHER_PASSED : Reg :=
  { dies := tds, base := 0x80328, n1 := 168, s1 := 0x400, n2 := 1, s2 := 0,
    fields := [COUNT] }
/-- R308, 07_data_movement.md. -/
def STRM_LOAD_BYTES : Reg :=
  { dies := tds, base := 0x80308, n1 := 168, s1 := 0x400, n2 := 1, s2 := 0,
    fields := [COUNT] }
/-- R308, 07_data_movement.md. -/
def STRM_PF_STALE : Reg :=
  { dies := tds, base := 0x80330, n1 := 168, s1 := 0x400, n2 := 1, s2 := 0,
    fields := [COUNT] }
/-- R308, 07_data_movement.md. -/
def STRM_STORE_BYTES : Reg :=
  { dies := tds, base := 0x80310, n1 := 168, s1 := 0x400, n2 := 1, s2 := 0,
    fields := [COUNT] }
/-- R308, 07_data_movement.md. -/
def STRM_PF_REFETCH : Reg :=
  { dies := tds, base := 0x80338, n1 := 168, s1 := 0x400, n2 := 1, s2 := 0,
    fields := [COUNT] }
/-- R308, 07_data_movement.md. -/
def STRM_GATHER_ROWS : Reg :=
  { dies := tds, base := 0x80318, n1 := 168, s1 := 0x400, n2 := 1, s2 := 0,
    fields := [COUNT] }
/-- R308, 07_data_movement.md. -/
def STRM_COMMIT_HOLDS : Reg :=
  { dies := tds, base := 0x80340, n1 := 168, s1 := 0x400, n2 := 1, s2 := 0,
    fields := [COUNT] }
/-- R308, 07_data_movement.md. -/
def STRM_SCATTER_ROWS : Reg :=
  { dies := tds, base := 0x80320, n1 := 168, s1 := 0x400, n2 := 1, s2 := 0,
    fields := [COUNT] }
/-- R308, 07_data_movement.md. -/
def STRM_HINTS : Reg :=
  { dies := tds, base := 0x80348, n1 := 168, s1 := 0x400, n2 := 1, s2 := 0,
    fields := [COUNT] }
/-- R308. -/
def STRM_PF_STATE : Fld := ⟨0, 2, .ro, 0⟩
/-- R308. -/
def STRM_PF_ANY_STALE : Fld := ⟨2, 1, .ro, 0⟩
/-- R308. -/
def STRM_PF_SPAD : Fld := ⟨12, 21, .ro, 0⟩
/-- R308. -/
def STRM_PF_LEN : Fld := ⟨33, 19, .ro, 0⟩
/-- R308, 07_data_movement.md. -/
def STRM_PF : Reg :=
  { dies := tds, base := 0x80380, n1 := 168, s1 := 0x400, n2 := 8, s2 := 8,
    fields := [STRM_PF_STATE, STRM_PF_ANY_STALE, STRM_PF_SPAD, STRM_PF_LEN] }
/-- R337. -/
def VQ_RANGE_BASE_EN : Fld := ⟨0, 1, .rw, 0⟩
/-- R337. -/
def VQ_RANGE_BASE_BASE : Fld := ⟨21, 35, .rw, 0⟩
/-- R337, 08_weight_compression.md. -/
def VQ_RANGE_BASE : Reg :=
  { dies := tds, base := 0x76000, n1 := 16, s1 := 0x10, n2 := 1, s2 := 0,
    fields := [VQ_RANGE_BASE_EN, VQ_RANGE_BASE_BASE] }
/-- R337, 08_weight_compression.md. -/
def VQ_BLOCKS_CAST : Reg :=
  { dies := tds, base := 0x76210, n1 := 1, s1 := 0, n2 := 1, s2 := 0,
    fields := [COUNT] }
/-- R337. -/
def VQ_RANGE_LIMIT_LIMIT : Fld := ⟨21, 35, .rw, 0⟩
/-- R337, 08_weight_compression.md. -/
def VQ_RANGE_LIMIT : Reg :=
  { dies := tds, base := 0x76008, n1 := 16, s1 := 0x10, n2 := 1, s2 := 0,
    fields := [VQ_RANGE_LIMIT_LIMIT] }
/-- R337, 08_weight_compression.md. -/
def VQ_BYTES_FETCHED : Reg :=
  { dies := tds, base := 0x76218, n1 := 1, s1 := 0, n2 := 1, s2 := 0,
    fields := [COUNT] }
/-- R337. -/
def VQ_MOULD_STATE : Fld := ⟨0, 2, .ro, 0⟩
/-- R337. -/
def VQ_MOULD_ERR : Fld := ⟨3, 1, .w1c, 0⟩
/-- R337. -/
def VQ_MOULD_GEN : Fld := ⟨16, 16, .ro, 0⟩
/-- R337. -/
def VQ_MOULD_REFS : Fld := ⟨32, 15, .ro, 0⟩
/-- R337, 08_weight_compression.md. -/
def VQ_MOULD : Reg :=
  { dies := tds, base := 0x76100, n1 := 16, s1 := 8, n2 := 1, s2 := 0,
    fields := [VQ_MOULD_STATE, VQ_MOULD_ERR, VQ_MOULD_GEN, VQ_MOULD_REFS] }
/-- R337, 08_weight_compression.md. -/
def VQ_BYTES_CAST : Reg :=
  { dies := tds, base := 0x76220, n1 := 1, s1 := 0, n2 := 1, s2 := 0,
    fields := [COUNT] }
/-- R337. -/
def VQ_MOULD_GEOM_FMT : Fld := ⟨0, 4, .ro, 0⟩
/-- R337. -/
def VQ_MOULD_GEOM_V : Fld := ⟨8, 5, .ro, 0⟩
/-- R337. -/
def VQ_MOULD_GEOM_B : Fld := ⟨16, 5, .ro, 0⟩
/-- R337. -/
def VQ_MOULD_GEOM_BYTES : Fld := ⟨32, 21, .ro, 0⟩
/-- R337, 08_weight_compression.md. -/
def VQ_MOULD_GEOM : Reg :=
  { dies := tds, base := 0x76180, n1 := 16, s1 := 8, n2 := 1, s2 := 0,
    fields := [VQ_MOULD_GEOM_FMT, VQ_MOULD_GEOM_V, VQ_MOULD_GEOM_B, VQ_MOULD_GEOM_BYTES] }
/-- R337, 08_weight_compression.md. -/
def VQ_RETIRED : Reg :=
  { dies := tds, base := 0x76228, n1 := 1, s1 := 0, n2 := 1, s2 := 0,
    fields := [COUNT] }
/-- R337. -/
def VQ_ERR_VALID : Fld := ⟨0, 1, .w1c, 0⟩
/-- R337. -/
def VQ_ERR_MORE : Fld := ⟨1, 1, .w1c, 0⟩
/-- R337. -/
def VQ_ERR_KIND : Fld := ⟨4, 4, .ro, 0⟩
/-- R337. -/
def VQ_ERR_STATUS : Fld := ⟨16, 16, .ro, 0⟩
/-- R337. -/
def VQ_ERR_MOULD : Fld := ⟨32, 4, .ro, 0⟩
/-- R337. -/
def VQ_ERR_GEN : Fld := ⟨48, 16, .ro, 0⟩
/-- R337, 08_weight_compression.md. -/
def VQ_ERR : Reg :=
  { dies := tds, base := 0x76200, n1 := 1, s1 := 0, n2 := 1, s2 := 0,
    fields := [VQ_ERR_VALID, VQ_ERR_MORE, VQ_ERR_KIND, VQ_ERR_STATUS, VQ_ERR_MOULD, VQ_ERR_GEN] }
/-- R337, 08_weight_compression.md. -/
def VQ_LENGTH_ERRS : Reg :=
  { dies := tds, base := 0x76230, n1 := 1, s1 := 0, n2 := 1, s2 := 0,
    fields := [COUNT] }
/-- R337. -/
def VQ_ERR_ADDR_ADDR : Fld := ⟨0, 56, .ro, 0⟩
/-- R337, 08_weight_compression.md. -/
def VQ_ERR_ADDR : Reg :=
  { dies := tds, base := 0x76208, n1 := 1, s1 := 0, n2 := 1, s2 := 0,
    fields := [VQ_ERR_ADDR_ADDR] }
/-- R337, 08_weight_compression.md. -/
def VQ_HEADER_ERRS : Reg :=
  { dies := tds, base := 0x76238, n1 := 1, s1 := 0, n2 := 1, s2 := 0,
    fields := [COUNT] }
/-- R372. -/
def MEM_CTL_ECC_T : Fld := ⟨0, 3, .rw, 4⟩
/-- R372. -/
def MEM_CTL_CE_WB : Fld := ⟨4, 1, .rw, 1⟩
/-- R372. -/
def MEM_CTL_CE_REC_MIN : Fld := ⟨8, 3, .rw, 3⟩
/-- R372. -/
def MEM_CTL_SCRUB_EN : Fld := ⟨16, 1, .rw, 1⟩
/-- R372, 09_memory.md. -/
def MEM_CTL : Reg :=
  { dies := tds, base := 0x78000, n1 := 1, s1 := 0, n2 := 1, s2 := 0,
    fields := [MEM_CTL_ECC_T, MEM_CTL_CE_WB, MEM_CTL_CE_REC_MIN, MEM_CTL_SCRUB_EN] }
/-- R372, 09_memory.md. -/
def MEM_ERRQ_LOST : Reg :=
  { dies := tds, base := 0x78040, n1 := 1, s1 := 0, n2 := 1, s2 := 0,
    fields := [COUNT] }
/-- R372, 09_memory.md. -/
def MEM_ERRQ_LOST_HD : Reg :=
  { dies := [4], base := 0x2220, n1 := 1, s1 := 0, n2 := 1, s2 := 0,
    fields := [COUNT] }
/-- R372. -/
def MEM_SCRUB_CFG_PERIOD_H : Fld := ⟨0, 8, .rw, 0x18⟩
/-- R372, 09_memory.md. -/
def MEM_SCRUB_CFG : Reg :=
  { dies := tds, base := 0x78008, n1 := 1, s1 := 0, n2 := 1, s2 := 0,
    fields := [MEM_SCRUB_CFG_PERIOD_H] }
/-- R372. -/
def MEM_RETIRE_ADD_FRAME : Fld := ⟨12, 29, .wo, 0⟩
/-- R372, 09_memory.md. -/
def MEM_RETIRE_ADD : Reg :=
  { dies := tds, base := 0x78048, n1 := 1, s1 := 0, n2 := 1, s2 := 0,
    fields := [MEM_RETIRE_ADD_FRAME] }
/-- R372. -/
def MEM_RETIRE_ADD_HD_FRAME : Fld := ⟨12, 29, .wo, 0⟩
/-- R372, 09_memory.md. -/
def MEM_RETIRE_ADD_HD : Reg :=
  { dies := [4], base := 0x2228, n1 := 1, s1 := 0, n2 := 1, s2 := 0,
    fields := [MEM_RETIRE_ADD_HD_FRAME] }
/-- R372. -/
def MEM_SCRUB_STATUS_PASSES : Fld := ⟨0, 32, .ro, 0⟩
/-- R372. -/
def MEM_SCRUB_STATUS_PERMILLE : Fld := ⟨32, 10, .ro, 0⟩
/-- R372. -/
def MEM_SCRUB_STATUS_LAGGING : Fld := ⟨48, 1, .ro, 0⟩
/-- R372, 09_memory.md. -/
def MEM_SCRUB_STATUS : Reg :=
  { dies := tds, base := 0x78010, n1 := 1, s1 := 0, n2 := 1, s2 := 0,
    fields := [MEM_SCRUB_STATUS_PASSES, MEM_SCRUB_STATUS_PERMILLE, MEM_SCRUB_STATUS_LAGGING] }
/-- R372. -/
def MEM_RETIRE_STATUS_PENDING : Fld := ⟨0, 1, .ro, 0⟩
/-- R372. -/
def MEM_RETIRE_STATUS_FULL : Fld := ⟨1, 1, .w1c, 0⟩
/-- R372. -/
def MEM_RETIRE_STATUS_REJECTED : Fld := ⟨2, 1, .w1c, 0⟩
/-- R372. -/
def MEM_RETIRE_STATUS_COUNT : Fld := ⟨16, 13, .ro, 0⟩
/-- R372, 09_memory.md. -/
def MEM_RETIRE_STATUS : Reg :=
  { dies := tds, base := 0x78050, n1 := 1, s1 := 0, n2 := 1, s2 := 0,
    fields := [MEM_RETIRE_STATUS_PENDING, MEM_RETIRE_STATUS_FULL, MEM_RETIRE_STATUS_REJECTED, MEM_RETIRE_STATUS_COUNT] }
/-- R372. -/
def MEM_RETIRE_STATUS_HD_PENDING : Fld := ⟨0, 1, .ro, 0⟩
/-- R372. -/
def MEM_RETIRE_STATUS_HD_FULL : Fld := ⟨1, 1, .w1c, 0⟩
/-- R372. -/
def MEM_RETIRE_STATUS_HD_REJECTED : Fld := ⟨2, 1, .w1c, 0⟩
/-- R372. -/
def MEM_RETIRE_STATUS_HD_COUNT : Fld := ⟨16, 13, .ro, 0⟩
/-- R372, 09_memory.md. -/
def MEM_RETIRE_STATUS_HD : Reg :=
  { dies := [4], base := 0x2230, n1 := 1, s1 := 0, n2 := 1, s2 := 0,
    fields := [MEM_RETIRE_STATUS_HD_PENDING, MEM_RETIRE_STATUS_HD_FULL, MEM_RETIRE_STATUS_HD_REJECTED, MEM_RETIRE_STATUS_HD_COUNT] }
/-- R372. -/
def MEM_CAL_STATUS_PASSES : Fld := ⟨0, 32, .ro, 0⟩
/-- R372. -/
def MEM_CAL_STATUS_LOW_MARGIN : Fld := ⟨32, 3, .w1c, 0⟩
/-- R372, 09_memory.md. -/
def MEM_CAL_STATUS : Reg :=
  { dies := tds, base := 0x78018, n1 := 1, s1 := 0, n2 := 1, s2 := 0,
    fields := [MEM_CAL_STATUS_PASSES, MEM_CAL_STATUS_LOW_MARGIN] }
/-- R372, 09_memory.md. -/
def MEM_CE_COUNT : Reg :=
  { dies := tds, base := 0x78100, n1 := 1, s1 := 0, n2 := 1, s2 := 0,
    fields := [COUNT] }
/-- R372. -/
def MEM_ERRQ_BASE_BASE : Fld := ⟨6, 50, .rw, 0⟩
/-- R372, 09_memory.md. -/
def MEM_ERRQ_BASE : Reg :=
  { dies := tds, base := 0x78020, n1 := 1, s1 := 0, n2 := 1, s2 := 0,
    fields := [MEM_ERRQ_BASE_BASE] }
/-- R372. -/
def MEM_ERRQ_BASE_HD_BASE : Fld := ⟨6, 50, .rw, 0⟩
/-- R372, 09_memory.md. -/
def MEM_ERRQ_BASE_HD : Reg :=
  { dies := [4], base := 0x2200, n1 := 1, s1 := 0, n2 := 1, s2 := 0,
    fields := [MEM_ERRQ_BASE_HD_BASE] }
/-- R372, 09_memory.md. -/
def MEM_UE_COUNT : Reg :=
  { dies := tds, base := 0x78108, n1 := 1, s1 := 0, n2 := 1, s2 := 0,
    fields := [COUNT] }
/-- R372. -/
def MEM_ERRQ_CFG_EN : Fld := ⟨0, 1, .rw, 0⟩
/-- R372. -/
def MEM_ERRQ_CFG_SIZE_LOG2 : Fld := ⟨8, 5, .rw, 4⟩
/-- R372, 09_memory.md. -/
def MEM_ERRQ_CFG : Reg :=
  { dies := tds, base := 0x78028, n1 := 1, s1 := 0, n2 := 1, s2 := 0,
    fields := [MEM_ERRQ_CFG_EN, MEM_ERRQ_CFG_SIZE_LOG2] }
/-- R372. -/
def MEM_ERRQ_CFG_HD_EN : Fld := ⟨0, 1, .rw, 0⟩
/-- R372. -/
def MEM_ERRQ_CFG_HD_SIZE_LOG2 : Fld := ⟨8, 5, .rw, 4⟩
/-- R372, 09_memory.md. -/
def MEM_ERRQ_CFG_HD : Reg :=
  { dies := [4], base := 0x2208, n1 := 1, s1 := 0, n2 := 1, s2 := 0,
    fields := [MEM_ERRQ_CFG_HD_EN, MEM_ERRQ_CFG_HD_SIZE_LOG2] }
/-- R372, 09_memory.md. -/
def MEM_POISON_READS : Reg :=
  { dies := tds, base := 0x78110, n1 := 1, s1 := 0, n2 := 1, s2 := 0,
    fields := [COUNT] }
/-- R372. -/
def MEM_ERRQ_HEAD_INDEX : Fld := ⟨0, 32, .ro, 0⟩
/-- R372, 09_memory.md. -/
def MEM_ERRQ_HEAD : Reg :=
  { dies := tds, base := 0x78030, n1 := 1, s1 := 0, n2 := 1, s2 := 0,
    fields := [MEM_ERRQ_HEAD_INDEX] }
/-- R372. -/
def MEM_ERRQ_HEAD_HD_INDEX : Fld := ⟨0, 32, .ro, 0⟩
/-- R372, 09_memory.md. -/
def MEM_ERRQ_HEAD_HD : Reg :=
  { dies := [4], base := 0x2210, n1 := 1, s1 := 0, n2 := 1, s2 := 0,
    fields := [MEM_ERRQ_HEAD_HD_INDEX] }
/-- R372, 09_memory.md. -/
def MEM_RETIRED_HITS : Reg :=
  { dies := tds, base := 0x78118, n1 := 1, s1 := 0, n2 := 1, s2 := 0,
    fields := [COUNT] }
/-- R372. -/
def MEM_ERRQ_TAIL_INDEX : Fld := ⟨0, 32, .rw, 0⟩
/-- R372, 09_memory.md. -/
def MEM_ERRQ_TAIL : Reg :=
  { dies := tds, base := 0x78038, n1 := 1, s1 := 0, n2 := 1, s2 := 0,
    fields := [MEM_ERRQ_TAIL_INDEX] }
/-- R372. -/
def MEM_ERRQ_TAIL_HD_INDEX : Fld := ⟨0, 32, .rw, 0⟩
/-- R372, 09_memory.md. -/
def MEM_ERRQ_TAIL_HD : Reg :=
  { dies := [4], base := 0x2218, n1 := 1, s1 := 0, n2 := 1, s2 := 0,
    fields := [MEM_ERRQ_TAIL_HD_INDEX] }
/-- R372. -/
def MEM_PC_DOWN : Fld := ⟨0, 1, .ro, 0⟩
/-- R372. -/
def MEM_PC_CE : Fld := ⟨32, 32, .ro, 0⟩
/-- R372, 09_memory.md. -/
def MEM_PC : Reg :=
  { dies := tds, base := 0x78800, n1 := 192, s1 := 8, n2 := 1, s2 := 0,
    fields := [MEM_PC_DOWN, MEM_PC_CE] }
/-- R372. -/
def MEM_BULK_CFG_EN : Fld := ⟨0, 1, .rw, 0⟩
/-- R372. -/
def MEM_BULK_CFG_SIZE_GIB : Fld := ⟨8, 8, .rw, 0⟩
/-- R372. -/
def MEM_BULK_CFG_TIMEOUT_US : Fld := ⟨16, 12, .rw, 0x64⟩
/-- R372, 09_memory.md. -/
def MEM_BULK_CFG : Reg :=
  { dies := [4], base := 0x2100, n1 := 8, s1 := 8, n2 := 1, s2 := 0,
    fields := [MEM_BULK_CFG_EN, MEM_BULK_CFG_SIZE_GIB, MEM_BULK_CFG_TIMEOUT_US] }
/-- R372. -/
def MEM_BULK_STATUS_STATE : Fld := ⟨0, 2, .ro, 0⟩
/-- R372. -/
def MEM_BULK_STATUS_PCIE_MODE : Fld := ⟨2, 1, .ro, 0⟩
/-- R372. -/
def MEM_BULK_STATUS_LINK_UP : Fld := ⟨3, 1, .ro, 0⟩
/-- R372. -/
def MEM_BULK_STATUS_FENCE_USED : Fld := ⟨8, 7, .ro, 0⟩
/-- R372. -/
def MEM_BULK_STATUS_WIDTH : Fld := ⟨16, 5, .ro, 0⟩
/-- R372. -/
def MEM_BULK_STATUS_GTS : Fld := ⟨24, 8, .ro, 0⟩
/-- R372, 09_memory.md. -/
def MEM_BULK_STATUS : Reg :=
  { dies := [4], base := 0x2140, n1 := 8, s1 := 8, n2 := 1, s2 := 0,
    fields := [MEM_BULK_STATUS_STATE, MEM_BULK_STATUS_PCIE_MODE, MEM_BULK_STATUS_LINK_UP, MEM_BULK_STATUS_FENCE_USED, MEM_BULK_STATUS_WIDTH, MEM_BULK_STATUS_GTS] }
/-- R372, 09_memory.md. -/
def MEM_BULK_TIMEOUTS : Reg :=
  { dies := [4], base := 0x2180, n1 := 8, s1 := 8, n2 := 1, s2 := 0,
    fields := [COUNT] }
/-- R405. -/
def COH_CTL_MIN_HOLD : Fld := ⟨0, 8, .rw, 0x20⟩
/-- R405. -/
def COH_CTL_ATOM_MODE : Fld := ⟨8, 2, .rw, 0⟩
/-- R405. -/
def COH_CTL_PRED_CLEAR : Fld := ⟨12, 1, .rw1s, 0⟩
/-- R405, 10_coherence_and_ordering.md. -/
def COH_CTL : Reg :=
  { dies := tdsHd, base := 0x7a000, n1 := 1, s1 := 0, n2 := 1, s2 := 0,
    fields := [COH_CTL_MIN_HOLD, COH_CTL_ATOM_MODE, COH_CTL_PRED_CLEAR] }
/-- R405. -/
def COH_CTL_PD_MIN_HOLD : Fld := ⟨0, 8, .rw, 0x20⟩
/-- R405, 10_coherence_and_ordering.md. -/
def COH_CTL_PD : Reg :=
  { dies := [5, 6], base := 0x7a000, n1 := 1, s1 := 0, n2 := 1, s2 := 0,
    fields := [COH_CTL_PD_MIN_HOLD] }
/-- R405. -/
def COH_DIR_STATUS_ENTRIES : Fld := ⟨0, 22, .ro, 0⟩
/-- R405. -/
def COH_DIR_STATUS_WAYS : Fld := ⟨24, 5, .ro, 0⟩
/-- R405. -/
def COH_DIR_STATUS_BCAST_INFLIGHT : Fld := ⟨32, 7, .ro, 0⟩
/-- R405, 10_coherence_and_ordering.md. -/
def COH_DIR_STATUS : Reg :=
  { dies := tdsHd, base := 0x7a008, n1 := 1, s1 := 0, n2 := 1, s2 := 0,
    fields := [COH_DIR_STATUS_ENTRIES, COH_DIR_STATUS_WAYS, COH_DIR_STATUS_BCAST_INFLIGHT] }
/-- R405. -/
def COH_UNTRACKED_COPIES : Fld := ⟨0, 24, .ro, 0⟩
/-- R405, 10_coherence_and_ordering.md. -/
def COH_UNTRACKED : Reg :=
  { dies := tdsHd, base := 0x7a010, n1 := 1, s1 := 0, n2 := 1, s2 := 0,
    fields := [COH_UNTRACKED_COPIES] }
/-- R405, 10_coherence_and_ordering.md. -/
def COH_DIR_HITS : Reg :=
  { dies := tdsHd, base := 0x7a100, n1 := 1, s1 := 0, n2 := 1, s2 := 0,
    fields := [COUNT] }
/-- R405, 10_coherence_and_ordering.md. -/
def COH_DIR_MISSES : Reg :=
  { dies := tdsHd, base := 0x7a108, n1 := 1, s1 := 0, n2 := 1, s2 := 0,
    fields := [COUNT] }
/-- R405, 10_coherence_and_ordering.md. -/
def COH_DIR_EVICTS : Reg :=
  { dies := tdsHd, base := 0x7a110, n1 := 1, s1 := 0, n2 := 1, s2 := 0,
    fields := [COUNT] }
/-- R405, 10_coherence_and_ordering.md. -/
def COH_BCAST : Reg :=
  { dies := tdsHd, base := 0x7a118, n1 := 1, s1 := 0, n2 := 1, s2 := 0,
    fields := [COUNT] }
/-- R405, 10_coherence_and_ordering.md. -/
def COH_CONFLICTS : Reg :=
  { dies := tdsHd, base := 0x7a120, n1 := 1, s1 := 0, n2 := 1, s2 := 0,
    fields := [COUNT] }
/-- R405, 10_coherence_and_ordering.md. -/
def COH_HOLD_WAITS : Reg :=
  { dies := allDies, base := 0x7a128, n1 := 1, s1 := 0, n2 := 1, s2 := 0,
    fields := [COUNT] }
/-- R405, 10_coherence_and_ordering.md. -/
def COH_ATOM_NEAR : Reg :=
  { dies := tdsHd, base := 0x7a130, n1 := 1, s1 := 0, n2 := 1, s2 := 0,
    fields := [COUNT] }
/-- R405, 10_coherence_and_ordering.md. -/
def COH_ATOM_FAR : Reg :=
  { dies := tdsHd, base := 0x7a138, n1 := 1, s1 := 0, n2 := 1, s2 := 0,
    fields := [COUNT] }
/-- R405, 10_coherence_and_ordering.md. -/
def COH_SUB_LOST : Reg :=
  { dies := tds, base := 0x7a140, n1 := 1, s1 := 0, n2 := 1, s2 := 0,
    fields := [COUNT] }
/-- R435. -/
def XLAT_CTL_HWAD : Fld := ⟨0, 1, .rw, 0⟩
/-- R435, 11_translation.md. -/
def XLAT_CTL : Reg :=
  { dies := tds, base := 0x7c000, n1 := 1, s1 := 0, n2 := 1, s2 := 0,
    fields := [XLAT_CTL_HWAD] }
/-- R435. -/
def XLAT_AS_SATP_PPN : Fld := ⟨0, 44, .rw, 0⟩
/-- R435. -/
def XLAT_AS_SATP_ASID : Fld := ⟨44, 16, .rw, 0⟩
/-- R435. -/
def XLAT_AS_SATP_MODE : Fld := ⟨60, 4, .rw, 0⟩
/-- R435, 11_translation.md. -/
def XLAT_AS_SATP : Reg :=
  { dies := tds, base := 0x7c100, n1 := 64, s1 := 0x10, n2 := 1, s2 := 0,
    fields := [XLAT_AS_SATP_PPN, XLAT_AS_SATP_ASID, XLAT_AS_SATP_MODE] }
/-- R435. -/
def XLAT_FQ_BASE_BASE : Fld := ⟨12, 44, .rw, 0⟩
/-- R435, 11_translation.md. -/
def XLAT_FQ_BASE : Reg :=
  { dies := tds, base := 0x7c008, n1 := 1, s1 := 0, n2 := 1, s2 := 0,
    fields := [XLAT_FQ_BASE_BASE] }
/-- R435. -/
def XLAT_AS_CFG_VALID : Fld := ⟨0, 1, .rw, 0⟩
/-- R435. -/
def XLAT_AS_CFG_PRIV : Fld := ⟨1, 1, .rw, 0⟩
/-- R435. -/
def XLAT_AS_CFG_SUM : Fld := ⟨2, 1, .rw, 0⟩
/-- R435. -/
def XLAT_AS_CFG_MXR : Fld := ⟨3, 1, .rw, 0⟩
/-- R435, 11_translation.md. -/
def XLAT_AS_CFG : Reg :=
  { dies := tds, base := 0x7c108, n1 := 64, s1 := 0x10, n2 := 1, s2 := 0,
    fields := [XLAT_AS_CFG_VALID, XLAT_AS_CFG_PRIV, XLAT_AS_CFG_SUM, XLAT_AS_CFG_MXR] }
/-- R435. -/
def XLAT_FQ_CFG_EN : Fld := ⟨0, 1, .rw, 0⟩
/-- R435, 11_translation.md. -/
def XLAT_FQ_CFG : Reg :=
  { dies := tds, base := 0x7c010, n1 := 1, s1 := 0, n2 := 1, s2 := 0,
    fields := [XLAT_FQ_CFG_EN] }
/-- R435, 11_translation.md. -/
def XLAT_STLB_HITS : Reg :=
  { dies := tds, base := 0x7c600, n1 := 1, s1 := 0, n2 := 1, s2 := 0,
    fields := [COUNT] }
/-- R435. -/
def XLAT_FQ_HEAD_INDEX : Fld := ⟨0, 32, .ro, 0⟩
/-- R435, 11_translation.md. -/
def XLAT_FQ_HEAD : Reg :=
  { dies := tds, base := 0x7c018, n1 := 1, s1 := 0, n2 := 1, s2 := 0,
    fields := [XLAT_FQ_HEAD_INDEX] }
/-- R435, 11_translation.md. -/
def XLAT_STLB_MISSES : Reg :=
  { dies := tds, base := 0x7c608, n1 := 1, s1 := 0, n2 := 1, s2 := 0,
    fields := [COUNT] }
/-- R435. -/
def XLAT_FQ_TAIL_INDEX : Fld := ⟨0, 32, .rw, 0⟩
/-- R435, 11_translation.md. -/
def XLAT_FQ_TAIL : Reg :=
  { dies := tds, base := 0x7c020, n1 := 1, s1 := 0, n2 := 1, s2 := 0,
    fields := [XLAT_FQ_TAIL_INDEX] }
/-- R435, 11_translation.md. -/
def XLAT_WALKS : Reg :=
  { dies := tds, base := 0x7c610, n1 := 1, s1 := 0, n2 := 1, s2 := 0,
    fields := [COUNT] }
/-- R435. -/
def XLAT_FQ_RESP_NUMBER : Fld := ⟨0, 32, .wo, 0⟩
/-- R435. -/
def XLAT_FQ_RESP_ACTION : Fld := ⟨32, 2, .wo, 0⟩
/-- R435, 11_translation.md. -/
def XLAT_FQ_RESP : Reg :=
  { dies := tds, base := 0x7c028, n1 := 1, s1 := 0, n2 := 1, s2 := 0,
    fields := [XLAT_FQ_RESP_NUMBER, XLAT_FQ_RESP_ACTION] }
/-- R435, 11_translation.md. -/
def XLAT_PTE_READS : Reg :=
  { dies := tds, base := 0x7c618, n1 := 1, s1 := 0, n2 := 1, s2 := 0,
    fields := [COUNT] }
/-- R435. -/
def XLAT_FQ_STATUS_OUTSTANDING : Fld := ⟨0, 13, .ro, 0⟩
/-- R435. -/
def XLAT_FQ_STATUS_WAITING : Fld := ⟨16, 15, .ro, 0⟩
/-- R435. -/
def XLAT_FQ_STATUS_FULL : Fld := ⟨31, 1, .ro, 0⟩
/-- R435. -/
def XLAT_FQ_STATUS_WRITE_ERR : Fld := ⟨32, 1, .w1c, 0⟩
/-- R435, 11_translation.md. -/
def XLAT_FQ_STATUS : Reg :=
  { dies := tds, base := 0x7c030, n1 := 1, s1 := 0, n2 := 1, s2 := 0,
    fields := [XLAT_FQ_STATUS_OUTSTANDING, XLAT_FQ_STATUS_WAITING, XLAT_FQ_STATUS_FULL, XLAT_FQ_STATUS_WRITE_ERR] }
/-- R435, 11_translation.md. -/
def XLAT_AD_UPDATES : Reg :=
  { dies := tds, base := 0x7c620, n1 := 1, s1 := 0, n2 := 1, s2 := 0,
    fields := [COUNT] }
/-- R435. -/
def XLAT_WDOG_TIMEOUT_US : Fld := ⟨0, 16, .rw, 0x3e8⟩
/-- R435, 11_translation.md. -/
def XLAT_WDOG : Reg :=
  { dies := tds, base := 0x7c038, n1 := 1, s1 := 0, n2 := 1, s2 := 0,
    fields := [XLAT_WDOG_TIMEOUT_US] }
/-- R435, 11_translation.md. -/
def XLAT_FAULTS : Reg :=
  { dies := tds, base := 0x7c628, n1 := 1, s1 := 0, n2 := 1, s2 := 0,
    fields := [COUNT] }
/-- R435. -/
def XLAT_INV_ADDR_VPN : Fld := ⟨12, 45, .rw, 0⟩
/-- R435, 11_translation.md. -/
def XLAT_INV_ADDR : Reg :=
  { dies := tdsHd, base := 0x7c040, n1 := 1, s1 := 0, n2 := 1, s2 := 0,
    fields := [XLAT_INV_ADDR_VPN] }
/-- R435, 11_translation.md. -/
def XLAT_FQ_OVERFLOW : Reg :=
  { dies := tds, base := 0x7c630, n1 := 1, s1 := 0, n2 := 1, s2 := 0,
    fields := [COUNT] }
/-- R435. -/
def XLAT_INV_CTL_GO : Fld := ⟨0, 1, .rw1s, 0⟩
/-- R435. -/
def XLAT_INV_CTL_SCOPE : Fld := ⟨1, 2, .rw, 0⟩
/-- R435. -/
def XLAT_INV_CTL_ASID : Fld := ⟨16, 16, .rw, 0⟩
/-- R435, 11_translation.md. -/
def XLAT_INV_CTL : Reg :=
  { dies := tdsHd, base := 0x7c048, n1 := 1, s1 := 0, n2 := 1, s2 := 0,
    fields := [XLAT_INV_CTL_GO, XLAT_INV_CTL_SCOPE, XLAT_INV_CTL_ASID] }
/-- R435, 11_translation.md. -/
def XLAT_WDOG_EXPIRED : Reg :=
  { dies := tds, base := 0x7c638, n1 := 1, s1 := 0, n2 := 1, s2 := 0,
    fields := [COUNT] }
/-- R435. -/
def XLAT_INV_STATUS_OVERRUN : Fld := ⟨0, 1, .w1c, 0⟩
/-- R435. -/
def XLAT_INV_STATUS_DONE_COUNT : Fld := ⟨32, 32, .ro, 0⟩
/-- R435, 11_translation.md. -/
def XLAT_INV_STATUS : Reg :=
  { dies := tdsHd, base := 0x7c050, n1 := 1, s1 := 0, n2 := 1, s2 := 0,
    fields := [XLAT_INV_STATUS_OVERRUN, XLAT_INV_STATUS_DONE_COUNT] }
/-- R435, 11_translation.md. -/
def XLAT_STALE_RESP : Reg :=
  { dies := tds, base := 0x7c640, n1 := 1, s1 := 0, n2 := 1, s2 := 0,
    fields := [COUNT] }
/-- R472. -/
def CMD_CTL_QLIMIT : Fld := ⟨0, 9, .rw, 0x40⟩
/-- R472, 12_commands.md. -/
def CMD_CTL : Reg :=
  { dies := tds, base := 0x7e000, n1 := 1, s1 := 0, n2 := 1, s2 := 0,
    fields := [CMD_CTL_QLIMIT] }
/-- R472. -/
def CMD_SQ_BASE_BASE : Fld := ⟨6, 50, .rw, 0⟩
/-- R472, 12_commands.md. -/
def CMD_SQ_BASE : Reg :=
  { dies := tds, base := 0x100000, n1 := 16384, s1 := 0x40, n2 := 1, s2 := 0,
    fields := [CMD_SQ_BASE_BASE] }
/-- R472. -/
def CMD_STATUS_FW_ACTIVE : Fld := ⟨0, 3, .ro, 0⟩
/-- R472. -/
def CMD_STATUS_QUEUES_ON : Fld := ⟨16, 15, .ro, 0⟩
/-- R472. -/
def CMD_STATUS_HELD : Fld := ⟨32, 13, .ro, 0⟩
/-- R472, 12_commands.md. -/
def CMD_STATUS : Reg :=
  { dies := tds, base := 0x7e008, n1 := 1, s1 := 0, n2 := 1, s2 := 0,
    fields := [CMD_STATUS_FW_ACTIVE, CMD_STATUS_QUEUES_ON, CMD_STATUS_HELD] }
/-- R472. -/
def CMD_CQ_BASE_BASE : Fld := ⟨6, 50, .rw, 0⟩
/-- R472, 12_commands.md. -/
def CMD_CQ_BASE : Reg :=
  { dies := tds, base := 0x100008, n1 := 16384, s1 := 0x40, n2 := 1, s2 := 0,
    fields := [CMD_CQ_BASE_BASE] }
/-- R472, 12_commands.md. -/
def CMD_PACKETS : Reg :=
  { dies := tds, base := 0x7e100, n1 := 1, s1 := 0, n2 := 1, s2 := 0,
    fields := [COUNT] }
/-- R472. -/
def CMD_QCFG_EN : Fld := ⟨0, 1, .rw, 0⟩
/-- R472. -/
def CMD_QCFG_SQ_LOG2 : Fld := ⟨8, 5, .rw, 6⟩
/-- R472. -/
def CMD_QCFG_CQ_LOG2 : Fld := ⟨16, 5, .rw, 4⟩
/-- R472. -/
def CMD_QCFG_ASLOT : Fld := ⟨24, 6, .rw, 0⟩
/-- R472. -/
def CMD_QCFG_MSI_EN : Fld := ⟨32, 1, .rw, 0⟩
/-- R472, 12_commands.md. -/
def CMD_QCFG : Reg :=
  { dies := tds, base := 0x100010, n1 := 16384, s1 := 0x40, n2 := 1, s2 := 0,
    fields := [CMD_QCFG_EN, CMD_QCFG_SQ_LOG2, CMD_QCFG_CQ_LOG2, CMD_QCFG_ASLOT, CMD_QCFG_MSI_EN] }
/-- R472, 12_commands.md. -/
def CMD_FW_PACKETS : Reg :=
  { dies := tds, base := 0x7e108, n1 := 1, s1 := 0, n2 := 1, s2 := 0,
    fields := [COUNT] }
/-- R472. -/
def CMD_SQ_PTR_HEAD : Fld := ⟨0, 32, .ro, 0⟩
/-- R472. -/
def CMD_SQ_PTR_TAIL : Fld := ⟨32, 32, .ro, 0⟩
/-- R472, 12_commands.md. -/
def CMD_SQ_PTR : Reg :=
  { dies := tds, base := 0x100018, n1 := 16384, s1 := 0x40, n2 := 1, s2 := 0,
    fields := [CMD_SQ_PTR_HEAD, CMD_SQ_PTR_TAIL] }
/-- R472, 12_commands.md. -/
def CMD_MALFORMED : Reg :=
  { dies := tds, base := 0x7e110, n1 := 1, s1 := 0, n2 := 1, s2 := 0,
    fields := [COUNT] }
/-- R472. -/
def CMD_CQ_PTR_TAIL : Fld := ⟨0, 32, .ro, 0⟩
/-- R472. -/
def CMD_CQ_PTR_HEAD : Fld := ⟨32, 32, .rw, 0⟩
/-- R472, 12_commands.md. -/
def CMD_CQ_PTR : Reg :=
  { dies := tds, base := 0x100020, n1 := 16384, s1 := 0x40, n2 := 1, s2 := 0,
    fields := [CMD_CQ_PTR_TAIL, CMD_CQ_PTR_HEAD] }
/-- R472, 12_commands.md. -/
def CMD_SUPERSEDED : Reg :=
  { dies := tds, base := 0x7e118, n1 := 1, s1 := 0, n2 := 1, s2 := 0,
    fields := [COUNT] }
/-- R472. -/
def CMD_QSTAT_STATE : Fld := ⟨0, 2, .ro, 0⟩
/-- R472. -/
def CMD_QSTAT_DB_ERR : Fld := ⟨2, 1, .w1c, 0⟩
/-- R472. -/
def CMD_QSTAT_READ_ERR : Fld := ⟨3, 1, .w1c, 0⟩
/-- R472. -/
def CMD_QSTAT_WRITE_ERR : Fld := ⟨4, 1, .w1c, 0⟩
/-- R472. -/
def CMD_QSTAT_NOTICE_LOST : Fld := ⟨5, 1, .w1c, 0⟩
/-- R472. -/
def CMD_QSTAT_CQ_FULL : Fld := ⟨6, 1, .ro, 0⟩
/-- R472. -/
def CMD_QSTAT_INFLIGHT : Fld := ⟨16, 9, .ro, 0⟩
/-- R472, 12_commands.md. -/
def CMD_QSTAT : Reg :=
  { dies := tds, base := 0x100028, n1 := 16384, s1 := 0x40, n2 := 1, s2 := 0,
    fields := [CMD_QSTAT_STATE, CMD_QSTAT_DB_ERR, CMD_QSTAT_READ_ERR, CMD_QSTAT_WRITE_ERR, CMD_QSTAT_NOTICE_LOST, CMD_QSTAT_CQ_FULL, CMD_QSTAT_INFLIGHT] }
/-- R472, 12_commands.md. -/
def CMD_DB_ERRORS : Reg :=
  { dies := tds, base := 0x7e120, n1 := 1, s1 := 0, n2 := 1, s2 := 0,
    fields := [COUNT] }
/-- R472. -/
def CMD_MSI_ADDR_ADDR : Fld := ⟨2, 54, .rw, 0⟩
/-- R472, 12_commands.md. -/
def CMD_MSI_ADDR : Reg :=
  { dies := tds, base := 0x100030, n1 := 16384, s1 := 0x40, n2 := 1, s2 := 0,
    fields := [CMD_MSI_ADDR_ADDR] }
/-- R472, 12_commands.md. -/
def CMD_RECORDS_LOST : Reg :=
  { dies := tds, base := 0x7e128, n1 := 1, s1 := 0, n2 := 1, s2 := 0,
    fields := [COUNT] }
/-- R472. -/
def CMD_MSI_DATA_DATA : Fld := ⟨0, 32, .rw, 0⟩
/-- R472, 12_commands.md. -/
def CMD_MSI_DATA : Reg :=
  { dies := tds, base := 0x100038, n1 := 16384, s1 := 0x40, n2 := 1, s2 := 0,
    fields := [CMD_MSI_DATA_DATA] }
/-- R472. -/
def CMD_FW_PKT_PKT : Fld := ⟨0, 64, .rw, 0⟩
/-- R472, 12_commands.md. -/
def CMD_FW_PKT : Reg :=
  { dies := [4], base := 0x3800, n1 := 8, s1 := 8, n2 := 1, s2 := 0,
    fields := [CMD_FW_PKT_PKT] }
/-- R472. -/
def CMD_FW_CPL_LO_REC : Fld := ⟨0, 64, .ro, 0⟩
/-- R472, 12_commands.md. -/
def CMD_FW_CPL_LO : Reg :=
  { dies := [4], base := 0x3848, n1 := 1, s1 := 0, n2 := 1, s2 := 0,
    fields := [CMD_FW_CPL_LO_REC] }
/-- R472. -/
def CMD_FW_CTL_GO : Fld := ⟨0, 1, .rw1s, 0⟩
/-- R472, 12_commands.md. -/
def CMD_FW_CTL : Reg :=
  { dies := [4], base := 0x3840, n1 := 1, s1 := 0, n2 := 1, s2 := 0,
    fields := [CMD_FW_CTL_GO] }
/-- R472. -/
def CMD_FW_CPL_HI_REC : Fld := ⟨0, 64, .ro, 0⟩
/-- R472, 12_commands.md. -/
def CMD_FW_CPL_HI : Reg :=
  { dies := [4], base := 0x3850, n1 := 1, s1 := 0, n2 := 1, s2 := 0,
    fields := [CMD_FW_CPL_HI_REC] }
/-- R508. -/
def UPD_STATUS_SKIP_SEEN_ANY : Fld := ⟨0, 1, .ro, 0⟩
/-- R508. -/
def UPD_STATUS_INSTALL_PENDING : Fld := ⟨1, 1, .ro, 0⟩
/-- R508. -/
def UPD_STATUS_GROUPS_VALID : Fld := ⟨16, 11, .ro, 0⟩
/-- R508, 13_training.md. -/
def UPD_STATUS : Reg :=
  { dies := tds, base := 0x7f000, n1 := 1, s1 := 0, n2 := 1, s2 := 0,
    fields := [UPD_STATUS_SKIP_SEEN_ANY, UPD_STATUS_INSTALL_PENDING, UPD_STATUS_GROUPS_VALID] }
/-- R508, 13_training.md. -/
def UPD_ELEMENTS : Reg :=
  { dies := tds, base := 0x7f108, n1 := 1, s1 := 0, n2 := 1, s2 := 0,
    fields := [COUNT] }
/-- R508. -/
def UPD_GRP_SEL_GROUP : Fld := ⟨0, 10, .rw, 0⟩
/-- R508, 13_training.md. -/
def UPD_GRP_SEL : Reg :=
  { dies := tds, base := 0x7f008, n1 := 1, s1 := 0, n2 := 1, s2 := 0,
    fields := [UPD_GRP_SEL_GROUP] }
/-- R508, 13_training.md. -/
def UPD_LAZY_ROWS : Reg :=
  { dies := tds, base := 0x7f110, n1 := 1, s1 := 0, n2 := 1, s2 := 0,
    fields := [COUNT] }
/-- R508. -/
def UPD_GRP_STATE_VALID : Fld := ⟨0, 1, .ro, 0⟩
/-- R508. -/
def UPD_GRP_STATE_RULE : Fld := ⟨1, 2, .ro, 0⟩
/-- R508. -/
def UPD_GRP_STATE_LAZY : Fld := ⟨3, 1, .ro, 0⟩
/-- R508. -/
def UPD_GRP_STATE_SKIP_SEEN : Fld := ⟨4, 1, .ro, 0⟩
/-- R508. -/
def UPD_GRP_STATE_ETA_RES : Fld := ⟨32, 32, .ro, 0⟩
/-- R508, 13_training.md. -/
def UPD_GRP_STATE : Reg :=
  { dies := tds, base := 0x7f010, n1 := 1, s1 := 0, n2 := 1, s2 := 0,
    fields := [UPD_GRP_STATE_VALID, UPD_GRP_STATE_RULE, UPD_GRP_STATE_LAZY, UPD_GRP_STATE_SKIP_SEEN, UPD_GRP_STATE_ETA_RES] }
/-- R508, 13_training.md. -/
def UPD_LAZY_REPEAT : Reg :=
  { dies := tds, base := 0x7f118, n1 := 1, s1 := 0, n2 := 1, s2 := 0,
    fields := [COUNT] }
/-- R508. -/
def UPD_GRP_STEP_VALUE : Fld := ⟨0, 48, .ro, 0⟩
/-- R508, 13_training.md. -/
def UPD_GRP_STEP : Reg :=
  { dies := tds, base := 0x7f018, n1 := 1, s1 := 0, n2 := 1, s2 := 0,
    fields := [UPD_GRP_STEP_VALUE] }
/-- R508, 13_training.md. -/
def UPD_NONFINITE : Reg :=
  { dies := tds, base := 0x7f120, n1 := 1, s1 := 0, n2 := 1, s2 := 0,
    fields := [COUNT] }
/-- R508. -/
def UPD_GRP_EPOCH_VALUE : Fld := ⟨0, 48, .ro, 0⟩
/-- R508, 13_training.md. -/
def UPD_GRP_EPOCH : Reg :=
  { dies := tds, base := 0x7f020, n1 := 1, s1 := 0, n2 := 1, s2 := 0,
    fields := [UPD_GRP_EPOCH_VALUE] }
/-- R508, 13_training.md. -/
def UPD_STEPS : Reg :=
  { dies := tds, base := 0x7f128, n1 := 1, s1 := 0, n2 := 1, s2 := 0,
    fields := [COUNT] }
/-- R508, 13_training.md. -/
def UPD_INSTR : Reg :=
  { dies := tds, base := 0x7f100, n1 := 1, s1 := 0, n2 := 1, s2 := 0,
    fields := [COUNT] }
/-- R508, 13_training.md. -/
def UPD_SKIPPED : Reg :=
  { dies := tds, base := 0x7f130, n1 := 1, s1 := 0, n2 := 1, s2 := 0,
    fields := [COUNT] }
/-- R508, 13_training.md. -/
def UPD_EPOCH_WAITS : Reg :=
  { dies := tds, base := 0x7f138, n1 := 1, s1 := 0, n2 := 1, s2 := 0,
    fields := [COUNT] }
/-- R509. -/
def CKPT_CTL_FULL : Fld := ⟨0, 1, .rw1s, 0⟩
/-- R509, 13_training.md. -/
def CKPT_CTL : Reg :=
  { dies := [4], base := 0x3a00, n1 := 1, s1 := 0, n2 := 1, s2 := 0,
    fields := [CKPT_CTL_FULL] }
/-- R509. -/
def CKPT_PROGRESS_SENT : Fld := ⟨0, 32, .ro, 0⟩
/-- R509. -/
def CKPT_PROGRESS_TOTAL : Fld := ⟨32, 32, .ro, 0⟩
/-- R509, 13_training.md. -/
def CKPT_PROGRESS : Reg :=
  { dies := [4], base := 0x3a38, n1 := 1, s1 := 0, n2 := 1, s2 := 0,
    fields := [CKPT_PROGRESS_SENT, CKPT_PROGRESS_TOTAL] }
/-- R509. -/
def CKPT_RELEASE_BEAT : Fld := ⟨0, 64, .rw, 0⟩
/-- R509, 13_training.md. -/
def CKPT_RELEASE : Reg :=
  { dies := [4], base := 0x3a08, n1 := 1, s1 := 0, n2 := 1, s2 := 0,
    fields := [CKPT_RELEASE_BEAT] }
/-- R509, 13_training.md. -/
def CKPT_MAQUETTES : Reg :=
  { dies := [4], base := 0x3a40, n1 := 1, s1 := 0, n2 := 1, s2 := 0,
    fields := [COUNT] }
/-- R509. -/
def CKPT_CFG_ARMED : Fld := ⟨0, 1, .ro, 0⟩
/-- R509. -/
def CKPT_CFG_GATE : Fld := ⟨1, 1, .ro, 0⟩
/-- R509. -/
def CKPT_CFG_NEIGHBOUR : Fld := ⟨16, 15, .ro, 0⟩
/-- R509. -/
def CKPT_CFG_INTERVAL : Fld := ⟨32, 32, .ro, 0⟩
/-- R509, 13_training.md. -/
def CKPT_CFG : Reg :=
  { dies := [4], base := 0x3a10, n1 := 1, s1 := 0, n2 := 1, s2 := 0,
    fields := [CKPT_CFG_ARMED, CKPT_CFG_GATE, CKPT_CFG_NEIGHBOUR, CKPT_CFG_INTERVAL] }
/-- R509, 13_training.md. -/
def CKPT_BYTES : Reg :=
  { dies := [4], base := 0x3a48, n1 := 1, s1 := 0, n2 := 1, s2 := 0,
    fields := [COUNT] }
/-- R509. -/
def CKPT_AREA_AREA : Fld := ⟨0, 41, .ro, 0⟩
/-- R509, 13_training.md. -/
def CKPT_AREA : Reg :=
  { dies := [4], base := 0x3a18, n1 := 1, s1 := 0, n2 := 1, s2 := 0,
    fields := [CKPT_AREA_AREA] }
/-- R509, 13_training.md. -/
def CKPT_CUTS_MISSED : Reg :=
  { dies := [4], base := 0x3a50, n1 := 1, s1 := 0, n2 := 1, s2 := 0,
    fields := [COUNT] }
/-- R509. -/
def CKPT_STATUS_BUSY : Fld := ⟨0, 1, .ro, 0⟩
/-- R509. -/
def CKPT_STATUS_CLEAN : Fld := ⟨1, 1, .ro, 0⟩
/-- R509. -/
def CKPT_STATUS_FAILED : Fld := ⟨2, 1, .w1c, 0⟩
/-- R509. -/
def CKPT_STATUS_FAIL_STATUS : Fld := ⟨16, 16, .ro, 0⟩
/-- R509, 13_training.md. -/
def CKPT_STATUS : Reg :=
  { dies := [4], base := 0x3a20, n1 := 1, s1 := 0, n2 := 1, s2 := 0,
    fields := [CKPT_STATUS_BUSY, CKPT_STATUS_CLEAN, CKPT_STATUS_FAILED, CKPT_STATUS_FAIL_STATUS] }
/-- R509, 13_training.md. -/
def CKPT_STAGED : Reg :=
  { dies := [4], base := 0x3a58, n1 := 1, s1 := 0, n2 := 1, s2 := 0,
    fields := [COUNT] }
/-- R509. -/
def CKPT_LAST_BEAT_BEAT : Fld := ⟨0, 64, .ro, 0⟩
/-- R509, 13_training.md. -/
def CKPT_LAST_BEAT : Reg :=
  { dies := [4], base := 0x3a28, n1 := 1, s1 := 0, n2 := 1, s2 := 0,
    fields := [CKPT_LAST_BEAT_BEAT] }
/-- R509, 13_training.md. -/
def CKPT_WRITE_WAITS : Reg :=
  { dies := [4], base := 0x3a60, n1 := 1, s1 := 0, n2 := 1, s2 := 0,
    fields := [COUNT] }
/-- R509. -/
def CKPT_LAST_NUM_MNUM : Fld := ⟨0, 32, .ro, 0⟩
/-- R509. -/
def CKPT_LAST_NUM_SLOT : Fld := ⟨32, 1, .ro, 0⟩
/-- R509, 13_training.md. -/
def CKPT_LAST_NUM : Reg :=
  { dies := [4], base := 0x3a30, n1 := 1, s1 := 0, n2 := 1, s2 := 0,
    fields := [CKPT_LAST_NUM_MNUM, CKPT_LAST_NUM_SLOT] }
/-- R538. -/
def ING_CTL_CARRY_MAX : Fld := ⟨0, 13, .rw, 0x400⟩
/-- R538, 14_ingest.md. -/
def ING_CTL : Reg :=
  { dies := tds, base := 0x7f800, n1 := 1, s1 := 0, n2 := 1, s2 := 0,
    fields := [ING_CTL_CARRY_MAX] }
/-- R538, 14_ingest.md. -/
def ING_SAMPLES : Reg :=
  { dies := tds, base := 0x7fb00, n1 := 1, s1 := 0, n2 := 1, s2 := 0,
    fields := [COUNT] }
/-- R538. -/
def ING_LIMIT_DIM_MAX_WIDTH : Fld := ⟨0, 16, .rw, 0xffff⟩
/-- R538. -/
def ING_LIMIT_DIM_MAX_HEIGHT : Fld := ⟨16, 16, .rw, 0xffff⟩
/-- R538. -/
def ING_LIMIT_DIM_MAX_CHANNELS : Fld := ⟨32, 16, .rw, 0xffff⟩
/-- R538, 14_ingest.md. -/
def ING_LIMIT_DIM : Reg :=
  { dies := tds, base := 0x7f808, n1 := 1, s1 := 0, n2 := 1, s2 := 0,
    fields := [ING_LIMIT_DIM_MAX_WIDTH, ING_LIMIT_DIM_MAX_HEIGHT, ING_LIMIT_DIM_MAX_CHANNELS] }
/-- R538, 14_ingest.md. -/
def ING_LATE : Reg :=
  { dies := tds, base := 0x7fb08, n1 := 1, s1 := 0, n2 := 1, s2 := 0,
    fields := [COUNT] }
/-- R538. -/
def ING_LIMIT_ELEM_MAX : Fld := ⟨0, 41, .rw, 0x100000000⟩
/-- R538, 14_ingest.md. -/
def ING_LIMIT_ELEM : Reg :=
  { dies := tds, base := 0x7f810, n1 := 1, s1 := 0, n2 := 1, s2 := 0,
    fields := [ING_LIMIT_ELEM_MAX] }
/-- R538, 14_ingest.md. -/
def ING_TIMEOUTS : Reg :=
  { dies := tds, base := 0x7fb10, n1 := 1, s1 := 0, n2 := 1, s2 := 0,
    fields := [COUNT] }
/-- R538. -/
def ING_LIMIT_BYTES_MAX : Fld := ⟨0, 41, .rw, 0x100000000⟩
/-- R538, 14_ingest.md. -/
def ING_LIMIT_BYTES : Reg :=
  { dies := tds, base := 0x7f818, n1 := 1, s1 := 0, n2 := 1, s2 := 0,
    fields := [ING_LIMIT_BYTES_MAX] }
/-- R538, 14_ingest.md. -/
def ING_DIM_LIMITS : Reg :=
  { dies := tds, base := 0x7fb18, n1 := 1, s1 := 0, n2 := 1, s2 := 0,
    fields := [COUNT] }
/-- R538. -/
def ING_IMAGE_BASE : Fld := ⟨12, 44, .ro, 0⟩
/-- R538, 14_ingest.md. -/
def ING_IMAGE : Reg :=
  { dies := tds, base := 0x7f820, n1 := 1, s1 := 0, n2 := 1, s2 := 0,
    fields := [ING_IMAGE_BASE] }
/-- R538, 14_ingest.md. -/
def ING_CORRUPT : Reg :=
  { dies := tds, base := 0x7fb20, n1 := 1, s1 := 0, n2 := 1, s2 := 0,
    fields := [COUNT] }
/-- R538. -/
def ING_STAGE_BASE_BASE : Fld := ⟨6, 50, .rw, 0⟩
/-- R538, 14_ingest.md. -/
def ING_STAGE_BASE : Reg :=
  { dies := tds, base := 0x7f900, n1 := 16, s1 := 0x10, n2 := 1, s2 := 0,
    fields := [ING_STAGE_BASE_BASE] }
/-- R538, 14_ingest.md. -/
def ING_RESTARTS : Reg :=
  { dies := tds, base := 0x7fb28, n1 := 1, s1 := 0, n2 := 1, s2 := 0,
    fields := [COUNT] }
/-- R538. -/
def ING_STAGE_SIZE_SIZE : Fld := ⟨6, 35, .rw, 0⟩
/-- R538, 14_ingest.md. -/
def ING_STAGE_SIZE : Reg :=
  { dies := tds, base := 0x7f908, n1 := 16, s1 := 0x10, n2 := 1, s2 := 0,
    fields := [ING_STAGE_SIZE_SIZE] }
/-- R538, 14_ingest.md. -/
def ING_ENV_TICKS : Reg :=
  { dies := tds, base := 0x7fb30, n1 := 1, s1 := 0, n2 := 1, s2 := 0,
    fields := [COUNT] }
/-- R538. -/
def ING_SLOT_JOBS : Fld := ⟨0, 3, .ro, 0⟩
/-- R538. -/
def ING_SLOT_ENV : Fld := ⟨3, 1, .ro, 0⟩
/-- R538. -/
def ING_SLOT_CARRIED : Fld := ⟨16, 13, .ro, 0⟩
/-- R538. -/
def ING_SLOT_DECODING : Fld := ⟨32, 32, .ro, 0⟩
/-- R538, 14_ingest.md. -/
def ING_SLOT : Reg :=
  { dies := tds, base := 0x7fa00, n1 := 16, s1 := 8, n2 := 1, s2 := 0,
    fields := [ING_SLOT_JOBS, ING_SLOT_ENV, ING_SLOT_CARRIED, ING_SLOT_DECODING] }
/-- R538, 14_ingest.md. -/
def ING_ENV_MISSED : Reg :=
  { dies := tds, base := 0x7fb38, n1 := 1, s1 := 0, n2 := 1, s2 := 0,
    fields := [COUNT] }
/-- R538. -/
def ING_MEAN_MEAN : Fld := ⟨0, 40, .ro, 0⟩
/-- R538. -/
def ING_MEAN_COUNT : Fld := ⟨48, 16, .ro, 0⟩
/-- R538, 14_ingest.md. -/
def ING_MEAN : Reg :=
  { dies := tds, base := 0x7fa80, n1 := 16, s1 := 8, n2 := 1, s2 := 0,
    fields := [ING_MEAN_MEAN, ING_MEAN_COUNT] }
/-- R538, 14_ingest.md. -/
def ING_ENV_LAPPED : Reg :=
  { dies := tds, base := 0x7fb40, n1 := 1, s1 := 0, n2 := 1, s2 := 0,
    fields := [COUNT] }
/-- R587. -/
def FAB_CTL_RLB_EN : Fld := ⟨1, 1, .rw, 1⟩
/-- R587. -/
def FAB_CTL_HOP_LIMIT : Fld := ⟨8, 4, .rw, 8⟩
/-- R587. -/
def FAB_CTL_RLB_NS : Fld := ⟨16, 16, .rw, 0x7d0⟩
/-- R587, 15_fabric.md. -/
def FAB_CTL : Reg :=
  { dies := [5, 6], base := 0x40000, n1 := 1, s1 := 0, n2 := 1, s2 := 0,
    fields := [FAB_CTL_RLB_EN, FAB_CTL_HOP_LIMIT, FAB_CTL_RLB_NS] }
/-- R587, 15_fabric.md. -/
def FAB_TP_RETX : Reg :=
  { dies := [5, 6], base := 0x40100, n1 := 1, s1 := 0, n2 := 1, s2 := 0,
    fields := [COUNT] }
/-- R587. -/
def FAB_STATUS_ID_VALID : Fld := ⟨0, 1, .ro, 0⟩
/-- R587. -/
def FAB_STATUS_SUBPORTS_UP : Fld := ⟨16, 7, .ro, 0⟩
/-- R587. -/
def FAB_STATUS_LOST : Fld := ⟨32, 16, .ro, 0⟩
/-- R587, 15_fabric.md. -/
def FAB_STATUS : Reg :=
  { dies := [5, 6], base := 0x40008, n1 := 1, s1 := 0, n2 := 1, s2 := 0,
    fields := [FAB_STATUS_ID_VALID, FAB_STATUS_SUBPORTS_UP, FAB_STATUS_LOST] }
/-- R587, 15_fabric.md. -/
def FAB_TP_NAKS : Reg :=
  { dies := [5, 6], base := 0x40108, n1 := 1, s1 := 0, n2 := 1, s2 := 0,
    fields := [COUNT] }
/-- R587. -/
def FAB_TP_CFG_RTO_US : Fld := ⟨0, 16, .rw, 0x64⟩
/-- R587. -/
def FAB_TP_CFG_RETRIES : Fld := ⟨16, 4, .rw, 8⟩
/-- R587. -/
def FAB_TP_CFG_WINDOW : Fld := ⟨20, 12, .rw, 0x100⟩
/-- R587, 15_fabric.md. -/
def FAB_TP_CFG : Reg :=
  { dies := [5, 6], base := 0x40010, n1 := 1, s1 := 0, n2 := 1, s2 := 0,
    fields := [FAB_TP_CFG_RTO_US, FAB_TP_CFG_RETRIES, FAB_TP_CFG_WINDOW] }
/-- R587, 15_fabric.md. -/
def FAB_HB_MISSED : Reg :=
  { dies := [5, 6], base := 0x40110, n1 := 1, s1 := 0, n2 := 1, s2 := 0,
    fields := [COUNT] }
/-- R587. -/
def FAB_HB_CFG_PERIOD_US : Fld := ⟨0, 16, .rw, 0x64⟩
/-- R587. -/
def FAB_HB_CFG_MISS : Fld := ⟨16, 4, .rw, 3⟩
/-- R587, 15_fabric.md. -/
def FAB_HB_CFG : Reg :=
  { dies := [5, 6], base := 0x40018, n1 := 1, s1 := 0, n2 := 1, s2 := 0,
    fields := [FAB_HB_CFG_PERIOD_US, FAB_HB_CFG_MISS] }
/-- R587, 15_fabric.md. -/
def FAB_LOSSES : Reg :=
  { dies := [5, 6], base := 0x40118, n1 := 1, s1 := 0, n2 := 1, s2 := 0,
    fields := [COUNT] }
/-- R587. -/
def FAB_IP_CFG_IPV6 : Fld := ⟨0, 1, .rw, 0⟩
/-- R587. -/
def FAB_IP_CFG_HOPLIM : Fld := ⟨8, 8, .rw, 0x40⟩
/-- R587. -/
def FAB_IP_CFG_DSCP : Fld := ⟨16, 6, .rw, 0⟩
/-- R587. -/
def FAB_IP_CFG_ECN_EN : Fld := ⟨24, 1, .rw, 1⟩
/-- R587. -/
def FAB_IP_CFG_UDP_PORT : Fld := ⟨32, 16, .rw, 0x4c54⟩
/-- R587, 15_fabric.md. -/
def FAB_IP_CFG : Reg :=
  { dies := [5, 6], base := 0x40020, n1 := 1, s1 := 0, n2 := 1, s2 := 0,
    fields := [FAB_IP_CFG_IPV6, FAB_IP_CFG_HOPLIM, FAB_IP_CFG_DSCP, FAB_IP_CFG_ECN_EN, FAB_IP_CFG_UDP_PORT] }
/-- R587, 15_fabric.md. -/
def FAB_NOTICES : Reg :=
  { dies := [5, 6], base := 0x40120, n1 := 1, s1 := 0, n2 := 1, s2 := 0,
    fields := [COUNT] }
/-- R587. -/
def FAB_IP_PREFIX_LO_PREFIX : Fld := ⟨0, 64, .rw, 0⟩
/-- R587, 15_fabric.md. -/
def FAB_IP_PREFIX_LO : Reg :=
  { dies := [5, 6], base := 0x40028, n1 := 1, s1 := 0, n2 := 1, s2 := 0,
    fields := [FAB_IP_PREFIX_LO_PREFIX] }
/-- R587, 15_fabric.md. -/
def FAB_NOTICES_LOST : Reg :=
  { dies := [5, 6], base := 0x40128, n1 := 1, s1 := 0, n2 := 1, s2 := 0,
    fields := [COUNT] }
/-- R587. -/
def FAB_IP_PREFIX_HI_PREFIX : Fld := ⟨0, 64, .rw, 0⟩
/-- R587, 15_fabric.md. -/
def FAB_IP_PREFIX_HI : Reg :=
  { dies := [5, 6], base := 0x40030, n1 := 1, s1 := 0, n2 := 1, s2 := 0,
    fields := [FAB_IP_PREFIX_HI_PREFIX] }
/-- R587, 15_fabric.md. -/
def FAB_RLB_HITS : Reg :=
  { dies := [5, 6], base := 0x40130, n1 := 1, s1 := 0, n2 := 1, s2 := 0,
    fields := [COUNT] }
/-- R587. -/
def FAB_FM_RING_EN : Fld := ⟨0, 1, .rw, 0⟩
/-- R587. -/
def FAB_FM_RING_SIZE_LOG2 : Fld := ⟨1, 5, .rw, 4⟩
/-- R587. -/
def FAB_FM_RING_BASE : Fld := ⟨6, 50, .rw, 0⟩
/-- R587, 15_fabric.md. -/
def FAB_FM_RING : Reg :=
  { dies := [5, 6], base := 0x40038, n1 := 1, s1 := 0, n2 := 1, s2 := 0,
    fields := [FAB_FM_RING_EN, FAB_FM_RING_SIZE_LOG2, FAB_FM_RING_BASE] }
/-- R587, 15_fabric.md. -/
def FAB_FENCES : Reg :=
  { dies := [5, 6], base := 0x40138, n1 := 1, s1 := 0, n2 := 1, s2 := 0,
    fields := [COUNT] }
/-- R587. -/
def FAB_WATCH_LOGICAL : Fld := ⟨0, 15, .rw, 0⟩
/-- R587. -/
def FAB_WATCH_VALID : Fld := ⟨15, 1, .rw, 0⟩
/-- R587, 15_fabric.md. -/
def FAB_WATCH : Reg :=
  { dies := [5, 6], base := 0x40080, n1 := 64, s1 := 8, n2 := 1, s2 := 0,
    fields := [FAB_WATCH_LOGICAL, FAB_WATCH_VALID] }
/-- R587, 15_fabric.md. -/
def FAB_HOPS_EXPIRED : Reg :=
  { dies := [5, 6], base := 0x40140, n1 := 1, s1 := 0, n2 := 1, s2 := 0,
    fields := [COUNT] }
/-- R587. -/
def FAB_LOST_LOST : Fld := ⟨0, 64, .ro, 0⟩
/-- R587, 15_fabric.md. -/
def FAB_LOST : Reg :=
  { dies := [5, 6], base := 0x42000, n1 := 512, s1 := 8, n2 := 1, s2 := 0,
    fields := [FAB_LOST_LOST] }
/-- R587, 15_fabric.md. -/
def FAB_MISDIRECTED : Reg :=
  { dies := [5, 6], base := 0x40148, n1 := 1, s1 := 0, n2 := 1, s2 := 0,
    fields := [COUNT] }
/-- R587. -/
def FAB_REMAP_PHYS : Fld := ⟨0, 15, .rw, 0⟩
/-- R587. -/
def FAB_REMAP_VALID : Fld := ⟨15, 1, .rw, 0⟩
/-- R587, 15_fabric.md. -/
def FAB_REMAP : Reg :=
  { dies := [5, 6], base := 0x100000, n1 := 32768, s1 := 8, n2 := 1, s2 := 0,
    fields := [FAB_REMAP_PHYS, FAB_REMAP_VALID] }
/-- R587, 15_fabric.md. -/
def FAB_RX_DISCARDS : Reg :=
  { dies := [5, 6], base := 0x40150, n1 := 1, s1 := 0, n2 := 1, s2 := 0,
    fields := [COUNT] }
/-- R587. -/
def FAB_ROUTE_MASK : Fld := ⟨0, 64, .rw, 0⟩
/-- R587, 15_fabric.md. -/
def FAB_ROUTE : Reg :=
  { dies := [5, 6], base := 0x200000, n1 := 32768, s1 := 8, n2 := 1, s2 := 0,
    fields := [FAB_ROUTE_MASK] }
/-- R587. -/
def COLL_CTL_ASSIST_EN : Fld := ⟨0, 1, .rw, 1⟩
/-- R587, 15_fabric.md. -/
def COLL_CTL : Reg :=
  { dies := [5, 6], base := 0x50000, n1 := 1, s1 := 0, n2 := 1, s2 := 0,
    fields := [COLL_CTL_ASSIST_EN] }
/-- R587, 15_fabric.md. -/
def COLL_DONE : Reg :=
  { dies := [5, 6], base := 0x50100, n1 := 1, s1 := 0, n2 := 1, s2 := 0,
    fields := [COUNT] }
/-- R587. -/
def COLL_STATUS_POSTED : Fld := ⟨0, 7, .ro, 0⟩
/-- R587. -/
def COLL_STATUS_RECORDED : Fld := ⟨8, 5, .ro, 0⟩
/-- R587, 15_fabric.md. -/
def COLL_STATUS : Reg :=
  { dies := [5, 6], base := 0x50008, n1 := 1, s1 := 0, n2 := 1, s2 := 0,
    fields := [COLL_STATUS_POSTED, COLL_STATUS_RECORDED] }
/-- R587, 15_fabric.md. -/
def COLL_ABORTED : Reg :=
  { dies := [5, 6], base := 0x50108, n1 := 1, s1 := 0, n2 := 1, s2 := 0,
    fields := [COUNT] }
/-- R587. -/
def COLL_ASSIST_IMAGE_BASE : Fld := ⟨12, 44, .ro, 0⟩
/-- R587, 15_fabric.md. -/
def COLL_ASSIST_IMAGE : Reg :=
  { dies := [5, 6], base := 0x50010, n1 := 1, s1 := 0, n2 := 1, s2 := 0,
    fields := [COLL_ASSIST_IMAGE_BASE] }
/-- R587, 15_fabric.md. -/
def COLL_TX_BYTES : Reg :=
  { dies := [5, 6], base := 0x50110, n1 := 1, s1 := 0, n2 := 1, s2 := 0,
    fields := [COUNT] }
/-- R587, 15_fabric.md. -/
def COLL_ASSIST_ITEMS : Reg :=
  { dies := [5, 6], base := 0x50120, n1 := 1, s1 := 0, n2 := 1, s2 := 0,
    fields := [COUNT] }
/-- R587, 15_fabric.md. -/
def COLL_RX_BYTES : Reg :=
  { dies := [5, 6], base := 0x50118, n1 := 1, s1 := 0, n2 := 1, s2 := 0,
    fields := [COUNT] }
/-- R587, 15_fabric.md. -/
def COLL_ASSIST_LATE : Reg :=
  { dies := [5, 6], base := 0x50128, n1 := 1, s1 := 0, n2 := 1, s2 := 0,
    fields := [COUNT] }
/-- R587, 15_fabric.md. -/
def COLL_DENSE : Reg :=
  { dies := [5, 6], base := 0x50130, n1 := 1, s1 := 0, n2 := 1, s2 := 0,
    fields := [COUNT] }
/-- R587. -/
def FAB_PORT_CFG_MODE : Fld := ⟨0, 2, .rw, 0⟩
/-- R587. -/
def FAB_PORT_CFG_SPLIT : Fld := ⟨2, 2, .rw, 0⟩
/-- R587. -/
def FAB_PORT_CFG_DATELINE : Fld := ⟨4, 1, .rw, 0⟩
/-- R587. -/
def FAB_PORT_CFG_VLAN_EN : Fld := ⟨5, 1, .rw, 0⟩
/-- R587. -/
def FAB_PORT_CFG_PCP : Fld := ⟨6, 3, .rw, 0⟩
/-- R587. -/
def FAB_PORT_CFG_VID : Fld := ⟨16, 12, .rw, 0⟩
/-- R587, 15_fabric.md. -/
def FAB_PORT_CFG : Reg :=
  { dies := [5, 6], base := 0x41000, n1 := 16, s1 := 0x100, n2 := 1, s2 := 0,
    fields := [FAB_PORT_CFG_MODE, FAB_PORT_CFG_SPLIT, FAB_PORT_CFG_DATELINE, FAB_PORT_CFG_VLAN_EN, FAB_PORT_CFG_PCP, FAB_PORT_CFG_VID] }
/-- R587, 15_fabric.md. -/
def FAB_PORT_TX_BYTES : Reg :=
  { dies := [5, 6], base := 0x41040, n1 := 16, s1 := 0x100, n2 := 1, s2 := 0,
    fields := [COUNT] }
/-- R587. -/
def FAB_PORT_STATUS_UP : Fld := ⟨0, 4, .ro, 0⟩
/-- R587. -/
def FAB_PORT_STATUS_DEGRADED : Fld := ⟨4, 1, .ro, 0⟩
/-- R587. -/
def FAB_PORT_STATUS_SPARE : Fld := ⟨5, 1, .ro, 0⟩
/-- R587. -/
def FAB_PORT_STATUS_LANES_OK : Fld := ⟨8, 8, .ro, 0⟩
/-- R587. -/
def FAB_PORT_STATUS_RETRAINS : Fld := ⟨16, 16, .ro, 0⟩
/-- R587, 15_fabric.md. -/
def FAB_PORT_STATUS : Reg :=
  { dies := [5, 6], base := 0x41008, n1 := 16, s1 := 0x100, n2 := 1, s2 := 0,
    fields := [FAB_PORT_STATUS_UP, FAB_PORT_STATUS_DEGRADED, FAB_PORT_STATUS_SPARE, FAB_PORT_STATUS_LANES_OK, FAB_PORT_STATUS_RETRAINS] }
/-- R587, 15_fabric.md. -/
def FAB_PORT_RX_BYTES : Reg :=
  { dies := [5, 6], base := 0x41048, n1 := 16, s1 := 0x100, n2 := 1, s2 := 0,
    fields := [COUNT] }
/-- R587. -/
def FAB_PORT_PEER_PHYS0 : Fld := ⟨0, 15, .ro, 0⟩
/-- R587. -/
def FAB_PORT_PEER_VALID0 : Fld := ⟨15, 1, .ro, 0⟩
/-- R587. -/
def FAB_PORT_PEER_PHYS1 : Fld := ⟨16, 15, .ro, 0⟩
/-- R587. -/
def FAB_PORT_PEER_VALID1 : Fld := ⟨31, 1, .ro, 0⟩
/-- R587. -/
def FAB_PORT_PEER_PHYS2 : Fld := ⟨32, 15, .ro, 0⟩
/-- R587. -/
def FAB_PORT_PEER_VALID2 : Fld := ⟨47, 1, .ro, 0⟩
/-- R587. -/
def FAB_PORT_PEER_PHYS3 : Fld := ⟨48, 15, .ro, 0⟩
/-- R587. -/
def FAB_PORT_PEER_VALID3 : Fld := ⟨63, 1, .ro, 0⟩
/-- R587, 15_fabric.md. -/
def FAB_PORT_PEER : Reg :=
  { dies := [5, 6], base := 0x41010, n1 := 16, s1 := 0x100, n2 := 1, s2 := 0,
    fields := [FAB_PORT_PEER_PHYS0, FAB_PORT_PEER_VALID0, FAB_PORT_PEER_PHYS1, FAB_PORT_PEER_VALID1, FAB_PORT_PEER_PHYS2, FAB_PORT_PEER_VALID2, FAB_PORT_PEER_PHYS3, FAB_PORT_PEER_VALID3] }
/-- R587, 15_fabric.md. -/
def FAB_PORT_REPLAYS : Reg :=
  { dies := [5, 6], base := 0x41050, n1 := 16, s1 := 0x100, n2 := 1, s2 := 0,
    fields := [COUNT] }
/-- R587. -/
def FAB_PORT_LANES_PHYS_LANE0 : Fld := ⟨0, 8, .ro, 0⟩
/-- R587. -/
def FAB_PORT_LANES_PHYS_LANE1 : Fld := ⟨8, 8, .ro, 0⟩
/-- R587. -/
def FAB_PORT_LANES_PHYS_LANE2 : Fld := ⟨16, 8, .ro, 0⟩
/-- R587. -/
def FAB_PORT_LANES_PHYS_LANE3 : Fld := ⟨24, 8, .ro, 0⟩
/-- R587. -/
def FAB_PORT_LANES_PHYS_LANE4 : Fld := ⟨32, 8, .ro, 0⟩
/-- R587. -/
def FAB_PORT_LANES_PHYS_LANE5 : Fld := ⟨40, 8, .ro, 0⟩
/-- R587. -/
def FAB_PORT_LANES_PHYS_LANE6 : Fld := ⟨48, 8, .ro, 0⟩
/-- R587. -/
def FAB_PORT_LANES_PHYS_LANE7 : Fld := ⟨56, 8, .ro, 0⟩
/-- R587, 15_fabric.md. -/
def FAB_PORT_LANES : Reg :=
  { dies := [5, 6], base := 0x41018, n1 := 16, s1 := 0x100, n2 := 1, s2 := 0,
    fields := [FAB_PORT_LANES_PHYS_LANE0, FAB_PORT_LANES_PHYS_LANE1, FAB_PORT_LANES_PHYS_LANE2, FAB_PORT_LANES_PHYS_LANE3, FAB_PORT_LANES_PHYS_LANE4, FAB_PORT_LANES_PHYS_LANE5, FAB_PORT_LANES_PHYS_LANE6, FAB_PORT_LANES_PHYS_LANE7] }
/-- R587, 15_fabric.md. -/
def FAB_PORT_CRC_ERRS : Reg :=
  { dies := [5, 6], base := 0x41058, n1 := 16, s1 := 0x100, n2 := 1, s2 := 0,
    fields := [COUNT] }
/-- R587. -/
def FAB_PORT_MAC_MAC : Fld := ⟨0, 48, .rw, 0⟩
/-- R587, 15_fabric.md. -/
def FAB_PORT_MAC : Reg :=
  { dies := [5, 6], base := 0x41020, n1 := 16, s1 := 0x100, n2 := 1, s2 := 0,
    fields := [FAB_PORT_MAC_MAC] }
/-- R587, 15_fabric.md. -/
def FAB_PORT_FEC_CORR : Reg :=
  { dies := [5, 6], base := 0x41060, n1 := 16, s1 := 0x100, n2 := 1, s2 := 0,
    fields := [COUNT] }
/-- R587. -/
def FAB_PORT_GW_MAC : Fld := ⟨0, 48, .rw, 0⟩
/-- R587, 15_fabric.md. -/
def FAB_PORT_GW : Reg :=
  { dies := [5, 6], base := 0x41028, n1 := 16, s1 := 0x100, n2 := 1, s2 := 0,
    fields := [FAB_PORT_GW_MAC] }
/-- R587, 15_fabric.md. -/
def FAB_PORT_FEC_UNCORR : Reg :=
  { dies := [5, 6], base := 0x41068, n1 := 16, s1 := 0x100, n2 := 1, s2 := 0,
    fields := [COUNT] }
/-- R587, 15_fabric.md. -/
def FAB_PORT_DOWNS : Reg :=
  { dies := [5, 6], base := 0x41070, n1 := 16, s1 := 0x100, n2 := 1, s2 := 0,
    fields := [COUNT] }
/-- R602. -/
def ARB_CFG_WINDOW : Fld := ⟨0, 16, .rw, 0x400⟩
/-- R602. -/
def ARB_CFG_QUOTA0 : Fld := ⟨16, 16, .rw, 0x100⟩
/-- R602. -/
def ARB_CFG_QUOTA1 : Fld := ⟨32, 16, .rw, 0x200⟩
/-- R602. -/
def ARB_CFG_CONSERVE : Fld := ⟨48, 1, .rw, 1⟩
/-- R602, 16_arbitration.md. -/
def ARB_CFG : Reg :=
  { dies := allDies, base := 0xc00000, n1 := 213, s1 := 0x1000, n2 := 1, s2 := 0,
    fields := [ARB_CFG_WINDOW, ARB_CFG_QUOTA0, ARB_CFG_QUOTA1, ARB_CFG_CONSERVE], has := fun d i _ => 0 < arbRequesters d i }
/-- R602. -/
def ARB_CLASS_CLASS : Fld := ⟨0, 2, .rw, 0⟩
/-- R602, 16_arbitration.md. -/
def ARB_CLASS : Reg :=
  { dies := allDies, base := 0xc00100, n1 := 213, s1 := 0x1000, n2 := 32, s2 := 8,
    fields := [ARB_CLASS_CLASS], has := fun d i r => r < arbRequesters d i, init := fun d i r => arbResetClass d i r }
/-- R602. -/
def ARB_CTL_AGE : Fld := ⟨0, 12, .rw, 0x40⟩
/-- R602. -/
def ARB_CTL_HINT_EN : Fld := ⟨16, 1, .rw, 1⟩
/-- R602. -/
def ARB_CTL_MAX_CLR : Fld := ⟨17, 1, .rw1s, 0⟩
/-- R602, 16_arbitration.md. -/
def ARB_CTL : Reg :=
  { dies := allDies, base := 0xc00008, n1 := 213, s1 := 0x1000, n2 := 1, s2 := 0,
    fields := [ARB_CTL_AGE, ARB_CTL_HINT_EN, ARB_CTL_MAX_CLR], has := fun d i _ => 0 < arbRequesters d i }
/-- R602, 16_arbitration.md. -/
def ARB_GRANTS : Reg :=
  { dies := allDies, base := 0xc00200, n1 := 213, s1 := 0x1000, n2 := 32, s2 := 8,
    fields := [COUNT], has := fun d i r => r < arbRequesters d i }
/-- R602. -/
def ARB_STATUS_REQUESTERS : Fld := ⟨0, 6, .ro, 0⟩
/-- R602. -/
def ARB_STATUS_ELIGIBLE : Fld := ⟨8, 6, .ro, 0⟩
/-- R602. -/
def ARB_STATUS_MASKED : Fld := ⟨16, 6, .ro, 0⟩
/-- R602. -/
def ARB_STATUS_WINDOW_POS : Fld := ⟨32, 16, .ro, 0⟩
/-- R602, 16_arbitration.md. -/
def ARB_STATUS : Reg :=
  { dies := allDies, base := 0xc00010, n1 := 213, s1 := 0x1000, n2 := 1, s2 := 0,
    fields := [ARB_STATUS_REQUESTERS, ARB_STATUS_ELIGIBLE, ARB_STATUS_MASKED, ARB_STATUS_WINDOW_POS], has := fun d i _ => 0 < arbRequesters d i, init := fun d i _ => arbRequesters d i }
/-- R602, 16_arbitration.md. -/
def ARB_WAIT : Reg :=
  { dies := allDies, base := 0xc00400, n1 := 213, s1 := 0x1000, n2 := 32, s2 := 8,
    fields := [COUNT], has := fun d i r => r < arbRequesters d i }
/-- R602, 16_arbitration.md. -/
def ARB_AGED : Reg :=
  { dies := allDies, base := 0xc00018, n1 := 213, s1 := 0x1000, n2 := 1, s2 := 0,
    fields := [COUNT], has := fun d i _ => 0 < arbRequesters d i }
/-- R602, 16_arbitration.md. -/
def ARB_MAXWAIT : Reg :=
  { dies := allDies, base := 0xc00600, n1 := 213, s1 := 0x1000, n2 := 32, s2 := 8,
    fields := [COUNT], has := fun d i r => r < arbRequesters d i }
/-- R634. -/
def SPARE_CTL_AUTO : Fld := ⟨0, 6, .rw, 0x3f⟩
/-- R634. -/
def SPARE_CTL_HBM_MARGIN : Fld := ⟨8, 8, .rw, 0x14⟩
/-- R634. -/
def SPARE_CTL_LANE_MARGIN : Fld := ⟨16, 8, .rw, 0x19⟩
/-- R634. -/
def SPARE_CTL_LOGIC_MARGIN : Fld := ⟨24, 8, .rw, 0xa⟩
/-- R634, 17_reliability.md. -/
def SPARE_CTL : Reg :=
  { dies := [4], base := 0x3e00, n1 := 1, s1 := 0, n2 := 1, s2 := 0,
    fields := [SPARE_CTL_AUTO, SPARE_CTL_HBM_MARGIN, SPARE_CTL_LANE_MARGIN, SPARE_CTL_LOGIC_MARGIN] }
/-- R634. -/
def SPARE_EVQ_BASE_BASE : Fld := ⟨6, 50, .rw, 0⟩
/-- R634, 17_reliability.md. -/
def SPARE_EVQ_BASE : Reg :=
  { dies := [4], base := 0x3f00, n1 := 1, s1 := 0, n2 := 1, s2 := 0,
    fields := [SPARE_EVQ_BASE_BASE] }
/-- R634. -/
def SPARE_SEL_KIND : Fld := ⟨0, 3, .rw, 0⟩
/-- R634. -/
def SPARE_SEL_DIE : Fld := ⟨4, 3, .rw, 0⟩
/-- R634. -/
def SPARE_SEL_INDEX : Fld := ⟨8, 16, .rw, 0⟩
/-- R634, 17_reliability.md. -/
def SPARE_SEL : Reg :=
  { dies := [4], base := 0x3e08, n1 := 1, s1 := 0, n2 := 1, s2 := 0,
    fields := [SPARE_SEL_KIND, SPARE_SEL_DIE, SPARE_SEL_INDEX] }
/-- R634. -/
def SPARE_EVQ_CFG_EN : Fld := ⟨0, 1, .rw, 0⟩
/-- R634. -/
def SPARE_EVQ_CFG_SIZE_LOG2 : Fld := ⟨8, 5, .rw, 4⟩
/-- R634, 17_reliability.md. -/
def SPARE_EVQ_CFG : Reg :=
  { dies := [4], base := 0x3f08, n1 := 1, s1 := 0, n2 := 1, s2 := 0,
    fields := [SPARE_EVQ_CFG_EN, SPARE_EVQ_CFG_SIZE_LOG2] }
/-- R634. -/
def SPARE_UNIT_STATE : Fld := ⟨0, 3, .ro, 0⟩
/-- R634. -/
def SPARE_UNIT_DUE : Fld := ⟨3, 1, .ro, 0⟩
/-- R634. -/
def SPARE_UNIT_DEFERRED : Fld := ⟨4, 1, .ro, 0⟩
/-- R634. -/
def SPARE_UNIT_NONE : Fld := ⟨5, 1, .ro, 0⟩
/-- R634. -/
def SPARE_UNIT_LOGICAL : Fld := ⟨16, 16, .ro, 0xffff⟩
/-- R634, 17_reliability.md. -/
def SPARE_UNIT : Reg :=
  { dies := [4], base := 0x3e10, n1 := 1, s1 := 0, n2 := 1, s2 := 0,
    fields := [SPARE_UNIT_STATE, SPARE_UNIT_DUE, SPARE_UNIT_DEFERRED, SPARE_UNIT_NONE, SPARE_UNIT_LOGICAL] }
/-- R634. -/
def SPARE_EVQ_HEAD_INDEX : Fld := ⟨0, 32, .ro, 0⟩
/-- R634, 17_reliability.md. -/
def SPARE_EVQ_HEAD : Reg :=
  { dies := [4], base := 0x3f10, n1 := 1, s1 := 0, n2 := 1, s2 := 0,
    fields := [SPARE_EVQ_HEAD_INDEX] }
/-- R634. -/
def SPARE_PATINA_PATINA : Fld := ⟨0, 32, .rw, 0⟩
/-- R634, 17_reliability.md. -/
def SPARE_PATINA : Reg :=
  { dies := [4], base := 0x3e18, n1 := 1, s1 := 0, n2 := 1, s2 := 0,
    fields := [SPARE_PATINA_PATINA] }
/-- R634. -/
def SPARE_EVQ_TAIL_INDEX : Fld := ⟨0, 32, .rw, 0⟩
/-- R634, 17_reliability.md. -/
def SPARE_EVQ_TAIL : Reg :=
  { dies := [4], base := 0x3f18, n1 := 1, s1 := 0, n2 := 1, s2 := 0,
    fields := [SPARE_EVQ_TAIL_INDEX] }
/-- R634. -/
def SPARE_DEFER_STATUS_PENDING : Fld := ⟨0, 16, .ro, 0⟩
/-- R634. -/
def SPARE_DEFER_STATUS_DUE : Fld := ⟨16, 16, .ro, 0⟩
/-- R634, 17_reliability.md. -/
def SPARE_DEFER_STATUS : Reg :=
  { dies := [4], base := 0x3e20, n1 := 1, s1 := 0, n2 := 1, s2 := 0,
    fields := [SPARE_DEFER_STATUS_PENDING, SPARE_DEFER_STATUS_DUE] }
/-- R634, 17_reliability.md. -/
def SPARE_EVQ_LOST : Reg :=
  { dies := [4], base := 0x3f20, n1 := 1, s1 := 0, n2 := 1, s2 := 0,
    fields := [COUNT] }
/-- R634. -/
def SPARE_THRESH_WARN : Fld := ⟨0, 32, .rw, 0x400⟩
/-- R634. -/
def SPARE_THRESH_RETIRE : Fld := ⟨32, 32, .rw, 0x1000⟩
/-- R634, 17_reliability.md. -/
def SPARE_THRESH : Reg :=
  { dies := [4], base := 0x3e40, n1 := 8, s1 := 8, n2 := 1, s2 := 0,
    fields := [SPARE_THRESH_WARN, SPARE_THRESH_RETIRE] }
/-- R634, 17_reliability.md. -/
def SPARE_SWAPS : Reg :=
  { dies := [4], base := 0x3f80, n1 := 1, s1 := 0, n2 := 1, s2 := 0,
    fields := [COUNT] }
/-- R634. -/
def SPARE_POOL_FREE : Fld := ⟨0, 8, .ro, 0⟩
/-- R634. -/
def SPARE_POOL_PROBATION : Fld := ⟨8, 8, .ro, 0⟩
/-- R634. -/
def SPARE_POOL_RETIRED : Fld := ⟨16, 8, .ro, 0⟩
/-- R634. -/
def SPARE_POOL_UNBACKED : Fld := ⟨24, 8, .ro, 0⟩
/-- R634. -/
def SPARE_POOL_CACHE_REPAIR : Fld := ⟨32, 4, .ro, 0⟩
/-- R634. -/
def SPARE_POOL_DIR_REPAIR : Fld := ⟨36, 4, .ro, 0⟩
/-- R634, 17_reliability.md. -/
def SPARE_POOL : Reg :=
  { dies := [4], base := 0x3e80, n1 := 7, s1 := 8, n2 := 1, s2 := 0,
    fields := [SPARE_POOL_FREE, SPARE_POOL_PROBATION, SPARE_POOL_RETIRED, SPARE_POOL_UNBACKED, SPARE_POOL_CACHE_REPAIR, SPARE_POOL_DIR_REPAIR] }
/-- R634, 17_reliability.md. -/
def SPARE_RETIREMENTS : Reg :=
  { dies := [4], base := 0x3f88, n1 := 1, s1 := 0, n2 := 1, s2 := 0,
    fields := [COUNT] }
/-- R634, 17_reliability.md. -/
def SPARE_PROBATIONS : Reg :=
  { dies := [4], base := 0x3f90, n1 := 1, s1 := 0, n2 := 1, s2 := 0,
    fields := [COUNT] }
/-- R634, 17_reliability.md. -/
def SPARE_PROBATION_FAILS : Reg :=
  { dies := [4], base := 0x3f98, n1 := 1, s1 := 0, n2 := 1, s2 := 0,
    fields := [COUNT] }
/-- R634, 17_reliability.md. -/
def SPARE_DEFERRALS : Reg :=
  { dies := [4], base := 0x3fa0, n1 := 1, s1 := 0, n2 := 1, s2 := 0,
    fields := [COUNT] }
/-- R666. -/
def BOOT_STATUS_PHASE : Fld := ⟨0, 3, .ro, 0⟩
/-- R666. -/
def BOOT_STATUS_HELD : Fld := ⟨3, 1, .ro, 0⟩
/-- R666. -/
def BOOT_STATUS_DEBUG : Fld := ⟨4, 1, .ro, 0⟩
/-- R666, 18_boot_and_security.md. -/
def BOOT_STATUS : Reg :=
  { dies := [4], base := 0x200, n1 := 1, s1 := 0, n2 := 1, s2 := 0,
    fields := [BOOT_STATUS_PHASE, BOOT_STATUS_HELD, BOOT_STATUS_DEBUG] }
/-- R666. -/
def MGMT_LEASE_GRANT_MS : Fld := ⟨0, 20, .wo, 0⟩
/-- R666. -/
def MGMT_LEASE_REMAIN_MS : Fld := ⟨32, 32, .ro, 0⟩
/-- R666, 18_boot_and_security.md. -/
def MGMT_LEASE : Reg :=
  { dies := [4], base := 0x438, n1 := 1, s1 := 0, n2 := 1, s2 := 0,
    fields := [MGMT_LEASE_GRANT_MS, MGMT_LEASE_REMAIN_MS] }
/-- R666. -/
def BOOT_HOLD_REASON : Fld := ⟨0, 8, .ro, 0⟩
/-- R666. -/
def BOOT_HOLD_DETAIL : Fld := ⟨16, 16, .ro, 0⟩
/-- R666, 18_boot_and_security.md. -/
def BOOT_HOLD : Reg :=
  { dies := [4], base := 0x208, n1 := 1, s1 := 0, n2 := 1, s2 := 0,
    fields := [BOOT_HOLD_REASON, BOOT_HOLD_DETAIL] }
/-- R666. -/
def MGMT_LEASE_CFG_LOW_PCT : Fld := ⟨0, 7, .rw, 0x19⟩
/-- R666. -/
def MGMT_LEASE_CFG_KEY_SET : Fld := ⟨8, 1, .ro, 0⟩
/-- R666. -/
def MGMT_LEASE_CFG_REFUSED : Fld := ⟨32, 32, .ro, 0⟩
/-- R666, 18_boot_and_security.md. -/
def MGMT_LEASE_CFG : Reg :=
  { dies := [4], base := 0x440, n1 := 1, s1 := 0, n2 := 1, s2 := 0,
    fields := [MGMT_LEASE_CFG_LOW_PCT, MGMT_LEASE_CFG_KEY_SET, MGMT_LEASE_CFG_REFUSED] }
/-- R666. -/
def BOOT_FABRIC_SRC_VALUE : Fld := ⟨0, 56, .rw, 0⟩
/-- R666, 18_boot_and_security.md. -/
def BOOT_FABRIC_SRC : Reg :=
  { dies := [4], base := 0x210, n1 := 1, s1 := 0, n2 := 1, s2 := 0,
    fields := [BOOT_FABRIC_SRC_VALUE] }
/-- R666. -/
def MGMT_ETH_CFG_EN : Fld := ⟨0, 1, .rw, 0⟩
/-- R666. -/
def MGMT_ETH_CFG_IPV6 : Fld := ⟨1, 1, .rw, 0⟩
/-- R666. -/
def MGMT_ETH_CFG_LEASE_PORT : Fld := ⟨16, 16, .rw, 0x4c53⟩
/-- R666, 18_boot_and_security.md. -/
def MGMT_ETH_CFG : Reg :=
  { dies := [4], base := 0x448, n1 := 1, s1 := 0, n2 := 1, s2 := 0,
    fields := [MGMT_ETH_CFG_EN, MGMT_ETH_CFG_IPV6, MGMT_ETH_CFG_LEASE_PORT] }
/-- R666. -/
def BOOT_FABRIC_LEN_VALUE : Fld := ⟨0, 56, .rw, 0⟩
/-- R666, 18_boot_and_security.md. -/
def BOOT_FABRIC_LEN : Reg :=
  { dies := [4], base := 0x218, n1 := 1, s1 := 0, n2 := 1, s2 := 0,
    fields := [BOOT_FABRIC_LEN_VALUE] }
/-- R666. -/
def MGMT_ETH_MAC_MAC : Fld := ⟨0, 48, .rw, 0⟩
/-- R666, 18_boot_and_security.md. -/
def MGMT_ETH_MAC : Reg :=
  { dies := [4], base := 0x450, n1 := 1, s1 := 0, n2 := 1, s2 := 0,
    fields := [MGMT_ETH_MAC_MAC] }
/-- R666. -/
def BOOT_HOST_WDOG_TIMEOUT_MS : Fld := ⟨0, 16, .rw, 0x3e8⟩
/-- R666. -/
def BOOT_HOST_WDOG_KICK : Fld := ⟨16, 1, .wo, 0⟩
/-- R666. -/
def BOOT_HOST_WDOG_EXPIRED : Fld := ⟨17, 1, .ro, 0⟩
/-- R666, 18_boot_and_security.md. -/
def BOOT_HOST_WDOG : Reg :=
  { dies := [4], base := 0x220, n1 := 1, s1 := 0, n2 := 1, s2 := 0,
    fields := [BOOT_HOST_WDOG_TIMEOUT_MS, BOOT_HOST_WDOG_KICK, BOOT_HOST_WDOG_EXPIRED] }
/-- R666. -/
def MGMT_ETH_IP_LO_IP : Fld := ⟨0, 64, .rw, 0⟩
/-- R666, 18_boot_and_security.md. -/
def MGMT_ETH_IP_LO : Reg :=
  { dies := [4], base := 0x458, n1 := 1, s1 := 0, n2 := 1, s2 := 0,
    fields := [MGMT_ETH_IP_LO_IP] }
/-- R666. -/
def MGMT_ETH_IP_HI_IP : Fld := ⟨0, 64, .rw, 0⟩
/-- R666, 18_boot_and_security.md. -/
def MGMT_ETH_IP_HI : Reg :=
  { dies := [4], base := 0x460, n1 := 1, s1 := 0, n2 := 1, s2 := 0,
    fields := [MGMT_ETH_IP_HI_IP] }
/-- R666. -/
def BOOT_INFO_VALUE : Fld := ⟨0, 56, .ro, 0⟩
/-- R666, 18_boot_and_security.md. -/
def BOOT_INFO : Reg :=
  { dies := [4], base := 0x228, n1 := 1, s1 := 0, n2 := 1, s2 := 0,
    fields := [BOOT_INFO_VALUE] }
/-- R666. -/
def MGMT_MB_PKT_PKT : Fld := ⟨0, 64, .rw, 0⟩
/-- R666, 18_boot_and_security.md. -/
def MGMT_MB_PKT : Reg :=
  { dies := [4], base := 0x480, n1 := 8, s1 := 8, n2 := 1, s2 := 0,
    fields := [MGMT_MB_PKT_PKT] }
/-- R666. -/
def MGMT_CMD_CODE : Fld := ⟨0, 8, .wo, 0⟩
/-- R666. -/
def MGMT_CMD_ARG : Fld := ⟨8, 56, .wo, 0⟩
/-- R666, 18_boot_and_security.md. -/
def MGMT_CMD : Reg :=
  { dies := [4], base := 0x400, n1 := 1, s1 := 0, n2 := 1, s2 := 0,
    fields := [MGMT_CMD_CODE, MGMT_CMD_ARG] }
/-- R666. -/
def MGMT_MB_CTL_GO : Fld := ⟨0, 1, .rw1s, 0⟩
/-- R666, 18_boot_and_security.md. -/
def MGMT_MB_CTL : Reg :=
  { dies := [4], base := 0x4c0, n1 := 1, s1 := 0, n2 := 1, s2 := 0,
    fields := [MGMT_MB_CTL_GO] }
/-- R666. -/
def MGMT_CMD_STATUS_BUSY : Fld := ⟨0, 1, .ro, 0⟩
/-- R666. -/
def MGMT_CMD_STATUS_ERR : Fld := ⟨4, 4, .ro, 0⟩
/-- R666. -/
def MGMT_CMD_STATUS_BUS_ERR : Fld := ⟨8, 1, .w1c, 0⟩
/-- R666. -/
def MGMT_CMD_STATUS_DW_ERR : Fld := ⟨9, 1, .w1c, 0⟩
/-- R666, 18_boot_and_security.md. -/
def MGMT_CMD_STATUS : Reg :=
  { dies := [4], base := 0x408, n1 := 1, s1 := 0, n2 := 1, s2 := 0,
    fields := [MGMT_CMD_STATUS_BUSY, MGMT_CMD_STATUS_ERR, MGMT_CMD_STATUS_BUS_ERR, MGMT_CMD_STATUS_DW_ERR] }
/-- R666. -/
def MGMT_MB_CPL_LO_REC : Fld := ⟨0, 64, .ro, 0⟩
/-- R666, 18_boot_and_security.md. -/
def MGMT_MB_CPL_LO : Reg :=
  { dies := [4], base := 0x4c8, n1 := 1, s1 := 0, n2 := 1, s2 := 0,
    fields := [MGMT_MB_CPL_LO_REC] }
/-- R666. -/
def MGMT_MB_CPL_HI_REC : Fld := ⟨0, 64, .ro, 0⟩
/-- R666, 18_boot_and_security.md. -/
def MGMT_MB_CPL_HI : Reg :=
  { dies := [4], base := 0x4d0, n1 := 1, s1 := 0, n2 := 1, s2 := 0,
    fields := [MGMT_MB_CPL_HI_REC] }
/-- R666. -/
def MGMT_DW_ADDR_OFFSET : Fld := ⟨0, 26, .rw, 0⟩
/-- R666. -/
def MGMT_DW_ADDR_TARGET : Fld := ⟨60, 4, .rw, 0⟩
/-- R666, 18_boot_and_security.md. -/
def MGMT_DW_ADDR : Reg :=
  { dies := [4], base := 0x410, n1 := 1, s1 := 0, n2 := 1, s2 := 0,
    fields := [MGMT_DW_ADDR_OFFSET, MGMT_DW_ADDR_TARGET] }
/-- R666. -/
def SEC_STATUS_IDENTITY : Fld := ⟨0, 1, .ro, 0⟩
/-- R666. -/
def SEC_STATUS_ENROLLED : Fld := ⟨1, 1, .ro, 0⟩
/-- R666. -/
def SEC_STATUS_DEBUG_SEEN : Fld := ⟨2, 1, .ro, 0⟩
/-- R666. -/
def SEC_STATUS_REPORT : Fld := ⟨3, 1, .ro, 0⟩
/-- R666, 18_boot_and_security.md. -/
def SEC_STATUS : Reg :=
  { dies := [4], base := 0x600, n1 := 1, s1 := 0, n2 := 1, s2 := 0,
    fields := [SEC_STATUS_IDENTITY, SEC_STATUS_ENROLLED, SEC_STATUS_DEBUG_SEEN, SEC_STATUS_REPORT] }
/-- R666. -/
def MGMT_DW_DATA_DATA : Fld := ⟨0, 64, .rw, 0⟩
/-- R666, 18_boot_and_security.md. -/
def MGMT_DW_DATA : Reg :=
  { dies := [4], base := 0x418, n1 := 1, s1 := 0, n2 := 1, s2 := 0,
    fields := [MGMT_DW_DATA_DATA] }
/-- R666. -/
def SEC_ATT_CTL_GO : Fld := ⟨0, 1, .rw1s, 0⟩
/-- R666, 18_boot_and_security.md. -/
def SEC_ATT_CTL : Reg :=
  { dies := [4], base := 0x608, n1 := 1, s1 := 0, n2 := 1, s2 := 0,
    fields := [SEC_ATT_CTL_GO] }
/-- R666. -/
def MGMT_DW_CRC_CRC : Fld := ⟨0, 32, .ro, 0⟩
/-- R666, 18_boot_and_security.md. -/
def MGMT_DW_CRC : Reg :=
  { dies := [4], base := 0x420, n1 := 1, s1 := 0, n2 := 1, s2 := 0,
    fields := [MGMT_DW_CRC_CRC] }
/-- R666. -/
def SEC_ATT_ADDR_ADDR : Fld := ⟨6, 50, .rw, 0⟩
/-- R666, 18_boot_and_security.md. -/
def SEC_ATT_ADDR : Reg :=
  { dies := [4], base := 0x610, n1 := 1, s1 := 0, n2 := 1, s2 := 0,
    fields := [SEC_ATT_ADDR_ADDR] }
/-- R666. -/
def MGMT_ALERT_CAUSE : Fld := ⟨0, 6, .w1c, 0⟩
/-- R666, 18_boot_and_security.md. -/
def MGMT_ALERT : Reg :=
  { dies := [4], base := 0x428, n1 := 1, s1 := 0, n2 := 1, s2 := 0,
    fields := [MGMT_ALERT_CAUSE] }
/-- R666. -/
def SEC_NONCE_NONCE : Fld := ⟨0, 64, .rw, 0⟩
/-- R666, 18_boot_and_security.md. -/
def SEC_NONCE : Reg :=
  { dies := [4], base := 0x620, n1 := 4, s1 := 8, n2 := 1, s2 := 0,
    fields := [SEC_NONCE_NONCE] }
/-- R666. -/
def MGMT_ALERT_EN_CAUSE : Fld := ⟨0, 6, .rw, 0x3f⟩
/-- R666, 18_boot_and_security.md. -/
def MGMT_ALERT_EN : Reg :=
  { dies := [4], base := 0x430, n1 := 1, s1 := 0, n2 := 1, s2 := 0,
    fields := [MGMT_ALERT_EN_CAUSE] }
/-- R666. -/
def PWR_STATE_STATE : Fld := ⟨0, 2, .ro, 1⟩
/-- R666. -/
def PWR_STATE_LAST_CAUSE : Fld := ⟨8, 8, .ro, 1⟩
/-- R666, 18_boot_and_security.md. -/
def PWR_STATE : Reg :=
  { dies := [4], base := 0x800, n1 := 1, s1 := 0, n2 := 1, s2 := 0,
    fields := [PWR_STATE_STATE, PWR_STATE_LAST_CAUSE] }
/-- R666. -/
def PWR_LEVEL_LEVEL0 : Fld := ⟨0, 2, .ro, 0⟩
/-- R666. -/
def PWR_LEVEL_LEVEL1 : Fld := ⟨4, 2, .ro, 0⟩
/-- R666. -/
def PWR_LEVEL_LEVEL2 : Fld := ⟨8, 2, .ro, 0⟩
/-- R666. -/
def PWR_LEVEL_LEVEL3 : Fld := ⟨12, 2, .ro, 0⟩
/-- R666, 18_boot_and_security.md. -/
def PWR_LEVEL : Reg :=
  { dies := [4], base := 0x808, n1 := 1, s1 := 0, n2 := 1, s2 := 0,
    fields := [PWR_LEVEL_LEVEL0, PWR_LEVEL_LEVEL1, PWR_LEVEL_LEVEL2, PWR_LEVEL_LEVEL3] }
/-- R666. -/
def PWR_THERMAL_THROTTLED : Fld := ⟨0, 7, .ro, 0⟩
/-- R666. -/
def PWR_THERMAL_HOTTEST_C : Fld := ⟨16, 16, .ro, 0⟩
/-- R666, 18_boot_and_security.md. -/
def PWR_THERMAL : Reg :=
  { dies := [4], base := 0x810, n1 := 1, s1 := 0, n2 := 1, s2 := 0,
    fields := [PWR_THERMAL_THROTTLED, PWR_THERMAL_HOTTEST_C] }
/-- R666. -/
def PWR_DUSK_CFG_TIMEOUT_MS : Fld := ⟨0, 16, .rw, 0xa⟩
/-- R666, 18_boot_and_security.md. -/
def PWR_DUSK_CFG : Reg :=
  { dies := [4], base := 0x818, n1 := 1, s1 := 0, n2 := 1, s2 := 0,
    fields := [PWR_DUSK_CFG_TIMEOUT_MS] }
/-- R224. -/
def VEC_CTL_OCC_EN : Fld := ⟨0, 1, .rw, 1⟩
/-- R224, 05_tensor_operations.md. -/
def VEC_CTL : Reg :=
  { dies := tds, base := 0x60100, n1 := 1, s1 := 0, n2 := 1, s2 := 0,
    fields := [VEC_CTL_OCC_EN] }
/-- R224. -/
def MTX_CTL_SKIP_EN : Fld := ⟨0, 1, .rw, 1⟩
/-- R224, 05_tensor_operations.md. -/
def MTX_CTL : Reg :=
  { dies := tds, base := 0x70000, n1 := 1, s1 := 0, n2 := 1, s2 := 0,
    fields := [MTX_CTL_SKIP_EN] }
/-- R224. -/
def SPARSE_CTL_EN_24 : Fld := ⟨0, 1, .rw, 1⟩
/-- R224. -/
def SPARSE_CTL_EN_14 : Fld := ⟨1, 1, .rw, 1⟩
/-- R224, 05_tensor_operations.md. -/
def SPARSE_CTL : Reg :=
  { dies := tds, base := 0x70100, n1 := 1, s1 := 0, n2 := 1, s2 := 0,
    fields := [SPARSE_CTL_EN_24, SPARSE_CTL_EN_14] }
/-- R587. -/
def FAB_ID_LOGICAL : Fld := ⟨0, 15, .rw, 0⟩
/-- R587. -/
def FAB_ID_LVALID : Fld := ⟨15, 1, .rw, 0⟩
/-- R587. -/
def FAB_ID_PHYS : Fld := ⟨16, 15, .rw, 0⟩
/-- R587. -/
def FAB_ID_PVALID : Fld := ⟨31, 1, .rw, 0⟩
/-- R587, 15_fabric.md. -/
def FAB_ID : Reg :=
  { dies := [4], base := 0x3c00, n1 := 1, s1 := 0, n2 := 1, s2 := 0,
    fields := [FAB_ID_LOGICAL, FAB_ID_LVALID, FAB_ID_PHYS, FAB_ID_PVALID] }
/-- R634. -/
def SPARE_SRAM_ROWS_USED : Fld := ⟨0, 16, .ro, 0⟩
/-- R634. -/
def SPARE_SRAM_ROWS_FREE : Fld := ⟨16, 16, .ro, 0⟩
/-- R634. -/
def SPARE_SRAM_COLS_USED : Fld := ⟨32, 16, .ro, 0⟩
/-- R634. -/
def SPARE_SRAM_COLS_FREE : Fld := ⟨48, 16, .ro, 0⟩
/-- R634, 17_reliability.md. -/
def SPARE_SRAM : Reg :=
  { dies := allDies, base := 0xb0000, n1 := 1, s1 := 0, n2 := 1, s2 := 0,
    fields := [SPARE_SRAM_ROWS_USED, SPARE_SRAM_ROWS_FREE, SPARE_SRAM_COLS_USED, SPARE_SRAM_COLS_FREE] }
/-- R634. -/
def SPARE_PPR_REQ_GO : Fld := ⟨0, 1, .rw1s, 0⟩
/-- R634. -/
def SPARE_PPR_REQ_PC : Fld := ⟨8, 8, .rw, 0⟩
/-- R634. -/
def SPARE_PPR_REQ_BANK : Fld := ⟨16, 6, .rw, 0⟩
/-- R634. -/
def SPARE_PPR_REQ_ROW : Fld := ⟨32, 13, .rw, 0⟩
/-- R634, 17_reliability.md. -/
def SPARE_PPR_REQ : Reg :=
  { dies := tds, base := 0xb0010, n1 := 1, s1 := 0, n2 := 1, s2 := 0,
    fields := [SPARE_PPR_REQ_GO, SPARE_PPR_REQ_PC, SPARE_PPR_REQ_BANK, SPARE_PPR_REQ_ROW] }
/-- R634. -/
def SPARE_PPR_STATUS_NO_RESOURCE : Fld := ⟨0, 1, .w1c, 0⟩
/-- R634. -/
def SPARE_PPR_STATUS_REPAIRS : Fld := ⟨16, 16, .ro, 0⟩
/-- R634, 17_reliability.md. -/
def SPARE_PPR_STATUS : Reg :=
  { dies := tds, base := 0xb0018, n1 := 1, s1 := 0, n2 := 1, s2 := 0,
    fields := [SPARE_PPR_STATUS_NO_RESOURCE, SPARE_PPR_STATUS_REPAIRS] }
/-- R666. -/
def BOOT_TD_HB_ALIVE : Fld := ⟨0, 1, .ro, 0⟩
/-- R666. -/
def BOOT_TD_HB_MISSED : Fld := ⟨16, 32, .ro, 0⟩
/-- R666, 18_boot_and_security.md. -/
def BOOT_TD_HB : Reg :=
  { dies := tds, base := 0x280, n1 := 1, s1 := 0, n2 := 1, s2 := 0,
    fields := [BOOT_TD_HB_ALIVE, BOOT_TD_HB_MISSED] }

/-- A block of the CSR window: offsets from `lo` to below `hi`, and the registers in it. -/
structure RegBlock where
  lo : Nat
  hi : Nat
  regs : List Reg

/-- Registers at offsets 0x0 to 0xfff. -/
def block_0 : RegBlock :=
  { lo := 0x0, hi := 0x1000,
    regs := [
      BOOT_CAP_SELF_LO, BOOT_CAP_SELF_HI, BOOT_CAP_EFF_LO, BOOT_CAP_EFF_HI, BOOT_LINKUP_STATUS,
      BOOT_CAP_DIE_LO, BOOT_CAP_DIE_HI, BOOT_STATUS, MGMT_LEASE, BOOT_HOLD, MGMT_LEASE_CFG,
      BOOT_FABRIC_SRC, MGMT_ETH_CFG, BOOT_FABRIC_LEN, MGMT_ETH_MAC, BOOT_HOST_WDOG, MGMT_ETH_IP_LO,
      MGMT_ETH_IP_HI, BOOT_INFO, MGMT_MB_PKT, MGMT_CMD, MGMT_MB_CTL, MGMT_CMD_STATUS, MGMT_MB_CPL_LO,
      MGMT_MB_CPL_HI, MGMT_DW_ADDR, SEC_STATUS, MGMT_DW_DATA, SEC_ATT_CTL, MGMT_DW_CRC, SEC_ATT_ADDR,
      MGMT_ALERT, SEC_NONCE, MGMT_ALERT_EN, PWR_STATE, PWR_LEVEL, PWR_THERMAL, PWR_DUSK_CFG, BOOT_TD_HB] }
/-- Registers at offsets 0x2000 to 0x2fff. -/
def block_2 : RegBlock :=
  { lo := 0x2000, hi := 0x3000,
    regs := [
      MEM_ILV_REQ, MEM_ILV_REQ_TOP, MEM_ILV_CUR, MEM_ILV_CUR_TOP, MEM_ILV_STATUS, MEM_ERRQ_LOST_HD,
      MEM_RETIRE_ADD_HD, MEM_RETIRE_STATUS_HD, MEM_ERRQ_BASE_HD, MEM_ERRQ_CFG_HD, MEM_ERRQ_HEAD_HD,
      MEM_ERRQ_TAIL_HD, MEM_BULK_CFG, MEM_BULK_STATUS, MEM_BULK_TIMEOUTS] }
/-- Registers at offsets 0x3000 to 0x3fff. -/
def block_3 : RegBlock :=
  { lo := 0x3000, hi := 0x4000,
    regs := [
      TIME_NOW, BEAT_ORIGIN, TIME_NOW_FRAC, BEAT_PERIOD, TIME_SET, BEAT_CTL, TIME_STEP, BEAT_PLAN_BASE,
      TIME_RATE, BEAT_PLAN_CFG, TIME_CTL, BEAT_PLAN_START, TIME_STATUS, BEAT_INDEX, TIME_OFFSET,
      BEAT_WALL, TIME_LINK_DELAY, BEAT_STATUS, TIME_PPS_CAPTURE, BEAT_SLIPS, TIME_PPS_CAPTURE_FRAC,
      BEAT_SLACK_USED, BEAT_EARLY_COUNT, BEAT_LATE_COUNT, CMD_FW_PKT, CMD_FW_CPL_LO, CMD_FW_CTL,
      CMD_FW_CPL_HI, CKPT_CTL, CKPT_PROGRESS, CKPT_RELEASE, CKPT_MAQUETTES, CKPT_CFG, CKPT_BYTES,
      CKPT_AREA, CKPT_CUTS_MISSED, CKPT_STATUS, CKPT_STAGED, CKPT_LAST_BEAT, CKPT_WRITE_WAITS,
      CKPT_LAST_NUM, SPARE_CTL, SPARE_EVQ_BASE, SPARE_SEL, SPARE_EVQ_CFG, SPARE_UNIT, SPARE_EVQ_HEAD,
      SPARE_PATINA, SPARE_EVQ_TAIL, SPARE_DEFER_STATUS, SPARE_EVQ_LOST, SPARE_THRESH, SPARE_SWAPS,
      SPARE_POOL, SPARE_RETIREMENTS, SPARE_PROBATIONS, SPARE_PROBATION_FAILS, SPARE_DEFERRALS, FAB_ID] }
/-- Registers at offsets 0x40000 to 0x40fff. -/
def block_40 : RegBlock :=
  { lo := 0x40000, hi := 0x41000,
    regs := [
      CELL_CTL, CELL_STATUS, FAB_CTL, FAB_TP_RETX, FAB_STATUS, FAB_TP_NAKS, FAB_TP_CFG, FAB_HB_MISSED,
      FAB_HB_CFG, FAB_LOSSES, FAB_IP_CFG, FAB_NOTICES, FAB_IP_PREFIX_LO, FAB_NOTICES_LOST,
      FAB_IP_PREFIX_HI, FAB_RLB_HITS, FAB_FM_RING, FAB_FENCES, FAB_WATCH, FAB_HOPS_EXPIRED,
      FAB_MISDIRECTED, FAB_RX_DISCARDS] }
/-- Registers at offsets 0x41000 to 0x41fff. -/
def block_41 : RegBlock :=
  { lo := 0x41000, hi := 0x42000,
    regs := [
      CELL_MAP, CELL_PHYS, FAB_PORT_CFG, FAB_PORT_TX_BYTES, FAB_PORT_STATUS, FAB_PORT_RX_BYTES,
      FAB_PORT_PEER, FAB_PORT_REPLAYS, FAB_PORT_LANES, FAB_PORT_CRC_ERRS, FAB_PORT_MAC, FAB_PORT_FEC_CORR,
      FAB_PORT_GW, FAB_PORT_FEC_UNCORR, FAB_PORT_DOWNS] }
/-- Registers at offsets 0x80000 to 0xaffff. -/
def block_cell : RegBlock :=
  { lo := 0x80000, hi := 0xb0000,
    regs := [
      CELL_ROLE, CELL_BANK_CONFLICTS, CELL_THREADS, CELL_RA_ISSUED, CELL_TRAP, CELL_RA_USED, CELL_TRAP_PC,
      CELL_RA_DISCARDED, CELL_TRAP_BEAT, CELL_RA_STOPPED, CELL_ISSUE_C, CELL_ICACHE_MISSES, CELL_ISSUE_M,
      TILE_WINDOW, CELL_ISSUE_X, TILE_SCOREBOARD_R, CELL_IDLE_CYCLES, TILE_SCOREBOARD_W, MTX_ACC_STATE,
      SPARSE_SLICES_RUN, MTX_BUSY, SPARSE_SLICES_SKIPPED, MTX_INSTR, SPARSE_INSTR_24, VEC_BUSY,
      SPARSE_INSTR_14, VEC_INSTR, MTX_OCC, ROUTE_BLOCKS_RUN, ROUTE_BLOCKS_SKIPPED, STRM_INFLIGHT,
      STRM_GATHER_PASSED, STRM_LOAD_BYTES, STRM_PF_STALE, STRM_STORE_BYTES, STRM_PF_REFETCH,
      STRM_GATHER_ROWS, STRM_COMMIT_HOLDS, STRM_SCATTER_ROWS, STRM_HINTS, STRM_PF] }
/-- Registers at offsets 0x60000 to 0x60fff. -/
def block_60 : RegBlock :=
  { lo := 0x60000, hi := 0x61000,
    regs := [
      VEC_FPCTL_INIT, VEC_NANQ_BASE, VEC_SR_BASE, VEC_NANQ_CFG, VEC_CENSUS_BASE, VEC_NANQ_HEAD,
      VEC_CENSUS_CFG, VEC_NANQ_TAIL, VEC_CENSUS_STATUS, VEC_NANQ_LOST, VEC_CENSUS_LAST, VEC_CTL] }
/-- Registers at offsets 0x72000 to 0x72fff. -/
def block_72 : RegBlock :=
  { lo := 0x72000, hi := 0x73000,
    regs := [
      ROUTE_CTL, ROUTE_NONFINITE, ROUTE_SPEC_CFG, ROUTE_PRED_HIT, ROUTE_TBL, ROUTE_PRED_WASTE,
      ROUTE_PRED_MISS, ROUTE_TOKENS, ROUTE_SPEC_BYTES, ROUTE_CLAIMS, ROUTE_SPEC_DISCARD, ROUTE_KEPT,
      ROUTE_SPEC_STOPPED, ROUTE_DROPS, ROUTE_SPEC_EARLY, ROUTE_LATE] }
/-- Registers at offsets 0x74000 to 0x74fff. -/
def block_74 : RegBlock :=
  { lo := 0x74000, hi := 0x75000,
    regs := [
      STRM_CTL, STRM_DIE_PEAK, STRM_DMA_CFG, STRM_DMA_BYTES, STRM_DIE_INFLIGHT, STRM_POISON_FWD] }
/-- Registers at offsets 0x76000 to 0x76fff. -/
def block_76 : RegBlock :=
  { lo := 0x76000, hi := 0x77000,
    regs := [
      VQ_RANGE_BASE, VQ_BLOCKS_CAST, VQ_RANGE_LIMIT, VQ_BYTES_FETCHED, VQ_MOULD, VQ_BYTES_CAST,
      VQ_MOULD_GEOM, VQ_RETIRED, VQ_ERR, VQ_LENGTH_ERRS, VQ_ERR_ADDR, VQ_HEADER_ERRS] }
/-- Registers at offsets 0x78000 to 0x78fff. -/
def block_78 : RegBlock :=
  { lo := 0x78000, hi := 0x79000,
    regs := [
      MEM_CTL, MEM_ERRQ_LOST, MEM_SCRUB_CFG, MEM_RETIRE_ADD, MEM_SCRUB_STATUS, MEM_RETIRE_STATUS,
      MEM_CAL_STATUS, MEM_CE_COUNT, MEM_ERRQ_BASE, MEM_UE_COUNT, MEM_ERRQ_CFG, MEM_POISON_READS,
      MEM_ERRQ_HEAD, MEM_RETIRED_HITS, MEM_ERRQ_TAIL, MEM_PC] }
/-- Registers at offsets 0x7a000 to 0x7afff. -/
def block_7a : RegBlock :=
  { lo := 0x7a000, hi := 0x7b000,
    regs := [
      COH_CTL, COH_CTL_PD, COH_DIR_STATUS, COH_UNTRACKED, COH_DIR_HITS, COH_DIR_MISSES, COH_DIR_EVICTS,
      COH_BCAST, COH_CONFLICTS, COH_HOLD_WAITS, COH_ATOM_NEAR, COH_ATOM_FAR, COH_SUB_LOST] }
/-- Registers at offsets 0x7c000 to 0x7cfff. -/
def block_7c : RegBlock :=
  { lo := 0x7c000, hi := 0x7d000,
    regs := [
      XLAT_CTL, XLAT_AS_SATP, XLAT_FQ_BASE, XLAT_AS_CFG, XLAT_FQ_CFG, XLAT_STLB_HITS, XLAT_FQ_HEAD,
      XLAT_STLB_MISSES, XLAT_FQ_TAIL, XLAT_WALKS, XLAT_FQ_RESP, XLAT_PTE_READS, XLAT_FQ_STATUS,
      XLAT_AD_UPDATES, XLAT_WDOG, XLAT_FAULTS, XLAT_INV_ADDR, XLAT_FQ_OVERFLOW, XLAT_INV_CTL,
      XLAT_WDOG_EXPIRED, XLAT_INV_STATUS, XLAT_STALE_RESP] }
/-- Registers at offsets 0x7e000 to 0x7efff. -/
def block_7e : RegBlock :=
  { lo := 0x7e000, hi := 0x7f000,
    regs := [
      CMD_CTL, CMD_STATUS, CMD_PACKETS, CMD_FW_PACKETS, CMD_MALFORMED, CMD_SUPERSEDED, CMD_DB_ERRORS,
      CMD_RECORDS_LOST] }
/-- Registers at offsets 0x100000 to 0x1fffff. -/
def block_hi1 : RegBlock :=
  { lo := 0x100000, hi := 0x200000,
    regs := [
      CMD_SQ_BASE, CMD_CQ_BASE, CMD_QCFG, CMD_SQ_PTR, CMD_CQ_PTR, CMD_QSTAT, CMD_MSI_ADDR, CMD_MSI_DATA,
      FAB_REMAP] }
/-- Registers at offsets 0x7f000 to 0x7ffff. -/
def block_7f : RegBlock :=
  { lo := 0x7f000, hi := 0x80000,
    regs := [
      UPD_STATUS, UPD_ELEMENTS, UPD_GRP_SEL, UPD_LAZY_ROWS, UPD_GRP_STATE, UPD_LAZY_REPEAT, UPD_GRP_STEP,
      UPD_NONFINITE, UPD_GRP_EPOCH, UPD_STEPS, UPD_INSTR, UPD_SKIPPED, UPD_EPOCH_WAITS, ING_CTL,
      ING_SAMPLES, ING_LIMIT_DIM, ING_LATE, ING_LIMIT_ELEM, ING_TIMEOUTS, ING_LIMIT_BYTES, ING_DIM_LIMITS,
      ING_IMAGE, ING_CORRUPT, ING_STAGE_BASE, ING_RESTARTS, ING_STAGE_SIZE, ING_ENV_TICKS, ING_SLOT,
      ING_ENV_MISSED, ING_MEAN, ING_ENV_LAPPED] }
/-- Registers at offsets 0x42000 to 0x42fff. -/
def block_42 : RegBlock :=
  { lo := 0x42000, hi := 0x43000,
    regs := [
      FAB_LOST] }
/-- Registers at offsets 0x200000 to 0x2fffff. -/
def block_hi2 : RegBlock :=
  { lo := 0x200000, hi := 0x300000,
    regs := [
      FAB_ROUTE] }
/-- Registers at offsets 0x50000 to 0x50fff. -/
def block_50 : RegBlock :=
  { lo := 0x50000, hi := 0x51000,
    regs := [
      COLL_CTL, COLL_DONE, COLL_STATUS, COLL_ABORTED, COLL_ASSIST_IMAGE, COLL_TX_BYTES, COLL_ASSIST_ITEMS,
      COLL_RX_BYTES, COLL_ASSIST_LATE, COLL_DENSE] }
/-- Registers at offsets 0xc00000 to 0xffffff. -/
def block_arb : RegBlock :=
  { lo := 0xc00000, hi := 0x1000000,
    regs := [
      ARB_CFG, ARB_CLASS, ARB_CTL, ARB_GRANTS, ARB_STATUS, ARB_WAIT, ARB_AGED, ARB_MAXWAIT] }
/-- Registers at offsets 0x70000 to 0x70fff. -/
def block_70 : RegBlock :=
  { lo := 0x70000, hi := 0x71000,
    regs := [
      MTX_CTL, SPARSE_CTL] }
/-- Registers at offsets 0xb0000 to 0xb0fff. -/
def block_b0 : RegBlock :=
  { lo := 0xb0000, hi := 0xb1000,
    regs := [
      SPARE_SRAM, SPARE_PPR_REQ, SPARE_PPR_STATUS] }
/-- The whole register map. -/
def regBlocks : List RegBlock :=
  [block_0, block_2, block_3, block_40, block_41, block_cell, block_60, block_72, block_74, block_76,
   block_78, block_7a, block_7c, block_7e, block_hi1, block_7f, block_42, block_hi2, block_50,
   block_arb, block_70, block_b0]

/-- The instance (i, j) of `r` that lies at offset `off` of die `die`, if one does (R6, R602). -/
def Reg.at? (r : Reg) (die off : Nat) : Option (Nat × Nat) :=
  if r.dies.contains die && r.base ≤ off then
    let o := off - r.base
    let i := if r.s1 = 0 then 0 else o / r.s1
    let i := if i < r.n1 then i else r.n1 - 1
    let o' := o - i * r.s1
    let j := if r.s2 = 0 then 0 else o' / r.s2
    if i * r.s1 + j * r.s2 = o ∧ i < r.n1 ∧ j < r.n2 ∧ r.has die i j then some (i, j) else none
  else none

/-- The register at offset `off` of die `die` among `rs`. -/
def findIn (die off : Nat) : List Reg → Option (Reg × Nat × Nat)
  | [] => none
  | r :: rs => match r.at? die off with
    | some (i, j) => some (r, i, j)
    | none => findIn die off rs

/-- The register at offset `off` of die `die`. -/
def findBlock (die off : Nat) : List RegBlock → Option (Reg × Nat × Nat)
  | [] => none
  | b :: bs => if b.lo ≤ off ∧ off < b.hi then findIn die off b.regs else findBlock die off bs

/-- The register at offset `off` of die `die`; none for an unassigned offset. -/
def findReg (die off : Nat) : Option (Reg × Nat × Nat) := findBlock die off regBlocks

/-- A register's key in the register file: die index * 2^24 + offset. -/
def Reg.key (r : Reg) (die i j : Nat) : Nat := die * 2 ^ 24 + r.base + i * r.s1 + j * r.s2

/-- The bits that the fields of a register cover (every other bit is reserved, R9). -/
def Reg.mask (r : Reg) : Nat := r.fields.foldl (fun m f => m + (2 ^ f.w - 1) * 2 ^ f.lo) 0

/-- The reset value of an instance of a register (R10). -/
def Reg.resetVal (r : Reg) (die i j : Nat) : Nat :=
  r.fields.foldl (fun m f => m + f.reset * 2 ^ f.lo) (r.init die i j)

/-- The defined bits of the register with key `k`; 0 where there is no register. -/
def maskOf (k : Nat) : Word :=
  match findReg (k / 2 ^ 24) (k % 2 ^ 24) with
  | some (r, _, _) => w64 r.mask
  | none => 0

/-- The reset value of the register with key `k`; 0 where there is no register. -/
def resetOf (k : Nat) : Word :=
  match findReg (k / 2 ^ 24) (k % 2 ^ 24) with
  | some (r, i, j) => w64 (r.resetVal (k / 2 ^ 24) i j)
  | none => 0

/-- The value of field `f` in register value `v`. -/
def Fld.get (f : Fld) (v : Word) : Nat := bitsOf v.toNat f.lo f.w

/-- Register value `v` with field `f` set to `x`. -/
def Fld.put (f : Fld) (v : Word) (x : Nat) : Word := w64 (putBits v.toNat f.lo f.w x)

/-- The bits of `v` that field `f` covers, in place. -/
def Fld.maskVal (f : Fld) : Nat := (2 ^ f.w - 1) * 2 ^ f.lo

/-- What a write of `v` leaves in field `f` of a register that holds `old`, by its access code (R8). -/
def Fld.write (f : Fld) (old v : Word) (acc : Word) : Word :=
  match f.acc with
  | .ro => acc
  | .wo => acc
  | .rw => f.put acc (f.get v)
  | .w1c => f.put acc (f.get old &&& ((2 ^ f.w - 1) - f.get v))
  | .rw1s => f.put acc (f.get old ||| f.get v)

/-- What a write of `v` leaves in a register that holds `old`: every field by its access code (R8), reserved bits
unchanged at zero (R9). -/
def Reg.write (r : Reg) (old v : Word) : Word :=
  r.fields.foldl (fun a f => f.write old v a) old

/-- What a read of a register that holds `v` returns: WO fields and reserved bits read zero (R8, R9). -/
def Reg.readVal (r : Reg) (v : Word) : Word :=
  r.fields.foldl (fun a f => if f.acc = .wo then f.put a 0 else a) v

end Sys2Proof.Machine
end

