-- ==== Sys2Proof/Machine/Table.lean ====
section
/-! DEFINITION. Sparse tables: a list of (key, value) pairs, keys strictly rising, no entry equal to what an unlisted key
reads as. Memory and the register file are held in this one form. -/

namespace Sys2Proof.Machine

variable {β : Type}

/-- What key `k` of table `t` reads as: its entry, or `dflt k` where it has none. -/
def tget (dflt : Nat → β) : List (Nat × β) → Nat → β
  | [], k => dflt k
  | (a, b) :: t, k => if a = k then b else tget dflt t k

/-- Table `t` without an entry for `k`. -/
def terase : List (Nat × β) → Nat → List (Nat × β)
  | [], _ => []
  | (a, b) :: t, k => if a = k then terase t k else (a, b) :: terase t k

/-- Table `t` with the entry (k, v), in its place in the ascending order. -/
def tinsert : List (Nat × β) → Nat → β → List (Nat × β)
  | [], k, v => [(k, v)]
  | (a, b) :: t, k, v =>
    if k < a then (k, v) :: (a, b) :: t
    else if a = k then (k, v) :: t
    else (a, b) :: tinsert t k v

/-- Table `t` with key `k` reading as `v`: writing what an unlisted key reads as removes the entry. -/
def tset [DecidableEq β] (dflt : Nat → β) (t : List (Nat × β)) (k : Nat) (v : β) : List (Nat × β) :=
  if v = dflt k then terase t k else tinsert t k v

/-- Every key of `t` lies above `lo`, keys rise strictly, and no entry equals what an unlisted key reads as. -/
def tcanonFrom [DecidableEq β] (dflt : Nat → β) : Option Nat → List (Nat × β) → Bool
  | _, [] => true
  | lo, (a, b) :: t =>
    (match lo with | none => true | some l => decide (l < a)) && decide (b ≠ dflt a) && tcanonFrom dflt (some a) t

/-- The canonical form of a table. -/
def tcanon [DecidableEq β] (dflt : Nat → β) (t : List (Nat × β)) : Bool := tcanonFrom dflt none t

/-- The entry of `k` in a plain association list. -/
def aget? : List (Nat × β) → Nat → Option β
  | [], _ => none
  | (a, b) :: t, k => if a = k then some b else aget? t k

/-- The entry of `k` in a plain association list, or `d`. -/
def agetD (t : List (Nat × β)) (k : Nat) (d : β) : β := (aget? t k).getD d

/-- An association list with `f` applied to the entry of `k`, which starts as `d`. -/
def aupd (t : List (Nat × β)) (k : Nat) (d : β) (f : β → β) : List (Nat × β) := tinsert t k (f (agetD t k d))

/-- What byte `a` of a memory reads as where nothing was written: HBM reads zero (R340); the bulk tier's contents are
not stated, and zero is this model's (log 3). -/
def memDflt (_ : Nat) : Byte := 0

end Sys2Proof.Machine
end

