-- ==== Sys2Proof/Machine/State.lean ====
section
/-! DEFINITION. The state of the package: the register file, memory, every unit's own state, and the queue of waiting
commands. Plain data throughout. -/

namespace Sys2Proof.Machine

/-- A RAM whose contents are undefined until written (scratchpad, tile registers, accumulators: R96, R191): the bytes
written since `epoch`, and the epoch that names the undefined contents of the others (Config.undefByte, log 4). -/
structure Ram where
  epoch : Nat := 0
  bytes : List (Nat × Byte) := []
deriving DecidableEq, Repr

/-- A die-to-die link (R13): its state, the modules in service (R18), the capability words of its two ends (R23, R27). -/
structure LinkSt where
  up : Bool := false
  lost : Bool := false
  /-- Elapsed time at which the link last went down; the 1 ms of R19 counts from here. -/
  downAt : Option Nat := none
  /-- Modules in service, one bit each. -/
  modules : Nat := 0
  /-- Modules that cannot be repaired and leave service at the next beat edge (R18). -/
  leaving : Nat := 0
  wordA : Nat := 0
  wordB : Nat := 0
  /-- The running version, major * 256 + minor (R23). -/
  version : Nat := 0
  /-- LINK_FEATURES of the link (R23). -/
  feats : Nat := 0
  /-- The die whose capability word failed its flit CRC on three attempts (R26). -/
  crcBad : Option Nat := none
deriving DecidableEq, Repr

/-- The time unit on HD (02_beat_and_time.md). Times are in units of 2^-64 ns. -/
structure TimeSt where
  /-- Device time (R46). -/
  now : Nat := 0
  /-- Elapsed time: advances with device time, moved by no step (R50). -/
  elapsed : Nat := 0
  /-- Consecutive measurements with an offset below 8 ns (R56). -/
  good : Nat := 0
  /-- A lock has been reached since reset (R56). -/
  everLocked : Bool := false
  /-- Elapsed time at which the source was selected or last gave a valid measurement (R57). -/
  lastMeas : Nat := 0
  /-- The whole second at which PPS_OUT last rose, plus one (R52). -/
  ppsSecond : Nat := 0
  /-- The whole 100 ns at which REF10M_OUT last rose, plus one (R52). -/
  refCount : Nat := 0
  /-- PTP: hardware timestamp of the last received message, 2^-16 ns; the best master's identity and priority (R58). -/
  ptpStamp : Nat := 0
  ptpMaster : Option Nat := none
  /-- Announce messages sent as grandmaster: clockClass, clockAccuracy, priority1, priority2 of the last (R59). -/
  announced : List (Nat × Nat) := []
  /-- Delay responses sent as grandmaster: time sent, and the receive time they carry, 2^-16 ns (R58). -/
  ptpSent : List (Nat × Nat) := []
deriving DecidableEq, Repr

/-- A committed beat plan (R72 to R74). -/
structure Plan where
  base : Nat
  len : Nat
  start : Nat
deriving DecidableEq, Repr

/-- One THREAD entry of the running beat's work list and its thread's place (R469, R471). -/
structure WorkEntry where
  index : Nat
  beat : Nat
  cell : Nat
  thread : Nat
  notify : Nat
  irq : Bool
  quiet : Bool
  start : Nat
  arg : Nat
  aslot : Nat
  wbase : Nat
  wsize : Nat
  /-- The physical cell (die * 168 + p) whose thread the entry started; none when no thread was started. -/
  phys : Option Nat := none
  recorded : Bool := false
deriving DecidableEq, Repr

/-- The beat unit (R63 to R83). -/
structure BeatSt where
  /-- The next edge index that the package has not yet met while beats run (R64). -/
  nextEdge : Nat := 0
  /-- RUN was written 1 and the first edge is awaited (R67). -/
  starting : Bool := false
  /-- A beat's work is under way. -/
  inBeat : Bool := false
  /-- Device time (2^-64 ns) at which the current beat began under step 6 of R70, for BCYC (R128). -/
  beganAt : Nat := 0
  /-- The index of the edge at which the current beat began (BLEFT counts to the edge after it, R128). -/
  beginEdge : Nat := 0
  plan : Option Plan := none
  /-- A committed plan that has not yet taken effect (R74). -/
  pending : Option Plan := none
  /-- START of the first plan committed since the last reset of HD (R67). -/
  firstStart : Option Nat := none
  /-- The SLIP_LIMIT actions were taken and slip has not returned to 0 (R79). -/
  slipTold : Bool := false
  /-- The current beat is a slack beat. -/
  slack : Bool := false
  work : List WorkEntry := []
deriving DecidableEq, Repr

/-- The thread states of R99. -/
inductive TState where
  | idle | ready | waitDep | waitMem | sleep | barrier | ended | trapped
deriving DecidableEq, Repr

/-- One level of the loop stack (R125 LOOP): first instruction, instruction count, passes left. -/
structure LoopLevel where
  first : Nat
  len : Nat
  left : Nat
deriving DecidableEq, Repr

/-- What a waiting thread waits for. -/
inductive WaitOn where
  | nothing
  /-- WAITM: at most this many of the thread's requests in flight. -/
  | requests (n : Nat)
  /-- WAITT: no pending write of this physical tile register. -/
  | tile (r : Nat)
  /-- SLEEP until this elapsed time. -/
  | until_ (t : Nat)
  /-- BAR: barrier and thread mask (R126). -/
  | bar (j mask : Nat)
  /-- Re-issue of the same instruction once something it needs is free. -/
  | reissue
  /-- UPD: the group's epoch is below the expected one (R482). -/
  | epoch
deriving DecidableEq, Repr

/-- A thread's bit reader (R515): the byte and bit it stands at, bits counted in reader order; its exclusive end; and
whether it reads MSB-first. -/
structure Reader where
  addr : Nat
  bit : Nat
  stop : Nat
  msb : Bool
deriving DecidableEq, Repr

/-- A hardware thread (R85, R99, R101, R124). Scalar registers and condition bits that are zero are not listed. -/
structure Thread where
  st : TState := .idle
  pc : Nat := 0
  s : List (Nat × Word) := []
  /-- c1 to c7 at bits 1 to 7; c0 reads 1 (R124). -/
  c : Nat := 0
  /-- Condition registers whose result is awaited (R99 WAIT_DEP), one bit each. -/
  pendC : Nat := 0
  loops : List LoopLevel := []
  rets : List Nat := []
  fpctl : Nat := 0
  srseed : Nat := 0
  hint : Nat := 0
  wbase : Nat := 0
  wsize : Nat := 0
  aslot : Nat := 0
  valid : Bool := false
  /-- CARRY of the ENDB it executed (R95). -/
  carry : Bool := false
  wait : WaitOn := .nothing
  /-- Status of the first trap (R132). -/
  trap : Option Nat := none
  /-- The bit reader; none while its state is undefined (R515). -/
  reader : Option Reader := none
  /-- The NaN trap has been taken (R171). -/
  nanDone : Bool := false
deriving DecidableEq, Repr

/-- A held run-ahead entry (R135): its thread, address, bytes, poison, and whether the data has arrived. -/
structure RaEntry where
  thread : Nat
  va : Nat
  pa : Nat
  len : Nat
  arrived : Bool := false
  poison : Bool := false
  bytes : List Byte := []
deriving DecidableEq, Repr

/-- What a memory operation of a thread does (R269, R285), or which other instruction holds a request slot (R265). -/
inductive OpKind where
  | lds | ldt | sts | stt | gath | scat
  /-- The fill of a prefetch buffer (R294), and the refetch of its stale granules for PFW with its condition register. -/
  | pfb (b : Nat)
  | pfw (b cd : Nat)
  /-- An instruction that counts as one memory request without sending requests of its own (R265): a route table (R234,
  R244), a mould attachment (R333), an expansion (R334), an update (R481), a sample (R515), a reduction item (R581). -/
  | held (what a b : Nat)
  /-- A run-ahead request for the thread's buffer, by its virtual address (R135). It is not an instruction's. -/
  | ra (va : Nat)
  /-- An instruction-cache line on its way from another package (R119). -/
  | ifetch
deriving DecidableEq, Repr

/-- The stages of a request (R265, R266, R279): not yet translated, waiting on fault record n, translated but without a
slot, in flight, returned with its commit group incomplete, or finished. -/
inductive ReqSt where
  | untranslated
  | faulted (n : Nat)
  | ready
  | sent
  | returned
  | done
deriving DecidableEq, Repr

/-- One request (R264): at most 512 bytes within one 512-byte granule. `grp` is its commit group (R277), `loc` the byte
address in the cell (scratchpad, or tile registers). -/
structure Req where
  va : Nat
  len : Nat
  loc : Nat := 0
  grp : Nat := 0
  pa : Nat := 0
  pin : Bool := false
  st : ReqSt := .untranslated
  data : List Byte := []
  /-- Poisoned 64-byte sectors of the data, counted from its first byte. -/
  psn : List Nat := []
  /-- An index read of a gather (R288). -/
  idx : Bool := false
  /-- The mould of the block it fetches (R315). -/
  mould : Option Nat := none
deriving DecidableEq, Repr

/-- The operands of a GATH or SCAT (R284 to R290), and the next index it looks at. -/
structure GathSt where
  rt : Nat
  ri : Nat
  rd : Nat
  n : Nat
  rowBytes : Nat
  rows : Nat
  rs : Int
  ifmt : Nat
  inMem : Bool
  skz : Bool
  iper : Nat
  stride : Nat
  next : Nat := 0
deriving DecidableEq, Repr

/-- What a casting load works with (R322 to R326): the enabled ranges at its issue as first and last byte, its range once
decided, where its bytes go, and its blocks: first byte of the slot from the start of the source, and the slot's bytes. -/
structure CastSt where
  ranges : List (Nat × Nat)
  decided : Bool := false
  range : Option (Nat × Nat) := none
  contiguous : Bool
  va : Nat
  dst : Nat
  rowBytes : Nat
  pitch : Int
  total : Nat
  blocks : List (Nat × Nat) := []
deriving DecidableEq, Repr

/-- A memory operation in progress. -/
structure MemOp where
  id : Nat
  /-- The physical cell (die * 168 + p). -/
  pk : Nat
  thread : Nat
  pc : Nat
  aslot : Nat
  kind : OpKind
  /-- Load stream 0 or 1, store stream 2, gather engine 3. -/
  stream : Nat := 0
  reqs : List Req := []
  cls : Nat := 2
  na : Bool := false
  /-- The status that ended the operation (R279), and the commit group it ended. -/
  failed : Option Nat := none
  failGrp : Nat := 0
  /-- Groups after the failed one that are written all the same (R279; a free choice). -/
  kept : List Nat := []
  /-- Commit groups written or abandoned; groups counted as held for a fault. -/
  closed : List Nat := []
  holds : List Nat := []
  mmio : Bool := false
  /-- Tile registers on which it holds a pending write (LDT) or read (STT) (R275). -/
  pend : List Nat := []
  /-- The first of its tile registers (LDT, STT). -/
  base : Nat := 0
  /-- PFW: the refetch has been sent. A store: its source has been read. -/
  started : Bool := false
  gath : Option GathSt := none
  cast : Option CastSt := none
deriving DecidableEq, Repr

/-- A 512-byte granule of a prefetch buffer's source: its first byte's virtual and global address, its bytes, whether it
subscribes, and its stale bit (R295). -/
structure PfGran where
  va : Nat
  ga : Nat := 0
  len : Nat
  sub : Bool := false
  stale : Bool := false
deriving DecidableEq, Repr

/-- A prefetch buffer (R294 to R298). Granules are counted from the first 512-byte granule of the source. -/
structure PfBuf where
  /-- 0 FREE, 1 FILLING, 2 READY. -/
  state : Nat := 0
  spad : Nat := 0
  len : Nat := 0
  va : Nat := 0
  aslot : Nat := 0
  thread : Nat := 0
  granules : List PfGran := []
deriving DecidableEq, Repr
/-- A spare-tracked unit (R603 to R613). -/
structure UnitSt where
  /-- State by R604. -/
  st : Nat := 0
  patina : Nat := 0
  /-- WARN and RETIRE have been reached (R613). -/
  warned : Bool := false
  told : Bool := false
  /-- Due for retirement, with its place in the order of becoming due. -/
  due : Option Nat := none
  /-- Corrected FEC symbols below the next weight of 65,536 (R611, lanes). -/
  fec : Nat := 0
deriving DecidableEq, Repr

/-- A self-test in progress or ended (R625 to R629): the unit and level, whether in place, and the commands that wait for the
outcome (by Cmd.seqNo; R628). -/
structure Probe where
  unit : Nat
  level : Nat
  /-- In place (TESTING, R627), else in probation. -/
  inPlace : Bool := false
  /-- A CTL_SWAP RETURN (R618). -/
  ret : Bool := false
  cmds : List Nat := []
  /-- The queue of the service records (R633). -/
  queue : Nat := 0xFFFD
  /-- Elapsed time at which the unit was isolated. -/
  since : Nat := 0
  /-- The outcome of a probation, applied at the next edge (R615). -/
  outcome : Option Bool := none
deriving DecidableEq, Repr

/-- A cell or host core that has left its logical unit and whose state is still being moved (R97, R620, R621): the state it
then enters, the logical unit, the incoming unit's index, the elapsed time at which a copy ends, the test that follows, and
the commands that wait for the swap. -/
structure Leaving where
  out : Nat
  st : Nat
  logical : Nat
  to_ : Nat
  ends : Nat
  /-- State was carried, and is copied at the end. -/
  carry : Bool := false
  probe : Option Probe := none
  cmds : List Nat := []
deriving DecidableEq, Repr

/-- A deferred self-test (R626): the kind and die, the logical cell or core (a lane: its physical index), the level, and the
command's queue number. -/
structure Deferred where
  kind : Nat
  die : Nat
  logical : Nat
  level : Nat
  queue : Nat
deriving DecidableEq, Repr

/-- Spares, self-test and service life (17_reliability.md). A unit's key is kind * 2^24 + die * 2^20 + index. -/
structure SpareSt where
  /-- Units that failed the self-test of Dawn (R608). -/
  failed : List Nat := []
  /-- Units whose state differs from what Dawn left. -/
  units : List (Nat × UnitSt) := []
  /-- Units that have become due so far. -/
  seq : Nat := 0
  probes : List Probe := []
  deferred : List Deferred := []
  /-- Logical host core to physical core, where a swap moved it. -/
  hosts : List (Nat × Nat) := []
  leaving : List Leaving := []
  /-- Logical cells without a physical cell, by package cell number (R619). -/
  unbacked : List Nat := []
  /-- Units that step 2 of the present edge retired: kind, logical unit, physical index (R617). -/
  autos : List (Nat × Nat × Nat) := []
  /-- Ways being evicted: unit keys (R623). -/
  evicting : List Nat := []
  /-- Logical cores whose hart is stalled without a spare (R627). -/
  stalled : List Nat := []
  /-- Soft repairs under way: die, and the value written to SPARE_PPR_REQ (R631). -/
  ppr : List (Nat × Nat) := []
  /-- Repair rows used: die * 2^16 + pseudo-channel * 64 + bank, and rows repaired there (R631). -/
  pprUsed : List (Nat × Nat) := []
deriving DecidableEq, Repr

/-- A bulk-tier request under way (R369): its port, its bytes' local address and count, what it writes, when its timer
began, and whether it waits for the fence list or has timed out. -/
structure BulkReq where
  id : Nat
  port : Nat
  la : Nat
  len : Nat
  write : Bool
  data : List Byte := []
  since : Nat := 0
  waiting : Bool := false
  timedOut : Bool := false
  agent : Nat := 0
  die : Nat := 4
  /-- The memory operation and request that sent it, where a thread did. -/
  own : Option (Nat × Nat) := none
deriving DecidableEq, Repr

/-- Calibration of a stack (R346): commands that wait for a pass, and passes completed. -/
structure CalSt where
  /-- Commands whose full pass has not begun, and those whose pass is under way (seqNo of Cmd). -/
  waiting : List Nat := []
  running : List Nat := []
  passes : Nat := 0
deriving DecidableEq, Repr

/-- Memory controllers and the bulk tier (09_memory.md). Sectors are storage addresses / 64. -/
structure MemSt where
  /-- Erroneous symbols of a sector's stored codeword: symbol and XOR pattern (R348, R350). -/
  errs : List (Nat × List (Nat × Byte)) := []
  /-- Sectors stored poisoned (R353). -/
  poison : List Nat := []
  /-- Retired frames, and frames whose retirement awaits in-flight requests, by local address / 4096 (R363). -/
  retired : List Nat := []
  retiring : List Nat := []
  /-- Fence list of a port: lines, and the elapsed time at which each entered (R369, R370). -/
  fence : List (Nat × Nat) := []
  bulk : List BulkReq := []
  nextBulk : Nat := 0
  /-- Ports whose link was reset since EN was cleared (R370). -/
  bulkReset : List Nat := []
  /-- Scrub position of a die: sectors scrubbed in the current pass, and the elapsed time at which the pass began. -/
  scrubPos : List (Nat × Nat) := []
  scrubStart : List (Nat × Nat) := []
  /-- Calibration by stack 0 to 11. -/
  cal : List (Nat × CalSt) := []
  /-- Refreshes done, by die * 2^16 + pseudo-channel * 64 + bank (R345). -/
  refreshed : List (Nat × Nat) := []
  /-- Storage addresses of bytes that hold undefined contents, and their epoch (R305, R370, R663). -/
  undef : List (Nat × Nat) := []
deriving DecidableEq, Repr

/-- A coherent copy that a caching agent holds (R374): 1 S, 2 E, 3 M. -/
structure Copy where
  agent : Nat
  /-- Local address / 64. -/
  line : Nat
  st : Nat
  u : Bool := false
  /-- Elapsed time at which the minimum hold ends (R384). -/
  hold : Nat := 0
deriving DecidableEq, Repr

/-- A directory entry (R377): owner for M and E, and the sharer vector. -/
structure DirEnt where
  owner : Option Nat := none
  sharers : Nat := 0
deriving DecidableEq, Repr

/-- A request accepted at a home (R375, R380). -/
structure HomeReq where
  agent : Nat
  line : Nat
  /-- 0 read, 1 own, 2 own for LR (R385), 3 give up. -/
  kind : Nat
  /-- A write of the line without holding it. -/
  data : Option (List Byte) := none
  /-- The directory entry that makes room, where the set is full. -/
  evict : Option Nat := none
  started : Bool := false
  bcast : Bool := false
  /-- Agents that have not answered, and those whose snoop waits for a hold. -/
  wait : List Nat := []
  held : List Nat := []
deriving DecidableEq, Repr

/-- A subscriber of a granule (R382). -/
inductive Subscriber where
  | pf (pk b : Nat)
  | ra (pk thread va : Nat)
  | spec (die tbl expert : Nat)
deriving DecidableEq, Repr

/-- Coherence (10_coherence_and_ordering.md). -/
structure CohSt where
  dir : List (Nat × DirEnt) := []
  copies : List Copy := []
  /-- Untracked filters: home * 65536 + F(line) (R378). -/
  filter : List (Nat × Nat) := []
  /-- Untrack notices and drop notices on their way: agent and line, line. -/
  untrack : List (Nat × Nat) := []
  drops : List Nat := []
  reqs : List HomeReq := []
  /-- Contention predictors: die * 1024 + P(line); an unlisted counter is 1 (R391). -/
  pred : List (Nat × Nat) := []
  /-- The last far atomic to a line: line, agent's die, and elapsed time (R391). -/
  lastFar : List (Nat × Nat × Nat) := []
  /-- Subscriptions of a die, oldest first: die, granule (local or global address / 512), subscriber (R382). -/
  subs : List (Nat × Nat × Subscriber) := []
deriving DecidableEq, Repr

/-- What waits on a fault (R424). -/
inductive Waiter where
  | req (op r : Nat)
  | chunk (cmd i : Nat)
  | table (die t : Nat)
  | front (die q : Nat)
  | other (a b : Nat)
deriving DecidableEq, Repr

/-- A fault that has not ended (R424 to R430). -/
structure FaultSt where
  id : Nat
  die : Nat
  va : Nat
  asid : Nat
  kind : Nat
  access : Nat
  level : Nat
  slot : Nat
  source : Nat
  cell : Nat
  thread : Nat
  queue : Nat
  time : Nat
  since : Nat
  /-- Its record's number, once written. -/
  record : Option Nat := none
  joined : Nat := 0
  waiters : List Waiter := []
deriving DecidableEq, Repr

/-- A cached translation (R416): its ASID, whether it matches every ASID, page size in bytes, page number, and the leaf; or a
walk-cache entry, with the range that its table maps for a page and the non-leaf PTE. -/
structure TlbEnt where
  die : Nat
  asid : Nat
  global : Bool
  size : Nat
  page : Nat
  pte : Nat
  level : Nat
deriving DecidableEq, Repr

/-- An invalidation under way (R420 to R422): the die whose register started it, its scope, and the requests in flight that
used a translation within it. -/
structure InvSt where
  reg : Nat
  scope : Nat
  asid : Nat
  va : Nat
  waits : List (Nat × Nat) := []
deriving DecidableEq, Repr

/-- Translation (11_translation.md). -/
structure XlatSt where
  /-- The shared TLBs: leaves, at most 16,384 of a die, oldest first (R416). -/
  tlb : List TlbEnt := []
  /-- Micro-TLBs, by physical cell: at most 64 leaves each, oldest first (R416, R419). -/
  utlb : List (Nat × List TlbEnt) := []
  /-- The walk caches: valid non-leaf PTEs of levels 4 to 1, at most 2,048 of a die, oldest first (R416). -/
  walks : List TlbEnt := []
  faults : List FaultSt := []
  nextFault : Nat := 0
  /-- Waiters whose fault ended with a status, until they take it. -/
  ended : List (Waiter × Nat) := []
  inv : List InvSt := []
deriving DecidableEq, Repr

/-- An expert entry of a route descriptor (R232). -/
structure Expert where
  cap : Nat
  null : Bool
  isLocal : Bool
  dest : Nat
  dlist : Nat
  rowBase : Nat
  wtiles : Nat
  wbase : Nat
deriving DecidableEq, Repr

/-- A route table that is not CLOSED (R232 to R246). Its STATE is in ROUTE_TBL_n. -/
structure RouteTbl where
  /-- The operation that OPEN, CLOSE or ABORT holds (R234); the descriptor's virtual address and slot. -/
  op : Nat := 0
  va : Nat := 0
  aslot : Nat := 0
  next : Bool := false
  clear : Bool := false
  predict : Bool := false
  layer : Nat := 0
  summary : Nat := 0
  experts : List Expert := []
  /-- Slots filled and failed claims by expert. -/
  fill : List (Nat × Nat) := []
  fails : List (Nat × Nat) := []
  claims : Nat := 0
  kept : Nat := 0
  drops : Nat := 0
  late : Bool := false
  /-- ABORT is finishing: its summary waits on a fault. -/
  aborted : Bool := false
  predicted : List Nat := []
  /-- Speculative fetches still to be requested: expert, next and end address, and 0 plain, 1 waiting for a block header,
  2 the rest of a block (R249, R331). -/
  want : List (Nat × Nat × Nat × Nat) := []
  specBytes : Nat := 0
  discard : Nat := 0
deriving DecidableEq, Repr

/-- A claim that waits at its lane (R237, R238): its RDISP's operation, token and rank, the expert, and whether it reached
the table in CLOSING (R244). -/
structure Claim where
  disp : Nat
  token : Nat
  rank : Nat
  expert : Nat
  late : Bool := false
deriving DecidableEq, Repr

/-- One token of an RDISP: its choice record, its kept choices (rank and ROW), and its flags. -/
structure TokenSt where
  record : List Byte
  kept : List (Nat × Nat) := []
  dropped : Bool := false
  late : Bool := false
  /-- The next candidate to try as a replacement (R239). -/
  nextRank : Nat := 0
deriving DecidableEq, Repr

/-- An RDISP in progress (R237 to R244). -/
structure DispSt where
  op : Nat
  pk : Nat
  c : Nat
  thread : Nat
  pc : Nat
  w : Nat
  tbl : Nat
  k : Nat
  renorm : Bool
  mout : Bool
  rc : Nat
  rd : Nat
  tokens : List TokenSt := []
  /-- Claims not yet answered. -/
  left : Nat := 0
deriving DecidableEq, Repr

/-- A speculative fetch of a 512-byte granule (R249 to R252): in flight, or a speculative line. -/
structure SpecLine where
  die : Nat
  tbl : Nat
  expert : Nat
  va : Nat
  len : Nat
  gran : Nat
  arrived : Bool := false
  /-- Its table has closed: it becomes an ordinary line as it arrives, or is discarded. -/
  closed : Option Bool := none
  /-- The header of a block in a casting range (R331). -/
  header : Bool := false
  poison : Bool := false
deriving DecidableEq, Repr

/-- The dispatch units and routing predictors (06_conditional_computation.md). -/
structure RouteSt where
  /-- By 2 * die + table. -/
  tables : List (Nat × RouteTbl) := []
  /-- Claims by 8 * die + 4 * table + lane, oldest first. -/
  lanes : List (Nat × List Claim) := []
  disps : List DispSt := []
  spec : List SpecLine := []
  /-- Counters of the predictor: die * 65536 + layer * 1024 + expert (R249). -/
  pred : List (Nat × Nat) := []
deriving DecidableEq, Repr

/-- Bytes of the speculative lines of an expert in a granule. -/
def RouteSt.specBytesAt (r : RouteSt) (die tbl e gran : Nat) : Nat :=
  (r.spec.filter fun s => s.die = die && s.tbl = tbl && s.expert = e && s.gran = gran && s.arrived).foldl (fun n s => n + s.len) 0

/-- A speculative line that a write at its source invalidates (R251). -/
def RouteSt.dropSpec (r : RouteSt) (die tbl e gran : Nat) : RouteSt :=
  let n := r.specBytesAt die tbl e gran
  { r with
    spec := r.spec.filter fun s => !(s.die = die && s.tbl = tbl && s.expert = e && s.gran = gran && s.arrived),
    tables := r.tables.map fun t => if t.1 = 2 * die + tbl then (t.1, { t.2 with discard := t.2.discard + n }) else t }

/-- A parameter group of a tensor die's group store (R473, R475). Numbers are FP32 bits where R475 says FP32. -/
structure Group where
  rule : Nat
  isLazy : Bool
  pfmt : Nat
  sfmt : Nat
  rmode : Nat
  eta : Nat
  lambda : Nat
  beta1 : Nat
  beta2 : Nat
  eps : Nat
  clip : Nat
  /-- Step counter n and epoch e. -/
  n : Nat
  e : Nat
  curveVa : Nat
  /-- Curve points: STEP and FACTOR (R477). -/
  curve : List (Nat × Nat)
  etaRes : Nat
  skipSeen : Bool := false
  /-- KEEP_STEP of the record that a LOAD brought (R475, R492). -/
  keep : Bool := false
deriving DecidableEq, Repr

/-- A packet command that has started (R447), or a control command that waits for its edge (R448, R462). -/
structure Cmd where
  src : CmdSrc
  /-- Entry number of the packet's first entry; 0 from a mailbox. -/
  n : Nat
  op : Nat
  pkt : List Byte
  /-- Order of acceptance over the whole package (R463, R465). -/
  seqNo : Nat := 0
  /-- Control command: the beat at whose edge it is due, none for the first edge (R444). -/
  due : Option Nat := none
  /-- 0 started; a control command: 1 pending, 2 applied and not yet finished. -/
  stage : Nat := 0
  /-- What a finished command reports. -/
  status : Nat := 0
  result : Nat := 0
  /-- Units a control command still waits for (a swap, a test or a calibration), as unit keys. -/
  units : List Nat := []
  /-- DMA (R304): chunks of the transfer, chunks sent so far, chunks that have ended, the first that ended with a status
  and that status, and the tile addresses of DMA_TILES. -/
  total : Nat := 0
  sent : Nat := 0
  ended : List Nat := []
  failed : Option (Nat × Nat) := none
  tiles : List (Nat × Nat) := []
  /-- UPD_GROUPS: the groups a LOAD has read, by number, and the dies that have not installed yet (R478). -/
  groups : List (Nat × Group) := []
  dies : List Nat := []
deriving DecidableEq, Repr

/-- A packet read but held back by ORDER, QLIMIT, the completion ring or BSEL (R439, R447). -/
structure Held where
  q : Nat
  n : Nat
  pkt : List Byte
  due : Option Nat := none
deriving DecidableEq, Repr

/-- A completion record that waits in a front end (R459). -/
structure WaitRec where
  die : Nat
  q : Nat
  result : Nat
  status : Nat
  seq : Nat
  irq : Bool
deriving DecidableEq, Repr

/-- The command front ends (12_commands.md). -/
structure CmdSt where
  /-- Per tensor die: the queue after which the round robin searches next (R447). -/
  rr : List (Nat × Nat) := []
  cmds : List Cmd := []
  held : List Held := []
  waiting : List WaitRec := []
  /-- Commands accepted so far. -/
  seqNo : Nat := 0
  /-- Records of the firmware and management mailboxes (R468, R655). -/
  fwRecords : Nat := 0
  mbRecords : Nat := 0
  /-- Interrupt writes sent: address and data (R457). -/
  msis : List (Nat × Nat) := []
deriving DecidableEq, Repr

/-- A set of pages: those listed, or with `inv` all but those. -/
structure PageSet where
  inv : Bool := false
  list : List Nat := []
deriving DecidableEq, Repr

/-- Whether a page is in the set. -/
def PageSet.has (p : PageSet) (i : Nat) : Bool := p.inv != p.list.contains i
/-- The set with a page. -/
def PageSet.add (p : PageSet) (i : Nat) : PageSet :=
  if p.has i then p else { p with list := if p.inv then p.list.erase i else i :: p.list }
/-- The set without a page. -/
def PageSet.drop (p : PageSet) (i : Nat) : PageSet :=
  if p.has i then { p with list := if p.inv then i :: p.list else p.list.erase i } else p
/-- How many of `n` pages are in the set. -/
def PageSet.size (p : PageSet) (n : Nat) : Nat := if p.inv then n - p.list.length else p.list.length

/-- A maquette in progress (R498 to R501): its slot, number and CUT_BEAT, the pages whose F is set, those staged and not
yet sent, and what its manifest takes at the cut; and the CUT command that waits for it (acceptance number). -/
structure Maquette where
  slot : Nat
  num : Nat
  beat : Nat
  f : PageSet
  /-- Index, bytes, and offsets of poisoned sectors. -/
  staged : List (Nat × List Byte × List Nat) := []
  sent : Nat := 0
  total : Nat
  package : Nat
  ilv : List Nat
  groups : List (Nat × Group)
  cmd : Option Nat := none
  /-- Operations whose write waits under R499, so that each counts once: kind and identity. -/
  waits : List (Nat × Nat × Nat) := []
  /-- The status of a read that ended with one; nothing more is staged or sent, and the maquette is abandoned. -/
  failed : Option Nat := none
deriving DecidableEq, Repr

/-- Checkpoints (13_training.md, R493 to R503). GATE, NEIGHBOUR, INTERVAL and AREA as armed are in CKPT_CFG and CKPT_AREA. -/
structure CkptSt where
  armed : Bool := false
  slotBytes : Nat := 0
  start : Nat := 0
  notify : Nat := 0
  rate : Nat := 0
  /-- BASE and PAGES of each region. -/
  regions : List (Nat × Nat) := []
  d0 : PageSet := {}
  d1 : PageSet := {}
  /-- No armed page has been written since the last cut (R506). -/
  clean : Bool := false
  maq : Option Maquette := none
  /-- The number of the newest maquette begun. -/
  lastNum : Nat := 0
  /-- What the engines have written at the neighbour, oldest first: offset from AREA, bytes, offsets of poisoned sectors. -/
  out : List (Nat × List Byte × List Nat) := []
deriving DecidableEq, Repr

/-- The index of the armed page that holds a local address (R494). -/
def pageIndex (la : Nat) : Nat → List (Nat × Nat) → Option Nat
  | _, [] => none
  | p, (base, n) :: rs => if base ≤ la && la < base + n * 2 ^ 21 then some (p + (la - base) / 2 ^ 21) else pageIndex la (p + n) rs

/-- The armed page that holds a local address. -/
def CkptSt.page? (c : CkptSt) (la : Nat) : Option Nat := if c.armed then pageIndex la 0 c.regions else none

/-- The armed pages that a range touches. -/
def CkptSt.pagesOf (c : CkptSt) (la len : Nat) : List Nat :=
  if len = 0 then [] else
    (List.range ((la + len - 1) / 2 ^ 21 - la / 2 ^ 21 + 1)).filterMap fun i => c.page? ((la / 2 ^ 21 + i) * 2 ^ 21)

/-- The armed pages of a range become dirty (R496). -/
def CkptSt.dirtied (c : CkptSt) (la len : Nat) : CkptSt :=
  (c.pagesOf la len).foldl (fun c p => { c with d0 := c.d0.add p, d1 := c.d1.add p, clean := false }) c

/-- Whether a write to a range must wait for a page to be staged (R499). -/
def CkptSt.holds (c : CkptSt) (la len : Nat) : Bool :=
  match c.maq with
  | none => false
  | some m => m.failed.isNone && (c.pagesOf la len).any fun p => m.f.has p && !m.staged.any (·.1 = p)

/-- The local address of an armed page. -/
def pageAddr (i : Nat) : List (Nat × Nat) → Nat
  | [] => 0
  | (base, n) :: rs => if i < n then base + i * 2 ^ 21 else pageAddr (i - n) rs

/-- Total pages. -/
def CkptSt.total (c : CkptSt) : Nat := c.regions.foldl (fun n r => n + r.2) 0


/-- A sample of a job slot that has not ended (R517 to R533). -/
structure Sample where
  num : Nat
  /-- Its descriptor, 32 bytes (R517). -/
  desc : List Byte
  /-- The queue whose job offered it, and that job's ABS_US. -/
  q : Nat
  absUs : Nat
  /-- 0 waits for staging, 1 may be taken, 2 taken, 3 decoded. -/
  st : Nat := 0
  /-- Staging address and bytes; decoded bytes of a position. -/
  stage : Nat := 0
  size : Nat := 0
  pbytes : Nat := 0
  /-- Elapsed time of its first BTAKE; the physical cell and thread that hold it. -/
  start : Option Nat := none
  holder : Option (Nat × Nat) := none
  /-- Row, first position and segment id in the slot's oldest job (R525). -/
  place : Option (Nat × Nat × Nat) := none
  /-- A joint sample's payloads, none for an absent stream (R537). -/
  joint : Option (List (Option (List Byte))) := none
deriving DecidableEq, Repr

/-- A job (R524): its command, and what its placement and its samples have left. -/
structure Job where
  id : Nat
  src : CmdSrc
  n : Nat
  q : Nat
  packed : Bool
  l : Nat
  pbytes : Nat
  rows : Nat
  out : Nat
  need : Nat
  absUs : Nat
  /-- Descriptors that are not placed yet. -/
  descs : List (List Byte)
  /-- Positions used and segments placed, by row. -/
  used : List (Nat × (Nat × Nat)) := []
  /-- Sample-table entries, in order. -/
  table : List (List Byte) := []
  included : Nat := 0
  ended : Nat := 0
  carried : Nat := 0
deriving DecidableEq, Repr

/-- A stream of an alignment set (R535): BASE, RECBYTES and LOG2. -/
structure Stream where
  base : Nat
  recBytes : Nat
  log2 : Nat
deriving DecidableEq, Repr

/-- An alignment set (R535, R536), and its next tick. -/
structure EnvSet where
  q : Nat
  required : Nat
  t0 : Nat
  period : Nat
  window : Nat
  grace : Nat
  streams : List Stream
  k : Nat := 0
deriving DecidableEq, Repr

/-- A job slot (R511): its jobs, oldest first; its samples in queue order; jobs that have closed and whose header waits to
be written. -/
structure IngSlot where
  jobs : List Job := []
  samples : List Sample := []
  closing : List Job := []
  env : Option EnvSet := none
deriving DecidableEq, Repr

/-- Sample ingest (14_ingest.md). -/
structure IngSt where
  /-- By 16 * die + slot. -/
  slots : List (Nat × IngSlot) := []
  nextNum : Nat := 0
  nextJob : Nat := 0
  /-- Samples ended by withdrawal (R533). -/
  withdrawn : List Nat := []
deriving DecidableEq, Repr

/-- The samples that satisfy `p` return, untaken, to the front of their slot's queue (R512). -/
def IngSlot.back (s : IngSlot) (p : Nat → Nat → Bool) : IngSlot :=
  let hit := fun (x : Sample) => x.st = 2 && (match x.holder with | some (pk, t) => p pk t | none => false)
  { s with samples := (s.samples.filter hit).map (fun x => { x with st := 1, holder := none }) ++ s.samples.filter fun x => !hit x }

/-- As `IngSlot.back`, in every slot. -/
def IngSt.returned (g : IngSt) (p : Nat → Nat → Bool) : IngSt :=
  { g with slots := g.slots.map fun e => (e.1, e.2.back p) }

/-- A transport packet: the fields of its header (R556) and its payload. -/
structure Pkt where
  op : Nat
  tagged : Bool := false
  ordered : Bool := false
  poison : Nat := 0
  hops : Nat := 0
  set : Bool := false
  dstPhys : Nat := 0
  srcPhys : Nat := 0
  dstLog : Nat := 0
  srcLog : Nat := 0
  psn : Nat := 0
  addr : Nat := 0
  lenm1 : Nat := 0
  tid : Nat := 0
  tag : Nat := 0
  payload : List Byte := []
deriving DecidableEq, Repr

/-- Who waits for a transport request: a thread's request; a chunk of a command, at an offset of the chunk; a command; a
notice that obtains its number, or whose record (its last write, or not) is written; a checkpoint write; nobody. -/
inductive TOwn where
  | thread (op req : Nat)
  | chunk (cmd i off : Nat)
  | cmd (id : Nat)
  | notice (plane : Nat) (record : List Byte)
  | record (plane : Nat) (last : Bool)
  | nobody
deriving DecidableEq, Repr

/-- A transport request (R559): READ, WRITE or ATOMIC to local address `la` of the package with logical ID `dst`. -/
structure TReq where
  plane : Nat
  op : Nat
  dst : Nat
  la : Nat
  len : Nat
  data : List Byte := []
  poison : Nat := 0
  ordered : Bool := false
  tagged : Bool := false
  own : TOwn
  /-- Its TID once it has been sent. -/
  tid : Option Nat := none
  /-- No read-after-flag fence has begun since it was sent: its lines may enter the remote line buffer (R562). -/
  fill : Bool := true
  /-- The status it ended with; the data of a read or an atomic is then in `data`. -/
  done : Option Nat := none
deriving DecidableEq, Repr

/-- A packet kept until it is acknowledged (R558): when it was last sent or refused, and whether that was a
retransmission that no answer has followed. -/
structure Kept where
  pkt : Pkt
  since : Nat
  again : Bool := false
deriving DecidableEq, Repr

/-- The sending side of a connection (R555, R558). -/
structure Conn where
  plane : Nat
  phys : Nat
  cls : Nat
  psn : Nat := 0
  kept : List Kept := []
  /-- Packets that wait for the window. -/
  queue : List Pkt := []
  window : Nat := 0
  /-- Packets acknowledged since the window last grew; when a CE echo last halved it. -/
  acked : Nat := 0
  halved : Option Nat := none
  /-- Consecutive unanswered retransmissions. -/
  tries : Nat := 0
deriving DecidableEq, Repr

/-- The receiving side of a connection (R558): the next PSN, packets ahead of it, packets not yet acknowledged and since
when, and whether a CE mark is to be echoed. -/
structure RConn where
  plane : Nat
  phys : Nat
  cls : Nat
  psn : Nat := 0
  ahead : List Pkt := []
  unacked : Nat := 0
  since : Nat := 0
  ce : Bool := false
deriving DecidableEq, Repr

/-- A flit kept in the retry buffer (R551): its SEQ, TYPE, VC and payload. -/
structure Flit where
  seq : Nat
  type : Nat
  vc : Nat
  payload : List Byte
deriving DecidableEq, Repr

/-- The link layer of a native sub-port (R549 to R551). -/
structure SubPort where
  txSeq : Nat := 0
  /-- SEQ of the last flit received in order. -/
  rxSeq : Nat := 4095
  retry : List Flit := []
  /-- Consecutive replays without progress; when ACK last progressed or the sender last replayed. -/
  replays : Nat := 0
  since : Nat := 0
  /-- Credits by VC; credits to return by VC. -/
  credits : List (Nat × Nat) := []
  freed : List (Nat × Nat) := []
  /-- Bytes of each VC's stream received and not yet a whole packet, and not yet sent. -/
  rxVc : List (Nat × List Byte) := []
  txVc : List (Nat × List Byte) := []
  /-- The partner's logical ID (R552). -/
  peerLog : Nat := 0
  /-- When the last timing flit was sent. -/
  timed : Nat := 0
deriving DecidableEq, Repr

/-- Heartbeats to a watched partner (R582, R583). -/
structure HbSt where
  plane : Nat
  logical : Nat
  /-- When the last heartbeat was sent, and whether it awaits an answer. -/
  last : Nat
  waiting : Bool := true
  misses : Nat := 0
deriving DecidableEq, Repr

/-- A line of a remote line buffer (R562): its package, address / 64, when it was filled, and its bytes. -/
structure RlbLine where
  plane : Nat
  dst : Nat
  line : Nat
  since : Nat
  bytes : List Byte
deriving DecidableEq, Repr

/-- A message of a collective from a member for a phase, as far as its packets have arrived. -/
structure CollMsg where
  phase : Nat
  rank : Nat
  len : Nat
  bytes : List Byte
deriving DecidableEq, Repr

/-- A reduction item that the engine offers to cells (R581): its number, its elements from `off` on, and where CTAKE put
it: physical cell and address of A. -/
structure CollItem where
  num : Nat
  off : Nat
  count : Nat
  taken : Option (Nat × Nat) := none
  result : Option (List Nat) := none
deriving DecidableEq, Repr

/-- A posted collective (R569 to R581): its command, plane, group and rank, digest and DELIVER cells; its phase, whether
it has begun and finished; its partials. -/
structure Coll where
  cmd : Nat
  plane : Nat
  group : List Nat
  rank : Nat
  digest : Nat
  cells : List Nat := []
  phase : Nat := 0
  begun : Bool := false
  /-- Every phase has finished; the outputs are still to be written. -/
  finished : Bool := false
  /-- FP32 partials, or elements of an exchange. -/
  vec : List Nat := []
  /-- Sparse entries: index and FP32 value (R576). -/
  sparse : List (Nat × Nat) := []
  /-- Blocks of an exchange it holds: source rank, destination rank and bytes. -/
  blocks : List (Nat × Nat × List Byte) := []
  msgs : List CollMsg := []
  items : Option (List CollItem) := none
deriving DecidableEq, Repr

/-- A forward record (R577): the collective's identifier and the rows received from each member (logical ID). -/
structure FwdRec where
  plane : Nat
  id : Nat
  rows : List (Nat × Nat × Nat)
deriving DecidableEq, Repr

/-- The Lanty fabric (15_fabric.md). Sub-ports are numbered 4 k + s. -/
structure FabSt where
  reqs : List TReq := []
  nextTid : Nat := 0
  conns : List Conn := []
  rconns : List RConn := []
  subs : List (Nat × SubPort) := []
  /-- The sub-port last chosen on a plane (R547). -/
  rr : List (Nat × Nat) := []
  /-- Packets received and not yet accepted: plane, whether by Ethernet and marked CE, and packet. -/
  rx : List (Nat × Bool × Bool × Pkt) := []
  /-- Accepted packets, by plane, in the order of acceptance. -/
  inq : List (Nat × Pkt) := []
  /-- What each sub-port has sent on its lanes: flits, or frames without their FCS. -/
  tx : List (Nat × List Byte) := []
  hb : List HbSt := []
  rlb : List RlbLine := []
  colls : List Coll := []
  fwd : List FwdRec := []
  nextItem : Nat := 1
deriving DecidableEq, Repr

/-- An arbiter instance (R594 to R599): round-robin pointers by class, counted grants of the window by requester, masked
requesters, when the window began, and the wait hints given: requester and cycles. -/
structure ArbSt where
  ptr : List (Nat × Nat) := []
  used : List (Nat × Nat) := []
  masked : List Nat := []
  since : Nat := 0
  hints : List (Nat × Nat) := []
deriving DecidableEq, Repr

/-- Power levels, temperatures and rails (R661, R662, R669, R682). -/
structure PwrSt where
  /-- Commanded level of a tensor die. -/
  level : List (Nat × Nat) := []
  /-- Dies leaving PARKED: die, elapsed time at which the command was applied, and the command. -/
  unpark : List (Nat × Nat × Nat) := []
  /-- Core rails in mV, by die; an unlisted rail is at 750. -/
  rails : List (Nat × Nat) := []
  /-- Elapsed time at which a rail was last raised in Day. -/
  raisedAt : List (Nat × Nat) := []
  /-- Dies with a timing-margin sample below SPARE_CTL.LOGIC_MARGIN since their rail was last set. -/
  lowMargin : List Nat := []
  /-- The level at which the custodian holds a tensor die to keep the package's power (R681). -/
  cap : List (Nat × Nat) := []
deriving DecidableEq, Repr

/-- What a requested attestation report is written for (R665): its nonce, and whether it goes to SEC_ATT_ADDR. -/
structure AttReq where
  nonce : List Byte
  toMem : Bool
deriving DecidableEq, Repr

/-- Power states, boot, management and attestation (18_boot_and_security.md). Buffers list the bytes written. -/
structure BootSt where
  staging : List (Nat × Byte) := []
  helper : List (Nat × Byte) := []
  /-- The helper data that the identity was derived from, and the public key. -/
  idHelper : List Byte := []
  idPub : Option (List Byte) := none
  /-- The image length of the command that started VERIFY, and whether it came by fabric boot. -/
  imageLen : Nat := 0
  fabricBoot : Bool := false
  /-- From the verified image: VERSION, the digest of manifest bytes 0 to 4,063, and components: type, offset, length, digest. -/
  version : Nat := 0
  manifest : List Byte := []
  comps : List (Nat × Nat × Nat × List Byte) := []
  /-- The report in the data window, and requests in order. -/
  report : List Byte := []
  atts : List AttReq := []
  leaseKey : Option (List Byte) := none
  lastCounter : Nat := 0
  /-- Remaining lease (2^-64 ns) at elapsed time leaseAt, the last grant, and whether LEASE_LOW was raised for it. -/
  lease : Nat := 0
  leaseAt : Nat := 0
  grant : Nat := 0
  lowTold : Bool := false
  /-- Elapsed time at which the host watchdog was last started. -/
  wdogAt : Nat := 0
  /-- Elapsed time at which a tensor die last saw ALIVE = 1, and at which HD last sent a heartbeat. -/
  aliveAt : List (Nat × Nat) := []
  beatAt : Nat := 0
  /-- Elapsed time at which Dusk began; what begun it (the cause that Dawn records); whether it ends in Night. -/
  duskAt : Nat := 0
  duskCause : Nat := 0
  duskNight : Bool := false
  /-- The pins READY and FAULT_N (asserted). -/
  ready : Bool := false
  fault : Bool := false
  /-- REFCLK100 is out of tolerance. -/
  refclkBad : Bool := false
  /-- PWRGOOD and RESET_N as seen: power good, and reset asserted. -/
  pwrGood : Bool := true
  resetN : Bool := false
  /-- Machine-level interrupts raised to host firmware by Dusk (R659). -/
  mInt : Nat := 0
  /-- VDD_AUX had not been off long enough before its ramp (R674). -/
  pufBad : Bool := false
  /-- Frames sent on the management Ethernet port, without their FCS (R652). -/
  ethTx : List (List Byte) := []
deriving DecidableEq, Repr

/-- A physical cell (R85): threads, tile registers, accumulators, scratchpad, and what belongs to them. -/
structure CellSt where
  threads : List (Nat × Thread) := []
  /-- Byte b of physical tile register r at 4096 r + b (R183). -/
  tiles : Ram := {}
  /-- Element (r, j) of accumulator a: four bytes at 4096 a + 128 r + 4 j (R111, R113). -/
  acc : Ram := {}
  spad : Ram := {}
  /-- Poisoned 64-bit words (R97): 3 * (byte address / 8) + 0 scratchpad, 1 tile registers, 2 accumulators. -/
  poison : List Nat := []
  /-- 8-bit occupancy maps of 512-byte scratchpad granules that do not read 0xFF (R200, R201). -/
  spadOcc : List (Nat × Nat) := []
  /-- Pending reads and writes of physical tile registers, as counts (R105). -/
  pendR : List (Nat × Nat) := []
  pendW : List (Nat × Nat) := []
  /-- Census counters of the beat: 4 * census index + 0 TOTAL, 1 OVERFLOW, 2 VANISHED, 3 NAN (R174, R176). -/
  census : List (Nat × Nat) := []
  /-- Accumulator tiles whose saturation flag was set during the beat (R177 ASAT_TILES). -/
  asatBeat : Nat := 0
  /-- NaN traps of the beat (R177 NAN_TRAPS). -/
  nanTraps : Nat := 0
  /-- Instruction-cache lines: line address (with the address-space slot at bit 64) and its 128 bytes (R119). -/
  icache : List (Nat × List Byte) := []
  ra : List RaEntry := []
  pf : List (Nat × PfBuf) := []
  /-- Mould attachments 0 to 3: mould and generation, and the scratchpad address of the entries (R333). -/
  att : List (Nat × (Nat × Nat × Nat)) := []
deriving DecidableEq, Repr

/-- Every unit's own state. -/
structure Units where
  links : List (Nat × LinkSt) := []
  time : TimeSt := {}
  beat : BeatSt := {}
  /-- Physical cells, by die * 168 + p; an unlisted cell is as after reset. -/
  cells : List (Nat × CellSt) := []
  ops : List MemOp := []
  /-- The next memory-operation id. -/
  nextOp : Nat := 0
  cmd : CmdSt := {}
  mem : MemSt := {}
  spare : SpareSt := {}
  coh : CohSt := {}
  xlat : XlatSt := {}
  route : RouteSt := {}
  ckpt : CkptSt := {}
  /-- DMA-class requests in flight on a tensor die (R265). -/
  dmaFly : List (Nat × Nat) := []
  /-- Moulds with an uncorrectable word (R320): die * 16 + mould. -/
  badMould : List Nat := []
  /-- Valid groups of the group stores, by 1024 * die + group (R473). -/
  groups : List (Nat × Group) := []
  ing : IngSt := {}
  fab : FabSt := {}
  /-- Arbiter instances, by die * 256 + i. -/
  arb : List (Nat × ArbSt) := []
  pwr : PwrSt := {}
  boot : BootSt := {}
  /-- Registers in force where a write takes effect at an edge or a window end: register key and value. A key not listed
  is in force as the register reads (R71, R180, R204, R308, R332, R351, R591, R598). -/
  force : List (Nat × Word) := []
  /-- Values returned by reads, oldest first. -/
  rdata : List Word := []
  /-- The next index of the free values (Config.freeBit, Config.freeWord): the model's own field. -/
  fresh : Nat := 0
  /-- The next epoch of undefined contents (Config.undefByte): the model's own field. -/
  epoch : Nat := 1
deriving DecidableEq, Repr

/-- The device: its register file (keys: die * 2^24 + offset), its memory (storage addresses, R36), and its units. -/
structure Dev where
  regs : List (Nat × Word) := []
  mem : List Host.Cell := []
  u : Units := {}
deriving DecidableEq, Repr

/-- The state: the device, and the commands that wait, first in first out. -/
structure State where
  dev : Dev
  pending : List Instr
deriving DecidableEq, Repr

/-- No command of this block ends in a fault: every exception of the spec is a state change (a trap, a status, an error
flag). The one constructor names the absence; no meaning raises it. Safe. -/
inductive Fault where
  | none_
deriving DecidableEq, Repr

/-- Why a command has no meaning. -/
inductive Refusal where
  /-- The command's meaning is not written: raised by its arm of exec alone. Safe. -/
  | notModelled (mnemonic : String)
deriving DecidableEq, Repr

/-- The package right after reset: Dawn, entered from Night (R10, R636); every register at its reset value, memory with
nothing listed, every unit idle, no command waiting. -/
def State.reset : State := { dev := {}, pending := [] }

end Sys2Proof.Machine
end

