-- ==== Sys2Proof/Machine/Ops.lean ====
section
/-! DEFINITION. The named operations over the register file, memory and the units, and transformers: changes of the
device built only from them. A transformer keeps the canonical form of the register file and of memory by construction. -/

namespace Sys2Proof.Machine

/-- HD's die index (R41). -/
abbrev HD : Nat := 4

/-! ## Reading the device -/

/-- The stored value of the register with key `k`. -/
def Dev.get (d : Dev) (k : Nat) : Word := tget resetOf d.regs k

/-- The stored value of register `r` of die `die`, instance (i, j). -/
def Dev.reg (d : Dev) (r : Reg) (die : Nat) (i j : Nat := 0) : Word := d.get (r.key die i j)

/-- Field `f` of register `r`. -/
def Dev.fld (d : Dev) (r : Reg) (f : Fld) (die : Nat) (i j : Nat := 0) : Nat := f.get (d.reg r die i j)

/-- Field `f` of register `r` as a flag. -/
def Dev.flag (d : Dev) (r : Reg) (f : Fld) (die : Nat) (i j : Nat := 0) : Bool := d.fld r f die i j == 1

/-- The value of register `r` in force: its own copy while a write waits for an edge, else the register (R71). -/
def Dev.inForce (d : Dev) (r : Reg) (die : Nat) (i j : Nat := 0) : Word :=
  agetD d.u.force (r.key die i j) (d.reg r die i j)

/-- Field `f` of register `r` in force. -/
def Dev.forceFld (d : Dev) (r : Reg) (f : Fld) (die : Nat) (i j : Nat := 0) : Nat := f.get (d.inForce r die i j)

/-- The byte at storage address `a` (R36). -/
def Dev.byte (d : Dev) (a : Nat) : Byte := tget memDflt d.mem a

/-! ## The invariant of the register file and of memory -/

/-- No reserved bit of a register is set (R9). -/
def reservedZero (t : List (Nat × Word)) : Bool := t.all fun e => e.2 &&& maskOf e.1 == e.2

/-- The canonical form of memory: addresses strictly rise, and no entry equals what an unlisted address reads as. -/
def Memory.wf (m : List Host.Cell) : Bool := tcanon memDflt m

/-- The register file is canonical and no reserved bit is set; memory is canonical. -/
def Dev.wf (d : Dev) : Bool := tcanon resetOf d.regs && reservedZero d.regs && Memory.wf d.mem

theorem tcanonFrom_weaken {β : Type} [DecidableEq β] (dflt : Nat → β) (t : List (Nat × β)) (a : Nat) (lo : Option Nat)
    (hlo : ∀ l, lo = some l → l < a) (h : tcanonFrom dflt (some a) t = true) : tcanonFrom dflt lo t = true := by
  cases t with
  | nil => rfl
  | cons e t =>
    obtain ⟨b, v⟩ := e
    simp only [tcanonFrom, Bool.and_eq_true, decide_eq_true_eq] at h ⊢
    refine ⟨⟨?_, h.1.2⟩, h.2⟩
    cases lo with
    | none => rfl
    | some l => have := hlo l rfl; simp only [decide_eq_true_eq]; omega

theorem tcanonFrom_erase {β : Type} [DecidableEq β] (dflt : Nat → β) (k : Nat) :
    ∀ (t : List (Nat × β)) (lo : Option Nat), tcanonFrom dflt lo t = true → tcanonFrom dflt lo (terase t k) = true := by
  intro t
  induction t with
  | nil => intro lo h; exact h
  | cons e t ih =>
    obtain ⟨a, b⟩ := e
    intro lo h
    simp only [tcanonFrom, Bool.and_eq_true] at h
    obtain ⟨⟨hlo, hne⟩, ht⟩ := h
    simp only [terase]
    split
    · refine tcanonFrom_weaken dflt _ a lo ?_ (ih _ ht)
      intro l hl
      subst hl
      simpa using hlo
    · simp only [tcanonFrom, Bool.and_eq_true]
      exact ⟨⟨hlo, hne⟩, ih _ ht⟩

theorem tcanonFrom_insert {β : Type} [DecidableEq β] (dflt : Nat → β) (k : Nat) (v : β) (hv : v ≠ dflt k) :
    ∀ (t : List (Nat × β)) (lo : Option Nat), (∀ l, lo = some l → l < k) → tcanonFrom dflt lo t = true →
      tcanonFrom dflt lo (tinsert t k v) = true := by
  intro t
  induction t with
  | nil =>
    intro lo hlo _
    cases lo with
    | none => simp [tinsert, tcanonFrom, hv]
    | some l => simp [tinsert, tcanonFrom, hv, hlo l rfl]
  | cons e t ih =>
    obtain ⟨a, b⟩ := e
    intro lo hlo h
    simp only [tcanonFrom, Bool.and_eq_true] at h
    obtain ⟨⟨h1, hne⟩, ht⟩ := h
    simp only [tinsert]
    split
    · rename_i hlt
      simp only [tcanonFrom, Bool.and_eq_true]
      refine ⟨⟨?_, by simpa using hv⟩, ⟨by simpa using hlt, hne⟩, ht⟩
      cases lo with
      | none => rfl
      | some l => simp [hlo l rfl]
    · split
      · rename_i _ heq
        subst heq
        simp only [tcanonFrom, Bool.and_eq_true]
        exact ⟨⟨h1, by simpa using hv⟩, ht⟩
      · rename_i hnl hne'
        simp only [tcanonFrom, Bool.and_eq_true]
        refine ⟨⟨h1, hne⟩, ih _ ?_ ht⟩
        intro l hl
        cases hl
        omega

/-- A write keeps the canonical form. -/
theorem tcanon_set {β : Type} [DecidableEq β] (dflt : Nat → β) (t : List (Nat × β)) (k : Nat) (v : β)
    (h : tcanon dflt t = true) : tcanon dflt (tset dflt t k v) = true := by
  unfold tset tcanon at *
  split
  · exact tcanonFrom_erase dflt k t none h
  · rename_i hv
    exact tcanonFrom_insert dflt k v hv t none (by simp) h

theorem mem_terase {β : Type} (t : List (Nat × β)) (k : Nat) (e : Nat × β) (h : e ∈ terase t k) : e ∈ t := by
  induction t with
  | nil => exact h
  | cons x t ih =>
    obtain ⟨a, b⟩ := x
    simp only [terase] at h
    split at h
    · exact List.mem_cons_of_mem _ (ih h)
    · rcases List.mem_cons.mp h with h | h
      · exact h ▸ List.mem_cons_self
      · exact List.mem_cons_of_mem _ (ih h)

theorem mem_tinsert {β : Type} (t : List (Nat × β)) (k : Nat) (v : β) (e : Nat × β) (h : e ∈ tinsert t k v) :
    e ∈ t ∨ e = (k, v) := by
  induction t with
  | nil => simpa [tinsert] using h
  | cons x t ih =>
    obtain ⟨a, b⟩ := x
    simp only [tinsert] at h
    split at h
    · rcases List.mem_cons.mp h with h | h
      · exact .inr h
      · exact .inl h
    · split at h
      · rcases List.mem_cons.mp h with h | h
        · exact .inr h
        · exact .inl (List.mem_cons_of_mem _ h)
      · rcases List.mem_cons.mp h with h | h
        · exact .inl (h ▸ List.mem_cons_self)
        · rcases ih h with h | h
          · exact .inl (List.mem_cons_of_mem _ h)
          · exact .inr h

theorem reservedZero_set (t : List (Nat × Word)) (k : Nat) (v : Word) (h : reservedZero t = true) :
    reservedZero (tset resetOf t k (v &&& maskOf k)) = true := by
  unfold reservedZero at *
  rw [List.all_eq_true] at *
  intro e he
  unfold tset at he
  split at he
  · exact h e (mem_terase _ _ _ he)
  · rcases mem_tinsert _ _ _ _ he with he | he
    · exact h e he
    · subst he
      simp [BitVec.and_assoc]

/-! ## Transformers -/

/-- A change of the device that keeps Dev.wf. Every meaning is one. -/
structure Tr where
  run : Dev → Dev
  keeps : ∀ d : Dev, d.wf = true → (run d).wf = true

/-- No change. -/
def Tr.skip : Tr := ⟨fun d => d, fun _ h => h⟩

/-- `a`, then `b`. -/
def Tr.andThen (a b : Tr) : Tr := ⟨fun d => b.run (a.run d), fun d h => b.keeps _ (a.keeps d h)⟩

/-- One after another. -/
def Tr.seq : List Tr → Tr
  | [] => .skip
  | t :: ts => t.andThen (Tr.seq ts)

/-- A transformer that depends on the device it starts from. -/
def Tr.read (f : Dev → Tr) : Tr := ⟨fun d => (f d).run d, fun d h => (f d).keeps d h⟩

/-- `t` where `b`. -/
def Tr.when (b : Bool) (t : Tr) : Tr := if b then t else .skip

/-- `f x` for each `x` of a list in order. -/
def Tr.each {α : Type} (l : List α) (f : α → Tr) : Tr := .seq (l.map f)

/-- `f x` for the value an option holds. -/
def Tr.opt {α : Type} (o : Option α) (f : α → Tr) : Tr :=
  match o with
  | some x => f x
  | none => .skip

/-- Register `k` := v; reserved bits stay zero (R9). -/
def Tr.setKey (k : Nat) (v : Word) : Tr where
  run d := { d with regs := tset resetOf d.regs k (v &&& maskOf k) }
  keeps d h := by
    simp only [Dev.wf, Bool.and_eq_true] at h ⊢
    exact ⟨⟨tcanon_set _ _ _ _ h.1.1, reservedZero_set _ _ _ h.1.2⟩, h.2⟩

/-- The byte at storage address `a` := b. -/
def Tr.byte (a : Nat) (b : Byte) : Tr where
  run d := { d with mem := tset memDflt d.mem a b }
  keeps d h := by
    simp only [Dev.wf, Bool.and_eq_true, Memory.wf] at h ⊢
    exact ⟨h.1, tcanon_set _ _ _ _ h.2⟩

/-- A change of the units. -/
def Tr.units (f : Units → Units) : Tr where
  run d := { d with u := f d.u }
  keeps _ h := h

/-- All registers whose key satisfies `p` take their reset values (R10). -/
def Tr.resetRegs (p : Nat → Bool) : Tr :=
  .read fun d => .each (d.regs.filterMap fun e => if p e.1 then some e.1 else none) fun k => .setKey k (resetOf k)

/-- Register `r` of die `die`, instance (i, j) := v. -/
def Tr.reg (r : Reg) (die : Nat) (v : Word) (i j : Nat := 0) : Tr := .setKey (r.key die i j) v

/-- Field `f` of register `r` := x. -/
def Tr.fld (r : Reg) (f : Fld) (die : Nat) (x : Nat) (i j : Nat := 0) : Tr :=
  .read fun d => .reg r die (f.put (d.reg r die i j) x) i j

/-- A saturating counter field of register `r` grows by `n`. -/
def Tr.count (r : Reg) (f : Fld) (die : Nat) (n : Nat) (i j : Nat := 0) : Tr :=
  if n = 0 then .skip else .read fun d => .fld r f die (satAdd f.w (d.fld r f die i j) n) i j

/-- A 48-bit counter grows by `n`. -/
def Tr.bump (r : Reg) (die : Nat) (n : Nat := 1) (i j : Nat := 0) : Tr := .count r COUNT die n i j

/-- A write of `v` to a register by the access codes of its fields (R8). -/
def Tr.writeReg (r : Reg) (die : Nat) (v : Word) (i j : Nat := 0) : Tr :=
  .read fun d => .reg r die (r.write (d.reg r die i j) v) i j

/-- As `Tr.writeReg`, for a register whose write takes effect at an edge: what was in force stays in force (R71). -/
def Tr.writeStaged (r : Reg) (die : Nat) (v : Word) (i j : Nat := 0) : Tr :=
  .read fun d =>
    let k := r.key die i j
    .seq [.units fun u => { u with force := tinsert u.force k (d.inForce r die i j) }, .writeReg r die v i j]

/-- The write of register `r` takes effect: the register itself is in force. -/
def Tr.takeEffect (r : Reg) (die : Nat) (i j : Nat := 0) : Tr :=
  .units fun u => { u with force := terase u.force (r.key die i j) }

/-- Bytes at consecutive storage addresses. -/
def Tr.bytes : Nat → List Byte → Tr
  | _, [] => .skip
  | a, b :: bs => (Tr.byte a b).andThen (Tr.bytes (a + 1) bs)

/-- A read's answer. -/
def Tr.answer (v : Word) : Tr := .units fun u => { u with rdata := u.rdata ++ [v] }

/-- The next free index, consumed (Config.freeBit, Config.freeWord). -/
def Tr.fresh (f : Nat → Tr) : Tr :=
  .read fun d => .seq [.units fun u => { u with fresh := u.fresh + 1 }, f d.u.fresh]

/-- The next epoch of undefined contents, consumed (Config.undefByte). -/
def Tr.epoch (f : Nat → Tr) : Tr :=
  .read fun d => .seq [.units fun u => { u with epoch := u.epoch + 1 }, f d.u.epoch]

/-- A command's meaning from its transformer: the next state, with the queue as it is. -/
def run (t : Tr) (s : State) : Host.Outcome State Fault Refusal := .next { s with dev := t.run s.dev }

/-! ## Time -/

/-- One nanosecond in the units of device time (2^-64 ns). -/
def oneNs : Nat := 2 ^ 64
/-- One microsecond. -/
def oneUs : Nat := 1000 * oneNs
/-- One millisecond. -/
def oneMs : Nat := 1000 * oneUs
/-- One second. -/
def oneSec : Nat := 1000 * oneMs
/-- Device time in whole nanoseconds (R46). -/
def Dev.nowNs (d : Dev) : Nat := d.u.time.now / oneNs
/-- The 16-bit fraction of a nanosecond (R48). -/
def Dev.nowFrac (d : Dev) : Nat := (d.u.time.now % oneNs) / 2 ^ 48
/-- Elapsed time (R50). -/
def Dev.elapsed (d : Dev) : Nat := d.u.time.elapsed
/-- The time of `n` cell cycles of 940 MHz, and of NoC cycles of 1,880 MHz. -/
def cyclesTime (n : Nat) : Nat := n * oneUs / 940

/-- BEAT_STATUS.RUNNING. -/
def Dev.running (d : Dev) : Bool := d.flag BEAT_STATUS BEAT_STATUS_RUNNING HD
/-- BEAT_CTL.RUN. -/
def Dev.runBit (d : Dev) : Bool := d.flag BEAT_CTL BEAT_CTL_RUN HD
/-- The package beat index B (R65). -/
def Dev.beatIdx (d : Dev) : Nat := (d.reg BEAT_INDEX HD).toNat
/-- The beat period in the units of device time (R63). -/
def Dev.period (d : Dev) : Nat := d.fld BEAT_PERIOD BEAT_PERIOD_PERIOD_US HD * oneUs
/-- BEAT_ORIGIN in the units of device time (R63). -/
def Dev.origin (d : Dev) : Nat := (d.reg BEAT_ORIGIN HD).toNat * oneNs
/-- The wall beat index W at device time `t` (R64); 0 before the origin. -/
def Dev.wallAt (d : Dev) (t : Nat) : Nat := if d.period = 0 then 0 else (t - d.origin) / d.period
/-- The wall beat index W now. -/
def Dev.wall (d : Dev) : Nat := d.wallAt d.u.time.now

/-- BEAT_INDEX and every die's copy of it (R65, R84). -/
def Tr.setBeat (b : Nat) : Tr := .each allDies fun die => .reg BEAT_INDEX die (w64 b)

/-! ## Capability features (R24, R25) -/

/-- Whether package feature bit `b` (64 to 95) is set in the effective capability word. -/
def Dev.pkgFeature (d : Dev) (b : Nat) : Bool := (d.reg BOOT_CAP_EFF_HI HD).toNat.testBit (b - 64)
/-- Whether die feature bit `b` (112 to 127) is set in a die's capability word. -/
def Dev.dieFeature (d : Dev) (die b : Nat) : Bool := (d.reg BOOT_CAP_SELF_HI die).toNat.testBit (b - 64)

/-! ## Status codes (R460) -/

/-- OK. -/
abbrev stOK : Nat := 0x0000
/-- SUPERSEDED. -/
abbrev stSUPERSEDED : Nat := 0x0001
/-- BUSY_DEFERRED. -/
abbrev stBUSY_DEFERRED : Nat := 0x0002
/-- CAPABILITY_ABSENT. -/
abbrev stCAPABILITY_ABSENT : Nat := 0x0003
/-- MALFORMED. -/
abbrev stMALFORMED : Nat := 0x0004
/-- TRANSLATION_ABORT. -/
abbrev stTRANSLATION_ABORT : Nat := 0x0010
/-- FAULTQ_OVERFLOW. -/
abbrev stFAULTQ_OVERFLOW : Nat := 0x0011
/-- MEM_UNCORRECTABLE. -/
abbrev stMEM_UNCORRECTABLE : Nat := 0x0020
/-- POISON_CONSUMED. -/
abbrev stPOISON_CONSUMED : Nat := 0x0021
/-- TIER_TIMEOUT. -/
abbrev stTIER_TIMEOUT : Nat := 0x0022
/-- VQ_LENGTH_LONG. -/
abbrev stVQ_LENGTH_LONG : Nat := 0x0030
/-- VQ_LENGTH_SHORT. -/
abbrev stVQ_LENGTH_SHORT : Nat := 0x0031
/-- CODEBOOK_RETIRED. -/
abbrev stCODEBOOK_RETIRED : Nat := 0x0032
/-- DIM_LIMIT. -/
abbrev stDIM_LIMIT : Nat := 0x0040
/-- DECODE_TIMEOUT. -/
abbrev stDECODE_TIMEOUT : Nat := 0x0041
/-- DECODE_CORRUPT. -/
abbrev stDECODE_CORRUPT : Nat := 0x0042
/-- LINK_LOST. -/
abbrev stLINK_LOST : Nat := 0x0050
/-- HOST_LOST. -/
abbrev stHOST_LOST : Nat := 0x0051
/-- PARTNER_LOST. -/
abbrev stPARTNER_LOST : Nat := 0x0052
/-- SLIP_LIMIT. -/
abbrev stSLIP_LIMIT : Nat := 0x0060
/-- NAN_TRAP. -/
abbrev stNAN_TRAP : Nat := 0x0070
/-- STEP_SKIPPED_NONFINITE. -/
abbrev stSTEP_SKIPPED_NONFINITE : Nat := 0x0071

end Sys2Proof.Machine
end

