-- ==== Sys2Proof/Machine/Arbiter.lean ====
section
/-! DEFINITION. The shared arbiter (R588 to R601). -/

namespace Sys2Proof.Machine

/-- An arbiter instance of a die. -/
def Dev.arb (d : Dev) (die i : Nat) : ArbSt := agetD d.u.arb (die * 256 + i) {}
/-- A change of an arbiter instance, with its status register (R602). -/
def Tr.onArb (die i : Nat) (f : ArbSt → ArbSt) : Tr :=
  .seq [
    .units fun u => { u with arb := aupd u.arb (die * 256 + i) {} f },
    .read fun d => .fld ARB_STATUS ARB_STATUS_MASKED die (d.arb die i).masked.length i]

/-- The class of a requester in force (R591). -/
def Dev.arbClass (d : Dev) (die i r : Nat) : Nat := d.forceFld ARB_CLASS ARB_CLASS_CLASS die i r
/-- The quota of a class; classes 2 and 3 have none (R596). -/
def Dev.arbQuota (d : Dev) (die i c : Nat) : Option Nat :=
  if c = 0 then some (d.forceFld ARB_CFG ARB_CFG_QUOTA0 die i) else if c = 1 then some (d.forceFld ARB_CFG ARB_CFG_QUOTA1 die i) else none

/-- The first of some requesters after a pointer, in ascending order, wrapping. -/
def firstAfter (ptr : Nat) (rs : List Nat) : Option Nat :=
  match rs.find? (ptr < ·) with
  | some r => some r
  | none => rs.head?

/-- The round-robin pointer of a class; at first every requester lies after it (log 37). -/
def ArbSt.ptrOf (a : ArbSt) (c : Nat) : Nat := agetD a.ptr c 31

/-- The winner of a choice and whether it is aged (R594), among eligible requesters in ascending order. -/
def Dev.arbWinner (d : Dev) (die i : Nat) (e : List ArbReq) : Option (Nat × Bool) :=
  let a := d.arb die i
  let aged := e.filter fun q => d.forceFld ARB_CTL ARB_CTL_AGE die i * 64 ≤ q.wait
  match aged with
  | q :: qs => some ((qs.foldl (fun (b : ArbReq) x => if b.wait < x.wait then x else b) q).r.val, true)
  | [] =>
    let rs := e.map (·.r.val)
    let u := rs.filter fun r => !a.masked.contains r
    let u := if u.isEmpty && d.forceFld ARB_CFG ARB_CFG_CONSERVE die i = 1 then rs else u
    let c := u.foldl (fun m r => min m (d.arbClass die i r)) 3
    (firstAfter (a.ptrOf c) (u.filter fun r => d.arbClass die i r = c)).map fun w => (w, false)

/-- The wait hint of a head that has lost its first choice to `w` (R599), saturating at 4,095. -/
def Dev.arbHint (d : Dev) (die i : Nat) (e : List ArbReq) (w : ArbReq) (q : ArbReq) : Nat :=
  let a := d.arb die i
  let c := d.arbClass die i q.r.val
  let ahead := e.foldl (fun n x =>
    let cx := d.arbClass die i x.r.val
    if a.masked.contains x.r.val || c ≤ cx then n
    else
      let left := x.queued - b01 (decide (x.r = w.r))
      let room := match d.arbQuota die i cx with | some k => k - agetD a.used x.r.val 0 | none => left
      n + min left room * x.service) 0
  let p := a.ptrOf c
  let place := fun (r : Nat) => (r + 63 - p) % 32
  let same := e.foldl (fun n x =>
    if d.arbClass die i x.r.val = c && x.r ≠ w.r && place x.r.val < place q.r.val then n + x.service else n) 0
  min 4095 (w.service + ahead + same)

/-- ARBITER_GRANT: a choice among the requesters whose heads are eligible (R592 to R601). -/
def arbiterGrantTr (die : Die) (inst : BitVec 8) (heads : List ArbReq) : Tr :=
  .read fun d =>
    let i := inst.toNat
    let t := die.val
    let e := (List.range (arbRequesters t i)).filterMap fun r => heads.find? (·.r.val = r)
    match d.arbWinner t i e with
    | none => .fld ARB_STATUS ARB_STATUS_ELIGIBLE t e.length i
    | some (w, aged) => .opt (e.find? (·.r.val = w)) fun q =>
      let c := d.arbClass t i w
      .seq [
        .fld ARB_STATUS ARB_STATUS_ELIGIBLE t e.length i,
        .when aged (.bump ARB_AGED t 1 i),
        .when (!aged) (.onArb t i fun a =>
          let a := { a with ptr := tinsert a.ptr c w }
          match d.arbQuota t i c with
          | none => a
          | some k =>
            let n := agetD a.used w 0 + 1
            { a with used := tinsert a.used w n, masked := if n = k then w :: a.masked else a.masked }),
        .bump ARB_GRANTS t 1 i w, .bump ARB_WAIT t q.wait i w,
        .fld ARB_MAXWAIT COUNT t (max (d.fld ARB_MAXWAIT COUNT t i w) q.wait) i w,
        .read fun d => .when (d.flag ARB_CTL ARB_CTL_HINT_EN t i) (.onArb t i fun a =>
          { a with hints := a.hints ++ (e.filter fun x => x.first && x.r ≠ q.r).map fun x => (x.r.val, d.arbHint t i e q x) })]
/-- ARBITER_GRANT. -/
def execArbiterGrant (die : Die) (inst : BitVec 8) (heads : List ArbReq) (s : State) := run (arbiterGrantTr die inst heads) s

/-- ARB_WINDOW_END (R591, R596, R598, R601): the window's cycles have passed. -/
def arbWindowEndTr (die : Die) (inst : BitVec 8) : Tr :=
  .read fun d =>
    let i := inst.toNat
    let t := die.val
    let len := d.forceFld ARB_CFG ARB_CFG_WINDOW t i * oneUs / 1880
    .when (0 < arbRequesters t i && (d.arb t i).since + len ≤ d.elapsed) (.seq [
      .onArb t i fun a => { a with used := [], masked := [], since := a.since + len },
      .takeEffect ARB_CFG t i, .takeEffect ARB_CTL t i,
      .each (List.range (arbRequesters t i)) fun r => .takeEffect ARB_CLASS t i r,
      .when (d.flag ARB_CTL ARB_CTL_MAX_CLR t i) (.seq [
        .each (List.range (arbRequesters t i)) fun r => .reg ARB_MAXWAIT t 0 i r, .fld ARB_CTL ARB_CTL_MAX_CLR t 0 i])])
/-- ARB_WINDOW_END. -/
def execArbWindowEnd (die : Die) (inst : BitVec 8) (s : State) := run (arbWindowEndTr die inst) s

/-- A write of ARB_CTL: AGE, of which a write of 0 is discarded, waits for the window end; the other fields act at once. -/
def Tr.arbCtlWrite (die i : Nat) (v : Word) : Tr :=
  .read fun d =>
    let age := ARB_CTL_AGE.get v
    .when (0 < arbRequesters die i) (.seq [
      .writeStaged ARB_CTL die v i,
      .when (age = 0) (.fld ARB_CTL ARB_CTL_AGE die (d.fld ARB_CTL ARB_CTL_AGE die i) i)])

/-- ARB_MAX_CLR (R601): a write of ARB_CTL that asks for it. -/
def execArbMaxClr (die : Die) (inst : BitVec 8) (v : Word) (s : State) :=
  run (.when (bitOf v.toNat 17) (.arbCtlWrite die.val inst.toNat v)) s

end Sys2Proof.Machine
end

