-- ==== Sys2Proof/Machine/Numerics.lean ====
section
/-! DEFINITION. Number formats and arithmetic (04_numerics.md): the element formats, exact values, the one rounding of
R153, overflow and underflow, microscaled blocks, the k-group of the matrix unit, and the stochastic-rounding generator. -/

namespace Sys2Proof.Machine

/-- An exact number as the device reads it: NaN, an infinity, or a finite signed magnitude (a zero keeps its sign). -/
inductive Val where
  | nan
  | inf (neg : Bool)
  | fin (neg : Bool) (mag : Rat)
deriving DecidableEq, Repr

/-- Which encodings of a float format are not finite (R142). -/
inductive Specials where
  | ieee   -- exponent all ones: infinity and NaN
  | e4m3   -- 0x7F and 0xFF are NaN, no infinity
  | finite -- neither
deriving DecidableEq, Repr

/-- An element format (R142): a float of `eb` exponent and `mb` mantissa bits, or a two's complement integer of `w` bits
whose unit is 2^-frac. -/
inductive Elem where
  | flt (eb mb bias : Nat) (sp : Specials)
  | int (w frac : Nat)
deriving DecidableEq, Repr

/-- FP32 (R142). -/
def fp32 : Elem := .flt 8 23 127 .ieee
/-- FP16 (R142). -/
def fp16 : Elem := .flt 5 10 15 .ieee
/-- BF16 (R142). -/
def bf16 : Elem := .flt 8 7 127 .ieee
/-- FP8 E4M3 (R142). -/
def e4m3 : Elem := .flt 4 3 7 .e4m3
/-- FP8 E5M2 (R142). -/
def e5m2 : Elem := .flt 5 2 15 .ieee
/-- E2M3 (R142). -/
def e2m3 : Elem := .flt 2 3 1 .finite
/-- E3M2 (R142). -/
def e3m2 : Elem := .flt 3 2 3 .finite
/-- E2M1 (R142). -/
def e2m1 : Elem := .flt 2 1 1 .finite

/-- The element format of a format code (R144); codes 0xE and 0xF are reserved. -/
def fmtElem : Nat → Option Elem
  | 0 => some fp32 | 1 => some fp16 | 2 => some bf16 | 3 => some e4m3 | 4 => some e5m2
  | 5 => some e4m3 | 6 => some e5m2 | 7 => some e2m3 | 8 => some e3m2 | 9 => some e2m1
  | 10 => some (.int 8 6) | 11 => some (.int 8 0) | 12 => some (.int 4 0) | 13 => some (.int 32 0)
  | _ => none

/-- Whether a format code names a microscaled format (R144). -/
def fmtIsMx (c : Nat) : Bool := 5 ≤ c && c ≤ 10

/-- Whether a format code names an integer format (R144). -/
def fmtIsInt (c : Nat) : Bool := c = 11 || c = 12 || c = 13

/-- The census index of a format code (R144). -/
def censusIndex (c : Nat) : Nat :=
  [0, 1, 2, 3, 4, 5, 5, 6, 6, 7, 8, 9, 10, 9].getD c 0

/-- The bits an element takes (R142, R143). -/
def Elem.bits : Elem → Nat
  | .flt eb mb _ _ => 1 + eb + mb
  | .int w _ => w

/-- The bits of an element of a format code. -/
def fmtBits (c : Nat) : Nat := match fmtElem c with | some e => e.bits | none => 8

/-- 2 to a signed power. -/
def pow2 (e : Int) : Rat := if 0 ≤ e then ((2 ^ e.toNat : Nat) : Rat) else mkRat 1 (2 ^ (-e).toNat)

/-- floor(log2 a) of a positive rational. -/
def floorLog2 (a : Rat) : Int :=
  let e : Int := (Nat.log2 a.num.toNat : Int) - (Nat.log2 a.den : Int)
  if pow2 e ≤ a then e else e - 1

/-- ceil(log2 a) of a positive rational. -/
def ceilLog2 (a : Rat) : Int :=
  let e := floorLog2 a
  if pow2 e = a then e else e + 1

/-- The value an encoding stands for (R142). Subnormals are exact. -/
def Elem.decode (f : Elem) (b : Nat) : Val :=
  match f with
  | .flt eb mb bias sp =>
    let s := b.testBit (eb + mb)
    let e := bitsOf b mb eb
    let m := bitsOf b 0 mb
    let top := e = 2 ^ eb - 1
    if sp = .ieee ∧ top then (if m = 0 then .inf s else .nan)
    else if sp = .e4m3 ∧ top ∧ m = 2 ^ mb - 1 then .nan
    else if e = 0 then .fin s ((m : Rat) * pow2 (1 - (bias : Int) - mb))
    else .fin s (((2 ^ mb + m : Nat) : Rat) * pow2 ((e : Int) - bias - mb))
  | .int w frac =>
    let z := signed w b
    .fin (z < 0) ((z.natAbs : Rat) * pow2 (-(frac : Int)))

/-- The largest finite magnitude of a format (R142). For an integer format, the largest positive value. -/
def Elem.maxFin : Elem → Rat
  | .flt eb mb bias .ieee => ((2 ^ (mb + 1) - 1 : Nat) : Rat) * pow2 ((2 ^ eb : Int) - 2 - bias - mb)
  | .flt eb mb bias .e4m3 => ((2 ^ (mb + 1) - 2 : Nat) : Rat) * pow2 ((2 ^ eb : Int) - 1 - bias - mb)
  | .flt eb mb bias .finite => ((2 ^ (mb + 1) - 1 : Nat) : Rat) * pow2 ((2 ^ eb : Int) - 1 - bias - mb)
  | .int w frac => ((2 ^ (w - 1) - 1 : Nat) : Rat) * pow2 (-(frac : Int))

/-- The exponent of the largest normal value of an MX element format (R147). -/
def Elem.emax : Elem → Int
  | .int _ _ => 0
  | f => floorLog2 f.maxFin

/-- The encoding of a magnitude that the float format represents exactly. -/
def encodeMag (eb mb bias : Nat) (neg : Bool) (a : Rat) : Nat :=
  let s := b01 neg * 2 ^ (eb + mb)
  if a = 0 then s
  else
    let e := floorLog2 a
    if e < 1 - (bias : Int) then s + (a / pow2 (1 - (bias : Int) - mb)).floor.toNat
    else s + (e + bias).toNat * 2 ^ mb + ((a / pow2 (e - mb)).floor.toNat - 2 ^ mb)

/-- The canonical NaN of a format (R167); a format without NaN has none, and 0 stands there. -/
def Elem.nanBits : Elem → Nat
  | .flt eb mb _ .ieee => (2 ^ eb - 1) * 2 ^ mb + 2 ^ (mb - 1)
  | .flt eb mb _ .e4m3 => 2 ^ (eb + mb) - 1
  | _ => 0

/-- The rounding modes of FPCTL.RMODE (R169). -/
inductive RMode where
  | rne | rtz | sr | rto
deriving DecidableEq, Repr

/-- RMODE as coded in R169. -/
def RMode.ofCode (c : Nat) : RMode := match c % 4 with | 0 => .rne | 1 => .rtz | 2 => .sr | _ => .rto

/-- The kept significand of R153: `x = a / q` rounded to a natural number in a mode, with the 16 random bits of R154. -/
def roundSig (mode : RMode) (rand16 : Nat) (x : Rat) : Nat :=
  let n := x.floor.toNat
  let f := x - (n : Rat)
  if f = 0 then n
  else match mode with
    | .rtz => n
    | .rne => if f > 1 / 2 ∨ (f = 1 / 2 ∧ n % 2 = 1) then n + 1 else n
    | .sr => if (f * 65536).floor.toNat + rand16 ≥ 65536 then n + 1 else n
    | .rto => if n % 2 = 0 then n + 1 else n

/-- round_to of R153 on a positive magnitude: mantissa width `p`, smallest normal exponent `emin`. -/
def roundTo (mode : RMode) (rand16 : Nat) (p : Nat) (emin : Int) (a : Rat) : Rat :=
  if a = 0 then 0
  else
    let e := max (floorLog2 a) emin
    let q := pow2 (e - p)
    (roundSig mode rand16 (a / q) : Rat) * q

/-- The numeric controls of a rounding: FPCTL.OVF, FTZ and MXSCALE (R169) and the rounding mode (R150). -/
structure NumCtl where
  mode : RMode
  ovf : Bool
  ftz : Bool
  mxFit : Bool
deriving DecidableEq, Repr

/-- One written element: its encoding and the census events it meets (R174). `isNan`: the encoding is a NaN, or a NaN
was converted to an integer. -/
structure Elt where
  bits : Nat
  ovfl : Bool := false
  van : Bool := false
  isNan : Bool := false
deriving DecidableEq, Repr

/-- The largest finite encoding of a sign. -/
def Elem.maxBits (f : Elem) (neg : Bool) : Nat :=
  match f with
  | .flt eb mb bias _ => encodeMag eb mb bias neg f.maxFin
  | .int w _ => if neg then 2 ^ (w - 1) else 2 ^ (w - 1) - 1

/-- The encoding of an infinity of a sign in a format that has one (R142). -/
def infBits (eb mb : Nat) (neg : Bool) : Nat := b01 neg * 2 ^ (eb + mb) + (2 ^ eb - 1) * 2 ^ mb

/-- Narrowing (R148): the rounding of R153, then the overflow rule of R151, then the underflow rule of R152. -/
def Elem.narrow (f : Elem) (k : NumCtl) (rand16 : Nat) (x : Val) : Elt :=
  match f with
  | .flt eb mb bias sp =>
    match x with
    | .nan =>
      match sp with
      | .finite => { bits := 0, isNan := true }
      | _ => { bits := f.nanBits, isNan := true }
    | .inf s =>
      match sp with
      | .ieee => { bits := infBits eb mb s }
      | .e4m3 => { bits := f.nanBits, isNan := true }
      | .finite => { bits := f.maxBits s, ovfl := true }
    | .fin s a =>
      if a = 0 then { bits := encodeMag eb mb bias s 0 }
      else
        let emin : Int := 1 - (bias : Int)
        let r := roundTo k.mode rand16 mb emin a
        if r > f.maxFin then
          if k.ovf && (k.mode = .rne || k.mode = .sr) then
            match sp with
            | .ieee => { bits := infBits eb mb s, ovfl := true }
            | .e4m3 => { bits := f.nanBits, ovfl := true, isNan := true }
            | .finite => { bits := f.maxBits s, ovfl := true }
          else { bits := f.maxBits s, ovfl := true }
        else if r = 0 || (k.ftz && r < pow2 emin) then
          { bits := encodeMag eb mb bias s 0, van := true }
        else { bits := encodeMag eb mb bias s r }
  | .int w frac =>
    match x with
    | .nan => { bits := 0, isNan := true }
    | .inf s => { bits := f.maxBits s, ovfl := true }
    | .fin s a =>
      let n := roundSig k.mode rand16 (a * pow2 frac)
      let lim := if s then 2 ^ (w - 1) else 2 ^ (w - 1) - 1
      if n > lim then { bits := f.maxBits s, ovfl := true }
      else { bits := unsigned w (if s then -(n : Int) else (n : Int)), van := n = 0 && a ≠ 0 }

/-- Whether an element encoding is a zero (either sign); for MXINT8 the byte 0x00 (R146). -/
def Elem.isZero (f : Elem) (b : Nat) : Bool :=
  match f with
  | .flt eb mb _ _ => bitsOf b 0 (eb + mb) = 0
  | .int w _ => bitsOf b 0 w = 0

/-- A value times a power of two. -/
def Val.scale (v : Val) (e : Int) : Val :=
  match v with
  | .fin s a => .fin s (a * pow2 e)
  | v => v

/-- Whether a value is NaN. -/
def Val.isNan : Val → Bool
  | .nan => true
  | _ => false

/-- Whether a value is finite. -/
def Val.isFin : Val → Bool
  | .fin _ _ => true
  | _ => false

/-- The magnitude of a finite value; 0 otherwise. -/
def Val.mag : Val → Rat
  | .fin _ a => a
  | _ => 0

/-- The signed rational of a finite value; 0 otherwise. -/
def Val.rat : Val → Rat
  | .fin s a => if s then -a else a
  | _ => 0

/-- An exact rational as a value; zero is +0. -/
def Val.ofRat (q : Rat) : Val := .fin (q < 0) (if q < 0 then -q else q)

/-- Reading a microscaled block (R146): the all-zero test comes first. -/
def mxRead (f : Elem) (sc : Nat) (es : List Nat) : List Val :=
  if es.all f.isZero then es.map fun _ => .fin false 0
  else if sc = 0xFF then es.map fun _ => .nan
  else es.map fun e => (f.decode e).scale ((sc : Int) - 127)

/-- A written block: its scale and its elements (R147). -/
structure MxBlock where
  sc : Nat
  es : List Elt
deriving DecidableEq, Repr

/-- Writing a microscaled block (R147). `rand i` are the random bits of element `i`. A block with a NaN or an infinity is
a block of NaNs. `pass` is the first step of a two-step narrowing (R155): the scale is formed from the values before it. -/
def mxWrite2 (f : Elem) (k : NumCtl) (rand : Nat → Nat) (pass : Val → Val) (xs : List Val) : MxBlock :=
  if xs.any fun x => !x.isFin then { sc := 0xFF, es := xs.map fun _ => { bits := 0, isNan := true } }
  else
    let m := xs.foldl (fun m x => max m x.mag) 0
    let e : Int :=
      if m = 0 then -127
      else if k.mxFit then ceilLog2 (m / f.maxFin)
      else floorLog2 m - f.emax
    let e := max (-127) (min 127 e)
    let es := xs.zipIdx.map fun (x, i) => f.narrow k (rand i) ((pass x).scale (-e))
    if es.all fun y => f.isZero y.bits then { sc := 0, es := es.map fun y => { y with bits := 0 } }
    else { sc := (e + 127).toNat, es := es }

/-- Writing a microscaled block in one step (R147). -/
def mxWrite (f : Elem) (k : NumCtl) (rand : Nat → Nat) (xs : List Val) : MxBlock := mxWrite2 f k rand id xs

/-- mix64 of R154. -/
def mix64 (z0 : Nat) : Nat :=
  let z1 := ((z0 ^^^ (z0 >>> 30)) * 0xBF58476D1CE4E5B9) % 2 ^ 64
  let z2 := ((z1 ^^^ (z1 >>> 27)) * 0x94D049BB133111EB) % 2 ^ 64
  z2 ^^^ (z2 >>> 31)

/-- The increment G of R154. -/
def srG : Nat := 0x9E3779B97F4A7C15

/-- rand16 of the element at position `i` for generator state `s` (R154). -/
def rand16 (s i : Nat) : Nat := bitsOf (mix64 ((s + (i + 1) * srG) % 2 ^ 64)) 48 16

/-- Exact sum of two values (R153: an exact zero sum is +0 unless both are zeros of one sign; R168: infinity minus
infinity is NaN). -/
def Val.add : Val → Val → Val
  | .nan, _ => .nan
  | _, .nan => .nan
  | .inf a, .inf b => if a = b then .inf a else .nan
  | .inf a, _ => .inf a
  | _, .inf b => .inf b
  | .fin sa a, .fin sb b =>
    let q := (if sa then -a else a) + (if sb then -b else b)
    if q = 0 then (if a = 0 ∧ b = 0 ∧ sa = sb then .fin sa 0 else .fin false 0)
    else .ofRat q

/-- Negation. -/
def Val.neg : Val → Val
  | .nan => .nan
  | .inf a => .inf (!a)
  | .fin s a => .fin (!s) a

/-- Absolute value. -/
def Val.abs : Val → Val
  | .nan => .nan
  | .inf _ => .inf false
  | .fin _ a => .fin false a

/-- Exact product (R153 for the sign of a zero, R168: zero times infinity is NaN). -/
def Val.mul : Val → Val → Val
  | .nan, _ => .nan
  | _, .nan => .nan
  | .inf a, .inf b => .inf (a != b)
  | .inf a, .fin s m => if m = 0 then .nan else .inf (a != s)
  | .fin s m, .inf b => if m = 0 then .nan else .inf (s != b)
  | .fin sa a, .fin sb b => .fin (sa != sb) (a * b)

/-- Strict order of two non-NaN values; −0 and +0 are equal here (comparisons, R210). -/
def Val.lt : Val → Val → Bool
  | .nan, _ => false
  | _, .nan => false
  | .inf a, .inf b => a && !b
  | .inf a, .fin _ _ => a
  | .fin _ _, .inf b => !b
  | x, y => x.rat < y.rat

/-- Equality of two non-NaN values; −0 equals +0. -/
def Val.eqv : Val → Val → Bool
  | .nan, _ => false
  | _, .nan => false
  | .inf a, .inf b => a = b
  | .fin sa a, .fin sb b => (if sa then -a else a) = (if sb then -b else b)
  | _, _ => false

/-- Maximum: NaN with a NaN operand; −0 orders below +0 (R168). -/
def Val.max : Val → Val → Val
  | .nan, _ => .nan
  | _, .nan => .nan
  | x, y =>
    if x.lt y then y else if y.lt x then x
    else match x, y with
      | .fin true _, y => y
      | x, _ => x

/-- Minimum: NaN with a NaN operand; −0 orders below +0 (R168). -/
def Val.min : Val → Val → Val
  | .nan, _ => .nan
  | _, .nan => .nan
  | x, y =>
    if x.lt y then x else if y.lt x then y
    else match x, y with
      | .fin false _, y => y
      | x, _ => x

/-- The default control of accumulation: RNE (R150), IEEE range kept by R159 itself. -/
def accCtl : NumCtl := { mode := .rne, ovf := false, ftz := false, mxFit := false }

/-- The sum S of one k-group of finite products (R157, R163): products aligned to 2^(emax − 30), bits below dropped. -/
def groupSum (ps : List Rat) : Rat :=
  let nz := ps.filter (· ≠ 0)
  match nz with
  | [] => 0
  | p :: rest =>
    let lg := fun (q : Rat) => floorLog2 (if q < 0 then -q else q)
    let emax := rest.foldl (fun m q => max m (lg q)) (lg p)
    let w := pow2 (emax - 30)
    nz.foldl (fun s q =>
      let a := if q < 0 then -q else q
      let t := (((a / w).floor.toNat : Nat) : Rat) * w
      if q < 0 then s - t else s + t) 0

/-- An accumulator element after a group: its FP32 or INT32 bits, whether it saturated (R159, R162), and whether a non-zero
sum was written as a zero (R152). -/
structure AccOut where
  bits : Nat
  sat : Bool := false
  van : Bool := false
deriving DecidableEq, Repr

/-- One k-group into an FP32 accumulator element (R157, R159, R160). The products are given as values. A NaN that absorbs
the group is written in its canonical encoding (R167). -/
def accGroup (acc : Nat) (ps : List Val) : AccOut :=
  let a := fp32.decode acc
  let infs := ps.filterMap fun p => match p with | .inf s => some s | _ => none
  if ps.any Val.isNan || (infs.contains true && infs.contains false) then { bits := fp32.nanBits }
  else match infs with
    | s :: _ =>
      match a with
      | .nan => { bits := fp32.nanBits }
      | .inf t => if s = t then { bits := acc } else { bits := fp32.nanBits }
      | .fin _ _ => { bits := infBits 8 23 s }
    | [] =>
      match a with
      | .fin sa m =>
        let sum := groupSum (ps.map Val.rat)
        let x := (Val.fin sa m).add (.ofRat sum)
        match x with
        | .fin s q =>
          let r := roundTo .rne 0 23 (-126) q
          if r > fp32.maxFin then { bits := fp32.maxBits s, sat := true }
          else { bits := encodeMag 8 23 127 s r, van := r = 0 && q ≠ 0 }
        | _ => { bits := acc }
      | .inf _ => { bits := acc }
      | .nan => { bits := fp32.nanBits }

/-- One k-group into an INT32 accumulator element (R162). -/
def accGroupInt (acc : Nat) (ps : List Int) : AccOut :=
  let z := signed 32 acc + ps.foldl (· + ·) 0
  if z > 2147483647 then { bits := 0x7FFFFFFF, sat := true }
  else if z < -2147483648 then { bits := 0x80000000, sat := true }
  else { bits := unsigned 32 z }

/-- A finite value rounded to BF16 precision, with no range limit (R164: the split is internal to the matrix unit). -/
def bfPart (mode : RMode) (x : Val) : Val :=
  match x with
  | .fin s a => .fin s (roundTo mode 0 7 (-126) a)
  | v => v

/-- The high part xh of R164 and R165: BF16 by truncation; a non-finite x is its own high part. -/
def splitHi (x : Val) : Val := bfPart .rtz x

/-- The low part xl of R164 and R165: the rest, in BF16 by RNE; 0 for a non-finite x. -/
def splitLo (x : Val) : Val :=
  match x with
  | .fin s a => bfPart .rne ((Val.fin s a).add (splitHi (.fin s a)).neg)
  | _ => .fin false 0

/-- A product of a pass after the first: a non-finite factor contributes +0 (R165). -/
def latePass (x y : Val) : Val := if x.isFin && y.isFin then x.mul y else .fin false 0

/-- The passes of one FP32 k-group (R164): each pass is a group of its own, in order. -/
def fp32Passes (passes : Nat) (xs : List (Val × Val)) : List (List Val) :=
  match passes with
  | 0 => [xs.map fun (x, y) => (bfPart .rne x).mul (bfPart .rne y)]
  | 1 => [xs.map fun (x, y) => (splitHi x).mul (splitHi y),
          xs.map fun (x, y) => if x.isFin && y.isFin then latePass (splitHi x) (splitLo y) else .fin false 0]
  | _ => [xs.map fun (x, y) => (splitHi x).mul (splitHi y),
          xs.map fun (x, y) => if x.isFin && y.isFin then latePass (splitHi x) (splitLo y) else .fin false 0,
          xs.map fun (x, y) => if x.isFin && y.isFin then latePass (splitLo x) (splitHi y) else .fin false 0]

/-- The two-step drain of R155: an FP32 value to BF16 with RTO. The exact value of the intermediate. -/
def drainStep1 (x : Val) : Val :=
  match x with
  | .fin s a => .fin s (roundTo .rto 0 7 (-126) a)
  | v => v

/-- Element `i` of packed bytes of a format of `bits` bits (R143). -/
def packedGet (bs : List Byte) (bits i : Nat) : Nat :=
  let b := i * bits
  bitsOf (leNat ((bs.drop (b / 8)).take (bits / 8 + 2))) (b % 8) bits

/-- Lists of `n` consecutive elements. -/
def chunksOf {α : Type} (n : Nat) : Nat → List α → List (List α)
  | 0, _ => []
  | k + 1, l => l.take n :: chunksOf n k (l.drop n)

/-- The values of `n` packed elements of a format, with the scales of their blocks where the format is microscaled. -/
def decodeRow (fmt : Nat) (bs : List Byte) (n : Nat) (scales : List Nat) : List Val :=
  match fmtElem fmt with
  | none => []
  | some f =>
    let es := (List.range n).map (packedGet bs f.bits)
    if fmtIsMx fmt then
      ((chunksOf 32 (n / 32) es).zip scales).flatMap fun (blk, sc) => mxRead f sc blk
    else es.map f.decode

/-- The bytes of a list of elements of `bits` bits each, packed little-endian (R143). -/
def packBytes (bits : Nat) (es : List Nat) : List Byte :=
  let n := es.foldr (fun e acc => e % 2 ^ bits + 2 ^ bits * acc) 0
  leBytes (cdiv (es.length * bits) 8) n

end Sys2Proof.Machine
end

