-- ==== Sys2Proof/Machine/Place.lean ====
section
/-! DEFINITION. Addresses: the global and local address (R31 to R35), the HBM interleave (R36), the MMIO layout (R41), the
status an access ends with before any data is read, raw stores, and the record rings (R173, R361). -/

namespace Sys2Proof.Machine

/-- Bits [40:0] of a global address (R31). -/
def localOf (ga : Nat) : Nat := ga % 2 ^ 41
/-- Bits [55:41] of a global address (R31). -/
def pkgOf (ga : Nat) : Nat := bitsOf ga 41 15

/-- Whether the package has a valid logical ID (R32). -/
def Dev.idValid (d : Dev) : Bool := d.flag FAB_ID FAB_ID_LVALID HD
/-- The package's own logical ID. -/
def Dev.ownId (d : Dev) : Nat := d.fld FAB_ID FAB_ID_LOGICAL HD
/-- Whether a global address names another package (R32). -/
def Dev.isRemote (d : Dev) (ga : Nat) : Bool := d.idValid && pkgOf ga != d.ownId
/-- The global address of a local one. -/
def Dev.globalOf (d : Dev) (la : Nat) : Nat := (if d.idValid then d.ownId * 2 ^ 41 else 0) + la % 2 ^ 41

/-- A global address as subscriptions name it: the local address where it names this package. -/
def Dev.normGa (d : Dev) (ga : Nat) : Nat := if d.isRemote ga then ga else localOf ga

/-- 144 GiB, one tensor die's HBM window (R33). -/
def hbmWindow : Nat := 144 * 2 ^ 30

/-- What a local address decodes to (R33, R34, R41). -/
inductive Place where
  /-- HBM: the die that holds the byte, its pseudo-channel, its row slot there, and the storage address. -/
  | hbm (die pc slot stor : Nat)
  | csr (die off : Nat)
  | doorbell (q off : Nat)
  | mould (die off : Nat)
  | debug (die off : Nat)
  | bulk (port off : Nat)
  | hole
deriving DecidableEq, Repr

/-- Whether region index `r` is in package-wide mode (R36, R40). -/
def Dev.pkgWide (d : Dev) (r : Nat) : Bool :=
  if r < 128 then (d.reg MEM_ILV_CUR HD (r / 64)).toNat.testBit (r % 64)
  else (d.reg MEM_ILV_CUR_TOP HD).toNat.testBit (r % 64)

/-- The byte location of R36: window die `wd`, window offset `o` to die, pseudo-channel, row slot and storage address. -/
def ilvPlace (wide : Bool) (wd o : Nat) : Place :=
  let r := o / 2 ^ 30
  let g := (o % 2 ^ 30) / 512
  let gs := wd * 2 ^ 21 + g
  let die := if wide then gs % 4 else wd
  let slot := if wide then gs / 4 else g
  let q := r * 2 ^ 21 + slot
  .hbm die (q % 192) (q / 192) (die * hbmWindow + q * 512 + o % 512)

/-- What a local address decodes to. -/
def Dev.place (d : Dev) (la : Nat) : Place :=
  if la < 4 * hbmWindow then
    let wd := la / hbmWindow
    let o := la % hbmWindow
    ilvPlace (d.pkgWide (o / 2 ^ 30)) wd o
  else if la < 0x0C000000000 then .hole
  else if la < 0x10000000000 then
    let o := la - 0x0C000000000
    if o < 0x7000000 then .csr (o / 2 ^ 24) (o % 2 ^ 24)
    else if o < 0x100000000 then .hole
    else if o < 0x100000000 + 65536 * 0x1000 then .doorbell ((o - 0x100000000) / 0x1000) (o % 0x1000)
    else if 0x200000000 ≤ o ∧ o < 0x204000000 then .mould ((o - 0x200000000) / 2 ^ 24) (o % 2 ^ 24)
    else if 0x300000000 ≤ o ∧ o < 0x307000000 then .debug ((o - 0x300000000) / 2 ^ 24) (o % 2 ^ 24)
    else .hole
  else
    let o := la - 0x10000000000
    let port := o / 2 ^ 37
    if d.flag MEM_BULK_CFG MEM_BULK_CFG_EN HD port ∧ o % 2 ^ 37 < d.fld MEM_BULK_CFG MEM_BULK_CFG_SIZE_GIB HD port * 2 ^ 30
    then .bulk port (o % 2 ^ 37)
    else .hole

/-- Whether a place is in the MMIO range (R41). -/
def Place.isMmio : Place → Bool
  | .csr _ _ => true
  | .doorbell _ _ => true
  | .mould _ _ => true
  | .debug _ _ => true
  | _ => false

/-- Whether a local address lies in the MMIO range of R33. -/
def inMmio (la : Nat) : Bool := 0x0C000000000 ≤ la && la < 0x10000000000

/-- The storage address of a local address: HBM by R36; the bulk tier and the mould stores at their local address. -/
def Dev.stor (d : Dev) (la : Nat) : Nat :=
  match d.place la with
  | .hbm _ _ _ s => s
  | _ => la

/-- Whether the sector at storage address / 64 is in a retired frame. Frames are named by local address (R363). -/
def Dev.retiredAt (d : Dev) (la : Nat) : Bool := d.u.mem.retired.contains (la / 4096)

/-- The status an access to a local address ends with whatever data it finds: a hole (R35), a retired frame (R364), a
DOWN pseudo-channel (R347), a FAULTED port (R370); OK otherwise. -/
def Dev.accessStatus (d : Dev) (la : Nat) : Nat :=
  match d.place la with
  | .hole => stTRANSLATION_ABORT
  | .hbm die pc _ _ =>
    if d.retiredAt la then stMEM_UNCORRECTABLE
    else if d.flag MEM_PC MEM_PC_DOWN die pc then stMEM_UNCORRECTABLE else stOK
  | .bulk port _ =>
    if d.retiredAt la then stMEM_UNCORRECTABLE
    else if d.fld MEM_BULK_STATUS MEM_BULK_STATUS_STATE HD port = 2 then stTIER_TIMEOUT else stOK
  | .debug die _ => if d.flag BOOT_STATUS BOOT_STATUS_DEBUG HD && die < 7 then stOK else stTRANSLATION_ABORT
  | _ => stOK

/-- The starts of the 64-byte sectors that `len` bytes at `a` touch. -/
def sectorsOf (a len : Nat) : List Nat :=
  if len = 0 then [] else (List.range ((a + len - 1) / 64 - a / 64 + 1)).map fun i => (a / 64 + i) * 64

/-- The status of an access to a range: that of its first sector that does not end with OK. -/
def Dev.rangeStatus (d : Dev) (la len : Nat) : Nat :=
  ((sectorsOf la len).map d.accessStatus).find? (· ≠ stOK) |>.getD stOK

/-- Bytes at a local address, as stored (undefined contents aside: those read through Config.undefByte). -/
def Dev.rawByte (d : Dev) (la : Nat) : Byte :=
  let s := d.stor la
  match aget? d.u.mem.undef s with
  | some e => Config.undefByte e s
  | none => d.byte s

/-- `n` bytes at a local address, as stored. -/
def Dev.rawBytes (d : Dev) (la n : Nat) : List Byte := (List.range n).map fun i => d.rawByte (la + i)

/-- A little-endian number of `n` bytes at a local address, as stored. -/
def Dev.rawNat (d : Dev) (la n : Nat) : Nat := leNat (d.rawBytes la n)

/-- Bytes stored at a local address, with nothing else touched. -/
def Tr.rawStore (la : Nat) (bs : List Byte) : Tr :=
  .read fun d => .each bs.zipIdx fun (b, i) =>
    .seq [.byte (d.stor (la + i)) b,
      .units fun u => { u with mem := { u.mem with undef := terase u.mem.undef (d.stor (la + i)) } }]

/-- The sectors that `bs` at `la` replaces whole lose their poison and their errors (R356). -/
def Tr.clearSectors (la len : Nat) : Tr :=
  .read fun d => .units fun u =>
    let whole := (sectorsOf la len).filter fun s => la ≤ s && s + 64 ≤ la + len
    let ks := whole.map fun s => d.stor s / 64
    { u with mem := { u.mem with
        poison := u.mem.poison.filter fun s => !ks.contains s,
        errs := u.mem.errs.filter fun e => !ks.contains e.1 } }

/-- A store by the device itself to its own structures in memory: the bytes where the range's status is OK. `k` gets the
status. -/
def Tr.store (ga : Nat) (bs : List Byte) (k : Nat → Tr) : Tr :=
  .read fun d =>
    let st := if d.isRemote ga then stTRANSLATION_ABORT else d.rangeStatus (localOf ga) bs.length
    if st = stOK then .seq [.rawStore (localOf ga) bs, .clearSectors (localOf ga) bs.length, k stOK] else k st

/-- A record ring (R173, R361): record bytes written at slot HEAD, then HEAD + 1; or LOST + 1 when the ring is full,
disabled, or the write ends with a status. -/
def Tr.ring (die : Nat) (base cfg head tail lost : Reg) (en size : Fld) (recBytes : Nat) (record : List Byte) : Tr :=
  .read fun d =>
    let sz := 2 ^ d.fld cfg size die
    let h := (d.reg head die).toNat % 2 ^ 32
    let t := (d.reg tail die).toNat % 2 ^ 32
    if d.fld cfg en die = 0 || (h + 2 ^ 32 - t) % 2 ^ 32 = sz then .bump lost die
    else .store ((d.reg base die).toNat + (h % sz) * recBytes) record fun st =>
      if st = stOK then .reg head die (w64 ((h + 1) % 2 ^ 32)) else .bump lost die

/-- A record in a die's NaN trap ring (R172, R173). -/
def Tr.nanRecord (die : Nat) (record : List Byte) : Tr :=
  .ring die VEC_NANQ_BASE VEC_NANQ_CFG VEC_NANQ_HEAD VEC_NANQ_TAIL VEC_NANQ_LOST VEC_NANQ_CFG_EN VEC_NANQ_CFG_SIZE_LOG2 32
    record

/-- A record in a die's error ring (R361): HD's ring serves the bulk tier. -/
def Tr.errRecord (die : Nat) (record : List Byte) : Tr :=
  if die < 4 then
    .ring die MEM_ERRQ_BASE MEM_ERRQ_CFG MEM_ERRQ_HEAD MEM_ERRQ_TAIL MEM_ERRQ_LOST MEM_ERRQ_CFG_EN MEM_ERRQ_CFG_SIZE_LOG2 32
      record
  else
    .ring HD MEM_ERRQ_BASE_HD MEM_ERRQ_CFG_HD MEM_ERRQ_HEAD_HD MEM_ERRQ_TAIL_HD MEM_ERRQ_LOST_HD MEM_ERRQ_CFG_HD_EN
      MEM_ERRQ_CFG_HD_SIZE_LOG2 32 record

end Sys2Proof.Machine
end

