-- ==== Sys2Proof/Machine/CellOps.lean ====
section
/-! DEFINITION. What every cell instruction shares: the cell map, threads, guards, roles, issue and traps (03_cells.md),
the RAMs of a cell and their occupancy maps (R200, R201), the scoreboard (R105) and the census (R174). -/

namespace Sys2Proof.Machine

/-! ## Finding the cell -/

/-- The physical cell key (die * 168 + p) behind package cell `c`; none while it is unbacked (R89, R619). -/
def Dev.physOf (d : Dev) (c : Nat) : Option Nat :=
  if d.flag CELL_MAP CELL_MAP_UNBACKED (c / 160) (c % 160) then none
  else some (c / 160 * 168 + d.fld CELL_MAP CELL_MAP_PHYS (c / 160) (c % 160))

/-- The state of physical cell `pk`. -/
def Dev.cellAt (d : Dev) (pk : Nat) : CellSt := agetD d.u.cells pk {}

/-- Thread `t` of a cell. -/
def CellSt.thread (cs : CellSt) (t : Nat) : Thread := agetD cs.threads t {}

/-- Thread `t` of physical cell `pk`. -/
def Dev.threadAt (d : Dev) (pk t : Nat) : Thread := (d.cellAt pk).thread t

/-- A change of a physical cell. -/
def Tr.cell (pk : Nat) (f : CellSt → CellSt) : Tr := .units fun u => { u with cells := aupd u.cells pk {} f }

/-- A change of a thread. -/
def CellSt.onThread (cs : CellSt) (t : Nat) (f : Thread → Thread) : CellSt :=
  { cs with threads := aupd cs.threads t {} f }

/-- A change of a thread of physical cell `pk`. -/
def Tr.thread (pk t : Nat) (f : Thread → Thread) : Tr := .cell pk fun cs => cs.onThread t f

/-- The logical cell served by physical cell `pk` (CELL_PHYS_p). -/
def Dev.logicalOf (d : Dev) (pk : Nat) : Nat :=
  pk / 168 * 160 + d.fld CELL_PHYS CELL_PHYS_LOGICAL (pk / 168) (pk % 168)

/-! ## Registers of a thread (R124) -/

/-- s[r]; s0 reads zero. -/
def Thread.sreg (th : Thread) (r : Nat) : Nat := if r = 0 then 0 else (agetD th.s r 0).toNat

/-- s[r] := v modulo 2^64; s0 ignores writes. Zero values are not listed. -/
def Thread.setS (th : Thread) (r v : Nat) : Thread :=
  if r = 0 then th else { th with s := tset (fun _ => (0 : Word)) th.s r (w64 v) }

/-- c[i]; c0 reads 1. -/
def Thread.creg (th : Thread) (i : Nat) : Bool := i = 0 || th.c.testBit i

/-- c[i] := b; c0 ignores writes. -/
def Thread.setC (th : Thread) (i : Nat) (b : Bool) : Thread :=
  if i = 0 then th else { th with c := putBits th.c i 1 (b01 b) }

/-- Leaving the loops whose body does not hold `target` (R125: a taken branch out of a loop's body). -/
def leaveLoops (target : Nat) : List LoopLevel → List LoopLevel
  | [] => []
  | l :: ls =>
    if l.first ≤ target ∧ target < l.first + 16 * l.len then l :: ls else leaveLoops target ls

/-- Where a thread goes on after the instruction before `next`: at the end of a loop's body, its next pass or out of the
loop (R125 LOOP). -/
def loopNext (next : Nat) : List LoopLevel → Nat × List LoopLevel
  | [] => (next, [])
  | l :: ls =>
    if next = l.first + 16 * l.len then
      if l.left > 1 then (l.first, { l with left := l.left - 1 } :: ls)
      else loopNext next ls
    else (next, l :: ls)

/-- The next instruction in program order. -/
def Thread.advance (th : Thread) : Thread :=
  let (pc, ls) := loopNext (th.pc + 16) th.loops
  { th with pc := pc, loops := ls }

/-! ## The instruction word (R121, R122) -/

/-- CLASS. -/
def iClass (w : Nat) : Nat := bitsOf w 0 4
/-- OP. -/
def iOp (w : Nat) : Nat := bitsOf w 4 8
/-- PRED. -/
def iPred (w : Nat) : Nat := bitsOf w 12 3
/-- PNEG. -/
def iPneg (w : Nat) : Bool := w.testBit 15
/-- IMM, bits [127:64] (R124). -/
def iImm (w : Nat) : Nat := bitsOf w 64 64

/-- `t` where the word is of a class and operation; the word of another row changes nothing (log 53). -/
def onWord (cls op : Nat) (w : Word128) (t : Tr) : Tr := .when (iClass w.toNat = cls && iOp w.toNat = op) t
/-- `t` where the word is an RRND with ACTION `a` (R226). -/
def onRrnd (a : Nat) (w : Word128) (t : Tr) : Tr := onWord 8 2 w (.when (bitsOf w.toNat 65 2 = a) t)

/-- The classes a role allows besides control, scalar, memory, gather and routing (R90). -/
def roleAllows (role cls : Nat) : Bool :=
  [0, 1, 2, 5, 8].contains cls ||
    match role with
    | 0 => cls = 3 || cls = 4
    | 1 => cls = 4
    | 2 => cls = 4
    | 3 => cls = 4 || cls = 6
    | 4 => cls = 4 || cls = 6
    | 5 => cls = 4 || cls = 7
    | 6 => cls = 4 || cls = 9
    | _ => false

/-- Whether a role runs its vector unit in stream mode (R90). -/
def roleStream (role : Nat) : Bool := role = 1 || role = 5

/-- The issue counter of a class's port (R103, R122): C for control, scalar and reserved classes, M for memory, gather
and collective-assist, X for the others. -/
def portReg (cls : Nat) : Reg :=
  if cls = 2 ∨ cls = 5 ∨ cls = 9 then CELL_ISSUE_M
  else if 3 ≤ cls ∧ cls ≤ 8 then CELL_ISSUE_X
  else CELL_ISSUE_C

/-- What an instruction's meaning works with. -/
structure Ctx where
  die : Nat
  pk : Nat
  /-- The package cell number. -/
  c : Nat
  t : Nat
  w : Nat
  th : Thread
  role : Nat

/-- The physical cell's number within its die. -/
def Ctx.p (x : Ctx) : Nat := x.pk % 168
/-- Bits of the instruction word. -/
def Ctx.f (x : Ctx) (lo w : Nat) : Nat := bitsOf x.w lo w
/-- The scalar register that the 5-bit field at `lo` names. -/
def Ctx.s (x : Ctx) (lo : Nat) : Nat := x.th.sreg (x.f lo 5)

/-! ## Traps (R131 to R134) -/

/-- The causes of R131. -/
inductive Cause where
  | illegal | window | spadRange | stack | fetch | memory | nan | brk
deriving DecidableEq, Repr

/-- CAUSE as coded in R131. -/
def Cause.code : Cause → Nat
  | .illegal => 1 | .window => 2 | .spadRange => 3 | .stack => 4 | .fetch => 5 | .memory => 6 | .nan => 7 | .brk => 8

/-- The trap record of a cell (R134): the first one in CELL_TRAP, MORE for a later one. -/
def Tr.trapRecord (pk t : Nat) (cause : Cause) (status pc : Nat) : Tr :=
  .read fun d =>
    let die := pk / 168
    let p := pk % 168
    if d.flag CELL_TRAP CELL_TRAP_VALID die p then .fld CELL_TRAP CELL_TRAP_MORE die 1 p
    else .seq [
      .reg CELL_TRAP die
        (w64 (1 + b01 (d.flag CELL_TRAP CELL_TRAP_MORE die p) * 2 + cause.code * 2 ^ 4 + t * 2 ^ 8 + status * 2 ^ 16)) p,
      .reg CELL_TRAP_PC die (w64 (pc % 2 ^ 57)) p,
      .reg CELL_TRAP_BEAT die (w64 d.beatIdx) p]

/-- Whether every thread of the union of the masks of the threads waiting at barrier `j` has arrived (R126). -/
def CellSt.barrierDone (cs : CellSt) (j : Nat) : Bool :=
  let waiters := cs.threads.filterMap fun e => match e.2.wait with
    | .bar j' m => if j' = j then some (e.1, m) else none
    | _ => none
  let union := waiters.foldl (fun m e => m ||| e.2) 0
  !waiters.isEmpty && (setBits 16 union).all fun t =>
    let th := cs.thread t
    th.st = .idle || th.st = .ended || th.st = .trapped || waiters.any (fun e => e.1 = t)

/-- All threads waiting at a completed barrier leave BARRIER together (R126). -/
def CellSt.barriers (cs : CellSt) : CellSt :=
  [0, 1, 2, 3].foldl (fun cs j =>
    if cs.barrierDone j then
      { cs with threads := cs.threads.map fun e => match e.2.wait with
          | .bar j' _ => if j' = j then (e.1, { e.2 with st := .ready, wait := .nothing }) else e
          | _ => e }
    else cs) cs

/-- How many memory requests an operation counts as for WAITM and FENCE (R267): its requests that have not completed, sent
or not, and at least one while it is in progress. Run-ahead is no instruction. -/
def MemOp.counts (o : MemOp) : Nat :=
  match o.kind with
  | .held _ _ _ => 1
  | .ra _ => 0
  | .ifetch => 0
  | _ => max 1 (o.reqs.filter fun r => r.st ≠ .done).length

/-- Requests in flight, or not yet sent, of a thread (R267). -/
def Units.threadReqs (u : Units) (pk t : Nat) : Nat :=
  ((u.ops.filter fun o => o.pk = pk && o.thread = t).map MemOp.counts).foldl (· + ·) 0

/-- Requests in flight or not yet sent of a cell. -/
def Units.cellReqs (u : Units) (pk : Nat) : Nat :=
  ((u.ops.filter fun o => o.pk = pk).map MemOp.counts).foldl (· + ·) 0

/-- Request slots an operation uses (R265): its requests sent and not completed, or one for a held instruction. -/
def MemOp.slots (o : MemOp) : Nat :=
  match o.kind with
  | .held _ _ _ => 1
  | .ifetch => 0
  | _ => (o.reqs.filter fun r => r.st = .sent || r.st = .returned).length

/-- Request slots of a cell in use (R265). -/
def Units.slotsUsed (u : Units) (pk : Nat) : Nat :=
  ((u.ops.filter fun o => o.pk = pk).map MemOp.slots).foldl (· + ·) 0

/-- Waiting threads of a cell whose condition holds become READY (R99, R125, R126). -/
def Units.wake (u : Units) (pk : Nat) : Units :=
  let cs := agetD u.cells pk {}
  let cs : CellSt := { cs with threads := cs.threads.map fun (e : Nat × Thread) =>
    let go : Bool := match e.2.wait with
      | .requests n => decide (u.threadReqs pk e.1 ≤ n)
      | .tile r => decide (agetD cs.pendW r 0 = 0)
      | .until_ t => decide (t ≤ u.time.elapsed)
      | _ => false
    if go then (e.1, { e.2 with st := .ready, wait := .nothing })
    else if e.2.wait = .reissue then (e.1, { e.2 with st := .ready, wait := .nothing })
    else e }
  { u with cells := tinsert u.cells pk cs.barriers }

/-- A thread ends or traps: held run-ahead entries of it are discarded (R139), counted, and barriers move. -/
def Tr.dropRunAhead (pk : Nat) (p : RaEntry → Bool) : Tr :=
  .read fun d =>
    let gone := ((d.cellAt pk).ra.filter p).length
    .seq [.cell pk fun cs => { cs with ra := cs.ra.filter fun e => !p e },
      .bump CELL_RA_DISCARDED (pk / 168) gone (pk % 168)]

/-- A thread traps (R131): it enters TRAPPED and issues nothing more; its first trap's status is kept for its record. -/
def Tr.trap (pk t : Nat) (cause : Cause) (status pc : Nat) : Tr :=
  .seq [
    .trapRecord pk t cause status pc,
    .thread pk t fun th =>
      { th with st := .trapped, wait := .nothing, carry := false, trap := some (th.trap.getD status) },
    .units fun u => { u with ing := u.ing.returned fun a b => a = pk && b = t },
    .dropRunAhead pk fun e => e.thread = t,
    .cell pk fun cs => cs.barriers]

/-- An instruction traps with cause ILLEGAL. -/
def Ctx.illegal (x : Ctx) : Tr := .trap x.pk x.t .illegal stMALFORMED x.th.pc

/-- The thread goes on at the next instruction. -/
def Ctx.next (x : Ctx) : Tr := .thread x.pk x.t Thread.advance

/-- The thread goes on, with one more change. -/
def Ctx.nextWith (x : Ctx) (f : Thread → Thread) : Tr := .thread x.pk x.t fun th => f th.advance

/-- The instruction waits in WAIT_DEP or WAIT_MEM, and issues again when something it waits for has changed. -/
def Ctx.hold (x : Ctx) (st : TState) : Tr := .thread x.pk x.t fun th => { th with st := st, wait := .reissue }

/-- The condition registers an instruction reads or writes beside its guard: CMP and CLOG, SEL, MSATF, PFW (R125, R127,
R190, R268); and those of the routing, bit-stream and collective-assist classes that name one. -/
def condFields (wn : Nat) : List Nat :=
  match iClass wn, iOp wn with
  | 0, 7 => [31]
  | 0, 8 => [31, 34, 37]
  | 1, 15 => [34]
  | 2, 7 => [55]
  | 3, 4 => [64]
  | 6, 1 => [41]
  | 6, 2 => [41]
  | 6, 3 => [41]
  | 6, 4 => [41]
  | 6, 5 => [41]
  | 8, 4 => [41]
  | 8, 6 => [41]
  | 8, 7 => [41]
  | 9, 0 => [36]
  | _, _ => []

/-- Whether an instruction must wait for a condition register whose result is awaited (R99, R130). -/
def condBusy (th : Thread) (wn : Nat) (guardOn : Bool) : Bool :=
  th.pendC.testBit (iPred wn) || (guardOn && (condFields wn).any fun lo => th.pendC.testBit (bitsOf wn lo 3))

/-- Whether a waiting thread's instruction has not issued yet and issues again. -/
def WaitOn.again : WaitOn → Bool
  | .reissue => true
  | .epoch => true
  | _ => false

/-- Issue of an instruction (R103, R104, R122, R123, R129, R130): a READY thread only; a guard of 0 issues, takes its
port's cycle and does nothing else; then the class and the reserved bits are checked. `used` are the bits the operation
defines. `room` says whether the unit can accept it; one that it cannot is passed over (R103, R272). -/
def issueIf (room : Dev → Ctx → Bool) (c : PCell) (t : Tid) (w : Word128) (used : Nat) (body : Ctx → Tr) : Tr :=
  .read fun d =>
    match d.physOf c.val with
    | none => .skip
    | some pk =>
      let th := d.threadAt pk t.val
      if th.st ≠ .ready then .skip
      else
        let die := pk / 168
        let wn := w.toNat
        let cls := iClass wn
        let role := d.fld CELL_ROLE CELL_ROLE_ROLE die (pk % 168)
        let x : Ctx := { die := die, pk := pk, c := c.val, t := t.val, w := wn, th := th, role := role }
        let on := (th.creg (iPred wn)) != (iPneg wn)
        let good := roleAllows role cls && wn &&& (2 ^ 128 - 1 - (used ||| 0xFFFF)) == 0
        if condBusy th wn on then x.hold .waitDep
        else if on && good && !room d x then .skip
        else .seq [
          if !on then x.next else if !good then x.illegal else body x,
          .read fun d => .when (!(d.threadAt pk t.val).wait.again) (.bump (portReg cls) die 1 (pk % 168))]

/-- Issue of an instruction whose unit always accepts it. -/
def issue (c : PCell) (t : Tid) (w : Word128) (used : Nat) (body : Ctx → Tr) : Tr :=
  issueIf (fun _ _ => true) c t w used body

/-! ## Tile register windows (R107 to R110) -/

/-- The window size of a size code. -/
def windowSize (code : Nat) : Nat := 4 * 2 ^ code

/-- The physical tile register behind tN; none beyond the window (R110). -/
def Ctx.tile (x : Ctx) (n : Nat) : Option Nat :=
  if n < windowSize x.th.wsize then some (x.th.wbase + n) else none

/-- An instruction that names a tile register beyond its window. -/
def Ctx.windowTrap (x : Ctx) : Tr := .trap x.pk x.t .window stMALFORMED x.th.pc
/-- An instruction that names a scratchpad address beyond the scratchpad (R115). -/
def Ctx.spadTrap (x : Ctx) : Tr := .trap x.pk x.t .spadRange stMALFORMED x.th.pc

/-- Continues with the physical registers of tile numbers, or traps with cause WINDOW. -/
def Ctx.withTiles (x : Ctx) (ns : List Nat) (k : List Nat → Tr) : Tr :=
  match ns.mapM x.tile with
  | some ts => k ts
  | none => x.windowTrap

/-- The size of the scratchpad (R114). -/
def spadSize : Nat := 0x180000

/-- Continues where every range lies in the scratchpad, or traps with cause SPAD_RANGE (R115). -/
def Ctx.inSpad (x : Ctx) (ranges : List (Nat × Nat)) (k : Tr) : Tr :=
  if ranges.all fun r => r.2 = 0 || (r.1 + r.2 ≤ spadSize) then k else x.spadTrap

/-- Whether a thread must wait for a tile register it reads or writes (R105). -/
def CellSt.tileBusy (cs : CellSt) (reads writes : List Nat) : Bool :=
  (reads.any fun r => agetD cs.pendW r 0 ≠ 0) ||
    writes.any fun r => agetD cs.pendW r 0 ≠ 0 || agetD cs.pendR r 0 ≠ 0

/-- Continues when no hazard holds, or waits in WAIT_DEP (R105). -/
def Ctx.hazard (x : Ctx) (reads writes : List Nat) (k : Tr) : Tr :=
  .read fun d => if (d.cellAt x.pk).tileBusy reads writes then x.hold .waitDep else k

/-! ## RAMs and occupancy maps -/

/-- Byte `a` of a RAM; undefined contents where nothing was written. -/
def Ram.get (r : Ram) (a : Nat) : Byte := (aget? r.bytes a).getD (Config.undefByte r.epoch a)

/-- `n` bytes of a RAM. -/
def Ram.slice (r : Ram) (a n : Nat) : List Byte := (List.range n).map fun i => r.get (a + i)

/-- A RAM with bytes written. -/
def Ram.put (r : Ram) (a : Nat) (bs : List Byte) : Ram :=
  { r with bytes := bs.zipIdx.foldl (fun m (b, i) => tinsert m (a + i) b) r.bytes }

/-- The 4096 bytes of a physical tile register. -/
def CellSt.tileBytes (cs : CellSt) (r : Nat) : List Byte := cs.tiles.slice (4096 * r) 4096

/-- Bits [16i+15:16i] of MTX_OCC_n hold the map of tile register 4n + i (R224). -/
def Dev.tileMap (d : Dev) (pk r : Nat) : Nat :=
  bitsOf (d.reg MTX_OCC (pk / 168) (pk % 168) (r / 4)).toNat (16 * (r % 4)) 16

/-- The occupancy map bits that a write of some bytes of a tile register leaves (R201): `new b` is the byte written at
byte b of the tile, or none where it is not written. -/
def occAfter (old : Nat) (new : Nat → Option Byte) : Nat :=
  (List.range 16).foldl (fun m bit =>
    let cov := (List.range 256).map fun i => new (128 * (i / 8) + 8 * bit + i % 8)
    let anyNz := cov.any fun b => match b with | some v => v ≠ 0 | none => false
    let all := cov.all (·.isSome)
    if all then putBits m bit 1 (b01 anyNz) else if anyNz then putBits m bit 1 1 else m) old

/-- Bytes written into a physical tile register, with its occupancy map (R201, R204). `ws` are (byte offset in the tile,
byte). Poison of the words written whole goes. -/
def Tr.writeTile (pk r : Nat) (ws : List (Nat × Byte)) : Tr :=
  .read fun d =>
    let occEn := d.forceFld VEC_CTL VEC_CTL_OCC_EN (pk / 168) = 1
    let new := fun b => aget? ws b
    let m := if occEn then occAfter (d.tileMap pk r) new else 0xFFFF
    .seq [
      .cell pk fun cs => { cs with
        tiles := ws.foldl (fun ram (o, b) => ram.put (4096 * r + o) [b]) cs.tiles,
        poison := cs.poison.filter fun k =>
          !(k % 3 = 1 && k / 3 / 512 = r && (List.range 8).all fun i => (new ((k / 3 % 512) * 8 + i)).isSome) },
      .read fun d =>
        .reg MTX_OCC (pk / 168)
          (w64 (putBits (d.reg MTX_OCC (pk / 168) (pk % 168) (r / 4)).toNat (16 * (r % 4)) 16 m)) (pk % 168) (r / 4)]

/-- The 8-bit map of a 512-byte scratchpad granule (R200). -/
def CellSt.granuleMap (cs : CellSt) (g : Nat) : Nat := agetD cs.spadOcc g 0xFF

/-- The scratchpad map bit of 64-byte line `l` (R200); every bit reads 1 while VEC_CTL.OCC_EN is 0 (R204). -/
def Dev.lineMap (d : Dev) (pk l : Nat) : Bool :=
  d.forceFld VEC_CTL VEC_CTL_OCC_EN (pk / 168) ≠ 1 || ((d.cellAt pk).granuleMap (l / 8)).testBit (l % 8)

/-- The scratchpad occupancy after bytes at `a` were written (R201). -/
def spadOccAfter (en : Bool) (occ : List (Nat × Nat)) (a : Nat) (bs : List Byte) : List (Nat × Nat) :=
  (sectorsOf a bs.length).foldl (fun occ l =>
    let lo := max a l
    let hi := min (a + bs.length) (l + 64)
    let part := (bs.drop (lo - a)).take (hi - lo)
    let nz := part.any (· ≠ 0)
    let g := l / 512
    let bit := l / 64 % 8
    let old := agetD occ g 0xFF
    let m := if !en then putBits old bit 1 1
      else if hi - lo = 64 then putBits old bit 1 (b01 nz)
      else if nz then putBits old bit 1 1 else old
    tset (fun _ => 0xFF) occ g m) occ

/-- Bytes written into the scratchpad, with the occupancy maps (R201). Poison of the words written whole goes. -/
def Tr.writeSpad (pk a : Nat) (bs : List Byte) : Tr :=
  .read fun d =>
    let en := d.forceFld VEC_CTL VEC_CTL_OCC_EN (pk / 168) = 1
    .cell pk fun cs => { cs with
      spad := cs.spad.put a bs,
      spadOcc := spadOccAfter en cs.spadOcc a bs,
      poison := cs.poison.filter fun k => !(k % 3 = 0 && a ≤ k / 3 * 8 && k / 3 * 8 + 8 ≤ a + bs.length) }

/-- Whether a scratchpad range holds a poisoned word (R97). -/
def CellSt.spadPoison (cs : CellSt) (a n : Nat) : Bool :=
  cs.poison.any fun k => k % 3 = 0 && a < k / 3 * 8 + 8 && k / 3 * 8 < a + n
/-- Whether a tile register holds a poisoned word. -/
def CellSt.tilePoison (cs : CellSt) (r : Nat) : Bool := cs.poison.any fun k => k % 3 = 1 && k / 3 / 512 = r
/-- Whether an accumulator tile holds a poisoned word. -/
def CellSt.accPoison (cs : CellSt) (a : Nat) : Bool := cs.poison.any fun k => k % 3 = 2 && k / 3 / 512 = a

/-- An instruction that reads poisoned scratchpad, tile or accumulator words consumes poison: the thread traps (R97,
R355). -/
def Ctx.unpoisoned (x : Ctx) (p : CellSt → Bool) (k : Tr) : Tr :=
  .read fun d =>
    if p (d.cellAt x.pk) then .trap x.pk x.t .memory stPOISON_CONSUMED x.th.pc else k

/-! ## The census (R174, R176) and the sticky bits of FPCTL (R169) -/

/-- What an instruction's written values count for one census index: TOTAL, OVERFLOW, VANISHED, NAN. -/
structure Tally where
  total : Nat := 0
  ovfl : Nat := 0
  van : Nat := 0
  nan : Nat := 0
deriving DecidableEq, Repr

/-- The sum of two tallies. -/
def Tally.add (a b : Tally) : Tally :=
  { total := a.total + b.total, ovfl := a.ovfl + b.ovfl, van := a.van + b.van, nan := a.nan + b.nan }

/-- What a list of written elements counts; `created i` says whether element i's NaN is created (R168), or counts
because a NaN was converted to an integer. -/
def tallyOf (es : List Elt) (nanCounts : Nat → Bool) : Tally :=
  es.zipIdx.foldl (fun a (e, i) =>
    { total := a.total + 1, ovfl := a.ovfl + b01 e.ovfl, van := a.van + b01 e.van,
      nan := a.nan + b01 (e.isNan && nanCounts i) }) {}

/-- The census counters of a cell grow by a tally at a census index (32 bits, saturating: R176). -/
def CellSt.count (cs : CellSt) (idx : Nat) (a : Tally) : CellSt :=
  let add := fun (m : List (Nat × Nat)) (k n : Nat) => if n = 0 then m else aupd m k 0 fun v => satAdd 32 v n
  let m := add (add cs.census (4 * idx) a.total) (4 * idx + 1) a.ovfl
  let m := add (add m (4 * idx + 2) a.van) (4 * idx + 3) a.nan
  { cs with census := m }

/-- The sticky bits that a tally sets (R169). -/
def Thread.sticky (th : Thread) (a : Tally) : Thread :=
  let s := fun (v : Nat) (b : Nat) (on : Bool) => if on then putBits v b 1 1 else v;
  { th with fpctl := s (s (s th.fpctl 16 (a.ovfl ≠ 0)) 17 (a.van ≠ 0)) 18 (a.nan ≠ 0) }

/-- Counting of an instruction's values: census and sticky bits. -/
def Ctx.tally (x : Ctx) (idx : Nat) (a : Tally) : Tr :=
  .seq [.cell x.pk fun cs => cs.count idx a, .thread x.pk x.t fun th => th.sticky a]

/-- A created NaN as the NaN trap record names it (R172): unit, destination format, kind, element. -/
structure NanEvent where
  unit : Nat
  fmt : Nat
  kind : Nat
  elem : Nat
deriving DecidableEq, Repr

/-- The NaN trap record of R172. -/
def nanRecordBytes (d : Dev) (x : Ctx) (e : NanEvent) : List Byte :=
  leBytes 8 d.beatIdx ++ leBytes 8 (x.th.pc % 2 ^ 57) ++ leBytes 2 x.c ++ leBytes 2 x.p ++ leBytes 1 x.t ++
    leBytes 1 e.unit ++ leBytes 2 (bitsOf x.w 0 12) ++ leBytes 1 e.fmt ++ leBytes 1 e.kind ++ leBytes 2 0 ++
    leBytes 4 e.elem

/-- The first-NaN trap (R171, R172): taken after the instruction has written all its results, once per thread. -/
def Ctx.nanTrap (x : Ctx) (e : Option NanEvent) : Tr :=
  .read fun d =>
    match e with
    | none => .skip
    | some e =>
      let th := d.threadAt x.pk x.t
      if bitOf th.fpctl 4 && !th.nanDone then
        .seq [
          .thread x.pk x.t fun th => { th with nanDone := true },
          .cell x.pk fun cs => { cs with nanTraps := cs.nanTraps + 1 },
          .nanRecord x.die (nanRecordBytes d x e),
          .trap x.pk x.t .nan stNAN_TRAP x.th.pc]
      else .skip

/-! ## Numeric control (R150, R169) -/

/-- The rounding of an instruction's 3-bit RM field: 0 to 3, or 4 for FPCTL.RMODE. -/
def Ctx.rmode (x : Ctx) (rm : Nat) : RMode := if rm < 4 then .ofCode rm else .ofCode (bitsOf x.th.fpctl 0 2)

/-- The numeric controls of an instruction that rounds by its RM field. -/
def Ctx.ctl (x : Ctx) (rm : Nat) : NumCtl :=
  { mode := x.rmode rm, ovf := bitOf x.th.fpctl 3, ftz := bitOf x.th.fpctl 2, mxFit := bitOf x.th.fpctl 7 }

/-- The generator after an instruction of `n` destination positions (R154). -/
def Ctx.srStep (x : Ctx) (mode : RMode) (n : Nat) : Tr :=
  if mode = .sr then .thread x.pk x.t (fun th => { th with srseed := (th.srseed + n * srG) % 2 ^ 64 }) else .skip

end Sys2Proof.Machine
end

