-- ==== Sys2Proof/Machine/Cast.lean ====
section
/-! DEFINITION. Vector-quantised blocks: headers, checks, moulds and expansion (08_weight_compression.md). -/

namespace Sys2Proof.Machine

/-- CRC-32C (R310): the reflected polynomial of 0x1EDC6F41. -/
def crc32c (bs : List Byte) : Nat :=
  let step := fun (c : Nat) => if c % 2 = 1 then (c / 2) ^^^ 0x82F63B78 else c / 2
  (bs.foldl (fun c b => (List.range 8).foldl (fun c _ => step c) (c ^^^ b.toNat)) 0xFFFFFFFF) ^^^ 0xFFFFFFFF

/-- A block header (R310). -/
structure Block where
  runs : Bool
  mould : Nat
  fmt : Nat
  gen : Nat
  nelem : Nat
  slot : Nat
  bits : Nat
  crc : Nat
  /-- TAG, VERSION and the reserved fields are as R310 says, and GEN is not 0. -/
  good : Bool
deriving Repr

/-- The header in the first 32 bytes of a slot. -/
def blockOf (h : List Byte) : Block :=
  { runs := (leAt h 3 1).testBit 0, mould := leAt h 4 1 % 16, fmt := leAt h 5 1 % 16, gen := leAt h 6 2,
    nelem := leAt h 8 4, slot := (leAt h 12 1 % 16 + 1) * 4096, bits := leAt h 16 4, crc := leAt h 20 4,
    good := leAt h 0 2 = 0x5651 && leAt h 2 1 = 1 && leAt h 3 1 < 2 && leAt h 4 1 < 16 && leAt h 5 1 < 16 &&
      leAt h 12 1 < 16 && leAt h 13 3 = 0 && leAt h 24 8 = 0 && leAt h 6 2 ≠ 0 }

/-- The bytes of the header and payload together. -/
def Block.used (b : Block) : Nat := 32 + cdiv b.bits 8
/-- The bytes fetched of a slot (R325). -/
def Block.fetched (b : Block) : Nat := 64 * max 8 (cdiv b.used 64)

/-- The local address of a mould's entries in the mould store window (R41, R321). -/
def mouldAddr (die m : Nat) : Nat := 0x0C200000000 + die * 2 ^ 24 + m * 2 ^ 20

/-- Whether mould `m` of a die is LIVE or DRAINING at a generation (R315). -/
def Dev.mouldHolds (d : Dev) (die m gen : Nat) : Bool :=
  2 ≤ d.fld VQ_MOULD VQ_MOULD_STATE die m && d.fld VQ_MOULD VQ_MOULD_GEN die m = gen

/-- VQ_MOULD_GEOM_m. -/
structure Geom where
  fmt : Nat
  v : Nat
  b : Nat
  bytes : Nat
deriving DecidableEq, Repr

/-- The geometry of a mould. -/
def Dev.geom (d : Dev) (die m : Nat) : Geom :=
  { fmt := d.fld VQ_MOULD_GEOM VQ_MOULD_GEOM_FMT die m, v := d.fld VQ_MOULD_GEOM VQ_MOULD_GEOM_V die m,
    b := d.fld VQ_MOULD_GEOM VQ_MOULD_GEOM_B die m, bytes := d.fld VQ_MOULD_GEOM VQ_MOULD_GEOM_BYTES die m }

/-- Bytes of one vector. -/
def Geom.vecBytes (g : Geom) : Nat := g.v * fmtBits g.fmt / 8

/-- Check 4 of R327. -/
def Block.geomOk (b : Block) (g : Geom) : Bool :=
  b.fmt = g.fmt && b.nelem ≠ 0 && g.v ≠ 0 && b.nelem % g.v = 0 && b.nelem * fmtBits g.fmt ≤ 8 * b.slot && b.used ≤ b.slot

/-- Check 5 of R327: the CRC of bytes 0 to 19 and of the payload. `bs` are the block's bytes from its header on. -/
def Block.crcOk (b : Block) (bs : List Byte) : Bool :=
  crc32c (bs.take 20 ++ (bs.drop 32).take (cdiv b.bits 8)) = b.crc

/-- The expansion of R311 and R312: the vectors produced, and the status it ends with. `pl` is the payload as a number. -/
def expandGo (b : Block) (g : Geom) (pl : Nat) (entry : Nat → List Byte) :
    Nat → Nat → Nat → List (List Byte) → List (List Byte) × Nat
  | 0, _, out, acc => (acc, if out < b.nelem then stVQ_LENGTH_SHORT else stOK)
  | fuel + 1, pos, out, acc =>
    if b.bits - pos < g.b then (acc, if out < b.nelem then stVQ_LENGTH_SHORT else stOK)
    else
      let c := bitsOf pl pos g.b
      let pos := pos + g.b
      let put := fun (n : Nat) (src : List Byte) (pos : Nat) =>
        if b.nelem < out + n then (src.take ((b.nelem - out) * fmtBits g.fmt / 8) :: acc, stVQ_LENGTH_LONG)
        else expandGo b g pl entry fuel pos (out + n) (src :: acc)
      if b.runs && c = 2 ^ g.b - 1 then
        if b.bits - pos < 8 then (acc, if out < b.nelem then stVQ_LENGTH_SHORT else stOK)
        else
          let n := (bitsOf pl pos 8 + 1) * g.v
          put n (List.replicate (n * fmtBits g.fmt / 8) 0) (pos + 8)
      else put g.v (entry c) pos

/-- The expanded bytes of a block, and VQ_LENGTH_LONG, VQ_LENGTH_SHORT or OK. -/
def Block.expand (b : Block) (g : Geom) (bs : List Byte) (entry : Nat → List Byte) : List Byte × Nat :=
  let (acc, st) := expandGo b g (leNat ((bs.drop 32).take (cdiv b.bits 8))) entry b.bits 0 0 []
  (acc.reverse.flatten, st)

/-- What a block's destination gets (R323, R328): the expanded bytes, and zeros to the end of the slot when it casts
without error. -/
def Block.content (b : Block) (g : Geom) (bs : List Byte) (entry : Nat → List Byte) : List Byte × Nat :=
  let (out, st) := b.expand g bs entry
  (if st = stOK then out ++ List.replicate (b.slot - out.length) 0 else out, st)

/-- KIND of R327 for the status of an expansion. -/
def lengthKind (st : Nat) : Nat := if st = stVQ_LENGTH_LONG then 5 else 6

/-- A block that ends with a status (R329). -/
def Tr.vqErr (die kind status mould gen addr : Nat) : Tr :=
  .read fun d => .seq [
    .when (status = stCODEBOOK_RETIRED) (.bump VQ_RETIRED die),
    .when (status = stVQ_LENGTH_LONG || status = stVQ_LENGTH_SHORT) (.bump VQ_LENGTH_ERRS die),
    .when (status = stMALFORMED) (.bump VQ_HEADER_ERRS die),
    if d.flag VQ_ERR VQ_ERR_VALID die then .fld VQ_ERR VQ_ERR_MORE die 1
    else .seq [
      .reg VQ_ERR die (w64 (1 + b01 (d.flag VQ_ERR VQ_ERR_MORE die) * 2 + kind * 16 + status * 2 ^ 16 + mould * 2 ^ 32 +
        gen * 2 ^ 48)),
      .reg VQ_ERR_ADDR die (w64 addr)]]

/-- A mould's reference count (R315): its casting requests in flight, and its attachments. -/
def Dev.mouldRefs (d : Dev) (die m : Nat) : Nat :=
  ((d.u.ops.filter fun o => o.pk / 168 = die).map fun o =>
    (o.reqs.filter fun r => r.mould = some m && r.st ≠ .done).length).foldl (· + ·) 0 +
  ((d.u.cells.filter fun e => e.1 / 168 = die).map fun e =>
    (e.2.att.filter fun a => a.2.1 = m).length).foldl (· + ·) 0

/-- REFS of every mould of a die. -/
def Tr.mouldRefs (die : Nat) : Tr :=
  .read fun d => .each (List.range 16) fun m =>
    let n := d.mouldRefs die m % 2 ^ 15
    .when (d.fld VQ_MOULD VQ_MOULD_REFS die m ≠ n) (.fld VQ_MOULD VQ_MOULD_REFS die n m)

/-- A mould becomes FREE (R315): GEN, geometry and its references are gone. -/
def Tr.mouldFree (die m : Nat) : Tr :=
  .seq [.fld VQ_MOULD VQ_MOULD_STATE die 0 m, .fld VQ_MOULD VQ_MOULD_GEN die 0 m, .fld VQ_MOULD VQ_MOULD_REFS die 0 m,
    .reg VQ_MOULD_GEOM die 0 m,
    .units fun u => { u with badMould := u.badMould.filter (· ≠ die * 16 + m) }]

/-- A DRAINING mould without references becomes FREE at an edge whose beat's work is complete (R317). -/
def Tr.mouldsDrained (die : Nat) : Tr :=
  .seq [.mouldRefs die, .read fun d => .each (List.range 16) fun m =>
    .when (d.fld VQ_MOULD VQ_MOULD_STATE die m = 3 && d.mouldRefs die m = 0) (.mouldFree die m)]

/-- An uncorrectable word of a mould (R320): VQ_MOULD_m.ERR, and the mould stays bad until it is loaded again. -/
def Tr.mouldError (die m : Nat) : Tr :=
  .seq [.fld VQ_MOULD VQ_MOULD_ERR die 1 m,
    .units fun u => { u with badMould := (die * 16 + m) :: u.badMould.filter (· ≠ die * 16 + m) }]

/-- The enabled casting ranges of a die (R322, R332): first and last global address. -/
def Dev.castRanges (d : Dev) (die : Nat) : List (Nat × Nat) :=
  (List.range 16).filterMap fun n =>
    if d.forceFld VQ_RANGE_BASE VQ_RANGE_BASE_EN die n = 1 then
      some (d.forceFld VQ_RANGE_BASE VQ_RANGE_BASE_BASE die n * 2 ^ 21,
        (d.forceFld VQ_RANGE_LIMIT VQ_RANGE_LIMIT_LIMIT die n + 1) * 2 ^ 21 - 1)
    else none

/-- The casting range that holds a global address. -/
def rangeOf (rs : List (Nat × Nat)) (ga : Nat) : Option (Nat × Nat) := rs.find? fun r => r.1 ≤ ga && ga ≤ r.2

end Sys2Proof.Machine
end

