-- ==== Sys2Proof/Machine/Flags.lean ====
section
/-! DEFINITION. Condition computations: the comparisons of CMP (R125) and VCMP (R210), the combinations of CLOG (R125). -/

namespace Sys2Proof.Machine

/-- CMP of two 64-bit values: 0 EQ, 1 NE, 2 LT, 3 GE, 4 LTU, 5 GEU; 6 and 7 are reserved (R125). -/
def cmpCond (code a b : Nat) : Option Bool :=
  match code with
  | 0 => some (a == b)
  | 1 => some (a != b)
  | 2 => some (decide (signed 64 a < signed 64 b))
  | 3 => some (decide (signed 64 b ≤ signed 64 a))
  | 4 => some (decide (a < b))
  | 5 => some (decide (b ≤ a))
  | _ => none

/-- CLOG: 0 AND, 1 OR, 2 XOR, 3 AND-NOT (R125). -/
def clogOp (code : Nat) (a b : Bool) : Bool :=
  match code % 4 with
  | 0 => a && b
  | 1 => a || b
  | 2 => a != b
  | _ => a && !b

/-- VCMP: 0 EQ, 1 NE, 2 LT, 3 LE, 4 GT, 5 GE (R210); with a NaN operand false, except not-equal, which is true (R168). -/
def vcmpCond (code : Nat) (a b : Val) : Bool :=
  match code with
  | 0 => a.eqv b
  | 1 => !a.eqv b
  | 2 => a.lt b
  | 3 => a.lt b || a.eqv b
  | 4 => b.lt a
  | _ => b.lt a || a.eqv b

end Sys2Proof.Machine
end

