-- ==== Sys2Proof/Machine/Operands.lean ====
section
/-! DEFINITION. The operand forms of the control and scalar classes (R124, R125), and the masks of the fields an operation
uses (R123). -/

namespace Sys2Proof.Machine

/-- The mask of the field of `w` bits at `lo`. -/
def fmask (lo w : Nat) : Nat := (2 ^ w - 1) * 2 ^ lo

/-- RD. -/
def mRD : Nat := fmask 16 5
/-- RS1. -/
def mRS1 : Nat := fmask 21 5
/-- RS2. -/
def mRS2 : Nat := fmask 26 5
/-- CD. -/
def mCD : Nat := fmask 31 3
/-- CS1. -/
def mCS1 : Nat := fmask 34 3
/-- CS2. -/
def mCS2 : Nat := fmask 37 3
/-- I. -/
def mI : Nat := fmask 40 1
/-- IMM[n-1:0]. -/
def mIMM (n : Nat) : Nat := fmask 64 n

/-- RD. -/
def Ctx.rd (x : Ctx) : Nat := x.f 16 5
/-- s[RS1]. -/
def Ctx.rs1 (x : Ctx) : Nat := x.s 21
/-- s[RS2]. -/
def Ctx.rs2 (x : Ctx) : Nat := x.s 26
/-- IMM. -/
def Ctx.imm (x : Ctx) : Nat := iImm x.w
/-- "operand" of R125: IMM when I = 1, s[RS2] when I = 0. -/
def Ctx.operand (x : Ctx) : Nat := if x.f 40 1 = 1 then x.imm else x.rs2

/-- The debug mode of the package (R664). -/
def Dev.debug (d : Dev) : Bool := d.flag BOOT_STATUS BOOT_STATUS_DEBUG HD

end Sys2Proof.Machine
end

