-- ==== Sys2Proof/Machine/Control.lean ====
section
/-! DEFINITION. The control class (R125, R126, R128), and the end of a sleep.
FENCE stands beside the fences of the port dies. -/

namespace Sys2Proof.Machine

/-- Waiting threads of a cell whose condition holds go on. -/
def Tr.wake (pk : Nat) : Tr := .units fun u => u.wake pk

/-- NOP: none. -/
def execNop (c : PCell) (t : Tid) (w : Word128) (s : State) := run (onWord 0 0 w (issue c t w 0 fun x => x.next)) s

/-- ENDB: the thread enters ENDED; IMM[0] is CARRY (R95). Its held run-ahead entries go (R139), and barriers that waited
for it move (R126). -/
def endbTr (c : PCell) (t : Tid) (w : Word128) : Tr :=
  issue c t w (mIMM 1) fun x => .seq [
    .thread x.pk x.t fun th => { th with st := .ended, wait := .nothing, carry := x.imm.testBit 0 },
    .dropRunAhead x.pk fun e => e.thread = x.t,
    .cell x.pk fun cs => cs.barriers]
/-- ENDB (R95). -/
def execEndb (c : PCell) (t : Tid) (w : Word128) (s : State) := run (onWord 0 1 w (endbTr c t w)) s

/-- A taken branch to `target` that leaves the loops not around it (R125). -/
def Thread.branch (th : Thread) (target : Nat) : Thread :=
  { th with pc := target % 2 ^ 64, loops := leaveLoops (target % 2 ^ 64) th.loops }

/-- The target of a relative branch: pc + IMM * 16, IMM signed. -/
def Ctx.relTarget (x : Ctx) : Nat := unsigned 64 ((x.th.pc : Int) + signed 64 x.imm * 16)

/-- BR. -/
def execBr (c : PCell) (t : Tid) (w : Word128) (s : State) :=
  run (onWord 0 2 w (issue c t w (mIMM 64) fun x => .thread x.pk x.t fun th => th.branch x.relTarget)) s

/-- BRR: a target that is not 16-byte aligned traps with cause ILLEGAL. -/
def execBrr (c : PCell) (t : Tid) (w : Word128) (s : State) :=
  run (onWord 0 3 w (issue c t w mRS1 fun x =>
    if x.rs1 % 16 ≠ 0 then x.illegal else .thread x.pk x.t fun th => th.branch x.rs1)) s

/-- A trap with cause STACK. -/
def Ctx.stackTrap (x : Ctx) : Tr := .trap x.pk x.t .stack stMALFORMED x.th.pc

/-- CALL: pushes pc + 16 on the return stack, 8 deep. -/
def execCall (c : PCell) (t : Tid) (w : Word128) (s : State) :=
  run (onWord 0 4 w (issue c t w (mIMM 64) fun x =>
    if x.th.rets.length ≥ 8 then x.stackTrap
    else .thread x.pk x.t fun th => { th with pc := x.relTarget, rets := (x.th.pc + 16) :: th.rets })) s

/-- RET: pops the return stack into pc. Where that is the end of a loop's body, the loop goes on as after any last
instruction of its body (log 21). -/
def execRet (c : PCell) (t : Tid) (w : Word128) (s : State) :=
  run (onWord 0 5 w (issue c t w 0 fun x =>
    match x.th.rets with
    | [] => x.stackTrap
    | r :: rs => .thread x.pk x.t fun th =>
        let (pc, ls) := loopNext r th.loops
        { th with pc := pc, loops := ls, rets := rs })) s

/-- LOOP: repeats the next IMM[47:32] instructions; a count of 0 skips the body; a length of 0 is NOP. -/
def execLoop (c : PCell) (t : Tid) (w : Word128) (s : State) :=
  run (onWord 0 6 w (issue c t w (mRS1 ||| mI ||| mIMM 48) fun x =>
    let len := bitsOf x.imm 32 16
    let count := (if x.f 40 1 = 1 then x.imm else x.rs1) % 2 ^ 32
    if len = 0 then x.next
    else if count = 0 then
      .thread x.pk x.t fun th =>
        let (pc, ls) := loopNext (th.pc + 16 + 16 * len) th.loops
        { th with pc := pc, loops := ls }
    else if x.th.loops.length ≥ 4 then x.stackTrap
    else .thread x.pk x.t fun th =>
      { th with pc := th.pc + 16, loops := { first := th.pc + 16, len := len, left := count } :: th.loops })) s

/-- CMP: c[CD] := s[RS1] compared with the operand; conditions 6 and 7 are reserved. -/
def execCmp (c : PCell) (t : Tid) (w : Word128) (s : State) :=
  run (onWord 0 7 w (issue c t w (fmask 16 3 ||| mRS1 ||| mRS2 ||| mCD ||| mI ||| mIMM 64) fun x =>
    match cmpCond (x.f 16 3) x.rs1 x.operand with
    | none => x.illegal
    | some b => x.nextWith fun th => th.setC (x.f 31 3) b)) s

/-- CLOG: c[CD] := c[CS1] op c[CS2]. -/
def execClog (c : PCell) (t : Tid) (w : Word128) (s : State) :=
  run (onWord 0 8 w (issue c t w (fmask 16 2 ||| mCD ||| mCS1 ||| mCS2) fun x =>
    x.nextWith fun th => th.setC (x.f 31 3) (clogOp (x.f 16 2) (th.creg (x.f 34 3)) (th.creg (x.f 37 3))))) s

/-- The thread goes on at the next instruction once `wait` is over. -/
def Ctx.nextWait (x : Ctx) (st : TState) (wait : WaitOn) : Tr :=
  .seq [x.nextWith fun th => { th with st := st, wait := wait }, .wake x.pk]

/-- WAITM: waits in WAIT_MEM until at most IMM[6:0] (0 to 64) of the thread's requests are in flight. -/
def execWaitm (c : PCell) (t : Tid) (w : Word128) (s : State) :=
  run (onWord 0 9 w (issue c t w (mIMM 7) fun x =>
    if x.imm > 64 then x.illegal else x.nextWait .waitMem (.requests x.imm))) s

/-- WAITT: waits in WAIT_DEP until tile register t(IMM[5:0]) has no pending write. -/
def execWaitt (c : PCell) (t : Tid) (w : Word128) (s : State) :=
  run (onWord 0 10 w (issue c t w (mIMM 6) fun x => x.withTiles [x.imm] fun ts => x.nextWait .waitDep (.tile (ts.getD 0 0)))) s

/-- SLEEP: for IMM[31:0] cycles; IMM = 0 sleeps for the wait held in WAITHINT. -/
def execSleep (c : PCell) (t : Tid) (w : Word128) (s : State) :=
  run (onWord 0 11 w (issue c t w (mIMM 32) fun x => .read fun d =>
    let n := if x.imm = 0 then x.th.hint else x.imm
    if n = 0 then x.next
    else x.nextWith fun th => { th with st := .sleep, wait := .until_ (d.elapsed + cyclesTime n) })) s

/-- BAR: waits at barrier IMM[17:16] with thread mask IMM[15:0] (R126). -/
def execBar (c : PCell) (t : Tid) (w : Word128) (s : State) :=
  run (onWord 0 12 w (issue c t w (mIMM 18) fun x => .seq [
    x.nextWith fun th => { th with st := .barrier, wait := .bar (bitsOf x.imm 16 2) (bitsOf x.imm 0 16) },
    .cell x.pk fun cs => cs.barriers])) s

/-- The special registers of R128; none for an unlisted number. -/
def Dev.special (d : Dev) (x : Ctx) (n : Nat) : Option Nat :=
  let edge := d.origin + (d.u.beat.beginEdge + 1) * d.period
  match n with
  | 0 => some x.t
  | 1 => some x.c
  | 2 => some x.p
  | 3 => some d.beatIdx
  | 4 => some ((d.u.time.now - d.u.beat.beganAt) * 940 / oneUs)
  | 5 => some ((edge - d.u.time.now) * 940 / oneUs)
  | 6 => some x.role
  | 7 => some x.th.fpctl
  | 8 => some x.th.srseed
  | 9 => some (if d.forceFld STRM_CTL STRM_CTL_HINT_EN x.die = 1 then x.th.hint else 0)
  | 10 => some (b01 d.debug)
  | _ => none

/-- MFS: s[RD] := special register IMM[7:0]; an unlisted number traps with cause ILLEGAL. -/
def execMfs (c : PCell) (t : Tid) (w : Word128) (s : State) :=
  run (onWord 0 14 w (issue c t w (mRD ||| mIMM 8) fun x => .read fun d =>
    match d.special x x.imm with
    | none => x.illegal
    | some v => x.nextWith fun th => th.setS x.rd v)) s

/-- The bits of FPCTL that are not reserved (R169). -/
def fpctlMask : Nat := 0xF00FF

/-- MTS: special register IMM[7:0] := s[RS1]; an unlisted or read-only register traps with cause ILLEGAL. -/
def execMts (c : PCell) (t : Tid) (w : Word128) (s : State) :=
  run (onWord 0 15 w (issue c t w (mRS1 ||| mIMM 8) fun x =>
    match x.imm with
    | 7 => x.nextWith fun th => { th with fpctl := x.rs1 &&& fpctlMask }
    | 8 => x.nextWith fun th => { th with srseed := x.rs1 }
    | _ => x.illegal)) s

/-- BRK: in debug mode a trap record with cause BREAK, and the thread goes on; otherwise NOP. -/
def execBrk (c : PCell) (t : Tid) (w : Word128) (s : State) :=
  run (onWord 0 16 w (issue c t w 0 fun x => .read fun d =>
    .seq [.when d.debug (.trapRecord x.pk x.t .brk 0 x.th.pc), x.next])) s

/-- SLEEP_EXPIRE: the sleep's end has come, and the thread is READY (R125). -/
def execSleepExpire (c : PCell) (t : Tid) (s : State) :=
  run (.read fun d => .opt (d.physOf c.val) fun pk =>
    match (d.threadAt pk t.val).wait with
    | .until_ e =>
      .when (e ≤ d.elapsed) (.thread pk t.val fun th => { th with st := .ready, wait := .nothing })
    | _ => .skip) s

end Sys2Proof.Machine
end

