-- ==== Sys2Proof/Machine/Guard.lean ====
section
/-! DEFINITION. Register fields whose register table discards some values: the field then keeps the value it had (log 50). -/

namespace Sys2Proof.Machine

/-- A field outside `lo` to `hi`. -/
def Fld.outside (f : Fld) (lo hi : Nat) (v : Word) : Bool := f.get v < lo || hi < f.get v

/-- The fields of a register, on a die, of which a written value is discarded: the field, and whether it is (R8 and the register
tables). -/
def Dev.discards (d : Dev) (r : Reg) (die : Nat) (v : Word) : List (Fld × Bool) :=
  let out := fun (f : Fld) lo hi => (f, f.outside lo hi v)
  if r.base = BEAT_PLAN_CFG.base then [out BEAT_PLAN_CFG_LEN 1 1048576]
  else if r.base = BEAT_PERIOD.base then [(BEAT_PERIOD_PERIOD_US, d.runBit || BEAT_PERIOD_PERIOD_US.outside 2 1000 v)]
  else if r.base = BEAT_ORIGIN.base then [(BEAT_ORIGIN_VALUE, d.runBit)]
  else if r.base = MEM_ILV_REQ.base then [(MEM_ILV_REQ_PKG_WIDE, !d.pkgFeature 64)]
  else if r.base = MEM_ILV_REQ_TOP.base then [(MEM_ILV_REQ_TOP_PKG_WIDE, !d.pkgFeature 64)]
  else if r.base = SPARE_EVQ_CFG.base then [out SPARE_EVQ_CFG_SIZE_LOG2 4 16]
  else if r.base = SPARE_THRESH.base then
    let low := SPARE_THRESH_RETIRE.get v < SPARE_THRESH_WARN.get v
    [(SPARE_THRESH_WARN, low), (SPARE_THRESH_RETIRE, low)]
  else if r.base = MEM_ERRQ_CFG_HD.base then [out MEM_ERRQ_CFG_HD_SIZE_LOG2 4 16]
  else if r.base = MGMT_LEASE_CFG.base then [out MGMT_LEASE_CFG_LOW_PCT 1 99]
  else if r.base = PWR_DUSK_CFG.base then [out PWR_DUSK_CFG_TIMEOUT_MS 1 65535]
  else if r.base = ARB_CFG.base then [out ARB_CFG_WINDOW 16 65535, out ARB_CFG_QUOTA0 1 65535, out ARB_CFG_QUOTA1 1 65535]
  else if r.base = COH_CTL.base && die < 5 then
    [(COH_CTL_ATOM_MODE, COH_CTL_ATOM_MODE.get v = 3 || !d.pkgFeature 65)]
  else if die < 4 then
    if r.base = ROUTE_CTL.base then
      [out ROUTE_CTL_THRESH 1 3, out ROUTE_CTL_SPEC_WAYS 0 8, (ROUTE_CTL_PRED_EN, !d.dieFeature die 114)]
    else if r.base = ROUTE_SPEC_CFG.base then [out ROUTE_SPEC_CFG_LIMIT 0 4096]
    else if r.base = SPARSE_CTL.base then [(SPARSE_CTL_EN_14, !d.dieFeature die 113)]
    else if r.base = XLAT_WDOG.base then [out XLAT_WDOG_TIMEOUT_US 1 65535]
    else if r.base = CMD_CTL.base then [out CMD_CTL_QLIMIT 1 256]
    else if r.base = VEC_CENSUS_CFG.base then [out VEC_CENSUS_CFG_MODE 0 2, out VEC_CENSUS_CFG_SLOTS_LOG2 0 12]
    else if r.base = VEC_NANQ_CFG.base then [out VEC_NANQ_CFG_SIZE_LOG2 4 16]
    else if r.base = STRM_DMA_CFG.base then [out STRM_DMA_CFG_LIMIT 1 6144]
    else if r.base = MEM_CTL.base then [out MEM_CTL_ECC_T 0 4, out MEM_CTL_CE_REC_MIN 0 4]
    else if r.base = MEM_SCRUB_CFG.base then [out MEM_SCRUB_CFG_PERIOD_H 1 255]
    else if r.base = MEM_ERRQ_CFG.base then [out MEM_ERRQ_CFG_SIZE_LOG2 4 16]
    else if r.base = ING_CTL.base then [out ING_CTL_CARRY_MAX 1 4096]
    else []
  else if die = 5 || die = 6 then
    if r.base = FAB_CTL.base then [out FAB_CTL_HOP_LIMIT 1 15]
    else if r.base = FAB_TP_CFG.base then
      [out FAB_TP_CFG_RTO_US 1 65535, out FAB_TP_CFG_RETRIES 1 15, out FAB_TP_CFG_WINDOW 8 4095]
    else if r.base = FAB_HB_CFG.base then [out FAB_HB_CFG_PERIOD_US 1 65535, out FAB_HB_CFG_MISS 1 15]
    else if r.base = FAB_FM_RING.base then [out FAB_FM_RING_SIZE_LOG2 4 16]
    else []
  else []

/-- A written value with every discarded field as the register holds it. -/
def Dev.guarded (d : Dev) (r : Reg) (die : Nat) (v : Word) (i j : Nat := 0) : Word :=
  (d.discards r die v).foldl (fun v e => if e.2 then e.1.put v (d.fld r e.1 die i j) else v) v

/-- A write of a register by its fields' access codes, without the fields that are discarded. -/
def Tr.guardedWrite (r : Reg) (die : Nat) (v : Word) (i j : Nat := 0) : Tr :=
  .read fun d => .writeReg r die (d.guarded r die v i j) i j

/-- As `Tr.guardedWrite`, for a register whose write takes effect at an edge or a window end (R71, R598). -/
def Tr.guardedStaged (r : Reg) (die : Nat) (v : Word) (i j : Nat := 0) : Tr :=
  .read fun d => .writeStaged r die (d.guarded r die v i j) i j

end Sys2Proof.Machine
end

