-- ==== Sys2Proof/Machine/Patina.lean ====
section
/-! DEFINITION. Units, service records and patina (R603 to R613, R633). -/

namespace Sys2Proof.Machine

/-- A unit's key. -/
def ukey (kind die idx : Nat) : Nat := kind * 2 ^ 24 + die * 2 ^ 20 + idx
/-- The kind of a unit key. -/
def ukKind (k : Nat) : Nat := k / 2 ^ 24
/-- The die of a unit key. -/
def ukDie (k : Nat) : Nat := k / 2 ^ 20 % 16
/-- The index of a unit key. -/
def ukIdx (k : Nat) : Nat := k % 2 ^ 20

/-- UCIe modules of a link (R13, R603): 24 on the links between tensor dies, 8 elsewhere. -/
def linkModules (l : Nat) : Nat := if l < 4 then 24 else 8

/-- The dies at the two ends of a link (R13, R41). -/
def linkEnds : Nat → Nat × Nat
  | 0 => (0, 1) | 1 => (1, 3) | 2 => (3, 2) | 3 => (2, 0)
  | 4 => (0, 4) | 5 => (1, 4) | 6 => (2, 4) | 7 => (3, 4)
  | 8 => (0, 5) | 9 => (1, 5) | 10 => (2, 6) | _ => (3, 6)

/-- Physical units of a kind on a die (R603); for kinds 3, 5 and 7 the index is 256 * (link, home or stack) + (module or
way), as SPARE_SEL.INDEX names it (R634). -/
def unitExists (kind die idx : Nat) : Bool :=
  match kind with
  | 0 => die < 4 && idx < 168
  | 1 => die = 4 && idx < 104
  | 2 => (die = 5 || die = 6) && idx < 136
  | 3 => idx / 256 < 12 && idx % 256 < linkModules (idx / 256) &&
    (die = (linkEnds (idx / 256)).1 || die = (linkEnds (idx / 256)).2)
  | 4 => die < 4 && idx < 18
  | 5 => die < 5 && idx / 256 = die && idx % 256 < 17
  | 6 => die < 4 && idx < 192
  | 7 => die < 4 && idx / 256 < 3 && idx % 256 = 0
  | _ => false

/-- The service set and the unit's rank in its pool that Dawn fills in ascending index (R608): units in service, and the
first and last index of the pool the unit belongs to. -/
def unitPool (kind idx : Nat) : Nat × Nat × Nat :=
  match kind with
  | 0 => (160, 0, 168)
  | 1 => (96, 0, 104)
  | 4 => (16, 0, 18)
  | 5 => (16, idx / 256 * 256, idx / 256 * 256 + 17)
  | _ => (1, idx, idx + 1)

/-- The state Dawn leaves a unit in (R608). -/
def SpareSt.dawnState (s : SpareSt) (kind die idx : Nat) : Nat :=
  if s.failed.contains (ukey kind die idx) then 4
  else
    if kind = 2 then
      let hurt := (List.range 16).any fun i => s.failed.contains (ukey kind die (idx / 17 * 17 + i))
      if idx % 17 = 16 && !hurt then 1 else 0
    else
    let (n, lo, _) := unitPool kind idx
    let gone := (s.failed.filter fun k => ukey kind die lo ≤ k && k < ukey kind die idx).length
    if idx - lo - gone < n then 0 else 1

/-- A unit's present state. -/
def SpareSt.unit (s : SpareSt) (k : Nat) : UnitSt :=
  (aget? s.units k).getD { st := s.dawnState (ukKind k) (ukDie k) (ukIdx k) }

/-- A change of a unit. -/
def Tr.unit (k : Nat) (f : UnitSt → UnitSt) : Tr :=
  .units fun u => { u with spare := { u.spare with units := tinsert u.spare.units k (f (u.spare.unit k)) } }

/-- The physical core behind a logical host core: the one a swap brought in, else that of Dawn (R608). -/
def Dev.hostPhys (d : Dev) (l : Nat) : Nat :=
  (aget? d.u.spare.hosts l).getD
    (if d.u.spare.failed.isEmpty then l
     else ((List.range 104).filter fun p => d.u.spare.dawnState 1 4 p = 0).getD l l)

/-- The logical host core that a physical core serves; none while it serves none. -/
def Dev.hostLogical (d : Dev) (p : Nat) : Option Nat := (List.range 96).find? fun l => d.hostPhys l = p

/-- The physical lane of its port die that logical lane `i` of port `k` uses (FAB_PORT_LANES_k). -/
def Dev.lanePhys (d : Dev) (k i : Nat) : Nat := bitsOf (d.reg FAB_PORT_LANES (5 + k / 16) (k % 16)).toNat (8 * i) 8

/-- The LOGICAL field of R633 for a unit. -/
def Dev.unitLogical (d : Dev) (k : Nat) : Nat :=
  let die := ukDie k
  let idx := ukIdx k
  match ukKind k with
  | 0 =>
    if die < 4 then
      match (List.range 160).find? fun l => !d.flag CELL_MAP CELL_MAP_UNBACKED die l && d.fld CELL_MAP CELL_MAP_PHYS die l = idx with
      | some l => die * 160 + l
      | none => 0xFFFF
    else 0xFFFF
  | 1 => if (d.u.spare.unit k).st = 0 || (d.u.spare.unit k).st = 5 then (d.hostLogical idx).getD 0xFFFF else 0xFFFF
  | 2 =>
    let first := 16 * (die - 5) + idx / 17 * 2
    if (d.u.spare.unit k).st ≠ 0 && (d.u.spare.unit k).st ≠ 5 then 0xFFFF
    else ((List.range 16).find? fun j => d.lanePhys (first + j / 8) (j % 8) = idx).elim 0xFFFF (8 * first + ·)
  | _ => 0xFFFF

/-- Events of a service record (R633). -/
inductive SvcEvent where
  | warn | retireDue | swappedIn | retired | probationStart | probationPass | probationFail | deferred | deferredStart
  | unbacked | backed | pprDone
deriving DecidableEq, Repr

/-- EVENT as coded in R633. -/
def SvcEvent.code : SvcEvent → Nat
  | .warn => 1 | .retireDue => 2 | .swappedIn => 3 | .retired => 4 | .probationStart => 5 | .probationPass => 6
  | .probationFail => 7 | .deferred => 8 | .deferredStart => 9 | .unbacked => 10 | .backed => 11 | .pprDone => 12

/-- A service record (R633). `queue` is the queue of the command, 0xFFFF the management port, 0xFFFE host-die firmware,
0xFFFD the device. -/
def Tr.service (k logical : Nat) (ev : SvcEvent) (cause status queue : Nat) : Tr :=
  .read fun d =>
    .ring HD SPARE_EVQ_BASE SPARE_EVQ_CFG SPARE_EVQ_HEAD SPARE_EVQ_TAIL SPARE_EVQ_LOST SPARE_EVQ_CFG_EN
      SPARE_EVQ_CFG_SIZE_LOG2 32
      (leBytes 8 d.nowNs ++ leBytes 8 d.beatIdx ++ leBytes 1 (ukKind k) ++ leBytes 1 (ukDie k) ++ leBytes 2 (ukIdx k) ++
        leBytes 2 logical ++ leBytes 1 ev.code ++ leBytes 1 cause ++ leBytes 4 (d.u.spare.unit k).patina ++
        leBytes 2 status ++ leBytes 2 queue)

/-- A service record of the unit's own logical unit. -/
def Tr.serviceOf (k : Nat) (ev : SvcEvent) (cause status queue : Nat) : Tr :=
  .read fun d => .service k (d.unitLogical k) ev cause status queue

/-- The patina of a unit := v, with what crossing a threshold does (R613, R614). -/
def Tr.setPatina (k v : Nat) : Tr :=
  .read fun d =>
    let un := d.u.spare.unit k
    let kind := ukKind k
    let warn := d.fld SPARE_THRESH SPARE_THRESH_WARN HD kind
    let ret := d.fld SPARE_THRESH SPARE_THRESH_RETIRE HD kind
    let w := !un.warned && warn ≤ v
    let r := !un.told && ret ≤ v
    let auto := kind < 6 && (d.fld SPARE_CTL SPARE_CTL_AUTO HD).testBit kind
    .seq [
      .unit k fun un => { un with patina := v, warned := un.warned || w, told := un.told || r },
      .when w (.serviceOf k .warn 0 0 0xFFFD),
      .when r (.serviceOf k .retireDue 0 0 0xFFFD),
      .when (r && auto && un.st = 0 && un.due.isNone) (.seq [
        .unit k fun un => { un with due := some d.u.spare.seq },
        .units fun u => { u with spare := { u.spare with seq := u.spare.seq + 1 } }])]

/-- An event of some weight adds to a unit's patina (R611). -/
def Tr.patina (k weight : Nat) : Tr :=
  .read fun d => .setPatina k (satAdd 32 (d.u.spare.unit k).patina weight)

end Sys2Proof.Machine
end

