-- ==== Sys2Proof/Machine/Mem.lean ====
section
/-! DEFINITION. The memory controllers: the sector code, poison, error records, reads and writes of HBM and the bulk tier,
scrub, and page retirement (09_memory.md). -/

namespace Sys2Proof.Machine

/-- Agents of an error record (R362). -/
abbrev agCell : Nat := 0
/-- Run-ahead. -/
abbrev agRunAhead : Nat := 1
/-- Speculative fetch. -/
abbrev agSpec : Nat := 2
/-- DMA or checkpoint engine. -/
abbrev agDma : Nat := 3
/-- Host core. -/
abbrev agHost : Nat := 4
/-- Fabric transport. -/
abbrev agFabric : Nat := 5
/-- Collective engine. -/
abbrev agColl : Nat := 6
/-- Scrub. -/
abbrev agScrub : Nat := 7
/-- Controller read-modify-write. -/
abbrev agRmw : Nat := 8

/-- The GF(2^8) product of R348, over the polynomial 0x11D. -/
def gfMul (a b : Nat) : Nat :=
  (List.range 8).foldr (fun i acc =>
    let acc := acc * 2
    let acc := if acc ≥ 256 then acc ^^^ 0x11D else acc
    if b.testBit i then acc ^^^ a else acc) 0

/-- The generator polynomial of R348 without its leading coefficient, highest power first. -/
def rsGen : List Nat :=
  ((List.range 8).foldl (fun (g : List Nat × Nat) _ =>
    (List.zipWith (· ^^^ ·) (g.1 ++ [0]) (0 :: g.1.map (gfMul g.2)), gfMul g.2 2)) ([1], 1)).1.drop 1

/-- The eight check bytes of 64 data bytes (R348): the remainder of d(x)·x^8 divided by g(x). -/
def rsCheck (data : List Byte) : List Byte :=
  (data.foldl (fun (r : List Nat) b =>
    let q := b.toNat ^^^ r.headD 0
    List.zipWith (· ^^^ ·) (r.drop 1 ++ [0]) (rsGen.map (gfMul q))) (List.replicate 8 0)).map (BitVec.ofNat 8)

/-- P of R353, little-endian. -/
def poisonPattern : Nat := 0x3B7E91C40DA658F2

/-- The check bytes as stored: those of a poisoned sector XORed with P (R353). -/
def storedCheck (data : List Byte) (poison : Bool) : List Byte :=
  if poison then List.zipWith (· ^^^ ·) (rsCheck data) (leBytes 8 poisonPattern) else rsCheck data

/-- The storage sector of a local address. -/
def Dev.sector (d : Dev) (la : Nat) : Nat := d.stor la / 64

/-- Erroneous symbols stored in a sector: symbol and the XOR pattern on it. -/
def Dev.sectorErrs (d : Dev) (k : Nat) : List (Nat × Byte) := agetD d.u.mem.errs k []

/-- Whether a sector is stored poisoned. -/
def Dev.sectorPoison (d : Dev) (k : Nat) : Bool := d.u.mem.poison.contains k

/-- A symbol error added: errors on one symbol combine, and a pattern of zero is none. -/
def addErr (es : List (Nat × Byte)) (s : Nat) (b : Byte) : List (Nat × Byte) := tset (fun _ => 0) es s (agetD es s 0 ^^^ b)

/-- New symbol errors in the stored codeword of a sector (the environment's damage). -/
def Tr.damage (k : Nat) (errs : List (BitVec 7 × Byte)) : Tr :=
  .units fun u => { u with mem := { u.mem with
    errs := (errs.filter fun e => e.1.toNat < 72).foldl
      (fun t e => tset (fun _ => []) t k (addErr (agetD t k []) e.1.toNat e.2)) u.mem.errs } }

/-- How a stored sector decodes (R354). -/
inductive SecDecode where
  | good (corrected : Nat)
  | miscorrected
  | earlier
  | fresh
deriving DecidableEq, Repr

/-- The decoding of a stored sector of `e` erroneous symbols at correction limit `t` (R350, R353, R354). Beyond what the
code always detects, which of the outcomes results is a free value (log 5). -/
def secDecode (t e : Nat) (poison : Bool) (idx : Nat) : SecDecode :=
  let free := (Config.freeWord idx).toNat
  if poison then
    if e ≤ t then .earlier
    else if e ≤ 7 - t then .fresh
    else match free % 3 with | 0 => .miscorrected | 1 => .earlier | _ => .fresh
  else
    if e ≤ t then .good e
    else if e < 8 - t then .fresh
    else if e = 8 - t then (if free % 2 = 0 then .earlier else .fresh)
    else match free % 3 with | 0 => .miscorrected | 1 => .earlier | _ => .fresh

/-- The bank, column block and row fields of an error record (R339, R362). -/
def rowField (slot : Nat) : Nat := slot / 256 + slot % 64 * 2 ^ 16 + slot / 64 % 4 * 2 ^ 22

/-- SOURCE, LOCATION and ROW fields of a place, and the die whose ring takes the record. -/
def Place.errLoc : Place → Nat × Nat × Nat × Nat
  | .hbm die pc slot _ => (0, pc, rowField slot, die)
  | .bulk port _ => (2, port, 0, HD)
  | _ => (0, 0, 0, HD)

/-- An error record about the sector or frame at local address `la` (R362). -/
def Tr.errorAt (la kind symbols agent die status : Nat) (delivered : Bool) : Tr :=
  .read fun d =>
    let (src, loc, row, ring) := (d.place la).errLoc
    let sug := kind = 2 || kind = 4 || kind = 9 || (kind = 1 && symbols ≥ 3)
    .errRecord ring (leBytes 8 d.nowNs ++ leBytes 8 (la / 64 * 64) ++ leBytes 1 src ++ leBytes 1 kind ++
      leBytes 1 symbols ++ leBytes 1 agent ++ leBytes 1 die ++ leBytes 1 (b01 sug + 2 * b01 delivered) ++
      leBytes 2 loc ++ leBytes 2 status ++ leBytes 2 0 ++ leBytes 4 row)

/-- What a sector read gives: the status it ends the request with, its 64 bytes, and whether they are poisoned. -/
structure SecOut where
  st : Nat
  bytes : List Byte
  poison : Bool := false
deriving Repr

/-- The data of a sector as read, with its uncorrected symbol errors. -/
def Dev.damagedBytes (d : Dev) (la : Nat) : List Byte :=
  let es := d.sectorErrs (d.sector la)
  (d.rawBytes la 64).zipIdx.map fun (b, i) => b ^^^ agetD es i 0

/-- A change of memory bookkeeping. -/
def Tr.memSt (f : MemSt → MemSt) : Tr := .units fun u => { u with mem := f u.mem }

/-- A sector stored poisoned: its data as read, with no symbol errors left (R353, R354). -/
def Tr.poisonSector (la : Nat) : Tr :=
  .read fun d =>
    let k := d.sector la
    .seq [.rawStore la (d.damagedBytes la),
      .memSt fun m => { m with errs := terase m.errs k, poison := k :: m.poison.filter (· ≠ k) }]

/-- The read of a whole sector at a controller (R354 to R359, R364, R347). `fwd`: the reader forwards poison instead of
consuming it (R306). `scrub`: a patrol read, which delivers nothing. -/
def Tr.readSector (fwd scrub : Bool) (agent die la : Nat) (k : SecOut → Tr) : Tr :=
  .read fun d =>
    let la := la / 64 * 64
    let st := d.accessStatus la
    match d.place la with
    | .hbm sd pc _ _ =>
      if d.retiredAt la then
        .seq [.bump MEM_RETIRED_HITS sd, .errorAt (la / 4096 * 4096) 7 0 agent die stMEM_UNCORRECTABLE false,
          k { st := stMEM_UNCORRECTABLE, bytes := [] }]
      else if st ≠ stOK then
        .seq [.errorAt la 8 0 agent die stMEM_UNCORRECTABLE false, k { st := st, bytes := [] }]
      else .fresh fun idx =>
        let key := d.sector la
        let t := d.forceFld MEM_CTL MEM_CTL_ECC_T sd
        let e := (d.sectorErrs key).length
        let raw := d.rawBytes la 64
        match secDecode t e (d.sectorPoison key) idx with
        | .good n =>
          let rec_ := d.fld MEM_CTL MEM_CTL_CE_REC_MIN sd
          .seq [
            .when (n ≠ 0) (.seq [
              .bump MEM_CE_COUNT sd, .count MEM_PC MEM_PC_CE sd 1 pc,
              .patina (ukey 6 sd pc) (if n ≤ 2 then 1 else 8),
              .when (rec_ ≠ 0 && n ≥ rec_) (.errorAt la 1 n agent die 0 (!scrub)),
              .when (d.flag MEM_CTL MEM_CTL_CE_WB sd) (.memSt fun m => { m with errs := terase m.errs key })]),
            k { st := stOK, bytes := raw }]
        | .miscorrected => k { st := stOK, bytes := (List.range 64).map fun i => Config.undefByte (2 ^ 64 + idx) i }
        | .earlier =>
          if scrub || fwd then k { st := stOK, bytes := raw, poison := true }
          else .seq [.bump MEM_POISON_READS sd, .errorAt la 3 0 agent die stPOISON_CONSUMED false,
            k { st := stPOISON_CONSUMED, bytes := raw, poison := true }]
        | .fresh =>
          let data := d.damagedBytes la
          .seq [
            .poisonSector la, .bump MEM_UE_COUNT sd, .patina (ukey 6 sd pc) 1024,
            .errorAt la (if scrub then 4 else 2) 0xFF agent die (if scrub || fwd then 0 else stMEM_UNCORRECTABLE) fwd,
            k { st := if scrub || fwd then stOK else stMEM_UNCORRECTABLE, bytes := data, poison := true }]
    | .bulk port _ =>
      if d.retiredAt la then
        .seq [.errorAt (la / 4096 * 4096) 7 0 agent die stMEM_UNCORRECTABLE false,
          k { st := stMEM_UNCORRECTABLE, bytes := [] }]
      else if st ≠ stOK then
        .seq [.bump MEM_BULK_TIMEOUTS HD 1 port, .errorAt la 5 0 agent die st false, k { st := st, bytes := [] }]
      else if d.sectorPoison (d.sector la) && !fwd then
        .seq [.errorAt la 3 0 agent die stPOISON_CONSUMED false,
          k { st := stPOISON_CONSUMED, bytes := d.rawBytes la 64, poison := true }]
      else k { st := stOK, bytes := d.rawBytes la 64, poison := d.sectorPoison (d.sector la) }
    | .hole => k { st := stTRANSLATION_ABORT, bytes := [] }
    | _ => k { st := st, bytes := d.rawBytes la 64 }

/-- What a read of a range gives: the status of its first sector that does not end with OK, its bytes, and the sectors
(by index) that are poisoned. -/
structure RangeOut where
  st : Nat := stOK
  bytes : List Byte := []
  poisoned : List Nat := []
deriving Repr

/-- The sectors of a range in order, each read whole. -/
def Tr.readSectors (fwd : Bool) (agent die : Nat) : List Nat → RangeOut → (RangeOut → Tr) → Tr
  | [], o, k => k o
  | s :: ss, o, k =>
    .readSector fwd false agent die s fun r =>
      .readSectors fwd agent die ss
        { st := if o.st = stOK then r.st else o.st, bytes := o.bytes ++ r.bytes,
          poisoned := if r.poison then s :: o.poisoned else o.poisoned } k

/-- A read of `len` bytes at local address `la` by an agent: `k` gets the status, the bytes (when OK) and the poisoned
sectors. -/
def Tr.readRange (fwd : Bool) (agent die la len : Nat) (k : RangeOut → Tr) : Tr :=
  .readSectors fwd agent die (sectorsOf la len) {} fun o => k { o with bytes := (o.bytes.drop (la % 64)).take len }

/-- The write of the bytes `bs` at `la`, within one sector, at a controller (R352, R356, R364, R347). -/
def Tr.writeSector (agent die la : Nat) (bs : List Byte) (poison : Bool) (k : Nat → Tr) : Tr :=
  .read fun d =>
    let st := d.accessStatus la
    let key := d.sector la
    let mark := Tr.memSt fun m => { m with errs := terase m.errs key, poison := key :: m.poison.filter (· ≠ key) }
    if st ≠ stOK then
      match d.place la with
      | .hbm sd _ _ _ =>
        if d.retiredAt la then
          .seq [.bump MEM_RETIRED_HITS sd, .errorAt (la / 4096 * 4096) 7 0 agent die st false, k st]
        else .seq [.errorAt la 8 0 agent die st false, k st]
      | .bulk port _ =>
        if d.retiredAt la then .seq [.errorAt (la / 4096 * 4096) 7 0 agent die st false, k st]
        else .seq [.bump MEM_BULK_TIMEOUTS HD 1 port, .errorAt la 5 0 agent die st false, k st]
      | _ => k st
    else if bs.length = 64 && la % 64 = 0 then
      .seq [.rawStore la bs, .clearSectors la 64, .when poison mark, k stOK]
    else match d.place la with
      | .hbm sd pc _ _ => .fresh fun idx =>
        let t := d.forceFld MEM_CTL MEM_CTL_ECC_T sd
        let n := (d.sectorErrs key).length
        match secDecode t n (d.sectorPoison key) idx with
        | .good n =>
          .seq [
            .when (n ≠ 0) (.seq [
              .bump MEM_CE_COUNT sd, .count MEM_PC MEM_PC_CE sd 1 pc, .patina (ukey 6 sd pc) (if n ≤ 2 then 1 else 8),
              .when (d.fld MEM_CTL MEM_CTL_CE_REC_MIN sd ≠ 0 && n ≥ d.fld MEM_CTL MEM_CTL_CE_REC_MIN sd)
                (.errorAt (la / 64 * 64) 1 n agRmw 0xFF 0 false)]),
            .memSt fun m => { m with errs := terase m.errs key },
            .rawStore la bs, .when poison mark, k stOK]
        | .miscorrected =>
          .seq [.rawStore (la / 64 * 64) ((List.range 64).map fun i => Config.undefByte (2 ^ 64 + idx) i),
            .memSt fun m => { m with errs := terase m.errs key, poison := m.poison.filter (· ≠ key) },
            .rawStore la bs, .when poison mark, k stOK]
        | .earlier => .seq [.rawStore la bs, mark, k stOK]
        | .fresh =>
          .seq [.poisonSector la, .rawStore la bs, .bump MEM_UE_COUNT sd, .patina (ukey 6 sd pc) 1024,
            .errorAt (la / 64 * 64) 9 0xFF agent die 0 false, k stOK]
      | _ => .seq [.rawStore la bs, .when poison mark, k stOK]

/-- The parts of a range by sector: address and bytes. -/
def sectorParts (la : Nat) (bs : List Byte) : List (Nat × List Byte) :=
  (sectorsOf la bs.length).map fun s =>
    let lo := max la s
    let hi := min (la + bs.length) (s + 64)
    (lo, (bs.drop (lo - la)).take (hi - lo))

/-- Writes of parts, each within a sector. -/
def Tr.writeParts (agent die : Nat) (poison : Nat → Bool) : List (Nat × List Byte) → Nat → (Nat → Tr) → Tr
  | [], st, k => k st
  | (a, bs) :: ps, st, k =>
    .writeSector agent die a bs (poison (a / 64 * 64)) fun r =>
      .writeParts agent die poison ps (if st = stOK then r else st) k

/-- A write of bytes at local address `la` by an agent; `poison` names sectors whose data is poisoned. -/
def Tr.writeRange (agent die la : Nat) (bs : List Byte) (poison : Nat → Bool) (k : Nat → Tr) : Tr :=
  .writeParts agent die poison (sectorParts la bs) stOK k

/-- Bytes of 64-bit words of read data, as answers. -/
def Tr.answerBytes (bs : List Byte) : Tr := .each (List.range (bs.length / 8)) fun i => .answer (w64 (leAt bs (8 * i) 8))

/-! ## Commands -/

/-- HBM_READ: the sector that holds `la` is read by an agent, after new symbol errors have struck it. It returns every write
accepted before it: a write is one step (R341 to R343). -/
def hbmReadTr (la : BitVec 41) (agent : BitVec 8) (die : Die) (errs : List (BitVec 7 × Byte)) : Tr :=
  .read fun d =>
    match d.place la.toNat with
    | .hbm _ _ _ s => .seq [.damage (s / 64) errs,
        .readSector false false agent.toNat die.val la.toNat fun o => .when (o.st = stOK) (.answerBytes o.bytes)]
    | _ => .skip
/-- HBM_READ. -/
def execHbmRead (la : BitVec 41) (agent : BitVec 8) (die : Die) (errs : List (BitVec 7 × Byte)) (s : State) :=
  run (hbmReadTr la agent die errs) s

/-- Runs of consecutive set bits of a 64-bit mask: first byte and length. -/
def maskRuns (mask : Nat) : List (Nat × Nat) :=
  (List.range 64).filterMap fun i =>
    if mask.testBit i && (i = 0 || !mask.testBit (i - 1)) then
      some (i, ((List.range (64 - i)).find? fun j => !mask.testBit (i + j)).getD (64 - i))
    else none

/-- HBM_WRITE: the masked bytes of the sector that holds `la`; a partial sector is a read-modify-write (R352). -/
def hbmWriteTr (la : BitVec 41) (mask : BitVec 64) (data : BitVec 512) (agent : BitVec 8) (die : Die) : Tr :=
  .read fun d =>
    let base := la.toNat / 64 * 64
    match d.place base with
    | .hbm _ _ _ _ =>
      .each (maskRuns mask.toNat) fun (i, n) =>
        .writeSector agent.toNat die.val (base + i) (((leBytes 64 data.toNat).drop i).take n) false fun _ => .skip
    | _ => .skip
/-- HBM_WRITE. -/
def execHbmWrite (la : BitVec 41) (mask : BitVec 64) (data : BitVec 512) (agent : BitVec 8) (die : Die) (s : State) :=
  run (hbmWriteTr la mask data agent die) s

/-- HBM_REFRESH (R345): a per-bank refresh runs; contents stay. -/
def hbmRefreshTr (die : TDie) (pc : BitVec 8) (bank : BitVec 6) : Tr :=
  .when (pc.toNat < 192) (.memSt fun m =>
    { m with refreshed := aupd m.refreshed (die.val * 2 ^ 16 + pc.toNat * 64 + bank.toNat) 0 (· + 1) })
/-- HBM_REFRESH. -/
def execHbmRefresh (die : TDie) (pc : BitVec 8) (bank : BitVec 6) (s : State) := run (hbmRefreshTr die pc bank) s

/-- The local address whose storage address is `die` window + `so` (the inverse of R36). -/
def Dev.localOfStor (d : Dev) (die so : Nat) : Nat :=
  let q := so / 512
  let r := q / 2 ^ 21
  let slot := q % 2 ^ 21
  if d.pkgWide r then
    let gs := slot * 4 + die
    gs / 2 ^ 21 * hbmWindow + r * 2 ^ 30 + gs % 2 ^ 21 * 512 + so % 512
  else die * hbmWindow + r * 2 ^ 30 + slot * 512 + so % 512

/-- Sectors of a tensor die's HBM. -/
def dieSectors : Nat := hbmWindow / 64

/-- LAGGING and PERMILLE after a scrub step (R360). -/
def Tr.scrubStatus (die pos start : Nat) : Tr :=
  .read fun d =>
    let period := d.fld MEM_SCRUB_CFG MEM_SCRUB_CFG_PERIOD_H die * 3600 * oneSec
    let gone := d.elapsed - start
    let lag := d.flag MEM_SCRUB_STATUS MEM_SCRUB_STATUS_LAGGING die
    let behind := pos * period < gone * dieSectors
    let far := pos * period * 100 + 5 * period * dieSectors < gone * dieSectors * 100
    .seq [.fld MEM_SCRUB_STATUS MEM_SCRUB_STATUS_PERMILLE die (pos * 1000 / dieSectors),
      .fld MEM_SCRUB_STATUS MEM_SCRUB_STATUS_LAGGING die (b01 (far || (lag && behind)))]

/-- SCRUB_READ (R358): the next sector of a die's pass, unless its frame is retired. -/
def scrubReadTr (die : TDie) (errs : List (BitVec 7 × Byte)) : Tr :=
  .read fun d =>
    let n := die.val
    if !d.flag MEM_CTL MEM_CTL_SCRUB_EN n then .skip
    else
      let pos := agetD d.u.mem.scrubPos n 0
      let la := d.localOfStor n (64 * pos)
      let start := if pos = 0 then d.elapsed else agetD d.u.mem.scrubStart n d.elapsed
      let next := pos + 1
      let done := next = dieSectors
      .seq [
        .damage (d.sector la) errs,
        .when (!d.retiredAt la && !d.flag MEM_PC MEM_PC_DOWN n ((pos / 8) % 192))
          (.readSector false true agScrub 0xFF la fun _ => .skip),
        .memSt fun m => { m with
          scrubPos := tinsert m.scrubPos n (if done then 0 else next), scrubStart := tinsert m.scrubStart n start },
        .when done (.read fun d => .fld MEM_SCRUB_STATUS MEM_SCRUB_STATUS_PASSES n
          ((d.fld MEM_SCRUB_STATUS MEM_SCRUB_STATUS_PASSES n + 1) % 2 ^ 32)),
        .scrubStatus n (if done then 0 else next) (if done then d.elapsed else start)]
/-- SCRUB_READ. -/
def execScrubRead (die : TDie) (errs : List (BitVec 7 × Byte)) (s : State) := run (scrubReadTr die errs) s

/-- The retirement registers of a die: those of a tensor die, or HD's for the bulk tier. -/
def retireStatus (die : Nat) : Reg × Fld × Fld × Fld × Fld :=
  if die < 4 then (MEM_RETIRE_STATUS, MEM_RETIRE_STATUS_PENDING, MEM_RETIRE_STATUS_FULL, MEM_RETIRE_STATUS_REJECTED,
    MEM_RETIRE_STATUS_COUNT)
  else (MEM_RETIRE_STATUS_HD, MEM_RETIRE_STATUS_HD_PENDING, MEM_RETIRE_STATUS_HD_FULL, MEM_RETIRE_STATUS_HD_REJECTED,
    MEM_RETIRE_STATUS_HD_COUNT)

/-- Whether a frame lies in the window of the die that holds the register (R363). -/
def inRetireWindow (die frame : Nat) : Bool :=
  if die < 4 then die * hbmWindow ≤ frame * 4096 && frame * 4096 < (die + 1) * hbmWindow
  else 0x10000000000 ≤ frame * 4096

/-- MEM_RETIRE_ADD (R363): the write of a frame. -/
def memRetireAddTr (die : Die) (v : Word) : Tr :=
  .read fun d =>
    let n := die.val
    let frame := bitsOf v.toNat 12 29
    let (r, pend, full, rej, cnt) := retireStatus n
    if n > 4 then .skip
    else if !inRetireWindow n frame || d.u.mem.retired.contains frame || d.u.mem.retiring.contains frame then .fld r rej n 1
    else if d.fld r cnt n = 4096 then .fld r full n 1
    else .seq [.memSt fun m => { m with retiring := m.retiring ++ [frame] },
      .fld r cnt n (d.fld r cnt n + 1), .fld r pend n 1]
/-- MEM_RETIRE_ADD. -/
def execMemRetireAdd (die : Die) (v : Word) (s : State) := run (memRetireAddTr die v) s

/-- Whether a request to a frame is in flight: a thread's, or one of the bulk tier. -/
def Dev.frameBusy (d : Dev) (frame : Nat) : Bool :=
  (d.u.ops.any fun o => o.reqs.any fun r => r.st = .sent && !d.isRemote r.pa && localOf r.pa / 4096 = frame) ||
    d.u.mem.bulk.any fun b => b.la / 4096 ≤ frame && frame * 4096 < b.la + b.len && !b.timedOut

/-- RETIRE_TAKES_EFFECT (R363): once no request to the frame is in flight, it is retired. -/
def retireTakesEffectTr (die : Die) (frame : BitVec 29) : Tr :=
  .read fun d =>
    let n := die.val
    let f := frame.toNat
    let (r, pend, _, _, _) := retireStatus n
    if n > 4 || !d.u.mem.retiring.contains f || !inRetireWindow n f || d.frameBusy f then .skip
    else .seq [
      .memSt fun m => { m with retiring := m.retiring.filter (· ≠ f), retired := f :: m.retired },
      .read fun d => .fld r pend n (b01 (d.u.mem.retiring.any (inRetireWindow n)))]
/-- RETIRE_TAKES_EFFECT. -/
def execRetireTakesEffect (die : Die) (frame : BitVec 29) (s : State) := run (retireTakesEffectTr die frame) s

end Sys2Proof.Machine
end

