-- ==== Sys2Proof/Machine/Coh.lean ====
section
/-! DEFINITION. Coherence and atomics (10_coherence_and_ordering.md). Memory holds the data that a coherent reader gets: a
copy in M is not held apart from it (log 10). Copies, directory, filters, holds and subscriptions are state. -/

namespace Sys2Proof.Machine

/-- The die of a caching agent (R373). -/
def agentDie (a : Nat) : Nat := if a < 25 then 4 else if a < 29 then a - 25 else if a < 31 then a - 24 else 4

/-- The agent code of an error record for a caching agent's reads. -/
def agentCode (a : Nat) : Nat := if a < 25 || a = 31 then agHost else if a < 29 then agCell else agColl

/-- The home of a line (by local address): the tensor die that holds it, HD for the bulk tier. -/
def Dev.home (d : Dev) (la : Nat) : Nat :=
  match d.place la with
  | .hbm die _ _ _ => die
  | _ => HD

/-- F(line) of R378, from the local address. -/
def filterIdx (la : Nat) : Nat := bitsOf la 6 16 ^^^ bitsOf la 22 16 ^^^ bitsOf la 38 3

/-- P(line) of R390, from the local address. -/
def predIdx (la : Nat) : Nat := bitsOf la 6 10 ^^^ bitsOf la 16 10 ^^^ bitsOf la 26 10 ^^^ bitsOf la 36 5

/-- A change of the coherence state. -/
def Tr.cohSt (f : CohSt → CohSt) : Tr := .units fun u => { u with coh := f u.coh }

/-- The copies of a line. -/
def CohSt.holders (c : CohSt) (line : Nat) : List Copy := c.copies.filter (·.line = line)
/-- An agent's copy of a line. -/
def CohSt.copy (c : CohSt) (agent line : Nat) : Option Copy := c.copies.find? fun x => x.agent = agent && x.line = line
/-- Without an agent's copy. -/
def CohSt.dropCopy (c : CohSt) (agent line : Nat) : CohSt :=
  { c with copies := c.copies.filter fun x => !(x.agent = agent && x.line = line) }
/-- A change of an agent's copy. -/
def CohSt.onCopy (c : CohSt) (agent line : Nat) (f : Copy → Copy) : CohSt :=
  { c with copies := c.copies.map fun x => if x.agent = agent && x.line = line then f x else x }

/-- COH_UNTRACKED of a home: the sum of its filter's counters. -/
def Tr.untracked (home : Nat) : Tr :=
  .read fun d => .fld COH_UNTRACKED COH_UNTRACKED_COPIES home
    ((d.u.coh.filter.filter fun e => e.1 / 65536 = home).foldl (fun s e => s + e.2) 0)

/-- The untracked filter's counter of a line changes. -/
def Tr.filterAdd (line : Nat) (f : Nat → Nat) : Tr :=
  .read fun d =>
    let la := line * 64
    let h := d.home la
    .seq [.cohSt fun c => { c with
        filter := tset (fun _ => 0) c.filter (h * 65536 + filterIdx la) (f (agetD c.filter (h * 65536 + filterIdx la) 0)) },
      .untracked h]

/-! ## Subscriptions (R382, R383, R299) -/

/-- Register STRM_PF_b after a change of the buffer (R308). -/
def Tr.pfReg (pk b : Nat) : Tr :=
  .read fun d =>
    let p := agetD (d.cellAt pk).pf b {}
    .reg STRM_PF (pk / 168) (w64 (p.state + b01 (p.granules.any (·.stale)) * 4 + p.spad * 2 ^ 12 + p.len / 64 * 2 ^ 33))
      (pk % 168) b

/-- What losing a subscription, or an invalidation, does to a subscriber: a prefetch granule goes stale, a run-ahead entry
is discarded; a speculative line is discarded. -/
def Tr.loseSub (gran : Nat) : Subscriber → Tr
  | .pf pk b => .read fun d =>
      let p := agetD (d.cellAt pk).pf b {}
      let hit := (p.granules.filter fun g => g.ga / 512 = gran && g.sub && !g.stale).length
      .seq [
        .cell pk fun cs => { cs with pf := aupd cs.pf b {} fun p =>
          { p with granules := p.granules.map fun g => if g.ga / 512 = gran && g.sub then { g with stale := true } else g } },
        .bump STRM_PF_STALE (pk / 168) hit (pk % 168),
        .pfReg pk b]
  | .ra pk t va => .dropRunAhead pk fun e => e.thread = t && e.va = va
  | .spec die tbl e => .read fun d => .seq [
      .bump ROUTE_SPEC_DISCARD die (d.u.route.specBytesAt die tbl e gran),
      .units fun u => { u with route := u.route.dropSpec die tbl e gran }]

/-- Every subscriber of the granules that a range touches loses them, on every die. -/
def Tr.invalidateSubs (la len : Nat) : Tr :=
  .read fun d =>
    let hit := d.u.coh.subs.filter fun s => la / 512 ≤ s.2.1 && s.2.1 * 512 < la + len
    .seq [
      .each hit fun s => .loseSub s.2.1 s.2.2,
      .cohSt fun c => { c with subs := c.subs.filter fun s =>
        !(la / 512 ≤ s.2.1 && s.2.1 * 512 < la + len) || (match s.2.2 with | .pf _ _ => true | _ => false) }]

/-- A subscription of a granule on a die (R382): a ninth subscriber displaces the oldest, and a granule beyond the
65,536 of the filter displaces the oldest granule; each loss counts. -/
def Tr.subscribe (die gran : Nat) (who : Subscriber) : Tr :=
  .read fun d =>
    let mine := d.u.coh.subs.filter fun s => s.1 = die
    let same := mine.filter fun s => s.2.1 = gran
    let grans := (mine.map (·.2.1)).eraseDups
    let lost :=
      if same.any (·.2.2 = who) then []
      else if 8 ≤ same.length then same.take 1
      else if same.isEmpty && 65536 ≤ grans.length then mine.filter fun s => s.2.1 = grans.headD 0
      else []
    .seq [
      .each lost fun s => .loseSub s.2.1 s.2.2,
      .bump COH_SUB_LOST die lost.length,
      .cohSt fun c => { c with
        subs := (c.subs.filter fun s => !lost.contains s && s ≠ (die, gran, who)) ++ [(die, gran, who)] }]

/-- The end of a subscriber's subscriptions. -/
def Tr.unsubscribe (who : Subscriber) : Tr :=
  .cohSt fun c => { c with subs := c.subs.filter fun s => s.2.2 ≠ who }

/-- The coherent copies of the lines of a range go, and their subscribers lose them (a write by another source, R375). -/
def Tr.invalidateCopies (la len : Nat) : Tr :=
  .read fun d =>
    let lines := (sectorsOf la len).map (· / 64)
    let us := d.u.coh.copies.filter fun c => lines.contains c.line && c.u
    .seq [
      .each us fun c => .filterAdd c.line (· - 1),
      .cohSt fun c => { c with
        copies := c.copies.filter fun x => !lines.contains x.line, dir := c.dir.filter fun e => !lines.contains e.1 },
      .invalidateSubs la len]

/-- A change of the checkpoint engines. -/
def Tr.ckptSt (f : CkptSt → CkptSt) : Tr := .units fun u => { u with ckpt := f u.ckpt }
/-- A change of the maquette in progress. -/
def Tr.onMaq (f : Maquette → Maquette) : Tr := .ckptSt fun c => { c with maq := c.maq.map f }

/-- An armed page is read for the maquette (R499, R501): its sectors with errors or poison go through their controllers,
and poison goes along under POISON_FORWARD; a status ends the maquette. `k` gets bytes and poisoned sectors. -/
def Tr.readPage (i : Nat) (k : List Byte → List Nat → Tr) : Tr :=
  .read fun d =>
    let la := pageAddr i d.u.ckpt.regions
    let odd := (sectorsOf la (2 ^ 21)).filter fun s =>
      !(d.sectorErrs (d.sector s)).isEmpty || d.sectorPoison (d.sector s) || d.accessStatus s ≠ stOK
    .readSectors (d.pkgFeature 66) agDma (d.home la) odd { st := stOK, bytes := [], poisoned := [] } fun o =>
      if o.st ≠ stOK then .onMaq fun m => { m with failed := some o.st }
      else .read fun d => k (d.rawBytes la (2 ^ 21)) (o.poisoned.map fun s => s - la)

/-- A page of the maquette has been written at the neighbour (R496, R501). -/
def Tr.pageSent (i : Nat) (bs : List Byte) (psn : List Nat) : Tr :=
  .read fun d => .opt d.u.ckpt.maq fun m => .seq [
    .ckptSt fun c => { c with out := c.out ++ [(m.slot * c.slotBytes + 2 ^ 21 + i * 2 ^ 21, bs, psn)] },
    .onMaq fun m => { m with f := m.f.drop i, staged := m.staged.filter (·.1 ≠ i), sent := m.sent + 1 },
    .bump CKPT_BYTES HD (2 ^ 21), .fld CKPT_PROGRESS CKPT_PROGRESS_SENT HD (m.sent + 1)]

/-- A page that is still to be sent is sent, from staging or directly. -/
def Tr.sendPage (i : Nat) : Tr :=
  .read fun d => .opt d.u.ckpt.maq fun m =>
    if !m.f.has i || m.failed.isSome then .skip
    else match m.staged.find? (·.1 = i) with
    | some (_, bs, psn) => .pageSent i bs psn
    | none => .readPage i fun bs psn => .pageSent i bs psn

/-- A keeper stages a page (R499); while its 8 places are in use, its oldest staged page is sent first. -/
def Tr.stagePage (i : Nat) : Tr :=
  .read fun d => .opt d.u.ckpt.maq fun m =>
    let keeper := d.home (pageAddr i d.u.ckpt.regions)
    let mine := m.staged.filter fun s => d.home (pageAddr s.1 d.u.ckpt.regions) = keeper
    .when (m.f.has i && !m.staged.any (·.1 = i) && m.failed.isNone) (.seq [
      .when (8 ≤ mine.length) (.opt (mine.head?) fun s => .sendPage s.1),
      .readPage i fun bs psn => .seq [
        .onMaq fun m => { m with staged := m.staged ++ [(i, bs, psn)] }, .bump CKPT_STAGED HD]])

/-- A write that waits under R499 is counted, once. -/
def Tr.writeWaits (kind a b : Nat) : Tr :=
  .read fun d => .opt d.u.ckpt.maq fun m => .when (!m.waits.contains (kind, a, b)) (.seq [
    .onMaq fun m => { m with waits := (kind, a, b) :: m.waits }, .bump CKPT_WRITE_WAITS HD])

/-- A write that the device makes itself to pages not yet staged: they are staged first (R499). -/
def Tr.stageFirst (la len : Nat) : Tr :=
  .read fun d => .when (d.u.ckpt.holds la len) (.seq [
    .bump CKPT_WRITE_WAITS HD, .each (d.u.ckpt.pagesOf la len) .stagePage])

/-- Armed pages that a write touches become dirty (13_training.md). -/
def Tr.dirtied (la len : Nat) : Tr :=
  .units fun u => { u with ckpt := u.ckpt.dirtied la len }

/-- A write to memory by an engine: copies elsewhere go, and the controllers store the bytes. -/
def Tr.cohWrite (agent die la : Nat) (bs : List Byte) (poison : Nat → Bool) (k : Nat → Tr) : Tr :=
  .seq [.stageFirst la bs.length, .invalidateCopies la bs.length, .dirtied la bs.length, .writeRange agent die la bs poison k]

/-! ## Home requests (R375 to R381) -/

/-- The requests of a line that are in progress or queued, in order. -/
def CohSt.lineReqs (c : CohSt) (line : Nat) : List HomeReq := c.reqs.filter (·.line = line)

/-- A change of the first request of a line. -/
def onFirst (line : Nat) (f : HomeReq → HomeReq) : List HomeReq → List HomeReq
  | [] => []
  | r :: rs => if r.line = line then f r :: rs else r :: onFirst line f rs

/-- Without the first request of a line. -/
def dropFirst (line : Nat) : List HomeReq → List HomeReq
  | [] => []
  | r :: rs => if r.line = line then rs else r :: dropFirst line rs

/-- The minimum hold of a die, in units of device time (R384); an LR holds at least 64 cycles (R385). -/
def Dev.holdTime (d : Dev) (die kind : Nat) : Nat :=
  let n := if die < 5 then d.fld COH_CTL COH_CTL_MIN_HOLD die else d.fld COH_CTL_PD COH_CTL_PD_MIN_HOLD die
  (if kind = 2 then max n 64 else n) * oneUs / 1880

/-- BCAST_INFLIGHT of a home changes. -/
def Tr.bcastCount (home : Nat) (f : Nat → Nat) : Tr :=
  .read fun d => .fld COH_DIR_STATUS COH_DIR_STATUS_BCAST_INFLIGHT home
    (f (d.fld COH_DIR_STATUS COH_DIR_STATUS_BCAST_INFLIGHT home))

/-- The eviction of a directory entry: untrack notices go to every holder, and the filter counts them (R378). -/
def Tr.evictEntry (line : Nat) : Tr :=
  .read fun d =>
    match aget? d.u.coh.dir line with
    | none => .skip
    | some _ =>
      if (d.u.coh.lineReqs line).isEmpty then
        let hs := d.u.coh.holders line
        .seq [
          .bump COH_DIR_EVICTS (d.home (line * 64)),
          .filterAdd line (· + hs.length),
          .cohSt fun c => { c with
            dir := terase c.dir line, untrack := c.untrack ++ hs.map fun h => (h.agent, line) }]
      else .skip

/-- A directory entry for the copies of a line as they stand. -/
def CohSt.track (c : CohSt) (line : Nat) : CohSt :=
  let hs := c.holders line
  if hs.isEmpty then { c with dir := terase c.dir line }
  else
    let owner := (hs.find? fun h => h.st ≠ 1).map (·.agent)
    { c with dir := tinsert c.dir line { owner := owner, sharers := hs.foldl (fun v h => v ||| 2 ^ h.agent) 0 } }

/-- The grant that ends a request: the agent's copy (S alone on an armed page, R495), the entry, and the data. -/
def Tr.grant (r : HomeReq) : Tr :=
  .read fun d =>
    let la := r.line * 64
    let die := agentDie r.agent
    let alone := (d.u.coh.holders r.line).all (·.agent = r.agent)
    let hold := d.elapsed + d.holdTime die r.kind
    let put := fun (st : Nat) => Tr.seq [
      .opt r.evict (fun l => .when ((aget? d.u.coh.dir r.line).isNone) (.evictEntry l)),
      .cohSt fun c =>
        let c := c.dropCopy r.agent r.line
        CohSt.track
          { c with copies := c.copies ++ [{ agent := r.agent, line := r.line, st := st, hold := hold }] } r.line]
    match r.data with
    | some bs => .seq [.cohSt fun c => { c with dir := terase c.dir r.line }, .dirtied la 64,
        .writeRange (agentCode r.agent) die la bs (fun _ => false) fun _ => .skip]
    | none =>
      if r.kind = 3 then .cohSt fun c => c.track r.line
      else .seq [put (if (d.u.ckpt.page? la).isSome then 1 else if r.kind = 0 then (if alone then 2 else 1) else 3),
        .readRange true (agentCode r.agent) die la 64 fun o => .when (o.st = stOK) (.answerBytes o.bytes)]

/-- What starting a request does (R380): who must answer, by the directory entry, by the filter, or by broadcast. -/
def Tr.startReq (r : HomeReq) : Tr :=
  .read fun d =>
    let la := r.line * 64
    let h := d.home la
    let entry := aget? d.u.coh.dir r.line
    let hs := (d.u.coh.holders r.line).filter (·.agent ≠ r.agent)
    let untr := agetD d.u.coh.filter (h * 65536 + filterIdx la) 0
    let tgt := if r.kind = 3 then [] else
      (if r.kind = 0 && r.data.isNone then hs.filter (·.st ≠ 1) else hs).map (·.agent)
    let begin := fun (ws : List Nat) (b : Bool) => Tr.cohSt fun c =>
      { c with reqs := onFirst r.line (fun q => { q with started := true, wait := ws, bcast := b }) c.reqs }
    if r.kind = 3 then begin [] false
    else match entry with
    | some _ => .seq [.bump COH_DIR_HITS h, begin tgt false]
    | none =>
      if untr = 0 then .seq [.bump COH_DIR_MISSES h, begin [] false]
      else if 64 ≤ d.fld COH_DIR_STATUS COH_DIR_STATUS_BCAST_INFLIGHT h then .skip
      else .seq [.bump COH_DIR_MISSES h, .bump COH_BCAST h, .bcastCount h (· + 1), begin (List.range 32) true]

/-- The requests of a line move on in order of acceptance (R386): the first starts when it has not, and ends when no answer is missing; then the next. -/
def Tr.lineGo (line : Nat) : Nat → Tr
  | 0 => .skip
  | fuel + 1 => .read fun d =>
    match (d.u.coh.lineReqs line).head? with
    | none => .skip
    | some r =>
      if !r.started then
        (Tr.startReq r).andThen (.read fun d =>
          match (d.u.coh.lineReqs line).head? with
          | some r' => if r'.started && r'.wait.isEmpty then .lineGo line fuel else .skip
          | none => .skip)
      else if r.data.isSome && d.u.ckpt.holds (line * 64) 64 then .writeWaits 0 r.agent line
      else if r.wait.isEmpty then
        .seq [.when r.bcast (.bcastCount (d.home (line * 64)) (· - 1)), .grant r,
          .cohSt fun c => { c with reqs := dropFirst line c.reqs }, .lineGo line fuel]
      else .skip

/-- One more than twice the queued requests: enough for every start and end. -/
def CohSt.fuel (c : CohSt) : Nat := 2 * c.reqs.length + 1

/-- HOME_REQUEST: a home accepts a request to a line (R375); one is counted as a conflict while another is in progress. -/
def homeRequestTr (agent : Fin 32) (line : BitVec 35) (kind : Fin 4) (data : Option (BitVec 512))
    (evict : Option (BitVec 35)) : Tr :=
  .read fun d =>
    let l := line.toNat
    let h := d.home (l * 64)
    let busy := !(d.u.coh.lineReqs l).isEmpty
    let ok := match d.place (l * 64) with | .hbm _ _ _ _ => true | .bulk _ _ => true | _ => false
    if !ok then .skip
    else
      let give := (d.u.coh.copy agent.val l).any (·.u)
      .seq [
        .when busy (.bump COH_CONFLICTS h),
        .when (kind.val = 3)
          (.cohSt fun c => { c.dropCopy agent.val l with drops := if give then c.drops ++ [l] else c.drops }),
        .cohSt fun c =>
          let bytes := data.map fun x => leBytes 64 x.toNat
          let q : HomeReq := { agent := agent.val, line := l, kind := kind.val, data := bytes, evict := evict.map BitVec.toNat }
          { c with reqs := c.reqs ++ [q] },
        .read fun d => .lineGo l d.u.coh.fuel]
/-- HOME_REQUEST. -/
def execHomeRequest (agent : Fin 32) (line : BitVec 35) (kind : Fin 4) (data : Option (BitVec 512))
    (evict : Option (BitVec 35)) (s : State) := run (homeRequestTr agent line kind data evict) s

/-- UNTRACK_NOTICE (R378): the holder sets U; one that has given up its copy answers with a drop notice. -/
def untrackNoticeTr (agent : Fin 32) (line : BitVec 35) : Tr :=
  .cohSt fun c =>
    let l := line.toNat
    if c.untrack.contains (agent.val, l) then
      let c := { c with untrack := c.untrack.erase (agent.val, l) }
      if (c.copy agent.val l).isSome then c.onCopy agent.val l fun x => { x with u := true }
      else { c with drops := c.drops ++ [l] }
    else c
/-- UNTRACK_NOTICE. -/
def execUntrackNotice (agent : Fin 32) (line : BitVec 35) (s : State) := run (untrackNoticeTr agent line) s

/-- DROP_NOTICE (R379): the home subtracts 1. -/
def dropNoticeTr (line : BitVec 35) : Tr :=
  .read fun d => .when (d.u.coh.drops.contains line.toNat) (.seq [
    .cohSt fun c => { c with drops := c.drops.erase line.toNat }, .filterAdd line.toNat (· - 1)])
/-- DROP_NOTICE. -/
def execDropNotice (line : BitVec 35) (s : State) := run (dropNoticeTr line) s

/-- An agent's answer to the request in progress: it gives up or downgrades its copy as the request needs; a broadcast
clears U and the home subtracts it; subscribers of the line's granule on a die cache lose it (R380, R383). -/
def Tr.respond (agent line : Nat) : Tr :=
  .read fun d =>
    match (d.u.coh.lineReqs line).head? with
    | none => .skip
    | some r =>
      let cp := d.u.coh.copy agent line
      let keep := r.agent = agent || (r.kind = 0 && r.data.isNone)
      let u := cp.any (·.u)
      let shared := cp.any (·.st = 1) || cp.isNone
      .seq [
        .when (u && r.bcast) (.filterAdd line (· - 1)),
        .when (u && !r.bcast && !keep) (.cohSt fun c => { c with drops := c.drops ++ [line] }),
        .cohSt fun c =>
          if r.agent = agent then c.onCopy agent line fun x => { x with u := if r.bcast then false else x.u }
          else if keep then c.onCopy agent line fun x => { x with st := 1, u := if r.bcast then false else x.u }
          else c.dropCopy agent line,
        .when (25 ≤ agent && agent < 29 && shared && (r.bcast || !keep)) (.read fun d =>
          .each (d.u.coh.subs.filter fun s => s.1 = agent - 25 && s.2.1 = line / 8) fun s => .loseSub s.2.1 s.2.2),
        .cohSt fun c =>
          let f := fun (q : HomeReq) => { q with wait := q.wait.erase agent, held := q.held.erase agent }
          { c with reqs := onFirst line f c.reqs },
        .read fun d => .lineGo line d.u.coh.fuel]

/-- A snoop reaches an agent: it answers, or waits for its hold, which is counted (R384). -/
def Tr.snooped (agent line : Nat) (bcast : Bool) : Tr :=
  .read fun d =>
    match (d.u.coh.lineReqs line).head? with
    | none => .skip
    | some r =>
      if !r.started || r.bcast != bcast || !r.wait.contains agent || r.held.contains agent then .skip
      else if (d.u.coh.copy agent line).any (fun c => d.elapsed < c.hold) then
        .seq [.bump COH_HOLD_WAITS (agentDie agent),
          .cohSt fun c => { c with reqs := onFirst line (fun q => { q with held := agent :: q.held }) c.reqs }]
      else .respond agent line

/-- BROADCAST_SNOOP. -/
def execBroadcastSnoop (agent : Fin 32) (line : BitVec 35) (s : State) := run (.snooped agent.val line.toNat true) s
/-- SNOOP. -/
def execSnoop (agent : Fin 32) (line : BitVec 35) (s : State) := run (.snooped agent.val line.toNat false) s

/-- HOLD_END (R384, R385): a hold has run out, or ends early at the matching SC; a waiting snoop is answered. -/
def holdEndTr (agent : Fin 32) (line : BitVec 35) (sc : Bool) : Tr :=
  .read fun d =>
    match d.u.coh.copy agent.val line.toNat with
    | none => .skip
    | some c =>
      if d.elapsed < c.hold && !sc then .skip
      else .seq [
        .cohSt fun x => x.onCopy agent.val line.toNat fun y => { y with hold := 0 },
        .when ((d.u.coh.lineReqs line.toNat).head?.any (·.held.contains agent.val)) (.respond agent.val line.toNat)]
/-- HOLD_END. -/
def execHoldEnd (agent : Fin 32) (line : BitVec 35) (sc : Bool) (s : State) := run (holdEndTr agent line sc) s

/-! ## Atomics (R387 to R392) -/

/-- The new value of an atomic of `w` bits (R387), by the codes of R454. -/
def atomicNew (op w old a b : Nat) : Nat :=
  let m := 2 ^ w
  let old := old % m
  let a := a % m
  match op with
  | 0 => a
  | 1 => if old = a then b % m else old
  | 2 => (old + a) % m
  | 3 => old &&& a
  | 4 => old ||| a
  | 5 => old ^^^ a
  | 6 => if signed w a < signed w old then a else old
  | 7 => if signed w old < signed w a then a else old
  | 8 => min old a
  | 9 => max old a
  | _ => (fp32.narrow { mode := .rne, ovf := false, ftz := false, mxFit := false } 0
      ((fp32.decode old).add (fp32.decode a))).bits

/-- An atomic at local address `la`, by an agent: `k` gets the status and the old value. One that is not naturally
aligned or lies in the MMIO range is malformed (R388). -/
def Tr.atomicAt (agent die la op : Nat) (wide : Bool) (a b : Nat) (k : Nat → Nat → Tr) : Tr :=
  let n := if wide then 8 else 4
  if la % n ≠ 0 || inMmio la || (op = 10 && wide) then k stMALFORMED 0
  else .readRange false agent die la n fun o =>
    if o.st ≠ stOK then k o.st 0
    else
      let old := leNat o.bytes
      .cohWrite agent die la (leBytes n (atomicNew op (8 * n) old a b)) (fun _ => false) fun st => k st old

/-- The contention predictor's counter of a die and line (R391). -/
def Dev.predAt (d : Dev) (die la : Nat) : Nat := agetD d.u.coh.pred (die * 1024 + predIdx la) 1

/-- The predictor moves up or down, saturating at 0 and 3. -/
def Tr.predict (die la : Nat) (up : Bool) : Tr :=
  .cohSt fun c =>
    let i := die * 1024 + predIdx la
    let v := agetD c.pred i 1
    { c with pred := tset (fun _ => 1) c.pred i (if up then min 3 (v + 1) else v - 1) }

/-- Whether the rules choose the home for an atomic of a die within the package, and whether by the predictor (R390,
R392, R495). -/
def Dev.atomFar (d : Dev) (die la : Nat) : Bool × Bool :=
  if (d.u.ckpt.page? la).isSome then (true, false)
  else if !d.pkgFeature 65 then (false, false)
  else if die < 5 then
    match d.fld COH_CTL COH_CTL_ATOM_MODE die with
    | 1 => (false, false)
    | 2 => (true, false)
    | _ => (2 ≤ d.predAt die la, true)
  else (true, false)

/-- A far atomic performed at the home (R389, R391): recall, invalidate, perform. -/
def Tr.farAtomic (die agent la op : Nat) (wide : Bool) (a b : Nat) (k : Nat → Nat → Tr) : Tr :=
  .read fun d =>
    let line := la / 64
    let queued := !(d.u.coh.lineReqs line).isEmpty
    let recent := match aget? d.u.coh.lastFar line with
      | some (who, t) => who ≠ die && d.elapsed < t + 256 * oneUs / 1880
      | none => false
    let byPred := (d.atomFar die la).2
    .seq [
      .when (die < 5) (.bump COH_ATOM_FAR die),
      .when byPred (.predict die la (queued || recent)),
      .cohSt fun c => { c with lastFar := tinsert c.lastFar line (die, d.elapsed) },
      .atomicAt agent die la op wide a b k]

/-- FAR_ATOMIC: sent to the home where the rules choose it. -/
def farAtomicTr (die : Die) (agent : BitVec 8) (la : BitVec 41) (op : Fin 11) (wide : Bool) (a b : Word) : Tr :=
  .read fun d =>
    let started := (d.u.coh.lineReqs (la.toNat / 64)).head?.any (·.started)
    if !(d.atomFar die.val la.toNat).1 || started then .skip
    else .farAtomic die.val agent.toNat la.toNat op.val wide a.toNat b.toNat fun st old =>
      .when (st = stOK) (.answer (w64 old))
/-- FAR_ATOMIC. -/
def execFarAtomic (die : Die) (agent : BitVec 8) (la : BitVec 41) (op : Fin 11) (wide : Bool) (a b : Word) (s : State) :=
  run (farAtomicTr die agent la op wide a b) s

/-- A near atomic performed in an agent's own copy (R389, R391). -/
def Tr.nearAtomic (agent die code la op : Nat) (wide : Bool) (a b : Nat) (waited : Bool) (k : Nat → Nat → Tr) : Tr :=
  .read fun d =>
    let line := la / 64
    let taken := (d.u.coh.holders line).any (·.agent ≠ agent)
    let had := (d.u.coh.copy agent line).map fun c => (c.u, c.hold)
    .seq [
      .when (die < 5) (.bump COH_ATOM_NEAR die),
      .when (die < 5 && (d.atomFar die la).2) (.predict die la (taken || waited)),
      .atomicAt code die la op wide a b k,
      .cohSt fun c =>
        let c := c.dropCopy agent line
        let until_ := (had.map (·.2)).getD (d.elapsed + d.holdTime die 1)
        CohSt.track { c with copies := c.copies ++ [{ agent := agent, line := line, st := 3, hold := until_ }] } line]

/-- NEAR_ATOMIC: performed once no request to the line is in progress and no other agent's hold stands. -/
def nearAtomicTr (agent : Fin 32) (la : BitVec 41) (op : Fin 11) (wide : Bool) (a b : Word) (waited : Bool) : Tr :=
  .read fun d =>
    let line := la.toNat / 64
    let n := if wide then 8 else 4
    let others := (d.u.coh.holders line).any fun c => c.agent ≠ agent.val && d.elapsed < c.hold
    if (d.atomFar (agentDie agent.val) la.toNat).1 || !(d.u.coh.lineReqs line).isEmpty || others ||
        la.toNat % n ≠ 0 || inMmio la.toNat then .skip
    else .nearAtomic agent.val (agentDie agent.val) (agentCode agent.val) la.toNat op.val wide a.toNat b.toNat waited
      fun st old => .when (st = stOK) (.answer (w64 old))
/-- NEAR_ATOMIC. -/
def execNearAtomic (agent : Fin 32) (la : BitVec 41) (op : Fin 11) (wide : Bool) (a b : Word) (waited : Bool) (s : State) :=
  run (nearAtomicTr agent la op wide a b waited) s

/-- COH_PRED_CLEAR: the write that asks for it; the counters reset at the next edge (R391). -/
def cohPredClearTr (die : Die) (v : Word) : Tr :=
  .when (die.val < 5 && bitOf v.toNat 12) (.guardedWrite COH_CTL die.val v)
/-- COH_PRED_CLEAR. -/
def execCohPredClear (die : Die) (v : Word) (s : State) := run (cohPredClearTr die v) s

/-- The reset of a die's contention predictor, at the edge after PRED_CLEAR (R391). -/
def Tr.cohPredReset (die : Nat) : Tr :=
  .read fun d => .when (d.flag COH_CTL COH_CTL_PRED_CLEAR die) (.seq [
    .cohSt fun c => { c with pred := c.pred.filter fun e => e.1 / 1024 ≠ die }, .fld COH_CTL COH_CTL_PRED_CLEAR die 0])

end Sys2Proof.Machine
end

