-- ==== Sys2Proof/Machine/Xlat.lean ====
section
/-! DEFINITION. Translation, faults and invalidation (11_translation.md). -/

namespace Sys2Proof.Machine

/-- A translation asked for: by whom, and for what. -/
structure XReq where
  die : Nat
  slot : Nat
  va : Nat
  /-- 0 read, 1 write, 2 atomic, 3 fetch (R427). -/
  access : Nat
  /-- Run-ahead or a speculative fetch: never faults, never sets A or D (R138, R251, R413). -/
  spec : Bool := false
  /-- 0 cell, 1 DMA engine, 2 checkpoint engine, 3 dispatch unit, 4 command front end (R427). -/
  source : Nat
  cell : Nat := 0xFFFF
  thread : Nat := 0
  queue : Nat := 0
  agent : Nat := 0
  /-- The physical cell whose micro-TLB is looked up first (R416); none for a unit that has none. -/
  pk : Option Nat := none
  who : Waiter
deriving Repr

/-- A translation's result (R406): the global address with PBMT and PIN (R432); a status; a wait on a fault; or, for a speculative one,
a page that is not usable. -/
inductive XRes where
  | ok (ga pbmt : Nat) (pin : Bool)
  | bad (st : Nat)
  | wait
  | unusable
deriving Repr

/-- A change of the translation state. -/
def Tr.xlatSt (f : XlatSt → XlatSt) : Tr := .units fun u => { u with xlat := f u.xlat }

/-! ## Page-table entries (R410 to R415) -/

/-- V, R, W, X, U, G, A, D, PIN as bits 0 to 8 of a PTE (R410). -/
def pteBit (pte i : Nat) : Bool := pte.testBit i
/-- PPN. -/
def ptePpn (pte : Nat) : Nat := bitsOf pte 10 44
/-- PBMT. -/
def ptePbmt (pte : Nat) : Nat := bitsOf pte 61 2
/-- A leaf has R, W or X set. -/
def pteLeaf (pte : Nat) : Bool := bitsOf pte 1 3 ≠ 0

/-- The page size of a leaf (R410). -/
def leafSize (level pte : Nat) : Nat :=
  if level = 0 then (if pteBit pte 63 then 65536 else 4096) else 4096 * 512 ^ level

/-- MALFORMED_PTE of R412, for a valid PTE. -/
def pteMalformed (level pte : Nat) : Bool :=
  let n := pteBit pte 63
  (pteBit pte 2 && !pteBit pte 1) || bitsOf pte 54 7 ≠ 0 || ptePbmt pte = 3 ||
  (if pteLeaf pte then
    level = 4 || (level ≠ 0 && ptePpn pte % 512 ^ level ≠ 0) || (n && (level ≠ 0 || ptePpn pte % 16 ≠ 8))
  else
    level = 0 || pteBit pte 6 || pteBit pte 7 || pteBit pte 4 || pteBit pte 8 || n || ptePbmt pte ≠ 0)

/-- Whether a leaf permits an access under a slot's configuration (R411). -/
def ptePermits (cfg pte access : Nat) : Bool :=
  let priv := cfg.testBit 1
  let sum := cfg.testBit 2
  let mxr := cfg.testBit 3
  let u := pteBit pte 4
  (if !priv then u else if access = 3 then !u else !u || sum) &&
  match access with
  | 3 => pteBit pte 3
  | 0 => pteBit pte 1 || (mxr && pteBit pte 3)
  | 1 => pteBit pte 2
  | _ => pteBit pte 1 && pteBit pte 2

/-- A and D bits an access still needs set (R413). -/
def pteNeeds (pte access : Nat) : Nat :=
  (if pteBit pte 6 then 0 else 64) + (if (access = 1 || access = 2) && !pteBit pte 7 then 128 else 0)

/-- The result of a leaf. -/
def leafRes (va level pte : Nat) : XRes :=
  let size := leafSize level pte
  .ok ((ptePpn pte * 4096 / size * size + va % size) % 2 ^ 56) (ptePbmt pte) (pteBit pte 8)

/-- What a walk ends with. -/
inductive WalkOut where
  | leaf (pte level la : Nat) (global : Bool)
  | fault (kind level : Nat)
  | status (st : Nat)
deriving Repr

/-- Whether a PTE may be read at a global address: on this package, in HBM or the bulk tier (R412). -/
def Dev.pteReadable (d : Dev) (ga : Nat) : Bool :=
  !d.isRemote ga && match d.place (localOf ga) with
    | .hbm _ _ _ _ => true
    | .bulk _ _ => true
    | _ => false

/-- One PTE of a level; `down` goes on at the next table. -/
def Tr.pteAt (die agent va : Nat) (k : WalkOut → Tr) (level ppn : Nat) (g : Bool) (down : Nat → Bool → Tr) : Tr :=
  .read fun d =>
    let ga := (ppn * 4096 + bitsOf va (12 + 9 * level) 9 * 8) % 2 ^ 56
    if !d.pteReadable ga then k (.status stTRANSLATION_ABORT)
    else .seq [
      .bump XLAT_PTE_READS die,
      .readRange false agent die (localOf ga) 8 fun o =>
        let pte := leNat o.bytes
        if o.st ≠ stOK then k (.status o.st)
        else if !pteBit pte 0 then k (.fault 1 level)
        else if pteMalformed level pte then k (.fault 4 level)
        else if pteLeaf pte then k (.leaf pte level (localOf ga) (g || pteBit pte 5))
        else down pte (g || pteBit pte 5)]

/-- An entry enters a cache that holds at most `cap` of its die, in place of one for the same page; beyond that the oldest of
the die goes (R416, log 11). -/
def tlbAdd (cap : Nat) (l : List TlbEnt) (e : TlbEnt) : List TlbEnt :=
  let l := l.filter fun q => !(q.die = e.die && q.asid = e.asid && q.size = e.size && q.page = e.page)
  let mine := l.filter (·.die = e.die)
  (if cap ≤ mine.length then l.erase (mine.headD e) else l) ++ [e]

/-- Whether a cached entry holds an address of an address space. -/
def TlbEnt.holds (e : TlbEnt) (asid va : Nat) : Bool := (e.global || e.asid = asid) && va / e.size = e.page

/-- Where a walk begins (R416): below the lowest level whose PTE the walk cache holds, else at the root. -/
def XlatSt.walkFrom (x : XlatSt) (die asid va root : Nat) : Nat × Nat × Bool :=
  (([1, 2, 3, 4].findSome? fun l => x.walks.find? fun e => e.die = die && e.level = l && e.holds asid va).map
    fun e => (e.level - 1, ptePpn e.pte, e.global)).getD (4, root, false)

/-- The walk of `va` from the table with page number `ppn` at level `level` downward; non-leaf PTEs enter the walk cache (R410,
R412, R416). -/
def Tr.walk (die agent asid va : Nat) (k : WalkOut → Tr) : Nat → Nat → Bool → Tr
  | 0, ppn, g => .pteAt die agent (va % 2 ^ 57) k 0 ppn g fun _ _ => .skip
  | level + 1, ppn, g => .pteAt die agent (va % 2 ^ 57) k (level + 1) ppn g fun pte g' =>
    let size := 4096 * 512 ^ (level + 1)
    .seq [
      .xlatSt fun s => { s with walks := tlbAdd 2048 s.walks {
        die := die, asid := asid, global := g', size := size, page := va / size, pte := pte, level := level + 1 } },
      .walk die agent asid va k level (ptePpn pte) g']

/-! ## The fault queue (R424 to R428) -/

/-- The status register of a fault queue (R435). -/
def Tr.fqStatus (die : Nat) : Tr :=
  .read fun d =>
    let mine := d.u.xlat.faults.filter (·.die = die)
    let out := (mine.filter (·.record.isSome)).length
    let waiting := min (mine.length - out) (2 ^ 15 - 1)
    let full := ((d.reg XLAT_FQ_HEAD die).toNat + 2 ^ 32 - (d.reg XLAT_FQ_TAIL die).toNat % 2 ^ 32) % 2 ^ 32 = 4096
    .seq [.fld XLAT_FQ_STATUS XLAT_FQ_STATUS_OUTSTANDING die out, .fld XLAT_FQ_STATUS XLAT_FQ_STATUS_WAITING die waiting,
      .fld XLAT_FQ_STATUS XLAT_FQ_STATUS_FULL die (b01 full)]

/-- Whether the ring takes a record now (R426). -/
def Dev.fqRoom (d : Dev) (die : Nat) : Bool :=
  let h := (d.reg XLAT_FQ_HEAD die).toNat % 2 ^ 32
  let t := (d.reg XLAT_FQ_TAIL die).toNat % 2 ^ 32
  (h + 2 ^ 32 - t) % 2 ^ 32 < 4096 && d.flag XLAT_FQ_CFG XLAT_FQ_CFG_EN die &&
    !(d.u.xlat.faults.any fun f => f.die = die && f.record = some ((h + 2 ^ 32 - 4096) % 2 ^ 32))

/-- The fault record of R427. -/
def faultBytes (f : FaultSt) (n : Nat) : List Byte :=
  leBytes 8 (f.va % 2 ^ 57) ++ leBytes 4 n ++ leBytes 1 f.kind ++ leBytes 1 f.access ++ leBytes 1 f.slot ++
    leBytes 1 f.source ++ leBytes 2 f.cell ++ leBytes 1 (f.thread + f.level * 16) ++ leBytes 1 0 ++ leBytes 2 f.queue ++
    leBytes 2 (min f.joined 65535) ++ leBytes 8 f.time

/-- A change of a fault. -/
def XlatSt.onFault (x : XlatSt) (id : Nat) (f : FaultSt → FaultSt) : XlatSt :=
  { x with faults := x.faults.map fun q => if q.id = id then f q else q }

/-- The record of a fault, when the ring takes one (R426). -/
def Tr.faultRecord (f : FaultSt) : Tr :=
  .read fun d =>
    let n := (d.reg XLAT_FQ_HEAD f.die).toNat % 2 ^ 32
    if !d.fqRoom f.die then .skip
    else .store ((d.reg XLAT_FQ_BASE f.die).toNat + n % 4096 * 32) (faultBytes f n) fun st =>
      if st = stOK then .seq [.reg XLAT_FQ_HEAD f.die (w64 ((n + 1) % 2 ^ 32)),
        .xlatSt fun x => x.onFault f.id fun q => { q with record := some n }]
      else .fld XLAT_FQ_STATUS XLAT_FQ_STATUS_WRITE_ERR f.die 1

/-- A fault of a request (R424, R425, R428). -/
def Tr.fault (x : XReq) (asid kind level : Nat) : Tr :=
  .read fun d =>
    let wr := fun a => a = 1 || a = 2
    let same := d.u.xlat.faults.find? fun f =>
      f.die = x.die && f.va / 4096 = x.va / 4096 && f.asid = asid && (wr f.access == wr x.access)
    match same with
    | some f =>
      let j := f.joined + 1
      .seq [
        .bump XLAT_FAULTS x.die,
        .xlatSt fun s => s.onFault f.id fun q => { q with joined := j, waiters := q.waiters ++ [x.who] },
        match f.record with
        | some n => .store ((d.reg XLAT_FQ_BASE x.die).toNat + n % 4096 * 32 + 22) (leBytes 2 (min j 65535)) fun _ => .skip
        | none => .skip]
    | none =>
      let f : FaultSt := { id := d.u.xlat.nextFault, die := x.die, va := x.va, asid := asid, kind := kind, access := x.access,
                           level := level, slot := x.slot, source := x.source, cell := x.cell, thread := x.thread,
                           queue := x.queue, time := d.nowNs, since := d.elapsed, waiters := [x.who] }
      let older := d.u.xlat.faults.any fun q => q.die = x.die && q.record.isNone
      .seq [
        .bump XLAT_FAULTS x.die,
        .xlatSt fun s => { s with faults := s.faults ++ [f], nextFault := s.nextFault + 1 },
        .when (!older) (.faultRecord f),
        .read fun d => .when ((d.u.xlat.faults.find? (·.id = f.id)).any (·.record.isNone)) (.bump XLAT_FQ_OVERFLOW x.die),
        .fqStatus x.die]

/-! ## Translating (R407 to R418) -/

/-- An entry of the shared TLB of a die for an address (R416). -/
def XlatSt.lookup (x : XlatSt) (die asid va : Nat) : Option TlbEnt := x.tlb.find? fun e => e.die = die && e.holds asid va

/-- An entry of a cell's micro-TLB for an address (R416). -/
def XlatSt.micro (x : XlatSt) (pk : Option Nat) (asid va : Nat) : Option TlbEnt :=
  pk.bind fun pk => (agetD x.utlb pk []).find? (·.holds asid va)

/-- A leaf enters a cell's micro-TLB. -/
def XlatSt.fillMicro (x : XlatSt) (pk : Option Nat) (e : TlbEnt) : XlatSt :=
  match pk with
  | some pk => { x with utlb := aupd x.utlb pk [] (tlbAdd 64 · e) }
  | none => x

/-- A leaf that a walk found enters the shared TLB of its die, and the micro-TLB of the cell that asked. -/
def XlatSt.install (x : XlatSt) (pk : Option Nat) (e : TlbEnt) : XlatSt :=
  { x with tlb := tlbAdd 16384 x.tlb e }.fillMicro pk e

/-- The cached translation that an access finds: in its cell's micro-TLB, else in the shared TLB. -/
def XlatSt.cached (s : XlatSt) (x : XReq) (asid : Nat) : Option TlbEnt :=
  (s.micro x.pk asid x.va).orElse fun _ => s.lookup x.die asid x.va

/-- Whether a virtual address is canonical (R409). -/
def canonical (va : Nat) : Bool := bitsOf va 57 7 = (if va.testBit 56 then 127 else 0)

/-- A permitted leaf: A and D set where HWAD allows it, the leaf cached, and the result (R413, R418). -/
def Tr.useLeaf (x : XReq) (asid : Nat) (pte level la : Nat) (g : Bool) (k : XRes → Tr) : Tr :=
  .read fun d =>
    let need := pteNeeds pte x.access
    let keep := fun (pte : Nat) => Tr.xlatSt fun s =>
      let size := leafSize level pte
      s.install x.pk { die := x.die, asid := asid, global := g, size := size, page := x.va / size, pte := pte, level := level }
    if need = 0 then .seq [keep pte, k (leafRes x.va level pte)]
    else if x.spec then k .unusable
    else if !d.flag XLAT_CTL XLAT_CTL_HWAD x.die then .seq [.fault x asid 3 level, k .wait]
    else
      let pte' := pte ||| need
      .cohWrite x.agent x.die la (leBytes 8 pte') (fun _ => false) fun st =>
        if st ≠ stOK then k (.bad st)
        else .seq [.bump XLAT_AD_UPDATES x.die, keep pte', k (leafRes x.va level pte')]

/-- A cached translation is found: one that the micro-TLB lacks is a hit of the shared TLB, and enters the micro-TLB. -/
def Tr.tlbHit (x : XReq) (asid : Nat) (e : TlbEnt) : Tr :=
  .read fun d => .when (d.u.xlat.micro x.pk asid x.va).isNone (.seq [
    .bump XLAT_STLB_HITS x.die, .xlatSt fun s => s.fillMicro x.pk e])

/-- The translation of an address (R407 to R418, R424). -/
def Tr.translate (x : XReq) (k : XRes → Tr) : Tr :=
  .read fun d =>
    let satp := (d.reg XLAT_AS_SATP x.die x.slot).toNat
    let cfg := (d.reg XLAT_AS_CFG x.die x.slot).toNat
    let asid := bitsOf satp 44 16
    let bad := fun st => if x.spec then k .unusable else k (.bad st)
    match d.u.xlat.ended.find? (·.1 = x.who) with
    | some (w, st) => .seq [.xlatSt fun s => { s with ended := s.ended.erase (w, st) }, k (.bad st)]
    | none =>
    if d.u.xlat.faults.any (·.waiters.contains x.who) then k .wait
    else if !cfg.testBit 0 || bitsOf satp 60 4 ≠ 10 || !canonical x.va then bad stTRANSLATION_ABORT
    else
      let from_ := d.u.xlat.walkFrom x.die asid x.va (bitsOf satp 0 44)
      let walk := Tr.seq [
        .bump XLAT_STLB_MISSES x.die, .bump XLAT_WALKS x.die,
        .walk x.die x.agent asid x.va (fun o =>
          match o with
          | .status st => bad st
          | .fault kind level => if x.spec then k .unusable else .seq [.fault x asid kind level, k .wait]
          | .leaf pte level la g =>
            if !ptePermits cfg pte x.access then
              (if x.spec then k .unusable else .seq [.fault x asid 2 level, k .wait])
            else .useLeaf x asid pte level la g k) from_.1 from_.2.1 from_.2.2]
      match d.u.xlat.cached x asid with
      | some e =>
        if !ptePermits cfg e.pte x.access then
          .seq [.tlbHit x asid e, if x.spec then k .unusable else .seq [.fault x asid 2 e.level, k .wait]]
        else if pteNeeds e.pte x.access ≠ 0 then walk
        else .seq [.tlbHit x asid e, k (leafRes x.va e.level e.pte)]
      | none => walk

/-! ## Ending faults (R428 to R430) -/

/-- FAULT_RECORD_DEFERRED: the oldest fault of a die that waits for a record gets it when the ring allows. -/
def faultRecordDeferredTr (die : TDie) : Tr :=
  .read fun d =>
    match d.u.xlat.faults.find? fun f => f.die = die.val && f.record.isNone with
    | some f => .seq [.faultRecord f, .fqStatus die.val]
    | none => .skip
/-- FAULT_RECORD_DEFERRED. -/
def execFaultRecordDeferred (die : TDie) (s : State) := run (faultRecordDeferredTr die) s

/-- A fault ends: with RETRY its requests walk again; with a status each of them ends with it. -/
def Tr.endFault (f : FaultSt) (st : Option Nat) : Tr :=
  .seq [
    .xlatSt fun x => { x with
      faults := x.faults.filter (·.id ≠ f.id),
      ended := x.ended ++ (match st with | some st => f.waiters.map fun w => (w, st) | none => []) },
    .fqStatus f.die]

/-- A response to an outstanding record (R429). -/
def Tr.fqResp (die number : Nat) (st : Option Nat) : Tr :=
  .read fun d =>
    match d.u.xlat.faults.find? fun f => f.die = die && f.record = some number with
    | some f => .endFault f st
    | none => .bump XLAT_STALE_RESP die
/-- XLAT_FQ_RESP_RETRY. -/
def execXlatFqRespRetry (die : TDie) (number : BitVec 32) (s : State) := run (.fqResp die.val number.toNat none) s
/-- XLAT_FQ_RESP_ABORT. -/
def execXlatFqRespAbort (die : TDie) (number : BitVec 32) (s : State) :=
  run (.fqResp die.val number.toNat (some stTRANSLATION_ABORT)) s

/-- FAULT_WATCHDOG_EXPIRE (R430). -/
def faultWatchdogExpireTr (die : TDie) (fault : Nat) : Tr :=
  .read fun d =>
    match d.u.xlat.faults.find? fun f => f.die = die.val && f.id = fault with
    | some f =>
      if d.elapsed < f.since + d.fld XLAT_WDOG XLAT_WDOG_TIMEOUT_US die.val * oneUs then .skip
      else .seq [.bump XLAT_WDOG_EXPIRED die.val,
        .endFault f (some (if f.record.isSome then stTRANSLATION_ABORT else stFAULTQ_OVERFLOW))]
    | none => .skip
/-- FAULT_WATCHDOG_EXPIRE. -/
def execFaultWatchdogExpire (die : TDie) (fault : Nat) (s : State) := run (faultWatchdogExpireTr die fault) s

/-! ## Invalidation (R420 to R422, R408) -/

/-- Whether a cached translation lies within the scope of an invalidation. -/
def InvSt.covers (i : InvSt) (e : TlbEnt) : Bool :=
  (i.reg = HD || i.reg = e.die) &&
  match i.scope with
  | 0 => true
  | 1 => e.asid = i.asid && !e.global
  | 2 => (e.asid = i.asid || e.global) && i.va / e.size = e.page
  | _ => i.va / e.size = e.page

/-- Whether a virtual address of a die and address space lies within the scope. -/
def InvSt.touches (i : InvSt) (die asid va : Nat) : Bool :=
  (i.reg = HD || i.reg = die) &&
  match i.scope with
  | 0 => true
  | 1 => asid = i.asid
  | 2 => asid = i.asid && va / 4096 = i.va / 4096
  | _ => va / 4096 = i.va / 4096

/-- The ASID of a slot of a die. -/
def Dev.asidOf (d : Dev) (die slot : Nat) : Nat := bitsOf (d.reg XLAT_AS_SATP die slot).toNat 44 16

/-- The caches without the entries that an invalidation covers: leaves, and walk-cache entries on the path (R420). -/
def XlatSt.without (x : XlatSt) (i : InvSt) : XlatSt :=
  let keep := fun (l : List TlbEnt) => l.filter fun e => !i.covers e
  { x with tlb := keep x.tlb, utlb := x.utlb.map fun c => (c.1, keep c.2), walks := keep x.walks }

/-- What an invalidation takes away at once: cached translations, fresh prefetch granules, run-ahead entries. -/
def Tr.invalidateNow (i : InvSt) : Tr :=
  .read fun d => .seq [
    .xlatSt fun x => x.without i,
    .each d.u.cells fun (pk, cs) => .seq [
      .each cs.pf fun (b, p) =>
        let hit := fun (g : PfGran) => i.touches (pk / 168) (d.asidOf (pk / 168) p.aslot) g.va
        .seq [
          .cell pk fun cs => { cs with pf := aupd cs.pf b {} fun p =>
            { p with granules := p.granules.map fun g => if hit g then { g with stale := true } else g } },
          .bump STRM_PF_STALE (pk / 168) (p.granules.filter fun g => hit g && !g.stale).length (pk % 168),
          .pfReg pk b],
      .dropRunAhead pk fun e => i.touches (pk / 168) (d.asidOf (pk / 168) (cs.thread e.thread).aslot) e.va]]

/-- Requests that used a translation within the scope and have not completed (R281, R422). -/
def Dev.invWaits (d : Dev) (i : InvSt) : List (Nat × Nat) :=
  d.u.ops.flatMap fun o =>
    (o.reqs.zipIdx.filter fun (r, _) =>
      (r.st = .sent || r.st = .ready) && i.touches (o.pk / 168) (d.asidOf (o.pk / 168) o.aslot) r.va).map fun (_, n) => (o.id, n)

/-- XLAT_INV_GO (R420): the write of XLAT_INV_CTL. -/
def xlatInvGoTr (die : Fin 5) (v : Word) : Tr :=
  .read fun d =>
    let n := die.val
    if !bitOf v.toNat 0 then
      .when (!d.flag XLAT_INV_CTL XLAT_INV_CTL_GO n) (.writeReg XLAT_INV_CTL n v)
    else if d.flag XLAT_INV_CTL XLAT_INV_CTL_GO n then .fld XLAT_INV_STATUS XLAT_INV_STATUS_OVERRUN n 1
    else
      let i : InvSt := { reg := n, scope := bitsOf v.toNat 1 2, asid := bitsOf v.toNat 16 16,
                         va := (d.reg XLAT_INV_ADDR n).toNat }
      .seq [.writeReg XLAT_INV_CTL n v, .invalidateNow i,
        .xlatSt fun x => { x with inv := x.inv ++ [{ i with waits := d.invWaits i }] }]
/-- XLAT_INV_GO. -/
def execXlatInvGo (die : Fin 5) (v : Word) (s : State) := run (xlatInvGoTr die v) s

/-- INVALIDATION_DONE (R422): once the requests in flight have completed. -/
def invalidationDoneTr (die : Fin 5) : Tr :=
  .read fun d =>
    let n := die.val
    match d.u.xlat.inv.find? (·.reg = n) with
    | none => .skip
    | some i =>
      let left := i.waits.any fun (o, r) => d.u.ops.any fun q =>
        q.id = o && ((q.reqs[r]?).any fun r => r.st = .sent || r.st = .ready)
      if left then .skip
      else .seq [
        .xlatSt fun x => { x with inv := x.inv.filter (·.reg ≠ n) },
        .fld XLAT_INV_CTL XLAT_INV_CTL_GO n 0,
        .fld XLAT_INV_STATUS XLAT_INV_STATUS_DONE_COUNT n
          ((d.fld XLAT_INV_STATUS XLAT_INV_STATUS_DONE_COUNT n + 1) % 2 ^ 32)]
/-- INVALIDATION_DONE. -/
def execInvalidationDone (die : Fin 5) (s : State) := run (invalidationDoneTr die) s

/-- AS_SLOT_INVALID (R408): the write of XLAT_AS_CFG_n with VALID = 0 invalidates the slot's ASID. -/
def asSlotInvalidTr (die : TDie) (n : BitVec 6) (v : Word) : Tr :=
  .read fun d =>
    if bitOf v.toNat 0 then .skip
    else .seq [
      .when (d.flag XLAT_AS_CFG XLAT_AS_CFG_VALID die.val n.toNat)
        (.invalidateNow { reg := die.val, scope := 1, asid := d.asidOf die.val n.toNat, va := 0 }),
      .writeReg XLAT_AS_CFG die.val v n.toNat]
/-- AS_SLOT_INVALID. -/
def execAsSlotInvalid (die : TDie) (n : BitVec 6) (v : Word) (s : State) := run (asSlotInvalidTr die n v) s

end Sys2Proof.Machine
end

