-- ==== Sys2Proof/Machine/Stream.lean ====
section
/-! DEFINITION. Streams: memory operations in progress, their requests, commit groups, casting loads, gathers and prefetch
buffers (07_data_movement.md, R322 to R332). A request's life: translated, sent when a slot is free, answered by
LOAD_RESPONSE or STORE_COMPLETE (Machine/Response.lean), committed with its group. -/

namespace Sys2Proof.Machine

/-! ## Operations in progress -/

/-- The operation with an id. -/
def Dev.op? (d : Dev) (id : Nat) : Option MemOp := d.u.ops.find? (·.id = id)

/-- A change of an operation. -/
def Tr.onOp (id : Nat) (f : MemOp → MemOp) : Tr :=
  .units fun u => { u with ops := u.ops.map fun o => if o.id = id then f o else o }

/-- A change of request `i` of an operation. -/
def MemOp.onReq (o : MemOp) (i : Nat) (f : Req → Req) : MemOp := { o with reqs := o.reqs.modify i f }

/-- A change of request `i` of an operation. -/
def Tr.onReq (id i : Nat) (f : Req → Req) : Tr := .onOp id fun o => o.onReq i f

/-- A new operation. -/
def Tr.newOp (mk : Nat → MemOp) : Tr := .units fun u => { u with ops := u.ops ++ [mk u.nextOp], nextOp := u.nextOp + 1 }

/-- Speculative fetches of a die in flight. -/
def Units.specFly (u : Units) (die : Nat) : Nat := (u.route.spec.filter fun s => s.die = die && !s.arrived).length

/-- Requests in flight of the cells of a die. -/
def Units.cellFly (u : Units) (die : Nat) : Nat :=
  ((u.ops.filter fun o => o.pk / 168 = die).map MemOp.slots).foldl (· + ·) 0

/-- Requests in flight on a die (R265). -/
def Units.dieFly (u : Units) (die : Nat) : Nat := u.cellFly die + agetD u.dmaFly die 0 + u.specFly die

/-- STRM_DIE_INFLIGHT and STRM_DIE_PEAK of a die (R308). -/
def Tr.dieRegs (die : Nat) : Tr :=
  .read fun d =>
    let t := d.u.dieFly die
    let m := agetD d.u.dmaFly die 0
    let s := d.u.specFly die
    .seq [
      .reg STRM_DIE_INFLIGHT die (w64 (t % 2 ^ 15 + m % 2 ^ 14 * 2 ^ 16 + s % 2 ^ 13 * 2 ^ 32)),
      .reg STRM_DIE_PEAK die (w64 (max t (d.fld STRM_DIE_PEAK STRM_DIE_PEAK_TOTAL die) % 2 ^ 15 +
        max m (d.fld STRM_DIE_PEAK STRM_DIE_PEAK_DMA die) % 2 ^ 14 * 2 ^ 16 +
        max s (d.fld STRM_DIE_PEAK STRM_DIE_PEAK_SPEC die) % 2 ^ 13 * 2 ^ 32))]

/-- STRM_INFLIGHT of a cell and the registers of its die (R308). -/
def Tr.strmRegs (pk : Nat) : Tr :=
  .read fun d =>
    let n := d.u.slotsUsed pk
    let ra := ((d.u.ops.filter fun o => o.pk = pk && (match o.kind with | .ra _ => true | _ => false)).map MemOp.slots).foldl
      (· + ·) 0
    .seq [
      .reg STRM_INFLIGHT (pk / 168) (w64 (n % 2 ^ 7 + max n (d.fld STRM_INFLIGHT STRM_INFLIGHT_PEAK (pk / 168) (pk % 168)) %
        2 ^ 7 * 2 ^ 8 + ra % 2 ^ 8 * 2 ^ 16)) (pk % 168),
      .dieRegs (pk / 168)]

/-- Whether a slot of the cell and of its die is free (R265, R266). -/
def Dev.slotFree (d : Dev) (pk : Nat) : Bool := d.u.slotsUsed pk < 64 && d.u.dieFly (pk / 168) < 16384

/-- Pending tile registers of an operation are released where `p` holds (R275, R279). -/
def Tr.releaseTiles (id : Nat) (p : Nat → Bool) : Tr :=
  .read fun d => .opt (d.op? id) fun o =>
    let rel := o.pend.filter p
    let down := fun (m : List (Nat × Nat)) => rel.foldl (fun m r => tset (fun _ => 0) m r (agetD m r 0 - 1)) m
    .seq [
      .onOp id fun o => { o with pend := o.pend.filter fun r => !p r },
      .cell o.pk fun cs => match o.kind with
        | .ldt => { cs with pendW := down cs.pendW }
        | _ => { cs with pendR := down cs.pendR }]

/-- Whether an operation still has something to send, and so keeps its place in its stream (R272). -/
def MemOp.sending (o : MemOp) : Bool :=
  (o.reqs.any fun r => r.st = .untranslated || r.st = .ready || match r.st with | .faulted _ => true | _ => false) ||
  (match o.kind with | .pfw _ _ => !o.started && o.failed.isNone | _ => false) ||
  (o.failed.isNone && o.gath.any fun g => g.next < g.n) ||
  (o.failed.isNone && o.cast.any fun c => !c.decided || c.blocks.any fun b => b.2 = 0)

/-- Whether nothing of an operation is left (R265, R267). -/
def MemOp.finished (o : MemOp) : Bool := !o.sending && o.reqs.all fun r => r.st = .done

/-! ## Ending with a status (R279, R280, R283, R290) -/

/-- The trap of an operation's thread: cause MEMORY at the instruction that issued the request (R132). -/
def MemOp.trapTr (o : MemOp) (cause : Cause) (st : Nat) : Tr := .trap o.pk o.thread cause st o.pc

/-- Commit group `grp` of a load ends with a status: no request of it or of a later group is sent, earlier groups go on,
and which later groups whose requests have all been sent are still written is open (R279; a free value, log 22). -/
def Tr.failGroup (id grp st : Nat) (cause : Cause) : Tr :=
  .read fun d => .opt (d.op? id) fun o => .fresh fun idx =>
    let bits := (Config.freeWord idx).toNat
    let later := ((o.reqs.map (·.grp)).eraseDups.filter fun g => grp < g && !o.closed.contains g)
    let whole := fun (g : Nat) => o.cast.isNone && o.reqs.all fun r => r.grp ≠ g || r.st = .sent || r.st = .returned || r.st = .done
    let kept := later.filter fun g => whole g && bits.testBit (g % 64) && !o.reqs.any (fun r => r.grp = g && r.idx)
    let gone := fun (g : Nat) => grp ≤ g && !kept.contains g
    .seq [
      .onOp id fun o => { o with
        failed := some (o.failed.getD st), failGrp := grp, kept := kept,
        closed := (o.reqs.map (·.grp)).eraseDups.filter (fun g => gone g || o.closed.contains g),
        reqs := o.reqs.map fun r =>
          if gone r.grp && !r.idx && r.st ≠ .sent then { r with st := .done, data := [] } else r },
      .when (o.kind = .ldt) (.releaseTiles id fun r => match o.cast with
        | none => gone (r - o.base)
        | some c => ((c.blocks[grp]?).map (·.1)).getD 0 / 4096 ≤ r - o.base),
      o.trapTr cause st]

/-- A store or one row of a scatter ends with a status during its translation: no byte of it is written (R280). Later rows
of a scatter are not requested. -/
def Tr.failStore (id grp st : Nat) (cause : Cause) : Tr :=
  .read fun d => .opt (d.op? id) fun o => .seq [
    .onOp id fun o => { o with
      failed := some (o.failed.getD st), failGrp := grp,
      reqs := o.reqs.map fun r => if grp ≤ r.grp && r.st ≠ .sent then { r with st := .done, data := [] } else r },
    .releaseTiles id fun _ => true,
    o.trapTr cause st]

/-- An operation ends with a status at a group. -/
def Tr.failOp (id grp st : Nat) (cause : Cause := .memory) : Tr :=
  .read fun d => .opt (d.op? id) fun o =>
    match o.kind with
    | .sts => .failStore id grp st cause
    | .stt => .failStore id grp st cause
    | .scat => .failStore id grp st cause
    | _ => .failGroup id grp st cause

/-! ## Committing (R277, R278, R294, R296, R322 to R329) -/

/-- The bytes `bs` into a physical tile register from byte `o` of it. -/
def Tr.tileAt (pk r o : Nat) (bs : List Byte) : Tr := .writeTile pk r (bs.zipIdx.map fun (b, i) => (o + i, b))

/-- Bytes at consecutive positions of consecutive tile registers. -/
def Tr.tileRun (pk loc : Nat) (bs : List Byte) : Tr :=
  let all : List Byte := List.replicate (loc % 4096) 0 ++ bs
  .each (chunksOf 4096 (cdiv all.length 4096) all).zipIdx fun ((part : List Byte), i) =>
    let off := if i = 0 then loc % 4096 else 0
    .tileAt pk (loc / 4096 + i) off (part.drop off)

/-- Bytes of a casting load's uncompressed content from byte `off` on, at its destination (R322). -/
def Tr.castBytes (o : MemOp) (c : CastSt) (off : Nat) (bs : List Byte) : Tr :=
  if o.kind = .ldt then .tileRun o.pk (c.dst + off) bs
  else
    let rows := if bs.isEmpty then [] else (List.range ((off + bs.length - 1) / c.rowBytes - off / c.rowBytes + 1)).map (off / c.rowBytes + ·)
    .each rows fun r =>
      let lo := max off (r * c.rowBytes)
      let hi := min (off + bs.length) ((r + 1) * c.rowBytes)
      .writeSpad o.pk (unsigned 64 ((c.dst : Int) + r * c.pitch) + (lo - r * c.rowBytes)) ((bs.drop (lo - off)).take (hi - lo))

/-- Bytes committed by a load (R308). -/
def Tr.loadBytes (pk n : Nat) : Tr := .bump STRM_LOAD_BYTES (pk / 168) n (pk % 168)

/-- The group of an operation is closed, and its requests complete. -/
def Tr.closeGroup (id g : Nat) : Tr :=
  .onOp id fun o => { o with
    closed := g :: o.closed, reqs := o.reqs.map fun r => if r.grp = g && !r.idx then { r with st := .done, data := [] } else r }

/-- A whole group of an ordinary load is written (R278). -/
def Tr.commitPlain (o : MemOp) (g : Nat) : Tr :=
  let rs := o.reqs.filter fun r => r.grp = g && !r.idx
  let n := rs.foldl (fun n r => n + r.data.length) 0
  .seq [
    (match o.kind with
      | .ldt => .seq [
          .writeTile o.pk (o.base + g) (rs.flatMap fun r => r.data.zipIdx.map fun (b, i) => (r.loc % 4096 + i, b)),
          .releaseTiles o.id fun r => r = o.base + g]
      | _ => .each rs fun r => .writeSpad o.pk r.loc r.data),
    .loadBytes o.pk n,
    .closeGroup o.id g,
    .when (o.kind = .gath) (.read fun d => .opt (d.op? o.id) fun o' =>
      .when (o'.reqs.all fun r => r.idx || r.grp / 16 ≠ g / 16 || r.st = .done) (.bump STRM_GATHER_ROWS (o.pk / 168) 1 (o.pk % 168)))]

/-- A block of a casting load ends with a status (R326 to R329). -/
def Tr.failBlock (o : MemOp) (g kind st : Nat) (b : Block) (seen : Bool) : Tr :=
  let addr := ((o.reqs.find? fun r => r.grp = g).map (·.pa)).getD 0
  .seq [.vqErr (o.pk / 168) kind st (if seen then b.mould else 0) (if seen then b.gen else 0) addr, .failOp o.id g st]

/-- Requests of at most 512 bytes, none across a 512-byte boundary, for `len` bytes at `va` (R264). -/
def reqPieces (va len loc grp : Nat) : List Req :=
  if len = 0 then [] else
    (List.range ((va + len - 1) / 512 - va / 512 + 1)).map fun i =>
      let lo := max va ((va / 512 + i) * 512)
      let hi := min (va + len) ((va / 512 + i + 1) * 512)
      { va := lo, len := hi - lo, loc := loc + (lo - va), grp := grp }

/-- The request for the first 512 bytes of the slot at byte `off` of the source. -/
def CastSt.header (c : CastSt) (off grp : Nat) : Req :=
  { va := c.va + off, len := min 512 (512 - (c.va + off) % 512), grp := grp }

/-- A casting load's block `g`, all of whose requests have returned: first its header, then the whole (R325 to R328). -/
def Tr.castBlock (o : MemOp) (c : CastSt) (g : Nat) : Tr :=
  .read fun d =>
    let die := o.pk / 168
    let rs := o.reqs.filter fun r => r.grp = g
    let bs := rs.flatMap (·.data)
    let b := blockOf bs
    let (start, known) := (c.blocks[g]?).getD (0, 0)
    let inRange := fun (a n : Nat) => c.range.any fun r => r.1 ≤ a && a + n ≤ r.2 + 1
    let pa := (rs.headD { va := 0, len := 0 }).pa
    let geom := d.geom die b.mould
    let whole := (c.va + start) % 4096 = 0 && start + b.slot ≤ c.total
    let finish : Tr :=
      if !(rs.all fun r => inRange r.pa r.len) then .failBlock o g 7 stMALFORMED b true
      else if !b.crcOk bs then .failBlock o g 4 stMALFORMED b true
      else if d.u.badMould.contains (die * 16 + b.mould) then
        .seq [.fld VQ_MOULD VQ_MOULD_ERR die 1 b.mould, .failBlock o g 8 stMEM_UNCORRECTABLE b true]
      else
        let (out, st) := b.content geom bs fun i => d.rawBytes (mouldAddr die b.mould + i * geom.vecBytes) geom.vecBytes
        .seq [
          .castBytes o c start out, .bump VQ_BYTES_CAST die out.length, .loadBytes o.pk out.length,
          if st = stOK then .seq [.bump VQ_BLOCKS_CAST die, .closeGroup o.id g,
            .when (o.kind = .ldt) (.releaseTiles o.id fun r => start / 4096 ≤ r - o.base && r - o.base < (start + b.slot) / 4096)]
          else .failBlock o g (lengthKind st) st b true]
    if known ≠ 0 then finish
    else if !b.good then .failBlock o g 1 stMALFORMED b true
    else if !(c.contiguous && whole && inRange pa (min b.slot 4096)) then .failBlock o g 7 stMALFORMED b true
    else if !d.mouldHolds die b.mould b.gen then .failBlock o g 2 stCODEBOOK_RETIRED b true
    else if !b.geomOk geom then .failBlock o g 3 stMALFORMED b true
    else
      let more := (reqPieces (c.va + start + 512) (b.fetched - 512) 0 g).map fun r => { r with mould := some b.mould }
      let nextOff := start + b.slot
      let last := nextOff = c.total
      .seq [
        .onOp o.id fun o => { o with
          cast := some { c with blocks := c.blocks.set g (start, b.slot) ++ (if last then [] else [(nextOff, 0)]) },
          reqs := o.reqs.map (fun r => if r.grp = g then { r with mould := some b.mould } else r) ++ more ++
            (if last then [] else [c.header nextOff (g + 1)]) },
        .when more.isEmpty finish]

/-- Every request of a group has its data: the group is written, or the block goes on. -/
def Tr.groupReady (id g : Nat) : Tr :=
  .read fun d => .opt (d.op? id) fun o =>
    if o.closed.contains g || !(o.reqs.all fun r => r.grp ≠ g || r.idx || r.st = .returned || r.st = .done) then .skip
    else match o.cast with
      | some c => if c.range.isSome then .castBlock o c g else .commitPlain o g
      | none => .commitPlain o g

/-- The index numbers a gather or scatter looks at: the address of index `n` (R286). -/
def GathSt.width (g : GathSt) : Nat := [2, 4, 8].getD g.ifmt 8
/-- The address of index `n`. -/
def GathSt.addr (g : GathSt) (n : Nat) : Nat :=
  if g.stride = 0 then g.ri + n * g.width else g.ri + n / g.iper * g.stride + n % g.iper * g.width

/-- The data of a load request arrives, or its status (R278, R279, R282, R288). `psn` are its poisoned sectors. -/
def Tr.arrive (id i st : Nat) (bytes : List Byte) (psn : List Nat) : Tr :=
  .read fun d => .opt (d.op? id) fun o => .opt (o.reqs[i]?) fun r =>
    let st := if st = stOK && !psn.isEmpty then stPOISON_CONSUMED else st
    let cast := o.cast.any (·.range.isSome)
    .seq [
      .when cast (.bump VQ_BYTES_FETCHED (o.pk / 168) bytes.length),
      if r.idx then
        if st ≠ stOK then
          let n0 := (o.gath.map fun g => ((List.range g.n).find? fun n => r.va < g.addr n + g.width && g.addr n < r.va + r.len).getD g.n).getD 0
          .seq [
            .onOp id fun o => { o.onReq i fun r => { r with st := .done } with gath := o.gath.map fun g => { g with n := n0 } },
            o.trapTr .memory st]
        else .onReq id i fun r => { r with st := .done, data := bytes }
      else if o.closed.contains r.grp || (o.failed.isSome && o.failGrp ≤ r.grp && !o.kept.contains r.grp) then
        .onReq id i fun r => { r with st := .done, data := [] }
      else if st ≠ stOK then .seq [
        .onReq id i fun r => { r with st := .done, data := [] },
        if cast then .failBlock o r.grp 0 st (blockOf (o.reqs.flatMap fun q => if q.grp = r.grp then q.data else []))
          ((o.reqs.find? fun q => q.grp = r.grp).any fun q => !q.data.isEmpty)
        else .failOp id r.grp st]
      else .seq [
        .onReq id i fun r => { r with st := if cast then .done else .returned, data := bytes },
        .groupReady id r.grp]]

/-! ## Translating and sending (R264 to R267, R271, R276, R279 to R281, R300) -/

/-- The queue of the work-list entry that started a thread (R427). -/
def Dev.threadQueue (d : Dev) (pk t : Nat) : Nat :=
  ((d.u.beat.work.find? fun e => e.phys = some pk && e.thread = t).map (·.notify)).getD 0xFFFF

/-- Whether the kind of an operation writes memory. -/
def OpKind.stores : OpKind → Bool
  | .sts => true
  | .stt => true
  | .scat => true
  | _ => false

/-- Whether a global address lies in this package's MMIO range (R41, R43). -/
def Dev.localMmio (d : Dev) (ga : Nat) : Bool := !d.isRemote ga && inMmio (localOf ga)

/-- A casting load becomes one, or an ordinary load, once its first byte is translated (R322, R332). -/
def Tr.decideCast (id : Nat) : Tr :=
  .read fun d => .opt (d.op? id) fun o => .opt o.cast fun c => .opt (o.reqs[0]?) fun r =>
    .when (!c.decided && r.st = .ready) (
      match rangeOf c.ranges r.pa with
      | none => .onOp id fun o => { o with cast := none }
      | some rg => .onOp id fun o => { o with
          cast := some { c with decided := true, range := some rg, blocks := [(0, 0)] },
          reqs := [{ c.header 0 0 with pa := r.pa, pin := r.pin, st := .ready }] })

/-- Request `i` of an operation is translated; a status ends it, a fault makes it wait and is counted once a group. -/
def Tr.translateReq (id i : Nat) : Tr :=
  .read fun d => .opt (d.op? id) fun o => .opt (o.reqs[i]?) fun r =>
    let x : XReq := { die := o.pk / 168, slot := o.aslot, va := r.va, access := b01 (o.kind.stores && !r.idx),
                      spec := false, source := 0, cell := o.pk / 168 * 160 + d.logicalOf o.pk % 160, thread := o.thread,
                      queue := d.threadQueue o.pk o.thread, agent := agCell, pk := some o.pk, who := .req id i }
    .translate x fun res => match res with
      | .ok ga _ pin =>
        if d.localMmio ga && (o.kind = .ldt || o.kind = .stt || (match o.kind with | .pfb _ => true | _ => false)) then
          .failOp id r.grp stMALFORMED .illegal
        else .seq [
          .onOp id fun o => { o.onReq i fun r => { r with pa := ga, pin := pin, st := .ready } with
            mmio := o.mmio || d.localMmio ga },
          .decideCast id]
      | .bad st => .seq [.onReq id i fun r => { r with st := .done }, .failOp id r.grp st]
      | .wait => .seq [
          .onReq id i fun r => { r with st := .faulted 0 },
          .when (!o.kind.stores && !r.idx && !o.holds.contains r.grp) (.seq [
            .bump STRM_COMMIT_HOLDS (o.pk / 168) 1 (o.pk % 168),
            .onOp id fun o => { o with holds := r.grp :: o.holds }])]
      | .unusable => .skip

/-- A held run-ahead entry gives a load its data (R139, R140, R300): older held entries of the thread go. -/
def Tr.takeRunAhead (id i : Nat) (o : MemOp) (r : Req) : Tr :=
  .read fun d =>
    let mine := (d.cellAt o.pk).ra.filter (·.thread = o.thread)
    match mine.find? fun e => e.va = r.va && e.len = r.len && e.arrived with
    | none => .skip
    | some e =>
      let older := (mine.takeWhile (· ≠ e)).map (·.va)
      .seq [
        .dropRunAhead o.pk fun q => q.thread = o.thread && older.contains q.va,
        .cell o.pk fun cs => { cs with ra := cs.ra.filter (· ≠ e) },
        .bump CELL_RA_USED (o.pk / 168) 1 (o.pk % 168),
        .onReq id i fun r => { r with st := .sent },
        .when e.poison (.seq [
          .when (o.pk / 168 < 4) (.bump MEM_POISON_READS (o.pk / 168)),
          .errorAt (localOf r.pa) 3 0 agCell (o.pk / 168) stPOISON_CONSUMED false]),
        .arrive id i (if e.poison then stPOISON_CONSUMED else stOK) e.bytes []]

/-- Whether a held run-ahead entry matches a load's request. -/
def Dev.runAheadHas (d : Dev) (o : MemOp) (r : Req) : Bool :=
  (o.kind = .lds || o.kind = .ldt) && !o.mmio &&
    (d.cellAt o.pk).ra.any fun e => e.thread = o.thread && e.va = r.va && e.len = r.len && e.arrived

/-- The source bytes of a store's request, with its poisoned sectors (R282). -/
def CellSt.source (cs : CellSt) (kind : OpKind) (r : Req) : List Byte × List Nat :=
  if kind = .stt then (cs.tiles.slice r.loc r.len, [])
  else (cs.spad.slice r.loc r.len, (List.range (r.len / 64)).filter fun s => cs.spadPoison (r.loc + 64 * s) 64)

/-- Request `i`, translated, is sent when a slot is free. On the MMIO range one goes at a time, in ascending address order
(R276). A prefetch granule subscribes and its stale bit clears (R295, R296); a store reads its source and discards held
run-ahead entries for the same bytes (R139). -/
def Tr.sendReq (id i : Nat) : Tr :=
  .read fun d => .opt (d.op? id) fun o => .opt (o.reqs[i]?) fun r =>
    let busy := o.mmio && (o.reqs.any fun q => q.st = .sent || q.st = .returned || (q.st = .ready && q.va < r.va))
    let die := o.pk / 168
    let buffer : Option Nat := match o.kind with | .pfb b => some b | .pfw b _ => some b | _ => none
    if r.st ≠ .ready || busy then .skip
    else if d.runAheadHas o r then .takeRunAhead id i o r
    else if !d.slotFree o.pk then .skip
    else .seq [
      .onReq id i fun r => { r with st := .sent },
      .opt buffer fun b => .seq [
        .cell o.pk fun cs => { cs with pf := aupd cs.pf b {} fun p => { p with
          granules := p.granules.map fun g =>
            if g.va / 512 = r.va / 512 then { g with ga := d.normGa r.pa, sub := !r.pin, stale := false } else g } },
        .when (!r.pin) (.subscribe die (d.normGa r.pa / 512) (.pf o.pk b)),
        .pfReg o.pk b],
      .when (o.kind.stores && !r.idx) (.seq [
        .onReq id i fun r =>
          let (bs, ps) := (d.cellAt o.pk).source o.kind r
          { r with data := bs, psn := ps },
        .dropRunAhead o.pk fun e => e.pa < r.pa + r.len && r.pa < e.pa + e.len])]

/-- The indexes of the requests of an operation that satisfy `p`. -/
def MemOp.reqsWhere (o : MemOp) (p : Req → Bool) : List Nat := (o.reqs.zipIdx.filter fun (r, _) => p r).map (·.2)

/-- The requests of a load, in order: each is translated and sent. -/
def Tr.pumpLoad (id : Nat) : Tr :=
  .read fun d => .opt (d.op? id) fun o =>
    let first := o.cast.any fun c => !c.decided && !c.ranges.isEmpty
    let is := o.reqsWhere fun r => r.st = .untranslated || r.st = .ready
    .seq [
      .each (if first then is.take 1 else is) fun i => .read fun d =>
        .opt (d.op? id) fun o => .opt (o.reqs[i]?) fun r =>
          .seq [.when (r.st = .untranslated) (.translateReq id i), .sendReq id i],
      .when first (.read fun d => .opt (d.op? id) fun o => .each
        (o.reqsWhere fun r => o.cast.all (·.decided) && (r.st = .untranslated || r.st = .ready)) fun i => .read fun d =>
          .opt (d.op? id) fun o => .opt (o.reqs[i]?) fun r =>
            .seq [.when (r.st = .untranslated) (.translateReq id i), .sendReq id i])]

/-- The rows of a store from group `gs` on: every page of a row is translated before its first request is sent (R280), and
rows go in order. A store of scratchpad rows or tiles is one group. -/
def Tr.pumpRows (id : Nat) : List Nat → Tr
  | [] => .skip
  | g :: gs => .read fun d => .opt (d.op? id) fun o => .seq [
      .each (o.reqsWhere fun r => r.grp = g && r.st = .untranslated) (.translateReq id),
      .read fun d => .opt (d.op? id) fun o =>
        if o.reqs.any fun r => r.grp = g && (r.st = .untranslated || match r.st with | .faulted _ => true | _ => false) then .skip
        else .seq [
          .each (o.reqsWhere fun r => r.grp = g && r.st = .ready) (.sendReq id),
          .read fun d => .opt (d.op? id) fun o =>
            if o.reqs.any fun r => r.grp = g && r.st = .ready then .skip else .pumpRows id gs]]

/-- The bytes of index `n`, where they are known: from scratchpad, or from index reads that have returned. -/
def MemOp.indexBytes (cs : CellSt) (o : MemOp) (g : GathSt) (n : Nat) : Option (List Byte) :=
  if g.inMem then
    (List.range g.width).mapM fun k =>
      let a := g.addr n + k
      (o.reqs.find? fun r => r.idx && r.st = .done && r.va ≤ a && a < r.va + r.data.length).bind fun r => r.data[a - r.va]?
  else some (cs.spad.slice (g.addr n) g.width)

/-- A passed-over index (R286, R289). -/
def indexPassed (ifmt v : Nat) : Bool :=
  match ifmt with
  | 1 => 0xFFFFFFFE ≤ v
  | 2 => !v.testBit 35
  | _ => false

/-- The indices of a gather or scatter in ascending order, as far as they are known (R285 to R290). Row n is the groups
16 n to 16 n + 15 of a GATH, and group 16 n of a SCAT. -/
def Tr.gatherGo (id : Nat) : Nat → Tr
  | 0 => .skip
  | fuel + 1 => .read fun d => .opt (d.op? id) fun o => .opt o.gath fun g =>
    if o.failed.isSome || g.n ≤ g.next then .skip
    else
      let cs := d.cellAt o.pk
      let n := g.next
      let dp := cdiv g.rowBytes 64 * 64
      let row := g.rd + n * dp
      let step := fun (rs : List Req) => Tr.onOp id fun o => { o with
        gath := o.gath.map fun g => { g with next := n + 1 }, reqs := o.reqs ++ rs }
      match o.indexBytes cs g n with
      | none => .skip
      | some bs =>
        let v := leNat bs
        let x := v % 2 ^ 32
        if !g.inMem && cs.spadPoison (g.addr n) g.width then .failOp id (16 * n) stPOISON_CONSUMED
        else if indexPassed g.ifmt v then .seq [
          .bump STRM_GATHER_PASSED (o.pk / 168) 1 (o.pk % 168),
          .when (g.skz && o.kind = .gath) (.writeSpad o.pk row (List.replicate g.rowBytes 0)),
          step [], .gatherGo id fuel]
        else if (if g.rows = 0 then 2 ^ 32 else g.rows) ≤ x then .failOp id (16 * n) stMALFORMED
        else
          let va := unsigned 64 ((g.rt : Int) + x * g.rs)
          let rs := if o.kind = .gath then
              (List.range (cdiv g.rowBytes 4096)).flatMap fun j =>
                reqPieces (va + 4096 * j) (min 4096 (g.rowBytes - 4096 * j)) (row + 4096 * j) (16 * n + j)
            else reqPieces va g.rowBytes row (16 * n)
          .seq [step rs, .gatherGo id fuel]

/-- A PFW whose turn has come (R296): on a FREE buffer it has nothing to do; on a READY one it refetches the stale
granules. -/
def Tr.startPfw (id : Nat) (o : MemOp) (b cd : Nat) : Tr :=
  .read fun d =>
    let p := agetD (d.cellAt o.pk).pf b {}
    match p.state with
    | 0 => .onOp id fun o => { o with started := true, kind := .pfw 8 cd }
    | 1 => .skip
    | _ =>
      let gs := p.granules.filter (·.stale)
      .seq [
        .bump STRM_PF_REFETCH (o.pk / 168) gs.length (o.pk % 168),
        .onOp id fun o => { o with
          started := true,
          reqs := gs.zipIdx.map fun (g, i) => { va := g.va, len := g.len, loc := p.spad + (g.va - p.va), grp := i } }]

/-- One operation sends what it can. -/
def Tr.pumpOp (id : Nat) : Tr :=
  .read fun d => .opt (d.op? id) fun o =>
    .seq [
      (match o.kind with
        | .pfw b cd => .when (!o.started) (.startPfw id o b cd)
        | _ => .skip),
      .opt o.gath fun g => .seq [
        .each (o.reqsWhere fun r => r.idx && (r.st = .untranslated || r.st = .ready)) fun i => .read fun d =>
          .opt (d.op? id) fun o => .opt (o.reqs[i]?) fun r =>
            .seq [.when (r.st = .untranslated) (.translateReq id i), .sendReq id i],
        .gatherGo id (g.n - g.next + 1)],
      (if o.kind.stores then .read fun d => .opt (d.op? id) fun o =>
          .pumpRows id ((o.reqs.filter fun r => !r.idx && r.st ≠ .done).map (·.grp)).eraseDups
        else .pumpLoad id),
      .read fun d => .opt (d.op? id) fun o =>
        .when (o.kind = .stt && !o.sending) (.releaseTiles id fun _ => true)]

/-- The operations of a cell's streams that may send now: the first of each stream with something to send, and the first
four of the gather engine (R272, R284). -/
def Units.turn (u : Units) (pk : Nat) : List Nat :=
  let of := fun (s : Nat) => (u.ops.filter fun o => o.pk = pk && o.stream = s && o.sending).map (·.id)
  (of 0).take 1 ++ (of 1).take 1 ++ (of 2).take 1 ++ (of 3).take 4

/-! ## Completing -/

/-- WAITHINT is 0 while a thread has no request in flight (R301). -/
def Tr.clearHints (pk : Nat) : Tr :=
  .units fun u => { u with cells := aupd u.cells pk {} fun cs => { cs with
    threads := cs.threads.map fun e => (e.1, if u.threadReqs pk e.1 = 0 then { e.2 with hint := 0 } else e.2) } }

/-- A finished operation goes: a filled prefetch buffer is READY, PFW writes its condition register (R294, R296). -/
def Tr.finishOp (o : MemOp) : Tr :=
  .seq [
    (match o.kind with
      | .pfb b => .when o.failed.isNone (.seq [
          .cell o.pk fun cs => { cs with pf := aupd cs.pf b {} fun p => { p with state := 2 } }, .pfReg o.pk b])
      | .pfw b cd => .read fun d =>
          let p := agetD (d.cellAt o.pk).pf b {}
          let free := fun (th : Thread) => { th with pendC := putBits th.pendC cd 1 0 }
          .thread o.pk o.thread fun th =>
            if o.failed.isNone then (free th).setC cd (b ≠ 8 && !(p.granules.any (·.stale))) else free th
      | _ => .skip),
    .releaseTiles o.id fun _ => true,
    .units fun u => { u with ops := u.ops.filter (·.id ≠ o.id) },
    .clearHints o.pk]

/-- Every finished operation of a cell goes. -/
def Tr.settle (pk : Nat) : Tr :=
  .read fun d => .each (d.u.ops.filter fun o => o.pk = pk && o.finished && (match o.kind with | .held _ _ _ => false | _ => true))
    Tr.finishOp

/-- The streams of a cell go on until nothing more can be sent or finished. -/
def Tr.pumpGo (pk : Nat) : Nat → Tr
  | 0 => .skip
  | fuel + 1 => .read fun d =>
    let ids := d.u.turn pk
    .seq [
      .each ids Tr.pumpOp, .settle pk,
      .read fun d' => if d'.u.turn pk = ids then .skip else .pumpGo pk fuel]

/-- The streams of a cell go on, its threads wake, and its registers follow. -/
def Tr.pump (pk : Nat) : Tr :=
  .read fun d => .seq [.pumpGo pk (2 * d.u.ops.length + 2), .wake pk, .strmRegs pk, .mouldRefs (pk / 168)]

/-! ## The memory class (R268 to R276) -/

/-- What RG names: ROWBYTES and ROWS (R268). -/
def geomOf (g : Nat) : Nat × Nat := (bitsOf g 0 19, bitsOf g 19 16 + 1)

/-- RA to RP and TR, TN. -/
def Ctx.mVa (x : Ctx) : Nat := x.s 16
/-- s[RB]. -/
def Ctx.mSpad (x : Ctx) : Nat := x.s 21
/-- ROWBYTES and ROWS. -/
def Ctx.mGeom (x : Ctx) : Nat × Nat := geomOf (x.s 26)
/-- s[RM], signed. -/
def Ctx.mStride (x : Ctx) : Int := signed 64 (x.s 31)
/-- s[RP], signed. -/
def Ctx.mPitch (x : Ctx) : Int := signed 64 (x.s 36)
/-- S of R269. -/
def Ctx.tStride (x : Ctx) : Int := if x.f 31 5 = 0 then 128 else x.mStride
/-- P of R269. -/
def Ctx.tPitch (x : Ctx) : Int := if x.f 36 5 = 0 then 128 else x.mPitch
/-- Tiles. -/
def Ctx.mTiles (x : Ctx) : Nat := x.f 47 4 + 1
/-- The tile numbers TR to TR + TN. -/
def Ctx.mTileNos (x : Ctx) : List Nat := (List.range x.mTiles).map (x.f 41 6 + ·)

/-- Masks of the fields of R268. -/
def mMem (rows tiles ls clsNa : Bool) : Nat :=
  (if rows then fmask 21 10 ||| fmask 36 5 else 0) ||| (if tiles then fmask 41 10 else 0) ||| (if ls then fmask 51 1 else 0) |||
    (if clsNa then fmask 52 3 else 0)

/-- Whether two of `n` rows of `len` bytes at stride `s` overlap. -/
def rowsOverlap (n len : Nat) (s : Int) : Bool := 1 < n && s.natAbs < len

/-- Row `r` of a strided range. -/
def rowAt (a : Nat) (s : Int) (r : Nat) : Nat := unsigned 64 ((a : Int) + r * s)

/-- Distinct 4 KiB pages that rows touch. -/
def pagesOf (rows : List (Nat × Nat)) : Nat :=
  (rows.flatMap fun (a, n) => (List.range ((a + n - 1) / 4096 - a / 4096 + 1)).map (a / 4096 + ·)).eraseDups.length

/-- Whether a stream has room for one more instruction (R272). -/
def roomIn (s : Nat) (d : Dev) (x : Ctx) : Bool :=
  (d.u.ops.filter fun o => o.pk = x.pk && o.stream = s && o.sending).length < 4

/-- The arbiter class an instruction's requests carry (R271). -/
def Ctx.arbClass (x : Ctx) (d : Dev) (cls : Nat) : Nat := max cls (d.forceFld STRM_CTL STRM_CTL_MIN_CLASS x.die)

/-- The thread issues a memory operation and goes on. -/
def Ctx.launch (x : Ctx) (mk : Nat → MemOp) : Tr := .seq [x.next, .newOp mk, .pump x.pk]

/-- A new operation of an instruction. -/
def Ctx.memOp (x : Ctx) (d : Dev) (id : Nat) (kind : OpKind) (stream : Nat) (reqs : List Req) : MemOp :=
  { id := id, pk := x.pk, thread := x.t, pc := x.th.pc, aslot := x.th.aslot, kind := kind, stream := stream, reqs := reqs,
    cls := x.arbClass d (x.f 52 2), na := x.f 54 1 = 1 }

/-- Whether addresses and strides are multiples of 64 (R270). -/
def by64 (l : List Int) : Bool := l.all fun v => v % 64 = 0

/-- The requests of LDS: commit groups are runs of at most 4,096 bytes of a row (R277); run j of row r is group 64 r + j. -/
def ldsReqs (va : Nat) (m : Int) (spad : Nat) (p : Int) (rb rows : Nat) : List Req :=
  (List.range rows).flatMap fun r => (List.range (cdiv rb 4096)).flatMap fun j =>
    reqPieces (rowAt va m r + 4096 * j) (min 4096 (rb - 4096 * j)) (rowAt spad p r + 4096 * j) (64 * r + j)

/-- The requests of LDT: each tile is a group (R277); rows that follow one another in memory share requests. -/
def ldtReqs (va : Nat) (s : Int) (base tiles : Nat) : List Req :=
  (List.range tiles).flatMap fun t =>
    if s = 128 then reqPieces (va + 4096 * t) 4096 (4096 * (base + t)) t
    else (List.range 32).flatMap fun r => reqPieces (rowAt va s (32 * t + r)) 128 (4096 * (base + t) + 128 * r) t

/-- LDS (R269, R270, R277, R322). -/
def ldsTr (c : PCell) (t : Tid) (w : Word128) : Tr :=
  issueIf (fun d x => roomIn (x.f 51 1) d x) c t w (fmask 16 5 ||| fmask 31 5 ||| mMem true false true true) fun x => .read fun d =>
    let (rb, rows) := x.mGeom
    let rowsAt := (List.range rows).map fun r => (rowAt x.mSpad x.mPitch r, rb)
    if !by64 [x.mVa, x.mStride, x.mSpad, x.mPitch, rb] || rb = 0 || 262144 < rb * rows || rowsOverlap rows rb x.mPitch then x.illegal
    else x.inSpad rowsAt <|
      let cast : CastSt := { ranges := d.castRanges x.die, contiguous := rows = 1 || x.mStride = rb, va := x.mVa,
                             dst := x.mSpad, rowBytes := rb, pitch := x.mPitch, total := rb * rows }
      x.launch fun id => { x.memOp d id .lds (x.f 51 1) (ldsReqs x.mVa x.mStride x.mSpad x.mPitch rb rows) with
        cast := if cast.ranges.isEmpty then none else some cast }
/-- LDS. -/
def execLds (c : PCell) (t : Tid) (w : Word128) (s : State) := run (onWord 2 0 w (ldsTr c t w)) s

/-- Pending reads or writes of tile registers are marked (R275). -/
def CellSt.mark (cs : CellSt) (write : Bool) (ts : List Nat) : CellSt :=
  let up := fun (m : List (Nat × Nat)) => ts.foldl (fun m r => aupd m r 0 (· + 1)) m
  if write then { cs with pendW := up cs.pendW } else { cs with pendR := up cs.pendR }

/-- LDT (R269, R270, R275, R277, R322). -/
def ldtTr (c : PCell) (t : Tid) (w : Word128) : Tr :=
  issueIf (fun d x => roomIn (x.f 51 1) d x) c t w (fmask 16 5 ||| fmask 31 5 ||| mMem false true true true) fun x =>
    if !by64 [x.mVa, x.tStride] then x.illegal
    else x.withTiles x.mTileNos fun ts => x.hazard [] ts <| .read fun d =>
      let base := ts.headD 0
      let cast : CastSt := { ranges := d.castRanges x.die, contiguous := x.tStride = 128, va := x.mVa,
                             dst := 4096 * base, rowBytes := 4096, pitch := 4096, total := 4096 * x.mTiles }
      .seq [
        .cell x.pk fun cs => cs.mark true ts,
        x.launch fun id => { x.memOp d id .ldt (x.f 51 1) (ldtReqs x.mVa x.tStride base x.mTiles) with
          cast := if cast.ranges.isEmpty then none else some cast, pend := ts, base := base }]
/-- LDT. -/
def execLdt (c : PCell) (t : Tid) (w : Word128) (s : State) := run (onWord 2 1 w (ldtTr c t w)) s

/-- STS (R269, R270, R280, R282): all its requests are one group. -/
def stsTr (c : PCell) (t : Tid) (w : Word128) : Tr :=
  issueIf (roomIn 2) c t w (fmask 16 5 ||| fmask 31 5 ||| mMem true false false true) fun x => .read fun d =>
    let (rb, rows) := x.mGeom
    let mem := (List.range rows).map fun r => (rowAt x.mVa x.mStride r, rb)
    if !by64 [x.mVa, x.mStride, x.mSpad, x.mPitch, rb] || rb = 0 || 262144 < rb * rows || rowsOverlap rows rb x.mStride ||
        64 < pagesOf mem then x.illegal
    else x.inSpad ((List.range rows).map fun r => (rowAt x.mSpad x.mPitch r, rb)) <|
      x.launch fun id => x.memOp d id .sts 2
        (mem.zipIdx.flatMap fun (row, r) => reqPieces row.1 rb (rowAt x.mSpad x.mPitch r) 0)
/-- STS. -/
def execSts (c : PCell) (t : Tid) (w : Word128) (s : State) := run (onWord 2 2 w (stsTr c t w)) s

/-- STT (R269, R270, R275, R280). Poisoned tile words are consumed (R355). -/
def sttTr (c : PCell) (t : Tid) (w : Word128) : Tr :=
  issueIf (roomIn 2) c t w (fmask 16 5 ||| fmask 31 5 ||| mMem false true false true) fun x =>
    let mem := (List.range (32 * x.mTiles)).map fun r => (rowAt x.mVa x.tStride r, 128)
    if !by64 [x.mVa, x.tStride] || rowsOverlap (32 * x.mTiles) 128 x.tStride || 64 < pagesOf mem then x.illegal
    else x.withTiles x.mTileNos fun ts => x.hazard ts [] <| x.unpoisoned (fun cs => ts.any cs.tilePoison) <| .read fun d =>
      let base := ts.headD 0
      .seq [
        .cell x.pk fun cs => cs.mark false ts,
        x.launch fun id => { x.memOp d id .stt 2 ((ldtReqs x.mVa x.tStride base x.mTiles).map fun r => { r with grp := 0 }) with
          pend := ts, base := base }]
/-- STT. -/
def execStt (c : PCell) (t : Tid) (w : Word128) (s : State) := run (onWord 2 3 w (sttTr c t w)) s

/-- The scratchpad rows of MVST and MVTS. -/
def Ctx.moveRows (x : Ctx) : List (Nat × Nat) := (List.range (32 * x.mTiles)).map fun r => (rowAt x.mSpad x.tPitch r, 128)

/-- MVST (R269, R273): scratchpad to tile registers. -/
def mvstTr (c : PCell) (t : Tid) (w : Word128) : Tr :=
  issue c t w (fmask 21 5 ||| fmask 36 5 ||| mMem false true false false) fun x =>
    if !by64 [x.mSpad, x.tPitch] then x.illegal
    else x.withTiles x.mTileNos fun ts => x.inSpad x.moveRows <| x.hazard [] ts <|
      x.unpoisoned (fun cs => x.moveRows.any fun r => cs.spadPoison r.1 128) <| .read fun d =>
        let cs := d.cellAt x.pk
        .seq [
          .each ts.zipIdx fun (r, i) =>
            .tileAt x.pk r 0 (((x.moveRows.drop (32 * i)).take 32).flatMap fun row => cs.spad.slice row.1 128),
          x.next]
/-- MVST. -/
def execMvst (c : PCell) (t : Tid) (w : Word128) (s : State) := run (onWord 2 4 w (mvstTr c t w)) s

/-- MVTS (R269, R273): tile registers to scratchpad. -/
def mvtsTr (c : PCell) (t : Tid) (w : Word128) : Tr :=
  issue c t w (fmask 21 5 ||| fmask 36 5 ||| mMem false true false false) fun x =>
    if !by64 [x.mSpad, x.tPitch] || rowsOverlap (32 * x.mTiles) 128 x.tPitch then x.illegal
    else x.withTiles x.mTileNos fun ts => x.inSpad x.moveRows <| x.hazard ts [] <|
      x.unpoisoned (fun cs => ts.any cs.tilePoison) <| .read fun d =>
        let cs := d.cellAt x.pk
        .seq [
          .each x.moveRows.zipIdx fun (row, i) =>
            .writeSpad x.pk row.1 (cs.tiles.slice (4096 * ts.getD (i / 32) 0 + 128 * (i % 32)) 128),
          x.next]
/-- MVTS. -/
def execMvts (c : PCell) (t : Tid) (w : Word128) (s : State) := run (onWord 2 5 w (mvtsTr c t w)) s

/-! ## Prefetch buffers (R294 to R298) -/

/-- BUF. -/
def Ctx.mBuf (x : Ctx) : Nat := x.f 64 3

/-- PFB (R294, R295): a FILLING buffer, or a length or row count out of range, traps with cause ILLEGAL. -/
def pfbTr (c : PCell) (t : Tid) (w : Word128) : Tr :=
  issueIf (fun d x => roomIn (x.f 51 1) d x) c t w (fmask 16 15 ||| mMem false false true true ||| fmask 64 3) fun x => .read fun d =>
    let (len, rows) := x.mGeom
    let p := agetD (d.cellAt x.pk).pf x.mBuf {}
    if rows ≠ 1 || len < 64 || 262144 < len || len % 64 ≠ 0 || p.state = 1 then x.illegal
    else x.inSpad [(x.mSpad, len)] <|
      let rs := (reqPieces x.mVa len x.mSpad 0).zipIdx.map fun (r, i) => { r with grp := i }
      .seq [
        .unsubscribe (.pf x.pk x.mBuf),
        .cell x.pk fun cs => { cs with pf := aupd cs.pf x.mBuf {} fun _ =>
          { state := 1, spad := x.mSpad, len := len, va := x.mVa, aslot := x.th.aslot, thread := x.t,
            granules := rs.map fun r => { va := r.va, len := r.len } } },
        .pfReg x.pk x.mBuf,
        x.launch fun id => x.memOp d id (.pfb x.mBuf) (x.f 51 1) rs]
/-- PFB. -/
def execPfb (c : PCell) (t : Tid) (w : Word128) (s : State) := run (onWord 2 6 w (pfbTr c t w)) s

/-- PFW (R296): c[CD] is awaited until it is done. -/
def pfwTr (c : PCell) (t : Tid) (w : Word128) : Tr :=
  issueIf (fun d x => roomIn (x.f 51 1) d x) c t w (mMem false false true true ||| fmask 55 3 ||| fmask 64 3) fun x => .read fun d =>
    .seq [
      .thread x.pk x.t fun th => if x.f 55 3 = 0 then th else { th with pendC := putBits th.pendC (x.f 55 3) 1 1 },
      x.launch fun id => x.memOp d id (.pfw x.mBuf (x.f 55 3)) (x.f 51 1) []]
/-- PFW. -/
def execPfw (c : PCell) (t : Tid) (w : Word128) (s : State) := run (onWord 2 7 w (pfwTr c t w)) s

/-- PFR (R298): the buffer is FREE and its subscriptions end; a fill still in flight is discarded as it arrives. -/
def pfrTr (c : PCell) (t : Tid) (w : Word128) : Tr :=
  issue c t w (fmask 64 3) fun x => .seq [
    .unsubscribe (.pf x.pk x.mBuf),
    .cell x.pk fun cs => { cs with pf := aupd cs.pf x.mBuf {} fun _ => {} },
    .pfReg x.pk x.mBuf,
    .units fun u => { u with ops := u.ops.map fun o =>
      if o.pk = x.pk && o.kind = .pfb x.mBuf then
        { o with failed := some (o.failed.getD stOK), failGrp := 0, kept := [],
                 reqs := o.reqs.map fun r => if r.st = .sent then r else { r with st := .done, data := [] } }
      else o },
    x.next, .pump x.pk]
/-- PFR. -/
def execPfr (c : PCell) (t : Tid) (w : Word128) (s : State) := run (onWord 2 8 w (pfrTr c t w)) s

/-! ## The gather class (R284 to R293) -/

/-- The index reads of a stream in memory: requests for the 512-byte pieces that hold index bytes (R288). -/
def GathSt.idxReqs (g : GathSt) : List Req :=
  if !g.inMem || g.n = 0 then []
  else
    let end_ := g.addr (g.n - 1) + g.width
    (reqPieces g.ri (end_ - g.ri) 0 0).filterMap fun r =>
      let has := g.stride = 0 || (List.range (r.len / g.stride + 2)).any fun k =>
        let rec_ := g.ri + ((r.va - g.ri) / g.stride + k) * g.stride
        let rec0 := g.ri + ((r.va - g.ri) / g.stride) * g.stride
        (rec_ < r.va + r.len && r.va < rec_ + g.iper * g.width) || (k = 0 && r.va < rec0 + g.iper * g.width)
      if has then some { r with idx := true } else none

/-- What a GATH or SCAT names: its table, indices, rows and index form (R284 to R286). -/
def Ctx.gathSt (x : Ctx) : GathSt :=
  { rt := x.s 16, ri := x.s 21, rd := x.s 26, n := bitsOf (x.s 31) 0 24, rowBytes := bitsOf (x.s 36) 0 18,
    rows := bitsOf (x.s 36) 32 32, rs := signed 64 (x.s 41), ifmt := x.f 46 2, inMem := x.f 48 1 = 1, skz := x.f 49 1 = 1,
    iper := x.f 64 3 + 1, stride := x.f 80 16 }

/-- Whether its fields are legal (R287). -/
def GathSt.legal (g : GathSt) : Bool :=
  g.ifmt ≠ 3 && g.ri % g.width = 0 && g.stride % g.width = 0 && (g.stride = 0 || g.iper * g.width ≤ g.stride) &&
    by64 [g.rt, g.rs] && g.rowBytes ≠ 0 && g.rowBytes % 64 = 0 && g.rowBytes ≤ 65536

/-- The scratchpad ranges of its rows and of its index stream (R287). -/
def GathSt.ranges (g : GathSt) : List (Nat × Nat) :=
  (g.rd, g.n * (cdiv g.rowBytes 64 * 64)) ::
    if g.inMem then [] else [(g.ri, if g.n = 0 then 0 else g.addr (g.n - 1) + g.width - g.ri)]

/-- GATH and SCAT: the checks of R287 and the operation. -/
def Ctx.gather (x : Ctx) (kind : OpKind) : Tr :=
  .read fun d =>
    let g := x.gathSt
    if !g.legal then x.illegal
    else x.inSpad g.ranges <|
      x.launch fun id => { x.memOp d id kind 3 g.idxReqs with cls := x.arbClass d (x.f 50 2), na := x.f 52 1 = 1, gath := some g }

/-- The gather engine holds four instructions at its address streams and four in its queue (R284). -/
def gatherRoom (d : Dev) (x : Ctx) : Bool :=
  (d.u.ops.filter fun o => o.pk = x.pk && o.stream = 3 && o.sending).length < 8

/-- GATH (R285). -/
def gathTr (c : PCell) (t : Tid) (w : Word128) : Tr :=
  issueIf gatherRoom c t w (fmask 16 37 ||| fmask 64 3 ||| fmask 80 16) fun x => x.gather .gath
/-- GATH. -/
def execGath (c : PCell) (t : Tid) (w : Word128) (s : State) := run (onWord 5 0 w (gathTr c t w)) s

/-- SCAT (R285): SKZ is not its field (R284). -/
def scatTr (c : PCell) (t : Tid) (w : Word128) : Tr :=
  issueIf gatherRoom c t w (fmask 16 33 ||| fmask 50 3 ||| fmask 64 3 ||| fmask 80 16) fun x => x.gather .scat
/-- SCAT. -/
def execScat (c : PCell) (t : Tid) (w : Word128) (s : State) := run (onWord 5 1 w (scatTr c t w)) s

/-! ## Events of requests -/

/-- A store's request has reached its point of coherence, or ended with a status (R265, R283). -/
def Tr.stored (id i st : Nat) : Tr :=
  .read fun d => .opt (d.op? id) fun o => .opt (o.reqs[i]?) fun r => .seq [
    .onReq id i fun r => { r with st := .done, data := [] },
    if st = stOK then .bump STRM_STORE_BYTES (o.pk / 168) r.len (o.pk % 168) else o.trapTr .memory st,
    .when (o.kind = .scat && st = stOK) (.read fun d => .opt (d.op? id) fun o =>
      .when (o.reqs.all fun q => q.grp ≠ r.grp || q.idx || q.st = .done) (.bump STRM_SCATTER_ROWS (o.pk / 168) 1 (o.pk % 168))),
    .pump o.pk]

/-- Whether an earlier store request of the same source to the same line is still in flight (R291, R395). -/
def Dev.storeBlocked (d : Dev) (o : MemOp) (i : Nat) (r : Req) : Bool :=
  d.u.ops.any fun q => q.pk = o.pk && q.kind.stores &&
    (if o.kind = .scat then q.id = o.id else q.kind ≠ .scat) && q.reqs.zipIdx.any fun (s, j) =>
      (q.id < o.id || (q.id = o.id && j < i)) && s.st = .sent && !s.idx && s.pa / 64 < (r.pa + r.len + 63) / 64 &&
        r.pa / 64 < (s.pa + s.len + 63) / 64

/-- PAGE_WALK (R410, R416, R424): a request that waits for its translation walks, and goes on. -/
def pageWalkTr (op req : Nat) : Tr :=
  .read fun d => .opt (d.op? op) fun o => .opt (o.reqs[req]?) fun r =>
    match r.st with
    | .faulted _ => .seq [.translateReq op req, .pump o.pk]
    | .untranslated => .seq [.translateReq op req, .pump o.pk]
    | _ => .skip
/-- PAGE_WALK. -/
def execPageWalk (op req : Nat) (s : State) := run (pageWalkTr op req) s

/-- WAIT_HINT (R301): a hint in NoC cycles becomes cell cycles, rounded up; the larger of it and WAITHINT stays. -/
def waitHintTr (c : PCell) (t : Tid) (cycles : BitVec 32) : Tr :=
  .read fun d => .opt (d.physOf c.val) fun pk =>
    .when (d.forceFld STRM_CTL STRM_CTL_HINT_EN (pk / 168) = 1 && d.u.threadReqs pk t.val ≠ 0) (.seq [
      .bump STRM_HINTS (pk / 168) 1 (pk % 168),
      .thread pk t.val fun th => { th with hint := max th.hint (cdiv cycles.toNat 2) }])
/-- WAIT_HINT. -/
def execWaitHint (c : PCell) (t : Tid) (cycles : BitVec 32) (s : State) := run (waitHintTr c t cycles) s

end Sys2Proof.Machine
end

