-- ==== Sys2Proof/Machine/RunAhead.lean ====
section
/-! DEFINITION. The instruction cache (R119, R120) and run-ahead (R135 to R140). -/

namespace Sys2Proof.Machine

/-- The key of an instruction-cache line: its virtual line address, with the address-space slot above it. -/
def icKey (slot va : Nat) : Nat := slot * 2 ^ 64 + va / 128 * 128

/-- A line enters a cell's instruction cache. -/
def Tr.icacheFill (pk slot va : Nat) (bs : List Byte) : Tr :=
  .cell pk fun cs => { cs with icache := tinsert cs.icache (icKey slot va) bs }

/-- INSTRUCTION_FETCH (R119): a READY thread's fetch at its pc misses and fills with a 128-byte read. A fetch that waits on a
fault leaves the thread where it is; one that ends with a status traps with cause FETCH. -/
def instructionFetchTr (c : PCell) (t : Tid) : Tr :=
  .read fun d => .opt (d.physOf c.val) fun pk =>
    let th := d.threadAt pk t.val
    let die := pk / 168
    let va := th.pc / 128 * 128
    if th.st ≠ .ready || (aget? (d.cellAt pk).icache (icKey th.aslot va)).isSome ||
        (d.u.ops.any fun o => o.pk = pk && o.thread = t.val && o.kind = .ifetch) then .skip
    else
      let x : XReq := { die := die, slot := th.aslot, va := va, access := 3, source := 0, cell := c.val, thread := t.val,
                        queue := d.threadQueue pk t.val, agent := agCell, pk := some pk, who := .other (pk + 1000) t.val }
      let trap := fun (st : Nat) => Tr.trap pk t.val .fetch st th.pc
      .seq [
        .bump CELL_ICACHE_MISSES die 1 (pk % 168),
        .translate x fun res => match res with
          | .ok ga _ _ =>
            if d.isRemote ga then
              .newOp fun id => { id := id, pk := pk, thread := t.val, pc := th.pc, aslot := th.aslot, kind := .ifetch,
                                 stream := 4, reqs := [{ va := va, len := 128, pa := ga, st := .sent }] }
            else .readRange false agCell die (localOf ga) 128 fun o =>
              if o.st = stOK then .icacheFill pk th.aslot va o.bytes else trap o.st
          | .bad st => trap st
          | _ => .skip]
/-- INSTRUCTION_FETCH. -/
def execInstructionFetch (c : PCell) (t : Tid) (s : State) := run (instructionFetchTr c t) s

/-- A line fetched from another package arrives (R119), or its fetch ends with a status. -/
def Tr.ifetchArrive (o : MemOp) (st : Nat) (bs : List Byte) : Tr :=
  .seq [
    .units fun u => { u with ops := u.ops.filter (·.id ≠ o.id) },
    if st = stOK then .icacheFill o.pk o.aslot o.pc bs else .trap o.pk o.thread .fetch st o.pc]

/-- ICACHE_INV (R120): the write that asks for the invalidation at the next edge. -/
def icacheInvTr (die : TDie) (v : Word) : Tr := .when (bitOf v.toNat 16) (.writeReg CELL_CTL die.val v)
/-- ICACHE_INV. -/
def execIcacheInv (die : TDie) (v : Word) (s : State) := run (icacheInvTr die v) s

/-- The invalidation of the instruction caches of a die (R120). -/
def Tr.icacheClear (die : Nat) : Tr :=
  .units fun u => { u with cells := u.cells.map fun e => if e.1 / 168 = die then (e.1, { e.2 with icache := [] }) else e }

/-! ## The scan (R135 to R138) -/

/-- The shadow of a thread: its registers, and those whose value is not known. -/
structure Shadow where
  th : Thread
  badS : List Nat := []
  badC : List Nat := []
deriving Repr

/-- Whether scalar register `r` is ready. -/
def Shadow.okS (h : Shadow) (r : Nat) : Bool := r = 0 || !h.badS.contains r
/-- Whether condition register `i` is ready. -/
def Shadow.okC (h : Shadow) (i : Nat) : Bool := i = 0 || !h.badC.contains i
/-- Scalar register `r` := v, ready when `ok`. -/
def Shadow.setS (h : Shadow) (r v : Nat) (ok : Bool) : Shadow :=
  if ok then { h with th := h.th.setS r v, badS := h.badS.filter (· ≠ r) } else { h with badS := r :: h.badS }
/-- Condition register `i` := b, ready when `ok`. -/
def Shadow.setC (h : Shadow) (i : Nat) (b ok : Bool) : Shadow :=
  if ok then { h with th := h.th.setC i b, badC := h.badC.filter (· ≠ i) } else { h with badC := i :: h.badC }

/-- The result of a scalar operation by its OP (R127). -/
def scalarValue (op a b : Nat) : Option Nat :=
  match op with
  | 0 => some (a + b)
  | 1 => some (a + 2 ^ 64 - b)
  | 2 => some (a &&& b)
  | 3 => some (a ||| b)
  | 4 => some (a ^^^ b)
  | 5 => some (a <<< (b % 64))
  | 6 => some (a >>> (b % 64))
  | 7 => some (unsigned 64 (signed 64 a / ((2 ^ (b % 64) : Nat) : Int)))
  | 8 => some (a * b)
  | 9 => some (a * b / 2 ^ 64)
  | 10 => some (if signed 64 a ≤ signed 64 b then a else b)
  | 11 => some (if signed 64 a ≤ signed 64 b then b else a)
  | 12 => some (min a b)
  | 13 => some (max a b)
  | _ => none

/-- The instruction word at a pc, where its line is in the instruction cache. -/
def CellSt.fetched (cs : CellSt) (slot pc : Nat) : Option Nat :=
  (aget? cs.icache (icKey slot pc)).map fun l => leAt l (pc % 128) 16

/-- What the scan does with one instruction: stops, goes on, or finds a load with its requests. -/
inductive ScanStep where
  | stop
  | go (h : Shadow)
  | load (rs : List Req) (h : Shadow)

/-- Memory-class loads from memory: their requests, when address operands are ready. -/
def Shadow.loadReqs (h : Shadow) (w : Nat) : Option (List Req) :=
  let r := fun lo => h.th.sreg (bitsOf w lo 5)
  let ok := fun lo => h.okS (bitsOf w lo 5)
  if iOp w = 0 then
    if [16, 21, 26, 31, 36].all ok then
      let (rb, rows) := geomOf (r 26)
      some (ldsReqs (r 16) (signed 64 (r 31)) (r 21) (signed 64 (r 36)) rb rows)
    else none
  else if [16, 31].all ok then
    some (ldtReqs (r 16) (if bitsOf w 31 5 = 0 then 128 else signed 64 (r 31)) 0 (bitsOf w 47 4 + 1))
  else none

/-- One instruction of the scan. -/
def Shadow.scan (h : Shadow) (w : Nat) : ScanStep :=
  let cls := iClass w
  let op := iOp w
  let p := iPred w
  let th := h.th
  let adv := { h with th := th.advance }
  let r := fun lo => th.sreg (bitsOf w lo 5)
  let ok := fun lo => h.okS (bitsOf w lo 5)
  let imm := iImm w
  let useImm := bitsOf w 40 1 = 1
  let operand := if useImm then imm else r 26
  let opOk := useImm || ok 26
  if !h.okC p then .stop
  else if (th.creg p) == (iPneg w) then .go adv
  else if cls = 1 then
    let h' := if op ≤ 13 then adv.setS (bitsOf w 16 5) ((scalarValue op (r 21) operand).getD 0) (ok 21 && opOk)
      else if op = 14 then adv.setS (bitsOf w 16 5) imm true
      else if op = 15 then
        adv.setS (bitsOf w 16 5) (if th.creg (bitsOf w 34 3) then r 21 else r 26) (h.okC (bitsOf w 34 3) && ok 21 && ok 26)
      else adv
    .go h'
  else if cls = 0 then
    match op with
    | 2 => .go { h with th := th.branch (unsigned 64 ((th.pc : Int) + signed 64 imm * 16)) }
    | 6 =>
      let len := bitsOf imm 32 16
      let count := (if useImm then imm else r 21) % 2 ^ 32
      if !useImm && !ok 21 then .stop
      else if len = 0 then .go adv
      else if count = 0 then
        let (pc, ls) := loopNext (th.pc + 16 + 16 * len) th.loops
        .go { h with th := { th with pc := pc, loops := ls } }
      else .go { h with th := { th with pc := th.pc + 16, loops := { first := th.pc + 16, len := len, left := count } :: th.loops } }
    | 7 => .go (adv.setC (bitsOf w 31 3) ((cmpCond (bitsOf w 16 3) (r 21) operand).getD false) (ok 21 && opOk))
    | 8 => .go (adv.setC (bitsOf w 31 3) (clogOp (bitsOf w 16 2) (th.creg (bitsOf w 34 3)) (th.creg (bitsOf w 37 3)))
        (h.okC (bitsOf w 34 3) && h.okC (bitsOf w 37 3)))
    | 0 => .go adv
    | 14 => .go (adv.setS (bitsOf w 16 5) 0 false)
    | 15 => .go adv
    | 16 => .go adv
    | _ => .stop
  else if cls = 2 then
    match op with
    | 0 => match h.loadReqs w with | some rs => .load rs adv | none => .stop
    | 1 => match h.loadReqs w with | some rs => .load rs adv | none => .stop
    | 2 => .stop
    | 3 => .stop
    | 7 => .go (adv.setC (bitsOf w 55 3) false false)
    | _ => .go adv
  else if cls = 5 then .stop
  else .go { adv with
    badC := (condFields w).map (fun lo => bitsOf w lo 3) ++ adv.badC,
    badS := if cls = 7 || cls = 8 then bitsOf w 16 5 :: adv.badS else adv.badS }

/-- Slots of a thread's run-ahead buffer in use (R136). -/
def Dev.raCount (d : Dev) (pk t : Nat) : Nat := ((d.cellAt pk).ra.filter (·.thread = t)).length

/-- One run-ahead request: `k true` when the scan goes on (R136, R138). -/
def Tr.runAheadReq (pk t slot : Nat) (r : Req) (k : Bool → Tr) : Tr :=
  .read fun d =>
    let die := pk / 168
    if (d.cellAt pk).ra.any fun e => e.thread = t && e.va = r.va && e.len = r.len then k true
    else if 16 ≤ d.raCount pk t || 64 - d.u.slotsUsed pk ≤ d.fld CELL_CTL CELL_CTL_RA_RESERVE die || !d.slotFree pk then k false
    else
      let x : XReq := { die := die, slot := slot, va := r.va, access := 0, spec := true, source := 0, agent := agRunAhead,
                        pk := some pk, who := .other (pk + 2000) t }
      .translate x fun res => match res with
        | .ok ga _ pin =>
          if d.localMmio ga then k false
          else .seq [
            .bump CELL_RA_ISSUED die 1 (pk % 168),
            .cell pk fun cs => { cs with ra := cs.ra ++ [{ thread := t, va := r.va, pa := ga, len := r.len }] },
            .newOp fun id => { id := id, pk := pk, thread := t, pc := 0, aslot := slot, kind := .ra r.va, stream := 4,
                               reqs := [{ va := r.va, len := r.len, pa := ga, pin := pin, st := .sent }] },
            .when (!pin) (.subscribe die (d.normGa ga / 512) (.ra pk t r.va)),
            k true]
        | _ => .seq [.bump CELL_RA_STOPPED die 1 (pk % 168), k false]

/-- Run-ahead requests in order, until one cannot go. -/
def Tr.runAheadReqs (pk t slot : Nat) : List Req → (Bool → Tr) → Tr
  | [], k => k true
  | r :: rs, k => .runAheadReq pk t slot r fun ok => if ok then .runAheadReqs pk t slot rs k else k false

/-- The requests of a load whose source lies in an enabled casting range: the first 512 bytes of each slot, as far as held
headers show where the slots lie (R331). -/
def castRunAhead (held : Nat → Option (List Byte)) : Nat → Nat → Nat → List Req
  | 0, _, _ => []
  | fuel + 1, va, left =>
    let r : Req := { va := va, len := min 512 (512 - va % 512) }
    match held va with
    | none => [r]
    | some h =>
      let b := blockOf h
      if !b.good || left ≤ b.slot then [r] else r :: castRunAhead held fuel (va + b.slot) (left - b.slot)

/-- The scan of up to `fuel` instructions (R137). -/
def Tr.scanGo (pk t slot : Nat) : Nat → Shadow → Tr
  | 0, _ => .skip
  | fuel + 1, h => .read fun d =>
    match (d.cellAt pk).fetched slot h.th.pc with
    | none => .skip
    | some w =>
      match h.scan w with
      | .stop => .skip
      | .go h => .scanGo pk t slot fuel h
      | .load rs h' =>
        let die := pk / 168
        match rs with
        | [] => .scanGo pk t slot fuel h'
        | r0 :: _ =>
          .translate { die := die, slot := slot, va := r0.va, access := 0, spec := true, source := 0, agent := agRunAhead,
                       pk := some pk, who := .other (pk + 2000) t } fun res =>
            let rs := match res with
              | .ok ga _ _ =>
                if (rangeOf (d.castRanges die) ga).isSome then
                  castRunAhead (fun va => ((d.cellAt pk).ra.find? fun e => e.thread = t && e.va = va && e.arrived).map (·.bytes))
                    16 r0.va (rs.foldl (fun n r => n + r.len) 0)
                else rs
              | _ => rs
            .runAheadReqs pk t slot rs fun ok => if ok then .scanGo pk t slot fuel h' else .skip

/-- RUN_AHEAD_SCAN (R135): of a thread in WAIT_DEP or WAIT_MEM, from the instruction after the one it waits at. -/
def runAheadScanTr (c : PCell) (t : Tid) : Tr :=
  .read fun d => .opt (d.physOf c.val) fun pk =>
    let th := d.threadAt pk t.val
    let h : Shadow := { th := th, badC := setBits 8 th.pendC }
    let start : Shadow :=
      if !th.wait.again then h
      else match (d.cellAt pk).fetched th.aslot th.pc with
        | none => { h with th := th.advance }
        | some w => match h.scan w with | .go h' => h' | .load _ h' => h' | .stop => { h with th := th.advance }
    .when (d.flag CELL_CTL CELL_CTL_RA_EN (pk / 168) && (th.st = .waitDep || th.st = .waitMem))
      (.seq [.scanGo pk t.val th.aslot 64 start, .strmRegs pk])
/-- RUN_AHEAD_SCAN. -/
def execRunAheadScan (c : PCell) (t : Tid) (s : State) := run (runAheadScanTr c t) s

/-- A run-ahead request's data arrives in the thread's buffer, poison with it (R135, R140); one whose entry is gone is
dropped. A status of its own discards the entry (R138). -/
def Tr.runAheadArrive (o : MemOp) (va st : Nat) (bs : List Byte) (poison : Bool) : Tr :=
  .seq [
    .units fun u => { u with ops := u.ops.filter (·.id ≠ o.id) },
    if st = stOK then .cell o.pk fun cs => { cs with ra := cs.ra.map fun e =>
        if e.thread = o.thread && e.va = va && !e.arrived then { e with arrived := true, bytes := bs, poison := poison } else e }
    else .dropRunAhead o.pk fun e => e.thread = o.thread && e.va = va && !e.arrived,
    .strmRegs o.pk]

end Sys2Proof.Machine
end

