-- ==== Sys2Proof/Machine/Bulk.lean ====
section
/-! DEFINITION. The bulk tier: ports, request timers, the fence list and port faults (R367 to R371). -/

namespace Sys2Proof.Machine

/-- The first local address of a host-die port (R34). -/
def portBase (port : Nat) : Nat := 0x10000000000 + port * 2 ^ 37

/-- Whether a line of a range is in a fence list (R369). -/
def Dev.fenced (d : Dev) (la len : Nat) : Bool := d.u.mem.fence.any fun f => la / 64 * 64 ≤ f.1 && f.1 < la + len

/-- FENCE_USED of a port. -/
def Tr.fenceUsed (port : Nat) : Tr :=
  .read fun d => .fld MEM_BULK_STATUS MEM_BULK_STATUS_FENCE_USED HD
    (d.u.mem.fence.filter fun f => f.1 / 2 ^ 37 = portBase port / 2 ^ 37).length port

/-- The result of a request of a thread: a load's data or a store's completion. -/
def Tr.ownDone (id i st : Nat) (bs : List Byte) : Tr :=
  .read fun d => .opt (d.op? id) fun o => .opt (o.reqs[i]?) fun r =>
    .when (r.st = .sent) (
      match o.kind with
      | .ra va => .runAheadArrive o va st bs false
      | .ifetch => .ifetchArrive o st bs
      | k => if k.stores && !r.idx then .stored id i st else .seq [.arrive id i st bs [], .pump o.pk])

/-- A bulk-tier request is served: memory is read or written, and its sender is answered. -/
def Tr.bulkServe (b : BulkReq) : Tr :=
  if b.write then
    .cohWrite b.agent b.die b.la b.data (fun _ => false) fun st => .opt b.own fun (o, r) => .ownDone o r st []
  else .readRange false b.agent b.die b.la b.len fun out =>
    match b.own with
    | some (o, r) => .ownDone o r out.st out.bytes
    | none => .when (out.st = stOK) (.answerBytes out.bytes)

/-- A bulk-tier request ends with TIER_TIMEOUT (R369, R370). -/
def Tr.bulkEnd (b : BulkReq) : Tr :=
  .seq [
    .bump MEM_BULK_TIMEOUTS HD 1 b.port, .errorAt b.la 5 0 b.agent b.die stTIER_TIMEOUT false,
    .opt b.own fun (o, r) => .ownDone o r stTIER_TIMEOUT []]

/-- BULK_REQUEST (R369): a request for a 64-byte line, or the request of a thread that `own` names, is sent to a port.
`answered`: the device answers before the timer expires. -/
def bulkRequestTr (port : HostPort) (line : BitVec 31) (data : Option (BitVec 512)) (answered : Bool) (agent : BitVec 8)
    (die : Die) (own : Option (Nat × Nat)) : Tr :=
  .read fun d =>
    let mine : Option (MemOp × Req) := own.bind fun (o, r) => (d.op? o).bind fun q => (q.reqs[r]?).map fun s => (q, s)
    let b : BulkReq := match mine with
      | some (o, r) =>
        { id := d.u.mem.nextBulk, port := port.val, la := localOf r.pa, len := r.len, write := o.kind.stores && !r.idx,
          data := r.data, since := d.elapsed, agent := agCell, die := o.pk / 168, own := own }
      | none =>
        { id := d.u.mem.nextBulk, port := port.val, la := portBase port.val + line.toNat * 64, len := 64, write := data.isSome,
          data := (data.map fun x => leBytes 64 x.toNat).getD [], since := d.elapsed, agent := agent.toNat, die := die.val }
    let known := own.isNone || mine.any fun (_, r) => r.st = .sent && !d.isRemote r.pa
    let here := match d.place b.la with | .bulk p _ => p = port.val | _ => false
    let twice := own.isSome && d.u.mem.bulk.any fun q => q.own = own
    if !known || !here || twice then .skip
    else if d.fld MEM_BULK_STATUS MEM_BULK_STATUS_STATE HD port.val = 2 then .bulkEnd b
    else if d.fenced b.la b.len then
      .memSt fun m => { m with bulk := m.bulk ++ [{ b with waiting := true }], nextBulk := m.nextBulk + 1 }
    else if answered then .bulkServe b
    else .memSt fun m => { m with bulk := m.bulk ++ [b], nextBulk := m.nextBulk + 1 }
/-- BULK_REQUEST. -/
def execBulkRequest (port : HostPort) (line : BitVec 31) (data : Option (BitVec 512)) (answered : Bool) (agent : BitVec 8)
    (die : Die) (own : Option (Nat × Nat)) (s : State) := run (bulkRequestTr port line data answered agent die own) s

/-- TIER_TIMEOUT (R369): the timer of a request runs out. A read ends; a write ends and its lines enter the fence list. -/
def tierTimeoutTr (id : Nat) : Tr :=
  .read fun d => .opt (d.u.mem.bulk.find? (·.id = id)) fun b =>
    let due := b.since + d.fld MEM_BULK_CFG MEM_BULK_CFG_TIMEOUT_US HD b.port * oneUs ≤ d.elapsed
    if b.timedOut || b.waiting || !due then .skip
    else .seq [
      .memSt fun m =>
        if b.write then
          { m with
            bulk := m.bulk.map fun q => if q.id = id then { q with timedOut := true, own := none } else q,
            fence := m.fence ++ (sectorsOf b.la b.len).map fun l => (l, d.elapsed) }
        else { m with bulk := m.bulk.filter (·.id ≠ id) },
      .fenceUsed b.port, .bulkEnd b]
/-- TIER_TIMEOUT. -/
def execTierTimeout (id : Nat) (s : State) := run (tierTimeoutTr id) s

/-- BULK_LATE_COMPLETION (R369): the bytes hold the written data, the lines leave the fence list, and requests that waited
for them are served. -/
def bulkLateCompletionTr (id : Nat) : Tr :=
  .read fun d => .opt (d.u.mem.bulk.find? (·.id = id)) fun b =>
    .when b.timedOut (.seq [
      .memSt fun m =>
        let lines := sectorsOf b.la b.len
        { m with bulk := m.bulk.filter (·.id ≠ id), fence := m.fence.filter fun f => !lines.contains f.1 },
      .cohWrite b.agent b.die b.la b.data (fun _ => false) fun _ => .skip,
      .fenceUsed b.port,
      .read fun d => .each (d.u.mem.bulk.filter fun q => q.waiting && !d.fenced q.la q.len) fun q => .seq [
        .memSt fun m => { m with bulk := m.bulk.filter (·.id ≠ q.id) }, .bulkServe q]])
/-- BULK_LATE_COMPLETION. -/
def execBulkLateCompletion (id : Nat) (s : State) := run (bulkLateCompletionTr id) s

/-- A port becomes FAULTED (R370): every request in flight to it ends with TIER_TIMEOUT. -/
def Tr.portFault (port : Nat) (linkDown : Bool) : Tr :=
  .read fun d =>
    let open_ := d.u.mem.bulk.filter fun b => b.port = port && !b.timedOut
    let sent := d.u.ops.flatMap fun o => (o.reqsWhere fun r =>
      r.st = .sent && !d.isRemote r.pa && (match d.place (localOf r.pa) with | .bulk p _ => p = port | _ => false) &&
        !(open_.any fun b => b.own = some (o.id, (o.reqs.idxOf r)))).map fun i => (o, i)
    .seq [
      .fld MEM_BULK_STATUS MEM_BULK_STATUS_STATE HD 2 port,
      .when linkDown (.seq [.fld MEM_BULK_STATUS MEM_BULK_STATUS_LINK_UP HD 0 port,
        .fld MEM_BULK_STATUS MEM_BULK_STATUS_WIDTH HD 0 port, .fld MEM_BULK_STATUS MEM_BULK_STATUS_GTS HD 0 port]),
      .memSt fun m => { m with bulk := m.bulk.filter fun b => b.port ≠ port, bulkReset := m.bulkReset.filter (· ≠ port) },
      .errorAt (portBase port) 6 0 0 0xFF 0 false,
      .each open_ Tr.bulkEnd,
      .each sent fun (o, i) => .read fun d => .opt (d.op? o.id) fun o => .opt (o.reqs[i]?) fun r =>
        .bulkEnd { id := 0, port := port, la := localOf r.pa, len := r.len, write := o.kind.stores, die := o.pk / 168, own := some (o.id, i) }]

/-- PORT_FAULT (R370): the link goes down, the fence list of 64 lines is full, or a line has been in it too long. -/
def portFaultTr (port : HostPort) (linkDown : Bool) : Tr :=
  .read fun d =>
    let n := port.val
    let mine := d.u.mem.fence.filter fun f => f.1 / 2 ^ 37 = portBase n / 2 ^ 37
    let old := mine.any fun f => f.2 + 16 * d.fld MEM_BULK_CFG MEM_BULK_CFG_TIMEOUT_US HD n * oneUs ≤ d.elapsed
    let down := linkDown && d.flag MEM_BULK_STATUS MEM_BULK_STATUS_LINK_UP HD n
    .when (d.fld MEM_BULK_STATUS MEM_BULK_STATUS_STATE HD n = 1 && (down || old || 64 ≤ mine.length)) (.portFault n down)
/-- PORT_FAULT. -/
def execPortFault (port : HostPort) (linkDown : Bool) (s : State) := run (portFaultTr port linkDown) s

/-- BULK_ENABLE (R368, R372): a write of MEM_BULK_CFG_n. EN = 1 needs a link trained in CXL mode, and SIZE_GIB does not
change while EN is 1. A port whose fence list still holds lines stays FAULTED (R370). -/
def bulkEnableTr (port : HostPort) (v : Word) : Tr :=
  .read fun d =>
    let n := port.val
    let size := bitsOf v.toNat 8 8
    let tmo := bitsOf v.toNat 16 12
    let was := d.flag MEM_BULK_CFG MEM_BULK_CFG_EN HD n
    let want := bitOf v.toNat 0
    let ready := d.flag MEM_BULK_STATUS MEM_BULK_STATUS_LINK_UP HD n && !d.flag MEM_BULK_STATUS MEM_BULK_STATUS_PCIE_MODE HD n
    let clean := !(d.u.mem.fence.any fun f => f.1 / 2 ^ 37 = portBase n / 2 ^ 37)
    .seq [
      .when (!was && size ≤ 128) (.fld MEM_BULK_CFG MEM_BULK_CFG_SIZE_GIB HD size n),
      .when (tmo ≠ 0) (.fld MEM_BULK_CFG MEM_BULK_CFG_TIMEOUT_US HD tmo n),
      if want then .when (!was && ready) (.seq [
          .fld MEM_BULK_CFG MEM_BULK_CFG_EN HD 1 n, .fld MEM_BULK_STATUS MEM_BULK_STATUS_STATE HD (if clean then 1 else 2) n])
      else .seq [.fld MEM_BULK_CFG MEM_BULK_CFG_EN HD 0 n, .fld MEM_BULK_STATUS MEM_BULK_STATUS_STATE HD 0 n]]
/-- BULK_ENABLE. -/
def execBulkEnable (port : HostPort) (v : Word) (s : State) := run (bulkEnableTr port v) s

/-- CXL_LINK_UP (R368, R370): the link of a disabled port trains, in CXL mode or as a PCIe root port; the reset before it
empties the fence list, whose bytes are then undefined. -/
def cxlLinkUpTr (port : HostPort) (width16 : Bool) (gts : BitVec 8) (pcie : Bool) : Tr :=
  .read fun d =>
    let n := port.val
    if d.flag MEM_BULK_CFG MEM_BULK_CFG_EN HD n then .skip
    else .epoch fun e =>
      let lines := (d.u.mem.fence.filter fun f => f.1 / 2 ^ 37 = portBase n / 2 ^ 37).map (·.1)
      .seq [
        .fld MEM_BULK_STATUS MEM_BULK_STATUS_LINK_UP HD 1 n, .fld MEM_BULK_STATUS MEM_BULK_STATUS_PCIE_MODE HD (b01 pcie) n,
        .fld MEM_BULK_STATUS MEM_BULK_STATUS_WIDTH HD (if width16 then 16 else 8) n,
        .fld MEM_BULK_STATUS MEM_BULK_STATUS_GTS HD gts.toNat n,
        .memSt fun m => { m with
          fence := m.fence.filter fun f => !lines.contains f.1,
          undef := lines.foldl (fun t l => (List.range 64).foldl (fun t i => tinsert t (l + i) e) t) m.undef,
          bulkReset := n :: m.bulkReset },
        .fenceUsed n]
/-- CXL_LINK_UP. -/
def execCxlLinkUp (port : HostPort) (width16 : Bool) (gts : BitVec 8) (pcie : Bool) (s : State) :=
  run (cxlLinkUpTr port width16 gts pcie) s

end Sys2Proof.Machine
end

