-- ==== Sys2Proof/Machine/Engine.lean ====
section
/-! DEFINITION. Reads and writes of virtual memory by engines of the package: the dispatch unit, the command front ends, the
checkpoint and update engines. Every page is translated before anything is read or written (R280, R304). What another
package's memory holds is not state: a read of it gives free values (log 23). -/

namespace Sys2Proof.Machine

/-- The pieces of a virtual range within its 4 KiB pages: address and length. -/
def pagePieces (va len : Nat) : List (Nat × Nat) :=
  if len = 0 then [] else
    (List.range ((va + len - 1) / 4096 - va / 4096 + 1)).map fun i =>
      let lo := max va ((va / 4096 + i) * 4096)
      let hi := min (va + len) ((va / 4096 + i + 1) * 4096)
      (lo, hi - lo)

/-- The translations of a range's pieces: global addresses; a status; or a wait on a fault. -/
inductive VMap where
  | ok (gas : List (Nat × Nat))
  | bad (st : Nat)
  | wait
deriving Repr

/-- Every piece in order is translated. -/
def Tr.translateAll (x : XReq) : List (Nat × Nat) → List (Nat × Nat) → (VMap → Tr) → Tr
  | [], acc, k => k (.ok acc.reverse)
  | (va, n) :: ps, acc, k => .translate { x with va := va } fun r => match r with
    | .ok ga _ _ => .translateAll x ps ((ga, n) :: acc) k
    | .bad st => k (.bad st)
    | .wait => k .wait
    | .unusable => k (.bad stTRANSLATION_ABORT)

/-- What an engine's read gives: its bytes and the offsets of poisoned sectors; a status; or a wait. -/
inductive VRes where
  | ok (bs : List Byte) (psn : List Nat)
  | bad (st : Nat)
  | wait
deriving Repr

/-- Free bytes. -/
def freeBytes (idx n : Nat) : List Byte := (List.range n).map fun i => Config.undefByte (2 ^ 65 + idx) i

/-- Bytes at one global address, by an engine. The MMIO range answers accesses of 64 bits only (R7, log 24). -/
def Tr.readGa (x : XReq) (fwd : Bool) (ga n : Nat) (k : VRes → Tr) : Tr :=
  .read fun d =>
    if d.isRemote ga then .fresh fun idx => k (.ok (freeBytes idx n) [])
    else if inMmio (localOf ga) then k (.ok (List.replicate n 0) [])
    else .readRange fwd x.agent x.die (localOf ga) n fun o =>
      if o.st = stOK then k (.ok o.bytes (o.poisoned.map fun s => s - localOf ga)) else k (.bad o.st)

/-- Bytes at translated pieces, in order. -/
def Tr.readGas (x : XReq) (fwd : Bool) : List (Nat × Nat) → List Byte → List Nat → (VRes → Tr) → Tr
  | [], bs, psn, k => k (.ok bs psn)
  | (ga, n) :: ps, bs, psn, k => .readGa x fwd ga n fun r => match r with
    | .ok b p => .readGas x fwd ps (bs ++ b) (psn ++ p.map (· + bs.length)) k
    | r => k r

/-- `len` bytes at virtual address `va`. -/
def Tr.readVirt (x : XReq) (va len : Nat) (k : VRes → Tr) (fwd : Bool := false) : Tr :=
  .translateAll { x with access := 0 } (pagePieces va len) [] fun m => match m with
    | .ok gas => .readGas x fwd gas [] [] k
    | .bad st => k (.bad st)
    | .wait => k .wait

/-- A transport request that a unit of the package makes: it waits to be sent (R559). The plane of the host die's requests
is bit 12 of the target's local address (R544); the others go in the plane of their die. -/
def Tr.post (die : Nat) (q : TReq) : Tr :=
  .units fun u => { u with fab := { u.fab with
    reqs := u.fab.reqs ++ [{ q with plane := if die = HD then bitsOf q.la 12 1 else if die < 4 then die / 2 else die - 5 }] } }

/-- The pieces of at most 512 bytes, none across a 512-byte boundary, of a range: offset, address and length. -/
def pieces512 (a len : Nat) : List (Nat × Nat × Nat) :=
  (List.range (cdiv (a % 512 + len) 512)).map fun i =>
    let lo := max a ((a / 512 + i) * 512)
    let hi := min (a + len) ((a / 512 + i + 1) * 512)
    (lo - a, lo, hi - lo)

/-- POISON of a packet whose payload is `n` bytes from `off` on of data with poisoned sectors at offsets `psn`. -/
def poisonMask (psn : List Nat) (off n : Nat) : Nat :=
  (List.range 8).foldl (fun m i => if psn.any (fun p => off + 64 * i ≤ p && p < off + n && p < off + 64 * i + 64) then m + 2 ^ i else m) 0

/-- WRITEs of bytes to global address `ga` on another package. -/
def Tr.postWrites (die ga : Nat) (bs : List Byte) (psn : List Nat) (own : Nat → TOwn) (tagged : Bool) : Tr :=
  .each (pieces512 (localOf ga) bs.length) fun (o, la, n) =>
    .post die { plane := 0, op := 2, dst := pkgOf ga, la := la, len := n, data := (bs.drop o).take n,
                poison := poisonMask psn o n, own := own o, tagged := tagged }

/-- Bytes to translated pieces, in order; `k` gets the first status other than OK. -/
def Tr.writeGas (x : XReq) (psn : List Nat) : List (Nat × Nat) → Nat → List Byte → Nat → (Nat → Tr) → Tr
  | [], _, _, st, k => k st
  | (ga, n) :: ps, off, bs, st, k => .read fun d =>
    let go := fun (r : Nat) => Tr.writeGas x psn ps (off + n) (bs.drop n) (if st = stOK then r else st) k
    if d.isRemote ga then
      .seq [.postWrites x.die ga (bs.take n) ((psn.filter fun p => off ≤ p && p < off + n).map (· - off)) (fun _ => .nobody) false, go stOK]
    else if inMmio (localOf ga) then go stOK
    else .cohWrite x.agent x.die (localOf ga) (bs.take n)
      (fun s => psn.any fun p => off ≤ p && p < off + n && (localOf ga + (p - off)) / 64 * 64 = s) go

/-- Bytes `bs` at virtual address `va`: `k` gets a status, or none while it waits on a fault. -/
def Tr.writeVirt (x : XReq) (va : Nat) (bs : List Byte) (k : Option Nat → Tr) (psn : List Nat := []) : Tr :=
  .translateAll { x with access := 1 } (pagePieces va bs.length) [] fun m => match m with
    | .ok gas => .writeGas x psn gas 0 bs stOK fun st => k (some st)
    | .bad st => k (some st)
    | .wait => k none

/-- A held instruction of a thread starts: it takes a request slot, or waits for one (R265, R266). -/
def Ctx.hold1 (x : Ctx) (what a b : Nat) (k : Nat → Tr) : Tr :=
  .read fun d =>
    if !d.slotFree x.pk then x.hold .waitMem
    else .seq [
      .newOp fun id => { id := id, pk := x.pk, thread := x.t, pc := x.th.pc, aslot := x.th.aslot, kind := .held what a b, stream := 5 },
      .strmRegs x.pk, k d.u.nextOp]

/-- A held instruction has finished: its slot is free. -/
def Tr.release (id : Nat) : Tr :=
  .read fun d => .opt (d.op? id) fun o => .seq [
    .units fun u => { u with ops := u.ops.filter (·.id ≠ id) }, .clearHints o.pk, .pump o.pk]

/-- A held instruction ends with a status: the thread traps with cause MEMORY. -/
def Tr.releaseBad (id st : Nat) : Tr :=
  .read fun d => .opt (d.op? id) fun o => .seq [o.trapTr .memory st, .release id]

end Sys2Proof.Machine
end

