-- ==== Sys2Proof/Machine/Commands.lean ====
section
/-! DEFINITION. The command front ends: queues, rings, doorbells, packets, completion records, work-list records
(R436 to R449, R456 to R459, R468, R471). -/

namespace Sys2Proof.Machine

/-- A change of the front ends. -/
def Tr.cmdSt (f : CmdSt → CmdSt) : Tr := .units fun u => { u with cmd := f u.cmd }

/-- The tensor die that owns a queue (R436). -/
def qDie (q : Nat) : Nat := q / 16384
/-- The queue's number within its die (R472). -/
def qIdx (q : Nat) : Nat := q % 16384

/-- STATE of a queue: 0 OFF, 1 ON, 2 DRAINING, 3 STOPPED. -/
def Dev.qState (d : Dev) (q : Nat) : Nat := d.fld CMD_QSTAT CMD_QSTAT_STATE (qDie q) (qIdx q)
/-- STATE := s. -/
def Tr.qState (q s : Nat) : Tr := .fld CMD_QSTAT CMD_QSTAT_STATE (qDie q) s (qIdx q)
/-- Commands started and not yet recorded. -/
def Dev.inflight (d : Dev) (q : Nat) : Nat := d.fld CMD_QSTAT CMD_QSTAT_INFLIGHT (qDie q) (qIdx q)
/-- Records the driver has not consumed: CQ_TAIL − CQ_HEAD modulo 2^32. -/
def Dev.cqUsed (d : Dev) (q : Nat) : Nat :=
  (d.fld CMD_CQ_PTR CMD_CQ_PTR_TAIL (qDie q) (qIdx q) + 2 ^ 32 - d.fld CMD_CQ_PTR CMD_CQ_PTR_HEAD (qDie q) (qIdx q)) % 2 ^ 32
/-- Records a completion ring holds. -/
def Dev.cqSize (d : Dev) (q : Nat) : Nat := 2 ^ d.fld CMD_QCFG CMD_QCFG_CQ_LOG2 (qDie q) (qIdx q)
/-- Entries a submission ring holds. -/
def Dev.sqSize (d : Dev) (q : Nat) : Nat := 2 ^ d.fld CMD_QCFG CMD_QCFG_SQ_LOG2 (qDie q) (qIdx q)
/-- Whether a record without a reserved slot finds room: the slots that started commands hold are not free (R447, R459). -/
def Dev.cqRoom (d : Dev) (q : Nat) : Bool := d.qState q = 1 && d.cqUsed q + d.inflight q < d.cqSize q

/-- CQ_FULL of a queue. -/
def Tr.qFull (q : Nat) : Tr :=
  .read fun d => .fld CMD_QSTAT CMD_QSTAT_CQ_FULL (qDie q) (b01 (decide (d.cqSize q ≤ d.cqUsed q))) (qIdx q)

/-- Bytes written by a front end at a global address, which must be memory of this package. -/
def Tr.frontStore (die ga : Nat) (bs : List Byte) (k : Nat → Tr) : Tr :=
  .read fun d =>
    if d.isRemote ga || inMmio (localOf ga) then k stTRANSLATION_ABORT
    else .cohWrite agDma die (localOf ga) bs (fun _ => false) k

/-- A record that is not written (R459). -/
def Tr.recordLost (q : Nat) : Tr := .bump CMD_RECORDS_LOST (qDie q)

/-- A completion record (R456, R457, R459): a write that ends with a status is abandoned, and the next record takes its
number. -/
def Tr.cqRecord (q result status seq kind : Nat) (irq : Bool) : Tr :=
  .read fun d =>
    let die := qDie q
    let j := qIdx q
    let n := d.fld CMD_CQ_PTR CMD_CQ_PTR_TAIL die j
    let bs := leBytes 8 result ++ leBytes 2 status ++ leBytes 2 seq ++ leBytes 4 ((n + 1) % 2 ^ 24 + kind * 2 ^ 24)
    .frontStore die ((d.reg CMD_CQ_BASE die j).toNat + n % d.cqSize q * 16) bs fun st =>
      if st ≠ stOK then .seq [.fld CMD_QSTAT CMD_QSTAT_WRITE_ERR die 1 j, .recordLost q]
      else .seq [
        .fld CMD_CQ_PTR CMD_CQ_PTR_TAIL die ((n + 1) % 2 ^ 32) j, .qFull q,
        .when (irq && d.flag CMD_QCFG CMD_QCFG_MSI_EN die j)
          (let a := (d.reg CMD_MSI_ADDR die j).toNat
           let v := (d.reg CMD_MSI_DATA die j).toNat
           .seq [.cmdSt fun c => { c with msis := c.msis ++ [(a, v)] }, .frontStore die a (leBytes 4 v) fun _ => .skip])]

/-- A notice (R458, R459). -/
def Tr.notice (q status : Nat) : Tr :=
  .read fun d =>
    if d.cqRoom q then .cqRecord q d.beatIdx status 0 2 true
    else .seq [.when (d.qState q = 1) (.fld CMD_QSTAT CMD_QSTAT_NOTICE_LOST (qDie q) 1 (qIdx q)), .recordLost q]

/-- Work-list records that wait for a queue are lost once it is OFF or STOPPED (R459). -/
def Tr.dropHeldRecords (q : Nat) : Tr :=
  .read fun d =>
    let n := (d.u.cmd.waiting.filter (·.q = q)).length
    .seq [.bump CMD_RECORDS_LOST (qDie q) n, .cmdSt fun c => { c with waiting := c.waiting.filter (·.q ≠ q) }]

/-- A DRAINING queue whose last started command has its record is OFF (R439). -/
def Tr.qSettle (q : Nat) : Tr :=
  .read fun d => .when (d.qState q = 2 && d.inflight q = 0) (.seq [.qState q 0, .dropHeldRecords q])

/-- A work-list record (R459): written when its ring has room and none of its queue waits, else it waits, else it is lost. -/
def Tr.workRecord (q result status seq : Nat) (irq quiet : Bool) : Tr :=
  .read fun d =>
    let s := d.qState q
    if quiet && status = stOK then .skip
    else if s = 0 || s = 3 then .recordLost q
    else if d.cqRoom q && !d.u.cmd.waiting.any (·.q = q) then .cqRecord q result status seq 1 irq
    else if 4096 ≤ (d.u.cmd.waiting.filter (·.die = qDie q)).length then .recordLost q
    else .cmdSt fun c => { c with waiting := c.waiting ++
      [{ die := qDie q, q := q, result := result, status := status, seq := seq, irq := irq }] }

/-- HELD_RECORD_WRITE (R459): the oldest record that waits for a queue is written once its ring has room. -/
def heldRecordWriteTr (die : TDie) (q : QueueId) : Tr :=
  .read fun d =>
    match d.u.cmd.waiting.find? fun w => w.die = die.val && w.q = q.val with
    | none => .skip
    | some w => .when (d.cqRoom q.val) (.seq [
        .cmdSt fun c => { c with waiting := c.waiting.erase w },
        .cqRecord w.q w.result w.status w.seq 1 w.irq])
/-- HELD_RECORD_WRITE. -/
def execHeldRecordWrite (die : TDie) (q : QueueId) (s : State) := run (heldRecordWriteTr die q) s

/-! ## Packets (R443 to R446) -/

/-- OPCODE. -/
def Cmd.flags (c : Cmd) : Nat := leAt c.pkt 1 1
/-- Field of `n` bytes at byte `o` of the packet. -/
def Cmd.at (c : Cmd) (o n : Nat) : Nat := leAt c.pkt o n
/-- The queue of a command, 0 from a mailbox. -/
def Cmd.q (c : Cmd) : Nat := match c.src with | .queue q => q.val | _ => 0
/-- QUEUE of the service records that a command causes (R633). -/
def Cmd.recordQueue (c : Cmd) : Nat := match c.src with | .queue q => q.val | .fw => 0xFFFE | .mgmt => 0xFFFF
/-- Whether a command came from a queue. -/
def Cmd.queued (c : Cmd) : Bool := match c.src with | .queue _ => true | _ => false

/-- EXT of an opcode; none for a reserved one (R450). -/
def opExt (op : Nat) : Option Nat :=
  if [0x00, 0x01, 0x10, 0x11, 0x12, 0x13, 0x18, 0x20, 0x21, 0x30, 0x31, 0x32, 0x3A, 0x40, 0x80, 0x81, 0x82, 0x83, 0x84].contains op
  then some 0
  else if [0x34, 0x38, 0x39, 0x41].contains op then some 1 else none

/-- The opcodes that firmware executes (R448, R450). -/
def opFirmware (op : Nat) : Bool :=
  [0x20, 0x21, 0x34, 0x38, 0x39, 0x3A, 0x40, 0x41, 0x80, 0x81, 0x82, 0x83, 0x84].contains op

/-- Control commands (R450). -/
def opControl (op : Nat) : Bool := 0x80 ≤ op && op ≤ 0x84

/-- The header checks of R446; SEQ is checked on a queue only (R468). -/
def headerGood (pkt : List Byte) (seq : Option Nat) : Bool :=
  let h := leAt pkt 0 8
  let op := bitsOf h 0 8
  opExt op = some (bitsOf h 32 3) && bitsOf h 35 5 = 0 && bitsOf h 40 2 < 2 && bitsOf h 12 4 = 0 &&
    (!h.testBit 11 || [0x30, 0x31, 0x32, 0x34].contains op) &&
    (match seq with | some n => bitsOf h 16 16 = n % 2 ^ 16 | none => true)

/-- The selected beat (R444); none with BSEL 0. -/
def dueOf (pkt : List Byte) (b : Nat) : Option Nat :=
  let h := leAt pkt 0 8
  if bitsOf h 40 2 = 1 then some (b + 1 + (bitsOf h 42 22 + 2 ^ 22 - (b + 1) % 2 ^ 22) % 2 ^ 22) else none

/-- Whether the bytes of a packet from byte 8 on that lie in none of the fields (offset, length) are zero (R446). -/
def restZero (pkt : List Byte) (fields : List (Nat × Nat)) : Bool :=
  pkt.zipIdx.all fun (b, i) => i < 8 || b = 0 || fields.any fun f => f.1 ≤ i && i < f.1 + f.2

/-! ## Starting and finishing (R445, R447, R449) -/

/-- A change of a command. -/
def Tr.onCmd (id : Nat) (f : Cmd → Cmd) : Tr :=
  .cmdSt fun c => { c with cmds := c.cmds.map fun x => if x.seqNo = id then f x else x }

/-- The completion record of a mailbox: 16 bytes, with its count. -/
def mailRecord (c : Cmd) (n status result : Nat) : List Byte :=
  leBytes 8 result ++ leBytes 2 status ++ leBytes 2 (c.at 2 2) ++ leBytes 4 ((n + 1) % 2 ^ 24)

/-- A command ends: its record is written, unless it is QUIET and OK, and its slot is free (R447, R449, R468, R655). -/
def Tr.recordCmd (c : Cmd) (status result : Nat) : Tr :=
  let quiet := c.flags.testBit 1 && status = stOK
  .seq [
    .cmdSt fun s => { s with cmds := s.cmds.filter (·.seqNo ≠ c.seqNo) },
    match c.src with
    | .queue q => .seq [
        .when (status = stMALFORMED) (.bump CMD_MALFORMED (qDie q)),
        .when (status = stSUPERSEDED) (.bump CMD_SUPERSEDED (qDie q)),
        .read fun d => .fld CMD_QSTAT CMD_QSTAT_INFLIGHT (qDie q) (d.inflight q - 1) (qIdx q),
        .when (!quiet) (.cqRecord q result status (c.at 2 2) 0 (c.flags.testBit 2)),
        .qSettle q]
    | .fw => .read fun d =>
        let r := mailRecord c d.u.cmd.fwRecords status result
        .seq [
          .when (!quiet) (.seq [
            .reg CMD_FW_CPL_LO HD (w64 (leAt r 0 8)), .reg CMD_FW_CPL_HI HD (w64 (leAt r 8 8)),
            .cmdSt fun s => { s with fwRecords := s.fwRecords + 1 }]),
          .fld CMD_FW_CTL CMD_FW_CTL_GO HD 0]
    | .mgmt => .read fun d =>
        let r := mailRecord c d.u.cmd.mbRecords status result
        .seq [
          .when (!quiet) (.seq [
            .reg MGMT_MB_CPL_LO HD (w64 (leAt r 0 8)), .reg MGMT_MB_CPL_HI HD (w64 (leAt r 8 8)),
            .cmdSt fun s => { s with mbRecords := s.mbRecords + 1 }]),
          .fld MGMT_MB_CTL MGMT_MB_CTL_GO HD 0]]

/-- The packet that a queue's front end has read and not yet started starts when R447, R445 and R444 let it; one that is
malformed has no other effect, and waits for no beat (R446). -/
def Tr.startHeld (q : Nat) : Tr :=
  .read fun d =>
    match d.u.cmd.held.find? (·.q = q) with
    | none => .skip
    | some h =>
      let op := leAt h.pkt 0 1
      let n := d.inflight q
      let good := headerGood h.pkt (some h.n)
      let order := leAt h.pkt 1 1 % 2 = 1 || op = 1 || op = 0x32
      let early := match h.due with | some b => good && !opControl op && d.beatIdx < b | none => false
      if d.qState q ≠ 1 || d.fld CMD_CTL CMD_CTL_QLIMIT (qDie q) ≤ n || d.cqSize q ≤ d.cqUsed q + n || (order && n ≠ 0) || early then
        .skip
      else
        let c : Cmd := { src := .queue (Fin.ofNat 65536 q), n := h.n, op := op, pkt := h.pkt, seqNo := d.u.cmd.seqNo, due := h.due }
        .seq [
          .cmdSt fun s => { s with held := s.held.erase h, cmds := s.cmds ++ [c], seqNo := s.seqNo + 1 },
          .fld CMD_QSTAT CMD_QSTAT_INFLIGHT (qDie q) (n + 1) (qIdx q),
          if good then .when (opFirmware op) (.bump CMD_FW_PACKETS (qDie q)) else .recordCmd c stMALFORMED 0]

/-- A command ends, and what it held back may start. -/
def Tr.complete (c : Cmd) (status result : Nat) : Tr :=
  .seq [.recordCmd c status result, .when c.queued (.startHeld c.q)]

/-- The started command of a source and entry that has opcode `op` and stands at stage `st`. -/
def Dev.cmd? (d : Dev) (src : CmdSrc) (n op : Nat) (st : Nat) : Option Cmd :=
  d.u.cmd.cmds.find? fun c => c.src = src && c.n = n && c.op = op && c.stage = st

/-- What a started command's row does. -/
def Tr.withCmd (src : CmdSrc) (n : BitVec 32) (op : Nat) (k : Cmd → Tr) (st : Nat := 0) : Tr :=
  .read fun d => .opt (d.cmd? src n.toNat op st) k

/-! ## Queues and doorbells (R439 to R442, R472) -/

/-- A write of CMD_QCFG_q (R439, R472): while EN is 1 only EN and MSI_EN change; a size out of range stays. -/
def Tr.qcfgWrite (q : Nat) (v : Word) : Tr :=
  .read fun d =>
    let die := qDie q
    let j := qIdx q
    let n := v.toNat
    let en := n.testBit 0
    let size := fun (f : Fld) (lo : Nat) => Tr.when (lo ≤ f.get v && f.get v ≤ 20) (.fld CMD_QCFG f die (f.get v) j)
    if d.flag CMD_QCFG CMD_QCFG_EN die j then .seq [
      .fld CMD_QCFG CMD_QCFG_MSI_EN die (bitsOf n 32 1) j,
      .when (!en) (.seq [
        .fld CMD_QCFG CMD_QCFG_EN die 0 j,
        .cmdSt fun c => { c with held := c.held.filter (·.q ≠ q) },
        .qState q 2, .qSettle q])]
    else .seq [
      size CMD_QCFG_SQ_LOG2 6, size CMD_QCFG_CQ_LOG2 4,
      .fld CMD_QCFG CMD_QCFG_ASLOT die (bitsOf n 24 6) j, .fld CMD_QCFG CMD_QCFG_MSI_EN die (bitsOf n 32 1) j,
      .when (en && d.qState q = 0) (.seq [
        .fld CMD_QCFG CMD_QCFG_EN die 1 j,
        .reg CMD_SQ_PTR die 0 j, .reg CMD_CQ_PTR die 0 j, .qState q 1, .qFull q])]

/-- QUEUE_ENABLE (R439): a write of CMD_QCFG_q with EN = 1. -/
def execQueueEnable (q : QueueId) (v : Word) (s : State) := run (.qcfgWrite q.val (v ||| 1)) s
/-- QUEUE_DISABLE (R439): a write of CMD_QCFG_q with EN = 0. -/
def execQueueDisable (q : QueueId) (v : Word) (s : State) := run (.qcfgWrite q.val (v &&& ~~~1)) s

/-- DOORBELL (R441, R659): a 64-bit write to the doorbell register of a queue; in Dusk it is discarded. -/
def doorbellTr (q : QueueId) (v : Word) : Tr :=
  .read fun d =>
    let die := qDie q.val
    let j := qIdx q.val
    let tail := v.toNat % 2 ^ 32
    if tail = d.fld CMD_SQ_PTR CMD_SQ_PTR_TAIL die j then .skip
    else if d.qState q.val = 1 && d.fld PWR_STATE PWR_STATE_STATE HD ≠ 3 && (tail + 2 ^ 32 - d.fld CMD_SQ_PTR CMD_SQ_PTR_HEAD die j) % 2 ^ 32 ≤ d.sqSize q.val then
      .fld CMD_SQ_PTR CMD_SQ_PTR_TAIL die tail j
    else .seq [.fld CMD_QSTAT CMD_QSTAT_DB_ERR die 1 j, .bump CMD_DB_ERRORS die]
/-- DOORBELL. -/
def execDoorbell (q : QueueId) (v : Word) (s : State) := run (doorbellTr q v) s

/-- CQ_HEAD_WRITE (R472): a write of CMD_CQ_PTR_q; one that moves CQ_HEAD past CQ_TAIL, or backwards, is discarded. -/
def cqHeadWriteTr (q : QueueId) (v : Word) : Tr :=
  .read fun d =>
    let die := qDie q.val
    let j := qIdx q.val
    let head := v.toNat / 2 ^ 32
    let old := d.fld CMD_CQ_PTR CMD_CQ_PTR_HEAD die j
    if d.cqUsed q.val < (head + 2 ^ 32 - old) % 2 ^ 32 then .fld CMD_QSTAT CMD_QSTAT_DB_ERR die 1 j
    else .seq [.fld CMD_CQ_PTR CMD_CQ_PTR_HEAD die head j, .qFull q.val, .startHeld q.val]
/-- CQ_HEAD_WRITE. -/
def execCqHeadWrite (q : QueueId) (v : Word) (s : State) := run (cqHeadWriteTr q v) s

/-- The queues of a die that are ON, ascending. -/
def Dev.onQueues (d : Dev) (die : Nat) : List Nat :=
  d.regs.filterMap fun (k, v) =>
    let o := k % 2 ^ 24
    if k / 2 ^ 24 = die && 0x100000 ≤ o && o < 0x200000 && o % 0x40 = 0x28 && v.toNat % 4 = 1 then
      some (die * 16384 + (o - 0x100000) / 0x40)
    else none

/-- The global address of entry `n` of a submission ring (R437, R438). -/
def Dev.sqAddr (d : Dev) (q n : Nat) : Nat := (d.reg CMD_SQ_BASE (qDie q) (qIdx q)).toNat + n % d.sqSize q * 64

/-- Unread entries of a queue. -/
def Dev.sqUnread (d : Dev) (q : Nat) : Nat :=
  let p := (d.reg CMD_SQ_PTR (qDie q) (qIdx q)).toNat
  (p / 2 ^ 32 + 2 ^ 32 - p % 2 ^ 32) % 2 ^ 32

/-- A read by a front end at a global address, which must be memory of this package: `k` gets a status and bytes. -/
def Tr.frontLoad (die ga n : Nat) (k : Nat → List Byte → Tr) : Tr :=
  .read fun d =>
    if d.isRemote ga || inMmio (localOf ga) then k stTRANSLATION_ABORT []
    else .readRange false agDma die (localOf ga) n fun o => k o.st o.bytes

/-- The queue the round robin serves next (R447): the first after the one last served that is ON, has no packet held back,
and whose next packet is wholly published (R442). -/
def Dev.nextQueue (d : Dev) (die : Nat) : Option Nat :=
  let last := agetD d.u.cmd.rr die (16384 * die)
  let qs := (d.onQueues die).filter fun q =>
    !d.u.cmd.held.any (·.q = q) &&
      (let n := d.fld CMD_SQ_PTR CMD_SQ_PTR_HEAD (qDie q) (qIdx q)
       1 + (d.rawBytes (localOf (d.sqAddr q n) + 4) 1).head?.elim 0 (fun b => b.toNat % 8) ≤ d.sqUnread q)
  (qs.find? (last ≤ ·)).orElse fun _ => qs.head?

/-- Entries of a packet in order, wrapping at the end of the ring (R443). -/
def Tr.readEntries (q : Nat) : List Nat → List Byte → (Nat → List Byte → Tr) → Tr
  | [], acc, k => k stOK acc
  | n :: ns, acc, k => .read fun d => .frontLoad (qDie q) (d.sqAddr q n) 64 fun st bs =>
      if st = stOK then .readEntries q ns (acc ++ bs) k else k st []

/-- PACKET_READ (R440, R443, R447): one whole packet of the next queue is read; a read that ends with a status stops the
queue. -/
def packetReadTr (die : TDie) : Tr :=
  .read fun d =>
    match d.nextQueue die.val with
    | none => .skip
    | some q =>
      let n := d.fld CMD_SQ_PTR CMD_SQ_PTR_HEAD (qDie q) (qIdx q)
      let stop := Tr.seq [
        .fld CMD_QSTAT CMD_QSTAT_READ_ERR (qDie q) 1 (qIdx q), .qState q 3, .dropHeldRecords q]
      .seq [
        .cmdSt fun c => { c with rr := tinsert c.rr die.val (q + 1) },
        .readEntries q [n] [] fun st first =>
          if st ≠ stOK then stop
          else
            let ext := leAt first 4 1 % 8
            .readEntries q ((List.range ext).map (n + 1 + ·)) first fun st pkt =>
              if st ≠ stOK then stop
              else .seq [
                .bump CMD_PACKETS die.val,
                .fld CMD_SQ_PTR CMD_SQ_PTR_HEAD (qDie q) ((n + 1 + ext) % 2 ^ 32) (qIdx q),
                .read fun d => .cmdSt fun c => { c with held := c.held ++ [{ q := q, n := n, pkt := pkt, due := dueOf pkt d.beatIdx }] },
                .startHeld q]]
/-- PACKET_READ. -/
def execPacketRead (die : TDie) (s : State) := run (packetReadTr die) s

/-- A packet reaches the front end through a mailbox (R468, R655): a control command or NOP; anything else is malformed. -/
def Tr.mailbox (src : CmdSrc) (pkt : List Byte) : Tr :=
  .read fun d =>
    let op := leAt pkt 0 1
    let c : Cmd := { src := src, n := 0, op := op, pkt := pkt, seqNo := d.u.cmd.seqNo, due := dueOf pkt d.beatIdx }
    .seq [
      .cmdSt fun s => { s with cmds := s.cmds ++ [c], seqNo := s.seqNo + 1 },
      .when (!headerGood pkt none || !(op = 0 || opControl op)) (.recordCmd c stMALFORMED 0)]

/-- FW_MAILBOX_GO (R468): a write of GO = 1 to CMD_FW_CTL by a host hart in M-mode or by the custodian. -/
def fwMailboxGoTr (who : Requester) : Tr :=
  .read fun d =>
    if !(who = .hostM || who = .custodian) || d.flag CMD_FW_CTL CMD_FW_CTL_GO HD then .skip
    else .seq [
      .fld CMD_FW_CTL CMD_FW_CTL_GO HD 1,
      .mailbox .fw ((List.range 8).flatMap fun i => leBytes 8 (d.reg CMD_FW_PKT HD i).toNat)]
/-- FW_MAILBOX_GO. -/
def execFwMailboxGo (who : Requester) (s : State) := run (fwMailboxGoTr who) s

/-! ## Work-list records (R469, R471) -/

/-- The RESULT of a THREAD entry's record (R469). -/
def workResult (cell thread beat : Nat) : Nat := cell + thread * 2 ^ 16 + beat % 2 ^ 32 * 2 ^ 32

/-- Whether a started thread and everything it issued has ended (R471). -/
def Dev.threadDone (d : Dev) (pk t : Nat) : Bool :=
  let s := (d.threadAt pk t).st
  (s = .ended || s = .trapped) && !d.u.ops.any fun o => o.pk = pk && o.thread = t && (match o.kind with | .ra _ => false | _ => true)

/-- The record of an entry whose thread is done. -/
def Tr.entryRecord (e : WorkEntry) (status : Nat) : Tr :=
  .seq [
    .units fun u =>
      let work := u.beat.work.map fun x => if x.index = e.index then { x with recorded := true } else x
      { u with beat := { u.beat with work := work } },
    .workRecord e.notify (workResult e.cell e.thread e.beat) status (e.index % 2 ^ 16) e.irq e.quiet]

/-- The record of an entry, when it is ready. -/
def Tr.entryReady (e : WorkEntry) : Tr :=
  .read fun d => match e.phys with
    | some pk => .when (!e.recorded && d.threadDone pk e.thread) (.entryRecord e ((d.threadAt pk e.thread).trap.getD stOK))
    | none => .skip

/-- THREAD_ENTRY_RECORD (R471): the record of entry `index` of the beat's work list becomes ready. -/
def threadEntryRecordTr (index : Nat) : Tr :=
  .read fun d => .opt (d.u.beat.work.find? (·.index = index)) fun e => .entryReady e
/-- THREAD_ENTRY_RECORD. -/
def execThreadEntryRecord (index : Nat) (s : State) := run (threadEntryRecordTr index) s

end Sys2Proof.Machine
end

