-- ==== Sys2Proof/Machine/Route.lean ====
section
/-! DEFINITION. The links of the package and the fixed routes of requests over them (R13 to R16, R19, R20). -/

namespace Sys2Proof.Machine

/-- A die-to-die link (R13). -/
def Dev.link (d : Dev) (l : Nat) : LinkSt := agetD d.u.links l {}
/-- A change of a link. -/
def Tr.link (l : Nat) (f : LinkSt → LinkSt) : Tr := .units fun u => { u with links := aupd u.links l {} f }

/-- The route bit of a request, from the local address of its target (R15). -/
def routeBit (la : Nat) : Bool := ((la.testBit 9 ^^ la.testBit 13) ^^ la.testBit 17) ^^ la.testBit 21

/-- The link between two dies, if they have one (R13). -/
def linkBetween (a b : Nat) : Option Nat := (List.range 12).find? fun l => linkEnds l = (a, b) || linkEnds l = (b, a)

/-- The transit die between two dies without a link of their own, from the lower die index to the higher; `bit` is the route
bit (R14, R15, R16). -/
def transitDie (lo hi : Nat) (bit : Bool) : Option Nat :=
  match lo, hi with
  | 0, 3 => some (if bit then 2 else 1)
  | 1, 2 => some (if bit then 3 else 0)
  | 4, 5 => some (if bit then 1 else 0)
  | 4, 6 => some (if bit then 3 else 2)
  | 2, 5 => some 0
  | 3, 5 => some 1
  | 0, 6 => some 2
  | 1, 6 => some 3
  | _, _ => none

/-- The links that a request between two dies and its response cross (R14). -/
def routeLinks (a b la : Nat) : List Nat :=
  if a = b then []
  else match linkBetween a b with
    | some l => [l]
    | none => match transitDie (min a b) (max a b) (routeBit la) with
      | some m => (linkBetween a m).toList ++ (linkBetween m b).toList
      | none => []

/-- The die that holds the target of a local address: of an MMIO address its own (R41), else the home. -/
def Dev.targetDie (d : Dev) (la : Nat) : Nat :=
  match d.place la with
  | .csr die _ => die
  | .doorbell q _ => q / 16384
  | .mould die _ => die
  | .debug die _ => die
  | _ => d.home la

/-- Whether a link of the route of a die's request to a local address is retraining: the request sees the delay (R20). It is
never sent over another route (R19). -/
def Dev.routeDown (d : Dev) (die la : Nat) : Bool :=
  (routeLinks die (d.targetDie la) la).any fun l => (d.link l).downAt.isSome

end Sys2Proof.Machine
end

