-- ==== Sys2Proof/Machine/DataCmds.lean ====
section
/-! DEFINITION. Packet commands that move data or load moulds: NOP, the DMA opcodes, ATOMIC, VQ_MOULD_LOAD and
VQ_MOULD_RETIRE (R302 to R307, R316, R317, R450 to R455, R458). -/

namespace Sys2Proof.Machine

/-- A translation asked for by a command (R451): `i` tells its parts apart. -/
def Dev.cmdReq (d : Dev) (c : Cmd) (i source : Nat) : XReq :=
  { die := qDie c.q, slot := d.fld CMD_QCFG CMD_QCFG_ASLOT (qDie c.q) (qIdx c.q), va := 0, access := 0, source := source,
    queue := c.q, agent := agDma, who := .chunk c.seqNo i }

/-- NOP (R452). -/
def cmdNopTr (src : CmdSrc) (n : BitVec 32) : Tr :=
  .withCmd src n 0x00 fun c => .read fun d =>
    if !restZero c.pkt [] then .complete c stMALFORMED 0
    else if c.due.any fun b => d.beatIdx < b then .skip
    else .complete c stOK 0
/-- NOP. -/
def execCmdNop (src : CmdSrc) (n : BitVec 32) (s : State) := run (cmdNopTr src n) s

/-! ## DMA (R302 to R307) -/

/-- A chunk: its destination offset (R458), source and destination addresses, and length. -/
structure Chunk where
  off : Nat
  src : Nat
  dst : Nat
  len : Nat
deriving DecidableEq, Repr

/-- The global address at an offset from what a put or get names: a local address and a logical ID (R565, R566). -/
def farAt (w o : Nat) : Nat := bitsOf w 48 15 * 2 ^ 41 + (w + o) % 2 ^ 41

/-- Chunk `i` of a transfer (R304). -/
def Cmd.chunk (c : Cmd) (i : Nat) : Chunk :=
  match c.op with
  | 0x10 => { off := i * 65536, src := (c.at 8 8 + i * 65536) % 2 ^ 64, dst := (c.at 16 8 + i * 65536) % 2 ^ 64,
              len := min 65536 (c.at 24 8 - i * 65536) }
  | 0x11 =>
    let rb := c.at 24 8
    let n := cdiv rb 65536
    let o := i % n * 65536
    { off := i / n * rb + o, src := (rowAt (c.at 8 8) (signed 64 (c.at 40 8)) (i / n) + o) % 2 ^ 64,
      dst := (rowAt (c.at 16 8) (signed 64 (c.at 48 8)) (i / n) + o) % 2 ^ 64, len := min 65536 (rb - o) }
  | 0x30 => { off := i * 65536, src := (c.at 8 8 + i * 65536) % 2 ^ 64, dst := farAt (c.at 16 8) (i * 65536),
              len := min 65536 (c.at 24 8 - i * 65536) }
  | 0x31 => { off := i * 65536, src := farAt (c.at 16 8) (i * 65536), dst := (c.at 8 8 + i * 65536) % 2 ^ 64,
              len := min 65536 (c.at 24 8 - i * 65536) }
  | 0x12 => { off := i * 65536, src := 0, dst := (c.at 8 8 + i * 65536) % 2 ^ 64, len := min 65536 (c.at 16 8 - i * 65536) }
  | _ => let t := c.tiles.getD i (0, 0); { off := i * 4096, src := t.1, dst := t.2, len := 4096 }

/-- Requests of a chunk: 512 bytes each (R264), never more than the die's limit at once. -/
def Dev.chunkReqs (d : Dev) (c : Cmd) (i : Nat) : Nat :=
  min (cdiv (c.chunk i).len 512) (d.fld STRM_DMA_CFG STRM_DMA_CFG_LIMIT (qDie c.q))

/-- DMA requests of a die in flight: those of the chunks sent and not ended. -/
def Dev.dmaCount (d : Dev) (die : Nat) : Nat :=
  (d.u.cmd.cmds.filter fun c => c.queued && qDie c.q = die).foldl (fun n c =>
    (List.range c.sent).foldl (fun n i => if c.ended.contains i then n else n + d.chunkReqs c i) n) 0

/-- The next chunk to send on a die: the oldest command's that still has one. -/
def Dev.nextChunk (d : Dev) (die : Nat) : Option Cmd :=
  d.u.cmd.cmds.find? fun c => c.queued && qDie c.q = die && c.stage = 1 && c.failed.isNone && c.sent < c.total

/-- Chunks are sent while the limit of the DMA class and the total of the die allow (R265). -/
def Tr.dmaPump (die : Nat) : Nat → Tr
  | 0 => .skip
  | fuel + 1 => .read fun d =>
    match d.nextChunk die with
    | none => .skip
    | some c =>
      let n := d.chunkReqs c c.sent
      let fly := agetD d.u.dmaFly die 0
      if fly + n ≤ d.fld STRM_DMA_CFG STRM_DMA_CFG_LIMIT die && d.u.dieFly die + n ≤ 16384 then .seq [
        .onCmd c.seqNo fun c => { c with sent := c.sent + 1 },
        .units fun u => { u with dmaFly := tinsert u.dmaFly die (fly + n) },
        .dmaPump die fuel]
      else .skip

/-- The DMA engine of a die goes on, and its registers follow. -/
def Tr.dmaGo (die : Nat) : Tr :=
  .read fun d => .seq [
    .units fun u => { u with dmaFly := tinsert u.dmaFly die (d.dmaCount die) },
    .dmaPump die (d.fld STRM_DMA_CFG STRM_DMA_CFG_LIMIT die), .dieRegs die]

/-- What the whole transfer of a DMA command, put or get moves. -/
def Cmd.dmaLen (c : Cmd) : Nat :=
  match c.op with
  | 0x10 => c.at 24 8
  | 0x11 => c.at 24 8 * c.at 32 8
  | 0x12 => c.at 16 8
  | 0x13 => c.at 24 4 * 4096
  | _ => c.at 24 8

/-- A transfer whose last chunk has been written: a put with a flag writes it next, as one ORDERED write (R565). -/
def Tr.dmaFinish (c : Cmd) : Tr :=
  .read fun d =>
    let flag := c.at 32 8
    let ga := bitsOf (c.at 16 8) 48 15 * 2 ^ 41 + flag
    if c.op ≠ 0x30 || flag = 0 then .complete c stOK c.dmaLen
    else if d.isRemote ga then .seq [
      .onCmd c.seqNo fun x => { x with stage := 3 },
      .post (qDie c.q) { plane := 0, op := 2, dst := pkgOf ga, la := flag, len := 8, data := leBytes 8 (c.at 40 8), ordered := true,
                         tagged := c.flags.testBit 3, own := .cmd c.seqNo }]
    else .cohWrite agDma (qDie c.q) flag (leBytes 8 (c.at 40 8)) (fun _ => false) fun st =>
      if st = stOK then .complete c stOK c.dmaLen else .fresh fun i => .complete c st (Config.freeWord i).toNat

/-- The bytes that a get has undefined: all of its destination, when its partner is lost (R568). -/
def Tr.getUndefined (c : Cmd) (k : Tr) : Tr :=
  .read fun d => .fresh fun idx =>
    .writeVirt { d.cmdReq c 0 1 with va := c.at 8 8 } (c.at 8 8) (freeBytes idx c.dmaLen) fun _ => k

/-- A DMA command whose sent chunks have all ended, and that sends no more, writes its record (R304, R307, R458, R568). -/
def Tr.dmaEnd (id : Nat) : Tr :=
  .read fun d => .opt (d.u.cmd.cmds.find? fun c => c.seqNo = id && c.stage = 1) fun c =>
    .when (c.ended.length = c.sent && (c.failed.isSome || c.sent = c.total)) (match c.failed with
      | some (i, st) =>
        if c.op = 0x31 && st = stPARTNER_LOST then .getUndefined c (.complete c st (c.chunk i).off)
        else .complete c st (c.chunk i).off
      | none => .dmaFinish c)

/-- A DMA command whose parameters are good starts its `total` chunks. -/
def Tr.dmaStart (c : Cmd) (total : Nat) : Tr :=
  .seq [.onCmd c.seqNo fun x => { x with stage := 1, total := total }, .dmaGo (qDie c.q), .dmaEnd c.seqNo]

/-- DMA_COPY (R302, R303). -/
def dmaCopyTr (src : CmdSrc) (n : BitVec 32) : Tr :=
  .withCmd src n 0x10 fun c =>
    let len := c.at 24 8
    if !restZero c.pkt [(8, 24)] || c.at 8 8 % 64 ≠ 0 || c.at 16 8 % 64 ≠ 0 || len % 64 ≠ 0 || 2 ^ 40 < len then
      .complete c stMALFORMED 0
    else .dmaStart c (cdiv len 65536)
/-- DMA_COPY. -/
def execDmaCopy (src : CmdSrc) (n : BitVec 32) (s : State) := run (dmaCopyTr src n) s

/-- DMA_COPY_2D (R302, R303): destination rows may not overlap. -/
def dmaCopy2dTr (src : CmdSrc) (n : BitVec 32) : Tr :=
  .withCmd src n 0x11 fun c =>
    let rb := c.at 24 8
    let rows := c.at 32 8
    if !restZero c.pkt [(8, 48)] || [8, 16, 24, 40, 48].any (fun o => c.at o 8 % 64 ≠ 0) || 2 ^ 40 < rb * rows ||
        (rb ≠ 0 && rowsOverlap rows rb (signed 64 (c.at 48 8))) then
      .complete c stMALFORMED 0
    else .dmaStart c (rows * cdiv rb 65536)
/-- DMA_COPY_2D. -/
def execDmaCopy2d (src : CmdSrc) (n : BitVec 32) (s : State) := run (dmaCopy2dTr src n) s

/-- DMA_FILL (R302, R303). -/
def dmaFillTr (src : CmdSrc) (n : BitVec 32) : Tr :=
  .withCmd src n 0x12 fun c =>
    let len := c.at 16 8
    if !restZero c.pkt [(8, 24)] || c.at 8 8 % 64 ≠ 0 || len % 64 ≠ 0 || 2 ^ 40 < len then .complete c stMALFORMED 0
    else .dmaStart c (cdiv len 65536)
/-- DMA_FILL. -/
def execDmaFill (src : CmdSrc) (n : BitVec 32) (s : State) := run (dmaFillTr src n) s

/-- The entries of DMA_TILES' two lists in order: an entry whose read ends with a status ends the command with that
status (R458), and a tile address that is no multiple of 512 makes it malformed (R303). -/
def Tr.tileEntries (c : Cmd) (slist dlist : Nat) : Nat → List (Nat × Nat) → Tr
  | 0, acc => .seq [.onCmd c.seqNo fun x => { x with tiles := acc.reverse }, .dmaStart c acc.length]
  | left + 1, acc => .read fun d =>
    let i := acc.length
    let x := d.cmdReq c 0 1
    .readVirt x ((slist + 8 * i) % 2 ^ 64) 8 fun r => match r with
      | .wait => .skip
      | .bad st => .complete c st (i * 4096)
      | .ok s _ => .readVirt x ((dlist + 8 * i) % 2 ^ 64) 8 fun r => match r with
        | .wait => .skip
        | .bad st => .complete c st (i * 4096)
        | .ok t _ =>
          if leNat s % 512 ≠ 0 || leNat t % 512 ≠ 0 then .complete c stMALFORMED 0
          else .tileEntries c slist dlist left ((leNat s, leNat t) :: acc)

/-- DMA_TILES (R302, R303). -/
def dmaTilesTr (src : CmdSrc) (n : BitVec 32) : Tr :=
  .withCmd src n 0x13 fun c =>
    let k := c.at 24 8
    if !restZero c.pkt [(8, 24)] || 2 ^ 25 ≤ k || k = 0 || 2 ^ 24 < k || c.at 8 8 % 64 ≠ 0 || c.at 16 8 % 64 ≠ 0 then
      .complete c stMALFORMED 0
    else .tileEntries c (c.at 8 8) (c.at 16 8) k []
/-- DMA_TILES. -/
def execDmaTiles (src : CmdSrc) (n : BitVec 32) (s : State) := run (dmaTilesTr src n) s

/-- Whether a destination byte of a transfer is also one of its source bytes, the two not being identical: its value is
unspecified (R305). -/
def Cmd.overlaps (c : Cmd) (a : Nat) : Bool :=
  let within := fun (s n : Nat) => s ≤ a && a < s + n
  match c.op with
  | 0x10 => c.at 8 8 ≠ c.at 16 8 && within (c.at 8 8) (c.at 24 8)
  | 0x11 =>
    !(c.at 8 8 = c.at 16 8 && (c.at 40 8 = c.at 48 8 || c.at 32 8 ≤ 1)) &&
      (List.range (c.at 32 8)).any fun r => within (rowAt (c.at 8 8) (signed 64 (c.at 40 8)) r) (c.at 24 8)
  | 0x13 => !(c.tiles.all fun t => t.1 = t.2) && c.tiles.any fun t => within t.1 4096
  | _ => false

/-- The bytes of a chunk with free values where source and destination overlap (R305). -/
def Cmd.chunkBytes (c : Cmd) (k : Chunk) (bs free : List Byte) : List Byte :=
  bs.zipIdx.map fun (b, i) => if c.overlaps (k.dst + i) then free.getD i b else b

/-- The pieces of the destination that end a write with a status, before anything is written (R304). -/
def Dev.piecesStatus (d : Dev) (gas : List (Nat × Nat)) : Nat :=
  gas.foldl (fun st g =>
    if st ≠ stOK || d.isRemote g.1 || inMmio (localOf g.1) then st else d.rangeStatus (localOf g.1) g.2) stOK

/-- Whether a piece waits for the fence list of its port (R369), or for a link of its route (R20). -/
def Dev.piecesFenced (d : Dev) (die : Nat) (gas : List (Nat × Nat)) : Bool :=
  gas.any fun g => !d.isRemote g.1 && (d.fenced (localOf g.1) g.2 || d.routeDown die (localOf g.1))

/-- Whether a piece lies in the bulk tier. -/
def Dev.piecesBulk (d : Dev) (gas : List (Nat × Nat)) : Bool :=
  gas.any fun g => !d.isRemote g.1 && (match d.place (localOf g.1) with | .bulk .. => true | _ => false)

/-- A chunk has ended, with a status or OK: no further chunk is sent after one that ended with a status (R304). -/
def Tr.chunkEnd (c : Cmd) (i st : Nat) : Tr :=
  .seq [
    .onCmd c.seqNo fun x => { x with
      ended := i :: x.ended, failed := if st = stOK || x.failed.isSome then x.failed else some (i, st) },
    .when (st = stOK && c.op < 0x20) (.bump STRM_DMA_BYTES (qDie c.q) (c.chunk i).len),
    .dmaGo (qDie c.q), .dmaEnd c.seqNo]

/-- Whether a transport request belongs to chunk `i` of a command. -/
def TReq.ofChunk (q : TReq) (id i : Nat) : Bool := match q.own with | .chunk a b _ => a = id && b = i | _ => false
/-- The offset in its chunk of a transport request's data. -/
def TReq.off (q : TReq) : Nat := match q.own with | .chunk _ _ o => o | _ => 0

/-- The pieces of one side of a chunk: translated, or global addresses as a put or get names them. -/
def Tr.chunkSide (x : XReq) (far : Bool) (a len : Nat) (k : VMap → Tr) : Tr :=
  if far then k (.ok (pagePieces a len)) else .translateAll x (pagePieces a len) [] k

/-- READs of the pieces of a chunk that lie on other packages. -/
def Tr.postReads (c : Cmd) (chunk : Nat) : List (Nat × Nat) → Nat → Tr
  | [], _ => .skip
  | (ga, n) :: ps, o => .read fun d => .seq [
      .when (d.isRemote ga) (.each (pieces512 (localOf ga) n) fun (p, la, m) =>
        .post (qDie c.q) { plane := 0, op := 1, dst := pkgOf ga, la := la, len := m, tagged := c.flags.testBit 3,
                           own := .chunk c.seqNo chunk (o + p) }),
      .postReads c chunk ps (o + n)]

/-- The bytes of a chunk: pieces on this package read now, and those that READs have brought (R306, R560). -/
def Tr.chunkBytes (x : XReq) (fwd : Bool) (got : List TReq) : List (Nat × Nat) → Nat → List Byte → List Nat → (VRes → Tr) → Tr
  | [], _, bs, psn, k => k (.ok bs psn)
  | (ga, n) :: ps, o, bs, psn, k => .read fun d =>
    if d.isRemote ga then
      let mine := got.filter fun q => o ≤ q.off && q.off < o + n
      let b := (pieces512 (localOf ga) n).flatMap fun (p, _, _) => ((mine.find? fun q => q.off = o + p).map (·.data)).getD []
      let bad := mine.flatMap fun q => (setBits 8 q.poison).map fun i => q.off + 64 * i
      if !bad.isEmpty && !fwd then k (.bad stPOISON_CONSUMED)
      else .chunkBytes x fwd got ps (o + n) (bs ++ b) (psn ++ bad) k
    else .readGa x fwd ga n fun r => match r with
      | .ok b p => .chunkBytes x fwd got ps (o + n) (bs ++ b) (psn ++ p.map (· + o)) k
      | r => k r

/-- The bytes of a chunk at the pieces on this package; `k` gets the first status other than OK. -/
def Tr.chunkLocal (x : XReq) (psn : List Nat) : List (Nat × Nat) → Nat → List Byte → Nat → (Nat → Tr) → Tr
  | [], _, _, st, k => k st
  | (ga, n) :: ps, o, bs, st, k => .read fun d =>
    if d.isRemote ga then .chunkLocal x psn ps (o + n) (bs.drop n) st k
    else .writeGas x ((psn.filter fun p => o ≤ p && p < o + n).map (· - o)) [(ga, n)] 0 (bs.take n) stOK fun r =>
      .chunkLocal x psn ps (o + n) (bs.drop n) (if st = stOK then r else st) k

/-- WRITEs of the pieces of a chunk that lie on other packages. -/
def Tr.chunkRemote (c : Cmd) (chunk : Nat) (psn : List Nat) : List (Nat × Nat) → Nat → List Byte → Tr
  | [], _, _ => .skip
  | (ga, n) :: ps, o, bs => .read fun d => .seq [
      .when (d.isRemote ga) (.postWrites (qDie c.q) ga (bs.take n) ((psn.filter fun p => o ≤ p && p < o + n).map (· - o))
        (fun p => .chunk c.seqNo chunk (o + p)) (c.flags.testBit 3)),
      .chunkRemote c chunk psn ps (o + n) (bs.drop n)]

/-- The bytes of a chunk are written: at once on this package, and by WRITEs elsewhere, for which the chunk waits. -/
def Tr.chunkWrite (c : Cmd) (chunk : Nat) (x : XReq) (gas : List (Nat × Nat)) (bs : List Byte) (psn : List Nat) : Tr :=
  .fresh fun idx =>
    let bs := c.chunkBytes (c.chunk chunk) bs (freeBytes idx bs.length)
    .seq [
      .when (c.op < 0x20) (.bump STRM_POISON_FWD (qDie c.q) psn.length),
      .chunkLocal x psn gas 0 bs stOK fun st => .read fun d =>
        if st = stOK && gas.any (fun g => d.isRemote g.1) then .chunkRemote c chunk psn gas 0 bs
        else .chunkEnd c chunk st]

/-- DMA_CHUNK_DONE (R304 to R307, R568): a chunk that was sent translates every page, then reads and writes; what lies on
another package goes by transport requests, which it awaits. `late`: a bulk-tier device that it needs does not answer in
time. -/
def dmaChunkDoneTr (src : CmdSrc) (n : BitVec 32) (chunk : Nat) (late : Bool) : Tr :=
  .read fun d =>
    match d.u.cmd.cmds.find? fun c => c.src = src && c.n = n.toNat && c.stage = 1 && (0x10 ≤ c.op && c.op ≤ 0x13 || c.op = 0x30 || c.op = 0x31) with
    | none => .skip
    | some c =>
      let k := c.chunk chunk
      let x := d.cmdReq c (chunk + 1) 1
      let mine := d.u.fab.reqs.filter (·.ofChunk c.seqNo chunk)
      let clear : Tr := .units fun u => { u with fab := { u.fab with reqs := u.fab.reqs.filter fun q => !q.ofChunk c.seqNo chunk } }
      let fin := fun (st : Nat) => clear.andThen (.chunkEnd c chunk st)
      let st := mine.foldl (fun st q => if st = stOK then q.done.getD stOK else st) stOK
      if c.sent ≤ chunk || c.ended.contains chunk || mine.any (·.done.isNone) then .skip
      else if st ≠ stOK || mine.any (·.op = 2) then fin st
      else
        let read := if c.op = 0x12 then fun (k : VMap → Tr) => k (.ok []) else .chunkSide { x with access := 0 } (c.op = 0x31) k.src k.len
        read fun m => match m with
        | .wait => .skip
        | .bad st => fin st
        | .ok srcs => .chunkSide { x with access := 1 } (c.op = 0x30) k.dst k.len fun m => match m with
          | .wait => .skip
          | .bad st => fin st
          | .ok dsts => .read fun d =>
            if d.piecesFenced (qDie c.q) (srcs ++ dsts) then .skip
            else if dsts.any (fun g => !d.isRemote g.1 && d.u.ckpt.holds (localOf g.1) g.2) then .writeWaits 1 c.seqNo chunk
            else if late && d.piecesBulk (srcs ++ dsts) then fin stTIER_TIMEOUT
            else if d.piecesStatus dsts ≠ stOK then fin (d.piecesStatus dsts)
            else if srcs.any (fun g => d.isRemote g.1) && mine.isEmpty then .postReads c chunk srcs 0
            else if c.op = 0x12 then
              .chunkWrite c chunk x dsts ((List.replicate (k.len / 8) (leBytes 8 (c.at 24 8))).flatten) []
            else .chunkBytes x (d.pkgFeature 66) mine srcs 0 [] [] fun r => match r with
              | .ok bs psn => .seq [clear, .chunkWrite c chunk x dsts bs psn]
              | .bad st => fin st
              | .wait => .skip
/-- DMA_CHUNK_DONE. -/
def execDmaChunkDone (src : CmdSrc) (n : BitVec 32) (chunk : Nat) (late : Bool) (s : State) :=
  run (dmaChunkDoneTr src n chunk late) s

/-! ## Put and get (R565 to R568) -/

/-- Whether BTAG asks for what the package lacks (R564). -/
def Dev.btagAbsent (d : Dev) (c : Cmd) : Bool := c.flags.testBit 3 && !d.pkgFeature 69

/-- LT_PUT (R565). -/
def ltPutTr (src : CmdSrc) (n : BitVec 32) : Tr :=
  .withCmd src n 0x30 fun c => .read fun d =>
    let len := c.at 24 8
    let dst := c.at 16 8
    if !restZero c.pkt [(8, 40)] || c.at 8 8 % 64 ≠ 0 || dst % 64 ≠ 0 || bitsOf dst 41 7 ≠ 0 || dst.testBit 63 || len % 64 ≠ 0 ||
        len = 0 || 2 ^ 40 < len || c.at 32 8 % 8 ≠ 0 || 2 ^ 41 ≤ c.at 32 8 then
      .complete c stMALFORMED 0
    else if d.btagAbsent c then .complete c stCAPABILITY_ABSENT 0
    else .dmaStart c (cdiv len 65536)
/-- LT_PUT. -/
def execLtPut (src : CmdSrc) (n : BitVec 32) (s : State) := run (ltPutTr src n) s

/-- LT_GET (R566). -/
def ltGetTr (src : CmdSrc) (n : BitVec 32) : Tr :=
  .withCmd src n 0x31 fun c => .read fun d =>
    let len := c.at 24 8
    let a := c.at 16 8
    if !restZero c.pkt [(8, 24)] || c.at 8 8 % 64 ≠ 0 || a % 64 ≠ 0 || bitsOf a 41 7 ≠ 0 || a.testBit 63 || len % 64 ≠ 0 ||
        len = 0 || 2 ^ 40 < len then
      .complete c stMALFORMED 0
    else if d.btagAbsent c then .complete c stCAPABILITY_ABSENT 0
    else .dmaStart c (cdiv len 65536)
/-- LT_GET. -/
def execLtGet (src : CmdSrc) (n : BitVec 32) (s : State) := run (ltGetTr src n) s

/-! ## ATOMIC (R454, R387 to R392) -/

/-- ATOMIC: performed where R390 chooses; one near that must wait for its line stays to be performed. An atomic to another
package becomes a transport request (15_fabric.md), kept at stage 2. -/
def atomicTr (src : CmdSrc) (n : BitVec 32) : Tr :=
  .withCmd src n 0x18 fun c => .read fun d =>
    let op := c.at 8 1
    let wide := c.at 9 1 = 1
    let va := c.at 16 8
    let w := if wide then 8 else 4
    let a := c.at 24 8
    let b := if op = 1 then c.at 32 8 else 0
    if !restZero c.pkt ([(8, 2), (16, 16)] ++ (if op = 1 then [(32, 8)] else [])) || 10 < op || 1 < c.at 9 1 ||
        (op = 10 && wide) || va % w ≠ 0 then
      .complete c stMALFORMED 0
    else .translate { d.cmdReq c 0 4 with va := va, access := 2 } fun r => match r with
      | .wait => .skip
      | .unusable => .skip
      | .bad st => .complete c st 0
      | .ok ga _ _ => .read fun d =>
        let la := localOf ga
        let die := qDie c.q
        let done := fun (st old : Nat) => Tr.complete c st (if st = stOK then old else 0)
        if d.isRemote ga then
          if !d.pkgFeature 65 then .complete c stCAPABILITY_ABSENT 0
          else if inMmio la then .complete c stTRANSLATION_ABORT 0
          else .seq [
            .onCmd c.seqNo fun x => { x with stage := 2 },
            .post die { plane := 0, op := 3, dst := pkgOf ga, la := la, len := 24, own := .cmd c.seqNo,
                        data := leBytes 1 op ++ leBytes 1 (b01 wide) ++ leBytes 6 0 ++ leBytes 8 a ++ leBytes 8 b }]
        else if inMmio la then .complete c stMALFORMED 0
        else if (d.atomFar die la).1 then
          if (d.u.coh.lineReqs (la / 64)).head?.any (·.started) then .skip else .farAtomic die agDma la op wide a b done
        else if !(d.u.coh.lineReqs (la / 64)).isEmpty ||
            (d.u.coh.holders (la / 64)).any (fun h => h.agent ≠ 25 + die && d.elapsed < h.hold) then .skip
        else .nearAtomic (25 + die) die agDma la op wide a b false done
/-- ATOMIC. -/
def execAtomic (src : CmdSrc) (n : BitVec 32) (s : State) := run (atomicTr src n) s

/-! ## Moulds (R314 to R317, R455) -/

/-- VQ_MOULD_LOAD: a FREE mould goes to LOADING; at most four of a die's firmware commands run at once (R448). -/
def vqMouldLoadTr (src : CmdSrc) (n : BitVec 32) : Tr :=
  .withCmd src n 0x20 fun c => .read fun d =>
    let die := c.at 8 1
    let m := c.at 9 1
    let busy := (d.u.cmd.cmds.filter fun x => x.op = 0x20 && x.stage = 1 && qDie x.q = qDie c.q).length
    if !restZero c.pkt [(8, 4), (16, 8)] || 3 < die || 15 < m || c.at 10 2 = 0 || c.at 16 8 % 64 ≠ 0 ||
        d.fld VQ_MOULD VQ_MOULD_STATE die m ≠ 0 then
      .complete c stMALFORMED 0
    else if 4 ≤ busy then .skip
    else .seq [.fld VQ_MOULD VQ_MOULD_STATE die 1 m, .onCmd c.seqNo fun x => { x with stage := 1 }]
/-- VQ_MOULD_LOAD. -/
def execVqMouldLoad (src : CmdSrc) (n : BitVec 32) (s : State) := run (vqMouldLoadTr src n) s

/-- Whether a codebook header holds values in range (R314). -/
def codebookGood (h : List Byte) : Bool :=
  let fmt := leAt h 3 1
  let v := leAt h 4 1
  let b := leAt h 5 1
  let bits := v * fmtBits fmt
  leAt h 0 2 = 0x4356 && leAt h 2 1 = 1 && [0, 1, 2, 3, 4, 0xB, 0xC].contains fmt && [1, 2, 4, 8, 16].contains v &&
    bits % 8 = 0 && 2 ≤ b && b ≤ 16 && leAt h 6 2 = 0 && leAt h 8 4 = 2 ^ b * bits / 8 && leAt h 8 4 ≤ 1048576 &&
    (h.drop 16).all (· = 0)

/-- MOULD_LOAD_DONE (R316): header and entries are read and checked, and the mould is LIVE, or FREE again. -/
def mouldLoadDoneTr (src : CmdSrc) (n : BitVec 32) : Tr :=
  .withCmd src n 0x20 (st := 1) fun c => .read fun d =>
    let die := c.at 8 1
    let m := c.at 9 1
    let file := c.at 16 8
    let x := d.cmdReq c 0 4
    let bad := fun (st : Nat) => Tr.seq [.mouldFree die m, .complete c st 0]
    .readVirt x file 64 fun r => match r with
      | .wait => .skip
      | .bad st => bad st
      | .ok h _ =>
        if !codebookGood h then bad stMALFORMED
        else .readVirt x ((file + 64) % 2 ^ 64) (leAt h 8 4) fun r => match r with
          | .wait => .skip
          | .bad st => bad st
          | .ok es _ =>
            if crc32c es ≠ leAt h 12 4 then bad stMALFORMED
            else .seq [
              .mouldFree die m,
              .rawStore (mouldAddr die m) es,
              .reg VQ_MOULD_GEOM die (w64 (leAt h 3 1 + leAt h 4 1 * 2 ^ 8 + leAt h 5 1 * 2 ^ 16 + leAt h 8 4 * 2 ^ 32)) m,
              .fld VQ_MOULD VQ_MOULD_GEN die (c.at 10 2) m, .fld VQ_MOULD VQ_MOULD_STATE die 2 m,
              .complete c stOK 0]
/-- MOULD_LOAD_DONE. -/
def execMouldLoadDone (src : CmdSrc) (n : BitVec 32) (s : State) := run (mouldLoadDoneTr src n) s

/-- VQ_MOULD_RETIRE (R317). -/
def vqMouldRetireTr (src : CmdSrc) (n : BitVec 32) : Tr :=
  .withCmd src n 0x21 fun c => .read fun d =>
    let die := c.at 8 1
    let m := c.at 9 1
    if !restZero c.pkt [(8, 4)] || 3 < die || 15 < m ||
        !(d.fld VQ_MOULD VQ_MOULD_STATE die m = 2 && d.fld VQ_MOULD VQ_MOULD_GEN die m = c.at 10 2) then
      .complete c stMALFORMED 0
    else .seq [.fld VQ_MOULD VQ_MOULD_STATE die 3 m, .complete c stOK 0]
/-- VQ_MOULD_RETIRE. -/
def execVqMouldRetire (src : CmdSrc) (n : BitVec 32) (s : State) := run (vqMouldRetireTr src n) s

end Sys2Proof.Machine
end

