-- ==== Sys2Proof/Machine/Wire.lean ====
section
/-! DEFINITION. What goes over the lanes: transport packets as bytes, the native link layer, and Ethernet frames
(R549 to R557). -/

namespace Sys2Proof.Machine

/-- A change of the fabric state. -/
def Tr.fabSt (f : FabSt → FabSt) : Tr := .units fun u => { u with fab := f u.fab }
/-- The plane of a sub-port. -/
def spPlane (sp : Nat) : Nat := sp / 64
/-- The port die of a plane (R41). -/
def pdOf (plane : Nat) : Nat := 5 + plane
/-- The die and the local port of a sub-port. -/
def spDie (sp : Nat) : Nat := pdOf (sp / 64)
/-- The local port number of a sub-port. -/
def spPort (sp : Nat) : Nat := sp / 4 % 16

/-- MODE of a sub-port's port: 1 native, 2 Lanty over Ethernet. -/
def Dev.spMode (d : Dev) (sp : Nat) : Nat := d.fld FAB_PORT_CFG FAB_PORT_CFG_MODE (spDie sp) (spPort sp)
/-- Whether a sub-port is up. -/
def Dev.spUp (d : Dev) (sp : Nat) : Bool := (d.fld FAB_PORT_STATUS FAB_PORT_STATUS_UP (spDie sp) (spPort sp)).testBit (sp % 4)
/-- The package's valid physical ID. -/
def Dev.phys? (d : Dev) : Option Nat := if d.flag FAB_ID FAB_ID_PVALID HD then some (d.fld FAB_ID FAB_ID_PHYS HD) else none
/-- The partner's PHYS of a native sub-port (R552). -/
def Dev.peer? (d : Dev) (sp : Nat) : Option Nat :=
  let v := bitsOf (d.reg FAB_PORT_PEER (spDie sp) (spPort sp)).toNat (16 * (sp % 4)) 16
  if v.testBit 15 then some (v % 2 ^ 15) else none
/-- Whether a sub-port carries transport packets: up, and on a native one both ends hold a valid PHYS (R552). -/
def Dev.carries (d : Dev) (sp : Nat) : Bool := d.spUp sp && (d.spMode sp = 2 || ((d.peer? sp).isSome && d.phys?.isSome))

/-! ## Packets -/

/-- The class of an OP (R550, R557): 0 request, 1 response, 2 collective, 3 control. -/
def opClass (op : Nat) : Nat := if op ≤ 3 then 0 else if op ≤ 6 then 1 else if op = 0x10 then 2 else 3
/-- Whether an OP is defined (R557). -/
def opDefined (op : Nat) : Bool := [1, 2, 3, 4, 5, 6, 8, 9, 0x10, 0x20, 0x21].contains op

/-- The payload bytes a header announces: those of requests with data, of responses with status OK, and of collective
packets (log 30). -/
def payLen (op tag lenm1 : Nat) : Nat :=
  if op = 2 || op = 3 || op = 0x10 then lenm1 + 1 else if (op = 4 || op = 6) && tag % 2 ^ 16 = 0 then lenm1 + 1 else 0

/-- Bytes 0 to 27 of a packet's header (R556). -/
def Pkt.head (p : Pkt) : List Byte :=
  leBytes 1 p.op ++ leBytes 1 (b01 p.tagged + 2 * b01 p.ordered) ++ leBytes 1 p.poison ++ leBytes 1 (p.hops + 16 * b01 p.set) ++
    leBytes 2 p.dstPhys ++ leBytes 2 p.srcPhys ++ leBytes 2 p.dstLog ++ leBytes 2 p.srcLog ++ leBytes 4 p.psn ++
    leBytes 8 (p.addr + p.lenm1 * 2 ^ 41 + p.tid * 2 ^ 50) ++ leBytes 4 p.tag

/-- A packet as bytes (R556). -/
def Pkt.bytes (p : Pkt) : List Byte := p.head ++ leBytes 4 (crc32c (p.head ++ p.payload)) ++ p.payload

/-- The packet whose header and payload stand at the front of some bytes, its length, and whether its CRC is right. -/
def parsePkt (bs : List Byte) : Option (Pkt × Nat × Bool) :=
  if bs.length < 32 then none
  else
    let w := leAt bs 16 8
    let op := leAt bs 0 1
    let tag := leAt bs 24 4
    let n := payLen op tag (bitsOf w 41 9)
    if bs.length < 32 + n then none
    else
      let p : Pkt := {
        op := op, tagged := (leAt bs 1 1).testBit 0, ordered := (leAt bs 1 1).testBit 1, poison := leAt bs 2 1,
        hops := leAt bs 3 1 % 16, set := (leAt bs 3 1).testBit 4, dstPhys := leAt bs 4 2 % 2 ^ 15, srcPhys := leAt bs 6 2 % 2 ^ 15,
        dstLog := leAt bs 8 2 % 2 ^ 15, srcLog := leAt bs 10 2 % 2 ^ 15, psn := leAt bs 12 4, addr := w % 2 ^ 41,
        lenm1 := bitsOf w 41 9, tid := bitsOf w 50 14, tag := tag, payload := (bs.drop 32).take n }
      some (p, 32 + n, crc32c (bs.take 28 ++ p.payload) == leAt bs 28 4)

/-- The virtual channel of a packet (R550). -/
def Pkt.vc (p : Pkt) : Nat := if opClass p.op = 3 then 6 else 2 * opClass p.op + b01 p.set

/-- Bytes of early tagged packets that a port die holds (R82). -/
def Dev.earlyBytes (d : Dev) (plane : Nat) : Nat :=
  (d.u.fab.inq.filter fun e => e.1 = plane && e.2.tagged && 0 < signed 32 ((e.2.tag + 2 ^ 32 - d.beatIdx % 2 ^ 32) % 2 ^ 32)).foldl
    (fun n e => n + 32 + e.2.payload.length) 0
/-- Whether the early-arrival buffer of a port die is full (R82). -/
def Dev.earlyFull (d : Dev) (plane : Nat) : Bool := 32 * 2 ^ 20 ≤ d.earlyBytes plane

/-! ## Native links (R549 to R551) -/

/-- A change of a native sub-port's link layer. -/
def Tr.onSub (sp : Nat) (f : SubPort → SubPort) : Tr := .fabSt fun b => { b with subs := aupd b.subs sp {} f }
/-- A native sub-port's link layer. -/
def Dev.sub (d : Dev) (sp : Nat) : SubPort := agetD d.u.fab.subs sp {}

/-- Bytes leave through a sub-port. -/
def Tr.emit (sp : Nat) (bs : List Byte) : Tr :=
  .seq [.fabSt fun b => { b with tx := b.tx ++ [(sp, bs)] }, .bump FAB_PORT_TX_BYTES (spDie sp) bs.length (spPort sp)]

/-- A flit (R549). -/
def flitBytes (seq type ack : Nat) (nak : Bool) (vc cvc credits : Nat) (payload : List Byte) : List Byte :=
  let b := leBytes 2 (seq % 4096 + type * 4096) ++ leBytes 2 (ack % 4096 + b01 nak * 4096) ++ leBytes 1 vc ++ leBytes 1 cvc ++
    leBytes 2 credits ++ payload ++ List.replicate (244 - payload.length) 0
  b ++ leBytes 4 (crc32c b)

/-- The VC whose credits the next flit returns, with their number: none of the request and collective classes while the
early-arrival buffer is full (R82, R550). -/
def Dev.freedVc (d : Dev) (sp : Nat) : Nat × Nat :=
  (((d.sub sp).freed.filter fun e => e.2 ≠ 0 && !(d.earlyFull (spPlane sp) && (e.1 / 2 = 0 || e.1 / 2 = 2))).head?).getD (0, 0)

/-- A flit leaves, with the ACK and the credits of the moment. -/
def Tr.sendFlit (sp seq type vc : Nat) (nak : Bool) (payload : List Byte) : Tr :=
  .read fun d =>
    let (cvc, n) := d.freedVc sp
    let n := min n 65535
    .seq [
      .onSub sp fun p => { p with freed := aupd p.freed cvc 0 fun x => x - n },
      .emit sp (flitBytes seq type (d.sub sp).rxSeq nak vc cvc n payload)]

/-- An idle flit: it carries the last SEQ, ACK and credits. -/
def Tr.idleFlit (sp : Nat) (nak : Bool) : Tr := .read fun d => .sendFlit sp ((d.sub sp).txSeq + 4095) 0 0 nak []

/-- Flits of the waiting streams leave while their VC has credit and the retry buffer has room; the last flit of a stream
is filled with zero bytes (log 31). -/
def Tr.pushFlits (sp : Nat) : Nat → Tr
  | 0 => .skip
  | fuel + 1 => .read fun d =>
    let p := d.sub sp
    match p.txVc.find? fun e => !e.2.isEmpty && 0 < agetD p.credits e.1 0 with
    | none => .skip
    | some (vc, bs) =>
      if 2048 ≤ p.retry.length || !d.spUp sp then .skip
      else .seq [
        .onSub sp fun p =>
          let fl : Flit := { seq := p.txSeq, type := 1, vc := vc, payload := bs.take 244 }
          { p with
            txVc := tinsert p.txVc vc (bs.drop 244), credits := aupd p.credits vc 0 fun x => x - 1,
            txSeq := (p.txSeq + 1) % 4096, since := if p.retry.isEmpty then d.elapsed else p.since,
            retry := p.retry ++ [fl] },
        .sendFlit sp p.txSeq 1 vc false (bs.take 244), .pushFlits sp fuel]

/-- The flits that a sub-port's streams can still fill. -/
def SubPort.fuel (p : SubPort) : Nat := p.txVc.foldl (fun n e => n + e.2.length) 8

/-- Every flit of the retry buffer leaves again (R551). -/
def Tr.replay (sp : Nat) : Tr :=
  .read fun d => .seq [
    .bump FAB_PORT_REPLAYS (spDie sp) 1 (spPort sp),
    .onSub sp fun p => { p with replays := p.replays + 1, since := d.elapsed },
    .each (d.sub sp).retry fun f => .sendFlit sp f.seq f.type f.vc false f.payload]

/-- Whole packets at the front of a VC's stream, and what is left; zero bytes begin no packet (log 31). -/
def takePackets : Nat → List Byte → List Pkt × List Byte
  | 0, bs => ([], bs)
  | fuel + 1, bs =>
    let bs := bs.dropWhile (· = 0)
    match parsePkt bs with
    | none => ([], bs)
    | some (p, n, ok) =>
      let (ps, rest) := takePackets fuel (bs.drop n)
      (if ok then p :: ps else ps, rest)

/-- ACK covers flits of the retry buffer: they are dropped, and ACK has progressed. -/
def SubPort.acked (p : SubPort) (ack now : Nat) : SubPort :=
  if p.retry.any (·.seq = ack) then
    { p with retry := (p.retry.dropWhile (·.seq ≠ ack)).drop 1, replays := 0, since := now }
  else p

/-- FLIT_RECEIVE (R549 to R551): a flit arrives on a native sub-port, after `uncorr` FEC codewords that could not be
corrected. -/
def flitReceiveTr (sp : SubPortId) (flit : List Byte) (uncorr : BitVec 8) : Tr :=
  .read fun d =>
    let sp := sp.val
    if !d.spUp sp || d.spMode sp ≠ 1 || flit.length ≠ 256 then .skip
    else .seq [.bump FAB_PORT_FEC_UNCORR (spDie sp) uncorr.toNat (spPort sp),
    if crc32c (flit.take 252) ≠ leAt flit 252 4 then .seq [
      .bump FAB_PORT_RX_BYTES (spDie sp) 256 (spPort sp), .bump FAB_PORT_CRC_ERRS (spDie sp) 1 (spPort sp), .idleFlit sp true]
    else
      let seq := leAt flit 0 2 % 4096
      let type := leAt flit 0 2 / 4096
      let ackw := leAt flit 2 2
      let vc := leAt flit 4 1 % 8
      let cvc := leAt flit 5 1 % 8
      .seq [
        .bump FAB_PORT_RX_BYTES (spDie sp) 256 (spPort sp),
        .onSub sp fun p =>
          let p := p.acked (ackw % 4096) d.elapsed
          { p with credits := aupd p.credits cvc 0 fun x => x + leAt flit 6 2 },
        .when (ackw.testBit 12) (.replay sp),
        .when (type = 1 || type = 3)
          (if seq ≠ ((d.sub sp).rxSeq + 1) % 4096 then .idleFlit sp true
          else
            let stream := agetD (d.sub sp).rxVc vc [] ++ (if type = 1 then (flit.drop 8).take 244 else [])
            let (ps, rest) := takePackets stream.length stream
            .seq [
              .onSub sp fun p => { p with
                rxSeq := seq, rxVc := tinsert p.rxVc vc rest,
                freed := if type = 1 then aupd p.freed vc 0 (· + 1) else p.freed },
              .fabSt fun b => { b with rx := b.rx ++ ps.map fun q => (spPlane sp, false, false, q) },
              .idleFlit sp false]),
        .read fun d => .pushFlits sp (d.sub sp).fuel]]
/-- FLIT_RECEIVE. -/
def execFlitReceive (sp : SubPortId) (flit : List Byte) (uncorr : BitVec 8) (s : State) := run (flitReceiveTr sp flit uncorr) s

/-- REPLAY_TIMEOUT (R551): 10 µs without progress of ACK. -/
def replayTimeoutTr (sp : SubPortId) : Tr :=
  .read fun d =>
    let p := d.sub sp.val
    .when (d.spUp sp.val && d.spMode sp.val = 1 && !p.retry.isEmpty && p.since + 10 * oneUs ≤ d.elapsed) (.replay sp.val)
/-- REPLAY_TIMEOUT. -/
def execReplayTimeout (sp : SubPortId) (s : State) := run (replayTimeoutTr sp) s

/-! ## Lanty over Ethernet (R553 to R555; the layouts of Ethernet, IPv4, IPv6, UDP, ARP and neighbour discovery are those
of their standards, log 32) -/

/-- Bytes in network order. -/
def beBytes (n v : Nat) : List Byte := (leBytes n v).reverse
/-- A number in network order. -/
def beAt (bs : List Byte) (o n : Nat) : Nat := leNat ((bs.drop o).take n).reverse

/-- The sum of 16-bit words of the Internet checksum, with its carries folded in. -/
def inetSum : List Byte → Nat → Nat
  | a :: b :: r, n => let s := n + a.toNat * 256 + b.toNat; inetSum r (s % 65536 + s / 65536)
  | [a], n => let s := n + a.toNat * 256; s % 65536 + s / 65536
  | [], n => n
/-- The Internet checksum of bytes. -/
def inetCheck (bs : List Byte) : Nat := 65535 - inetSum bs 0

/-- The address of a package on a plane (R554): the prefix with bits [14:0] replaced. -/
def Dev.ipOf (d : Dev) (plane phys : Nat) : Nat :=
  let p := (d.reg FAB_IP_PREFIX_LO (pdOf plane)).toNat + (d.reg FAB_IP_PREFIX_HI (pdOf plane)).toNat * 2 ^ 64
  p / 2 ^ 15 * 2 ^ 15 + phys

/-- Bytes of an address on a plane: 4 or 16, by IPV6. -/
def Dev.ipBytes (d : Dev) (plane phys : Nat) : List Byte :=
  if d.flag FAB_IP_CFG FAB_IP_CFG_IPV6 (pdOf plane) then beBytes 16 (d.ipOf plane phys) else beBytes 4 (d.ipOf plane phys % 2 ^ 32)

/-- A frame without its FCS: addresses, the tag when VLAN_EN is 1, type and body (R553). -/
def Dev.ethFrame (d : Dev) (sp : Nat) (dst type : Nat) (body : List Byte) : List Byte :=
  let die := spDie sp
  let k := spPort sp
  let f := fun (x : Fld) => d.fld FAB_PORT_CFG x die k
  beBytes 6 dst ++ beBytes 6 (d.fld FAB_PORT_MAC FAB_PORT_MAC_MAC die k) ++
    (if f FAB_PORT_CFG_VLAN_EN = 1 then beBytes 2 0x8100 ++ beBytes 2 (f FAB_PORT_CFG_PCP * 2 ^ 13 + f FAB_PORT_CFG_VID) else []) ++
    beBytes 2 type ++ body

/-- The UDP datagram of a packet, with its checksum. -/
def udpBytes (src dst : List Byte) (sport dport : Nat) (data : List Byte) : List Byte :=
  let n := 8 + data.length
  let h := fun (c : Nat) => beBytes 2 sport ++ beBytes 2 dport ++ beBytes 2 n ++ beBytes 2 c ++ data
  let c := inetCheck (src ++ dst ++ beBytes 2 17 ++ beBytes 2 n ++ h 0)
  h (if c = 0 then 65535 else c)

/-- The frame that carries a packet (R553, R554). -/
def Dev.pktFrame (d : Dev) (sp : Nat) (p : Pkt) : List Byte :=
  let plane := spPlane sp
  let c := fun (x : Fld) => d.fld FAB_IP_CFG x (pdOf plane)
  let src := d.ipBytes plane (d.phys?.getD 0)
  let dst := d.ipBytes plane p.dstPhys
  let u := udpBytes src dst (Config.connHash p.srcPhys p.dstPhys (opClass p.op)).toNat (c FAB_IP_CFG_UDP_PORT) p.bytes
  let tos := c FAB_IP_CFG_DSCP * 4 + 2 * c FAB_IP_CFG_ECN_EN
  let gw := d.fld FAB_PORT_GW FAB_PORT_GW_MAC (spDie sp) (spPort sp)
  if c FAB_IP_CFG_IPV6 = 1 then
    d.ethFrame sp gw 0x86DD (beBytes 4 (6 * 2 ^ 28 + tos * 2 ^ 20) ++ beBytes 2 u.length ++ beBytes 1 17 ++
      beBytes 1 (c FAB_IP_CFG_HOPLIM) ++ src ++ dst ++ u)
  else
    let h := fun (x : Nat) => beBytes 1 0x45 ++ beBytes 1 tos ++ beBytes 2 (20 + u.length) ++ beBytes 2 0 ++ beBytes 2 0x4000 ++
      beBytes 1 (c FAB_IP_CFG_HOPLIM) ++ beBytes 1 17 ++ beBytes 2 x ++ src ++ dst
    d.ethFrame sp gw 0x0800 (h (inetCheck (h 0)) ++ u)

/-- The type and body of a frame addressed to a sub-port's MAC, with the tag its port expects. -/
def Dev.ethBody (d : Dev) (sp : Nat) (frame : List Byte) (any : Bool) : Option (Nat × List Byte) :=
  let die := spDie sp
  let k := spPort sp
  if !any && beAt frame 0 6 ≠ d.fld FAB_PORT_MAC FAB_PORT_MAC_MAC die k then none
  else if d.flag FAB_PORT_CFG FAB_PORT_CFG_VLAN_EN die k then
    if beAt frame 12 2 = 0x8100 && beAt frame 14 2 % 4096 = d.fld FAB_PORT_CFG FAB_PORT_CFG_VID die k then
      some (beAt frame 16 2, frame.drop 18)
    else none
  else some (beAt frame 12 2, frame.drop 14)

/-- The UDP datagram of an IP body addressed to the package, with its source and destination address and whether it is
marked CE. -/
def Dev.ipUdp (d : Dev) (plane type : Nat) (b : List Byte) : Option (List Byte × List Byte × List Byte × Bool) :=
  let own := d.ipBytes plane (d.phys?.getD 0)
  if d.flag FAB_IP_CFG FAB_IP_CFG_IPV6 (pdOf plane) then
    if type = 0x86DD && beAt b 0 1 / 16 = 6 && beAt b 6 1 = 17 && (b.drop 24).take 16 = own then
      some ((b.drop 40).take (beAt b 4 2), (b.drop 8).take 16, own, beAt b 0 2 / 16 % 4 = 3)
    else none
  else if type = 0x0800 && beAt b 0 1 = 0x45 && inetSum (b.take 20) 0 = 65535 && beAt b 6 2 % 2 ^ 14 = 0 && beAt b 9 1 = 17 &&
      (b.drop 16).take 4 = own then
    some ((b.drop 20).take (beAt b 2 2 - 20), (b.drop 12).take 4, own, beAt b 1 1 % 4 = 3)
  else none

/-- The packet of a received frame, and whether it is marked CE. -/
def Dev.framePkt (d : Dev) (sp : Nat) (frame : List Byte) : Option (Pkt × Bool) :=
  match d.ethBody sp frame false with
  | none => none
  | some (type, b) =>
    match d.ipUdp (spPlane sp) type b with
    | none => none
    | some (u, src, dst, ce) =>
      if beAt u 2 2 ≠ d.fld FAB_IP_CFG FAB_IP_CFG_UDP_PORT (spDie sp) || beAt u 4 2 ≠ u.length ||
          (beAt u 6 2 ≠ 0 && inetSum (src ++ dst ++ beBytes 2 17 ++ beBytes 2 u.length ++ u) 0 ≠ 65535) then none
      else match parsePkt (u.drop 8) with
      | some (p, n, true) => if n + 8 = u.length then some (p, ce) else none
      | _ => none

/-- ETH_FRAME_RECEIVE (R553): a frame, without its FCS; `fcsBad`: the FCS does not fit. PAUSE and PFC frames go at once. -/
def ethFrameReceiveTr (sp : SubPortId) (frame : List Byte) (fcsBad : Bool) : Tr :=
  .read fun d =>
    let sp := sp.val
    let die := spDie sp
    if !d.spUp sp || d.spMode sp ≠ 2 then .skip
    else .seq [
      .bump FAB_PORT_RX_BYTES die frame.length (spPort sp),
      if fcsBad || 9212 < frame.length then .bump FAB_RX_DISCARDS die
      else if beAt frame 12 2 = 0x8808 then .skip
      else match d.framePkt sp frame with
        | none => .bump FAB_RX_DISCARDS die
        | some (p, ce) => .fabSt fun b => { b with rx := b.rx ++ [(spPlane sp, true, ce, p)] }]
/-- ETH_FRAME_RECEIVE. -/
def execEthFrameReceive (sp : SubPortId) (frame : List Byte) (fcsBad : Bool) (s : State) := run (ethFrameReceiveTr sp frame fcsBad) s

/-- The answer to an ARP request for the package's own address. -/
def Dev.arpReply (d : Dev) (sp : Nat) (b : List Byte) : Option (List Byte) :=
  let own := beBytes 4 (d.ipOf (spPlane sp) (d.phys?.getD 0) % 2 ^ 32)
  if beAt b 0 8 = 0x0001080006040001 && (b.drop 24).take 4 = own then
    some (d.ethFrame sp (beAt b 8 6) 0x0806 (beBytes 8 0x0001080006040002 ++
      beBytes 6 (d.fld FAB_PORT_MAC FAB_PORT_MAC_MAC (spDie sp) (spPort sp)) ++ own ++ (b.drop 8).take 10))
  else none

/-- The answer to an IPv6 neighbour solicitation for the package's own address. -/
def Dev.ndReply (d : Dev) (sp : Nat) (frame b : List Byte) : Option (List Byte) :=
  let own := beBytes 16 (d.ipOf (spPlane sp) (d.phys?.getD 0))
  if beAt b 0 1 / 16 = 6 && beAt b 6 1 = 58 && beAt b 40 1 = 135 && (b.drop 48).take 16 = own then
    let asker := (b.drop 8).take 16
    let m := fun (c : Nat) => beBytes 1 136 ++ beBytes 1 0 ++ beBytes 2 c ++ beBytes 4 0x60000000 ++ own ++ beBytes 2 0x0201 ++
      beBytes 6 (d.fld FAB_PORT_MAC FAB_PORT_MAC_MAC (spDie sp) (spPort sp))
    let c := inetCheck (own ++ asker ++ beBytes 4 32 ++ beBytes 4 58 ++ m 0)
    some (d.ethFrame sp (beAt frame 6 6) 0x86DD (beBytes 4 0x60000000 ++ beBytes 2 32 ++ beBytes 1 58 ++ beBytes 1 255 ++ own ++ asker ++ m c))
  else none

/-- ARP_REQUEST (R554): the device answers requests for its own address on each port. -/
def arpRequestTr (sp : SubPortId) (frame : List Byte) : Tr :=
  .read fun d =>
    let sp := sp.val
    let v6 := d.flag FAB_IP_CFG FAB_IP_CFG_IPV6 (spDie sp)
    .when (d.spUp sp && d.spMode sp = 2 && d.phys?.isSome) (.opt (d.ethBody sp frame true) fun (type, b) =>
      .opt (if type = 0x0806 && !v6 then d.arpReply sp b else if type = 0x86DD && v6 then d.ndReply sp frame b else none) fun r =>
        .emit sp r)
/-- ARP_REQUEST. -/
def execArpRequest (sp : SubPortId) (frame : List Byte) (s : State) := run (arpRequestTr sp frame) s

end Sys2Proof.Machine
end

