-- ==== Sys2Proof/Machine/Fabric.lean ====
section
/-! DEFINITION. The Lanty transport: identities, routes, connections, requests and responses, losing partners, notices
(R543 to R548, R552, R555 to R564, R582 to R586). -/

namespace Sys2Proof.Machine

/-! ## Routes and connections -/

/-- The physical ID that a plane's remap table gives a logical ID; none without VALID (R546). -/
def Dev.remap? (d : Dev) (plane l : Nat) : Option Nat :=
  if d.flag FAB_REMAP FAB_REMAP_VALID (pdOf plane) l then some (d.fld FAB_REMAP FAB_REMAP_PHYS (pdOf plane) l) else none
/-- Whether a logical ID is marked lost on a plane (R583). -/
def Dev.lost (d : Dev) (plane l : Nat) : Bool := (d.reg FAB_LOST (pdOf plane) (l / 64)).toNat.testBit (l % 64)

/-- The sub-ports that can take a packet for a physical ID (R547, R552). -/
def Dev.routes (d : Dev) (plane phys : Nat) : List Nat :=
  ((setBits 64 (d.reg FAB_ROUTE (pdOf plane) phys).toNat).map (64 * plane + ·)).filter fun sp => d.carries sp

/-- Credits of a sub-port for a VC; one in Ethernet mode has no credits, and counts as having a full share (log 34). -/
def Dev.spCredit (d : Dev) (sp vc : Nat) : Nat := if d.spMode sp = 2 then 4096 else agetD (d.sub sp).credits vc 0

/-- The sub-port chosen for a packet: most credits, ties in round robin (R547). -/
def Dev.pick (d : Dev) (plane phys vc : Nat) : Option Nat :=
  let sps := d.routes plane phys
  let best := sps.foldl (fun m sp => max m (d.spCredit sp vc)) 0
  let top := sps.filter fun sp => d.spCredit sp vc = best
  match top.find? fun sp => agetD d.u.fab.rr plane (64 * plane) < sp with
  | some sp => some sp
  | none => top.head?

/-- A packet leaves on its route; `k false` when no sub-port of the mask is up (R547). A port with DATELINE moves it to VC
set 1 (R548). -/
def Tr.transmit (plane : Nat) (p : Pkt) (k : Bool → Tr) : Tr :=
  .read fun d =>
    match d.pick plane p.dstPhys p.vc with
    | none => k false
    | some sp =>
      let p := if d.flag FAB_PORT_CFG FAB_PORT_CFG_DATELINE (spDie sp) (spPort sp) then { p with set := true } else p
      .seq [
        .fabSt fun b => { b with rr := tinsert b.rr plane sp },
        if d.spMode sp = 2 then .emit sp (d.pktFrame sp p)
        else .seq [
          .onSub sp fun x => { x with txVc := aupd x.txVc p.vc [] fun bs => bs ++ p.bytes },
          .read fun d => .pushFlits sp (d.sub sp).fuel],
        k true]

/-- The sending side of a connection. -/
def FabSt.conn? (b : FabSt) (plane phys cls : Nat) : Option Conn :=
  b.conns.find? fun c => c.plane = plane && c.phys = phys && c.cls = cls
/-- A change of the sending sides that satisfy `p`. -/
def FabSt.onConns (b : FabSt) (p : Conn → Bool) (f : Conn → Conn) : FabSt :=
  { b with conns := b.conns.map fun c => if p c then f c else c }
/-- A change of one sending side. -/
def Tr.onConn (plane phys cls : Nat) (f : Conn → Conn) : Tr :=
  .fabSt fun b => b.onConns (fun c => c.plane = plane && c.phys = phys && c.cls = cls) f

/-- The package's part of a packet's header (R548, R556). -/
def Dev.stamp (d : Dev) (plane : Nat) (p : Pkt) : Pkt :=
  { p with hops := d.fld FAB_CTL FAB_CTL_HOP_LIMIT (pdOf plane), srcPhys := d.phys?.getD 0, srcLog := d.ownId }

/-- A packet of the package's own is sent on its connection (R555, R558): it takes the next PSN, waits for the window in
Ethernet mode, and is kept until acknowledged. Control packets are not numbered, kept or acknowledged (log 35). -/
def Tr.sendConn (plane : Nat) (p : Pkt) (k : Bool → Tr) : Tr :=
  .read fun d =>
    let p := d.stamp plane p
    let cls := opClass p.op
    if cls = 3 then .transmit plane p k
    else
      let fresh : Conn := { plane := plane, phys := p.dstPhys, cls := cls, window := d.fld FAB_TP_CFG FAB_TP_CFG_WINDOW (pdOf plane) }
      let c := (d.u.fab.conn? plane p.dstPhys cls).getD fresh
      let p := { p with psn := c.psn }
      let open_ : Tr := .fabSt fun b => if (b.conn? plane p.dstPhys cls).isSome then b else { b with conns := b.conns ++ [fresh] }
      let next := fun (f : Conn → Conn) => Tr.onConn plane p.dstPhys cls fun c => f { c with psn := (c.psn + 1) % 2 ^ 32 }
      match d.pick plane p.dstPhys p.vc with
      | none => k false
      | some sp =>
        if d.spMode sp = 2 && (c.window ≤ c.kept.length || !c.queue.isEmpty) then
          .seq [open_, next fun c => { c with queue := c.queue ++ [p] }, k true]
        else .seq [
          open_, next fun c => { c with kept := c.kept ++ [{ pkt := p, since := d.elapsed }] },
          .transmit plane p k]

/-- Packets that waited for the window of a connection leave while it has room (R555). -/
def Tr.windowGo (plane phys cls : Nat) : Nat → Tr
  | 0 => .skip
  | fuel + 1 => .read fun d => .opt (d.u.fab.conn? plane phys cls) fun c =>
    match c.queue with
    | [] => .skip
    | p :: ps => .when (c.kept.length < c.window) (.seq [
        .onConn plane phys cls fun c => { c with queue := ps, kept := c.kept ++ [{ pkt := p, since := d.elapsed }] },
        .transmit plane p fun _ => .skip, .windowGo plane phys cls fuel])

/-- An answer of the control class to a packet: ACK or NAK. An ACK names the last PSN passed on, a NAK the packet's; ADDR
names the connection's class and destination; TAG holds reason and status, or bit 24 the CE echo (log 35). -/
def Tr.control (plane op : Nat) (p : Pkt) (psn tag : Nat) : Tr :=
  .sendConn plane { op := op, dstPhys := p.srcPhys, dstLog := p.srcLog, psn := psn, addr := opClass p.op + 4 * p.dstPhys,
                    tid := p.tid, tag := tag } fun _ => .skip

/-- NAK of a packet (R557). Nothing answers a control packet. -/
def Tr.nak (plane reason : Nat) (p : Pkt) : Tr :=
  .when (opClass p.op ≠ 3) (.control plane 9 p p.psn (reason * 2 ^ 16 + if reason = 5 then stOK else stPARTNER_LOST))

/-! ## Notices (R586) -/

/-- Bytes 0 to 23 of a notice. -/
def Dev.noticeBytes (d : Dev) (kind reason subject port : Nat) : List Byte :=
  leBytes 8 d.nowNs ++ leBytes 1 kind ++ leBytes 1 reason ++ leBytes 2 d.ownId ++ leBytes 2 subject ++ leBytes 2 port ++
    leBytes 8 d.beatIdx

/-- The address of the notice with number `n`. -/
def Dev.noticeAddr (d : Dev) (plane n : Nat) : Nat :=
  let r := fun (f : Fld) => d.fld FAB_FM_RING f (pdOf plane)
  r FAB_FM_RING_BASE * 64 + 64 + n % 2 ^ r FAB_FM_RING_SIZE_LOG2 * 32

/-- A notice could not be written. -/
def Tr.noticeLost (plane : Nat) : Tr := .bump FAB_NOTICES_LOST (pdOf plane)

/-- The record of a notice whose number is known: ORDERED writes, SEQ last. -/
def Tr.noticeRecord (plane n : Nat) (rec24 : List Byte) : Tr :=
  .read fun d =>
    let a := d.noticeAddr plane n
    let seq := leBytes 8 (n + 1)
    if d.isRemote a then
      let w := fun (ga : Nat) (bs : List Byte) (last : Bool) => Tr.post (pdOf plane)
        { plane := plane, op := 2, dst := pkgOf ga, la := localOf ga, len := bs.length, data := bs, ordered := true, own := .record plane last }
      .seq [w a rec24 false, w (a + 24) seq true]
    else .cohWrite agFabric (pdOf plane) (localOf a) rec24 (fun _ => false) fun st =>
      if st ≠ stOK then .noticeLost plane
      else .cohWrite agFabric (pdOf plane) (localOf a + 24) seq (fun _ => false) fun st =>
        if st ≠ stOK then .noticeLost plane else .bump FAB_NOTICES (pdOf plane)

/-- A port die sends a notice: its number comes from a far ATOMIC ADD of 1 on the counter at BASE. -/
def Tr.fabNotice (plane kind reason subject port : Nat) : Tr :=
  .read fun d =>
    let base := d.fld FAB_FM_RING FAB_FM_RING_BASE (pdOf plane) * 64
    let r := d.noticeBytes kind reason subject port
    if !d.flag FAB_FM_RING FAB_FM_RING_EN (pdOf plane) then .noticeLost plane
    else if d.isRemote base then
      .post (pdOf plane) { plane := plane, op := 3, dst := pkgOf base, la := localOf base, len := 24,
                           data := leBytes 8 0x102 ++ leBytes 8 1 ++ leBytes 8 0, own := .notice plane r }
    else .farAtomic (pdOf plane) agFabric (localOf base) 2 true 1 0 fun st old =>
      if st ≠ stOK then .noticeLost plane else .noticeRecord plane old r

/-- A package-wide notice: PD0 sends it, or PD1 while PD0's ring is disabled. -/
def Tr.packageNotice (kind reason subject port : Nat) : Tr :=
  .read fun d => .fabNotice (if d.flag FAB_FM_RING FAB_FM_RING_EN (pdOf 0) then 0 else 1) kind reason subject port

/-! ## How a request ends -/

/-- A thread's load request gets its data or its status. -/
def Tr.loadReturn (op i st : Nat) (bs : List Byte) (psn : List Nat) : Tr :=
  .read fun d => .opt (d.op? op) fun o =>
    match o.kind with
    | .ra va => .runAheadArrive o va st bs (!psn.isEmpty)
    | .ifetch => .ifetchArrive o (if st = stOK && !psn.isEmpty then stPOISON_CONSUMED else st) bs
    | _ => .seq [.arrive op i st bs psn, .pump o.pk]

/-- The offsets of poisoned sectors that POISON names. -/
def poisonOffs (poison : Nat) : List Nat := (setBits 8 poison).map (64 * ·)

/-- A transport request has ended with a status and data (R559, R568, R586). -/
def Tr.ended (q : TReq) (st : Nat) (bs : List Byte) (poison : Nat) : Tr :=
  let gone : Tr := .fabSt fun b => { b with reqs := b.reqs.erase q }
  match q.own with
  | .thread op i => .seq [gone, if q.op = 1 then .loadReturn op i st bs (poisonOffs poison) else .stored op i st]
  | .chunk .. => .fabSt fun b => { b with
      reqs := b.reqs.map fun x => if x = q then { x with done := some st, data := bs, poison := poison } else x }
  | .cmd id => .seq [gone, .read fun d => .opt (d.u.cmd.cmds.find? (·.seqNo = id)) fun c =>
      if c.op = 0x18 then .complete c st (if st = stOK then leNat bs else 0)
      else if c.op = 0x30 && st ≠ stOK then .fresh fun i => .complete c st (Config.freeWord i).toNat
      else .complete c st (if c.op = 0x30 then c.at 24 8 else 0)]
  | .notice plane r => .seq [gone, if st = stOK then .noticeRecord plane (leNat bs) r else .noticeLost plane]
  | .record plane last => .seq [gone,
      if st ≠ stOK then .noticeLost plane else .when last (.bump FAB_NOTICES (pdOf plane))]
  | .nobody => gone

/-! ## Collectives end with an abort (R580); their work is in Machine/Collective.lean -/

/-- Bytes of a collective packet before its data: digest, phase, kind (0 data, 1 abort), then the message's length or the
abort's status, and the offset of its data (log 33). -/
def collHead (digest phase kind len off : Nat) : List Byte :=
  leBytes 4 digest ++ leBytes 2 phase ++ leBytes 2 kind ++ leBytes 8 len ++ leBytes 8 off

/-- A collective packet to a member, by logical ID; `k false` when it cannot be sent. -/
def Tr.collSend (plane collId l : Nat) (payload : List Byte) (k : Bool → Tr) : Tr :=
  .read fun d =>
    match d.remap? plane l with
    | none => k false
    | some phys => .seq [
        .bump COLL_TX_BYTES (pdOf plane) (payload.length - 24),
        .sendConn plane { op := 0x10, tagged := true, dstPhys := phys, dstLog := l, addr := collId, lenm1 := payload.length - 1,
                          tag := d.beatIdx % 2 ^ 32, payload := payload } k]

/-- COLL_STATUS of a port die. -/
def Tr.collRegs (plane : Nat) : Tr :=
  .read fun d => .seq [
    .fld COLL_STATUS COLL_STATUS_POSTED (pdOf plane) (d.u.fab.colls.filter (·.plane = plane)).length,
    .fld COLL_STATUS COLL_STATUS_RECORDED (pdOf plane) (d.u.fab.fwd.filter (·.plane = plane)).length]

/-- A posted collective ends with a status; a member that meets it itself tells every other (R580). -/
def Tr.collAbort (c : Coll) (st : Nat) (tell : Bool) : Tr :=
  .read fun d => .opt (d.u.cmd.cmds.find? (·.seqNo = c.cmd)) fun cmd => .seq [
    .fabSt fun b => { b with colls := b.colls.filter (·.cmd ≠ c.cmd) },
    .when tell (.each c.group fun l => .when (l ≠ d.ownId && !d.lost c.plane l)
      (.collSend c.plane (cmd.at 16 4) l (collHead c.digest c.phase 1 st 0) fun _ => .skip)),
    .bump COLL_ABORTED (pdOf c.plane), .collRegs c.plane, .complete cmd st 0]

/-! ## Losing partners (R582 to R585) -/

/-- FAB_STATUS.LOST of a port die. -/
def Tr.lostCount (plane : Nat) : Tr :=
  .read fun d => .fld FAB_STATUS FAB_STATUS_LOST (pdOf plane)
    ((List.range 512).foldl (fun n i => n + popCount 64 (d.reg FAB_LOST (pdOf plane) i).toNat) 0)

/-- The lost mark of a logical ID on a plane. -/
def Tr.markLost (plane l : Nat) (b : Bool) : Tr :=
  .read fun d => .seq [
    .reg FAB_LOST (pdOf plane) (w64 (putBits (d.reg FAB_LOST (pdOf plane) (l / 64)).toNat (l % 64) 1 (b01 b))) (l / 64),
    .lostCount plane]

/-- A partner is declared lost by the port die of a plane (R583): marked on both port dies, a notice, and everything that
names it ends with PARTNER_LOST. -/
def Tr.partnerLost (plane l : Nat) : Tr :=
  .read fun d =>
    if d.lost plane l then .skip
    else .seq [
      .markLost 0 l true, .markLost 1 l true, .bump FAB_LOSSES (pdOf plane),
      .fabSt fun b => { b with
        conns := b.conns.filter fun c => some c.phys ≠ d.remap? c.plane l,
        hb := b.hb.filter (·.logical ≠ l) },
      .each (d.u.fab.reqs.filter fun q => q.dst = l && q.done.isNone) fun q => .ended q stPARTNER_LOST [] 0,
      .each (d.u.fab.colls.filter fun c => c.group.contains l) fun c => .collAbort c stPARTNER_LOST true,
      .when (d.flag CKPT_CFG CKPT_CFG_ARMED HD && d.fld CKPT_CFG CKPT_CFG_NEIGHBOUR HD = l)
        (.onMaq fun m => { m with failed := some stPARTNER_LOST }),
      .fabNotice plane 2 0 l 0xFFFF]

/-- The partners that a port die watches (R582): those with unacknowledged packets, members of its collectives, and the
valid FAB_WATCH entries; the package itself is none, and one marked lost is no longer watched. -/
def Dev.watched (d : Dev) (plane : Nat) : List Nat :=
  let kept := (d.u.fab.conns.filter (·.plane = plane)).flatMap fun c => c.kept.map (·.pkt.dstLog)
  let members := (d.u.fab.colls.filter (·.plane = plane)).flatMap (·.group)
  let regs := (List.range 64).filterMap fun w =>
    if d.flag FAB_WATCH FAB_WATCH_VALID (pdOf plane) w then some (d.fld FAB_WATCH FAB_WATCH_LOGICAL (pdOf plane) w) else none
  (kept ++ members ++ regs).eraseDups.filter fun l => l ≠ d.ownId && !d.lost plane l

/-- A packet of a kind of the control class to a partner by logical ID. -/
def Tr.controlTo (plane op l tag : Nat) : Tr :=
  .read fun d => .opt (d.remap? plane l) fun phys =>
    .sendConn plane { op := op, dstPhys := phys, dstLog := l, tag := tag } fun _ => .skip

/-- ANNOUNCE from both port dies to every watched partner and every direct link partner (R584). -/
def Tr.announce (reason : Nat) : Tr :=
  .each [0, 1] fun plane => .read fun d => .seq [
    .each (d.watched plane) fun l => .controlTo plane 0x21 l (reason * 2 ^ 16),
    .each ((List.range 64).map (64 * plane + ·)) fun sp => .when (d.carries sp && d.spMode sp = 1) (.opt (d.peer? sp) fun phys =>
      .sendConn plane { op := 0x21, dstPhys := phys, dstLog := (d.sub sp).peerLog, tag := reason * 2 ^ 16 } fun _ => .skip)]

/-- Watched partners whose route mask has no sub-port that is up are lost (R583). -/
def Tr.unreachable (plane : Nat) : Tr :=
  .read fun d => .each ((d.watched plane).filter fun l => match d.remap? plane l with
    | some phys => (d.routes plane phys).isEmpty
    | none => false) fun l => .partnerLost plane l

/-! ## Ports (R539, R542, R551, R552) -/

/-- FAB_STATUS.SUBPORTS_UP of a port die. -/
def Tr.upCount (plane : Nat) : Tr :=
  .read fun d => .fld FAB_STATUS FAB_STATUS_SUBPORTS_UP (pdOf plane)
    ((List.range 16).foldl (fun n k => n + popCount 4 (d.fld FAB_PORT_STATUS FAB_PORT_STATUS_UP (pdOf plane) k)) 0)

/-- Bit s of UP. -/
def Tr.spSetUp (sp : Nat) (b : Bool) : Tr :=
  .read fun d => .seq [
    .fld FAB_PORT_STATUS FAB_PORT_STATUS_UP (spDie sp)
      (putBits (d.fld FAB_PORT_STATUS FAB_PORT_STATUS_UP (spDie sp) (spPort sp)) (sp % 4) 1 (b01 b)) (spPort sp),
    .upCount (spPlane sp)]

/-- The known partner of a sub-port. -/
def Tr.setPeer (sp : Nat) (phys : Option Nat) : Tr :=
  .read fun d => .reg FAB_PORT_PEER (spDie sp) (w64 (putBits (d.reg FAB_PORT_PEER (spDie sp) (spPort sp)).toNat (16 * (sp % 4)) 16
    (match phys with | some p => 2 ^ 15 + p | none => 0))) (spPort sp)

/-- A sub-port goes down: its retry buffer is discarded, and a notice says so (R551, R586). -/
def Tr.subDown (sp : Nat) : Tr :=
  .read fun d => .when (d.spUp sp) (.seq [
    .spSetUp sp false, .setPeer sp none,
    .bump FAB_PORT_DOWNS (spDie sp) 1 (spPort sp),
    .fabSt fun b => { b with subs := terase b.subs sp },
    .unreachable (spPlane sp),
    .fabNotice (spPlane sp) 3 0 0xFFFF sp])

/-- SUBPORT_DOWN (R551): 16 consecutive replays without progress, or the PCS out of block lock for 1 ms. -/
def subportDownTr (sp : SubPortId) (unlocked : Bool) : Tr :=
  .read fun d => .when (unlocked || (d.spMode sp.val = 1 && 16 ≤ (d.sub sp.val).replays)) (.subDown sp.val)
/-- SUBPORT_DOWN. -/
def execSubportDown (sp : SubPortId) (unlocked : Bool) (s : State) := run (subportDownTr sp unlocked) s

/-- The logical lanes of a sub-port under a SPLIT; none where the split has no such sub-port (R539). -/
def splitLanes (split s : Nat) : Option (Nat × Nat) :=
  match split, s with
  | 0, 0 => some (0, 8)
  | 1, 0 => some (0, 4)
  | 1, 2 => some (4, 4)
  | 2, 0 => some (0, 4)
  | 2, 2 => some (4, 2)
  | 2, 3 => some (6, 2)
  | 3, s => if s < 4 then some (2 * s, 2) else none
  | _, _ => none

/-- FABRIC_LINK_UP (R539, R550, R552): a sub-port has trained; a native one has exchanged identities and credits. After a
retrain the link layer goes on where it was (R542). `lanes`: trained lanes of the port. -/
def fabricLinkUpTr (sp : SubPortId) (lanes : BitVec 8) (phys logical : BitVec 15) (credits : List (BitVec 16)) : Tr :=
  .read fun d =>
    let sp := sp.val
    let die := spDie sp
    let k := spPort sp
    if d.spUp sp || d.spMode sp = 0 || (splitLanes (d.fld FAB_PORT_CFG FAB_PORT_CFG_SPLIT die k) (sp % 4)).isNone then .skip
    else .seq [
      .fld FAB_PORT_STATUS FAB_PORT_STATUS_LANES_OK die lanes.toNat k,
      .when (d.spMode sp = 1) (.seq [
        .setPeer sp (some phys.toNat),
        .onSub sp fun p => { p with
          peerLog := logical.toNat, since := d.elapsed,
          credits := credits.zipIdx.foldl (fun t c => if c.2 < 7 then tinsert t c.2 c.1.toNat else t) [] }]),
      .spSetUp sp true,
      .read fun d => .when (d.spMode sp = 1 && !(d.sub sp).retry.isEmpty) (.each (d.sub sp).retry fun f =>
        .sendFlit sp f.seq f.type f.vc false f.payload),
      .read fun d => .when (d.spMode sp = 1) (.pushFlits sp (d.sub sp).fuel)]
/-- FABRIC_LINK_UP. -/
def execFabricLinkUp (sp : SubPortId) (lanes : BitVec 8) (phys logical : BitVec 15) (credits : List (BitVec 16)) (s : State) :=
  run (fabricLinkUpTr sp lanes phys logical credits) s

/-- A port retrains: RETRAINS counts, wrapping. -/
def Tr.retrain (die k : Nat) : Tr :=
  .read fun d => .fld FAB_PORT_STATUS FAB_PORT_STATUS_RETRAINS die ((d.fld FAB_PORT_STATUS FAB_PORT_STATUS_RETRAINS die k + 1) % 65536) k

/-- PORT_CFG_WRITE (R539, R587): a write of FAB_PORT_CFG_k; MODE 3 is discarded; a change of MODE or SPLIT takes the port
down and retrains it. -/
def portCfgWriteTr (port : PortId) (v : Word) : Tr :=
  .read fun d =>
    let die := pdOf (port.val / 16)
    let k := port.val % 16
    let old := fun (f : Fld) => d.fld FAB_PORT_CFG f die k
    let mode := FAB_PORT_CFG_MODE.get v
    let mode := if mode = 3 then old FAB_PORT_CFG_MODE else mode
    let change := mode ≠ old FAB_PORT_CFG_MODE || FAB_PORT_CFG_SPLIT.get v ≠ old FAB_PORT_CFG_SPLIT
    .seq [
      .when change (.seq [
        .each [0, 1, 2, 3] fun s => .subDown (4 * port.val + s),
        .fld FAB_PORT_STATUS FAB_PORT_STATUS_DEGRADED die 0 k, .fld FAB_PORT_STATUS FAB_PORT_STATUS_LANES_OK die 0 k, .retrain die k]),
      .writeReg FAB_PORT_CFG die v k, .fld FAB_PORT_CFG FAB_PORT_CFG_MODE die mode k]
/-- PORT_CFG_WRITE. -/
def execPortCfgWrite (port : PortId) (v : Word) (s : State) := run (portCfgWriteTr port v) s

/-- FAB_ID_WRITE (R545): discarded as a whole while RUN is 1. -/
def fabIdWriteTr (v : Word) : Tr :=
  .read fun d => .when (!d.runBit) (.seq [
    .writeReg FAB_ID HD v,
    .each [5, 6] fun die => .fld FAB_STATUS FAB_STATUS_ID_VALID die (b01 (v.toNat.testBit 15 && v.toNat.testBit 31))])
/-- FAB_ID_WRITE. -/
def execFabIdWrite (v : Word) (s : State) := run (fabIdWriteTr v) s

/-- FAB_REMAP_WRITE (R546, R585): the entry, and the lost mark of its port die goes. -/
def fabRemapWriteTr (pd : PDie) (l : BitVec 15) (v : Word) : Tr :=
  .seq [.writeReg FAB_REMAP (pdOf pd.val) v l.toNat, .markLost pd.val l.toNat false]
/-- FAB_REMAP_WRITE. -/
def execFabRemapWrite (pd : PDie) (l : BitVec 15) (v : Word) (s : State) := run (fabRemapWriteTr pd l v) s

/-! ## Sending requests (R544, R546, R559, R562) -/

/-- A line of a remote line buffer that a read may take. -/
def Dev.rlbLine (d : Dev) (plane dst line : Nat) : Option RlbLine :=
  d.u.fab.rlb.find? fun e => e.plane = plane && e.dst = dst && e.line = line &&
    d.elapsed < e.since + d.fld FAB_CTL FAB_CTL_RLB_NS (pdOf plane) * oneNs

/-- The bytes of a read that the remote line buffer holds (R562). -/
def Dev.rlbRead (d : Dev) (q : TReq) : Option (List Byte) :=
  if !d.flag FAB_CTL FAB_CTL_RLB_EN (pdOf q.plane) then none
  else (sectorsOf q.la q.len).foldl (fun acc s => match acc, d.rlbLine q.plane q.dst (s / 64) with
    | some bs, some e =>
      let lo := max s q.la
      some (bs ++ (e.bytes.drop (lo - s)).take (min (s + 64) (q.la + q.len) - lo))
    | _, _ => none) (some [])

/-- Lines of a range leave a remote line buffer. -/
def FabSt.rlbDrop (b : FabSt) (plane dst la len : Nat) : FabSt :=
  { b with rlb := b.rlb.filter fun e => !(e.plane = plane && e.dst = dst && la / 64 ≤ e.line && e.line * 64 < la + len) }

/-- A request that is ready is sent, ends at once, or is answered by the remote line buffer. -/
def Tr.sendRequest (q : TReq) : Tr :=
  .read fun d =>
    let hit := if q.op = 1 then d.rlbRead q else none
    let used := d.u.fab.reqs.filterMap fun x => if x.plane = q.plane then x.tid else none
    match d.remap? q.plane q.dst with
    | none => .ended q stPARTNER_LOST [] 0
    | some phys =>
      if d.lost q.plane q.dst then .ended q stPARTNER_LOST [] 0
      else match hit with
      | some bs => .seq [.bump FAB_RLB_HITS (pdOf q.plane) (sectorsOf q.la q.len).length, .ended q stOK bs 0]
      | none =>
        match (List.range (used.length + 1)).find? fun i => !used.contains ((d.u.fab.nextTid + i) % 2 ^ 14) with
        | none => .skip
        | some i =>
          if 2 ^ 14 ≤ i then .skip
          else
            let tid := (d.u.fab.nextTid + i) % 2 ^ 14
            let p : Pkt := {
              op := q.op, tagged := q.tagged, ordered := q.ordered, poison := q.poison, dstPhys := phys, dstLog := q.dst, addr := q.la,
              lenm1 := q.len - 1, tid := tid, tag := if q.tagged then d.beatIdx % 2 ^ 32 else 0,
              payload := if q.op = 1 then [] else q.data }
            .seq [
              .when (q.op ≠ 1) (.fabSt fun b => b.rlbDrop q.plane q.dst q.la q.len),
              .fabSt fun b => { b with
                nextTid := tid + 1, reqs := b.reqs.map fun x => if x = q then { x with tid := some tid } else x },
              .sendConn q.plane p fun ok => .when (!ok) (.ended { q with tid := some tid } stPARTNER_LOST [] 0)]

/-- TRANSPORT_REQUEST_SEND (R559): a request of a thread to another package, or one that another unit has made. -/
def transportRequestSendTr (who : Sender) : Tr :=
  .read fun d =>
    match who with
    | .queued i => .opt (d.u.fab.reqs[i]?) fun q => .when (q.tid.isNone && q.done.isNone) (.sendRequest q)
    | .thread op i => .opt (d.op? op) fun o => .opt (o.reqs[i]?) fun r =>
        let write := o.kind.stores && !r.idx
        let q : TReq := {
          plane := o.pk / 168 / 2, op := if write then 2 else 1, dst := pkgOf r.pa, la := localOf r.pa, len := r.len,
          data := if write then r.data else [], poison := poisonMask (r.psn.map (64 * ·)) 0 r.len, own := .thread op i }
        .when (r.st = .sent && d.isRemote r.pa && !d.u.fab.reqs.any (fun x => x.own = q.own) && !(write && d.storeBlocked o i r)) (.seq [
          .fabSt fun b => { b with reqs := b.reqs ++ [q] }, .sendRequest q])
/-- TRANSPORT_REQUEST_SEND. -/
def execTransportRequestSend (who : Sender) (s : State) := run (transportRequestSendTr who) s

/-! ## Accepting packets (R543, R545, R548, R558, R585) -/

/-- An answer from a partner: the counts of R558 and R583 start again. -/
def Tr.heard (plane phys l : Nat) : Tr :=
  .fabSt fun b =>
    let b := b.onConns (fun c => c.plane = plane && c.phys = phys) fun c =>
      { c with tries := 0, kept := c.kept.map fun k => { k with again := false } }
    { b with hb := b.hb.map fun h => if h.plane = plane && h.logical = l then { h with waiting := false, misses := 0 } else h }

/-- The receiving side of a connection. -/
def FabSt.rconn (b : FabSt) (plane phys cls : Nat) : RConn :=
  (b.rconns.find? fun c => c.plane = plane && c.phys = phys && c.cls = cls).getD { plane := plane, phys := phys, cls := cls }
/-- The receiving side of a connection := c. -/
def FabSt.setRconn (b : FabSt) (c : RConn) : FabSt :=
  { b with rconns := (b.rconns.filter fun x => !(x.plane = c.plane && x.phys = c.phys && x.cls = c.cls)) ++ [c] }

/-- ACK of a connection's packets passed on so far. -/
def Tr.sendAck (plane phys cls l : Nat) : Tr :=
  .read fun d =>
    let c := d.u.fab.rconn plane phys cls
    .seq [
      .fabSt fun b => b.setRconn { c with unacked := 0, ce := false },
      .sendConn plane { op := 8, dstPhys := phys, dstLog := l, psn := (c.psn + 2 ^ 32 - 1) % 2 ^ 32, addr := cls + 4 * d.phys?.getD 0,
                        tag := b01 c.ce * 2 ^ 24 } fun _ => .skip]

/-- Packets that waited ahead of their PSN are passed on as far as they follow one another. -/
def passAhead (plane : Nat) : Nat → RConn → List (Nat × Pkt) → RConn × List (Nat × Pkt)
  | 0, c, out => (c, out)
  | fuel + 1, c, out =>
    match c.ahead.find? (·.psn = c.psn) with
    | none => (c, out)
    | some p => passAhead plane fuel
        { c with psn := (c.psn + 1) % 2 ^ 32, ahead := c.ahead.filter (·.psn ≠ c.psn), unacked := c.unacked + 1 } (out ++ [(plane, p)])

/-- Whether a packet's tag is ahead of the package's B (R81, R564). -/
def Dev.early (d : Dev) (p : Pkt) : Bool := p.tagged && 0 < signed 32 ((p.tag + 2 ^ 32 - d.beatIdx % 2 ^ 32) % 2 ^ 32)

/-- A packet for this package with the right identities is passed on in PSN order, or kept ahead, or is a duplicate. -/
def Tr.accept (plane : Nat) (ce : Bool) (p : Pkt) : Tr :=
  .read fun d =>
    let cls := opClass p.op
    if cls = 3 then .fabSt fun b => { b with inq := b.inq ++ [(plane, p)] }
    else
      let c := d.u.fab.rconn plane p.srcPhys cls
      let ahead := signed 32 ((p.psn + 2 ^ 32 - c.psn) % 2 ^ 32)
      let c := { c with ce := c.ce || ce, since := if c.unacked = 0 then d.elapsed else c.since }
      if ahead < 0 then .fabSt fun b => b.setRconn { c with unacked := c.unacked + 1 }
      else
        let had := c.ahead.any (·.psn = p.psn)
        let (c, out) := passAhead plane (c.ahead.length + 1) { c with ahead := if had then c.ahead else c.ahead ++ [p] } []
        .seq [
          .fabSt fun b => { b.setRconn c with inq := b.inq ++ out },
          .bump BEAT_EARLY_COUNT HD (out.filter fun e => d.early e.2).length,
          .when (8 ≤ c.unacked) (.sendAck plane p.srcPhys cls p.srcLog)]

/-- TRANSPORT_PACKET_ACCEPT: the oldest packet that a port die has received. `room`: the die has room for it (R558). -/
def transportPacketAcceptTr (pd : PDie) (room : Bool) : Tr :=
  .read fun d =>
    let plane := pd.val
    let die := pdOf plane
    .opt (d.u.fab.rx.find? (·.1 = plane)) fun (pl, eth, ce, p) =>
      let take : Tr := .fabSt fun b => { b with rx := b.rx.erase (pl, eth, ce, p) }
      if !(d.phys?.isSome && d.idValid) then .seq [take, .nak plane 3 p]
      else if some p.dstPhys ≠ d.phys? then .seq [take,
        if p.hops = 0 then .seq [.bump FAB_HOPS_EXPIRED die, .nak plane 4 p]
        else .transmit plane { p with hops := p.hops - 1 } fun ok => .when (!ok) (.nak plane 1 p)]
      else if !opDefined p.op then take
      else if p.dstLog ≠ d.ownId then .seq [take, .heard plane p.srcPhys p.srcLog, .nak plane 2 p]
      else if (opClass p.op = 0 || opClass p.op = 2) && (d.remap? plane p.srcLog).any (· ≠ p.srcPhys) then .seq [
        take, .bump FAB_MISDIRECTED die, .nak plane 2 p, .fabNotice plane 5 2 p.srcLog 0xFFFF]
      else if p.tagged && d.early p && d.earlyFull plane && !eth then .skip
      else if opClass p.op ≠ 3 && (!room || (p.tagged && d.early p && d.earlyFull plane)) then
        .seq [take, .heard plane p.srcPhys p.srcLog, .nak plane 5 p]
      else .seq [take, .heard plane p.srcPhys p.srcLog, .accept plane ce p]
/-- TRANSPORT_PACKET_ACCEPT. -/
def execTransportPacketAccept (pd : PDie) (room : Bool) (s : State) := run (transportPacketAcceptTr pd room) s

/-- The next accepted packet of an OP that the port die may handle: the first of its connection, and not early (R81, R560). -/
def Dev.nextPkt (d : Dev) (plane op : Nat) : Option Pkt :=
  ((d.u.fab.inq.zipIdx.find? fun (e, i) => e.1 = plane && e.2.op = op && !d.early e.2 &&
    (opClass op = 3 || !(d.u.fab.inq.take i).any fun x => x.1 = plane && x.2.srcPhys = e.2.srcPhys && opClass x.2.op = opClass op)).map
      fun x => x.1.2)

/-- An accepted packet is handled: it goes, and a late one is counted (R83). -/
def Tr.takePkt (plane : Nat) (p : Pkt) : Tr :=
  .read fun d => .seq [
    .fabSt fun b => { b with inq := b.inq.erase (plane, p) },
    .when (p.tagged && signed 32 ((p.tag + 2 ^ 32 - d.beatIdx % 2 ^ 32) % 2 ^ 32) < 0) (.bump BEAT_LATE_COUNT HD)]

/-- What handling the next packet of an OP does. -/
def Tr.withPkt (pd : PDie) (op : Nat) (k : Nat → Pkt → Tr) : Tr :=
  .read fun d => .opt (d.nextPkt pd.val op) fun p => k pd.val p

/-! ## Requests at the target (R560, R561) -/

/-- A response, unless its partner has been lost (R583). -/
def Tr.respondPkt (plane op : Nat) (p : Pkt) (st : Nat) (data : List Byte) (poison : Nat) : Tr :=
  .read fun d => .when (!d.lost plane p.srcLog)
    (.sendConn plane { op := op, poison := poison, dstPhys := p.srcPhys, dstLog := p.srcLog, addr := p.addr, lenm1 := data.length - 1,
                       tid := p.tid, tag := st, payload := data } fun _ => .skip)

/-- The status that a transport request to a local address gets without reaching memory: the MMIO range (R45), a reserved range
and a hole are refused. -/
def Dev.targetBad (d : Dev) (la : Nat) : Bool :=
  match d.place la with | .hbm .. => false | .bulk .. => false | _ => true

/-- READ (R560). -/
def readTr (pd : PDie) : Tr :=
  .withPkt pd 1 fun plane p => .read fun d =>
    let n := p.lenm1 + 1
    if d.targetBad p.addr then .seq [.takePkt plane p, .respondPkt plane 4 p stTRANSLATION_ABORT [] 0]
    else .when (!d.fenced p.addr n) (.seq [
      .takePkt plane p,
      .readRange (d.pkgFeature 66) agFabric (pdOf plane) p.addr n fun o =>
        let base := p.addr / 64 * 64
        .respondPkt plane 4 p o.st (if o.st = stOK then o.bytes else [])
          (if o.st = stOK then poisonMask (o.poisoned.map (· - base)) 0 (8 * 64) else 0)])
/-- READ. -/
def execRead (pd : PDie) (s : State) := run (readTr pd) s

/-- WRITE (R560, R561): one that must wait for a port's fence list or for a page to be staged stays at the front of its
connection, so that what is ordered behind it waits too. -/
def writeTr (pd : PDie) : Tr :=
  .withPkt pd 2 fun plane p => .read fun d =>
    if d.targetBad p.addr then .seq [.takePkt plane p, .respondPkt plane 5 p stTRANSLATION_ABORT [] 0]
    else if d.fenced p.addr p.payload.length then .skip
    else if d.u.ckpt.holds p.addr p.payload.length then .writeWaits 2 plane p.psn
    else .seq [
      .takePkt plane p,
      .cohWrite agFabric (pdOf plane) p.addr p.payload (fun s => p.poison.testBit ((s - p.addr / 64 * 64) / 64)) fun st =>
        .respondPkt plane 5 p st [] 0]
/-- WRITE. -/
def execWrite (pd : PDie) (s : State) := run (writeTr pd) s

/-- TRANSPORT_ATOMIC (R390, R557, R560): a far atomic at the home. -/
def transportAtomicTr (pd : PDie) : Tr :=
  .withPkt pd 3 fun plane p => .read fun d =>
    let bad := fun (st : Nat) => Tr.seq [.takePkt plane p, .respondPkt plane 6 p st [] 0]
    if d.targetBad p.addr then bad stTRANSLATION_ABORT
    else if 10 < leAt p.payload 0 1 || 1 < leAt p.payload 1 1 then bad stMALFORMED
    else if (d.u.coh.lineReqs (p.addr / 64)).head?.any (·.started) then .skip
    else if d.u.ckpt.holds p.addr 8 then .writeWaits 2 plane p.psn
    else .seq [
      .takePkt plane p,
      .farAtomic (pdOf plane) agFabric p.addr (leAt p.payload 0 1) (leAt p.payload 1 1 = 1) (leAt p.payload 8 8) (leAt p.payload 16 8)
        fun st old => .respondPkt plane 6 p st (if st = stOK then leBytes 8 old else []) 0]
/-- TRANSPORT_ATOMIC. -/
def execTransportAtomic (pd : PDie) (s : State) := run (transportAtomicTr pd) s

/-! ## Responses (R559, R562) -/

/-- The request that a response answers. -/
def Dev.answered (d : Dev) (plane : Nat) (p : Pkt) : Option TReq :=
  d.u.fab.reqs.find? fun q => q.plane = plane && q.tid = some p.tid && q.dst = p.srcLog && q.done.isNone

/-- The lines of read data enter the remote line buffer of 32,768 lines (R562). -/
def Tr.rlbFill (q : TReq) (bs : List Byte) : Tr :=
  .read fun d =>
    let lines := (sectorsOf q.la q.len).filter fun s => q.la ≤ s && s + 64 ≤ q.la + q.len
    let news := lines.map fun s =>
      ({ plane := q.plane, dst := q.dst, line := s / 64, since := d.elapsed, bytes := (bs.drop (s - q.la)).take 64 } : RlbLine)
    .fabSt fun b =>
      let rlb := (b.rlbDrop q.plane q.dst q.la q.len).rlb ++ news
      let mine := (rlb.filter (·.plane = q.plane)).length
      { b with rlb := (rlb.filter (·.plane = q.plane)).drop (mine - 32768) ++ rlb.filter (·.plane ≠ q.plane) }

/-- READ_DATA (R560, R562). -/
def readDataTr (pd : PDie) : Tr :=
  .withPkt pd 4 fun plane p => .read fun d => .seq [
    .takePkt plane p,
    .opt (d.answered plane p) fun q =>
      let st := p.tag % 2 ^ 16
      .seq [
        .when (st = stOK && p.poison = 0 && q.fill && d.flag FAB_CTL FAB_CTL_RLB_EN (pdOf plane)) (.rlbFill q p.payload),
        .ended q st p.payload p.poison]]
/-- READ_DATA. -/
def execReadData (pd : PDie) (s : State) := run (readDataTr pd) s

/-- A response without data. -/
def Tr.responseDone (pd : PDie) (op : Nat) : Tr :=
  .withPkt pd op fun plane p => .read fun d => .seq [
    .takePkt plane p, .opt (d.answered plane p) fun q => .ended q (p.tag % 2 ^ 16) p.payload 0]

/-- WRITE_ACK (R559). -/
def execWriteAck (pd : PDie) (s : State) := run (.responseDone pd 5) s
/-- ATOMIC_DATA (R557). -/
def execAtomicData (pd : PDie) (s : State) := run (.responseDone pd 6) s

/-! ## Acknowledgement and retransmission (R555, R558) -/

/-- Packets up to a PSN are acknowledged, and the window moves. -/
def Conn.acks (c : Conn) (psn now limit : Nat) (ce : Bool) : Conn :=
  let past := fun (k : Kept) => 0 ≤ signed 32 ((psn + 2 ^ 32 - k.pkt.psn) % 2 ^ 32)
  let n := (c.kept.filter past).length
  let c := { c with kept := c.kept.filter fun k => !past k, tries := 0 }
  if ce && c.halved.all (fun t => t + 10 * oneUs ≤ now) then
    { c with window := max 8 (c.window / 2), acked := 0, halved := some now }
  else if c.window ≤ c.acked + n then { c with window := min limit (c.window + 1), acked := 0 }
  else { c with acked := c.acked + n }

/-- ACK (R555, R558). -/
def ackTr (pd : PDie) : Tr :=
  .withPkt pd 8 fun plane p => .read fun d => .seq [
    .takePkt plane p,
    .onConn plane p.srcPhys (p.addr % 4) fun c =>
      c.acks p.psn d.elapsed (d.fld FAB_TP_CFG FAB_TP_CFG_WINDOW (pdOf plane)) (p.tag.testBit 24),
    .read fun d => .opt (d.u.fab.conn? plane p.srcPhys (p.addr % 4)) fun c =>
      .windowGo plane p.srcPhys (p.addr % 4) c.queue.length]
/-- ACK. -/
def execAck (pd : PDie) (s : State) := run (ackTr pd) s

/-- NAK (R547, R557, R558, R583): REFUSED starts the time to a retransmission again; NOT_READY and MISDIRECTED lose the
partner; the others end the request. -/
def nakTr (pd : PDie) : Tr :=
  .withPkt pd 9 fun plane p => .read fun d =>
    let cls := p.addr % 4
    let phys := p.addr / 4 % 2 ^ 15
    let reason := bitsOf p.tag 16 8
    let kept := (d.u.fab.conn? plane phys cls).bind fun c => c.kept.find? (·.pkt.psn = p.psn)
    .seq [
      .takePkt plane p, .bump FAB_TP_NAKS (pdOf plane),
      .opt kept fun k =>
        if reason = 5 then .onConn plane phys cls fun c => { c with
          kept := c.kept.map fun x => if x.pkt.psn = p.psn then { x with since := d.elapsed, again := false } else x }
        else if reason = 2 || reason = 3 then .partnerLost plane k.pkt.dstLog
        else .seq [
          .onConn plane phys cls fun c => { c with kept := c.kept.filter (·.pkt.psn ≠ p.psn) },
          .when (cls = 0) (.opt (d.u.fab.reqs.find? fun q => q.plane = plane && q.tid = some k.pkt.tid && q.dst = k.pkt.dstLog && q.done.isNone)
            fun q => .ended q (p.tag % 2 ^ 16) [] 0),
          .when (cls = 2) (.each (d.u.fab.colls.filter fun c => c.plane = plane && c.group.contains k.pkt.dstLog) fun c =>
            .collAbort c stPARTNER_LOST true)]]
/-- NAK. -/
def execNak (pd : PDie) (s : State) := run (nakTr pd) s

/-- ACK_TIMER (R558): packets wait for their ACK for 2 µs. -/
def ackTimerTr (pd : PDie) (phys : BitVec 15) (cls : Fin 3) (logical : BitVec 15) : Tr :=
  .read fun d =>
    let c := d.u.fab.rconn pd.val phys.toNat cls.val
    .when (c.unacked ≠ 0 && c.since + 2 * oneUs ≤ d.elapsed) (.sendAck pd.val phys.toNat cls.val logical.toNat)
/-- ACK_TIMER. -/
def execAckTimer (pd : PDie) (phys : BitVec 15) (cls : Fin 3) (logical : BitVec 15) (s : State) := run (ackTimerTr pd phys cls logical) s

/-- RETRANSMIT_TIMEOUT (R558): the oldest packet of a connection whose RTO_US has passed. -/
def retransmitTimeoutTr (pd : PDie) (phys : BitVec 15) (cls : Fin 3) : Tr :=
  .read fun d =>
    let plane := pd.val
    let rto := d.fld FAB_TP_CFG FAB_TP_CFG_RTO_US (pdOf plane) * oneUs
    .opt (d.u.fab.conn? plane phys.toNat cls.val) fun c => .opt (c.kept.find? fun k => k.since + rto ≤ d.elapsed) fun k =>
      let tries := if k.again then c.tries + 1 else c.tries
      if d.fld FAB_TP_CFG FAB_TP_CFG_RETRIES (pdOf plane) ≤ tries then .partnerLost plane k.pkt.dstLog
      else .seq [
        .bump FAB_TP_RETX (pdOf plane),
        .onConn plane phys.toNat cls.val fun c => { c with
          tries := tries, kept := c.kept.map fun x => if x.pkt.psn = k.pkt.psn then { x with since := d.elapsed, again := true } else x },
        .transmit plane k.pkt fun ok => .when (!ok) (.partnerLost plane k.pkt.dstLog)]
/-- RETRANSMIT_TIMEOUT. -/
def execRetransmitTimeout (pd : PDie) (phys : BitVec 15) (cls : Fin 3) (s : State) := run (retransmitTimeoutTr pd phys cls) s

/-! ## Heartbeats (R582, R583) -/

/-- HEARTBEAT: received, it is answered at once (with an ACK, log 35); or one goes to every watched partner whose period
has passed. -/
def heartbeatTr (pd : PDie) (received : Bool) : Tr :=
  let plane := pd.val
  if received then .withPkt pd 0x20 fun plane p => .seq [.takePkt plane p, .controlTo plane 8 p.srcLog 0]
  else .read fun d =>
    let period := d.fld FAB_HB_CFG FAB_HB_CFG_PERIOD_US (pdOf plane) * oneUs
    .each (d.watched plane) fun l =>
      let h := d.u.fab.hb.find? fun h => h.plane = plane && h.logical = l
      .when (h.all fun h => !h.waiting && h.last + period ≤ d.elapsed) (.seq [
        .fabSt fun b => { b with hb := (b.hb.filter fun h => !(h.plane = plane && h.logical = l)) ++
          [{ plane := plane, logical := l, last := d.elapsed, misses := (h.map (·.misses)).getD 0 }] },
        .controlTo plane 0x20 l 0])
/-- HEARTBEAT. -/
def execHeartbeat (pd : PDie) (received : Bool) (s : State) := run (heartbeatTr pd received) s

/-- HEARTBEAT_MISS: a period has passed without an answer. -/
def heartbeatMissTr (pd : PDie) (logical : BitVec 15) : Tr :=
  .read fun d =>
    let plane := pd.val
    let period := d.fld FAB_HB_CFG FAB_HB_CFG_PERIOD_US (pdOf plane) * oneUs
    .opt (d.u.fab.hb.find? fun h => h.plane = plane && h.logical = logical.toNat && h.waiting && h.last + period ≤ d.elapsed) fun h => .seq [
      .bump FAB_HB_MISSED (pdOf plane),
      .fabSt fun b => { b with hb := b.hb.map fun x => if x = h then { x with waiting := false, misses := x.misses + 1 } else x },
      .when (d.fld FAB_HB_CFG FAB_HB_CFG_MISS (pdOf plane) ≤ h.misses + 1) (.partnerLost plane h.logical)]
/-- HEARTBEAT_MISS. -/
def execHeartbeatMiss (pd : PDie) (logical : BitVec 15) (s : State) := run (heartbeatMissTr pd logical) s

/-- ANNOUNCE (R583, R584, R586). -/
def announceTr (pd : PDie) : Tr :=
  .withPkt pd 0x21 fun plane p => .seq [
    .takePkt plane p, .partnerLost plane p.srcLog, .fabNotice plane 4 (bitsOf p.tag 16 8) p.srcLog 0xFFFF]
/-- ANNOUNCE. -/
def execAnnounce (pd : PDie) (s : State) := run (announceTr pd) s

/-! ## The read-after-flag fence (R563) -/

/-- The fence of a port die: no line filled by a request sent before it is used after it. -/
def Tr.readFence (plane : Nat) : Tr :=
  .seq [
    .fabSt fun b => { b with
      rlb := b.rlb.filter (·.plane ≠ plane),
      reqs := b.reqs.map fun q => if q.plane = plane && q.tid.isSome then { q with fill := false } else q },
    .bump FAB_FENCES (pdOf plane)]

/-- FENCE (R125, R397, R402, R563): it waits for the thread's earlier requests, with IMM[0] for those of the whole cell; then its
port die's fence, and the thread goes on. -/
def fenceTr (c : PCell) (t : Tid) (w : Word128) : Tr :=
  issue c t w (mIMM 1) fun x => .read fun d =>
    if 0 < (if iImm x.w % 2 = 1 then d.u.cellReqs x.pk else d.u.threadReqs x.pk x.t) then x.hold .waitMem
    else .seq [.readFence (x.pk / 168 / 2), x.next]
/-- FENCE. -/
def execFence (c : PCell) (t : Tid) (w : Word128) (s : State) := run (onWord 0 13 w (fenceTr c t w)) s

/-- HOST_HART_FENCE (R398, R563): on both port dies. -/
def execHostHartFence (s : State) := run (.seq [.readFence 0, .readFence 1]) s

/-- LT_READ_FENCE (R567): on both port dies. -/
def ltReadFenceTr (src : CmdSrc) (n : BitVec 32) : Tr :=
  .withCmd src n 0x32 fun c => .read fun d =>
    if d.btagAbsent c then .complete c stCAPABILITY_ABSENT 0
    else if !restZero c.pkt [] then .complete c stMALFORMED 0
    else .seq [.readFence 0, .readFence 1, .complete c stOK 0]
/-- LT_READ_FENCE. -/
def execLtReadFence (src : CmdSrc) (n : BitVec 32) (s : State) := run (ltReadFenceTr src n) s

end Sys2Proof.Machine
end

