-- ==== Sys2Proof/Machine/Matrix.lean ====
section
/-! DEFINITION. The matrix class (R183 to R204). A matrix instruction executes whole when it issues: the unit executes in
issue order (R192), so no later instruction can tell. -/

namespace Sys2Proof.Machine

/-- Reduction width W of one tile of a format (R183). -/
def fmtW (c : Nat) : Nat := if c = 0 ∨ c = 13 then 32 else if c ≤ 2 then 64 else if c = 9 ∨ c = 12 then 256 else 128
/-- Row capacity n of a format (R183): as W. -/
def fmtN (c : Nat) : Nat := fmtW c
/-- MX blocks per row N (R183). -/
def fmtBlocks (c : Nat) : Nat := if c = 9 then 8 else 4
/-- Products per cycle and element, k (R183). -/
def fmtK (c : Nat) : Nat := if c ≤ 2 then 4 else if c = 9 ∨ c = 12 then 16 else 8
/-- Occupancy bits per k-slice (R183). -/
def fmtSliceBits (c : Nat) : Nat := if c = 7 ∨ c = 8 then 3 else 4

/-- The permitted pairs of formats (R186). -/
def fmtPair (a b : Nat) : Bool :=
  let mid := fun c => [3, 4, 5, 6, 7, 8, 10].contains c
  (a = 0 && b = 0) || ((a = 1 || a = 2) && (b = 1 || b = 2)) || (mid a && mid b) || (a = 9 && b = 9) ||
    (a = 11 && b = 11) || (a = 12 && b = 12)

/-- Whether a format needs the MXFP6 feature (R145). -/
def fmtMxfp6 (c : Nat) : Bool := c = 7 || c = 8

/-- Whether format code `c` may be named on a die: not reserved, and MXFP6 only where the die has it (R123, R145). -/
def Dev.fmtOk (d : Dev) (die c : Nat) : Bool := c < 14 && (!fmtMxfp6 c || d.dieFeature die 112)

/-! ## Fields of the matrix instruction word (R189) -/

/-- ACC. -/
def Ctx.mAcc (x : Ctx) : Nat := x.f 16 4
/-- TA. -/
def Ctx.mTA (x : Ctx) : Nat := x.f 20 6
/-- TB. -/
def Ctx.mTB (x : Ctx) : Nat := x.f 26 6
/-- TS. -/
def Ctx.mTS (x : Ctx) : Nat := x.f 32 6
/-- SSLOT. -/
def Ctx.mSslot (x : Ctx) : Nat := x.f 38 5
/-- TM. -/
def Ctx.mTM (x : Ctx) : Nat := x.f 43 6
/-- MSLOT. -/
def Ctx.mMslot (x : Ctx) : Nat := x.f 49 3
/-- FA. -/
def Ctx.mFA (x : Ctx) : Nat := x.f 52 4
/-- FB. -/
def Ctx.mFB (x : Ctx) : Nat := x.f 56 4
/-- SPARSE. -/
def Ctx.mSparse (x : Ctx) : Nat := x.f 60 2

/-! ## The accumulators -/

/-- Element (r, j) of accumulator `a`, as bits. -/
def CellSt.accGet (cs : CellSt) (a r j : Nat) : Nat := leNat (cs.acc.slice (4096 * a + 128 * r + 4 * j) 4)

/-- A cell with accumulator `a` set from its 1024 elements in row order. -/
def CellSt.accSet (cs : CellSt) (a : Nat) (es : List Nat) : CellSt :=
  { cs with
    acc := cs.acc.put (4096 * a) (es.flatMap (leBytes 4)),
    poison := cs.poison.filter fun k => !(k % 3 = 2 && k / 3 / 512 = a) }

/-- The saturation flag of an accumulator tile (R159). -/
def Dev.asat (d : Dev) (x : Ctx) (a : Nat) : Bool := (d.fld MTX_ACC_STATE MTX_ACC_STATE_ASAT x.die x.p).testBit a
/-- Whether an accumulator tile has type INT32 (R191). -/
def Dev.accInt (d : Dev) (x : Ctx) (a : Nat) : Bool := (d.fld MTX_ACC_STATE MTX_ACC_STATE_INT32 x.die x.p).testBit a

/-- The saturation flag of accumulator `a` := b. -/
def Ctx.setAsat (x : Ctx) (a : Nat) (b : Bool) : Tr :=
  .read fun d => .fld MTX_ACC_STATE MTX_ACC_STATE_ASAT x.die
    (putBits (d.fld MTX_ACC_STATE MTX_ACC_STATE_ASAT x.die x.p) a 1 (b01 b)) x.p
/-- The type of accumulator `a`: INT32 or FP32. -/
def Ctx.setAccInt (x : Ctx) (a : Nat) (b : Bool) : Tr :=
  .read fun d => .fld MTX_ACC_STATE MTX_ACC_STATE_INT32 x.die
    (putBits (d.fld MTX_ACC_STATE MTX_ACC_STATE_INT32 x.die x.p) a 1 (b01 b)) x.p
/-- FPCTL.ASAT_SEEN of the thread (R159). -/
def Ctx.asatSeen (x : Ctx) : Tr := .thread x.pk x.t fun th => { th with fpctl := putBits th.fpctl 19 1 1 }

/-! ## MMA (R185, R197 to R203) -/

/-- What an MMA reads, once its checks have passed. -/
structure MmaIn where
  fa : Nat
  fb : Nat
  sparse : Nat
  /-- A tiles: 1, 2 or 4 (R197). -/
  a : Nat
  passes : Nat
  /-- Row r of A over all A tiles, by reduction position. -/
  aRows : List (Array Val)
  /-- Row j of TB: the kept elements. -/
  bRows : List (Array Val)
  /-- Metadata of TB row j as a number (R198). -/
  meta_ : List Nat
  /-- Skipped k-slices: tile * 4 + q. -/
  skipped : List Nat

/-- The reduction position of kept element `e` of TB row with metadata `m` (R198, R199). -/
def MmaIn.pos (i : MmaIn) (m e : Nat) : Nat :=
  match i.sparse with
  | 0 => e
  | 1 => 4 * (e / 2) + bitsOf m (2 * e) 2
  | _ => 4 * e + bitsOf m (2 * e) 2

/-- The k-slice (tile * 4 + q) that kept element `e` belongs to (R200, R202). -/
def MmaIn.slice (i : MmaIn) (e : Nat) : Nat :=
  let w := fmtW i.fa
  let p := match i.sparse with | 0 => e | 1 => 4 * (e / 2) | _ => 4 * e
  p / w * 4 + p % w / (w / 4)

/-- The k-groups that are not skipped: lists of kept-element indexes, ascending (R158, R161, R202). -/
def MmaIn.groups (i : MmaIn) : List (List Nat) :=
  let k := fmtK i.fa
  ((List.range (fmtW i.fa / k)).map fun g => (List.range k).map fun e => g * k + e).filter fun es =>
    !i.skipped.contains (i.slice (es.headD 0))

/-- The factors of a k-group for element (r, j). -/
def MmaIn.factors (i : MmaIn) (r j : Nat) (es : List Nat) : List (Val × Val) :=
  let ar := i.aRows.getD r #[]
  let br := i.bRows.getD j #[]
  let m := i.meta_.getD j 0
  es.map fun e => (ar.getD (i.pos m e) (.fin false 0), br.getD e (.fin false 0))

/-- One accumulator element through an MMA: its bits, saturations, values written as zero, and NaNs created. -/
structure MmaElem where
  bits : Nat
  sats : Nat := 0
  vans : Nat := 0
  nans : Nat := 0
deriving DecidableEq, Repr

/-- One group of values into an element (R157 to R160), counting what it meets. -/
def MmaElem.step (s : MmaElem) (opNan : Bool) (ps : List Val) : MmaElem :=
  let o := accGroup s.bits ps
  let created := (fp32.decode o.bits).isNan && !(fp32.decode s.bits).isNan && !opNan
  { bits := o.bits, sats := s.sats + b01 o.sat, vans := s.vans + b01 o.van, nans := s.nans + b01 created }

/-- Element (r, j) after the MMA: the k-groups in ascending order, each pass of an FP32 group on its own (R164). -/
def MmaIn.elem (i : MmaIn) (acc r j : Nat) : MmaElem :=
  i.groups.foldl (fun s es =>
    let fs := i.factors r j es
    if i.fa = 11 ∨ i.fa = 12 then
      let o := accGroupInt s.bits (fs.map fun (a, b) => (a.mul b).rat.num)
      { s with bits := o.bits, sats := s.sats + b01 o.sat }
    else
      let opNan := fs.any fun (a, b) => a.isNan || b.isNan
      if i.fa = 0 then (fp32Passes i.passes fs).foldl (fun s ps => s.step opNan ps) s
      else s.step opNan (fs.map fun (a, b) => a.mul b)) { bits := acc }

/-- The tile rows of a physical register. -/
def tileRow (bs : List Byte) (r : Nat) : List Byte := (bs.drop (128 * r)).take 128

/-- The scale bytes of row r of a scale set of N blocks per row at byte `o` of TS (R187). -/
def scaleRow (ts : List Byte) (o n r : Nat) : List Nat := ((ts.drop (o + r * n)).take n).map BitVec.toNat

/-- The unit cycles of an MMA (R222). -/
def mmaCycles (fa sparse passes skipped : Nat) : Nat :=
  let p := passes + 1
  if fa = 0 then max 1 (8 * p - 2 * p * skipped)
  else match sparse with
    | 0 => max 1 (16 - 4 * skipped)
    | 1 => max 1 (16 - 2 * skipped)
    | _ => max 1 (16 - skipped)

/-- The fields an MMA uses (R189, R190): TS and SSLOT with an MX operand, TM and MSLOT when sparse. -/
def mmaUsed (w : Nat) : Nat :=
  let mx := fmtIsMx (bitsOf w 52 4) || fmtIsMx (bitsOf w 56 4)
  let sp := bitsOf w 60 2 ≠ 0
  fmask 16 16 ||| fmask 52 10 ||| (if mx then fmask 32 11 else 0) ||| (if sp then fmask 43 9 else 0)

/-- Whether an MMA may run: formats, sparsity, accumulator type, scale and metadata ranges (R145, R164, R186, R187, R191,
R197, R198). -/
def Dev.mmaLegal (d : Dev) (x : Ctx) : Bool :=
  let fa := x.mFA
  let fb := x.mFB
  let mx := fmtIsMx fa || fmtIsMx fb
  let a := 2 ^ x.mSparse
  let sp := x.mSparse
  let isInt := fa = 11 || fa = 12
  d.fmtOk x.die fa && d.fmtOk x.die fb && fmtPair fa fb && sp ≠ 3 &&
  (fa ≠ 0 || bitsOf x.th.fpctl 5 2 ≠ 3) &&
  (sp = 0 || fa ≠ 0) &&
  (sp ≠ 1 || d.forceFld SPARSE_CTL SPARSE_CTL_EN_24 x.die = 1) &&
  (sp ≠ 2 || ((fmtBits fb = 8 || fmtBits fb = 4) && d.dieFeature x.die 113 &&
    d.forceFld SPARSE_CTL SPARSE_CTL_EN_14 x.die = 1)) &&
  (d.accInt x x.mAcc == isInt) &&
  (!mx || x.mSslot * 128 + (a + 1) * 32 * fmtBlocks fa ≤ 4096) &&
  (sp = 0 || x.mMslot * 512 + 32 * (fmtW fa / 4) ≤ 4096)

/-- The operands of a legal MMA from the physical registers `ta` (A tiles), `tb`, `ts`, `tm`. -/
def Dev.mmaIn (d : Dev) (x : Ctx) (ta : List Nat) (tb ts tm : Nat) : MmaIn :=
  let cs := d.cellAt x.pk
  let fa := x.mFA
  let fb := x.mFB
  let n := fmtBlocks fa
  let w := fmtW fa
  let tsB := cs.tileBytes ts
  let tmB := cs.tileBytes tm
  let aT := ta.map cs.tileBytes
  let bT := cs.tileBytes tb
  let so := x.mSslot * 128
  let aRow := fun r => (aT.zipIdx.flatMap fun (bs, i) =>
    decodeRow fa (tileRow bs r) w (scaleRow tsB (so + i * 32 * n) n r)).toArray
  let bRow := fun j => (decodeRow fb (tileRow bT j) w (scaleRow tsB (so + ta.length * 32 * n) n j)).toArray
  let skipOn := d.forceFld MTX_CTL MTX_CTL_SKIP_EN x.die = 1 && d.forceFld VEC_CTL VEC_CTL_OCC_EN x.die = 1
  let sb := fmtSliceBits fa
  { fa := fa, fb := fb, sparse := x.mSparse, a := ta.length, passes := bitsOf x.th.fpctl 5 2,
    aRows := (List.range 32).map aRow, bRows := (List.range 32).map bRow,
    meta_ := (List.range 32).map fun j => leNat ((tmB.drop (x.mMslot * 512 + j * (w / 4))).take (w / 4)),
    skipped := if skipOn then
        ta.zipIdx.flatMap fun (t, i) =>
          (List.range 4).filterMap fun q => if bitsOf (d.tileMap x.pk t) (sb * q) sb = 0 then some (4 * i + q) else none
      else [] }

/-- The effect of a legal MMA: every accumulator element by its k-groups, the saturation flag, the census, the counters,
and a first-NaN trap. An MMA whose every k-slice is skipped changes no accumulator (R203). -/
def mmaApply (x : Ctx) (i : MmaIn) : Tr :=
  .read fun d =>
    let cs := d.cellAt x.pk
    let es := (List.range 1024).map fun p => i.elem (cs.accGet x.mAcc (p / 32) (p % 32)) (p / 32) (p % 32)
    let passes := if i.fa = 0 then i.passes + 1 else 1
    let nGroups := i.groups.length * passes
    let sats := es.foldl (fun n e => n + e.sats) 0
    let vans := es.foldl (fun n e => n + e.vans) 0
    let nans := es.foldl (fun n e => n + e.nans) 0
    let isInt := i.fa = 11 || i.fa = 12
    let idx := if isInt then censusIndex i.fa else 0
    let nSk := i.skipped.length
    .seq [
      .when (nGroups ≠ 0) (.cell x.pk fun cs => cs.accSet x.mAcc (es.map (·.bits))),
      .when (sats ≠ 0) (.seq [x.setAsat x.mAcc true, x.asatSeen,
        .cell x.pk fun cs => { cs with asatBeat := putBits cs.asatBeat x.mAcc 1 1 }]),
      x.tally idx { total := 1024 * nGroups, ovfl := sats, van := vans, nan := nans },
      .bump MTX_INSTR x.die 1 x.p,
      .bump MTX_BUSY x.die (mmaCycles i.fa i.sparse i.passes nSk) x.p,
      .bump SPARSE_SLICES_RUN x.die (4 * i.a - nSk) x.p,
      .bump SPARSE_SLICES_SKIPPED x.die nSk x.p,
      .when (i.sparse = 1) (.bump SPARSE_INSTR_24 x.die 1 x.p),
      .when (i.sparse = 2) (.bump SPARSE_INSTR_14 x.die 1 x.p),
      x.next,
      x.nanTrap ((es.findIdx? fun e => e.nans ≠ 0).map fun p => { unit := 0, fmt := 0, kind := 1, elem := p })]

/-- MMA (R185): acc += A·B. -/
def mmaTr (c : PCell) (t : Tid) (w : Word128) : Tr :=
  issue c t w (mmaUsed w.toNat) fun x => .read fun d =>
    let mx := fmtIsMx x.mFA || fmtIsMx x.mFB
    let sp := x.mSparse ≠ 0
    if !d.mmaLegal x then x.illegal
    else
      let aN := (List.range (2 ^ x.mSparse)).map (x.mTA + ·)
      x.withTiles (aN ++ [x.mTB] ++ (if mx then [x.mTS] else []) ++ (if sp then [x.mTM] else [])) fun ts =>
        let na := aN.length
        let tb := ts.getD na 0
        let tsR := if mx then ts.getD (na + 1) 0 else 0
        let tm := if sp then ts.getD (na + 1 + b01 mx) 0 else 0
        x.hazard ts [] <| x.unpoisoned (fun cs => ts.any cs.tilePoison || cs.accPoison x.mAcc) <|
          .read fun d => mmaApply x (d.mmaIn x (ts.take na) tb tsR tm)
/-- MMA. -/
def execMma (c : PCell) (t : Tid) (w : Word128) (s : State) := run (onWord 3 0 w (mmaTr c t w)) s

/-! ## MZERO, MINIT, MDRAIN, MSATF -/

/-- MZERO (R190): every element zero of type T, the flag clear. -/
def mzeroTr (c : PCell) (t : Tid) (w : Word128) : Tr :=
  issue c t w (fmask 16 4 ||| fmask 71 1) fun x => .seq [
    .cell x.pk fun cs => cs.accSet x.mAcc (List.replicate 1024 0),
    x.setAccInt x.mAcc (x.f 71 1 = 1), x.setAsat x.mAcc false,
    .bump MTX_INSTR x.die 1 x.p, .bump MTX_BUSY x.die 1 x.p, x.next]
/-- MZERO. -/
def execMzero (c : PCell) (t : Tid) (w : Word128) (s : State) := run (onWord 3 1 w (mzeroTr c t w)) s

/-- MINIT (R190, R196): the tile into the accumulator, exactly; ROWB replicates row 0. -/
def minitTr (c : PCell) (t : Tid) (w : Word128) : Tr :=
  issue c t w (fmask 16 10 ||| fmask 52 4 ||| fmask 75 1) fun x =>
    if x.mFA ≠ 0 ∧ x.mFA ≠ 13 then x.illegal
    else x.withTiles [x.mTA] fun ts =>
      let r := ts.getD 0 0
      x.hazard [r] [] <| x.unpoisoned (fun cs => cs.tilePoison r) <| .seq [
        .cell x.pk fun cs =>
          let bs := cs.tileBytes r
          let src := if x.f 75 1 = 1 then (List.range 4096).map fun i => bs.getD (i % 128) 0 else bs
          cs.accSet x.mAcc ((List.range 1024).map fun i => leAt src (4 * i) 4),
        x.setAccInt x.mAcc (x.mFA = 13), x.setAsat x.mAcc false,
        .bump MTX_INSTR x.die 1 x.p, .bump MTX_BUSY x.die 4 x.p, x.next]
/-- MINIT. -/
def execMinit (c : PCell) (t : Tid) (w : Word128) (s : State) := run (onWord 3 2 w (minitTr c t w)) s

/-- MSATF (R190): c[CD] := saturation flag. -/
def msatfTr (c : PCell) (t : Tid) (w : Word128) : Tr :=
  issue c t w (fmask 16 4 ||| fmask 64 3) fun x => .read fun d => .seq [
    .bump MTX_INSTR x.die 1 x.p, .bump MTX_BUSY x.die 1 x.p,
    x.nextWith fun th => th.setC (x.f 64 3) (d.asat x x.mAcc)]
/-- MSATF. -/
def execMsatf (c : PCell) (t : Tid) (w : Word128) (s : State) := run (onWord 3 4 w (msatfTr c t w)) s

/-- The highest POS of a drain to a format (R193). -/
def drainPosMax (f : Nat) : Nat := fmtN f / 32 - 1
/-- Bytes a drain writes per row (R193). -/
def drainRowBytes (f : Nat) : Nat := 32 * fmtBits f / 8

/-- One drained row: the elements, the scale byte of an MX destination, and what it counts. -/
structure DrainRow where
  es : List Elt
  sc : Nat
  /-- NaNs created, by column: the first created NaN's column and kind. -/
  created : Option (Nat × Nat)
  nans : Nat

/-- The kind of a created NaN in a conversion (R172): 3 the MX encoding of an infinity, 2 overflow or infinity into E4M3. -/
def cvtNanKind (mx : Bool) : Nat := if mx then 3 else 2

/-- One row of a drain (R194): an FP32 accumulator to 8 bits or fewer takes the two steps of R155. -/
def drainRow (f : Elem) (mx isInt accInt : Bool) (k : NumCtl) (rnd : Nat → Nat) (xs : List Val) : DrainRow :=
  let two := !accInt && f.bits ≤ 8
  let pass := if two then drainStep1 else id
  if mx then
    let b := mxWrite2 f k rnd pass xs
    let bad := xs.any fun x => !x.isFin
    let hadNan := xs.any Val.isNan
    { es := b.es, sc := b.sc, created := if bad && !hadNan then some (0, 3) else none,
      nans := if bad && !hadNan then 32 else 0 }
  else
    let es := xs.zipIdx.map fun (x, i) => f.narrow k (rnd i) (pass x)
    let made := (xs.zip es).zipIdx.filter fun (p, _) => p.2.isNan && (isInt || !p.1.isNan)
    { es := es, sc := 0,
      created := if isInt then none else made.head?.map fun (_, i) => (i, 2),
      nans := made.length }

/-- MDRAIN (R193 to R196). -/
def mdrainTr (c : PCell) (t : Tid) (w : Word128) : Tr :=
  let fa := bitsOf w.toNat 52 4
  let mx := fmtIsMx fa
  issue c t w (fmask 16 10 ||| fmask 52 4 ||| fmask 67 4 ||| fmask 72 3 ||| (if mx then fmask 32 11 else 0)) fun x =>
    .read fun d =>
    let pos := x.f 72 3
    let rm := x.f 67 3
    let n := fmtBlocks fa
    if !d.fmtOk x.die fa || rm > 4 || pos > drainPosMax fa || (mx && x.mSslot * 128 + 31 * n + pos ≥ 4096) then x.illegal
    else x.withTiles ([x.mTA] ++ (if mx then [x.mTS] else [])) fun ts =>
      let r := ts.getD 0 0
      let sr := ts.getD 1 0
      x.hazard [] ts <| x.unpoisoned (fun cs => cs.accPoison x.mAcc) <|
        match fmtElem fa with
        | none => x.illegal
        | some f => .read fun d =>
          let cs := d.cellAt x.pk
          let ai := d.accInt x x.mAcc
          let k := x.ctl rm
          let seed := x.th.srseed
          let src := fun (rr j : Nat) => (if ai then Elem.int 32 0 else fp32).decode (cs.accGet x.mAcc rr j)
          let rows := (List.range 32).map fun rr =>
            drainRow f mx (fmtIsInt fa) ai k (fun j => rand16 seed (32 * rr + j)) ((List.range 32).map (src rr))
          let rb := drainRowBytes fa
          let ws := rows.zipIdx.flatMap fun (row, rr) =>
            (packBytes f.bits (row.es.map (·.bits))).zipIdx.map fun (b, i) => (128 * rr + rb * pos + i, b)
          let scs := rows.zipIdx.map fun (row, rr) => (x.mSslot * 128 + rr * n + pos, BitVec.ofNat 8 row.sc)
          let tly := rows.foldl (fun a row => a.add { tallyOf row.es (fun _ => false) with nan := row.nans }) {}
          let ev := rows.zipIdx.findSome? fun (row, rr) =>
            row.created.map fun (j, kd) => { unit := 1, fmt := fa, kind := kd, elem := 32 * rr + j : NanEvent }
          .seq [
            .writeTile x.pk r ws,
            .when mx (.writeTile x.pk sr scs),
            x.tally (censusIndex fa) tly,
            .when (d.asat x x.mAcc) x.asatSeen,
            .when (x.f 70 1 = 1) (.seq [.cell x.pk fun cs => cs.accSet x.mAcc (List.replicate 1024 0), x.setAsat x.mAcc false]),
            x.srStep k.mode 1024,
            .bump MTX_INSTR x.die 1 x.p, .bump MTX_BUSY x.die 4 x.p,
            x.next, x.nanTrap ev]
/-- MDRAIN. -/
def execMdrain (c : PCell) (t : Tid) (w : Word128) (s : State) := run (onWord 3 3 w (mdrainTr c t w)) s

end Sys2Proof.Machine
end

