-- ==== Sys2Proof/Machine/Vector.lean ====
section
/-! DEFINITION. The vector class in both forms (R205 to R222). A vector instruction executes whole when it issues. -/

namespace Sys2Proof.Machine

/-! ## The instruction word (R205, R123) -/

/-- What an operation's entry in R210 uses: sources, rounding, masks (0 none, 1 MEN and MZ, 2 MEN only), broadcast, formats,
a scalar of BC = 3, a row length L of its own, and IMM bits of the register and the stream form. -/
structure VShape where
  nsrc : Nat
  dst : Bool := true
  rm : Bool := true
  mask : Nat := 1
  bc : Bool := true
  fmts : Bool := true
  scalar : Bool := false
  rows : Bool := false
  scales : Bool := false
  immR : Nat := 0
  immS : Nat := 0

/-- The bits an instruction of a shape may set. -/
def VShape.used (sh : VShape) (w : Nat) : Nat :=
  let str := w.testBit 16
  let bc := bitsOf w 60 2
  let on := fun (b : Bool) (m : Nat) => if b then m else 0
  let mk := on (sh.mask ≥ 1) (fmask 58 1) ||| on (sh.mask = 1) (fmask 59 1) ||| on sh.bc (fmask 60 2)
  let sc := on (sh.scalar && bc = 3) (mIMM 32)
  if str then
    fmask 16 1 ||| on sh.dst (fmask 17 5) ||| on (sh.nsrc ≥ 1) (fmask 22 5) ||| on (sh.nsrc ≥ 2) (fmask 27 5) |||
    on (sh.nsrc ≥ 3 || sh.scales) (fmask 32 5) ||| fmask 37 5 ||| on sh.fmts (fmask 42 8) ||| on sh.rm (fmask 50 3) |||
    on (sh.mask ≥ 1) (fmask 53 5) ||| mk ||| sc ||| on (sh.rows || bc = 1 || bc = 2) (fmask 96 16) ||| sh.immS * 2 ^ 64
  else
    fmask 16 1 ||| on sh.dst (fmask 17 6) ||| on (sh.nsrc ≥ 1) (fmask 23 6) ||| on (sh.nsrc ≥ 2) (fmask 29 6) |||
    on (sh.nsrc ≥ 3 || sh.scales) (fmask 35 6) ||| on sh.fmts (fmask 41 8) ||| on sh.rm (fmask 49 3) |||
    on (sh.mask ≥ 1) (fmask 52 6) ||| mk ||| sc ||| sh.immR * 2 ^ 64

/-- The decoded fields. `dst` to `smk` are physical tile registers, or scratchpad addresses. -/
structure VF where
  stream : Bool
  fmt : Nat
  fmtd : Nat
  rm : Nat
  men : Bool
  mz : Bool
  bc : Nat
  imm : Nat
  l : Nat
  /-- Element positions: SN, or the whole tile. -/
  n : Nat
  dst : Nat := 0
  s1 : Nat := 0
  s2 : Nat := 0
  s3 : Nat := 0
  smk : Nat := 0

/-- The fields of an instruction word whose operands are not resolved yet. -/
def Ctx.vf (x : Ctx) : VF :=
  let str := x.f 16 1 = 1
  let fmt := if str then x.f 42 4 else x.f 41 4
  { stream := str, fmt := fmt, fmtd := if str then x.f 46 4 else x.f 45 4,
    rm := if str then x.f 50 3 else x.f 49 3, men := x.f 58 1 = 1, mz := x.f 59 1 = 1, bc := x.f 60 2,
    imm := x.imm, l := bitsOf x.imm 32 16, n := if str then x.s 37 % 2 ^ 24 else 32 * fmtN fmt }

/-- Formats that arithmetic, comparison and selection accept (R208). -/
def vecFmt (c : Nat) : Bool := c ≤ 4 || c = 11 || c = 13

/-- Float formats outside MX. -/
def vecFloat (c : Nat) : Bool := c ≤ 4

/-- What every vector operation requires: no reserved format or rounding, BC = 3 only with a scalar, a row or column
broadcast of a stream with L not 0 (R123, R145, R205, R211). -/
def Dev.vecBasic (d : Dev) (x : Ctx) (sh : VShape) (v : VF) : Bool :=
  (!sh.fmts || (d.fmtOk x.die v.fmt && d.fmtOk x.die v.fmtd)) && (!sh.rm || v.rm ≤ 4) &&
  (v.bc ≠ 3 || sh.scalar) && (!v.stream || (v.bc ≠ 1 && v.bc ≠ 2) || v.l ≠ 0)

/-- Elements of a stream source of `n` positions under the broadcast. -/
def VF.srcLen (v : VF) (broadcast : Bool) : Nat :=
  if !broadcast || v.bc = 0 then v.n
  else if v.bc = 1 then min v.n v.l
  else if v.bc = 2 then cdiv v.n v.l
  else 0

/-- Bytes of `n` elements of a format in a stream. -/
def streamBytes (fmt n : Nat) : Nat := cdiv (n * fmtBits fmt) 8

/-! ## Elements -/

/-- The bit offset of element `e` of a format within an operand (R183, R143). -/
def elemBit (stream : Bool) (fmt e : Nat) : Nat :=
  if stream then e * fmtBits fmt else e / fmtN fmt * 1024 + e % fmtN fmt * fmtBits fmt

/-- The RAM byte at which an operand begins. -/
def operandBase (stream : Bool) (loc : Nat) : Nat := if stream then loc else 4096 * loc

/-- The RAM that operands lie in. -/
def CellSt.vram (cs : CellSt) (stream : Bool) : Ram := if stream then cs.spad else cs.tiles

/-- Element `e` of an operand, raw. -/
def CellSt.velem (cs : CellSt) (stream : Bool) (loc fmt e : Nat) : Nat :=
  let o := elemBit stream fmt e
  let w := fmtBits fmt
  bitsOf (leNat ((cs.vram stream).slice (operandBase stream loc + o / 8) ((o % 8 + w + 7) / 8))) (o % 8) w

/-- Mask bit of element `e` (R212). -/
def CellSt.vmask (cs : CellSt) (v : VF) (e : Nat) : Bool :=
  ((cs.vram v.stream).get (operandBase v.stream v.smk + e / 8)).toNat.testBit (e % 8)

/-- Whether destination element `e` is computed. -/
def CellSt.vlive (cs : CellSt) (v : VF) (e : Nat) : Bool := !v.men || cs.vmask v e

/-- The element of a broadcast operand that position `e` reads (R211). -/
def VF.bcIdx (v : VF) (e : Nat) : Nat :=
  let l := if v.stream then v.l else fmtN v.fmt
  match v.bc with
  | 1 => e % l
  | 2 => e / l
  | _ => e

/-- The raw element that position `e` reads from a source; `b` says whether the broadcast applies to it. -/
def CellSt.vraw (cs : CellSt) (v : VF) (loc : Nat) (b : Bool) (e : Nat) : Nat :=
  cs.velem v.stream loc v.fmt (if b then v.bcIdx e else e)

/-- The value that position `e` reads from a source. -/
def CellSt.vval (cs : CellSt) (v : VF) (loc : Nat) (b : Bool) (e : Nat) : Val :=
  if b && v.bc = 3 then
    if fmtIsInt v.fmt then (Elem.int 32 0).decode (v.imm % 2 ^ 32) else fp32.decode (v.imm % 2 ^ 32)
  else match fmtElem v.fmt with
    | some f => f.decode (cs.vraw v loc b e)
    | none => .nan

/-- Bit-level writes (bit offset, width, value) as byte writes over old contents. -/
def bitWrites (old : Nat → Byte) (ws : List (Nat × Nat × Nat)) : List (Nat × Byte) :=
  if ws.all fun e => e.1 % 8 = 0 && e.2.1 % 8 = 0 then
    ws.flatMap fun (o, w, v) => (leBytes (w / 8) v).zipIdx.map fun (b, i) => (o / 8 + i, b)
  else
    ws.foldl (fun m (o, w, v) =>
      (List.range ((o % 8 + w + 7) / 8)).foldl (fun m i =>
        let k := o / 8 + i
        let lo := max o (8 * k)
        let hi := min (o + w) (8 * k + 8)
        aupd m k (old k) fun b => BitVec.ofNat 8 (putBits b.toNat (lo - 8 * k) (hi - lo) (v >>> (lo - o)))) m) []

/-! ## What an operation gives -/

/-- A written element and the NaN it creates: 0 none, else the kind of R172. -/
structure VElt where
  e : Elt
  kind : Nat := 0

/-- Everything an operation gives: element writes (destination bit offset, width, value), scale bytes (offset in the scale
operand), what it counts, its first created NaN, and its destination positions (R154). -/
structure VOut where
  ws : List (Nat × Nat × Nat) := []
  scales : List (Nat × Byte) := []
  tally : Tally := {}
  nan : Option (Nat × Nat) := none
  npos : Nat := 0

/-- One result, rounded once to its destination (R166, R168, R172). -/
def vround (f : Elem) (k : NumCtl) (rnd : Nat) (created : Bool) (v : Val) : VElt :=
  let e := f.narrow k rnd v
  let isInt := match f with | .int _ _ => true | _ => false
  { e := e, kind := if isInt then 0 else if created then 1 else if e.isNan && !v.isNan then 2 else 0 }

/-- The tally of written results: a NaN counts when it is created, or when it was converted to an integer (R174). -/
def vtally (isInt : Bool) (rs : List VElt) : Tally :=
  rs.foldl (fun a r =>
    a.add { total := 1, ovfl := b01 r.e.ovfl, van := b01 r.e.van, nan := b01 (if isInt then r.e.isNan else r.kind ≠ 0) }) {}

/-- The first created NaN among results at positions. -/
def vnan (rs : List (Nat × VElt)) : Option (Nat × Nat) :=
  rs.findSome? fun (p, r) => if r.kind ≠ 0 then some (p, r.kind) else none

/-- An elementwise result: `f e` is the result value at position e and whether it is a NaN made from no NaN. A masked
element keeps its value or becomes +0 (R212). -/
def elementwise (v : VF) (live : Nat → Bool) (f : Nat → VElt) : VOut :=
  let rs := (List.range v.n).filterMap fun e => if live e then some (e, f e) else none
  let w := fmtBits v.fmtd
  { ws := (List.range v.n).filterMap (fun e => if !live e && v.mz then some (elemBit v.stream v.fmtd e, w, 0) else none) ++
      rs.map fun (e, r) => (elemBit v.stream v.fmtd e, w, r.e.bits),
    tally := vtally (fmtIsInt v.fmtd) (rs.map (·.2)), nan := vnan rs, npos := v.n }

/-- An elementwise operation on values. -/
def CellSt.arith (cs : CellSt) (x : Ctx) (v : VF) (nsrc : Nat) (f : Val → Val → Val → Val) : VOut :=
  let k := x.ctl v.rm
  match fmtElem v.fmtd with
  | none => {}
  | some fd =>
    elementwise v (cs.vlive v) fun e =>
      let a := cs.vval v v.s1 (nsrc = 1) e
      let b := if nsrc ≥ 2 then cs.vval v v.s2 true e else .fin false 0
      let c := if nsrc ≥ 3 then cs.vval v v.s3 false e else .fin false 0
      let r := f a b c
      vround fd k (rand16 x.th.srseed e) (r.isNan && !(a.isNan || b.isNan || c.isNan)) r

/-! ## Transcendental operations (R220, R221) -/

/-- A special value of R221; none for a finite non-zero source that the table leaves to the bounds. -/
def transcSpecial (op : Nat) (x : Val) : Option Val :=
  match op, x with
  | _, .nan => some .nan
  | 0x0B, .inf s => some (.fin s 0)
  | 0x0C, .inf s => some (if s then .nan else .fin false 0)
  | 0x0D, .inf s => some (if s then .nan else .inf false)
  | 0x0E, .inf s => some (if s then .fin false 0 else .inf false)
  | 0x0F, .inf s => some (if s then .fin false 0 else .inf false)
  | 0x10, .inf s => some (if s then .nan else .inf false)
  | 0x11, .inf s => some (.fin s 1)
  | 0x12, .inf s => some (if s then .fin false 0 else .fin false 1)
  | _, .inf s => some (if s then .fin true 0 else .inf false)
  | op, .fin s a =>
    if a = 0 then
      some (match op with
        | 0x0B => .inf s
        | 0x0C => .inf false
        | 0x0E => .fin false 1
        | 0x0F => .fin false 1
        | 0x10 => .inf true
        | 0x12 => .fin false (1 / 2)
        | _ => .fin s 0)
    else if s && (op = 0x0C || op = 0x0D || op = 0x10) then some .nan
    else none

/-- The FP32 intermediate of a transcendental operation: its value, or what it overflows or vanishes to (R221). -/
inductive TInt where
  | val (v : Val)
  | ovfl (neg : Bool)
  | vanish (neg : Bool)

/-- The FP32 intermediate of operation `op` on `x`. -/
def transcInt (op : Nat) (x : Val) : TInt :=
  match transcSpecial op x with
  | some v => .val v
  | none =>
    let q := x.rat
    let b := Config.transc op q.num q.den
    if Config.transcOver op q.num q.den then .ovfl (b.toNat.testBit 31)
    else if Config.transcVanish op q.num q.den then .vanish (b.toNat.testBit 31)
    else .val (fp32.decode b.toNat)

/-- One transcendental result, rounded once to its destination. -/
def transcElt (f : Elem) (k : NumCtl) (rnd : Nat) (op : Nat) (x : Val) : VElt :=
  match transcInt op x with
  | .val v => vround f k rnd (v.isNan && !x.isNan) v
  | .ovfl s => vround f k rnd false (.fin s (pow2 128))
  | .vanish s => { e := { (f.narrow k 0 (.fin s 0)) with van := true } }

/-- An intermediate as an FP32 value, for VSOFTMAX. -/
def TInt.toVal : TInt → Val
  | .val v => v
  | .ovfl s => .inf s
  | .vanish s => .fin s 0

/-- A transcendental operation. -/
def CellSt.transcOp (cs : CellSt) (x : Ctx) (v : VF) (op : Nat) : VOut :=
  match fmtElem v.fmtd with
  | none => {}
  | some fd => elementwise v (cs.vlive v) fun e =>
      transcElt fd (x.ctl v.rm) (rand16 x.th.srseed e) op (cs.vval v v.s1 true e)

/-! ## Reductions (R216 to R218) -/

/-- round_fp32: one rounding to FP32 with RNE, under the thread's OVF and FTZ. -/
def rnd32 (k : NumCtl) (v : Val) : Val := fp32.decode (fp32.narrow { k with mode := .rne } 0 v).bits

/-- One combination of the tree; an empty operand returns the other. -/
def combineOpt (f : Val → Val → Val) : Option Val → Option Val → Option Val
  | none, b => b
  | a, none => a
  | some a, some b => some (f a b)

/-- tree of R217 over 2^k slots. -/
def treeRed (f : Val → Val → Val) : Nat → List (Option Val) → Option Val
  | 0, l => l.headD none
  | k + 1, l => treeRed f k (List.zipWith (combineOpt f) (l.take (2 ^ k)) (l.drop (2 ^ k)))

/-- tree of R217 over values in the first slots of 2^k. -/
def treeOf (f : Val → Val → Val) (k : Nat) (vs : List Val) : Option Val :=
  treeRed f k (vs.map some ++ List.replicate (2 ^ k - vs.length) none)

/-- stream_row of R217: 256 lane partials, then the tree. -/
def streamRow (f : Val → Val → Val) (vs : List Val) : Option Val :=
  treeRed f 8 ((List.range 256).map fun lane =>
    (vs.zipIdx.filter fun e => e.2 % 256 = lane).foldl (fun p e => combineOpt f p (some e.1)) none)

/-- How a reduction combines one row of values. -/
def redRow (v : VF) (k : Nat) (f : Val → Val → Val) (vs : List Val) : Option Val :=
  if v.stream then streamRow f vs else treeOf f k vs

/-- The rows of a reduction: each a list of sub-rows (more than one only for DIR 2), of unmasked values. -/
def CellSt.redRows (cs : CellSt) (v : VF) : List (List (List Val)) :=
  let get := fun (es : List Nat) => es.filterMap fun e => if cs.vlive v e then some (cs.vval v v.s1 true e) else none
  if v.stream then
    let l := if v.l = 0 then v.n else v.l
    (List.range (if v.n = 0 then 0 else v.n / l)).map fun r => [get ((List.range l).map fun i => r * l + i)]
  else
    let n := fmtN v.fmt
    match bitsOf v.imm 0 2 with
    | 0 => (List.range 32).map fun r => [get ((List.range n).map fun c => r * n + c)]
    | 1 => (List.range n).map fun c => [get ((List.range 32).map fun r => r * n + c)]
    | _ => [(List.range 32).map fun r => get ((List.range n).map fun c => r * n + c)]

/-- log2 of the slots of a register-form row. -/
def redLog (v : VF) : Nat := if bitsOf v.imm 0 2 = 1 then 5 else Nat.log2 (fmtN v.fmt)

/-- One row, or the rows of a whole tile and then their results as a column (R216). -/
def redGroup (v : VF) (f : Val → Val → Val) (g : List (List Val)) : Option Val :=
  match g with
  | [r] => redRow v (redLog v) f r
  | rs => treeOf f 5 (rs.filterMap (redRow v (redLog v) f))

/-- Writes of results at consecutive element positions of the destination. -/
def VF.results (v : VF) (k : NumCtl) (seed : Nat) (rs : List (Val × Bool)) : VOut :=
  match fmtElem v.fmtd with
  | none => {}
  | some fd =>
    let es := rs.zipIdx.map fun ((r, cr), i) => vround fd k (rand16 seed i) cr r
    { ws := es.zipIdx.map fun (e, i) => (elemBit v.stream v.fmtd i, fmtBits v.fmtd, e.e.bits),
      tally := vtally (fmtIsInt v.fmtd) es, nan := vnan (es.zipIdx.map fun (e, i) => (i, e)), npos := es.length }

/-- The result of an empty row (R217). -/
def emptyRow (op fmtd : Nat) : Val :=
  let lim := fun (neg : Bool) => match fmtElem fmtd with
    | some (.int w _) => Val.fin neg (if neg then ((2 ^ (w - 1) : Nat) : Rat) else ((2 ^ (w - 1) - 1 : Nat) : Rat))
    | _ => .inf neg
  match op with
  | 0x19 => lim true
  | 0x1A => lim false
  | _ => .fin false 0

/-- VRSUM, VRMAX, VRMIN, VRSSQ. -/
def CellSt.reduce (cs : CellSt) (x : Ctx) (v : VF) (op : Nat) : VOut :=
  let k := x.ctl v.rm
  let int := fmtIsInt v.fmt
  let r32 := fun y => if int then y else rnd32 k y
  let f : Val → Val → Val := match op with
    | 0x19 => Val.max
    | 0x1A => Val.min
    | _ => fun a b => r32 (a.add b)
  let pre := fun y : Val => if op = 0x1B then r32 (y.mul y) else y
  v.results k x.th.srseed ((cs.redRows v).map fun g =>
    match redGroup v f (g.map (·.map pre)) with
    | none => (emptyRow op v.fmtd, false)
    | some r => (r, r.isNan && !(g.any (·.any Val.isNan))))

/-- VRMVAR of one row (R218). -/
def rmvar (v : VF) (k : NumCtl) (g : List (List Val)) : Val × Val :=
  match g.flatten with
  | [] => (.fin false 0, .fin false 0)
  | c :: _ =>
    let cnt := g.flatten.length
    let add := fun a b : Val => rnd32 k (a.add b)
    let dev := g.map (·.map fun y => rnd32 k (y.add c.neg))
    let s := (redGroup v add dev).getD (.fin false 0)
    let q := (redGroup v add (dev.map (·.map fun y => rnd32 k (y.mul y)))).getD (.fin false 0)
    let quot := fun y : Val => y.mul (.fin false (mkRat 1 cnt))
    let sm := quot s
    (rnd32 k (c.add (rnd32 k sm)), (Val.fin false 0).max (rnd32 k ((rnd32 k (quot q)).add (rnd32 k (sm.mul sm)).neg)))

/-- VRMVAR. -/
def CellSt.meanVar (cs : CellSt) (x : Ctx) (v : VF) : VOut :=
  let k := x.ctl v.rm
  v.results k x.th.srseed ((cs.redRows v).flatMap fun g =>
    let (m, s) := rmvar v k g
    let had := g.any (·.any Val.isNan)
    [(m, m.isNan && !had), (s, s.isNan && !had)])

/-! ## VSOFTMAX (R219) -/

/-- One row of a softmax: the values of its unmasked elements. -/
def softRow (v : VF) (k : NumCtl) (a : Val) (xs : List Val) : List Val :=
  let u := xs.map fun y => rnd32 k (y.mul a)
  match u with
  | [] => []
  | u0 :: us =>
    let m := us.foldl Val.max u0
    if m = .inf true then u.map fun _ => .fin false 0
    else if m.isNan || m = .inf false then u.map fun _ => .nan
    else
      let e := u.map fun y => (transcInt 0x0E (rnd32 k (y.add m.neg))).toVal
      let s := (redRow v (Nat.log2 (fmtN v.fmt)) (fun p q => rnd32 k (p.add q)) e).getD (.fin false 0)
      let r := (transcInt 0x0B s).toVal
      e.map fun y => rnd32 k (y.mul r)

/-- VSOFTMAX. -/
def CellSt.softmax (cs : CellSt) (x : Ctx) (v : VF) : VOut :=
  match fmtElem v.fmtd with
  | none => {}
  | some fd =>
    let k := x.ctl v.rm
    let l := if v.stream then (if v.l = 0 then v.n else v.l) else fmtN v.fmt
    let a := fp32.decode (v.imm % 2 ^ 32)
    let rows := (List.range (if l = 0 then 0 else v.n / l)).flatMap fun r =>
      let es := ((List.range l).map fun i => r * l + i).filter (cs.vlive v)
      let xs := es.map fun e => cs.vval v v.s1 true e
      let had := xs.any Val.isNan || a.isNan
      es.zip ((softRow v k a xs).map fun y => (y, y.isNan && !had))
    elementwise v (cs.vlive v) fun e =>
      let (y, cr) := agetD rows e (.fin false 0, false)
      vround fd k (rand16 x.th.srseed e) cr y

/-! ## VCVT (R213) -/

/-- Values of row `r` of an MX or other source in the register form, all columns. -/
def CellSt.cvtRow (cs : CellSt) (v : VF) (ts3 soff r : Nat) : List Val :=
  let es := (List.range (fmtN v.fmt)).map fun c => cs.velem false v.s1 v.fmt (r * fmtN v.fmt + c)
  match fmtElem v.fmt with
  | none => []
  | some f =>
    if fmtIsMx v.fmt then
      ((chunksOf 32 (fmtBlocks v.fmt) es).zipIdx).flatMap fun (blk, b) =>
        mxRead f (cs.tiles.get (4096 * ts3 + soff * 128 + r * fmtBlocks v.fmt + b)).toNat blk
    else es.map f.decode

/-- One converted block of an MX destination: positions (destination element, SR position, value) of its unmasked elements
give element writes and the scale; masked ones are left to the caller (R213, R147). -/
def cvtBlock (v : VF) (f : Elem) (k : NumCtl) (seed : Nat) (live : List (Nat × Nat × Val)) : VOut × Nat :=
  let b := mxWrite f k (fun i => rand16 seed ((live.getD i (0, 0, .nan)).2.1)) (live.map (·.2.2))
  let bad := live.any fun e => !e.2.2.isFin
  let made := bad && !(live.any fun e => e.2.2.isNan)
  ({ ws := (live.zip b.es).map fun (p, e) => (elemBit v.stream v.fmtd p.1, fmtBits v.fmtd, e.bits),
     tally := { tallyOf b.es (fun _ => false) with nan := if made then live.length else 0 },
     nan := if made then live.head?.map fun p => (p.2.1, 3) else none }, b.sc)

/-- Two results side by side. -/
def VOut.append (a b : VOut) : VOut :=
  { ws := a.ws ++ b.ws, scales := a.scales ++ b.scales, tally := a.tally.add b.tally,
    nan := match a.nan with | some n => some n | none => b.nan, npos := a.npos + b.npos }

/-- A conversion of positions (destination element, SR position, value), given by blocks of 32 with the offset of the
block's scale byte. -/
def CellSt.cvtBlocks (cs : CellSt) (x : Ctx) (v : VF) (blocks : List (Nat × List (Nat × Nat × Val))) : VOut :=
  let k := x.ctl v.rm
  let seed := x.th.srseed
  match fmtElem v.fmtd with
  | none => {}
  | some fd =>
    blocks.foldl (fun o (sb, ps) =>
      let live := ps.filter fun p => cs.vlive v p.1
      let dead := ps.filter fun p => !cs.vlive v p.1
      let zero : VOut := { ws := if v.mz then dead.map fun p => (elemBit v.stream v.fmtd p.1, fmtBits v.fmtd, 0) else [] }
      let one : VOut :=
        if fmtIsMx v.fmtd then
          if live.isEmpty then (if v.mz then { scales := [(sb, 0)] } else {})
          else
            let (r, sc) := cvtBlock v fd k seed live
            { r with scales := [(sb, BitVec.ofNat 8 sc)] }
        else
          let rs := live.map fun (e, p, y) => (e, p, vround fd k (rand16 seed p) false y)
          { ws := rs.map fun (e, _, r) => (elemBit v.stream v.fmtd e, fmtBits v.fmtd, r.e.bits),
            tally := vtally (fmtIsInt v.fmtd) (rs.map (·.2.2)), nan := vnan (rs.map fun (_, p, r) => (p, r)) }
      (o.append zero).append { one with npos := ps.length }) {}

/-- VCVT of a tile: n elements of every row, from column SCOL to column DCOL. -/
def CellSt.cvtTile (cs : CellSt) (x : Ctx) (v : VF) (ts3 : Nat) : VOut :=
  let cd := fmtN v.fmtd
  let n := min (fmtN v.fmt) cd
  let dcol := bitsOf v.imm 0 8
  let scol := bitsOf v.imm 8 8
  let soff := bitsOf v.imm 16 5
  cs.cvtBlocks x v ((List.range 32).flatMap fun r =>
    let row := cs.cvtRow v ts3 soff (if v.bc = 0 then r else 0)
    let ps := (List.range n).map fun j =>
      (r * cd + dcol + j, r * n + j, row.getD (if v.bc = 2 then r else scol + j) (.fin false 0))
    (chunksOf 32 (n / 32) ps).zipIdx.map fun (blk, b) => (soff * 128 + r * fmtBlocks v.fmtd + dcol / 32 + b, blk))

/-- VCVT of a stream. -/
def CellSt.cvtStream (cs : CellSt) (x : Ctx) (v : VF) : VOut :=
  match fmtElem v.fmt with
  | none => {}
  | some f =>
    let vals := fun (b : Nat) =>
      let es := (List.range (min 32 (v.n - 32 * b))).map fun i => cs.vraw v v.s1 true (32 * b + i)
      if fmtIsMx v.fmt then mxRead f (cs.spad.get (v.s3 + b)).toNat es else es.map f.decode
    cs.cvtBlocks x v ((List.range (cdiv v.n 32)).map fun b =>
      (b, (vals b).zipIdx.map fun (y, i) => (32 * b + i, 32 * b + i, y)))

/-- Whether a VCVT's offsets, ranges and scales are in place (R213). -/
def cvtLegal (v : VF) : Bool :=
  if v.stream then !(fmtIsMx v.fmt || fmtIsMx v.fmtd) || v.n % 32 = 0
  else
    let dcol := bitsOf v.imm 0 8
    let scol := bitsOf v.imm 8 8
    let so := bitsOf v.imm 16 5 * 128
    let n := min (fmtN v.fmt) (fmtN v.fmtd)
    scol * fmtBits v.fmt % 8 = 0 && dcol * fmtBits v.fmtd % 8 = 0 && scol + n ≤ fmtN v.fmt && dcol + n ≤ fmtN v.fmtd &&
    (!fmtIsMx v.fmt || (scol % 32 = 0 && so + 32 * fmtBlocks v.fmt ≤ 4096)) &&
    (!fmtIsMx v.fmtd || (dcol % 32 = 0 && so + 32 * fmtBlocks v.fmtd ≤ 4096))

/-! ## Running a vector instruction -/

/-- Elements per cycle of an elementwise stream (R222). -/
def vecRate (a b : Nat) : Nat :=
  let w := max (fmtBits a) (fmtBits b)
  if w = 32 then 256 else if w = 16 then 512 else 1024

/-- Unit cycles (R222): `reg` in the register form; a stream at the elementwise rate divided by `slow`. -/
def vecCycles (v : VF) (reg slow : Nat) (rateD : Nat) : Nat :=
  if v.stream then cdiv (v.n * slow) (vecRate v.fmt rateD) else reg

/-- The destination elements that a stream's unequal overlap leaves unspecified (R207), as free values. -/
def overlapFree (idx : Nat) (v : VF) (dstLen : Nat) (srcs : List (Nat × Nat)) (sameWidth : Bool) (ws : List (Nat × Nat × Nat)) :
    List (Nat × Nat × Nat) :=
  let bad := srcs.filter fun s =>
    s.2 ≠ 0 && s.1 < v.dst + dstLen && v.dst < s.1 + s.2 && !(s.1 = v.dst && sameWidth)
  if bad.isEmpty then ws
  else ws.zipIdx.map fun ((o, w, y), i) =>
    let lo := v.dst + o / 8
    let hi := v.dst + (o + w + 7) / 8
    if bad.any fun s => s.1 < hi && lo < s.1 + s.2 then
      (o, w, (Config.freeWord ((idx + 1) * 2 ^ 32 + i)).toNat % 2 ^ w)
    else (o, w, y)

/-- Writing an operation's results and counting them. -/
def Ctx.vecWrite (x : Ctx) (v : VF) (ts3 cycles : Nat) (o : VOut) : Tr :=
  .read fun d =>
    let cs := d.cellAt x.pk
    let base := operandBase v.stream v.dst
    let bytes := bitWrites (fun k => (cs.vram v.stream).get (base + k)) o.ws
    .seq [
      if v.stream then
        .seq [.each bytes fun (k, b) => .writeSpad x.pk (v.dst + k) [b],
          .each o.scales fun (k, b) => .writeSpad x.pk (v.s3 + k) [b]]
      else
        .seq [.when (!bytes.isEmpty) (.writeTile x.pk v.dst bytes),
          .when (!o.scales.isEmpty) (.writeTile x.pk ts3 o.scales)],
      x.tally (censusIndex v.fmtd) o.tally,
      x.srStep (x.rmode v.rm) o.npos,
      .bump VEC_INSTR x.die 1 x.p, .bump VEC_BUSY x.die cycles x.p,
      x.next,
      x.nanTrap (o.nan.map fun (p, kd) => { unit := 2, fmt := v.fmtd, kind := kd, elem := p })]

/-- The fields of a vector instruction with its operands: physical tile registers, or scratchpad addresses (R205). -/
def vecArgs (x : Ctx) : VF :=
  if x.vf.stream then { x.vf with dst := x.s 17, s1 := x.s 22, s2 := x.s 27, s3 := x.s 32, smk := x.s 53 }
  else { x.vf with dst := x.th.wbase + x.f 17 6, s1 := x.th.wbase + x.f 23 6, s2 := x.th.wbase + x.f 29 6,
                   s3 := x.th.wbase + x.f 35 6, smk := x.th.wbase + x.f 52 6 }

/-- The tile numbers that an instruction of a shape reads, and those it writes. -/
def vecReads (x : Ctx) (sh : VShape) : List Nat :=
  [x.f 23 6] ++ (if sh.nsrc ≥ 2 && x.vf.bc ≠ 3 then [x.f 29 6] else []) ++ (if sh.nsrc ≥ 3 then [x.f 35 6] else []) ++
    (if sh.scales && fmtIsMx x.vf.fmt then [x.f 35 6] else []) ++ (if x.vf.men then [x.f 52 6] else [])
/-- The tile numbers it writes. -/
def vecWrites (x : Ctx) (sh : VShape) : List Nat :=
  [x.f 17 6] ++ (if sh.scales && fmtIsMx x.vf.fmtd then [x.f 35 6] else [])

/-- The scratchpad ranges that an instruction of a shape reads, and those it writes: first byte and length. -/
def vecFrom (sh : VShape) (v : VF) : List (Nat × Nat) :=
  ([(v.s1, streamBytes v.fmt (v.srcLen (sh.nsrc = 1)))] ++
    (if sh.nsrc ≥ 2 && v.bc ≠ 3 then [(v.s2, streamBytes v.fmt (v.srcLen true))] else []) ++
    (if sh.nsrc ≥ 3 then [(v.s3, streamBytes v.fmt v.n)] else []) ++
    (if sh.scales && fmtIsMx v.fmt then [(v.s3, v.n / 32)] else [])) ++ (if v.men then [(v.smk, cdiv v.n 8)] else [])
/-- The scratchpad ranges it writes. -/
def vecTo (sh : VShape) (v : VF) (dstLen : VF → Nat) : List (Nat × Nat) :=
  [(v.dst, dstLen v)] ++ (if sh.scales && fmtIsMx v.fmtd then [(v.s3, v.n / 32)] else [])

/-- What an executing vector instruction writes: its results, but free values where a stream's unequal overlap leaves them
unspecified (R207). -/
def vecOut (idx : Nat) (sh : VShape) (v : VF) (dstLen : VF → Nat) (o : VOut) : VOut :=
  let same := fmtBits v.fmt = fmtBits v.fmtd && !(dstLen v ≠ streamBytes v.fmtd v.n)
  if v.stream then { o with ws := overlapFree idx v (dstLen v) (vecFrom sh v) same o.ws } else o

/-- The frame of every vector operation with a destination: form, legality, windows, ranges, hazards and poison, then the
results. `dstLen` gives the bytes of a stream destination; `body` the results. -/
def vecBody (sh : VShape) (legal : VF → Bool) (cycles : VF → Nat) (dstLen : VF → Nat) (body : CellSt → Ctx → VF → VOut)
    (x : Ctx) : Tr :=
  .read fun d =>
    let v := vecArgs x
    if x.vf.stream != roleStream x.role || !d.vecBasic x sh x.vf || !legal x.vf then x.illegal
    else if v.stream then
      if v.n = 0 then .seq [.bump VEC_INSTR x.die 1 x.p, x.next]
      else if (vecFrom sh v ++ vecTo sh v dstLen).any fun r => r.1 % 64 ≠ 0 then x.illegal
      else x.inSpad (vecFrom sh v ++ vecTo sh v dstLen) <|
        x.unpoisoned (fun cs => (vecFrom sh v).any fun r => cs.spadPoison r.1 r.2) <| .fresh fun idx => .read fun d =>
          x.vecWrite v v.s3 (cycles v) (vecOut idx sh v dstLen (body (d.cellAt x.pk) x v))
    else x.withTiles (vecReads x sh ++ vecWrites x sh) fun ts =>
      let n := (vecReads x sh).length
      x.hazard (ts.take n) (ts.drop n) <| x.unpoisoned (fun cs => (ts.take n).any cs.tilePoison) <| .read fun d =>
        x.vecWrite v v.s3 (cycles v) (body (d.cellAt x.pk) x v)

/-- A vector operation with a destination. -/
def vecInstr (c : PCell) (t : Tid) (w : Word128) (sh : VShape) (legal : VF → Bool) (cycles : VF → Nat)
    (dstLen : VF → Nat) (body : CellSt → Ctx → VF → VOut) : Tr :=
  issue c t w (sh.used w.toNat) (vecBody sh legal cycles dstLen body)

/-- R208: in the register form FMTD has the element width of FMT. -/
def sameWidth (v : VF) : Bool := v.stream || fmtBits v.fmt = fmtBits v.fmtd

/-- An elementwise arithmetic operation. -/
def vecArith (sh : VShape) (f : Val → Val → Val → Val) (c : PCell) (t : Tid) (w : Word128) : Tr :=
  vecInstr c t w sh (fun v => vecFmt v.fmt && vecFmt v.fmtd && sameWidth v) (fun v => vecCycles v 4 1 v.fmtd)
    (fun v => streamBytes v.fmtd v.n) fun cs x v => cs.arith x v sh.nsrc f

/-- VADD. -/
def execVadd (c : PCell) (t : Tid) (w : Word128) (s : State) :=
  run (onWord 4 1 w (vecArith { nsrc := 2, scalar := true } (fun a b _ => a.add b) c t w)) s
/-- VSUB. -/
def execVsub (c : PCell) (t : Tid) (w : Word128) (s : State) :=
  run (onWord 4 2 w (vecArith { nsrc := 2, scalar := true } (fun a b _ => a.add b.neg) c t w)) s
/-- VMUL. -/
def execVmul (c : PCell) (t : Tid) (w : Word128) (s : State) :=
  run (onWord 4 3 w (vecArith { nsrc := 2, scalar := true } (fun a b _ => a.mul b) c t w)) s
/-- VFMA. -/
def execVfma (c : PCell) (t : Tid) (w : Word128) (s : State) :=
  run (onWord 4 4 w (vecArith { nsrc := 3, scalar := true } (fun a b c => (a.mul b).add c) c t w)) s
/-- VMAX. -/
def execVmax (c : PCell) (t : Tid) (w : Word128) (s : State) :=
  run (onWord 4 5 w (vecArith { nsrc := 2, scalar := true } (fun a b _ => a.max b) c t w)) s
/-- VMIN. -/
def execVmin (c : PCell) (t : Tid) (w : Word128) (s : State) :=
  run (onWord 4 6 w (vecArith { nsrc := 2, scalar := true } (fun a b _ => a.min b) c t w)) s
/-- VABS. -/
def execVabs (c : PCell) (t : Tid) (w : Word128) (s : State) := run (onWord 4 7 w (vecArith { nsrc := 1 } (fun a _ _ => a.abs) c t w)) s
/-- VNEG. -/
def execVneg (c : PCell) (t : Tid) (w : Word128) (s : State) := run (onWord 4 8 w (vecArith { nsrc := 1 } (fun a _ _ => a.neg) c t w)) s

/-- VSEL (R210, R212): the mask selects; every element is computed. -/
def vselTr (c : PCell) (t : Tid) (w : Word128) : Tr :=
  vecInstr c t w { nsrc := 2 } (fun v => vecFmt v.fmt && vecFmt v.fmtd && sameWidth v && v.men && !v.mz)
    (fun v => vecCycles v 4 1 v.fmtd) (fun v => streamBytes v.fmtd v.n) fun cs x v =>
    match fmtElem v.fmtd with
    | none => {}
    | some fd => elementwise v (fun _ => true) fun e =>
        vround fd (x.ctl v.rm) (rand16 x.th.srseed e) false (cs.vval v (if cs.vmask v e then v.s1 else v.s2) (!cs.vmask v e) e)
/-- VSEL. -/
def execVsel (c : PCell) (t : Tid) (w : Word128) (s : State) := run (onWord 4 10 w (vselTr c t w)) s

/-- VCMP (R210, R212): one bit per element; in a tile, the rest of TD is written 0. -/
def vcmpTr (c : PCell) (t : Tid) (w : Word128) : Tr :=
  vecInstr c t w { nsrc := 2, rm := false, immR := 7, immS := 7 }
    (fun v => vecFmt v.fmt && v.fmtd = 0 && bitsOf v.imm 0 3 ≤ 5)
    (fun v => vecCycles v 4 1 v.fmt) (fun v => cdiv v.n 8) fun cs _ v =>
    let bits := (List.range v.n).filterMap fun e =>
      if cs.vlive v e then
        some (e, 1, b01 (vcmpCond (bitsOf v.imm 0 3) (cs.vval v v.s1 false e) (cs.vval v v.s2 true e)))
      else if v.mz then some (e, 1, 0) else none
    { ws := bits ++ if v.stream then [] else [(v.n, 32768 - v.n, 0)] }
/-- VCMP. -/
def execVcmp (c : PCell) (t : Tid) (w : Word128) (s : State) := run (onWord 4 9 w (vcmpTr c t w)) s

/-- A bitwise operation on raw bits; where the widths of a stream differ the result is not stated and is a free value. -/
def vecBitwise (f : Nat → Nat → Nat) (c : PCell) (t : Tid) (w : Word128) : Tr :=
  .fresh fun idx => vecInstr c t w { nsrc := 2, rm := false } (fun v => vecFmt v.fmt && vecFmt v.fmtd && sameWidth v)
    (fun v => vecCycles v 4 1 v.fmtd) (fun v => streamBytes v.fmtd v.n) fun cs _ v =>
    let wd := fmtBits v.fmtd
    { ws := (List.range v.n).filterMap fun e =>
        if cs.vlive v e then
          some (elemBit v.stream v.fmtd e, wd,
            if fmtBits v.fmt = wd then f (cs.vraw v v.s1 false e) (cs.vraw v v.s2 true e)
            else (Config.freeWord ((idx + 1) * 2 ^ 32 + e)).toNat % 2 ^ wd)
        else if v.mz then some (elemBit v.stream v.fmtd e, wd, 0) else none }
/-- VAND. -/
def execVand (c : PCell) (t : Tid) (w : Word128) (s : State) := run (onWord 4 37 w (vecBitwise (· &&& ·) c t w)) s
/-- VOR. -/
def execVor (c : PCell) (t : Tid) (w : Word128) (s : State) := run (onWord 4 38 w (vecBitwise (· ||| ·) c t w)) s
/-- VXOR. -/
def execVxor (c : PCell) (t : Tid) (w : Word128) (s : State) := run (onWord 4 39 w (vecBitwise (· ^^^ ·) c t w)) s

/-- VTR (R214). The spec describes the register form; what a stream's elements become is not stated: free values. -/
def vtrTr (c : PCell) (t : Tid) (w : Word128) : Tr :=
  .fresh fun idx => vecInstr c t w { nsrc := 1, rm := false } (fun v => v.fmtd = v.fmt && !fmtMxfp6 v.fmt)
    (fun v => vecCycles v 4 1 v.fmtd) (fun v => streamBytes v.fmtd v.n) fun cs _ v =>
    let n := fmtN v.fmt
    let wd := fmtBits v.fmt
    { ws := (List.range v.n).filterMap fun e =>
        let r := e / n
        let cc := e % n
        if cs.vlive v e then
          some (elemBit v.stream v.fmt e, wd,
            if v.stream then (Config.freeWord ((idx + 1) * 2 ^ 32 + e)).toNat % 2 ^ wd
            else cs.vraw v v.s1 true (cc % 32 * n + cc / 32 * 32 + r))
        else if v.mz then some (elemBit v.stream v.fmt e, wd, 0) else none }
/-- VTR. -/
def execVtr (c : PCell) (t : Tid) (w : Word128) (s : State) := run (onWord 4 33 w (vtrTr c t w)) s

/-- A transcendental operation (R220). -/
def vecTransc (op : Nat) (c : PCell) (t : Tid) (w : Word128) : Tr :=
  vecInstr c t w { nsrc := 1 } (fun v => vecFloat v.fmt && vecFmt v.fmtd && sameWidth v)
    (fun v => vecCycles v 8 2 v.fmtd) (fun v => streamBytes v.fmtd v.n) fun cs x v => cs.transcOp x v op
/-- VRECIP. -/
def execVrecip (c : PCell) (t : Tid) (w : Word128) (s : State) := run (onWord 4 11 w (vecTransc 0x0B c t w)) s
/-- VRSQRT. -/
def execVrsqrt (c : PCell) (t : Tid) (w : Word128) (s : State) := run (onWord 4 12 w (vecTransc 0x0C c t w)) s
/-- VSQRT. -/
def execVsqrt (c : PCell) (t : Tid) (w : Word128) (s : State) := run (onWord 4 13 w (vecTransc 0x0D c t w)) s
/-- VEXP. -/
def execVexp (c : PCell) (t : Tid) (w : Word128) (s : State) := run (onWord 4 14 w (vecTransc 0x0E c t w)) s
/-- VEXP2. -/
def execVexp2 (c : PCell) (t : Tid) (w : Word128) (s : State) := run (onWord 4 15 w (vecTransc 0x0F c t w)) s
/-- VLOG. -/
def execVlog (c : PCell) (t : Tid) (w : Word128) (s : State) := run (onWord 4 16 w (vecTransc 0x10 c t w)) s
/-- VTANH. -/
def execVtanh (c : PCell) (t : Tid) (w : Word128) (s : State) := run (onWord 4 17 w (vecTransc 0x11 c t w)) s
/-- VSIGM. -/
def execVsigm (c : PCell) (t : Tid) (w : Word128) (s : State) := run (onWord 4 18 w (vecTransc 0x12 c t w)) s
/-- VGELU. -/
def execVgelu (c : PCell) (t : Tid) (w : Word128) (s : State) := run (onWord 4 19 w (vecTransc 0x13 c t w)) s
/-- VSILU. -/
def execVsilu (c : PCell) (t : Tid) (w : Word128) (s : State) := run (onWord 4 20 w (vecTransc 0x14 c t w)) s

/-- Rows of a reduction, and whether DIR and SN fit (R216). -/
def redLegal (v : VF) : Bool :=
  if v.stream then v.l = 0 || v.n % v.l = 0 else bitsOf v.imm 0 2 ≠ 3

/-- Results of a stream reduction. -/
def redCount (v : VF) : Nat := if v.l = 0 then 1 else v.n / v.l

/-- The shape of a reduction. -/
def redShape : VShape := { nsrc := 1, mask := 2, rows := true, immR := 3 }

/-- VRSUM, VRMAX, VRMIN, VRSSQ (R216, R217). -/
def vecReduce (op : Nat) (c : PCell) (t : Tid) (w : Word128) : Tr :=
  vecInstr c t w redShape (fun v => vecFmt v.fmt && vecFmt v.fmtd && redLegal v) (fun v => vecCycles v 4 1 v.fmt)
    (fun v => streamBytes v.fmtd (redCount v)) fun cs x v => cs.reduce x v op
/-- VRSUM. -/
def execVrsum (c : PCell) (t : Tid) (w : Word128) (s : State) := run (onWord 4 24 w (vecReduce 0x18 c t w)) s
/-- VRMAX. -/
def execVrmax (c : PCell) (t : Tid) (w : Word128) (s : State) := run (onWord 4 25 w (vecReduce 0x19 c t w)) s
/-- VRMIN. -/
def execVrmin (c : PCell) (t : Tid) (w : Word128) (s : State) := run (onWord 4 26 w (vecReduce 0x1A c t w)) s
/-- VRSSQ. -/
def execVrssq (c : PCell) (t : Tid) (w : Word128) (s : State) := run (onWord 4 27 w (vecReduce 0x1B c t w)) s
/-- VRMVAR (R218). -/
def execVrmvar (c : PCell) (t : Tid) (w : Word128) (s : State) :=
  run (onWord 4 28 w (vecInstr c t w redShape (fun v => vecFloat v.fmt && vecFmt v.fmtd && redLegal v) (fun v => vecCycles v 8 2 v.fmtd)
    (fun v => streamBytes v.fmtd (2 * redCount v)) fun cs x v => cs.meanVar x v)) s
/-- VSOFTMAX (R219). -/
def execVsoftmax (c : PCell) (t : Tid) (w : Word128) (s : State) :=
  run (onWord 4 32 w (vecInstr c t w { nsrc := 1, rows := true, immR := 0xFFFFFFFF, immS := 0xFFFFFFFF }
    (fun v => vecFloat v.fmt && vecFmt v.fmtd && sameWidth v && (!v.stream || redLegal v))
    (fun v => vecCycles v 16 4 v.fmtd) (fun v => streamBytes v.fmtd v.n) fun cs x v => cs.softmax x v)) s
/-- VCVT (R213). -/
def execVcvt (c : PCell) (t : Tid) (w : Word128) (s : State) :=
  run (onWord 4 0 w (vecInstr c t w { nsrc := 1, scales := true, immR := 0x1FFFFF } cvtLegal (fun v => vecCycles v 4 1 v.fmtd)
    (fun v => streamBytes v.fmtd v.n) fun cs x v => if v.stream then cs.cvtStream x v else cs.cvtTile x v v.s3)) s

/-- The shape of VOCC. -/
def voccShape : VShape :=
  { nsrc := 1, dst := false, rm := false, mask := 0, bc := false, fmts := false, immR := 0xFFFF00000000071F,
    immS := 0x71F }

/-- VOCC (R215): the map of a tile, or the lines of a stream whose map bit is 1. -/
def voccTr (c : PCell) (t : Tid) (w : Word128) : Tr :=
  let str := w.toNat.testBit 16
  issue c t w (voccShape.used w.toNat) fun x => .read fun d =>
    let rd := bitsOf x.imm 0 5
    let cd := bitsOf x.imm 8 3
    let fin := fun (cyc v : Nat) (z : Bool) => Tr.seq [
      .bump VEC_INSTR x.die 1 x.p, .bump VEC_BUSY x.die cyc x.p, x.nextWith fun th => (th.setS rd v).setC cd z]
    if str != roleStream x.role then x.illegal
    else if str then
      let a := x.s 22
      let n := x.s 37 % 2 ^ 24
      if n = 0 then .seq [.bump VEC_INSTR x.die 1 x.p, x.next]
      else if a % 64 ≠ 0 || n % 64 ≠ 0 then x.illegal
      else x.inSpad [(a, n)] <|
        let k := ((List.range (n / 64)).filter fun i => d.lineMap x.pk (a / 64 + i)).length
        fin (cdiv (n / 64) 64) k (k == 0)
    else x.withTiles [x.f 23 6] fun ts =>
      x.hazard ts [] <| .read fun d =>
        let m := if d.forceFld VEC_CTL VEC_CTL_OCC_EN x.die = 1 then d.tileMap x.pk (ts.getD 0 0) else 0xFFFF
        fin 1 m (m &&& bitsOf x.imm 48 16 == 0)
/-- VOCC. -/
def execVocc (c : PCell) (t : Tid) (w : Word128) (s : State) := run (onWord 4 34 w (voccTr c t w)) s

end Sys2Proof.Machine
end

