-- ==== Sys2Proof/Machine/Routing.lean ====
section
/-! DEFINITION. The routing class within a cell: RTOPK, RCOMB, RAMX and the block masks (R225 to R231, R248, R256 to R262).
The dispatch unit is in Machine/Dispatcher.lean. -/

namespace Sys2Proof.Machine

/-! ## The instruction word (R225) -/

/-- RA to RD registers, CD, formats, TD, as bit masks. -/
def rMask (ra rb rc rn rd cd fmt fmtd td : Bool) : Nat :=
  let on := fun (b : Bool) (m : Nat) => if b then m else 0
  on ra (fmask 16 5) ||| on rb (fmask 21 5) ||| on rc (fmask 26 5) ||| on rn (fmask 31 5) ||| on rd (fmask 36 5) |||
    on cd (fmask 41 3) ||| on fmt (fmask 44 4) ||| on fmtd (fmask 48 4) ||| on td (fmask 52 6)

/-- s[RA]. -/
def Ctx.ra (x : Ctx) : Nat := x.s 16
/-- s[RB]. -/
def Ctx.rb (x : Ctx) : Nat := x.s 21
/-- s[RC]. -/
def Ctx.rc (x : Ctx) : Nat := x.s 26
/-- s[RN]. -/
def Ctx.rn (x : Ctx) : Nat := x.s 31
/-- s[RD]. -/
def Ctx.rdv (x : Ctx) : Nat := x.s 36
/-- CD. -/
def Ctx.rcd (x : Ctx) : Nat := x.f 41 3

/-- The exact quotient of two values (R168). -/
def Val.div (a b : Val) : Val :=
  match a, b with
  | .nan, _ => .nan
  | _, .nan => .nan
  | .inf _, .inf _ => .nan
  | .inf s, .fin t _ => .inf (s != t)
  | .fin s _, .inf t => .fin (s != t) 0
  | .fin s p, .fin t q => if q = 0 then (if p = 0 then .nan else .inf (s != t)) else .fin (s != t) (p / q)

/-- Vector-unit cycles of a routing instruction (R262). -/
def Ctx.vecBusy (x : Ctx) (n : Nat) : Tr := .bump VEC_BUSY x.die n x.p

/-- The bit of a mask at a scratchpad address (R212). -/
def CellSt.maskBit (cs : CellSt) (a i : Nat) : Bool := (cs.spad.get (a + i / 8)).toNat.testBit (i % 8)

/-- Mask bits written from bit 0 on; the other bits of the last byte keep their values. -/
def CellSt.maskBytes (cs : CellSt) (a : Nat) (bits : List Bool) : List Byte :=
  (List.range (cdiv bits.length 8)).map fun i =>
    BitVec.ofNat 8 ((List.range 8).foldl (fun v j =>
      match bits[8 * i + j]? with
      | some b => v + b01 b * 2 ^ j
      | none => v + b01 (cs.maskBit a (8 * i + j)) * 2 ^ j) 0)

/-- The element `j` of a packed row in scratchpad. -/
def CellSt.spadElem (cs : CellSt) (a fmt j : Nat) : Nat := cs.velem true a fmt j

/-! ## Top-k (R228 to R231) -/

/-- Whether score `a` ranks below score `b`: a larger score first; −0 below +0 (R228). -/
def scoreBelow (a b : Val) : Bool :=
  a.lt b || (a.eqv b && (match a, b with | .fin true p, .fin false _ => p = 0 | _, _ => false))

/-- One pass of the selection: the best of the scores not taken, the lowest index among equals. -/
def bestOf (scores : List (Nat × Val)) : Option (Nat × Val) :=
  scores.foldl (fun b e => match b with
    | none => some e
    | some (i, v) => if scoreBelow v e.2 then some e else some (i, v)) none

/-- The first `k` indexes in rank order. -/
def topK : Nat → List (Nat × Val) → List Nat
  | 0, _ => []
  | k + 1, l => match bestOf l with
    | none => []
    | some (i, _) => i :: topK k (l.filter fun e => e.1 ≠ i)

/-- An exponential as an FP32 intermediate (R220). -/
def expOf (v : Val) : Val := (transcInt 0x0E v).toVal
/-- A reciprocal as an FP32 intermediate (R220). -/
def recipOf (v : Val) : Val := (transcInt 0x0B v).toVal

/-- The largest of values. -/
def maxOf (vs : List Val) : Val := match vs with | [] => .fin false 0 | v :: vs => vs.foldl Val.max v

/-- The exact weights of candidates before their last rounding (R229). -/
def gateWeights (k : NumCtl) (gate nk : Nat) (ls : List Val) (cand : List Nat) : List Val :=
  let l := fun (e : Nat) => ls.getD e .nan
  match gate with
  | 2 => cand.map fun e => recipOf (rnd32 k ((Val.fin false 1).add (expOf (l e).neg)))
  | g =>
    let pool := if g = 0 then ls else (cand.take nk).map l
    let m := maxOf pool
    let ex := fun (v : Val) => expOf (rnd32 k (v.add m.neg))
    let s := (streamRow (fun p q => rnd32 k (p.add q)) (pool.map ex)).getD (.fin false 0)
    cand.map fun e => (ex (l e)).mul (recipOf s)

/-- One choice record (R231). -/
def choiceRecord (token flags : Nat) (cand : List Nat) (ws : List Nat) : List Byte :=
  leBytes 4 token ++ leBytes 1 cand.length ++ leBytes 1 flags ++ leBytes 2 0 ++
    ((List.range 8).flatMap fun i => leBytes 2 (cand.getD i 0xFFFF)) ++
    ((List.range 8).flatMap fun i => leBytes 4 (ws.getD i 0)) ++ leBytes 8 0

/-- What RTOPK writes for token `i`: its choice record, the weights it rounds, and whether a score is not finite (R228 to R231). -/
def rtopkToken (cs : CellSt) (x : Ctx) (i : Nat) : List Byte × List VElt × Bool :=
  let fmt := x.f 44 4
  let e := bitsOf x.imm 0 10 + 1
  let k := bitsOf x.imm 10 4
  let kc := if bitsOf x.imm 14 4 = 0 then k else bitsOf x.imm 14 4
  let rowb := cdiv (e * fmtBits fmt / 8) 64 * 64
  let ctl := x.ctl 4
  let f := (fmtElem fmt).getD fp32
  let biases := if bitOf x.imm 20 then (List.range e).map fun i => fp32.decode (cs.spadElem x.rb 0 i) else []
  let id := (x.rn / 2 ^ 32 + i) % 2 ^ 32
  if bitOf x.imm 21 && !cs.maskBit x.rc i then (choiceRecord id 1 [] [], [], false)
  else
    let ls := (List.range e).map fun j => f.decode (cs.spadElem (x.ra + i * rowb) fmt j)
    if (ls ++ biases).any fun v => !v.isFin then (choiceRecord id 2 [] [], [], true)
    else
      let sc := if bitOf x.imm 20 then List.zipWith (fun l b => rnd32 ctl (l.add b)) ls biases else ls
      let cand := topK kc (sc.zipIdx.map fun (v, i) => (i, v))
      let ws := (gateWeights ctl (bitsOf x.imm 18 2) k ls cand).zipIdx.map fun (v, j) =>
        vround fp32 ctl (rand16 x.th.srseed (i * kc + j)) v.isNan v
      (choiceRecord id 0 cand (ws.map (·.e.bits)), ws, false)

/-- The scratchpad ranges that RTOPK reads. -/
def rtopkReads (x : Ctx) : List (Nat × Nat) :=
  let e := bitsOf x.imm 0 10 + 1
  let n := x.rn % 2 ^ 24
  [(x.ra, n * (cdiv (e * fmtBits (x.f 44 4) / 8) 64 * 64))] ++ (if bitOf x.imm 20 then [(x.rb, 4 * e)] else []) ++
    (if bitOf x.imm 21 then [(x.rc, cdiv n 8)] else [])

/-- Whether the fields of an RTOPK are legal (R228, R230, R231). -/
def rtopkLegal (x : Ctx) : Bool :=
  let e := bitsOf x.imm 0 10 + 1
  let k := bitsOf x.imm 10 4
  let kc := if bitsOf x.imm 14 4 = 0 then k else bitsOf x.imm 14 4
  let addrs := [x.ra, x.rdv] ++ (if bitOf x.imm 20 then [x.rb] else []) ++ (if bitOf x.imm 21 then [x.rc] else [])
  x.f 44 4 ≤ 2 && k ≠ 0 && k ≤ 8 && kc ≤ 8 && k ≤ kc && kc ≤ e && bitsOf x.imm 18 2 ≠ 3 && addrs.all (· % 64 = 0)

/-- RTOPK (R228 to R231). -/
def rtopkTr (c : PCell) (t : Tid) (w : Word128) : Tr :=
  issue c t w (rMask true true true true true false true false false ||| mIMM 22) fun x => .read fun d =>
    let fmt := x.f 44 4
    let e := bitsOf x.imm 0 10 + 1
    let kc := if bitsOf x.imm 14 4 = 0 then bitsOf x.imm 10 4 else bitsOf x.imm 14 4
    let n := x.rn % 2 ^ 24
    if !rtopkLegal x then x.illegal
    else if n = 0 then x.next
    else
      x.inSpad (rtopkReads x ++ [(x.rdv, 64 * n)]) <| x.unpoisoned (fun cs => (rtopkReads x).any fun r => cs.spadPoison r.1 r.2) <|
        let out := (List.range n).map (rtopkToken (d.cellAt x.pk) x)
        let rs := out.flatMap (·.2.1)
        .seq [
          .writeSpad x.pk x.rdv (out.flatMap (·.1)),
          .bump ROUTE_TOKENS x.die n, .bump ROUTE_NONFINITE x.die (out.filter (·.2.2)).length,
          x.tally 0 (vtally false rs), x.srStep (x.ctl 4).mode (n * kc),
          x.vecBusy (cdiv (n * e) (vecRate fmt fmt) + cdiv (n * kc) 8),
          x.next,
          x.nanTrap ((vnan (rs.zipIdx.map fun (r, i) => (i, r))).map fun (p, kd) => { unit := 4, fmt := 0, kind := kd, elem := p })]
/-- RTOPK. -/
def execRtopk (c : PCell) (t : Tid) (w : Word128) (s : State) := run (onWord 8 0 w (rtopkTr c t w)) s

/-! ## Combine (R248) -/

/-- Bytes of a row of `dd` elements of a format, in whole lines. -/
def rowLines (dd fmt : Nat) : Nat := cdiv (cdiv (dd * fmtBits fmt) 8) 64 * 64

/-- Combine record `i` of an RCOMB. -/
def rcombRec (cs : CellSt) (x : Ctx) (i : Nat) : List Byte := cs.spad.slice (x.ra + 128 * i) 128

/-- Where the activity mask of an RCOMB lies: behind the residual rows. -/
def rcombMask (x : Ctx) : Nat := x.rc + 64 * cdiv (x.rn % 2 ^ 24 * rowLines (bitsOf x.imm 0 16) (x.f 44 4)) 64

/-- Whether token `i` of an RCOMB is inactive (R248). -/
def rcombOff (cs : CellSt) (x : Ctx) (i : Nat) : Bool :=
  (leAt (rcombRec cs x i) 5 1).testBit 0 || (bitOf x.imm 21 && !cs.maskBit (rcombMask x) i)

/-- The ranks of token `i` that an RCOMB reads a row for (R248). -/
def rcombUsed (cs : CellSt) (x : Ctx) (i : Nat) : List Nat :=
  (List.range (min (leAt (rcombRec cs x i) 4 1) (bitsOf x.imm 16 4))).filter fun j => leAt (rcombRec cs x i) (8 + 4 * j) 4 < 0xFFFFFFFE

/-- The output row of token `i` of an RCOMB, by position over the whole output; none where it writes none (R248). -/
def rcombRow (cs : CellSt) (x : Ctx) (i : Nat) : Option (List (Nat × VElt)) :=
  let fmt := x.f 44 4
  let dd := bitsOf x.imm 0 16
  let k := bitsOf x.imm 16 4
  let res := bitOf x.imm 20
  let rowb := rowLines dd fmt
  let ctl := x.ctl 4
  let f := (fmtElem fmt).getD fp32
  let fd := (fmtElem (x.f 48 4)).getD fp32
  if rcombOff cs x i && !res then none
  else some ((List.range dd).map fun p =>
    let base : Val := if res then f.decode (cs.spadElem (x.rc + i * rowb) fmt p) else .fin false 0
    let terms := if rcombOff cs x i then [] else (rcombUsed cs x i).map fun j =>
      (fp32.decode (leAt (rcombRec cs x i) (64 + 4 * j) 4), f.decode (cs.spadElem (x.rb + (i * k + j) * rowb) fmt p))
    let y := terms.foldl (fun a (wt, v) => rnd32 ctl (a.add (rnd32 ctl (wt.mul v)))) base
    let had := base.isNan || terms.any fun (a, b) => a.isNan || b.isNan
    (i * dd + p, vround fd ctl (rand16 x.th.srseed (i * dd + p)) (y.isNan && !had) y))

/-- The scratchpad ranges that an RCOMB names. -/
def rcombRanges (x : Ctx) : List (Nat × Nat) :=
  let n := x.rn % 2 ^ 24
  let rowb := rowLines (bitsOf x.imm 0 16) (x.f 44 4)
  [(x.ra, 128 * n), (x.rb, n * bitsOf x.imm 16 4 * rowb), (x.rdv, n * rowLines (bitsOf x.imm 0 16) (x.f 48 4))] ++
    (if bitOf x.imm 20 then [(x.rc, n * rowb)] else []) ++ (if bitOf x.imm 21 then [(rcombMask x, cdiv n 8)] else [])

/-- The scratchpad ranges that an RCOMB reads. -/
def rcombReads (cs : CellSt) (x : Ctx) : List (Nat × Nat) :=
  let n := x.rn % 2 ^ 24
  let rowb := rowLines (bitsOf x.imm 0 16) (x.f 44 4)
  [(x.ra, 128 * n)] ++ (if bitOf x.imm 21 then [(rcombMask x, cdiv n 8)] else []) ++ (List.range n).flatMap fun i =>
    (if bitOf x.imm 20 then [(x.rc + i * rowb, rowb)] else []) ++
      (if rcombOff cs x i then [] else (rcombUsed cs x i).map fun j => (x.rb + (i * bitsOf x.imm 16 4 + j) * rowb, rowb))

/-- Whether the fields of an RCOMB are legal (R248). -/
def rcombLegal (x : Ctx) : Bool :=
  let k := bitsOf x.imm 16 4
  k ≠ 0 && k ≤ 8 && vecFmt (x.f 44 4) && vecFmt (x.f 48 4) &&
    ([x.ra, x.rb, x.rdv] ++ (if bitOf x.imm 20 || bitOf x.imm 21 then [x.rc] else [])).all (· % 64 = 0)

/-- RCOMB (R248). -/
def rcombTr (c : PCell) (t : Tid) (w : Word128) : Tr :=
  issue c t w (rMask true true true true true false true true false ||| mIMM 22) fun x => .read fun d =>
    let fmt := x.f 44 4
    let fmtd := x.f 48 4
    let dd := bitsOf x.imm 0 16
    let n := x.rn % 2 ^ 24
    let cs := d.cellAt x.pk
    if !rcombLegal x then x.illegal
    else if n = 0 then x.next
    else
      x.inSpad (rcombRanges x) <| x.unpoisoned (fun cs => (rcombReads cs x).any fun r => cs.spadPoison r.1 r.2) <|
        let rows := (List.range n).filterMap fun i => (rcombRow cs x i).map fun r => (i, r)
        let rs := rows.flatMap (·.2)
        .seq [
          .each rows fun (i, r) => .writeSpad x.pk (x.rdv + i * rowLines dd fmtd) (packBytes (fmtBits fmtd) (r.map (·.2.e.bits))),
          x.tally (censusIndex fmtd) (vtally (fmtIsInt fmtd) (rs.map (·.2))), x.srStep (x.ctl 4).mode (n * dd),
          x.vecBusy (cdiv (n * bitsOf x.imm 16 4 * dd) (vecRate fmt fmtd)),
          x.next,
          x.nanTrap ((vnan rs).map fun (p, kd) => { unit := 4, fmt := fmtd, kind := kd, elem := p })]
/-- RCOMB. -/
def execRcomb (c : PCell) (t : Tid) (w : Word128) (s : State) := run (onWord 8 3 w (rcombTr c t w)) s

/-! ## Masks into tile registers (R256, R260) -/

/-- The 4,096 bytes of a tile register that holds a mask from bit 0 on, the rest 0. -/
def maskTile (bits : List Bool) : List Byte :=
  let n := bits.foldr (fun b acc => b01 b + 2 * acc) 0
  leBytes 4096 n

/-- RAMX (R256). -/
def ramxTr (c : PCell) (t : Tid) (w : Word128) : Tr :=
  issue c t w (rMask true false false true false true true false true) fun x => .read fun d =>
    let fmt := x.f 44 4
    let n0 := x.rn % 2 ^ 24
    if x.ra % 64 ≠ 0 || !d.fmtOk x.die fmt then x.illegal
    else x.withTiles [x.f 52 6] fun ts => x.inSpad [(x.ra, cdiv (n0 + 32) 8)] <| x.hazard [] ts <|
      x.unpoisoned (fun cs => cs.spadPoison (x.ra + n0 / 8) (cdiv (n0 % 8 + 32) 8)) <|
        let cs := d.cellAt x.pk
        let bits := (List.range 32).map fun i => cs.maskBit x.ra (n0 + i)
        .seq [
          .tileAt x.pk (ts.headD 0) 0 (maskTile (bits.flatMap fun b => List.replicate (fmtN fmt) b)),
          x.vecBusy 4,
          x.nextWith fun th => th.setC x.rcd (bits.any id)]
/-- RAMX. -/
def execRamx (c : PCell) (t : Tid) (w : Word128) (s : State) := run (onWord 8 4 w (ramxTr c t w)) s

/-! ## Block masks (R257 to R260) -/

/-- The least and greatest of a list. -/
def minMax (l : List Nat) : Nat × Nat := (l.foldl min (l.headD 0), l.foldl max 0)

/-- The code of a block (R258). -/
def blockCode (causal : Bool) (qpos kpos : Nat) (qs ks : List Nat) : Nat :=
  let q := qs.filter (· ≠ 0xFFFF)
  let k := ks.filter (· ≠ 0xFFFF)
  let (qlo, qhi) := minMax q
  let (klo, khi) := minMax k
  if q.isEmpty || k.isEmpty then 0
  else if causal && qpos + 63 < kpos then 0
  else if qhi < klo || khi < qlo then 0
  else if q.length = qs.length && k.length = ks.length && qlo = qhi && klo = khi && qlo = klo then
    if !causal || kpos + 63 ≤ qpos then 1 else 2
  else 3

/-- The block mask that RBMASK writes: its header and the code of every block (R257, R258). -/
def rbmaskBytes (cs : CellSt) (x : Ctx) : List Byte :=
  let qb := bitsOf x.imm 0 12 + 1
  let kb := bitsOf x.imm 12 12 + 1
  let causal := bitOf x.imm 24
  let ids := fun (a i : Nat) => (List.range 64).map fun r => leNat (cs.spad.slice (a + 2 * (64 * i + r)) 2)
  leBytes 4 qb ++ leBytes 4 kb ++ leBytes 1 (b01 causal) ++ leBytes 7 0 ++ leBytes 8 x.ra ++ leBytes 8 x.rb ++
    leBytes 8 x.rc ++ leBytes 8 x.rn ++ leBytes 16 0 ++
    (List.range qb).flatMap fun i =>
      leBytes (8 * cdiv kb 32) ((List.range kb).foldr (fun j acc =>
        blockCode causal (x.rc + 64 * i) (x.rn + 64 * j) (ids x.ra i) (ids x.rb j) + 4 * acc) 0)

/-- RBMASK (R257, R258). -/
def rbmaskTr (c : PCell) (t : Tid) (w : Word128) : Tr :=
  issue c t w (rMask true true true true true false false false false ||| mIMM 25) fun x => .read fun d =>
    let qb := bitsOf x.imm 0 12 + 1
    let kb := bitsOf x.imm 12 12 + 1
    let reads := [(x.ra, 128 * qb), (x.rb, 128 * kb)]
    if [x.ra, x.rb, x.rdv].any (· % 64 ≠ 0) then x.illegal
    else x.inSpad (reads ++ [(x.rdv, 64 + 8 * qb * cdiv kb 32)]) <| x.unpoisoned (fun cs => reads.any fun r => cs.spadPoison r.1 r.2) <|
      .seq [
        .writeSpad x.pk x.rdv (rbmaskBytes (d.cellAt x.pk) x),
        x.vecBusy (2 * qb * kb + cdiv (64 * (qb + kb)) 1024), x.next]
/-- RBMASK. -/
def execRbmask (c : PCell) (t : Tid) (w : Word128) (s : State) := run (onWord 8 5 w (rbmaskTr c t w)) s

/-- A block mask in scratchpad. -/
structure BMask where
  addr : Nat
  qb : Nat
  kb : Nat
  causal : Bool
  segq : Nat
  segk : Nat
  qpos : Nat
  kpos : Nat

/-- The block mask whose header is at `a` (R257). -/
def CellSt.bmask (cs : CellSt) (a : Nat) : BMask :=
  let h := cs.spad.slice a 64
  { addr := a, qb := leAt h 0 4, kb := leAt h 4 4, causal := (leAt h 8 1).testBit 0, segq := leAt h 16 8, segk := leAt h 24 8,
    qpos := leAt h 32 8, kpos := leAt h 40 8 }

/-- 64-bit words per row of the map. -/
def BMask.wpr (m : BMask) : Nat := cdiv m.kb 32

/-- The map's bytes. -/
def BMask.range (m : BMask) : Nat × Nat := (m.addr, 64 + 8 * m.qb * m.wpr)

/-- The code of block (i, j); EMPTY outside the map. -/
def CellSt.blockAt (cs : CellSt) (m : BMask) (i j : Nat) : Nat :=
  if i < m.qb && j < m.kb then bitsOf (leNat (cs.spad.slice (m.addr + 64 + 8 * (i * m.wpr + j / 32)) 8)) (2 * (j % 32)) 2 else 0

/-- RBNEXT (R259). -/
def rbnextTr (c : PCell) (t : Tid) (w : Word128) : Tr :=
  issue c t w (rMask true true true false true true false false false ||| mIMM 1) fun x => .read fun d =>
    if x.ra % 64 ≠ 0 then x.illegal
    else x.inSpad [(x.ra, 64)] <|
      let cs := d.cellAt x.pk
      let m := cs.bmask x.ra
      x.inSpad [m.range] <| x.unpoisoned (fun cs => cs.spadPoison m.range.1 m.range.2) <|
        let col := bitOf x.imm 0
        let lim := if col then m.qb else m.kb
        let at_ := fun (p : Nat) => if col then cs.blockAt m p x.rc else cs.blockAt m x.rc p
        let idx := ((List.range (lim - x.rb)).map (x.rb + ·)).find? fun p => at_ p ≠ 0
        let words := if col then (idx.getD (lim - 1) + 1) - x.rb else (idx.getD (lim - 1)) / 32 + 1 - x.rb / 32
        .seq [
          .bump ROUTE_BLOCKS_RUN x.die (b01 idx.isSome) x.p,
          .bump ROUTE_BLOCKS_SKIPPED x.die (idx.getD lim - x.rb) x.p,
          x.vecBusy (1 + (if x.rb < lim then words else 0)),
          x.nextWith fun th =>
            let v := match idx with | some p => p + at_ p * 2 ^ 32 | none => lim
            (th.setS (x.f 36 5) v).setC x.rcd idx.isSome]
/-- RBNEXT. -/
def execRbnext (c : PCell) (t : Tid) (w : Word128) (s : State) := run (onWord 8 6 w (rbnextTr c t w)) s

/-- Whether an element of a block is computed under its code (R257): its row and column within the block. -/
def CellSt.blockElem (cs : CellSt) (m : BMask) (code i j r q : Nat) : Bool :=
  let causal := m.kpos + 64 * j + q ≤ m.qpos + 64 * i + r
  match code with
  | 0 => false
  | 1 => true
  | 2 => causal
  | _ =>
    let a := leNat (cs.spad.slice (m.segq + 2 * (64 * i + r)) 2)
    let b := leNat (cs.spad.slice (m.segk + 2 * (64 * j + q)) 2)
    a = b && a ≠ 0xFFFF && (!m.causal || causal)

/-- RBEMASK (R260). -/
def rbemaskTr (c : PCell) (t : Tid) (w : Word128) : Tr :=
  issue c t w (rMask true true true false false true false false true ||| mIMM 3) fun x => .read fun d =>
    let quad := bitsOf x.imm 0 2
    let wide := bitOf x.imm 2
    if x.ra % 64 ≠ 0 || (wide && quad.testBit 0) then x.illegal
    else x.withTiles [x.f 52 6] fun ts => x.inSpad [(x.ra, 64)] <|
      let cs := d.cellAt x.pk
      let m := cs.bmask x.ra
      let code := cs.blockAt m x.rb x.rc
      let segs := if code = 3 then [(m.segq + 128 * x.rb, 128), (m.segk + 128 * x.rc, 128)] else []
      x.inSpad (m.range :: segs) <| x.hazard [] ts <|
        x.unpoisoned (fun cs => (m.range :: segs).any fun r => cs.spadPoison r.1 r.2) <|
          let r0 := 32 * (quad / 2)
          let bits := if wide then (List.range 2048).map fun e => cs.blockElem m code x.rb x.rc (r0 + e / 64) (e % 64)
            else (List.range 1024).map fun e => cs.blockElem m code x.rb x.rc (r0 + e / 32) (32 * (quad % 2) + e % 32)
          .seq [
            .tileAt x.pk (ts.headD 0) 0 (maskTile bits), x.vecBusy 4,
            x.nextWith fun th => th.setC x.rcd (bits.any id)]
/-- RBEMASK. -/
def execRbemask (c : PCell) (t : Tid) (w : Word128) (s : State) := run (onWord 8 7 w (rbemaskTr c t w)) s

end Sys2Proof.Machine
end

