-- ==== Sys2Proof/Machine/Update.lean ====
section
/-! DEFINITION. Parameter groups, the update instruction and clipping (R473 to R492). -/

namespace Sys2Proof.Machine

/-! ## Exact values with a square root (R483, R489)

A value a + b√s of rationals is compared with every boundary of a rounding through its place between consecutive multiples
of 2^-220: no boundary of FP32, FP16 or BF16, random bits included, lies strictly between two of them. -/

/-- floor(√n). -/
def isqrt (n : Nat) : Nat :=
  (List.range (Nat.log2 n / 2 + 1)).foldr (fun i r => if (r + 2 ^ i) * (r + 2 ^ i) ≤ n then r + 2 ^ i else r) 0

/-- The square root of a non-negative rational, when it is rational. -/
def ratSqrt? (q : Rat) : Option Rat :=
  let n := isqrt q.num.toNat
  let k := isqrt q.den
  if n * n = q.num.toNat && k * k = q.den then some (mkRat n k) else none

/-- A rational that lies where a + b√s lies among the multiples of 2^-220; the value itself where it is rational. -/
def surd (a b s : Rat) : Rat :=
  match ratSqrt? s with
  | some r => a + b * r
  | none =>
    if b = 0 then a
    else
      let scale : Rat := ((2 ^ 220 : Nat) : Rat)
      let a' := a * scale
      let p := b * b * scale * scale * s
      let m := p.num.toNat * p.den * (a'.den * a'.den)
      let den := a'.den * p.den
      let r : Int := if b < 0 then -(isqrt m : Int) - 1 else (isqrt m : Int)
      let fl : Int := (a'.num * (p.den : Int) + r) / (den : Int)
      ((fl : Rat) + mkRat 1 2) / scale

/-- 1. -/
def valOne : Val := .fin false 1
/-- A value to the power `k`. -/
def Val.pow (v : Val) (k : Nat) : Val :=
  match v with
  | .nan => if k = 0 then valOne else .nan
  | .inf s => if k = 0 then valOne else .inf (s && k % 2 = 1)
  | .fin s m => .fin (s && k % 2 = 1) (m ^ k)
/-- −1, 0 or 1 (R483). -/
def Val.sgn : Val → Val
  | .nan => .nan
  | .inf s => .fin s 1
  | .fin s m => if m = 0 then .fin false 0 else .fin s 1

/-! ## Groups (R473 to R478) -/

/-- FP32 bits as a value. -/
def f32v (b : Nat) : Val := fp32.decode b
/-- The group of a die. -/
def Dev.group? (d : Dev) (die g : Nat) : Option Group := aget? d.u.groups (1024 * die + g)
/-- A group := a record. -/
def Tr.setGroup (die g : Nat) (r : Group) : Tr :=
  .units fun u => { u with groups := tinsert u.groups (1024 * die + g) r }

/-- Default numeric control of a device's own rounding to FP32: RNE, saturating. -/
def plainCtl : NumCtl := { mode := .rne, ovf := false, ftz := false, mxFit := false }

/-- f of R477 at step `n`. -/
def curveAt (c : List (Nat × Nat)) (n : Nat) : Rat :=
  let fac := fun (p : Nat × Nat) => (f32v p.2).rat
  match c with
  | [] => 1
  | p0 :: _ =>
    if n ≤ p0.1 then fac p0
    else
      let below := c.filter fun p => p.1 ≤ n
      let above := c.filter fun p => n < p.1
      match below.getLast?, above.head? with
      | some p, some q => fac p + (fac q - fac p) * ((n - p.1 : Nat) : Rat) / ((q.1 - p.1 : Nat) : Rat)
      | some p, none => fac p
      | none, _ => fac p0

/-- η_n resolved at the group's n (R477). -/
def Group.resolve (g : Group) : Group :=
  { g with etaRes := (fp32.narrow plainCtl 0 (Val.ofRat ((f32v g.eta).rat * curveAt g.curve g.n))).bits }

/-- Whether FP32 bits are finite and not negative. -/
def f32NonNeg (b : Nat) : Bool := match f32v b with | .fin s m => !s || m = 0 | _ => false
/-- Whether FP32 bits lie in [0, 1]. -/
def f32Unit (b : Nat) : Bool := f32NonNeg b && (f32v b).mag ≤ 1

/-- A group record of 64 bytes, where no field is out of range (R475); `curve` still to be read, NPTS beside it. -/
def groupOf (r : List Byte) : Option (Group × Nat) :=
  let rule := leAt r 0 1
  let fl := leAt r 1 1
  let g : Group := { rule := rule, isLazy := fl.testBit 0, pfmt := leAt r 2 1, sfmt := leAt r 3 1, rmode := leAt r 4 1,
                     eta := leAt r 8 4, lambda := leAt r 12 4, beta1 := leAt r 16 4, beta2 := leAt r 20 4, eps := leAt r 24 4,
                     clip := leAt r 28 4, n := leAt r 32 8, e := leAt r 48 8, curveVa := leAt r 40 8, curve := [], etaRes := 0,
                     keep := fl.testBit 1 }
  let npts := leAt r 5 1
  let good := rule < 4 && fl < 8 && g.pfmt < 3 && (if rule = 0 then g.sfmt = 0 else g.sfmt = 0 || g.sfmt = 2) && g.rmode < 4 &&
    npts ≤ 64 && leAt r 6 2 = 0 && f32NonNeg g.eta && f32NonNeg g.lambda &&
    (if rule = 0 then g.beta1 = 0 else f32Unit g.beta1) && (if rule = 2 then f32Unit g.beta2 else g.beta2 = 0) &&
    (if rule = 3 then f32NonNeg g.eps && (f32v g.eps).mag ≠ 0 else g.eps = 0) && f32NonNeg g.clip &&
    1 ≤ g.n && g.n < 2 ^ 48 && g.e < 2 ^ 48 && g.curveVa % 16 = 0
  if good then some (g, npts) else none

/-- Curve points of 16 bytes each, where none is out of range (R477). -/
def curveOf (bs : List Byte) (npts : Nat) : Option (List (Nat × Nat)) :=
  let ps := (List.range npts).map fun i => (leAt bs (16 * i) 8, leAt bs (16 * i + 8) 4)
  let good := ps.all (fun p => p.1 < 2 ^ 48 && f32NonNeg p.2) &&
    (List.range npts).all (fun i => leAt bs (16 * i + 12) 4 = 0) &&
    (ps.zip (ps.drop 1)).all fun (p, q) => p.1 < q.1
  if good then some ps else none

/-- The record of 64 bytes that SAVE writes of a group (R479); zeros for an invalid one. -/
def groupBytes (g : Option Group) : List Byte :=
  match g with
  | none => List.replicate 64 0
  | some g => leBytes 1 g.rule ++ leBytes 1 (b01 g.isLazy + 4) ++ leBytes 1 g.pfmt ++ leBytes 1 g.sfmt ++ leBytes 1 g.rmode ++
      leBytes 1 g.curve.length ++ leBytes 2 0 ++ leBytes 4 g.eta ++ leBytes 4 g.lambda ++ leBytes 4 g.beta1 ++
      leBytes 4 g.beta2 ++ leBytes 4 g.eps ++ leBytes 4 g.clip ++ leBytes 8 g.n ++ leBytes 8 g.curveVa ++ leBytes 8 g.e ++
      leBytes 4 g.etaRes ++ leBytes 4 0

/-- What reading records and curves gives: the groups; a status; or a wait. -/
inductive GRes where
  | ok (gs : List (Nat × Group))
  | bad (st : Nat)
  | wait
deriving Repr

/-- Records one after another, each with its curve (R476); with `zeros`, a record of zeros is passed over (R505). -/
def Tr.readGroups (x : XReq) (zeros : Bool) : List (Nat × List Byte) → List (Nat × Group) → (GRes → Tr) → Tr
  | [], acc, k => k (.ok acc.reverse)
  | (i, r) :: rs, acc, k =>
    if zeros && r.all (· = 0) then .readGroups x zeros rs acc k
    else match groupOf r with
    | none => k (.bad stMALFORMED)
    | some (g, npts) => .readVirt x g.curveVa (16 * npts) fun v => match v with
      | .wait => k .wait
      | .bad st => k (.bad st)
      | .ok bs _ => match curveOf bs npts with
        | none => k (.bad stMALFORMED)
        | some c => .readGroups x zeros rs ((i, { g with curve := c }) :: acc) k

/-- The dies of DIEMASK. -/
def Cmd.maskDies (c : Cmd) : List Nat := setBits 4 (c.at 9 1)

/-- The parameter checks of R474 for an action; `none` when they pass. -/
def Dev.updBad (d : Dev) (c : Cmd) : Option Nat :=
  let act := c.at 8 1
  let first := c.at 10 2
  let count := c.at 12 2
  if !restZero c.pkt ([(8, 6)] ++ (if act = 1 then [(24, 8)] else [(16, 8)])) || c.at 9 1 = 0 || 15 < c.at 9 1 || 1023 < first ||
      count = 0 || 1024 < first + count || c.at 16 8 % 64 ≠ 0 || c.at 24 8 % 4 ≠ 0 then some stMALFORMED
  else if c.maskDies.any fun die => !d.dieFeature die 116 then some stCAPABILITY_ABSENT
  else none

/-- UPD_GROUPS LOAD (R476): every record and point is read and checked; then it waits to be installed. -/
def updGroupsLoadTr (src : CmdSrc) (n : BitVec 32) : Tr :=
  .withCmd src n 0x3A fun c => .read fun d =>
    if 2 < c.at 8 1 then .complete c stMALFORMED 0
    else if c.at 8 1 ≠ 0 then .skip
    else match d.updBad c with
    | some st => .complete c st 0
    | none =>
      let x := d.cmdReq c 0 4
      .readVirt x (c.at 16 8) (64 * c.at 12 2) fun r => match r with
        | .wait => .skip
        | .bad st => .complete c st 0
        | .ok bs _ =>
          let recs := (List.range (c.at 12 2)).map fun i => (c.at 10 2 + i, (bs.drop (64 * i)).take 64)
          .readGroups x false recs [] fun r => match r with
            | .wait => .skip
            | .bad st => .complete c st 0
            | .ok gs => .onCmd c.seqNo fun y => { y with stage := 1, groups := gs, dies := c.maskDies }
/-- UPD_GROUPS_LOAD. -/
def execUpdGroupsLoad (src : CmdSrc) (n : BitVec 32) (s : State) := run (updGroupsLoadTr src n) s

/-- UPD_GROUPS STEP (R491): q is read from QADDR. -/
def updGroupsStepTr (src : CmdSrc) (n : BitVec 32) : Tr :=
  .withCmd src n 0x3A fun c => .read fun d =>
    if c.at 8 1 ≠ 1 then .skip
    else match d.updBad c with
    | some st => .complete c st 0
    | none => .readVirt (d.cmdReq c 0 4) (c.at 24 8) 4 fun r => match r with
        | .wait => .skip
        | .bad st => .complete c st 0
        | .ok bs _ => .onCmd c.seqNo fun y => { y with stage := 1, result := leNat bs, dies := c.maskDies }
/-- UPD_GROUPS_STEP. -/
def execUpdGroupsStep (src : CmdSrc) (n : BitVec 32) (s : State) := run (updGroupsStepTr src n) s

/-- UPD_GROUPS SAVE (R479). -/
def updGroupsSaveTr (src : CmdSrc) (n : BitVec 32) : Tr :=
  .withCmd src n 0x3A fun c => .read fun d =>
    if c.at 8 1 ≠ 2 then .skip
    else match d.updBad c with
    | some st => .complete c st 0
    | none =>
      let out := c.maskDies.flatMap fun die =>
        (List.range (c.at 12 2)).flatMap fun i => groupBytes (d.group? die (c.at 10 2 + i))
      .writeVirt (d.cmdReq c 0 4) (c.at 16 8) out fun st => match st with
        | none => .skip
        | some st => .complete c st 0
/-- UPD_GROUPS_SAVE. -/
def execUpdGroupsSave (src : CmdSrc) (n : BitVec 32) (s : State) := run (updGroupsSaveTr src n) s

/-- Whether q is non-finite (R489). -/
def qNonFinite (b : Nat) : Bool := match f32v b with | .fin s m => s && m ≠ 0 | _ => true

/-- Threads that wait for an epoch on a die look again (R482). -/
def Tr.epochWake (die : Nat) : Tr :=
  .units fun u => { u with cells := u.cells.map fun e =>
    if e.1 / 168 = die then
      let ths := e.2.threads.map fun (t : Nat × Thread) =>
        if t.2.wait = .epoch then (t.1, { t.2 with st := .ready, wait := .nothing }) else t
      (e.1, { e.2 with threads := ths })
    else e }

/-- UPD_INSTALL (R478, R491, R492): the oldest command that has not been installed on a die is; when every named die has it,
its record is written. A step is skipped or committed as its first install finds. -/
def updInstallTr (src : CmdSrc) (n : BitVec 32) (die : TDie) : Tr :=
  .withCmd src n 0x3A (st := 1) fun c => .read fun d =>
    let older := d.u.cmd.cmds.any fun x => x.op = 0x3A && x.stage = 1 && x.seqNo < c.seqNo && x.dies.contains die.val
    if older || !c.dies.contains die.val then .skip
    else
      let nums := (List.range (c.at 12 2)).map (c.at 10 2 + ·)
      let skipNow := qNonFinite c.result || c.maskDies.any fun t => nums.any fun g => (d.group? t g).any (·.skipSeen)
      let skipped := if c.status = 0 then skipNow else c.status = 2
      let fin := fun (y : Cmd) => Tr.read fun d =>
        if y.at 8 1 = 0 then .complete y stOK 0
        else if skipped then .complete y stSTEP_SKIPPED_NONFINITE y.result
        else .complete y stOK ((d.group? ((y.maskDies).headD 0) (y.at 10 2)).elim 0 (·.n))
      .seq [
        (if c.at 8 1 = 0 then .each c.groups fun (i, g) =>
            let old := d.group? die.val i
            let g := match g.keep, old with | true, some o => { g with n := o.n, e := o.e } | _, _ => g
            .setGroup die.val i { g.resolve with skipSeen := old.any (·.skipSeen) }
          else .seq [
            .each nums fun i => .opt (d.group? die.val i) fun g =>
              let g := { g with e := (g.e + 1) % 2 ^ 48, skipSeen := false }
              .setGroup die.val i (if skipped then g else { g with n := g.n + 1 }.resolve),
            if skipped then .bump UPD_SKIPPED die.val else .bump UPD_STEPS die.val]),
        .epochWake die.val,
        .onCmd c.seqNo fun y => { y with dies := y.dies.erase die.val, status := if skipped then 2 else 1 },
        .read fun d => .opt (d.u.cmd.cmds.find? (·.seqNo = c.seqNo)) fun y => .when y.dies.isEmpty (fin y)]
/-- UPD_INSTALL. -/
def execUpdInstall (src : CmdSrc) (n : BitVec 32) (die : TDie) (s : State) := run (updInstallTr src n die) s

/-! ## The update instruction (R480 to R490) -/

/-- The clip factor as an FP32 value (R489). -/
def clipFactor (g : Group) (q : Nat) : Val :=
  let c := (f32v g.clip).mag
  let v := (f32v q).mag
  if c = 0 || v ≤ c * c then valOne else fp32.decode (fp32.narrow plainCtl 0 (Val.ofRat (surd 0 (c / v) v))).bits

/-- The results of an element before rounding: p', and s' for a rule that keeps state (R483). -/
def updElement (g : Group) (kc : Val) (k : Nat) (p gr s : Val) : Val × Val :=
  let eta := f32v g.etaRes
  let lam := f32v g.lambda
  let b1 := f32v g.beta1
  let b2 := f32v g.beta2
  let sub := fun (a b : Val) => a.add b.neg
  let pc := p.mul ((sub valOne (eta.mul lam)).pow k)
  let sc := s.mul ((if g.rule = 2 then b2 else b1).pow k)
  let gg := kc.mul gr
  let move := fun (t : Val) => sub pc (eta.mul (t.add (lam.mul pc)))
  match g.rule with
  | 0 => (move gg, .fin false 0)
  | 1 => let s' := (b1.mul sc).add gg; (move s', s')
  | 2 =>
    let c := (b1.mul sc).add ((sub valOne b1).mul gg)
    (move c.sgn, (b2.mul sc).add ((sub valOne b2).mul gg))
  | _ =>
    let s' := (b1.mul sc).add ((sub valOne b1).mul (gg.mul gg))
    let eps := f32v g.eps
    let chain := fun (root : Val) => move (gg.div (root.add eps))
    match s' with
    | .fin neg m =>
      if m = 0 then (chain s', s')
      else if neg then (.nan, s')
      else match ratSqrt? m with
        | some r => (chain (.fin false r), s')
        | none =>
          if pc.isFin && gg.isFin && eta.rat * gg.rat ≠ 0 then
            let u := m - eps.rat * eps.rat
            let base := pc.rat - eta.rat * (lam.rat * pc.rat)
            (Val.ofRat (surd (base + eta.rat * gg.rat * eps.rat / u) (-(eta.rat * gg.rat) / u) m), s')
          else (chain valOne, s')
    | .inf false => (chain (.inf false), s')
    | .inf true => (.nan, s')
    | .nan => (.nan, .nan)

/-- What an element's update writes: parameter and state results with the NaN each creates. -/
structure UpdElt where
  p : VElt
  s : VElt

/-- Element `i` of `total`, rounded (R484). -/
def updRound (g : Group) (k : NumCtl) (seed total i : Nat) (kc : Val) (pw : Nat) (p gr s : Val) : UpdElt :=
  let (p', s') := updElement g kc pw p gr s
  let bad := fun (v : Val) (srcs : List Val) => v.isNan && !srcs.any Val.isNan
  let pf := (fmtElem g.pfmt).getD fp32
  let sf := (fmtElem g.sfmt).getD fp32
  { p := vround pf k (rand16 seed i) (bad p' (if g.rule = 0 then [p, gr] else [p, gr, s])) p',
    s := vround sf k (rand16 seed (total + i)) (bad s' [gr, s]) s' }

/-- The layout of the streams of an UPD (R481, R487). -/
structure UpdStreams where
  sp : Nat
  sg : Nat
  ss : Nat
  rows : Nat
  /-- Elements of a row. -/
  l : Nat
  rp : Nat
  rg : Nat
  rs : Nat
  isLazy : Bool
  hasState : Bool
deriving Repr

/-- The layout for a group, gradient format, count and row length. -/
def updStreams (g : Group) (fmtg sp sg ss n l : Nat) : UpdStreams :=
  let row := fun (w : Nat) => cdiv (l * w) 512 * 64
  if g.isLazy then
    { sp := sp, sg := sg, ss := ss, rows := n, l := l, rp := row (fmtBits g.pfmt), rg := row (fmtBits fmtg),
      rs := if g.rule = 0 then 64 else cdiv (64 + l * fmtBits g.sfmt) 512 * 64, isLazy := true, hasState := g.rule ≠ 0 }
  else
    { sp := sp, sg := sg, ss := ss, rows := 1, l := n, rp := n * fmtBits g.pfmt / 8, rg := n * fmtBits fmtg / 8,
      rs := n * fmtBits g.sfmt / 8, isLazy := false, hasState := g.rule ≠ 0 }

/-- Whether the state stream is used at all. -/
def UpdStreams.usesState (u : UpdStreams) : Bool := u.isLazy || u.hasState
/-- The bytes of the three streams. -/
def UpdStreams.ranges (u : UpdStreams) : List (Nat × Nat) :=
  [(u.sp, u.rows * u.rp), (u.sg, u.rows * u.rg)] ++ (if u.usesState then [(u.ss, u.rows * u.rs)] else [])

/-- An element of a row in scratchpad. -/
def CellSt.updElem (cs : CellSt) (a fmt j : Nat) : Nat :=
  leNat (cs.spad.slice (a + j * (fmtBits fmt / 8)) (fmtBits fmt / 8))

/-- Whether a destination element of `w` bytes at `a` lies in an overlap with a stream at another place or of another width,
and so is unspecified (R207, R481). -/
def updFree (a w : Nat) (own : Nat) (others : List (Nat × Nat × Nat)) : Bool :=
  others.any fun (s, n, ow) => !(s = own && ow = w) && s < a + w && a < s + n

/-- The row of an UPD: the writes of its elements (address, bytes), and the results in order. -/
def CellSt.updRow (cs : CellSt) (g : Group) (u : UpdStreams) (fmtg : Nat) (k : NumCtl) (seed : Nat) (kc : Val) (r pw : Nat)
    (free : Nat → Byte) : List (Nat × List Byte) × List (Nat × UpdElt) :=
  let pB := u.sp + r * u.rp
  let gB := u.sg + r * u.rg
  let sB := u.ss + r * u.rs + (if u.isLazy then 8 else 0)
  let pw' := fmtBits g.pfmt / 8
  let sw := fmtBits g.sfmt / 8
  let gw := fmtBits fmtg / 8
  let pR := (u.sp, u.rows * u.rp, pw')
  let gR := (u.sg, u.rows * u.rg, gw)
  let sR := if u.usesState then [(u.ss, u.rows * u.rs, sw)] else []
  let val := fun (f a j : Nat) => ((fmtElem f).getD fp32).decode (cs.updElem a f j)
  let es := (List.range u.l).map fun j =>
    updRound g k seed (u.rows * u.l) (r * u.l + j) kc pw (val g.pfmt pB j) (val fmtg gB j)
      (if u.hasState then val g.sfmt sB j else .fin false 0)
  let out : Nat → Nat → Nat → List (Nat × Nat × Nat) → (UpdElt → Nat) → List (Nat × List Byte) := fun base own w others bits =>
    es.zipIdx.map fun (e, j) =>
      let a := base + j * w
      (a, if updFree a w own others then (List.range w).map (fun i => free (a + i)) else leBytes w (bits e))
  (out pB u.sp pw' ([gR] ++ sR) (·.p.e.bits) ++
    (if u.hasState then out sB u.ss sw [pR, gR] (·.s.e.bits) else []),
    es.zipIdx.map fun (e, j) => (r * u.l + j, e))

/-- The bits of UPD (R480). -/
def updMask : Nat := fmask 16 44 ||| mIMM 16

/-- The rows of an UPD in ascending order: what they write, their results, and how many were updated and passed over; the
last component says that a header was malformed, which ends the instruction (R488). -/
def CellSt.updRows (cs : CellSt) (g : Group) (u : UpdStreams) (fmtg : Nat) (k : NumCtl) (seed : Nat) (kc : Val)
    (free : Nat → Byte) : Nat → Nat → List (Nat × List Byte) × List (Nat × UpdElt) × Nat × Nat × Bool
  | 0, _ => ([], [], 0, 0, false)
  | left + 1, r =>
    let h := leNat (cs.spad.slice (u.ss + r * u.rs) 8)
    if u.isLazy && 2 ^ 48 ≤ h then ([], [], 0, 0, true)
    else
      let (ws, es, done, rep, bad) := cs.updRows g u fmtg k seed kc free left (r + 1)
      if u.isLazy && g.n ≤ h then (ws, es, done, rep + 1, bad)
      else
        let pw := if u.isLazy then g.n - h - 1 else 0
        let (w, e) := cs.updRow g u fmtg k seed kc r pw free
        ((if u.isLazy then [(u.ss + r * u.rs, leBytes 8 g.n)] else []) ++ w ++ ws, e ++ es, done + 1, rep, bad)

/-- UPD (R480 to R490). -/
def updTr (c : PCell) (t : Tid) (w : Word128) : Tr :=
  issue c t w updMask fun x => .read fun d =>
    let sp := x.s 16
    let sg := x.s 21
    let ss := x.s 26
    let cnt := x.s 31 % 2 ^ 24
    let sq := x.s 36
    let gn := x.f 46 10
    let fmtg := x.f 56 4
    let l := x.f 64 16
    let bad := Tr.trap x.pk x.t .memory stMALFORMED x.th.pc
    if !d.dieFeature x.die 116 || 2 < fmtg || [sp, sg, ss, sq].any (· % 64 ≠ 0) then x.illegal
    else match d.group? x.die gn with
    | none => if cnt = 0 then x.next else bad
    | some g =>
      if (if g.isLazy then l = 0 else l ≠ 0) || (!g.isLazy && g.rule = 0 && x.f 26 5 ≠ 0) then x.illegal
      else
        let u := updStreams g fmtg sp sg ss cnt l
        x.inSpad (if cnt = 0 then [] else u.ranges ++ [(sq, 4)]) <|
        if cnt = 0 then x.next
        else
          let want := x.s 41 % 2 ^ 48
          if x.f 41 5 ≠ 0 && g.e < want then
            .seq [.bump UPD_EPOCH_WAITS x.die, .thread x.pk x.t fun th => { th with st := .waitDep, wait := .epoch }]
          else if x.f 41 5 ≠ 0 && want < g.e then bad
          else if !d.slotFree x.pk then x.hold .waitMem
          else x.unpoisoned (fun cs => (u.ranges ++ [(sq, 4)]).any fun r => cs.spadPoison r.1 r.2) <| .fresh fun idx =>
            let cs := d.cellAt x.pk
            let q := leNat (cs.spad.slice sq 4)
            if qNonFinite q then .seq [
              .bump UPD_INSTR x.die, .bump UPD_NONFINITE x.die, .setGroup x.die gn { g with skipSeen := true }, x.next]
            else
              let k : NumCtl := { x.ctl 0 with mode := .ofCode g.rmode }
              let (ws, es, done, rep, mal) := cs.updRows g u fmtg k x.th.srseed (clipFactor g q)
                (fun a => Config.undefByte (2 ^ 67 + idx) a) u.rows 0
              let ps := es.map fun e => (e.1, e.2.p)
              let sts := if u.hasState then es.map fun e => (u.rows * u.l + e.1, e.2.s) else []
              let total := u.rows * u.l
              -- positions of the parameter results come before those of the state results
              let firstNan := ((vnan ps).map fun n => (n, g.pfmt)).orElse fun _ => (vnan sts).map fun n => (n, g.sfmt)
              .seq [
                .each ws fun (a, bs) => .writeSpad x.pk a bs,
                x.tally (censusIndex g.pfmt) (vtally false (ps.map (·.2))),
                .when u.hasState (x.tally (censusIndex g.sfmt) (vtally false (sts.map (·.2)))),
                .bump UPD_INSTR x.die, .bump UPD_ELEMENTS x.die es.length,
                .when u.isLazy (.seq [.bump UPD_LAZY_ROWS x.die done, .bump UPD_LAZY_REPEAT x.die rep]),
                x.vecBusy (if u.isLazy then u.rows * (cdiv u.l 128 + 2) else cdiv u.l 128),
                if mal then bad else .seq [
                  x.srStep (.ofCode g.rmode) (if u.hasState then 2 * total else total),
                  x.next,
                  x.nanTrap (firstNan.map fun ((p, kd), f) => { unit := 3, fmt := f, kind := kd, elem := p })]]
/-- UPD. -/
def execUpd (c : PCell) (t : Tid) (w : Word128) (s : State) := run (onWord 7 0 w (updTr c t w)) s

end Sys2Proof.Machine
end

