-- ==== Sys2Proof/Machine/Ckpt.lean ====
section
/-! DEFINITION. Checkpoints to a neighbour's bulk tier, and taking over from one (R493 to R507). -/

namespace Sys2Proof.Machine

/-- Every page. -/
def allPages : PageSet := { inv := true }
/-- The union of two sets of pages. -/
def PageSet.union (a b : PageSet) : PageSet :=
  if b.inv then { inv := true, list := b.list.filter fun p => !a.has p } else b.list.foldl PageSet.add a
/-- The pages of a set, of `n` pages. -/
def PageSet.pages (p : PageSet) (n : Nat) : List Nat := if p.inv then (List.range n).filter p.has else p.list

/-- The regions of a table of 16-byte entries, where each is well formed, in the HBM windows, and none overlap (R494). -/
def regionsOf (bs : List Byte) : Option (List (Nat × Nat)) :=
  let es := chunksOf 16 (bs.length / 16) bs
  let rs := es.map fun e => (leAt e 0 8, leAt e 8 4)
  let apart := rs.zipIdx.all fun (r, i) => rs.zipIdx.all fun (s, j) =>
    i = j || r.1 + r.2 * 2 ^ 21 ≤ s.1 || s.1 + s.2 * 2 ^ 21 ≤ r.1
  if es.all (fun e => leAt e 12 4 = 0) && rs.all (fun r => r.1 % 2 ^ 21 = 0 && 1 ≤ r.2 && r.1 + r.2 * 2 ^ 21 ≤ 4 * hbmWindow) && apart then
    some rs
  else none

/-- Whether the parameters of an ARM hold to R493. -/
def Dev.armGood (d : Dev) (c : Cmd) : Bool :=
  let nreg := c.at 10 2
  c.at 8 1 = 0 && c.at 9 1 < 2 && 1 ≤ nreg && nreg ≤ 64 && c.at 12 2 < 2 ^ 15 && c.at 12 2 ≠ d.ownId && c.at 16 8 % 64 = 0 &&
    c.at 24 8 % 2 ^ 21 = 0 && 2 ^ 40 ≤ c.at 24 8 && c.at 24 8 + 2 * c.at 32 8 ≤ 2 ^ 41 && c.at 32 8 % 2 ^ 21 = 0 &&
    c.at 56 8 % 8 = 0 && c.at 56 8 < 2 ^ 56 && restZero c.pkt [(8, 6), (16, 28), (48, 20)]

/-- The completion of a checkpoint command by its source, or CAPABILITY_ABSENT without the engines. -/
def Tr.withCkpt (src : CmdSrc) (n : BitVec 32) (p : Nat → Bool) (k : Cmd → Tr) : Tr :=
  .withCmd src n 0x38 fun c => .read fun d =>
    if !p (c.at 8 1) then .skip else if !d.pkgFeature 68 then .complete c stCAPABILITY_ABSENT 0 else k c

/-- M and E copies of armed lines are recalled: their holders keep them in S (R495). -/
def Tr.recallArmed : Tr :=
  .read fun d =>
    let armed := fun (c : Copy) => (d.u.ckpt.page? (c.line * 64)).isSome
    let lines := ((d.u.coh.copies.filter fun c => armed c && c.st ≠ 1).map (·.line)).eraseDups
    .cohSt fun c => lines.foldl (fun c l => c.track l) { c with copies := c.copies.map fun x => if armed x then { x with st := 1 } else x }

/-- CKPT_ARM (R493 to R496): a held line that must be recalled is awaited. -/
def ckptArmTr (src : CmdSrc) (n : BitVec 32) : Tr :=
  .withCkpt src n (fun a => a ≠ 1 && a ≠ 2) fun c => .read fun d =>
    let bad := fun (st : Nat) => Tr.complete c st 0
    if !d.armGood c || d.u.ckpt.armed then bad stMALFORMED
    else .readVirt { d.cmdReq c 0 2 with source := 4 } (c.at 16 8) (16 * c.at 10 2) fun r => match r with
      | .wait => .skip
      | .bad st => bad st
      | .ok bs _ => match regionsOf bs with
        | none => bad stMALFORMED
        | some rs =>
          let total := rs.foldl (fun n r => n + r.2) 0
          let held := d.u.coh.copies.any fun x => x.st ≠ 1 && (pageIndex (x.line * 64) 0 rs).isSome && d.elapsed < x.hold
          if c.at 32 8 < (1 + total) * 2 ^ 21 then bad stMALFORMED
          else if held then .skip
          else .seq [
            .ckptSt fun k => { k with
              armed := true, slotBytes := c.at 32 8, start := c.at 48 8, notify := c.at 56 8, rate := c.at 64 4, regions := rs,
              d0 := allPages, d1 := allPages, clean := false },
            .fld CKPT_CFG CKPT_CFG_ARMED HD 1, .fld CKPT_CFG CKPT_CFG_GATE HD (c.at 9 1 % 2),
            .fld CKPT_CFG CKPT_CFG_NEIGHBOUR HD (c.at 12 2), .fld CKPT_CFG CKPT_CFG_INTERVAL HD (c.at 40 4),
            .reg CKPT_AREA HD (w64 (c.at 24 8)),
            .recallArmed, .complete c stOK 0]
/-- CKPT_ARM. -/
def execCkptArm (src : CmdSrc) (n : BitVec 32) (s : State) := run (ckptArmTr src n) s

/-! ## Abandoning and completing (R501, R502) -/

/-- The command that asked for a maquette ends. -/
def Tr.cutEnds (m : Maquette) (st result : Nat) : Tr :=
  .read fun d => .opt m.cmd fun id => .opt (d.u.cmd.cmds.find? (·.seqNo = id)) fun c => .complete c st result

/-- Writes that waited for a page go on. -/
def Tr.heldGo : Tr :=
  .read fun d => .each ((d.u.coh.reqs.filter (·.data.isSome)).map (·.line)).eraseDups fun l => .read fun d => .lineGo l d.u.coh.fuel

/-- The maquette in progress is abandoned with a status (R502). -/
def Tr.abandon (st : Nat) : Tr :=
  .read fun d => .opt d.u.ckpt.maq fun m => .seq [
    .ckptSt fun k =>
      let all := st = stPARTNER_LOST
      { k with maq := none, d0 := if all then allPages else k.d0.union m.f, d1 := if all then allPages else k.d1.union m.f },
    .fld CKPT_STATUS CKPT_STATUS_FAILED HD 1, .fld CKPT_STATUS CKPT_STATUS_FAIL_STATUS HD st, .fld CKPT_STATUS CKPT_STATUS_BUSY HD 0,
    .when (st = stPARTNER_LOST) (.reg CKPT_LAST_NUM HD 0),
    .cutEnds m st 0, .heldGo]

/-- The region table of a manifest: 64 entries, zero beyond NREG. -/
def regionBytes (rs : List (Nat × Nat)) : List Byte :=
  (List.range 64).flatMap fun i => match rs[i]? with
    | some (b, p) => leBytes 8 b ++ leBytes 4 p ++ leBytes 4 0
    | none => List.replicate 16 0

/-- Bytes 0x8 to 0x43F of a manifest (R500). -/
def CkptSt.manifest (c : CkptSt) (m : Maquette) : List Byte :=
  leBytes 4 0x4D515431 ++ leBytes 2 m.package ++ leBytes 2 c.regions.length ++ leBytes 8 m.beat ++ leBytes 8 c.slotBytes ++
    m.ilv.flatMap (leBytes 8) ++ leBytes 8 c.total ++ regionBytes c.regions

/-- The group records of a manifest. -/
def Maquette.groupRecords (m : Maquette) : List Byte := (List.range 4096).flatMap fun i => groupBytes (aget? m.groups i)

/-- Bytes written at an offset from AREA on the neighbour. -/
def Tr.atNeighbour (off : Nat) (bs : List Byte) : Tr :=
  .seq [.ckptSt fun c => { c with out := c.out ++ [(off, bs, [])] }, .bump CKPT_BYTES HD bs.length]

/-- Every write has completed: the manifest, then MNUM; then the registers, then CUT_BEAT at NOTIFY (R501). -/
def Tr.maquetteDone (m : Maquette) : Tr :=
  .read fun d =>
    let k := d.u.ckpt
    let base := m.slot * k.slotBytes
    .seq [
      .atNeighbour (base + 8) (k.manifest m), .atNeighbour (base + 0x1000) m.groupRecords, .atNeighbour base (leBytes 8 m.num),
      .ckptSt fun c => { c with maq := none },
      .reg CKPT_LAST_BEAT HD (w64 m.beat), .reg CKPT_LAST_NUM HD (w64 (m.num + m.slot * 2 ^ 32)),
      .fld CKPT_STATUS CKPT_STATUS_BUSY HD 0, .bump CKPT_MAQUETTES HD,
      .when (k.notify ≠ 0)
        (if d.isRemote k.notify then .postWrites HD k.notify (leBytes 8 m.beat) [] (fun _ => .nobody) false
         else .cohWrite agDma HD (localOf k.notify) (leBytes 8 m.beat) (fun _ => false) fun _ => .skip),
      .cutEnds m stOK m.beat, .heldGo]

/-- MAQUETTE_COMPLETE (R501, R502): the transfers of the maquette have ended, the pages `sent` before the last; with a status
other than OK it is abandoned. -/
def maquetteCompleteTr (status : BitVec 16) (sent : List Nat) : Tr :=
  .read fun d => .opt d.u.ckpt.maq fun m => .seq [
    .each sent .sendPage,
    if status.toNat ≠ stOK then .abandon status.toNat
    else .seq [
      .read fun d => .opt d.u.ckpt.maq fun m => .each (m.f.pages d.u.ckpt.total) .sendPage,
      .read fun d => .opt d.u.ckpt.maq fun x => match x.failed with
        | some st => .abandon st
        | none => .maquetteDone m]]
/-- MAQUETTE_COMPLETE. -/
def execMaquetteComplete (status : BitVec 16) (sent : List Nat) (s : State) := run (maquetteCompleteTr status sent) s

/-- PAGE_STAGED (R499): the pages `sent` have left before; then a page is staged, and writes that waited for it go on. -/
def pageStagedTr (page : Nat) (sent : List Nat) : Tr := .seq [.each sent .sendPage, .stagePage page, .heldGo]
/-- PAGE_STAGED. -/
def execPageStaged (page : Nat) (sent : List Nat) (s : State) := run (pageStagedTr page sent) s

/-- CKPT_FULL (R502): a write of CKPT_CTL. -/
def execCkptFull (v : Word) (s : State) := run (.writeReg CKPT_CTL HD v) s

/-! ## Cuts (R497, R498, R503) -/

/-- CUT commands that wait for their edge. -/
def Dev.cuts (d : Dev) : List Cmd := d.u.cmd.cmds.filter fun c => c.op = 0x38 && c.at 8 1 = 2 && c.stage = 1

/-- Whether GATE blocks a cut (R498). -/
def Dev.gated (d : Dev) : Bool :=
  d.flag CKPT_CFG CKPT_CFG_GATE HD && d.fld CKPT_LAST_NUM CKPT_LAST_NUM_MNUM HD ≠ 0 &&
    (d.reg CKPT_RELEASE HD).toNat < (d.reg CKPT_LAST_BEAT HD).toNat

/-- A cut at the edge that begins beat `b`. -/
def Tr.cut (b : Nat) (cmd : Option Nat) : Tr :=
  .read fun d =>
    let k := d.u.ckpt
    let last := d.reg CKPT_LAST_NUM HD
    let slot := if CKPT_LAST_NUM_MNUM.get last = 0 then 0 else 1 - CKPT_LAST_NUM_SLOT.get last
    let full := d.flag CKPT_CTL CKPT_CTL_FULL HD
    let d0 := if full then allPages else k.d0
    let d1 := if full then allPages else k.d1
    let f := if slot = 0 then d0 else d1
    let m : Maquette := {
      slot := slot, num := k.lastNum + 1, beat := b, f := f, total := f.size k.total, package := d.ownId,
      ilv := [(d.reg MEM_ILV_CUR HD 0).toNat, (d.reg MEM_ILV_CUR HD 1).toNat, (d.reg MEM_ILV_CUR_TOP HD).toNat],
      groups := d.u.groups, cmd := cmd }
    .seq [
      .ckptSt fun k => { k with
        d0 := if slot = 0 then {} else d0, d1 := if slot = 0 then d1 else {}, clean := true, maq := some m, lastNum := k.lastNum + 1 },
      .fld CKPT_CTL CKPT_CTL_FULL HD 0, .fld CKPT_STATUS CKPT_STATUS_BUSY HD 1,
      .fld CKPT_PROGRESS CKPT_PROGRESS_SENT HD 0, .fld CKPT_PROGRESS CKPT_PROGRESS_TOTAL HD m.total,
      .atNeighbour (slot * k.slotBytes) (leBytes 8 0)]

/-- The cuts due at the edge that begins beat `b` (R497, R498, R503). One cut serves an interval and the oldest CUT. -/
def Tr.ckptEdge (b : Nat) : Tr :=
  .read fun d =>
    let k := d.u.ckpt
    let interval := d.fld CKPT_CFG CKPT_CFG_INTERVAL HD
    let due := interval ≠ 0 && k.start ≤ b && (b - k.start) % interval = 0
    let can := k.maq.isNone && !d.gated
    let cmd := d.cuts.head?
    .when k.armed (
      if can && (due || cmd.isSome) then .seq [
        .cut b (cmd.map (·.seqNo)), .opt cmd fun c => .onCmd c.seqNo fun x => { x with stage := 2 }]
      else .when due (.bump CKPT_CUTS_MISSED HD))

/-- CKPT_CUT (R503): it waits for its edge. -/
def ckptCutTr (src : CmdSrc) (n : BitVec 32) : Tr :=
  .withCkpt src n (· = 2) fun c => .read fun d =>
    if !restZero c.pkt [(8, 1)] || !d.u.ckpt.armed then .complete c stMALFORMED 0
    else .onCmd c.seqNo fun x => { x with stage := 1 }
/-- CKPT_CUT. -/
def execCkptCut (src : CmdSrc) (n : BitVec 32) (s : State) := run (ckptCutTr src n) s

/-- CKPT_DISARM (R503): a maquette in progress is abandoned, with a status that the spec does not give; cuts not yet made
end as on a package that is not armed. -/
def ckptDisarmTr (src : CmdSrc) (n : BitVec 32) : Tr :=
  .withCkpt src n (· = 1) fun c => .read fun d =>
    if !restZero c.pkt [(8, 1)] || !d.u.ckpt.armed then .complete c stMALFORMED 0
    else .seq [
      .when d.u.ckpt.maq.isSome (.fresh fun i => .abandon ((Config.freeWord i).toNat % 2 ^ 16)),
      .each d.cuts fun c => .complete c stMALFORMED 0,
      .ckptSt fun k => { k with armed := false, regions := [], d0 := {}, d1 := {}, clean := false },
      .fld CKPT_CFG CKPT_CFG_ARMED HD 0, .complete c stOK 0]
/-- CKPT_DISARM. -/
def execCkptDisarm (src : CmdSrc) (n : BitVec 32) (s : State) := run (ckptDisarmTr src n) s

/-! ## Restore (R504, R505) -/

/-- Bytes of the maquette area as SOURCE answers them: unlisted ones are zero. -/
def areaBytes (area : List (Nat × Byte)) (o n : Nat) : List Byte := (List.range n).map fun i => agetD area (o + i) 0

/-- The slot that a restore selects (R504, R505): the newest complete maquette, or that of a cut beat. -/
def areaSlot (area : List (Nat × Byte)) (slotBytes beat : Nat) : Option Nat :=
  let mnum := fun (s : Nat) => leNat (areaBytes area (s * slotBytes) 8)
  let cut := fun (s : Nat) => leNat (areaBytes area (s * slotBytes + 0x10) 8)
  let ok := [0, 1].filter fun s => mnum s ≠ 0 && (beat = 0 || cut s = beat)
  ok.foldl (fun best s => match best with | some t => if mnum t < mnum s then some s else best | none => some s) none

/-- CKPT_RESTORE (R504, R505). `area`: what the area on SOURCE answers, from AREA on; `again`: what the second read of MNUM
gives; `status`: a status that a transfer of the copy ended with. Contents restored by a command that does not end with OK
are undefined. -/
def ckptRestoreTr (src : CmdSrc) (n : BitVec 32) (area : List (Nat × Byte)) (again : Word) (status : BitVec 16) : Tr :=
  .withCmd src n 0x39 fun c => .read fun d =>
    let l := c.at 12 2
    let sb := c.at 24 8
    let bad := fun (st : Nat) => Tr.complete c st 0
    let gone := fun (p : Nat) => d.lost p l || (d.remap? p l).isNone
    if !restZero c.pkt [(12, 2), (16, 24)] || 2 ^ 15 ≤ l then bad stMALFORMED
    else if !d.pkgFeature 68 then bad stCAPABILITY_ABSENT
    else if d.u.ckpt.armed || d.running then bad stMALFORMED
    else if l ≠ d.ownId && gone 0 && gone 1 then bad stPARTNER_LOST
    else .seq [.readFence 0, .readFence 1,
      match areaSlot area sb (c.at 32 8) with
      | none => bad stMALFORMED
      | some s =>
        let at_ := fun (o k : Nat) => leNat (areaBytes area (s * sb + o) k)
        let rs := ((List.range (min 64 (at_ 0xE 2))).map fun i => (at_ (0x40 + 16 * i) 8, at_ (0x48 + 16 * i) 4))
        let total := rs.foldl (fun n r => n + r.2) 0
        let ilv := [(d.reg MEM_ILV_CUR HD 0).toNat, (d.reg MEM_ILV_CUR HD 1).toNat, (d.reg MEM_ILV_CUR_TOP HD).toNat]
        if at_ 8 4 ≠ 0x4D515431 || at_ 0x18 8 ≠ sb || at_ 0xC 2 ≠ d.ownId || ([0x20, 0x28, 0x30].map fun o => at_ o 8) ≠ ilv then
          bad stMALFORMED
        else
          let end_ := if status.toNat ≠ stOK then status.toNat else if again.toNat ≠ at_ 0 8 then stMALFORMED else stOK
          .fresh fun idx =>
            let bytes := fun (o k : Nat) =>
              if end_ = stOK then areaBytes area (s * sb + o) k else (freeBytes idx (o + k)).drop o
            let records := ((List.range 4096).map fun i => (i, bytes (0x1000 + 64 * i) 64)).filter fun r =>
              (areaBytes area (s * sb + 0x1000 + 64 * r.1) 64).any (· ≠ 0)
            .seq [
              .each (List.range total) fun p =>
                .cohWrite agDma HD (pageAddr p rs) (bytes (2 ^ 21 + p * 2 ^ 21) (2 ^ 21)) (fun _ => false) fun _ => .skip,
              .readGroups { d.cmdReq c 0 4 with va := 0 } true records [] fun g => match g with
                | .wait => .skip
                | g => .seq [
                  .units fun u => { u with groups := match g with
                    | .ok gs => gs.foldl (fun t e => tinsert t e.1 ({ e.2 with keep := false } : Group).resolve) []
                    | _ => [] },
                  match g with
                  | .bad st => bad (if end_ = stOK then st else end_)
                  | _ => .complete c end_ (if end_ = stOK then at_ 0x10 8 else 0)]]]
/-- CKPT_RESTORE. -/
def execCkptRestore (src : CmdSrc) (n : BitVec 32) (area : List (Nat × Byte)) (again : Word) (status : BitVec 16) (s : State) :=
  run (ckptRestoreTr src n area again status) s

end Sys2Proof.Machine
end

