-- ==== Sys2Proof/Machine/Dispatcher.lean ====
section
/-! DEFINITION. The dispatch unit: route tables, claims, rounds, speculative fetches and the routing predictor (R232 to R255). -/

namespace Sys2Proof.Machine

/-- A change of the dispatch units. -/
def Tr.routeSt (f : RouteSt → RouteSt) : Tr := .units fun u => { u with route := f u.route }

/-- Table `t` of a die. -/
def Dev.routeTbl (d : Dev) (die t : Nat) : RouteTbl := agetD d.u.route.tables (2 * die + t) {}

/-- A change of a table. -/
def Tr.onTbl (die t : Nat) (f : RouteTbl → RouteTbl) : Tr :=
  .routeSt fun r => { r with tables := aupd r.tables (2 * die + t) {} f }

/-- STATE of ROUTE_TBL_t: 0 CLOSED, 1 LOADING, 2 OPEN, 3 CLOSING (R233). -/
def Dev.tblState (d : Dev) (die t : Nat) : Nat := d.fld ROUTE_TBL ROUTE_TBL_STATE die t
/-- STATE := s. -/
def Tr.tblState (die t s : Nat) : Tr := .fld ROUTE_TBL ROUTE_TBL_STATE die s t

/-- A translation asked for by the dispatch unit (R427). -/
def tblReq (die t : Nat) (b : RouteTbl) : XReq :=
  { die := die, slot := b.aslot, va := 0, access := 0, source := 3, agent := agCell, who := .table die t }

/-! ## Answers of claims (R237 to R244) -/

/-- A change of an RDISP. -/
def Tr.onDisp (op : Nat) (f : DispSt → DispSt) : Tr :=
  .routeSt fun r => { r with disps := r.disps.map fun q => if q.op = op then f q else q }

/-- The RDISP of an operation. -/
def Dev.disp? (d : Dev) (op : Nat) : Option DispSt := d.u.route.disps.find? (·.op = op)

/-- An RDISP is gone, with its claims. -/
def Tr.dropDisp (op : Nat) : Tr :=
  .routeSt fun r => { r with
    disps := r.disps.filter (·.op ≠ op), lanes := r.lanes.map fun e => (e.1, e.2.filter (·.disp ≠ op)) }

/-- An RDISP ends with a status: the thread traps with cause MEMORY (R244). -/
def Tr.dispBad (op st : Nat) : Tr := .seq [.dropDisp op, .releaseBad op st]

/-- The expert of a choice record's rank. -/
def choiceExpert (r : List Byte) (j : Nat) : Nat := leAt r (8 + 2 * j) 2
/-- NC of a choice record. -/
def choiceNc (r : List Byte) : Nat := min (leAt r 4 1) 8

/-- A combine record (R242, R243), with the weights it rounds (for RENORM). -/
def combineRecord (renorm : Bool) (ctl : NumCtl) (t : TokenSt) : List Byte × List VElt :=
  let kept := (List.range 8).filterMap fun j => t.kept.find? fun q => q.1 = j
  let w := fun (j : Nat) => leAt t.record (24 + 4 * j) 4
  let vals := kept.map fun q => fp32.decode (w q.1)
  let sum := rnd32 ctl (vals.foldl Val.add (.fin false 0))
  let ws := if renorm then vals.map fun v =>
      let q := v.div sum
      vround fp32 { ctl with mode := .rne } 0 (q.isNan && !(v.isNan || vals.any Val.isNan)) q
    else []
  let wbits := if renorm then ws.map (·.e.bits) else kept.map fun q => w q.1
  let flags := leAt t.record 5 1 % 4 + b01 t.dropped * 4 + b01 t.late * 8
  (t.record.take 4 ++ leBytes 1 kept.length ++ leBytes 1 flags ++ leBytes 2 0 ++
    ((List.range 8).flatMap fun i => leBytes 4 ((kept[i]?).elim 0xFFFFFFFF (·.2))) ++
    ((List.range 8).flatMap fun i => leBytes 2 ((kept[i]?).elim 0xFFFF fun q => choiceExpert t.record q.1)) ++ leBytes 8 0 ++
    ((List.range 8).flatMap fun i => leBytes 4 (wbits.getD i 0)) ++ leBytes 32 0, ws)

/-- The last answer has come: combine records and the activity mask are written (R242, R243). -/
def Tr.dispDone (q : DispSt) : Tr :=
  .read fun d =>
    let cs := d.cellAt q.pk
    let th := d.threadAt q.pk q.thread
    let x : Ctx := { die := q.pk / 168, pk := q.pk, c := q.c, t := q.thread, w := q.w, th := { th with pc := q.pc }, role := 0 }
    let recs := q.tokens.map (combineRecord q.renorm (x.ctl 4))
    let active := q.tokens.map fun t =>
      leAt t.record 5 1 % 4 = 0 && t.kept.any fun k => k.2 ≠ 0xFFFFFFFE
    let rs := recs.flatMap (·.2)
    .seq [
      .writeSpad q.pk q.rd (recs.flatMap (·.1)),
      .when q.mout (.writeSpad q.pk q.rc (cs.maskBytes q.rc active)),
      x.tally 0 (vtally false rs),
      .dropDisp q.op, .release q.op,
      x.nanTrap ((vnan (rs.zipIdx.map fun (r, i) => (i, r))).map fun (p, kd) => { unit := 4, fmt := 0, kind := kd, elem := p })]

/-- The next replacement claim of an RDISP (R239): the first token that holds fewer than K successes and has candidates left. -/
def DispSt.replacement (q : DispSt) : Option (Nat × Nat) :=
  (q.tokens.zipIdx.find? fun (t, _) =>
    leAt t.record 5 1 = 0 && t.kept.length < q.k && t.nextRank < choiceNc t.record).map fun (t, i) => (i, t.nextRank)

/-- A claim reaches its lane (R238, R244). -/
def Tr.pushClaim (die t : Nat) (c : Claim) : Tr :=
  .read fun d => .routeSt fun r =>
    { r with lanes := aupd r.lanes (8 * die + 4 * t + c.expert % 4) [] (· ++ [{ c with late := d.tblState die t = 3 }]) }

/-- After an answer: when none is missing, a replacement claim follows, or the RDISP is done. -/
def Tr.dispNext (op : Nat) : Tr :=
  .read fun d => .opt (d.disp? op) fun q =>
    let die := q.pk / 168
    if q.left ≠ 0 then .skip
    else match (if (d.routeTbl die q.tbl).next then q.replacement else none) with
      | none => .dispDone q
      | some (i, rank) =>
        if d.tblState die q.tbl = 0 then .dispBad op stMALFORMED
        else .seq [
          .onDisp op fun q => { q with
            left := 1, tokens := q.tokens.modify i fun t => { t with nextRank := rank + 1 } },
          .pushClaim die q.tbl { disp := op, token := i, rank := rank,
                                 expert := choiceExpert ((q.tokens[i]?).elim [] (·.record)) rank }]

/-- The answer of a claim: kept with its ROW, dropped, or LATE. -/
inductive Answer where
  | kept (row : Nat)
  | dropped
  | late

/-- A claim is answered. -/
def Tr.answerClaim (die t : Nat) (c : Claim) (a : Answer) : Tr :=
  let known := fun (b : RouteTbl) => c.expert < b.experts.length
  .seq [
    .bump ROUTE_CLAIMS die,
    (match a with
      | .kept row => .seq [
          .bump ROUTE_KEPT die,
          .onTbl die t fun b => { b with claims := b.claims + 1, kept := b.kept + 1 },
          .onDisp c.disp fun q =>
            let toks := q.tokens.modify c.token fun k => { k with kept := k.kept ++ [(c.rank, row)] }
            { q with left := q.left - 1, tokens := toks }]
      | a =>
        let late := match a with | .late => true | _ => false
        .seq [
          .bump ROUTE_DROPS die, .when late (.bump ROUTE_LATE die),
          .onTbl die t fun b => { b with
            claims := b.claims + 1, drops := b.drops + 1, late := b.late || late,
            fails := if known b then aupd b.fails c.expert 0 (· + 1) else b.fails },
          .onDisp c.disp fun q =>
            let toks := q.tokens.modify c.token fun k => { k with dropped := true, late := k.late || late }
            { q with left := q.left - 1, tokens := toks }]),
    .dispNext c.disp]

/-- DISPATCH_CLAIM (R237 to R240, R244): a lane serves the claim at its head. -/
def dispatchClaimTr (die : TDie) (tbl : Fin 2) (lane : Fin 4) : Tr :=
  .read fun d =>
    let key := 8 * die.val + 4 * tbl.val + lane.val
    let st := d.tblState die.val tbl.val
    match agetD d.u.route.lanes key [] with
    | [] => .skip
    | c :: rest =>
      let pop := Tr.routeSt fun r => { r with lanes := tinsert r.lanes key rest }
      let ans := fun (a : Answer) => Tr.seq [pop, .answerClaim die.val tbl.val c a]
      if c.late then ans .late
      else if st = 1 then .skip
      else if st = 0 then .dispBad c.disp stMALFORMED
      else
        let b := d.routeTbl die.val tbl.val
        match b.experts[c.expert]? with
        | none => ans .dropped
        | some e =>
          if e.null then ans (.kept 0xFFFFFFFE)
          else
            let slot := agetD b.fill c.expert 0
            if e.cap ≤ slot then ans .dropped
            else
              let token := match d.disp? c.disp with
                | some q => ((q.tokens[c.token]?).elim [] (·.record))
                | none => []
              .writeVirt (tblReq die.val tbl.val b) (e.dlist + 8 * slot) (leBytes 8 (leAt token 0 4 + c.rank * 2 ^ 32 + 2 ^ 35))
                fun st => match st with
                | none => .skip
                | some st =>
                  if st ≠ stOK then .dispBad c.disp st
                  else .seq [
                    .onTbl die.val tbl.val fun b => { b with fill := aupd b.fill c.expert 0 (· + 1) },
                    ans (.kept ((e.rowBase + slot) % 2 ^ 32))]
/-- DISPATCH_CLAIM. -/
def execDispatchClaim (die : TDie) (tbl : Fin 2) (lane : Fin 4) (s : State) := run (dispatchClaimTr die tbl lane) s

/-- RDISP (R237, R238, R243, R244). -/
def rdispTr (c : PCell) (t : Tid) (w : Word128) : Tr :=
  issue c t w (rMask true false true true true false false false false ||| mIMM 7) fun x => .read fun d =>
    let tbl := bitsOf x.imm 0 1
    let k := bitsOf x.imm 1 4
    let mout := bitOf x.imm 6
    let n := x.rn % 2 ^ 24
    if k = 0 || 8 < k || ([x.ra, x.rdv] ++ (if mout then [x.rc] else [])).any (· % 64 ≠ 0) then x.illegal
    else if n = 0 then x.next
    else x.inSpad ([(x.ra, 64 * n), (x.rdv, 128 * n)] ++ (if mout then [(x.rc, cdiv n 8)] else [])) <|
      x.unpoisoned (fun cs => cs.spadPoison x.ra (64 * n)) <| x.hold1 1 tbl 0 fun id =>
        let cs := d.cellAt x.pk
        let recs := (List.range n).map fun i => cs.spad.slice (x.ra + 64 * i) 64
        let claims := (List.range k).flatMap fun j => recs.zipIdx.filterMap fun (r, i) =>
          if leAt r 5 1 = 0 && j < choiceNc r then some (i, j, choiceExpert r j) else none
        .seq [
          x.vecBusy (cdiv n 8), x.next,
          if !claims.isEmpty && d.tblState x.die tbl = 0 then .releaseBad id stMALFORMED
          else .seq [
            .routeSt fun r => { r with disps := r.disps ++ [{
              op := id, pk := x.pk, c := x.c, thread := x.t, pc := x.th.pc, w := x.w, tbl := tbl, k := k,
              renorm := bitOf x.imm 5, mout := mout, rc := x.rc, rd := x.rdv, left := claims.length,
              tokens := recs.map fun r => { record := r, nextRank := k } }] },
            .each claims fun (i, j, e) => .pushClaim x.die tbl { disp := id, token := i, rank := j, expert := e },
            .when claims.isEmpty (.dispNext id)]]
/-- RDISP. -/
def execRdisp (c : PCell) (t : Tid) (w : Word128) (s : State) := run (onWord 8 1 w (rdispTr c t w)) s

/-! ## Speculative fetches (R249 to R253, R331) -/

/-- Counter of an expert of a layer slot (R249). -/
def Dev.routePred (d : Dev) (die layer e : Nat) : Nat := agetD d.u.route.pred (die * 65536 + layer * 1024 + e) 0

/-- The experts a table predicts at OPEN: descending counter, then ascending index (R249). -/
def Dev.predicted (d : Dev) (die : Nat) (b : RouteTbl) : List Nat :=
  let th := d.fld ROUTE_CTL ROUTE_CTL_THRESH die
  let ok := (b.experts.zipIdx.filter fun (e, i) => e.isLocal && e.wtiles ≠ 0 && th ≤ d.routePred die b.layer i).map (·.2)
  if !b.predict || !d.flag ROUTE_CTL ROUTE_CTL_PRED_EN die || !d.dieFeature die 114 then []
  else [3, 2, 1, 0].flatMap fun v => ok.filter fun i => d.routePred die b.layer i = v

/-- The fetches of predicted experts within the budget of tiles (R249). -/
def wantList (budget : Nat) (b : RouteTbl) : List Nat → Nat → List (Nat × Nat × Nat × Nat)
  | [], _ => []
  | i :: is, used =>
    match b.experts[i]? with
    | none => []
    | some e =>
      let n := min e.wtiles (budget - used)
      if n = 0 then [] else (i, e.wbase, e.wbase + 4096 * n, 0) :: wantList budget b is (used + n)

/-- One speculative request of a table, when the limits allow (R250). -/
def Tr.specOne (die t : Nat) (k : Tr) : Tr :=
  .read fun d =>
    let b := d.routeTbl die t
    match b.want.find? fun q => q.2.2.2 ≠ 1 with
    | none => .skip
    | some q =>
      let (e, va, end_, mode) := q
      let drop := Tr.onTbl die t fun b => { b with want := b.want.filter (· ≠ q) }
      if end_ ≤ va then .seq [drop, k]
      else if d.fld ROUTE_SPEC_CFG ROUTE_SPEC_CFG_LIMIT die ≤ d.u.specFly die || 16384 ≤ d.u.dieFly die then .skip
      else
        let len := min (end_ - va) (512 - va % 512)
        .translate { tblReq die t b with va := va, spec := true, agent := agSpec } fun r => match r with
          | .ok ga _ pin =>
            if d.localMmio ga || d.isRemote ga then .seq [.bump ROUTE_SPEC_STOPPED die,
              .onTbl die t fun b => { b with want := b.want.filter fun q => q.1 ≠ e }, k]
            else
              let cast := mode = 0 && (rangeOf (d.castRanges die) ga).isSome
              .seq [
                .routeSt fun r => { r with spec := r.spec ++ [{
                  die := die, tbl := t, expert := e, va := va, len := len, gran := d.normGa ga / 512, header := cast }] },
                .onTbl die t fun b => { b with want := b.want.map fun s =>
                  if s = q then (e, (if cast then va else va + len), end_, (if cast then 1 else mode)) else s },
                .when (!pin) (.subscribe die (d.normGa ga / 512) (.spec die t e)),
                k]
          | _ => .seq [.bump ROUTE_SPEC_STOPPED die,
              .onTbl die t fun b => { b with want := b.want.filter fun q => q.1 ≠ e }, k]

/-- Speculative requests go out as the limits allow. -/
def Tr.specGo (die t : Nat) : Nat → Tr
  | 0 => .dieRegs die
  | fuel + 1 => .read fun d =>
    if (d.routeTbl die t).want.any fun q => q.2.2.2 ≠ 1 then .specOne die t (.specGo die t fuel) else .dieRegs die

/-- Bytes of speculative fetches that are discarded. -/
def Tr.specDiscard (die t n : Nat) : Tr :=
  .seq [.bump ROUTE_SPEC_DISCARD die n, .onTbl die t fun b => { b with discard := b.discard + n }]

/-- SPECULATIVE_LINE_ARRIVE (R250 to R253): data arrives, poison with it, as a speculative line; or it is discarded. -/
def speculativeLineArriveTr (die : TDie) (tbl : Fin 2) (expert : BitVec 10) (va : BitVec 57) : Tr :=
  .read fun d =>
    let mine := fun (s : SpecLine) => s.die = die.val && s.tbl = tbl.val && s.expert = expert.toNat && s.va = va.toNat && !s.arrived
    .opt (d.u.route.spec.find? mine) fun s =>
      let la := s.gran * 512 + s.va % 512
      let gone := Tr.routeSt fun r => { r with spec := r.spec.filter fun q => q ≠ s }
      .readRange true agSpec die.val la s.len fun o =>
        let b := blockOf o.bytes
        .seq [
          .bump ROUTE_SPEC_BYTES die.val s.len,
          .when s.closed.isNone (.onTbl die.val tbl.val fun b => { b with specBytes := b.specBytes + s.len }),
          (match s.closed with
            | some true => gone
            | some false => .seq [gone, .bump ROUTE_SPEC_DISCARD die.val s.len]
            | none =>
              if o.st ≠ stOK then .seq [gone, .specDiscard die.val tbl.val s.len]
              else .routeSt fun r => { r with spec := r.spec.map fun q =>
                if q = s then { q with arrived := true, poison := !o.poisoned.isEmpty } else q }),
          .when (s.header && s.closed.isNone) (.onTbl die.val tbl.val fun t => { t with
            want := t.want.flatMap fun q =>
              if q.1 = s.expert && q.2.1 = s.va && q.2.2.2 = 1 then
                (if b.good then [(q.1, s.va + s.len, min q.2.2.1 (s.va + b.fetched), 2), (q.1, s.va + b.slot, q.2.2.1, 0)] else [])
              else [q] }),
          .read fun d => .specGo die.val tbl.val (d.u.dieFly die.val + 16384)]
/-- SPECULATIVE_LINE_ARRIVE. -/
def execSpeculativeLineArrive (die : TDie) (tbl : Fin 2) (expert : BitVec 10) (va : BitVec 57) (s : State) :=
  run (speculativeLineArriveTr die tbl expert va) s

/-- A demand access to a granule uses a speculative line of its die (R252, R253): it becomes an ordinary line, and its poison
goes with it. -/
def Tr.specHit (die gran : Nat) : Tr :=
  .read fun d =>
    let hits := d.u.route.spec.filter fun s => s.die = die && s.gran = gran && s.arrived
    .when (!hits.isEmpty) (.seq [
      .bump ROUTE_SPEC_EARLY die (hits.filter fun s => s.closed.isNone).length,
      .routeSt fun r => { r with spec := r.spec.filter fun s => !hits.contains s }])

/-- At the end of a round the speculative lines of the table are kept as ordinary lines, or invalidated; fetches still in
flight follow as they arrive (R252). -/
def Tr.specEnd (die t : Nat) (keep : SpecLine → Bool) : Tr :=
  .read fun d =>
    let mine := d.u.route.spec.filter fun s => s.die = die && s.tbl = t && s.closed.isNone
    let lost := (mine.filter fun s => s.arrived && !keep s).foldl (fun n s => n + s.len) 0
    .seq [
      .specDiscard die t lost,
      .routeSt fun r =>
        let spec := r.spec.filterMap fun s =>
          if s.die = die && s.tbl = t && s.closed.isNone then
            if s.arrived then none else some { s with closed := some (keep s) }
          else some s
        { r with spec := spec },
      .onTbl die t fun b => { b with want := [] }]

/-! ## Rounds (R232 to R234, R245, R246) -/

/-- Every waiting claim of a table is answered LATE. -/
def Tr.allLate (die t : Nat) : Nat → Tr
  | 0 => .skip
  | fuel + 1 => .read fun d =>
    match (List.range 4).find? fun l => !(agetD d.u.route.lanes (8 * die + 4 * t + l) []).isEmpty with
    | none => .skip
    | some l =>
      let key := 8 * die + 4 * t + l
      match agetD d.u.route.lanes key [] with
      | [] => .skip
      | c :: rest => .seq [
          .routeSt fun r => { r with lanes := tinsert r.lanes key rest }, .answerClaim die t c .late, .allLate die t fuel]

/-- Claims that wait at a table, with the replacements they may lead to: enough turns for `Tr.allLate`. -/
def Dev.claimFuel (d : Dev) (die t : Nat) : Nat :=
  (List.range 4).foldl (fun n l => n + (agetD d.u.route.lanes (8 * die + 4 * t + l) []).length) 0 +
    (d.u.route.disps.foldl (fun n q => n + 8 * q.tokens.length) 0)

/-- An RRND ends with a status (R234): the table is CLOSED with ERROR set, and every waiting claim is LATE. -/
def Tr.roundBad (die t st : Nat) : Tr :=
  .read fun d =>
    let b := d.routeTbl die t
    .seq [
      .onTbl die t fun b => { b with next := false },
      .allLate die t (d.claimFuel die t),
      .tblState die t 0, .fld ROUTE_TBL ROUTE_TBL_ERROR die 1 t, .fld ROUTE_TBL ROUTE_TBL_ERR_STATUS die st t,
      .specEnd die t fun _ => false,
      .routeSt fun r => { r with tables := terase r.tables (2 * die + t) },
      .releaseBad b.op st]

/-- An expert entry of 32 bytes, where it holds no reserved value (R232). -/
def expertOf (e : List Byte) : Option Expert :=
  let fl := leAt e 2 1
  let dest := leAt e 4 4
  if 4 ≤ fl || leAt e 3 1 ≠ 0 || dest / 2 ^ 18 ≠ 0 || dest.testBit 15 || leAt e 8 8 % 8 ≠ 0 || leAt e 24 8 % 4096 ≠ 0 then none
  else some { cap := leAt e 0 2, null := fl.testBit 0, isLocal := fl.testBit 1, dest := dest, dlist := leAt e 8 8,
              rowBase := leAt e 16 4, wtiles := leAt e 20 4, wbase := leAt e 24 8 }

/-- A descriptor's header without a reserved value (R232): E, flags, layer and summary address. -/
def headerOk (h : List Byte) : Bool :=
  1 ≤ leAt h 0 2 && leAt h 0 2 ≤ 1024 && leAt h 2 1 ≤ 1 && leAt h 3 1 < 4 && leAt h 4 1 < 64 && leAt h 5 3 = 0 &&
    leAt h 8 8 % 64 = 0 && ((h.drop 16).take 48).all (· = 0)

/-- ROUTE_TABLE_LOADED (R232 to R234, R249): the descriptor is read, and the table is OPEN, or the RRND ends. -/
def routeTableLoadedTr (die : TDie) (tbl : Fin 2) : Tr :=
  .read fun d =>
    let b := d.routeTbl die.val tbl.val
    let x := tblReq die.val tbl.val b
    if d.tblState die.val tbl.val ≠ 1 then .skip
    else .readVirt x b.va 64 fun r => match r with
      | .wait => .skip
      | .bad st => .roundBad die.val tbl.val st
      | .ok h _ =>
        if !headerOk h then .roundBad die.val tbl.val stMALFORMED
        else
          let n := leAt h 0 2
          .readVirt x (b.va + 64) (32 * n) fun r => match r with
            | .wait => .skip
            | .bad st => .roundBad die.val tbl.val st
            | .ok es _ => match (List.range n).mapM fun i => expertOf ((es.drop (32 * i)).take 32) with
              | none => .roundBad die.val tbl.val stMALFORMED
              | some ex =>
                let b' := { b with next := leAt h 2 1 = 1, clear := (leAt h 3 1).testBit 0, predict := (leAt h 3 1).testBit 1,
                                   layer := leAt h 4 1, summary := leAt h 8 8, experts := ex }
                .seq [
                  .read fun d =>
                    let p := d.predicted die.val b'
                    .onTbl die.val tbl.val fun _ => { b' with
                      op := 0, predicted := p, want := wantList (d.fld ROUTE_SPEC_CFG ROUTE_SPEC_CFG_BUDGET die.val) b' p 0 },
                  .tblState die.val tbl.val 2,
                  .release b.op,
                  .specGo die.val tbl.val 16384]
/-- ROUTE_TABLE_LOADED. -/
def execRouteTableLoaded (die : TDie) (tbl : Fin 2) (s : State) := run (routeTableLoadedTr die tbl) s

/-- The round summary (R245). -/
def summaryBytes (b : RouteTbl) (t round : Nat) (aborted : Bool) (hit waste miss : Nat) : List Byte :=
  leBytes 8 round ++ leBytes 2 b.experts.length ++ leBytes 1 t ++ leBytes 1 (b01 aborted + 2 * b01 b.late) ++
    leBytes 4 b.claims ++ leBytes 4 b.kept ++ leBytes 4 b.drops ++ leBytes 4 hit ++ leBytes 4 waste ++ leBytes 4 miss ++
    leBytes 4 0 ++ leBytes 8 b.specBytes ++ leBytes 8 b.discard ++ leBytes 8 0 ++
    (List.range b.experts.length).flatMap fun e =>
      leBytes 4 (agetD b.fill e 0 % 2 ^ 16) ++ leBytes 4 (agetD b.fails e 0)

/-- Writes of zero to the unfilled slots of each expert's list (R240). -/
def Tr.clearLists (x : XReq) (b : RouteTbl) : List Nat → (Option Nat → Tr) → Tr
  | [], k => k (some stOK)
  | i :: is, k =>
    match b.experts[i]? with
    | none => k (some stOK)
    | some e =>
      let f := agetD b.fill i 0
      if e.null || e.cap ≤ f then .clearLists x b is k
      else .writeVirt x (e.dlist + 8 * f) (List.replicate (8 * (e.cap - f)) 0) fun st =>
        if st = some stOK then .clearLists x b is k else k st

/-- The end of a round: its summary, the predictor, speculation and the table (R245, R246, R252, R254). -/
def Tr.roundEnd (die t : Nat) : Tr :=
  .read fun d =>
    let b := d.routeTbl die t
    let x := tblReq die t b
    let used := fun (e : Nat) => agetD b.fill e 0 ≠ 0
    let loc := (b.experts.zipIdx.filter fun (e, _) => e.isLocal).map (·.2)
    let n := fun (p : Nat → Bool) => if b.predict then (loc.filter p).length else 0
    let hit := n fun e => b.predicted.contains e && used e
    let waste := n fun e => b.predicted.contains e && !used e
    let miss := n fun e => !b.predicted.contains e && used e
    let round := (d.fld ROUTE_TBL ROUTE_TBL_ROUND die t + 1) % 2 ^ 32
    let train := b.predict && !b.aborted
    let finish : Tr := .seq [
      .fld ROUTE_TBL ROUTE_TBL_ROUND die round t, .tblState die t 0,
      .when train (.seq [
        .bump ROUTE_PRED_HIT die hit, .bump ROUTE_PRED_WASTE die waste, .bump ROUTE_PRED_MISS die miss,
        .routeSt fun r => { r with pred := (List.range b.experts.length).foldl (fun p e =>
          let k := die * 65536 + b.layer * 1024 + e
          let v := agetD p k 0
          tset (fun _ => 0) p k (if used e then min 3 (v + 1) else v - 1)) r.pred }]),
      .routeSt fun r => { r with tables := terase r.tables (2 * die + t) },
      .release b.op]
    let summary : Tr := .read fun d => .writeVirt x b.summary (summaryBytes (d.routeTbl die t) t round b.aborted hit waste miss)
      fun st => match st with
      | none => .skip
      | some st => if st ≠ stOK then .roundBad die t st else finish
    .seq [
      .specEnd die t fun s => !b.aborted && used s.expert,
      if b.clear && !b.aborted then .clearLists x b (List.range b.experts.length) fun st => match st with
        | none => .skip
        | some st => if st ≠ stOK then .roundBad die t st else summary
      else summary]

/-- ROUND_CLOSE_DONE (R245): every claim that reached the table before CLOSE has been answered. -/
def roundCloseDoneTr (die : TDie) (tbl : Fin 2) : Tr :=
  .read fun d =>
    let early := (List.range 4).any fun l => (agetD d.u.route.lanes (8 * die.val + 4 * tbl.val + l) []).any fun c => !c.late
    if d.tblState die.val tbl.val ≠ 3 || early then .skip else .roundEnd die.val tbl.val
/-- ROUND_CLOSE_DONE. -/
def execRoundCloseDone (die : TDie) (tbl : Fin 2) (s : State) := run (roundCloseDoneTr die tbl) s

/-- The bits of RRND: RA, and IMM[2:0] (R226). -/
def rrndMask : Nat := fmask 16 5 ||| mIMM 3

/-- RRND OPEN (R232, R233). -/
def rrndOpenTr (c : PCell) (t : Tid) (w : Word128) : Tr :=
  issue c t w rrndMask fun x => .read fun d =>
    let tbl := bitsOf x.imm 0 1
    if x.ra % 64 ≠ 0 || d.tblState x.die tbl ≠ 0 then x.illegal
    else x.hold1 2 tbl 0 fun id => .seq [
      .onTbl x.die tbl fun _ => { op := id, va := x.ra, aslot := x.th.aslot },
      .tblState x.die tbl 1, x.vecBusy 1, x.next]
/-- RRND OPEN. -/
def execRrndOpen (c : PCell) (t : Tid) (w : Word128) (s : State) := run (onRrnd 0 w (rrndOpenTr c t w)) s

/-- RRND CLOSE (R233). -/
def rrndCloseTr (c : PCell) (t : Tid) (w : Word128) : Tr :=
  issue c t w (mIMM 3) fun x => .read fun d =>
    let tbl := bitsOf x.imm 0 1
    if d.tblState x.die tbl ≠ 2 then x.illegal
    else x.hold1 2 tbl 1 fun id => .seq [
      .onTbl x.die tbl fun b => { b with op := id }, .tblState x.die tbl 3, x.vecBusy 1, x.next]
/-- RRND CLOSE. -/
def execRrndClose (c : PCell) (t : Tid) (w : Word128) (s : State) := run (onRrnd 1 w (rrndCloseTr c t w)) s

/-- RRND ABORT (R233, R246): waiting claims are LATE; an action in progress on the table ends with it; a table without a
descriptor has no summary to write. -/
def rrndAbortTr (c : PCell) (t : Tid) (w : Word128) : Tr :=
  issue c t w (mIMM 3) fun x => .read fun d =>
    let tbl := bitsOf x.imm 0 1
    let st := d.tblState x.die tbl
    let old := (d.routeTbl x.die tbl).op
    if st = 0 then .seq [x.vecBusy 1, x.next]
    else x.hold1 2 tbl 2 fun id => .seq [
      x.vecBusy 1, x.next,
      .release old,
      .onTbl x.die tbl fun b => { b with op := id, aborted := true, next := false },
      .tblState x.die tbl 3,
      .allLate x.die tbl (d.claimFuel x.die tbl),
      if st = 1 then .seq [
        .tblState x.die tbl 0, .fld ROUTE_TBL ROUTE_TBL_ROUND x.die ((d.fld ROUTE_TBL ROUTE_TBL_ROUND x.die tbl + 1) % 2 ^ 32) tbl,
        .routeSt fun r => { r with tables := terase r.tables (2 * x.die + tbl) }, .release id]
      else .roundEnd x.die tbl]
/-- RRND ABORT. -/
def execRrndAbort (c : PCell) (t : Tid) (w : Word128) (s : State) := run (onRrnd 2 w (rrndAbortTr c t w)) s

/-- PRED_CLEAR: the write that asks for the predictor to be cleared at the next edge (R254). -/
def predClearTr (die : TDie) (v : Word) : Tr := .when (bitOf v.toNat 8) (.guardedWrite ROUTE_CTL die.val v)
/-- PRED_CLEAR. -/
def execPredClear (die : TDie) (v : Word) (s : State) := run (predClearTr die v) s

/-- The routing predictor of a die is cleared, at the edge after PRED_CLEAR (R254). -/
def Tr.routePredReset (die : Nat) : Tr :=
  .read fun d => .when (d.flag ROUTE_CTL ROUTE_CTL_PRED_CLEAR die) (.seq [
    .routeSt fun r => { r with pred := r.pred.filter fun e => e.1 / 65536 ≠ die }, .fld ROUTE_CTL ROUTE_CTL_PRED_CLEAR die 0])

end Sys2Proof.Machine
end

