-- ==== Sys2Proof/Machine/Collective.lean ====
section
/-! DEFINITION. The collective engines of the port dies (R569 to R581). Where the spec leaves the schedule of a RING or
of a halving open, and the contents of a collective packet, the model's choice is in log 33. -/

namespace Sys2Proof.Machine

/-! ## Parameters (R569 to R572) -/

/-- OP. -/
def Cmd.cOp (k : Cmd) : Nat := k.at 8 1
/-- RED. -/
def Cmd.cRed (k : Cmd) : Nat := k.at 9 1
/-- IFMT. -/
def Cmd.cIfmt (k : Cmd) : Nat := k.at 10 1
/-- OFMT. -/
def Cmd.cOfmt (k : Cmd) : Nat := k.at 11 1
/-- ALGO. -/
def Cmd.cAlgo (k : Cmd) : Nat := k.at 12 1
/-- NARROW_WIRE. -/
def Cmd.cNarrow (k : Cmd) : Bool := (k.at 13 1).testBit 0
/-- REVERSE. -/
def Cmd.cReverse (k : Cmd) : Bool := (k.at 13 1).testBit 1
/-- DELIVER. -/
def Cmd.cDeliver (k : Cmd) : Bool := (k.at 13 1).testBit 2
/-- PHASE_BEATS. -/
def Cmd.cBeats (k : Cmd) : Nat := k.at 14 2
/-- START. -/
def Cmd.cStart (k : Cmd) : Nat := k.at 32 8
/-- COUNT. -/
def Cmd.cCount (k : Cmd) : Nat := k.at 40 8
/-- Whether the reduction is SPARSE_SUM. -/
def Cmd.cSparse (k : Cmd) : Bool := k.cRed = 4
/-- CAP of SPARSE_SUM. -/
def Cmd.cCap (k : Cmd) : Nat := k.at 84 4
/-- DENSE_LEN of SPARSE_SUM. -/
def Cmd.cDense (k : Cmd) : Nat := k.at 80 4
/-- ROWBYTES. -/
def Cmd.cRow (k : Cmd) : Nat := k.at 88 4
/-- Bytes of an element of a format. -/
def eltBytes (fmt : Nat) : Nat := fmtBits fmt / 8

/-- Phases of a collective of N members (R572); none where the table has none. -/
def collPhases (op algo n : Nat) (sparse : Bool) : Option Nat :=
  let log := clog2 n
  match algo with
  | 0 => if op = 4 || sparse then none else some (if op = 0 then 2 * (n - 1) else n - 1)
  | 1 => if 3 ≤ op || n ≠ 2 ^ log then none else some log
  | _ => if 1024 < n then none else some (if n = 1 then 0 else 1)

/-- Bytes of the output, as far as they are one range. -/
def Cmd.cOutBytes (k : Cmd) (n : Nat) : Nat :=
  if k.cSparse then max (k.cCap * 8) (k.cDense * eltBytes k.cOfmt)
  else (if k.cOp = 1 then k.cCount / n else k.cCount) * eltBytes k.cOfmt

/-- Whether the parameters that need no memory are in range (R569, R570, R574, R576, R579). -/
def Cmd.collGood (k : Cmd) : Bool :=
  let fmt := fun (f : Nat) => f = 0 || f = 2 || f = 3 || f = 4
  let flags := k.at 13 1
  let nin := k.at 20 4
  k.cOp ≤ 4 && (if 2 ≤ k.cOp then k.cRed = 0 else k.cRed ≤ 4) && (!k.cSparse || k.cOp = 0) && fmt k.cIfmt && fmt k.cOfmt &&
    (k.cOp ≠ 3 || k.cIfmt = k.cOfmt) && k.cAlgo ≤ 2 && flags < 8 && (!k.cNarrow || (k.cRed = 0 && k.cOp ≤ 1)) &&
    (!k.cReverse || k.cOp = 4) && 1 ≤ k.cBeats && 1 ≤ nin && nin ≤ 1024 && (nin = 1 || (k.cOp ≤ 1 && !k.cSparse)) &&
    (k.cOp ≠ 4 || (k.cRow % 64 = 0 && 64 ≤ k.cRow && k.cRow ≤ 65536)) &&
    (!k.cDeliver || (k.cOp ≠ 4 && k.at 96 8 % 64 = 0 && k.at 96 8 < 2 ^ 21 && k.at 104 8 % 64 = 0)) && restZero k.pkt [(8, 104)]

/-- The digest of R571. -/
def Cmd.collDigest (k : Cmd) (n : Nat) : Nat :=
  crc32c ((k.pkt.drop 8).take 5 ++ leBytes 1 (k.at 13 1 % 4) ++ leBytes 2 k.cBeats ++ leBytes 4 (k.at 16 4) ++ leBytes 8 k.cStart ++
    leBytes 8 k.cCount ++ leBytes 8 n ++ (if k.cSparse then leBytes 4 k.cCap ++ leBytes 4 k.cDense else []) ++
    (if k.cOp = 4 then leBytes 4 k.cRow ++ leBytes 4 (k.at 92 4) else []))

/-- A read or write of an engine for a collective (R451). -/
def Dev.collReq (d : Dev) (k : Cmd) (i access : Nat) : XReq := { d.cmdReq k i 4 with agent := agColl, access := access }

/-- 16-bit little-endian numbers. -/
def u16s : List Byte → List Nat
  | a :: b :: r => (a.toNat + 256 * b.toNat) :: u16s r
  | _ => []

/-- A post whose tables have been read takes a place (R570, R571). -/
def Tr.collPlace (k : Cmd) (plane : Nat) (group : List Nat) (cells : List Nat) : Tr :=
  .read fun d =>
    let n := group.length
    let shards := k.cOp = 1 || k.cOp = 2 || k.cOp = 3
    match group.zipIdx.find? fun g => g.1 = d.ownId with
    | none => .complete k stMALFORMED 0
    | some (_, rank) =>
      if group.eraseDups.length ≠ n || (collPhases k.cOp k.cAlgo n k.cSparse).isNone || (shards && k.cCount % n ≠ 0) ||
          (k.cDeliver && (4096 < k.cOutBytes n || spadSize < k.at 96 8 + k.cOutBytes n)) then
        .complete k stMALFORMED 0
      else .seq [
        .onCmd k.seqNo fun x => { x with stage := 1 },
        .fabSt fun b =>
          let c : Coll := { cmd := k.seqNo, plane := plane, group := group, rank := rank, digest := k.collDigest n, cells := cells }
          { b with colls := b.colls ++ [c] },
        .collRegs plane]

/-- COLL_POST (R569 to R571, R579): it waits for a free place; the tables are read then. -/
def collPostTr (src : CmdSrc) (n : BitVec 32) : Tr :=
  .withCmd src n 0x34 fun k => .read fun d =>
    let plane := qDie k.q / 2
    let bad := fun (st : Nat) => Tr.complete k st 0
    if (k.cSparse && !d.pkgFeature 67) || !d.pkgFeature 69 then bad stCAPABILITY_ABSENT
    else if !k.collGood then bad stMALFORMED
    else if 64 ≤ (d.u.fab.colls.filter (·.plane = plane)).length then .skip
    else if k.cStart ≤ d.beatIdx then bad stMALFORMED
    else .readVirt (d.collReq k 0 0) (k.at 24 8) 8 fun r => match r with
      | .wait => .skip
      | .bad st => bad st
      | .ok h _ =>
        let n := leNat h
        if n = 0 || 32768 < n then bad stMALFORMED
        else .readVirt (d.collReq k 1 0) ((k.at 24 8 + 8) % 2 ^ 64) (2 * n) fun r => match r with
          | .wait => .skip
          | .bad st => bad st
          | .ok ids _ =>
            if !k.cDeliver then .collPlace k plane (u16s ids) []
            else .readVirt (d.collReq k 2 0) (k.at 104 8) 80 fun r => match r with
              | .wait => .skip
              | .bad st => bad st
              | .ok bm _ => .collPlace k plane (u16s ids) ((List.range 640).filter fun c => (bm.getD (c / 8) 0).toNat.testBit (c % 8))
/-- COLL_POST. -/
def execCollPost (src : CmdSrc) (n : BitVec 32) (s : State) := run (collPostTr src n) s

/-! ## Elements (R575) -/

/-- An element of a format widened exactly to FP32 bits. -/
def widen32 (fmt b : Nat) : Nat := (fp32.narrow accCtl 0 (((fmtElem fmt).getD fp32).decode b)).bits
/-- FP32 bits rounded once to a format: RNE, saturating. -/
def narrowTo (fmt x : Nat) : Nat := (((fmtElem fmt).getD fp32).narrow accCtl 0 (fp32.decode x)).bits
/-- An addition of the engine, rounded to FP32 with RNE, saturating (log 36). -/
def collAdd (a b : Nat) : Nat := (fp32.narrow accCtl 0 ((fp32.decode a).add (fp32.decode b))).bits
/-- The square of an element, rounded to FP32 with RNE. -/
def collSquare (a : Nat) : Nat := (fp32.narrow accCtl 0 ((fp32.decode a).mul (fp32.decode a))).bits
/-- The reduction of two FP32 operands, the lower rank's first. -/
def collRed (red a b : Nat) : Nat :=
  match red with
  | 1 => (fp32.narrow accCtl 0 ((fp32.decode a).max (fp32.decode b))).bits
  | 2 => (fp32.narrow accCtl 0 ((fp32.decode a).min (fp32.decode b))).bits
  | _ => collAdd a b
/-- Elementwise reduction. -/
def collRedAll (red : Nat) (a b : List Nat) : List Nat := List.zipWith (collRed red) a b

/-- The elements of packed bytes, widened. -/
def elemsOf (fmt : Nat) (bs : List Byte) : List Nat :=
  (chunksOf (eltBytes fmt) (bs.length / eltBytes fmt) bs).map fun e => widen32 fmt (leNat e)
/-- Elements rounded to a format, as bytes. -/
def elemBytes (fmt : Nat) (xs : List Nat) : List Byte := xs.flatMap fun x => leBytes (eltBytes fmt) (narrowTo fmt x)
/-- The format partials travel in. -/
def Cmd.wireFmt (k : Cmd) : Nat := if k.cNarrow then k.cIfmt else 0
/-- Elements as they travel: rounded to IFMT with NARROW_WIRE. -/
def Cmd.wired (k : Cmd) (xs : List Nat) : List Nat := if k.cNarrow then xs.map fun x => widen32 k.cIfmt (narrowTo k.cIfmt x) else xs

/-- The range of shard `s` of COUNT elements (R574): first element and number. -/
def shardOf (count n s : Nat) : Nat × Nat := (s * count / n, (s + 1) * count / n - s * count / n)
/-- The elements of shards, in order. -/
def takeShards (xs : List Nat) (count n : Nat) (ss : List Nat) : List Nat :=
  ss.flatMap fun s => let (o, m) := shardOf count n s; (xs.drop o).take m
/-- The elements with those of shards replaced. -/
def putShards (xs : List Nat) (count n : Nat) : List Nat → List Nat → List Nat
  | [], _ => xs
  | s :: ss, ys =>
    let (o, m) := shardOf count n s
    putShards (xs.take o ++ ys.take m ++ xs.drop (o + m)) count n ss (ys.drop m)

/-! ## Schedules (R572; log 33) -/

/-- Members. -/
def Coll.n (c : Coll) : Nat := c.group.length
/-- The ranks a member sends to, and receives from, in a phase. -/
def Coll.peers (c : Coll) (algo j : Nat) : List Nat × List Nat :=
  match algo with
  | 0 => ([(c.rank + 1) % c.n], [(c.rank + c.n - 1) % c.n])
  | 1 => ([c.rank ^^^ 2 ^ j], [c.rank ^^^ 2 ^ j])
  | _ => let o := (List.range c.n).filter (· ≠ c.rank); (o, o)

/-- Shard `r - i` modulo N. -/
def Coll.back (c : Coll) (i : Nat) : Nat := (c.rank + c.n * (i / c.n + 1) - i) % c.n

/-- The shards that travel from one rank to another in phase `j`. -/
def Coll.shards (c : Coll) (op algo j src dst : Nat) : List Nat :=
  let all := List.range c.n
  let at_ := { c with rank := src }
  match algo, op with
  | 0, 2 => [at_.back j]
  | 0, _ => if j < c.n - 1 then [at_.back (1 + j)] else [at_.back (j - (c.n - 1))]
  | 1, 0 => all
  | 1, 1 => all.filter fun s => s % 2 ^ j = src % 2 ^ j && s.testBit j = dst.testBit j
  | 1, _ => all.filter fun s => s / 2 ^ j = src / 2 ^ j
  | _, 0 => all
  | _, 1 => [dst]
  | _, _ => [src]

/-- Whether what arrives in phase `j` is reduced with what is held; else it replaces it. -/
def Coll.reduces (c : Coll) (op algo j : Nat) : Bool := op = 1 || (op = 0 && (algo ≠ 0 || j < c.n - 1))

/-! ## Beginning a phase -/

/-- A change of a collective. -/
def Tr.onColl (id : Nat) (f : Coll → Coll) : Tr :=
  .fabSt fun b => { b with colls := b.colls.map fun c => if c.cmd = id then f c else c }

/-- The NIN input buffers, reduced in ascending order (R574, R575). -/
def Tr.collInputs (k : Cmd) (bytes : Nat) : Nat → Nat → List Nat → (VRes → List Nat → Tr) → Tr
  | 0, _, acc, go => go (.ok [] []) acc
  | left + 1, i, acc, go => .read fun d =>
    .readVirt (d.collReq k (3 + i) 0) ((k.at 48 8 + i * k.at 56 8) % 2 ^ 64) bytes fun r => match r with
      | .ok bs _ =>
        let xs := elemsOf k.cIfmt bs
        let xs := if k.cRed = 3 then xs.map collSquare else xs
        .collInputs k bytes left (i + 1) (if i = 0 then xs else collRedAll k.cRed acc xs) go
      | r => go r acc

/-- Sparse entries of 8 bytes: index and widened value; none where the indices do not rise strictly (R576). -/
def sparseOf (fmt : Nat) (bs : List Byte) : Option (List (Nat × Nat)) :=
  let es := (chunksOf 8 (bs.length / 8) bs).map fun e => (leAt e 0 4, leAt e 4 4)
  let real := es.takeWhile fun e => e.1 ≠ 0xFFFFFFFF
  let rises := (List.zip real (real.drop 1)).all fun p => p.1.1 < p.2.1
  if rises && (es.drop real.length).all fun e => e.1 = 0xFFFFFFFF then some (real.map fun e => (e.1, widen32 fmt (e.2 % 2 ^ (8 * eltBytes fmt))))
  else none

/-- Two rising lists of entries merged; equal indices are summed, the first list's operand first. -/
def sparseMerge : Nat → List (Nat × Nat) → List (Nat × Nat) → List (Nat × Nat)
  | 0, _, b => b
  | _, [], b => b
  | _, a, [] => a
  | f + 1, x :: a, y :: b =>
    if x.1 < y.1 then x :: sparseMerge f a (y :: b)
    else if y.1 < x.1 then y :: sparseMerge f (x :: a) b
    else (x.1, collAdd x.2 y.2) :: sparseMerge f a b
/-- The merge of two lists. -/
def sparseAdd (a b : List (Nat × Nat)) : List (Nat × Nat) := sparseMerge (a.length + b.length) a b

/-- Rows of an exchange: tensor die, row number. One travels as eight bytes and the row itself (log 33). -/
def rowEntry (dn : Nat × Nat) (row : List Byte) : List Byte := leBytes 4 dn.2 ++ leBytes 4 dn.1 ++ row

/-- Rows read from buffers, as entries of a message. -/
def Tr.readRows (k : Cmd) (addr : Nat × Nat → Nat) : List (Nat × Nat) → List Byte → (VRes → Tr) → Tr
  | [], acc, go => go (.ok acc [])
  | r :: rs, acc, go => .read fun d =>
    .readVirt (d.collReq k 4 0) (addr r % 2 ^ 64) k.cRow fun v => match v with
      | .ok bs _ => .readRows k addr rs (acc ++ rowEntry r bs) go
      | v => go v

/-- The messages of an exchange to members, one after another. -/
def Tr.epMessages (k : Cmd) (addr : Nat × Nat → Nat) (rows : List (Nat × Nat × Nat)) :
    List Nat → List (Nat × List Byte) → (VRes → List (Nat × List Byte) → Tr) → Tr
  | [], acc, go => go (.ok [] []) acc
  | m :: ms, acc, go =>
    .readRows k addr ((rows.filter (·.1 = m)).map (·.2)) [] fun v => match v with
      | .ok bs _ => .epMessages k addr rows ms (acc ++ [(m, bs)]) go
      | v => go v acc

/-- The rows that a forward exchange sends, by route descriptor and round summary: rank, tensor die, row (R577); none for a
reserved value or a DEST outside the group. -/
def epRows (c : Coll) (desc summary : List Byte) : Option (List (Nat × Nat × Nat)) :=
  (List.range (leAt desc 0 2)).foldl (fun acc e => match acc, expertOf ((desc.drop (64 + 32 * e)).take 32) with
    | some rows, some x =>
      if x.null then some rows
      else match c.group.zipIdx.find? fun g => g.1 = x.dest % 2 ^ 15 with
      | none => none
      | some (_, rank) => some (rows ++ (List.range (leAt summary (64 + 8 * e) 2)).map fun i => (rank, x.dest / 2 ^ 16, x.rowBase + i))
    | _, _ => none) (some [])

/-- What a collective takes in at phase 0: `go` gets it with its input, a status, or a wait (R573 to R578). -/
def Tr.collInput (k : Cmd) (c : Coll) (go : VRes → Coll → Tr) : Tr :=
  .read fun d =>
    let w := eltBytes k.cIfmt
    let n := c.n
    if k.cOp = 4 && k.cReverse then
      match d.u.fab.fwd.find? fun f => f.plane = c.plane && f.id = k.at 92 4 with
      | none => go (.bad stMALFORMED) c
      | some f => .readVirt (d.collReq k 3 0) (k.at 48 8) 32 fun r => match r with
        | .ok t _ =>
          let rows := f.rows.map fun x => ((c.group.zipIdx.find? fun g => g.1 = x.1).map (·.2) |>.getD c.rank, x.2)
          .epMessages k (fun r => leAt t (8 * r.1) 8 + r.2 * k.cRow) rows (List.range n) [] fun v ms => match v with
            | .ok _ _ => go v { c with blocks := ms.map fun m => (c.rank, m.1, m.2) }
            | v => go v c
        | r => go r c
    else if k.cOp = 4 then
      .readVirt (d.collReq k 3 0) (k.at 72 8) 64 fun r => match r with
        | .ok h _ => .readVirt (d.collReq k 3 0) (k.at 72 8) (64 + 32 * leAt h 0 2) fun r => match r with
          | .ok desc _ => .readVirt (d.collReq k 4 0) (k.at 80 8) (64 + 8 * leAt h 0 2) fun r => match r with
            | .ok sum _ => match epRows c desc sum with
              | none => go (.bad stMALFORMED) c
              | some rows => .epMessages k (fun r => k.at 48 8 + r.2 * k.cRow) rows (List.range n) [] fun v ms => match v with
                | .ok _ _ => go v { c with blocks := ms.map fun m => (c.rank, m.1, m.2) }
                | v => go v c
            | r => go r c
          | r => go r c
        | r => go r c
    else if k.cSparse then
      .readVirt (d.collReq k 3 0) (k.at 48 8) (8 * k.cCount) fun r => match r with
        | .ok bs _ => match sparseOf k.cIfmt bs with
          | none => go (.bad stMALFORMED) c
          | some es => go r { c with sparse := es }
        | r => go r c
    else if k.cOp = 3 then
      .readVirt (d.collReq k 3 0) (k.at 48 8) (w * k.cCount) fun r => match r with
        | .ok bs _ =>
          let m := w * k.cCount / n
          go r { c with blocks := (List.range n).map fun t => (c.rank, t, (bs.drop (t * m)).take m) }
        | r => go r c
    else if k.cOp = 2 then
      .readVirt (d.collReq k 3 0) (k.at 48 8) (w * (k.cCount / n)) fun r => match r with
        | .ok bs _ => go r { c with vec := putShards (List.replicate k.cCount 0) k.cCount n [c.rank] (elemsOf k.cIfmt bs) }
        | r => go r c
    else .collInputs k (w * k.cCount) (k.at 20 4) 0 [] fun r xs => match r with
      | .ok _ _ => go r { c with vec := xs }
      | r => go r c

/-- The message to a rank in the phase that begins. -/
def Coll.message (c : Coll) (k : Cmd) (dst : Nat) : List Byte :=
  if k.cSparse then c.sparse.flatMap fun e => leBytes 4 e.1 ++ leBytes 4 e.2
  else if k.cOp = 3 then
    if k.cAlgo = 0 then
      (c.blocks.filter fun b => b.2.1 ≠ c.rank && (c.phase = 0 || b.1 = c.back c.phase)).flatMap fun b =>
        leBytes 4 b.1 ++ leBytes 4 b.2.1 ++ b.2.2
    else (c.blocks.filter fun b => b.1 = c.rank && b.2.1 = dst).flatMap fun b => b.2.2
  else if k.cOp = 4 then (c.blocks.filter fun b => b.1 = c.rank && b.2.1 = dst).flatMap fun b => b.2.2
  else
    (takeShards c.vec k.cCount c.n (c.shards k.cOp k.cAlgo c.phase c.rank dst)).flatMap fun x =>
      leBytes (eltBytes k.wireFmt) (narrowTo k.wireFmt x)

/-- With NARROW_WIRE, what a member sends is rounded where it holds it too, so that every member holds the same (R575). -/
def Coll.roundSent (c : Coll) (k : Cmd) : Coll :=
  if k.cNarrow && k.cOp ≤ 1 then
    let ss := ((c.peers k.cAlgo c.phase).1.flatMap fun t => c.shards k.cOp k.cAlgo c.phase c.rank t).eraseDups
    let ss := if k.cOp = 1 && k.cAlgo = 2 then List.range c.n else ss
    { c with vec := putShards c.vec k.cCount c.n ss (k.wired (takeShards c.vec k.cCount c.n ss)) }
  else c

/-- A message leaves in packets of at most 480 bytes of data (log 33); a member that cannot be reached is lost. -/
def Tr.collMessage (k : Cmd) (c : Coll) (dst : Nat) (bs : List Byte) : Tr :=
  let l := c.group.getD dst 0
  .each (List.range (max 1 (cdiv bs.length 480))) fun i =>
    .collSend c.plane (k.at 16 4) l (collHead c.digest c.phase 0 bs.length (480 * i) ++ (bs.drop (480 * i)).take 480) fun ok =>
      .when (!ok) (.partnerLost c.plane l)

/-- A phase begins: its messages leave (R573). -/
def Tr.collPhase (k : Cmd) (c : Coll) : Tr :=
  let c := c.roundSent k
  .seq [
    .onColl c.cmd fun _ => { c with begun := true },
    .each (c.peers k.cAlgo c.phase).1 fun t => .collMessage k c t (c.message k t)]

/-! ## Finishing a phase -/

/-- The message of a rank for the current phase, once it is whole. -/
def Coll.whole (c : Coll) (src : Nat) : Option (List Byte) :=
  ((c.msgs.find? fun m => m.phase = c.phase && m.rank = src).filter fun m => m.bytes.length = m.len).map (·.bytes)
/-- Whether every message of the current phase has arrived. -/
def Coll.arrived (c : Coll) (algo : Nat) : Bool := (c.peers algo c.phase).2.all fun s => (c.whole s).isSome

/-- The elements of a message. -/
def Coll.elems (c : Coll) (k : Cmd) (src : Nat) : List Nat := elemsOf k.wireFmt ((c.whole src).getD [])

/-- Whether the reduction of a phase is of two operands that the engine may offer to cells (R581). -/
def Coll.pairwise (c : Coll) (k : Cmd) : Bool :=
  k.cOp ≤ 1 && k.cRed ≤ 2 && c.reduces k.cOp k.cAlgo c.phase && ((c.peers k.cAlgo c.phase).2.length = 1)

/-- The two operands of a pairwise phase, the lower rank's first. -/
def Coll.operands (c : Coll) (k : Cmd) : List Nat × List Nat :=
  let src := (c.peers k.cAlgo c.phase).2.headD 0
  let own := takeShards c.vec k.cCount c.n (c.shards k.cOp k.cAlgo c.phase src c.rank)
  if src < c.rank then (c.elems k src, own) else (own, c.elems k src)

/-- The state after a phase whose messages have arrived; `red` gives the result of a pairwise reduction where cells have
made it. -/
def Coll.combine (c : Coll) (k : Cmd) (red : Option (List Nat)) : Coll :=
  let n := c.n
  let srcs := (c.peers k.cAlgo c.phase).2
  if k.cSparse then
    let es := fun (s : Nat) =>
      if s = c.rank then c.sparse
      else (chunksOf 8 (((c.whole s).getD []).length / 8) ((c.whole s).getD [])).map fun e => (leAt e 0 4, leAt e 4 4)
    let rs := if k.cAlgo = 1 then (let s := srcs.headD 0; if s < c.rank then [s, c.rank] else [c.rank, s]) else List.range n
    { c with sparse := rs.foldl (fun acc s => sparseAdd acc (es s)) [] }
  else if k.cOp = 3 then
    let m := eltBytes k.cIfmt * k.cCount / n
    let got := srcs.flatMap fun s =>
      if k.cAlgo = 0 then
        (chunksOf (8 + m) (((c.whole s).getD []).length / (8 + m)) ((c.whole s).getD [])).map fun e => (leAt e 0 4, leAt e 4 4, e.drop 8)
      else [(s, c.rank, (c.whole s).getD [])]
    { c with blocks := c.blocks ++ got }
  else if k.cOp = 4 then { c with blocks := c.blocks ++ srcs.map fun s => (s, c.rank, (c.whole s).getD []) }
  else if !c.reduces k.cOp k.cAlgo c.phase then
    { c with vec := srcs.foldl (fun v s => putShards v k.cCount n (c.shards k.cOp k.cAlgo c.phase s c.rank) (c.elems k s)) c.vec }
  else if srcs.length = 1 then
    let src := srcs.headD 0
    let ss := c.shards k.cOp k.cAlgo c.phase src c.rank
    let (a, b) := c.operands k
    { c with vec := putShards c.vec k.cCount n ss (red.getD (collRedAll k.cRed a b)) }
  else
    let ss := if k.cOp = 1 then [c.rank] else List.range n
    let of := fun (s : Nat) => if s = c.rank then takeShards c.vec k.cCount n ss else c.elems k s
    { c with vec := putShards c.vec k.cCount n ss ((List.range (n - 1)).foldl (fun acc s => collRedAll k.cRed acc (of (s + 1))) (of 0)) }

/-! ## Outputs (R574, R576 to R580) -/

/-- Rows of messages written one after another: `k` gets OK, a status, or none while a translation waits. -/
def Tr.writeRows (k : Cmd) (addr : Nat × Nat → Nat) : List (List Byte) → (Option Nat → Tr) → Tr
  | [], go => go (some stOK)
  | e :: es, go => .read fun d =>
    .writeVirt (d.collReq k 5 1) (addr (leAt e 4 4, leAt e 0 4) % 2 ^ 64) (e.drop 8) fun st =>
      if st = some stOK then .writeRows k addr es go else go st

/-- The row entries of a message. -/
def rowEntries (rowBytes : Nat) (bs : List Byte) : List (List Byte) := chunksOf (8 + rowBytes) (bs.length / (8 + rowBytes)) bs

/-- The result of a sparse sum (R576): where it goes, its bytes, and RESULT beside the phases; none where an index is at or
above DENSE_LEN in a dense fallback. -/
def Coll.sparseOut (c : Coll) (k : Cmd) : Option (Nat × List Byte × Nat) :=
  if c.sparse.length ≤ k.cCap then
    let es := c.sparse.flatMap fun e => leBytes 4 e.1 ++ leBytes 4 (narrowTo k.cOfmt e.2)
    some (k.at 64 8, es ++ (List.replicate (k.cCap - c.sparse.length) (leBytes 4 0xFFFFFFFF ++ leBytes 4 0)).flatten,
      c.sparse.length * 2 ^ 16)
  else if c.sparse.any fun e => k.cDense ≤ e.1 then none
  else
    let xs := c.sparse.foldl (fun (v : List Nat) e => v.set e.1 e.2) (List.replicate k.cDense 0)
    some (k.at 72 8, elemBytes k.cOfmt xs, k.cDense * 2 ^ 16 + 2 ^ 63)

/-- The bytes of an output that is one range, where they go, and RESULT beside the phases. -/
def Coll.rangeOut (c : Coll) (k : Cmd) : Option (Nat × List Byte × Nat) :=
  if k.cSparse then c.sparseOut k
  else if k.cOp = 3 then
    some (k.at 64 8, (List.range c.n).flatMap fun s => ((c.blocks.find? fun b => b.1 = s && b.2.1 = c.rank).map (·.2.2)).getD [], 0)
  else some (k.at 64 8, elemBytes k.cOfmt (if k.cOp = 1 then takeShards c.vec k.cCount c.n [c.rank] else c.vec), 0)

/-- A collective has ended with OK: its record, and what it held is free (R577, R578, R580). -/
def Tr.collDone (k : Cmd) (c : Coll) (result : Nat) : Tr :=
  let entries := (c.blocks.filter fun b => b.2.1 = c.rank).flatMap fun b =>
    (rowEntries k.cRow b.2.2).map fun e => (c.group.getD b.1 0, leAt e 4 4, leAt e 0 4)
  .seq [
    .fabSt fun b =>
      let others := b.fwd.filter (·.plane ≠ c.plane)
      let mine := b.fwd.filter (·.plane = c.plane)
      let kept := if k.cOp ≠ 4 then mine
        else if k.cReverse then mine.filter fun f => f.id ≠ k.at 92 4
        else (mine.filter fun f => f.id ≠ k.at 16 4) ++ [{ plane := c.plane, id := k.at 16 4, rows := entries }]
      { b with colls := b.colls.filter (·.cmd ≠ c.cmd), fwd := others ++ kept.drop (kept.length - 16) },
    .bump COLL_DONE (pdOf c.plane), .collRegs c.plane,
    .complete k stOK ((collPhases k.cOp k.cAlgo c.n k.cSparse).getD 0 + result)]

/-- The outputs of a collective whose phases have finished are written; a write that ends with a status ends it with that
status. -/
def Tr.collOutput (k : Cmd) (c : Coll) : Tr :=
  .read fun d =>
    let after := fun (st : Option Nat) (fin : Tr) => match st with
      | none => Tr.skip
      | some st => if st = stOK then fin else .collAbort c st false
    if k.cOp = 4 then
      let es := (c.blocks.filter fun b => b.2.1 = c.rank).flatMap fun b => rowEntries k.cRow b.2.2
      if k.cReverse then .writeRows k (fun r => k.at 64 8 + r.2 * k.cRow) es fun st => after st (.collDone k c 0)
      else .readVirt (d.collReq k 3 0) (k.at 64 8) 32 fun r => match r with
        | .wait => .skip
        | .bad st => .collAbort c st false
        | .ok t _ => .writeRows k (fun r => leAt t (8 * r.1) 8 + r.2 * k.cRow) es fun st => after st (.collDone k c 0)
    else match c.rangeOut k with
    | none => .collAbort c stMALFORMED true
    | some (va, bs, result) => .writeVirt (d.collReq k 5 1) va bs fun st => after st (.seq [
        .when (k.cSparse && k.cCap < c.sparse.length) (.bump COLL_DENSE (pdOf c.plane)),
        .each c.cells fun cell => .read fun d => .opt (d.physOf cell) fun pk => .writeSpad pk (k.at 96 8) bs,
        .collDone k c result])

/-! ## Progress -/

/-- A collective goes on as far as it can: it begins its phase at the phase's first beat (R573), finishes one whose
messages have arrived, and writes its outputs. A phase of two operands may first be offered to cells (R581). -/
def Tr.collGo (id : Nat) : Nat → Tr
  | 0 => .skip
  | fuel + 1 => .read fun d => .opt (d.u.fab.colls.find? (·.cmd = id)) fun c => .opt (d.u.cmd.cmds.find? (·.seqNo = id)) fun k =>
    let phases := (collPhases k.cOp k.cAlgo c.n k.cSparse).getD 0
    if c.finished then .collOutput k c
    else if !c.begun then
      if d.beatIdx < k.cStart + c.phase * k.cBeats then .skip
      else
        let go := fun (c : Coll) =>
          if phases = 0 then .seq [.onColl id fun _ => { c with finished := true }, .collGo id fuel]
          else .seq [.collPhase k c, .collGo id fuel]
        if c.phase = 0 then .collInput k c fun r c => match r with
          | .wait => .skip
          | .bad st => .collAbort c st true
          | .ok _ _ => go c
        else go c
    else if !c.arrived k.cAlgo then .skip
    else
      let next := fun (c : Coll) (red : Option (List Nat)) => Tr.seq [
        .onColl id fun _ =>
          let c := c.combine k red
          { c with phase := c.phase + 1, begun := false, finished := c.phase + 1 = phases, items := none,
                   msgs := c.msgs.filter fun m => m.phase ≠ c.phase },
        .collGo id fuel]
      match c.items with
      | some is => if is.all (·.result.isSome) then next c (some (is.flatMap fun i => i.result.getD [])) else .skip
      | none =>
        if c.pairwise k && d.flag COLL_CTL COLL_CTL_ASSIST_EN (pdOf c.plane) then .fresh fun i =>
          if Config.freeBit i then
            let m := (c.operands k).1.length
            let chunks := List.range (cdiv m 16384)
            if m = 0 then next c none
            else .seq [
              .onColl id fun c => { c with items := some (chunks.map fun j =>
                { num := d.u.fab.nextItem + j, off := 16384 * j, count := min 16384 (m - 16384 * j) }) },
              .fabSt fun b => { b with nextItem := b.nextItem + chunks.length }]
          else next c none
        else next c none

/-- Steps enough for every phase. -/
def Coll.fuel (c : Coll) : Nat := 4 * c.n + 70

/-- Every collective of the package goes on. -/
def Tr.collsGo : Tr := .read fun d => .each d.u.fab.colls fun c => .collGo c.cmd c.fuel

/-- Items not returned by the end of their phase's last beat `b`: the engine reduces them (R581). -/
def Tr.collLate (b : Nat) : Tr :=
  .read fun d => .each d.u.fab.colls fun c => .opt (d.u.cmd.cmds.find? (·.seqNo = c.cmd)) fun k =>
    .when (k.cStart + (c.phase + 1) * k.cBeats - 1 ≤ b) (.opt c.items fun is =>
      let (x, y) := c.operands k
      .seq [
        .bump COLL_ASSIST_LATE (pdOf c.plane) (is.filter (·.result.isNone)).length,
        .onColl c.cmd fun c => { c with items := some (is.map fun i =>
          if i.result.isSome then i
          else { i with result := some (collRedAll k.cRed ((x.drop i.off).take i.count) ((y.drop i.off).take i.count)) }) },
        .collGo c.cmd c.fuel])

/-- Whether every phase whose last beat is `b` or earlier has finished (R69, R573). -/
def Dev.collsDone (d : Dev) (b : Nat) : Bool :=
  d.u.fab.colls.all fun c => c.finished || (d.u.cmd.cmds.find? (·.seqNo = c.cmd)).all fun k =>
    b < k.cStart + (c.phase + 1) * k.cBeats - 1

/-- COLL (R571, R573, R580): the next packet of data of a collective; one for a collective that is not posted is dropped.
With no packet the engines look again at what waited. -/
def collTr (pd : PDie) : Tr :=
  .read fun d =>
    match d.nextPkt pd.val 0x10 with
    | none => .collsGo
    | some p =>
      if leAt p.payload 6 2 ≠ 0 then .skip
      else .seq [
        .takePkt pd.val p, .bump COLL_RX_BYTES (pdOf pd.val) (p.payload.length - 24),
        .opt (d.u.fab.colls.find? fun c => c.plane = pd.val && (d.u.cmd.cmds.find? (·.seqNo = c.cmd)).any fun k => k.at 16 4 = p.addr) fun c =>
          match c.group.zipIdx.find? fun g => g.1 = p.srcLog with
          | none => .skip
          | some (_, rank) =>
            if leAt p.payload 0 4 ≠ c.digest then .collAbort c stMALFORMED true
            else .seq [
              .onColl c.cmd fun c =>
                let phase := leAt p.payload 4 2
                let m : CollMsg := (c.msgs.find? fun m => m.phase = phase && m.rank = rank).getD
                  { phase := phase, rank := rank, len := leAt p.payload 8 8, bytes := [] }
                { c with msgs := (c.msgs.filter fun m => !(m.phase = phase && m.rank = rank)) ++
                  [{ m with bytes := m.bytes ++ p.payload.drop 24 }] },
              .collGo c.cmd c.fuel]]
/-- COLL. -/
def execColl (pd : PDie) (s : State) := run (collTr pd) s

/-- COLLECTIVE_ABORT (R580): an abort from a member ends the collective with its status. -/
def collectiveAbortTr (pd : PDie) : Tr :=
  .withPkt pd 0x10 fun plane p => .read fun d => .when (leAt p.payload 6 2 = 1) (.seq [
    .takePkt plane p,
    .opt (d.u.fab.colls.find? fun c => c.plane = plane && (d.u.cmd.cmds.find? (·.seqNo = c.cmd)).any fun k => k.at 16 4 = p.addr) fun c =>
      .collAbort c (leAt p.payload 8 8 % 2 ^ 16) false])
/-- COLLECTIVE_ABORT. -/
def execCollectiveAbort (pd : PDie) (s : State) := run (collectiveAbortTr pd) s

/-! ## Collective assist (R581) -/

/-- The fields of CTAKE and CGIVE. -/
def collMask : Nat := fmask 16 23

/-- The first item that a plane's engine offers, with its collective. -/
def Dev.offered (d : Dev) (plane : Nat) : Option (Coll × CollItem) :=
  d.u.fab.colls.findSome? fun c =>
    if c.plane = plane then (c.items.getD []).findSome? fun i => if i.taken.isNone && i.result.isNone then some (c, i) else none
    else none

/-- A change of an item. -/
def Tr.onItem (num : Nat) (f : CollItem → CollItem) : Tr :=
  .fabSt fun b => { b with colls := b.colls.map fun c => { c with items := c.items.map fun is => is.map fun i => if i.num = num then f i else i } }

/-- CTAKE: the window holds A, then B, then D, 65,536 bytes each. -/
def ctakeTr (c : PCell) (t : Tid) (w : Word128) : Tr :=
  issue c t w collMask fun x => .read fun d =>
    let a := x.s 16
    let n := x.s 26
    if n < 196608 || n % 64 ≠ 0 then x.illegal
    else x.inSpad [(a, n), (x.s 31, 64)] (
      match d.offered (x.pk / 168 / 2) with
      | none => x.nextWith fun th => th.setC (x.f 36 3) false
      | some (cl, i) => .opt (d.u.cmd.cmds.find? (·.seqNo = cl.cmd)) fun k =>
        let (p, q) := cl.operands k
        let chunk := fun (l : List Nat) => ((l.drop i.off).take i.count).flatMap (leBytes 4)
        let item := leBytes 8 i.num ++ leBytes 1 k.cRed ++ List.replicate 3 0 ++ leBytes 4 i.count ++ leBytes 8 a ++ leBytes 8 (a + 65536) ++
          leBytes 8 (a + 131072) ++ List.replicate 24 0
        .seq [
          .writeSpad x.pk a (chunk p), .writeSpad x.pk (a + 65536) (chunk q), .writeSpad x.pk (x.s 31) item,
          .onItem i.num fun i => { i with taken := some (x.pk, a) },
          x.nextWith fun th => th.setC (x.f 36 3) true])
/-- CTAKE. -/
def execCtake (c : PCell) (t : Tid) (w : Word128) (s : State) := run (onWord 9 0 w (ctakeTr c t w)) s

/-- CGIVE: an item that this cell holds comes back with its result at D; any other is discarded. -/
def cgiveTr (c : PCell) (t : Tid) (w : Word128) : Tr :=
  issue c t w collMask fun x => .read fun d =>
    let num := x.s 16
    let held := d.u.fab.colls.findSome? fun c => (c.items.getD []).findSome? fun i =>
      match i.taken with
      | some (pk, a) => if i.num = num && pk = x.pk && i.result.isNone then some (c, i, a) else none
      | none => none
    match held with
    | none => x.next
    | some (cl, i, a) =>
      let cs := d.cellAt x.pk
      x.unpoisoned (fun cs => cs.spadPoison (a + 131072) (4 * i.count)) (.seq [
        .onItem num fun i => { i with result := some ((chunksOf 4 i.count (cs.spad.slice (a + 131072) (4 * i.count))).map leNat) },
        .bump COLL_ASSIST_ITEMS (pdOf cl.plane), x.next, .collGo cl.cmd cl.fuel])
/-- CGIVE. -/
def execCgive (c : PCell) (t : Tid) (w : Word128) (s : State) := run (onWord 9 1 w (cgiveTr c t w)) s

end Sys2Proof.Machine
end

