-- ==== Sys2Proof/Machine/Spare.lean ====
section
/-! DEFINITION. Spares: pools, swaps by kind, retirement, self-test and its outcomes (R605 to R629). -/

namespace Sys2Proof.Machine

/-- A change of the spares' state. -/
def Tr.spareSt (f : SpareSt → SpareSt) : Tr := .units fun u => { u with spare := f u.spare }

/-- A unit's state by R604. -/
def Dev.unitSt (d : Dev) (k : Nat) : Nat := (d.u.spare.unit k).st

/-- A unit enters a state: out of service it is no longer due; CELL_PHYS shows a cell's state. -/
def Tr.unitState (k st : Nat) : Tr :=
  .seq [
    .unit k fun x => { x with st := st, due := if st = 2 || st = 3 then none else x.due },
    .when (ukKind k = 0) (.fld CELL_PHYS CELL_PHYS_STATE (ukDie k) st (ukIdx k))]

/-! ## Pools (R603, R607) -/

/-- The units among which a spare for unit `k` is found: its die's, its lane pair's, or its home's. -/
def poolOf (k : Nat) : List Nat :=
  let die := ukDie k
  let idx := ukIdx k
  match ukKind k with
  | 0 => (List.range 168).map (ukey 0 die)
  | 1 => (List.range 104).map (ukey 1 die)
  | 2 => (List.range 17).map fun i => ukey 2 die (idx / 17 * 17 + i)
  | 4 => (List.range 18).map (ukey 4 die)
  | 5 => (List.range 17).map fun i => ukey 5 die (idx / 256 * 256 + i)
  | _ => []

/-- The spare for a unit: of the lowest patina, and of equals the lowest index (R607). -/
def Dev.spareFor (d : Dev) (k : Nat) : Option Nat :=
  (poolOf k).foldl (fun best j =>
    if d.unitSt j ≠ 1 then best
    else match best with
      | none => some j
      | some b => if (d.u.spare.unit j).patina < (d.u.spare.unit b).patina then some j else some b) none

/-- A unit comes into service for a logical unit, with its record. -/
def Tr.bringIn (k logical cause queue : Nat) : Tr :=
  .seq [.unitState k 0, .bump SPARE_SWAPS HD, .service k logical .swappedIn cause 0 queue]

/-! ## Commands that wait for units (R466, R618, R625) -/

/-- A command no longer waits for unit `k`; when it waits for none, it completes. -/
def Tr.unitDone (id k : Nat) : Tr :=
  .read fun d => .opt (d.u.cmd.cmds.find? (·.seqNo = id)) fun c =>
    let left := c.units.filter (· ≠ k)
    if left.isEmpty then .complete c c.status c.result else .onCmd id fun c => { c with units := left }

/-- RESULT of a self-test of units that have been tested: unit and outcome, in the order named (R625, R629). -/
def testResult (kind : Nat) (ts : List (Nat × Nat)) : Nat :=
  let failed := ts.filter (·.2 = 0)
  if kind = 4 || kind = 6 then ts.length + failed.length * 2 ^ 16
  else
    let first := (failed.head?.orElse fun _ => ts.head?).elim 0 fun t => ukIdx t.1
    b01 failed.isEmpty + first % 2 ^ 16 * 2 ^ 8 + ts.length % 256 * 2 ^ 32 + failed.length % 256 * 2 ^ 40

/-- A self-test command whose last outcome is applied writes its record. -/
def Tr.testsDone (id : Nat) : Tr :=
  .read fun d => .opt (d.u.cmd.cmds.find? (·.seqNo = id)) fun c =>
    .when (c.tiles.all (·.2 ≠ 2)) (.complete c stOK (testResult (c.at 8 1) c.tiles))

/-- The outcome of a unit's test reaches the commands that wait for it. -/
def Tr.tellTest (p : Probe) (ok : Bool) : Tr :=
  .each p.cmds fun id =>
    if p.ret then .read fun d => .opt (d.u.cmd.cmds.find? (·.seqNo = id)) fun c => .complete c stOK (b01 ok)
    else .seq [
      .onCmd id fun c => { c with tiles := c.tiles.map fun t => if t.1 = p.unit && t.2 = 2 then (t.1, b01 ok) else t },
      .testsDone id]

/-! ## Cells (R89, R97, R619, R620) -/

/-- Logical cell `l` of a die is behind physical cell `p`, whose micro-TLB is empty (R419). -/
def Tr.bindCell (die l p : Nat) : Tr :=
  .seq [
    .reg CELL_MAP die (w64 (p + p / 14 * 2 ^ 8 + p % 14 * 2 ^ 12)) l,
    .fld CELL_PHYS CELL_PHYS_LOGICAL die l p,
    .units fun u => { u with xlat := { u.xlat with utlb := terase u.xlat.utlb (die * 168 + p) } },
    .spareSt fun s => { s with unbacked := s.unbacked.filter (· ≠ die * 160 + l) }]

/-- A logical cell has no physical cell (R619). -/
def Tr.unbindCell (die l : Nat) : Tr :=
  .seq [
    .reg CELL_MAP die (w64 (0xFF + 2 ^ 16)) l,
    .spareSt fun s => { s with unbacked := s.unbacked.filter (· ≠ die * 160 + l) ++ [die * 160 + l] }]

/-- Whether a physical cell carries state into the next beat (R95). -/
def Dev.carries? (d : Dev) (pk : Nat) : Bool := (d.cellAt pk).threads.any fun e => e.2.carry

/-- A unit that has left its logical unit enters its state; a probation begins (R620, R624). -/
def Tr.leave (x : Leaving) : Tr :=
  .seq [
    .spareSt fun s => { s with leaving := s.leaving.erase x },
    .unitState x.out x.st,
    .read fun d => .opt x.probe fun p => .spareSt fun s => { s with probes := s.probes ++ [{ p with since := d.elapsed }] },
    .each x.cmds fun id => .unitDone id x.out]

/-- The time of a full copy of a cell's state: 29,696 NoC cycles (R97, R98). -/
def copyTime : Nat := cyclesTime 14848

/-- Physical cell `to_` takes the place of `out` behind logical cell `l`: its role comes along, and carried state is copied
(R89, R97, R620). The samples it decodes move with it (R512). -/
def Tr.swapCell (die l out to_ : Nat) (x : Leaving) (cause queue : Nat) : Tr :=
  .read fun d =>
    let carry := d.carries? (die * 168 + out)
    let moved := fun (s : Sample) => match s.holder with
      | some (pk, t) => if pk = die * 168 + out then { s with holder := some (die * 168 + to_, t) } else s
      | none => s
    let y : Leaving := { x with out := ukey 0 die out, logical := die * 160 + l, to_ := to_, carry := carry, ends := d.elapsed + copyTime }
    .seq [
      .bindCell die l to_,
      .reg CELL_ROLE die (d.reg CELL_ROLE die out) to_, .reg CELL_ROLE die 0 out,
      .bringIn (ukey 0 die to_) (die * 160 + l) cause queue,
      if carry then .seq [
        .spareSt fun s => { s with leaving := s.leaving ++ [y] },
        .units fun u => { u with ing := { u.ing with slots := u.ing.slots.map fun e => (e.1, { e.2 with samples := e.2.samples.map moved }) } }]
      else .leave y]

/-! ## Host cores (R621) -/

/-- An agent gives up a copy of a line (R376, R379). -/
def Tr.giveUp (agent line : Nat) : Tr :=
  .read fun d => .opt (d.u.coh.copy agent line) fun c => .seq [
    .cohSt fun x => x.dropCopy agent line,
    if c.u then .filterAdd line (· - 1) else .cohSt fun x => x.track line]

/-- Physical core `to_` takes the place of `out` behind logical core `l`: the L2 is written back and invalidated, and the hart
stalls until its state has moved (R621). -/
def Tr.swapHost (l out to_ : Nat) (x : Leaving) (cause queue : Nat) : Tr :=
  .read fun d =>
    let y : Leaving := { x with out := ukey 1 HD out, logical := l, to_ := to_, ends := d.elapsed }
    .seq [
      .each (d.u.coh.copies.filter (·.agent = l / 4)) fun c => .giveUp c.agent c.line,
      .spareSt fun s => { s with hosts := tinsert s.hosts l to_, leaving := s.leaving ++ [y] },
      .bringIn (ukey 1 HD to_) l cause queue]

/-! ## Lanes (R541, R542, R622) -/

/-- The local port and logical lane that a physical lane serves. -/
def Dev.laneOf (d : Dev) (k : Nat) : Option (Nat × Nat) :=
  let n := d.unitLogical k
  if n = 0xFFFF then none else some (n / 8 % 16, n % 8)

/-- Logical lane `i` of local port `k` uses physical lane `p`; STATUS.SPARE follows. -/
def Tr.setLane (die k i p : Nat) : Tr :=
  .seq [
    .read fun d => .reg FAB_PORT_LANES die (w64 (putBits (d.reg FAB_PORT_LANES die k).toNat (8 * i) 8 p)) k,
    .read fun d => .fld FAB_PORT_STATUS FAB_PORT_STATUS_SPARE die (b01 ((List.range 8).any fun j => d.lanePhys (16 * (die - 5) + k) j % 17 = 16)) k]

/-- A native sub-port goes down for a retrain: nothing held for it is lost (R542). -/
def Tr.subRetrain (sp : Nat) : Tr :=
  .read fun d => .when (d.spUp sp) (.seq [.spSetUp sp false, .retrain (spDie sp) (spPort sp)])

/-- Port `k` of a port die goes on without logical lane `i` (R542): a native port retrains as a 4-lane sub-port on its other
half; where that half is lost too, or the port is divided, what used the lane goes down; an Ethernet port goes down. -/
def Tr.laneOut (die k i : Nat) : Tr :=
  .read fun d =>
    let sp := 64 * (die - 5) + 4 * k
    let ok := d.fld FAB_PORT_STATUS FAB_PORT_STATUS_LANES_OK die k
    let other := if i < 4 then 0xF0 else 0x0F
    let split := d.fld FAB_PORT_CFG FAB_PORT_CFG_SPLIT die k
    .seq [
      .fld FAB_PORT_STATUS FAB_PORT_STATUS_LANES_OK die (if split = 0 then ok &&& other else putBits ok i 1 0) k,
      match d.fld FAB_PORT_CFG FAB_PORT_CFG_MODE die k with
      | 1 => .seq [
          .fld FAB_PORT_STATUS FAB_PORT_STATUS_DEGRADED die 1 k,
          if split = 0 then
            (if d.flag FAB_PORT_STATUS FAB_PORT_STATUS_DEGRADED die k && ok &&& other = 0 then .subDown sp else .subRetrain sp)
          else .each [0, 1, 2, 3] fun s => match splitLanes split s with
            | some (lo, n) => .when (lo ≤ i && i < lo + n) (.subDown (sp + s))
            | none => .skip]
      | 2 => .each [0, 1, 2, 3] fun s => .subDown (sp + s)
      | _ => .skip]

/-- A lane that was out for a test is back: the port retrains at full width (R627). -/
def Tr.laneBack (die k : Nat) : Tr :=
  .seq [.fld FAB_PORT_STATUS FAB_PORT_STATUS_DEGRADED die 0 k, .subRetrain (64 * (die - 5) + 4 * k)]

/-- The pair's spare for a lane in use, where its port's mode lets it take one (R541). -/
def Dev.laneSpare (d : Dev) (k : Nat) : Option Nat :=
  match d.laneOf k with
  | some (port, _) => if d.fld FAB_PORT_CFG FAB_PORT_CFG_MODE (ukDie k) port = 1 then d.spareFor k else none
  | none => none

/-- A spare lane takes over the logical lane of lane `k`. -/
def Tr.swapLane (k sp cause queue : Nat) : Tr :=
  .read fun d => .opt (d.laneOf k) fun (port, i) => .seq [
    .setLane (ukDie k) port i (ukIdx sp), .bringIn sp (d.unitLogical k) cause queue]

/-! ## UCIe modules (R18) -/

/-- The key of a module (R603). -/
def moduleKey (l m : Nat) : Nat := ukey 3 (linkEnds l).1 (l * 256 + m)
/-- A module enters or leaves service on its link. -/
def Tr.moduleOn (k : Nat) (on : Bool) : Tr :=
  .link (ukIdx k / 256) fun l => { l with modules := putBits l.modules (ukIdx k % 256) 1 (b01 on) }

/-! ## Retirement (R613, R615, R618, R622, R623) -/

/-- The record and count of a retirement. -/
def Tr.retiredRecord (k logical cause queue : Nat) : Tr :=
  .seq [.bump SPARE_RETIREMENTS HD, .service k logical .retired cause 0 queue]

/-- Directory entries of a home that stand in a way: which they are is open (a free choice of each); their lines become
untracked (R378, R623). -/
def Tr.evictWay (home : Nat) : Tr :=
  .read fun d => .each (d.u.coh.dir.filter fun e => d.home (e.1 * 64) = home) fun e =>
    .fresh fun i => .when (Config.freeBit i) (.evictEntry e.1)

/-- COH_DIR_STATUS of a home follows its ways in service (R377). -/
def Tr.dirWays (home : Nat) : Tr :=
  .read fun d =>
    let n := ((List.range 17).filter fun w => d.unitSt (ukey 5 home (home * 256 + w)) = 0).length
    .seq [
      .fld COH_DIR_STATUS COH_DIR_STATUS_WAYS home n,
      .fld COH_DIR_STATUS COH_DIR_STATUS_ENTRIES home (n * (if home < 4 then 65536 else 131072))]

/-- Whether a retirement of an ACTIVE unit can be made now: a cell or core automatically only with a spare; never the last
module of a link (R615, R618). -/
def Dev.canRetire (d : Dev) (k : Nat) (auto : Bool) : Bool :=
  match ukKind k with
  | 0 => d.unitLogical k ≠ 0xFFFF && (!auto || (d.spareFor k).isSome)
  | 1 => d.unitLogical k ≠ 0xFFFF && (d.spareFor k).isSome
  | 3 => 1 < popCount 24 (d.link (ukIdx k / 256)).modules
  | _ => true

/-- An ACTIVE unit is retired, and a spare is brought in where one is free. `cmd`: the command that waits for the swap. -/
def Tr.retire (k cause queue : Nat) (cmd : Option Nat) : Tr :=
  .read fun d =>
    let die := ukDie k
    let idx := ukIdx k
    let n := d.unitLogical k
    let x : Leaving := { out := k, st := 3, logical := n, to_ := 0, ends := 0, cmds := cmd.toList }
    let record := Tr.retiredRecord k n cause queue
    let done := Tr.opt cmd fun id => .unitDone id k
    match ukKind k with
    | 0 => match d.spareFor k with
      | some s => .seq [record, .swapCell die (n % 160) idx (ukIdx s) x cause queue]
      | none => .seq [
          record, .unbindCell die (n % 160), .reg CELL_ROLE die 0 idx, .unitState k 3,
          .service k n .unbacked cause 0 queue, done]
    | 1 => .opt (d.spareFor k) fun s => .seq [record, .swapHost n idx (ukIdx s) x cause queue]
    | 2 =>
      let alone := Tr.seq [record, .unitState k 3, .opt (d.laneOf k) fun (port, i) => .laneOut die port i, done]
      match d.laneSpare k with
      | some s => .fresh fun i =>
          if Config.freeBit i then .seq [record, .swapLane k s cause queue, .unitState k 3, done] else alone
      | none => alone
    | 3 => .seq [record, .moduleOn k false, .unitState k 3, done]
    | 4 => .seq [record, .unitState k 3, .spareSt fun s => { s with evicting := s.evicting ++ [k] }, done]
    | 5 => .seq [
        record, .unitState k 3, .evictWay die,
        .read fun d => .opt (d.spareFor k) fun s => .bringIn s 0xFFFF cause queue,
        .dirWays die, done]
    | _ => done

/-- A unit becomes due for retirement, in order of becoming so (R613). -/
def Tr.makeDue (k : Nat) : Tr :=
  .read fun d => .when (d.u.spare.unit k).due.isNone (.seq [
    .unit k fun x => { x with due := some d.u.spare.seq },
    .spareSt fun s => { s with seq := s.seq + 1 }])

/-! ## Self-test (R624 to R629) -/

/-- The duration of a test by unit kind and level (R624). -/
def testTime (kind level : Nat) : Nat :=
  let us := match kind, level with
    | 0, 0 => 150 | 0, 1 => 800 | 0, _ => 2500
    | 1, 0 => 300 | 1, 1 => 1500 | 1, _ => 4000
    | 2, 0 => 1000 | 2, _ => 10000
    | 3, 0 => 20 | 3, 1 => 60 | 3, _ => 200
    | _, 2 => 600 | _, _ => 250
  us * oneUs

/-- A probation starts: counted and recorded. -/
def Tr.probationRecord (k logical cause queue : Nat) : Tr :=
  .seq [.bump SPARE_PROBATIONS HD, .service k logical .probationStart cause 0 queue]

/-- The spare that a rotation of an ACTIVE unit would take. -/
def Dev.rotationSpare (d : Dev) (k : Nat) : Option Nat := if ukKind k = 2 then d.laneSpare k else d.spareFor k

/-- A rotation (R625): spare `s` takes the unit's place, and the unit goes to PROBATION and is tested there. -/
def Tr.rotate (k s : Nat) (p : Probe) : Tr :=
  .read fun d =>
    let n := d.unitLogical k
    let x : Leaving := { out := k, st := 2, logical := n, to_ := 0, ends := 0, probe := some p }
    .seq [
      .probationRecord k n 2 p.queue,
      match ukKind k with
      | 0 => .swapCell (ukDie k) (n % 160) (ukIdx k) (ukIdx s) x 2 p.queue
      | 1 => .swapHost n (ukIdx k) (ukIdx s) x 2 p.queue
      | _ => .seq [.swapLane k s 2 p.queue, .leave x]]

/-- A test in place of a unit in service (R626, R627, R629): the unit is TESTING. A lane's port retrains without it, a
module is out of service, a way's lines are evicted; a cell's contents become undefined. -/
def Tr.testInPlace (k : Nat) (p : Probe) : Tr :=
  .read fun d => .seq [
    .unitState k 5,
    .spareSt fun s => { s with probes := s.probes ++ [{ p with inPlace := true, since := d.elapsed }] },
    match ukKind k with
    | 0 => .epoch fun e => .seq [
        .cell (ukDie k * 168 + ukIdx k) fun c => { c with
          spad := { epoch := e }, tiles := { epoch := e }, acc := { epoch := e }, poison := [], att := [] },
        .mouldRefs (ukDie k)]
    | 2 => .opt (d.laneOf k) fun (port, i) => .laneOut (ukDie k) port i
    | 3 => .moduleOn k false
    | 4 => .each (d.u.coh.copies.filter (·.agent = 25 + ukDie k)) fun c =>
        .fresh fun i => .when (Config.freeBit i) (.giveUp c.agent c.line)
    | _ => .skip]

/-- The next module of a link, or way of a die cache, that a self-test waits for (R629): one at a time, and never the last
module; a unit no longer in service is passed over. -/
def Tr.nextInTurn (group : Nat) : Tr :=
  .read fun d =>
    let mine := fun (k : Nat) => (ukKind k = 3 || ukKind k = 4) && (if ukKind k = 3 then ukIdx k / 256 else 16 + ukDie k) = group
    if d.u.spare.probes.any fun p => p.inPlace && mine p.unit then .skip
    else
      let wants := d.u.cmd.cmds.filter fun c => c.op = 0x82 && c.stage = 2
      let able := fun (k : Nat) => d.unitSt k = 0 && (ukKind k ≠ 3 || d.canRetire k true)
      let keys := (wants.flatMap fun c => (c.tiles.filter fun t => t.2 = 2 && mine t.1).map (·.1)).eraseDups
      let drop := keys.takeWhile fun k => !able k
      .seq [
        .each wants fun c => .when (c.tiles.any fun t => t.2 = 2 && drop.contains t.1) (.seq [
          .onCmd c.seqNo fun c => { c with tiles := c.tiles.filter fun t => !(t.2 = 2 && drop.contains t.1) },
          .testsDone c.seqNo]),
        .opt ((keys.drop drop.length).head?) fun k =>
          let cs := wants.filter fun c => c.tiles.any fun t => t.2 = 2 && t.1 = k
          .testInPlace k { unit := k, level := (cs.head?).elim 0 fun c => c.at 9 1, cmds := cs.map (·.seqNo),
                           queue := (cs.head?).elim 0xFFFD Cmd.recordQueue }]

/-- A probation that has ended is applied at an edge (R615, R625). -/
def Tr.applyOutcome (p : Probe) (ok : Bool) : Tr :=
  let cause := if p.ret then 1 else 2
  .seq [
    .spareSt fun s => { s with probes := s.probes.erase p },
    .unitState p.unit (if ok then 1 else 3),
    .when (!ok) (.seq [.bump SPARE_PROBATION_FAILS HD, .bump SPARE_RETIREMENTS HD]),
    .serviceOf p.unit (if ok then .probationPass else .probationFail) cause 0 p.queue,
    .tellTest p ok]

/-- The units due for retirement, oldest first. -/
def Dev.dueUnits (d : Dev) : List Nat :=
  let due := d.u.spare.units.filterMap fun e => e.2.due.map fun n => (n, e.1)
  (due.foldl (fun t e => tinsert t e.1 e.2) []).map (·.2)

/-- The deferred test's unit. -/
def Dev.deferredUnit (d : Dev) (x : Deferred) : Option Nat :=
  match x.kind with
  | 0 => (d.physOf (x.die * 160 + x.logical)).map fun pk => ukey 0 x.die (pk % 168)
  | 1 => some (ukey 1 HD (d.hostPhys x.logical))
  | _ => some (ukey 2 x.die x.logical)

/-- A deferred test begins. -/
def Tr.deferredStart (x : Deferred) (k : Nat) : Tr :=
  .seq [.spareSt fun s => { s with deferred := s.deferred.erase x }, .serviceOf k .deferredStart 2 0 x.queue]

/-- Step 2 of R70, in the order of R615 and R619: outcomes, logical units without a unit, retirements that are due, deferred
tests by rotation; and modules that could not be repaired leave service (R18). -/
def Tr.spareEdge : Tr :=
  .seq [
    .spareSt fun s => { s with autos := [] },
    .read fun d => .each d.u.spare.probes fun p => .opt p.outcome fun ok => .applyOutcome p ok,
    .read fun d => .each d.u.spare.unbacked fun c => .read fun d =>
      .opt (d.spareFor (ukey 0 (c / 160) 0)) fun s => .seq [
        .bindCell (c / 160) (c % 160) (ukIdx s), .bringIn s c 0 0xFFFD, .service s c .backed 0 0 0xFFFD],
    .read fun d => .each d.u.spare.stalled fun l => .read fun d =>
      .opt (d.spareFor (ukey 1 HD 0)) fun s => .seq [
        .spareSt fun x => { x with hosts := tinsert x.hosts l (ukIdx s), stalled := x.stalled.erase l },
        .bringIn s l 2 0xFFFD],
    .read fun d => .each d.dueUnits fun k => .read fun d =>
      .when (d.unitSt k = 0 && d.canRetire k true) (.seq [
        .spareSt fun s => { s with autos := s.autos ++ [(ukKind k, d.unitLogical k, ukIdx k)] },
        .retire k 0 0xFFFD none]),
    .read fun d => .each d.u.spare.deferred fun x => .read fun d => .opt (d.deferredUnit x) fun k =>
      let p : Probe := { unit := k, level := x.level, queue := x.queue }
      if d.unitSt k = 0 then .opt (d.rotationSpare k) fun s => .seq [.deferredStart x k, .rotate k s p]
      else if x.kind = 2 && d.unitSt k = 1 then .seq [
        .deferredStart x k, .probationRecord k 0xFFFF 2 x.queue,
        .leave { out := k, st := 2, logical := 0xFFFF, to_ := 0, ends := 0, probe := some p }]
      else .when (d.unitSt k = 3) (.spareSt fun s => { s with deferred := s.deferred.erase x }),
    .read fun d => .each d.u.links fun (l, k) => .each (setBits 24 (k.leaving &&& k.modules)) fun m => .read fun d =>
      .when (d.canRetire (moduleKey l m) true) (.seq [
        .link l fun x => { x with leaving := putBits x.leaving m 1 0 },
        .retire (moduleKey l m) 3 0xFFFD none])]

/-- The deferred tests that run in place in a slack beat entered with zero slip (R626): those of units that the beat's work
list names no thread on. -/
def Tr.slackTests (named : List Nat) : Tr :=
  .read fun d => .each d.u.spare.deferred fun x => .read fun d => .opt (d.deferredUnit x) fun k =>
    .when (d.unitSt k = 0 && !(x.kind = 0 && named.contains (x.die * 160 + x.logical))) (.seq [
      .deferredStart x k, .testInPlace k { unit := k, level := x.level, queue := x.queue }])

/-! ## Lost and failing lanes and modules -/

/-- LANE_LOSS (R541, R542): a port loses a logical lane; a native port whose pair has a free spare, and whose partner moves
the same lane, takes it. -/
def laneLossTr (port : PortId) (lane : Fin 8) (partner : Bool) : Tr :=
  .read fun d =>
    let die := pdOf (port.val / 16)
    let k := ukey 2 die (d.lanePhys port.val lane.val)
    let n := d.unitLogical k
    .when (d.unitSt k = 0 && n = 8 * port.val + lane.val) (.seq [
      .retiredRecord k n 3 0xFFFD,
      match (if partner then d.laneSpare k else none) with
      | some s => .seq [.swapLane k s 3 0xFFFD, .unitState k 3]
      | none => .seq [.unitState k 3, .laneOut die (port.val % 16) lane.val]])
/-- LANE_LOSS. -/
def execLaneLoss (port : PortId) (lane : Fin 8) (partner : Bool) (s : State) := run (laneLossTr port lane partner) s

/-- UCIE_LANE_FAILURE (R18): a redundant lane takes over, which is patina; or the module cannot be repaired and leaves
service at the next edge. -/
def ucieLaneFailureTr (l : LinkId) (m : Fin 24) (redundant : Bool) : Tr :=
  .read fun d => .when ((d.link l.val).modules.testBit m.val) (
    if redundant then .patina (moduleKey l.val m.val) 64
    else .link l.val fun x => { x with leaving := putBits x.leaving m.val 1 1 })
/-- UCIE_LANE_FAILURE. -/
def execUcieLaneFailure (l : LinkId) (m : Fin 24) (redundant : Bool) (s : State) := run (ucieLaneFailureTr l m redundant) s

/-- UCIE_FLIT_RETRY (R17, R611): the flit is replayed, and the retry adds to the module's patina. -/
def ucieFlitRetryTr (l : LinkId) (m : Fin 24) : Tr :=
  .read fun d => .when ((d.link l.val).modules.testBit m.val) (.patina (moduleKey l.val m.val) 1)
/-- UCIE_FLIT_RETRY. -/
def execUcieFlitRetry (l : LinkId) (m : Fin 24) (s : State) := run (ucieFlitRetryTr l m) s

/-- LANE_ADAPTATION_PASS (R611, R630): a lane's pass ends with an eye of `eyePct` percent, after `fec` corrected symbols on
the lane since its last pass; a calibration that waits for the lane goes on. -/
def laneAdaptationPassTr (pd : PDie) (lane : BitVec 8) (eyePct : BitVec 7) (fec : BitVec 32) : Tr :=
  .read fun d =>
    let k := ukey 2 (pdOf pd.val) lane.toNat
    let sum := (d.u.spare.unit k).fec + fec.toNat
    .when (lane.toNat < 136) (.seq [
      .opt (d.laneOf k) fun (port, _) => .bump FAB_PORT_FEC_CORR (pdOf pd.val) fec.toNat port,
      .unit k fun x => { x with fec := sum % 65536 },
      .patina k (sum / 65536),
      .when (eyePct.toNat < d.fld SPARE_CTL SPARE_CTL_LANE_MARGIN HD) (.patina k 16),
      .each (d.u.cmd.cmds.filter fun c => c.op = 0x83 && c.stage = 2 && c.units.contains k) fun c => .unitDone c.seqNo k])
/-- LANE_ADAPTATION_PASS. -/
def execLaneAdaptationPass (pd : PDie) (lane : BitVec 8) (eyePct : BitVec 7) (fec : BitVec 32) (s : State) :=
  run (laneAdaptationPassTr pd lane eyePct fec) s

/-! ## HBM stacks: calibration and row repair (R346, R347, R612, R630, R631) -/

/-- Calibration of a stack 0 to 11. -/
def Dev.cal (d : Dev) (stack : Nat) : CalSt := agetD d.u.mem.cal stack {}

/-- HBM_CALIBRATION_STEP (R346, R347, R612): a lane group of a pseudo-channel is retrained, its eye `eyePct` percent of the
unit interval; `lost`: the pseudo-channel cannot be brought back within margin; `passEnd`: the group is the last of the
stack's pass. -/
def hbmCalibrationStepTr (die : TDie) (stack : Fin 3) (pc : BitVec 6) (eyePct : BitVec 7) (lost passEnd : Bool) : Tr :=
  .read fun d =>
    let n := 3 * die.val + stack.val
    let c := d.cal n
    .seq [
      .when (eyePct.toNat < d.fld SPARE_CTL SPARE_CTL_HBM_MARGIN HD) (.seq [
        .fld MEM_CAL_STATUS MEM_CAL_STATUS_LOW_MARGIN die.val
          (putBits (d.fld MEM_CAL_STATUS MEM_CAL_STATUS_LOW_MARGIN die.val) stack.val 1 1),
        .patina (ukey 7 die.val (stack.val * 256)) 16]),
      .when lost (.fld MEM_PC MEM_PC_DOWN die.val 1 (3 * pc.toNat + stack.val)),
      .when passEnd (.seq [
        .memSt fun m => { m with cal := tinsert m.cal n { waiting := [], running := c.waiting, passes := c.passes + 1 } },
        .read fun d => .fld MEM_CAL_STATUS MEM_CAL_STATUS_PASSES die.val
          ((List.range 3).foldl (fun a i => min a (d.cal (3 * die.val + i)).passes) (c.passes + 1) % 2 ^ 32),
        .each c.running fun id => .unitDone id (ukey 7 die.val (stack.val * 256))])]
/-- HBM_CALIBRATION_STEP. -/
def execHbmCalibrationStep (die : TDie) (stack : Fin 3) (pc : BitVec 6) (eyePct : BitVec 7) (lost passEnd : Bool) (s : State) :=
  run (hbmCalibrationStepTr die stack pc eyePct lost passEnd) s

/-- The bank that a write of SPARE_PPR_REQ names: pseudo-channel * 64 + bank. -/
def pprBank (v : Nat) : Nat := bitsOf v 8 8 * 64 + bitsOf v 16 6

/-- SPARE_PPR_REQ (R631): a write of GO starts a soft repair of a row; a bank without a free repair row sets NO_RESOURCE. -/
def sparePprReqTr (die : TDie) (v : Word) : Tr :=
  .read fun d =>
    let n := v.toNat
    let b := die.val * 2 ^ 16 + pprBank n
    .when (!d.flag SPARE_PPR_REQ SPARE_PPR_REQ_GO die.val) (.seq [
      .writeReg SPARE_PPR_REQ die.val (v &&& ~~~1),
      .when (n.testBit 0 && bitsOf n 8 8 < 192 && bitsOf n 32 13 < 6144) (
        if Config.pprRows die.val (pprBank n) ≤ agetD d.u.spare.pprUsed b 0 then
          .fld SPARE_PPR_STATUS SPARE_PPR_STATUS_NO_RESOURCE die.val 1
        else .seq [
          .fld SPARE_PPR_REQ SPARE_PPR_REQ_GO die.val 1,
          .spareSt fun s => { s with ppr := s.ppr ++ [(die.val, n)] }])])
/-- SPARE_PPR_REQ. -/
def execSparePprReq (die : TDie) (v : Word) (s : State) := run (sparePprReqTr die v) s

/-- The storage offsets, in a die's HBM, of the 32 sectors of a row (R339). -/
def rowSectors (pc bank row : Nat) : List Nat :=
  (List.range 4).flatMap fun cb => (List.range 8).map fun i => ((row * 256 + cb * 64 + bank) * 192 + pc) * 512 + 64 * i

/-- A sector that a row repair writes back as it was read: whole where it was corrected, poisoned where it was
uncorrectable or poisoned (R353, R354, R631). -/
def Tr.rewriteSector (die so : Nat) : Tr :=
  .read fun d =>
    let k := (die * hbmWindow + so) / 64
    let la := d.localOfStor die so
    .when (!(d.sectorErrs k).isEmpty) (.fresh fun i =>
      match secDecode (d.forceFld MEM_CTL MEM_CTL_ECC_T die) (d.sectorErrs k).length (d.sectorPoison k) i with
      | .good _ => .memSt fun m => { m with errs := terase m.errs k }
      | .miscorrected => .seq [
          .rawStore la (d.damagedBytes la),
          .memSt fun m => { m with errs := terase m.errs k, poison := m.poison.filter (· ≠ k) }]
      | _ => .poisonSector la)

/-- PPR_DONE (R631): the row has been read, repaired and written back; the held requests go on and GO clears. -/
def pprDoneTr (die : TDie) : Tr :=
  .read fun d => .opt (d.u.spare.ppr.find? (·.1 = die.val)) fun e =>
    let n := e.2
    let k := ukey 6 die.val (bitsOf n 8 8)
    .seq [
      .each (rowSectors (bitsOf n 8 8) (bitsOf n 16 6) (bitsOf n 32 13)) fun so => .rewriteSector die.val so,
      .spareSt fun s => { s with
        ppr := s.ppr.erase e, pprUsed := aupd s.pprUsed (die.val * 2 ^ 16 + pprBank n) 0 (· + 1) },
      .fld SPARE_PPR_REQ SPARE_PPR_REQ_GO die.val 0,
      .fld SPARE_PPR_STATUS SPARE_PPR_STATUS_REPAIRS die.val (satAdd 16 (d.fld SPARE_PPR_STATUS SPARE_PPR_STATUS_REPAIRS die.val) 1),
      .service k 0xFFFF .pprDone 0 0 0xFFFD]
/-- PPR_DONE. -/
def execPprDone (die : TDie) (s : State) := run (pprDoneTr die) s

/-! ## Patina and tests -/

/-- The unit that SPARE_SEL names (R634); none where it names no unit. A module is named on either die of its link. -/
def Dev.selUnit (d : Dev) : Option Nat :=
  let kind := d.fld SPARE_SEL SPARE_SEL_KIND HD
  let die := d.fld SPARE_SEL SPARE_SEL_DIE HD
  let idx := d.fld SPARE_SEL SPARE_SEL_INDEX HD
  if !unitExists kind die idx then none
  else if kind = 3 then some (moduleKey (idx / 256) (idx % 256)) else some (ukey kind die idx)

/-- SPARE_PATINA_WRITE (R614): discarded where SPARE_SEL names no unit. -/
def sparePatinaWriteTr (v : Word) : Tr := .read fun d => .opt d.selUnit fun k => .setPatina k (v.toNat % 2 ^ 32)
/-- SPARE_PATINA_WRITE. -/
def execSparePatinaWrite (v : Word) (s : State) := run (sparePatinaWriteTr v) s

/-- PROBATION_TEST_END (R624, R625): a probation's test has run its time; its outcome waits for the next edge. -/
def probationTestEndTr (kind : Fin 8) (die : Die) (idx : BitVec 16) (pass : Bool) : Tr :=
  .read fun d =>
    let k := ukey kind.val die.val idx.toNat
    .opt (d.u.spare.probes.find? fun p => p.unit = k && !p.inPlace && p.outcome.isNone && p.since + testTime kind.val p.level ≤ d.elapsed)
      fun p => .spareSt fun s => { s with probes := s.probes.map fun q => if q = p then { q with outcome := some pass } else q }
/-- PROBATION_TEST_END. -/
def execProbationTestEnd (kind : Fin 8) (die : Die) (idx : BitVec 16) (pass : Bool) (s : State) :=
  run (probationTestEndTr kind die idx pass) s

/-- HOST_CORE_SWAP_DONE (R621): the hart's state has moved, and it goes on at the incoming core. -/
def hostCoreSwapDoneTr (core : BitVec 7) : Tr :=
  .read fun d => .opt (d.u.spare.leaving.find? fun x => ukKind x.out = 1 && x.logical = core.toNat) fun x => .leave x
/-- HOST_CORE_SWAP_DONE. -/
def execHostCoreSwapDone (core : BitVec 7) (s : State) := run (hostCoreSwapDoneTr core) s

/-- WAY_EVICTION_DONE (R623): a retired die-cache way is empty, and a repair way comes in where one is free. Which of the
cache's lines stood in the way is open. -/
def wayEvictionDoneTr (die : TDie) (way : BitVec 5) : Tr :=
  .read fun d =>
    let k := ukey 4 die.val way.toNat
    .when (d.u.spare.evicting.contains k) (.seq [
      .spareSt fun s => { s with evicting := s.evicting.erase k },
      .each (d.u.coh.copies.filter (·.agent = 25 + die.val)) fun c =>
        .fresh fun i => .when (Config.freeBit i) (.giveUp c.agent c.line),
      .read fun d => .opt (d.spareFor k) fun s => .bringIn s 0xFFFF 0 0xFFFD])
/-- WAY_EVICTION_DONE. -/
def execWayEvictionDone (die : TDie) (way : BitVec 5) (s : State) := run (wayEvictionDoneTr die way) s

end Sys2Proof.Machine
end

