-- ==== Sys2Proof/Machine/Ctl.lean ====
section
/-! DEFINITION. Control commands (R461 to R467): what they name, when they are due, how they are resolved, and what each
does when it is applied (R464, R618, R624 to R630, R662). -/

namespace Sys2Proof.Machine

/-- KIND, ARG, INDEX, COUNT and PARAM of a control command (R461). -/
def Cmd.kind (c : Cmd) : Nat := c.at 8 1
/-- ARG. -/
def Cmd.arg (c : Cmd) : Nat := c.at 9 1
/-- INDEX. -/
def Cmd.index (c : Cmd) : Nat := c.at 16 2
/-- COUNT. -/
def Cmd.count (c : Cmd) : Nat := c.at 18 2
/-- PARAM. -/
def Cmd.param (c : Cmd) : Nat := c.at 20 4

/-- The resources of a kind (R461). -/
def kindSize : Nat → Nat
  | 0 => 640 | 1 => 96 | 2 => 272 | 3 => 12 | 4 => 12 | 5 => 4 | 6 => 4 | _ => 0

/-- The checks that every control command shares (R446, R461). -/
def Cmd.ctlGood (c : Cmd) (kinds : List Nat) (arg param : Nat → Bool) : Bool :=
  restZero c.pkt [(8, 2), (16, 8)] && kinds.contains c.kind && c.count ≠ 0 && c.index + c.count ≤ kindSize c.kind &&
    arg c.arg && param c.param

/-- A control command has been parsed: it waits for its edge, or is malformed (R448, R462). -/
def Tr.ctlStart (src : CmdSrc) (n : BitVec 32) (op : Nat) (mine good : Cmd → Bool) : Tr :=
  .withCmd src n op fun c => .when (mine c) (if good c then .onCmd c.seqNo fun x => { x with stage := 1 } else .complete c stMALFORMED 0)

/-! ## Roles (R464) -/

/-- The role of a physical cell, with its vector mode (R90). -/
def Tr.setRole (pk role : Nat) : Tr :=
  .seq [
    .fld CELL_ROLE CELL_ROLE_ROLE (pk / 168) role (pk % 168),
    .fld CELL_ROLE CELL_ROLE_VMODE (pk / 168) (b01 (roleStream role)) (pk % 168)]

/-- Roles of consecutive logical cells (R92); an unbacked one has none (R619). A role changes nothing else of its cell (R93). -/
def Tr.setRoles (first count role : Nat) : Tr :=
  .each (List.range count) fun i => .read fun d => .opt (d.physOf (first + i)) fun pk => .setRole pk role

/-- CTL_ROLE: parsed. -/
def execCtlRole (src : CmdSrc) (n : BitVec 32) (s : State) :=
  run (.ctlStart src n 0x80 (fun _ => true) fun c => c.ctlGood [0] (· ≤ 6) (· = 0)) s

/-! ## Power levels (R661, R662) -/

/-- PWR_LEVEL's field of a tensor die. -/
def levelFld : Nat → Fld
  | 0 => PWR_LEVEL_LEVEL0 | 1 => PWR_LEVEL_LEVEL1 | 2 => PWR_LEVEL_LEVEL2 | _ => PWR_LEVEL_LEVEL3

/-- The level in force: the commanded one, level 2 or lower while the die is throttled (R661), and the level that the
custodian holds for the package's power or lower (R681). -/
def Tr.levelGo (die : Nat) : Tr :=
  .read fun d =>
    let c := agetD d.u.pwr.level die 0
    let t := (d.fld PWR_THERMAL PWR_THERMAL_THROTTLED HD).testBit die
    .fld PWR_LEVEL (levelFld die) HD (max (if t then max c 2 else c) (agetD d.u.pwr.cap die 0))

/-- Whether a die's cells are parked, or have not been back for 50 µs at an edge (R662). -/
def Dev.parked (d : Dev) (die : Nat) : Bool := agetD d.u.pwr.level die 0 = 3 || d.u.pwr.unpark.any (·.1 = die)

/-- Cells that are power-gated lose their contents and attachments (R662). -/
def Tr.park (die : Nat) : Tr :=
  .seq [
    .epoch fun e => .units fun u => { u with cells := u.cells.map fun x =>
      if x.1 / 168 = die then (x.1, { x.2 with spad := { epoch := e }, tiles := { epoch := e }, acc := { epoch := e }, poison := [], att := [] })
      else x },
    .mouldRefs die]

/-- A tensor die's commanded level; a die that leaves PARKED keeps the command waiting. -/
def Tr.setPower (c : Cmd) (die : Nat) : Tr :=
  .read fun d =>
    let old := agetD d.u.pwr.level die 0
    .seq [
      .units fun u => { u with pwr := { u.pwr with level := tinsert u.pwr.level die c.arg } },
      .when (c.arg = 3 && old ≠ 3) (.park die),
      if old = 3 && c.arg ≠ 3 then .seq [
        .units fun u => { u with pwr := { u.pwr with unpark := u.pwr.unpark ++ [(die, d.elapsed, c.seqNo)] } },
        .onCmd c.seqNo fun x => { x with units := x.units ++ [die] }]
      else .skip,
      .levelGo die]

/-- At an edge, dies that left PARKED at least 50 µs ago are back, and their commands complete (R662). -/
def Tr.unparkEdge : Tr :=
  .read fun d => .each (d.u.pwr.unpark.filter fun x => x.2.1 + 50 * oneUs ≤ d.elapsed) fun x => .seq [
    .units fun u => { u with pwr := { u.pwr with unpark := u.pwr.unpark.erase x } },
    .unitDone x.2.2 x.1]

/-- CTL_POWER: parsed. -/
def execCtlPower (src : CmdSrc) (n : BitVec 32) (s : State) :=
  run (.ctlStart src n 0x81 (fun _ => true) fun c => c.ctlGood [5] (· ≤ 3) (· = 0)) s

/-! ## Self-test (R624 to R629) -/

/-- The physical unit of resource `i` of a kind (R461, R617): of a logical cell or core, the one that serves it now. -/
def Dev.unitOf (d : Dev) (kind i : Nat) : Option Nat :=
  match kind with
  | 0 => (d.physOf i).map fun pk => ukey 0 (i / 160) (pk % 168)
  | 1 => if d.u.spare.stalled.contains i then none else some (ukey 1 HD (d.hostPhys i))
  | 2 => some (ukey 2 (5 + i / 136) (i % 136))
  | _ => none

/-- One unit that a self-test names: tested by rotation, in PROBATION or with a test under way; or deferred (R625, R626,
R628). Cmd.total counts rotations and Cmd.sent deferrals. -/
def Tr.testNamed (c : Cmd) (i k : Nat) : Tr :=
  .read fun d =>
    let p : Probe := { unit := k, level := c.arg, cmds := [c.seqNo], queue := c.recordQueue }
    let wait := Tr.onCmd c.seqNo fun x => { x with tiles := x.tiles ++ [(k, 2)] }
    let st := d.unitSt k
    if st = 5 || st = 2 then .seq [
      wait,
      .spareSt fun s => { s with
        probes := s.probes.map fun q => if q.unit = k then { q with cmds := q.cmds ++ [c.seqNo] } else q }]
    else if st = 1 then .seq [
      wait, .probationRecord k 0xFFFF 2 p.queue,
      .leave { out := k, st := 2, logical := 0xFFFF, to_ := 0, ends := 0, probe := some p },
      .onCmd c.seqNo fun x => { x with total := x.total + 1 }]
    else match d.rotationSpare k with
      | some s => .seq [wait, .rotate k s p, .onCmd c.seqNo fun x => { x with total := x.total + 1 }]
      | none => .seq [
          .onCmd c.seqNo fun x => { x with sent := x.sent + 1 },
          .bump SPARE_DEFERRALS HD, .serviceOf k .deferred 2 stBUSY_DEFERRED c.recordQueue,
          .spareSt fun s => { s with deferred := s.deferred ++ [{
            kind := c.kind, die := ukDie k, logical := if c.kind = 0 then i % 160 else if c.kind = 1 then i else ukIdx k,
            level := c.arg, queue := c.recordQueue }] }]

/-- After the units have been named: a command with a deferred unit is done, and waits for no outcome (R626). -/
def Tr.testEnd (id : Nat) : Tr :=
  .read fun d => .opt (d.u.cmd.cmds.find? (·.seqNo = id)) fun c =>
    if c.sent = 0 then .testsDone id
    else .seq [
      .spareSt fun s => { s with
        probes := s.probes.map fun p => { p with cmds := p.cmds.filter (· ≠ id) },
        leaving := s.leaving.map fun x => { x with probe := x.probe.map fun p => { p with cmds := p.cmds.filter (· ≠ id) } } },
      .complete c stBUSY_DEFERRED (c.total % 256 * 2 ^ 32 + c.sent % 256 * 2 ^ 40)]

/-- The units in service of a link or a die cache that a self-test or calibration takes in turn. -/
def Dev.groupUnits (d : Dev) (kind i : Nat) : List Nat :=
  if kind = 4 then (setBits 24 (d.link i).modules).map (moduleKey i)
  else ((List.range 18).map (ukey 4 i)).filter fun k => d.unitSt k = 0

/-- A CTL_SELFTEST is applied. -/
def Tr.applySelftest (c : Cmd) : Tr :=
  .read fun d =>
    let ids := (List.range c.count).map (c.index + ·)
    let start := Tr.onCmd c.seqNo fun x => { x with stage := 2 }
    if c.kind = 4 || c.kind = 6 then .seq [
      .onCmd c.seqNo fun x => { x with stage := 2, tiles := (ids.flatMap (d.groupUnits c.kind)).map fun k => (k, 2) },
      .each ids fun i => .nextInTurn (if c.kind = 4 then i else 16 + i),
      .testsDone c.seqNo]
    else
      let us := ids.filterMap fun i => (d.unitOf c.kind i).map fun k => (i, k)
      if us.isEmpty then .complete c stCAPABILITY_ABSENT 0
      else if c.kind = 2 && us.any fun u => d.unitSt u.2 = 3 || d.unitSt u.2 = 4 then .complete c stMALFORMED 0
      else .seq [start, .each us fun u => .testNamed c u.1 u.2, .testEnd c.seqNo]

/-- CTL_SELFTEST: parsed. -/
def execCtlSelftest (src : CmdSrc) (n : BitVec 32) (s : State) :=
  run (.ctlStart src n 0x82 (fun _ => true) fun c => c.ctlGood [0, 1, 2, 4, 6] (· ≤ 2) (· = 0)) s

/-! ## Calibration (R346, R630) -/

/-- A CTL_CALIBRATE is applied: lanes wait for their next pass, stacks for the next pass that begins, links for a retrain of
each module in turn, 20 µs each. -/
def Tr.applyCalibrate (c : Cmd) : Tr :=
  .read fun d =>
    let ids := (List.range c.count).map (c.index + ·)
    match c.kind with
    | 2 => .onCmd c.seqNo fun x => { x with stage := 2, units := ids.filterMap (d.unitOf 2) }
    | 3 => .seq [
        .onCmd c.seqNo fun x => { x with stage := 2, units := ids.map fun i => ukey 7 (i / 3) (i % 3 * 256) },
        .each ids fun i => .memSt fun m => { m with cal := aupd m.cal i {} fun a => { a with waiting := a.waiting ++ [c.seqNo] } }]
    | _ =>
      let most := ids.foldl (fun n i => max n (d.groupUnits 4 i).length) 0
      .onCmd c.seqNo fun x => { x with stage := 2, total := d.elapsed + 20 * most * oneUs }

/-- CTL_CALIBRATE: parsed; or, of links once applied, every module has been retrained. -/
def ctlCalibrateTr (src : CmdSrc) (n : BitVec 32) : Tr :=
  .seq [
    .withCmd src n 0x83 (st := 2) fun c => .read fun d => .when (c.kind = 4 && c.total ≤ d.elapsed) (.complete c stOK 0),
    .ctlStart src n 0x83 (fun _ => true) fun c => c.ctlGood [2, 3, 4] (· = 0) (· = 0)]
/-- CTL_CALIBRATE. -/
def execCtlCalibrate (src : CmdSrc) (n : BitVec 32) (s : State) := run (ctlCalibrateTr src n) s

/-! ## Swaps (R617, R618) -/

/-- What a command waits for while its units are still being named. -/
def namingKey : Nat := 2 ^ 60

/-- One unit that a RETIRE names. -/
def Tr.retireNamed (c : Cmd) (i k : Nat) : Tr :=
  .read fun d =>
    let due := Tr.seq [.makeDue k, .onCmd c.seqNo fun x => { x with result := x.result + 2 ^ 8 }]
    if d.u.spare.autos.any fun a => a.1 = c.kind && a.2.1 = i then .skip
    else if d.unitSt k = 5 then due
    else if d.unitSt k ≠ 0 then .skip
    else if c.kind = 1 && (d.spareFor k).isNone then due
    else .seq [
      .onCmd c.seqNo fun x => { x with result := x.result + 1, units := x.units ++ [k] },
      .retire k 1 c.recordQueue (some c.seqNo)]

/-- A RETIRE is applied. A unit that step 2 of the same edge retired is named in RESULT, where no other unit was retired. -/
def Tr.applyRetire (c : Cmd) : Tr :=
  .read fun d =>
    let ids := (List.range c.count).map (c.index + ·)
    let autos := d.u.spare.autos.filter fun a => a.1 = c.kind && ids.contains a.2.1
    .seq [
      .onCmd c.seqNo fun x => { x with stage := 2, units := [namingKey] },
      .each (ids.filterMap fun i => (d.unitOf c.kind i).map fun k => (i, k)) fun u => .retireNamed c u.1 u.2,
      .onCmd c.seqNo fun x => { x with result := if x.result = 0 then autos.head?.elim 0 (·.2.2) else x.result },
      .unitDone c.seqNo namingKey]

/-- A RETURN is applied: the unit's patina is cleared and a level-1 probation starts. -/
def Tr.applyReturn (c : Cmd) : Tr :=
  .read fun d =>
    let k := match c.kind with
      | 0 => ukey 0 (c.index / 160) (c.param % 256)
      | 1 => ukey 1 HD (c.param % 256)
      | _ => ukey 2 (5 + c.index / 136) (c.index % 136)
    if !unitExists (ukKind k) (ukDie k) (ukIdx k) || d.unitSt k ≠ 3 then .complete c stMALFORMED 0
    else .seq [
      .onCmd c.seqNo fun x => { x with stage := 2 },
      .unit k fun x => { x with patina := 0, warned := false, told := false },
      .probationRecord k 0xFFFF 1 c.recordQueue,
      .leave { out := k, st := 2, logical := 0xFFFF, to_ := 0, ends := 0,
               probe := some { unit := k, level := 1, ret := true, cmds := [c.seqNo], queue := c.recordQueue } }]

/-- CTL_SWAP RETIRE: parsed; a CTL_SWAP of a reserved action is malformed. -/
def execCtlSwapRetire (src : CmdSrc) (n : BitVec 32) (s : State) :=
  run (.ctlStart src n 0x84 (fun c => c.arg ≠ 1) fun c => c.ctlGood [0, 1, 2] (· = 0) (· = 0) && c.count ≤ 8) s
/-- CTL_SWAP RETURN: parsed. -/
def execCtlSwapReturn (src : CmdSrc) (n : BitVec 32) (s : State) :=
  run (.ctlStart src n 0x84 (fun c => c.arg = 1) fun c => c.ctlGood [0, 1, 2] (· = 1) (· < 256) && c.count = 1) s

/-! ## Application (R462 to R465) -/

/-- A control command is applied. -/
def Tr.applyCtl (c : Cmd) : Tr :=
  match c.op with
  | 0x80 => .seq [.setRoles c.index c.count c.arg, .complete c stOK 0]
  | 0x81 => .seq [
      .onCmd c.seqNo fun x => { x with stage := 2, units := [namingKey] },
      .each (List.range c.count) fun i => .setPower c (c.index + i), .unitDone c.seqNo namingKey]
  | 0x82 => .applySelftest c
  | 0x83 => .applyCalibrate c
  | _ => if c.arg = 1 then .applyReturn c else .applyRetire c

/-- Whether a control command waits for application. -/
def Cmd.waits (c : Cmd) : Bool := opControl c.op && c.stage = 1

/-- The order of R463: master, then queue, then the later-accepted first. -/
def Cmd.before (a b : Cmd) : Bool :=
  let rank := fun (c : Cmd) => match c.src with | .mgmt => 0 | .fw => 1 | .queue q => 2 + q.val
  rank a < rank b || (rank a = rank b && b.seqNo < a.seqNo)

/-- A command placed by that order. -/
def ctlInsert (c : Cmd) : List Cmd → List Cmd
  | [] => [c]
  | x :: xs => if c.before x then c :: x :: xs else x :: ctlInsert c xs

/-- Whether two commands name the same resource (R463). -/
def Cmd.clashes (a b : Cmd) : Bool :=
  a.kind = b.kind && a.index < b.index + b.count && b.index < a.index + a.count

/-- Due commands in order: each is superseded or applied (R463). `roles`: cells for which the work list of the beginning beat
names a role. -/
def Tr.controlGo (roles : List Nat) : List Cmd → List Cmd → Tr
  | [], _ => .skip
  | c :: cs, applied =>
    let lost := (c.op = 0x80 && roles.any fun r => c.index ≤ r && r < c.index + c.count) || applied.any c.clashes
    if lost then .seq [.complete c stSUPERSEDED 0, .controlGo roles cs applied]
    else .seq [.applyCtl c, .controlGo roles cs (c :: applied)]

/-- The control commands due at the edge that begins beat `b`, in the order in which they are resolved (R444, R463). -/
def Dev.ctlDue (d : Dev) (b : Nat) : List Cmd :=
  (d.u.cmd.cmds.filter fun c => c.waits && (match c.due with | some x => x ≤ b | none => true)).foldl (fun l c => ctlInsert c l) []

/-- Step 3 of R70 at the edge that begins beat `b` (R462, R463). -/
def Tr.controlStep (b : Nat) (roles : List Nat) : Tr :=
  .read fun d => .seq [.controlGo roles (d.ctlDue b) [], .unparkEdge]

/-- The role that due commands name for logical cell `l`: of the first CTL_ROLE that is not superseded and whose range holds
it (R463, R464). -/
def roleNamed (l : Nat) : List Cmd → List Cmd → Option Nat
  | [], _ => none
  | c :: cs, applied =>
    if applied.any c.clashes then roleNamed l cs applied
    else if c.op = 0x80 && c.index ≤ l && l < c.index + c.count then some c.arg
    else roleNamed l cs (c :: applied)

/-- CONTROL_APPLY_STOPPED (R465): while beats are stopped, the oldest control command without a beat is applied alone. -/
def controlApplyStoppedTr : Tr :=
  .read fun d => .when (!d.running) (.opt (d.u.cmd.cmds.find? fun c => c.waits && c.due.isNone) .applyCtl)
/-- CONTROL_APPLY_STOPPED. -/
def execControlApplyStopped (s : State) := run controlApplyStoppedTr s

end Sys2Proof.Machine
end

