-- ==== Sys2Proof/Machine/Vq.lean ====
section
/-! DEFINITION. Casting at use: VQATT, VQX and VQREL (R333 to R336, R514, R515). Each executes whole at issue. -/

namespace Sys2Proof.Machine

/-- The bits of the fields RA, RB, RC, RN, RD, CD and ATT of R514. -/
def bMask (ra rb rc rn rd cd att : Bool) : Nat :=
  let on := fun (b : Bool) (m : Nat) => if b then m else 0
  on ra (fmask 16 5) ||| on rb (fmask 21 5) ||| on rc (fmask 26 5) ||| on rn (fmask 31 5) ||| on rd (fmask 36 5) |||
    on cd (fmask 41 3) ||| on att (fmask 44 2)

/-- ATT. -/
def Ctx.att (x : Ctx) : Nat := x.f 44 2

/-- VQATT (R333). A copy that meets an uncorrectable word of the mould store ends with MEM_UNCORRECTABLE and sets ERR
(R320). -/
def vqattTr (c : PCell) (t : Tid) (w : Word128) : Tr :=
  issue c t w (bMask true false false false false false true ||| mIMM 4 ||| fmask 80 16) fun x => .read fun d =>
    let cs := d.cellAt x.pk
    let spad := x.s 16
    let m := bitsOf x.imm 0 4
    let gen := bitsOf x.imm 16 16
    let g := d.geom x.die m
    if !d.dieFeature x.die 115 || (aget? cs.att x.att).isSome || spad % 64 ≠ 0 then x.illegal
    else if !d.slotFree x.pk then x.hold .waitMem
    else if !(d.fld VQ_MOULD VQ_MOULD_STATE x.die m = 2 && d.fld VQ_MOULD VQ_MOULD_GEN x.die m = gen) then
      .trap x.pk x.t .memory stCODEBOOK_RETIRED x.th.pc
    else if 262144 < g.bytes then .trap x.pk x.t .memory stMALFORMED x.th.pc
    else x.inSpad [(spad, g.bytes)] <|
      if d.u.badMould.contains (x.die * 16 + m) then
        .seq [.fld VQ_MOULD VQ_MOULD_ERR x.die 1 m, .trap x.pk x.t .memory stMEM_UNCORRECTABLE x.th.pc]
      else .seq [
        .writeSpad x.pk spad (d.rawBytes (mouldAddr x.die m) g.bytes),
        .cell x.pk fun cs => { cs with att := tinsert cs.att x.att (m, gen, spad) },
        .mouldRefs x.die, x.next]

/-- VQATT. -/
def execVqatt (c : PCell) (t : Tid) (w : Word128) (s : State) := run (onWord 6 8 w (vqattTr c t w)) s

/-- A block in scratchpad ends with a status: counted and recorded with address zero, and the thread traps (R329, R334). -/
def Ctx.vqxBad (x : Ctx) (b : Block) (kind st : Nat) : Tr :=
  .seq [.vqErr x.die kind st b.mould b.gen 0, .trap x.pk x.t .memory st x.th.pc]

/-- VQX (R334, R323, R328): check 1, then 3 to 6 of R327, the entries coming from the attachment's copy. -/
def vqxTr (c : PCell) (t : Tid) (w : Word128) : Tr :=
  issue c t w (bMask true false false false true false true) fun x => .read fun d =>
    let cs := d.cellAt x.pk
    let src := x.s 16
    let dst := x.s 36
    if src % 64 ≠ 0 || dst % 64 ≠ 0 then x.illegal
    else match aget? cs.att x.att with
    | none => x.illegal
    | some (m, gen, tbl) =>
      if !d.slotFree x.pk then x.hold .waitMem
      else x.inSpad [(src, 32)] <| x.unpoisoned (fun cs => cs.spadPoison src 32) <|
        let b := blockOf (cs.spad.slice src 32)
        let g := d.geom x.die m
        if !b.good then x.vqxBad b 1 stMALFORMED
        else if !(b.mould = m && b.gen = gen) then
          if d.mouldHolds x.die b.mould b.gen then x.vqxBad b 3 stMALFORMED else x.vqxBad b 2 stCODEBOOK_RETIRED
        else if !b.geomOk g then x.vqxBad b 3 stMALFORMED
        else x.inSpad [(src, b.used), (dst, b.slot)] <|
          x.unpoisoned (fun cs => cs.spadPoison src b.used || cs.spadPoison tbl g.bytes) <|
            let bs := cs.spad.slice src b.used
            if !b.crcOk bs then x.vqxBad b 4 stMALFORMED
            else
              let (out, st) := b.content g bs fun i => cs.spad.slice (tbl + i * g.vecBytes) g.vecBytes
              .seq [
                .writeSpad x.pk dst out, .bump VQ_BYTES_CAST x.die out.length,
                if st = stOK then .seq [.bump VQ_BLOCKS_CAST x.die, x.next] else x.vqxBad b (lengthKind st) st]

/-- VQX. -/
def execVqx (c : PCell) (t : Tid) (w : Word128) (s : State) := run (onWord 6 9 w (vqxTr c t w)) s

/-- VQREL (R336): on an attachment not held it acts as NOP. -/
def vqrelTr (c : PCell) (t : Tid) (w : Word128) : Tr :=
  issue c t w (bMask false false false false false false true) fun x => .seq [
    .cell x.pk fun cs => { cs with att := terase cs.att x.att }, .mouldRefs x.die, x.next]

/-- VQREL. -/
def execVqrel (c : PCell) (t : Tid) (w : Word128) (s : State) := run (onWord 6 10 w (vqrelTr c t w)) s

/-- Every attachment of a cell is released (R336). -/
def Tr.attachmentsEnd (pk : Nat) : Tr :=
  .seq [.cell pk fun cs => { cs with att := [] }, .mouldRefs (pk / 168)]

end Sys2Proof.Machine
end

