-- ==== Sys2Proof/Machine/BitStream.lean ====
section
/-! DEFINITION. The bit reader of a thread: BLOAD, BGET, BHUFF and BUNPK (R514 to R516). -/

namespace Sys2Proof.Machine

/-- The next bit, and the reader after it; none at the end or at a marker (R515). A last byte 0xFF read MSB-first has no
partner before the end, and the reader stops at it. -/
def Reader.next (sp : Nat → Byte) (r : Reader) : Option (Bool × Reader) :=
  if r.stop ≤ r.addr then none
  else
    let b := (sp r.addr).toNat
    let step := fun (n : Nat) => if r.bit = 7 then { r with addr := r.addr + n, bit := 0 } else { r with bit := r.bit + 1 }
    if !r.msb then some (b.testBit r.bit, step 1)
    else if b = 0xFF then
      if r.addr + 1 < r.stop && sp (r.addr + 1) = 0 then some (true, step 2) else none
    else some (b.testBit (7 - r.bit), step 1)

/-- Up to `n` bits in reader order, and the reader after them. -/
def Reader.take (sp : Nat → Byte) : Nat → Reader → List Bool × Reader
  | 0, r => ([], r)
  | n + 1, r => match r.next sp with
    | none => ([], r)
    | some (b, r') => let (bs, r'') := Reader.take sp n r'; (b :: bs, r'')

/-- The number that bits in reader order stand for (R515): LSB-first puts the first bit in bit 0, MSB-first in the most
significant position. -/
def bitsValue (msb : Bool) (bs : List Bool) : Nat :=
  (if msb then bs.reverse else bs).foldr (fun b v => b01 b + 2 * v) 0

/-- The reader a thread works with; one whose state is undefined is any reader: a free value. -/
def Ctx.withReader (x : Ctx) (k : Reader → Tr) : Tr :=
  match x.th.reader with
  | some r => k r
  | none => .fresh fun i =>
    let w := (Config.freeWord i).toNat
    k { addr := w % spadSize, bit := w / 2 ^ 32 % 8, stop := w / 2 ^ 36 % (spadSize + 1), msb := Config.freeBit i }

/-- The scratchpad bytes a reader went over. -/
def readerSpan (r r' : Reader) : Nat := min r.stop (r'.addr + 2) - r.addr

/-- BLOAD (R515). -/
def bloadTr (c : PCell) (t : Tid) (w : Word128) : Tr :=
  issue c t w (bMask true true true false false false false ||| mIMM 1) fun x =>
    let r : Reader := { addr := x.s 16, bit := x.s 21 % 8, stop := x.s 26, msb := bitOf x.imm 0 }
    if spadSize ≤ r.addr || spadSize < r.stop then x.spadTrap
    else x.nextWith fun th => { th with reader := some r }
/-- BLOAD. -/
def execBload (c : PCell) (t : Tid) (w : Word128) (s : State) := run (onWord 6 0 w (bloadTr c t w)) s

/-- BGET (R515). -/
def bgetTr (c : PCell) (t : Tid) (w : Word128) : Tr :=
  issue c t w (bMask false false false false true true false ||| mIMM 7) fun x =>
    let n := bitsOf x.imm 0 6
    if n = 0 || 32 < n then x.illegal
    else x.withReader fun r => .read fun d =>
      let (bs, r') := r.take (d.cellAt x.pk).spad.get n
      x.unpoisoned (fun cs => cs.spadPoison r.addr (readerSpan r r')) <|
        if bs.length < n then x.nextWith fun th => ({ th with reader := some r }.setS (x.f 36 5) 0).setC (x.f 41 3) false
        else x.nextWith fun th =>
          ({ th with reader := some (if bitOf x.imm 6 then r else r') }.setS (x.f 36 5) (bitsValue r.msb bs)).setC (x.f 41 3) true
/-- BGET. -/
def execBget (c : PCell) (t : Tid) (w : Word128) (s : State) := run (onWord 6 1 w (bgetTr c t w)) s

/-- What decoding one symbol gives (R516): the symbol, whether it stops, and the reader; none at an invalid code or where
too few bits remain; or a table entry beyond the scratchpad. -/
inductive Huff where
  | sym (v : Nat) (stop : Bool) (r : Reader)
  | none_
  | outside

/-- One symbol by the table at `tab` (R516). Bits beyond the end or a marker count as 0 in the index, and a code longer than
what remains is not decoded. -/
def Reader.huff (sp : Nat → Byte) (tab : Nat) (r : Reader) : Huff :=
  let entry := fun (i : Nat) => leNat [sp (tab + 4 * i), sp (tab + 4 * i + 1), sp (tab + 4 * i + 2), sp (tab + 4 * i + 3)]
  let (bs, _) := r.take sp 16
  let idx := fun (lo n : Nat) => bitsValue r.msb ((List.range n).map fun i => bs.getD (lo + i) false)
  let done := fun (e : Nat) =>
    let len := bitsOf e 16 5
    if len = 0 || 16 < len || bs.length < len then Huff.none_
    else .sym (e % 65536) (e.testBit 22) (r.take sp len).2
  let e := entry (idx 0 10)
  if !e.testBit 21 then done e
  else
    let x := bitsOf e 16 5
    let i := e % 65536 + idx 10 x
    if x = 0 || 6 < x then .none_
    else if spadSize < tab + 4 * i + 4 then .outside
    else done (entry i)

/-- Up to `n` symbols: those decoded, the reader, whether it stopped early, and whether a table entry lay outside. -/
def Reader.huffs (sp : Nat → Byte) (tab : Nat) : Nat → Reader → List Nat × Reader × Bool × Bool
  | 0, r => ([], r, false, false)
  | n + 1, r => match r.huff sp tab with
    | .none_ => ([], r, true, false)
    | .outside => ([], r, true, true)
    | .sym v stop r' =>
      if stop then ([v], r', n ≠ 0, false)
      else let (vs, r'', early, out) := Reader.huffs sp tab n r'; (v :: vs, r'', early, out)

/-- BHUFF (R515, R516). -/
def bhuffTr (c : PCell) (t : Tid) (w : Word128) : Tr :=
  issue c t w (bMask true true false true true true false) fun x =>
    let n := x.s 31 % 2 ^ 24
    let tab := x.s 16
    let dst := x.s 36
    x.inSpad [(tab, 4096), (dst, 2 * n)] <| x.withReader fun r => .read fun d =>
      let (vs, r', early, out) := r.huffs (d.cellAt x.pk).spad.get tab n
      if out then x.spadTrap
      else x.unpoisoned (fun cs => cs.spadPoison tab 4096 || cs.spadPoison r.addr (readerSpan r r')) <| .seq [
        .when (!vs.isEmpty) (.writeSpad x.pk dst (vs.flatMap (leBytes 2))),
        x.nextWith fun th => ({ th with reader := some r' }.setS (x.f 21 5) vs.length).setC (x.f 41 3) (!early)]
/-- BHUFF. -/
def execBhuff (c : PCell) (t : Tid) (w : Word128) (s : State) := run (onWord 6 2 w (bhuffTr c t w)) s

/-- Lists of `n` bits each. -/
def bitGroups (n : Nat) : Nat → List Bool → List (List Bool)
  | 0, _ => []
  | k + 1, bs => bs.take n :: bitGroups n k (bs.drop n)

/-- BUNPK (R515): where fewer bits remain than all its codes take, it writes nothing and the reader does not move. -/
def bunpkTr (c : PCell) (t : Tid) (w : Word128) : Tr :=
  issue c t w (bMask false false false true true true false ||| mIMM 5) fun x =>
    let n := x.s 31 % 2 ^ 24
    let b := bitsOf x.imm 0 5
    let dst := x.s 36
    if b = 0 || 16 < b then x.illegal
    else x.inSpad [(dst, 2 * n)] <| x.withReader fun r => .read fun d =>
      let (bs, r') := r.take (d.cellAt x.pk).spad.get (n * b)
      x.unpoisoned (fun cs => cs.spadPoison r.addr (readerSpan r r')) <|
        if bs.length < n * b then x.nextWith fun th => { th with reader := some r }.setC (x.f 41 3) false
        else .seq [
          .when (n ≠ 0) (.writeSpad x.pk dst ((bitGroups b n bs).flatMap fun g => leBytes 2 (bitsValue r.msb g))),
          x.nextWith fun th => { th with reader := some r' }.setC (x.f 41 3) true]
/-- BUNPK. -/
def execBunpk (c : PCell) (t : Tid) (w : Word128) (s : State) := run (onWord 6 3 w (bunpkTr c t w)) s

end Sys2Proof.Machine
end

