-- ==== Sys2Proof/Machine/Ingest.lean ====
section
/-! DEFINITION. Sample ingest: jobs, samples, batches, budgets and environment streams (R510 to R537). Decoding itself is the
work of decoder threads; what the engine does is here. -/

namespace Sys2Proof.Machine

/-- A change of ingest. -/
def Tr.ingSt (f : IngSt → IngSt) : Tr := .units fun u => { u with ing := f u.ing }
/-- Slot `n` of a die. -/
def Dev.ingSlot (d : Dev) (die n : Nat) : IngSlot := agetD d.u.ing.slots (16 * die + n) {}
/-- A change of a slot. -/
def Tr.onSlot (die n : Nat) (f : IngSlot → IngSlot) : Tr := .ingSt fun g => { g with slots := aupd g.slots (16 * die + n) {} f }
/-- A change of a sample. -/
def Tr.onSample (die n num : Nat) (f : Sample → Sample) : Tr :=
  .onSlot die n fun s => { s with samples := s.samples.map fun x => if x.num = num then f x else x }
/-- A change of a slot's oldest job. -/
def Tr.onJob (die n : Nat) (f : Job → Job) : Tr :=
  .onSlot die n fun s => { s with jobs := match s.jobs with | j :: js => f j :: js | [] => [] }
/-- A sample of a slot. -/
def Dev.sample? (d : Dev) (die n num : Nat) : Option Sample := (d.ingSlot die n).samples.find? (·.num = num)

/-- ING_SLOT_n. -/
def Tr.ingReg (die n : Nat) : Tr :=
  .read fun d =>
    let s := d.ingSlot die n
    let carried := (s.samples.filter fun x => x.place.isNone).length
    let dec := (s.samples.filter fun x => x.st = 2).length
    .reg ING_SLOT die (w64 (s.jobs.length % 8 + b01 s.env.isSome * 8 + carried % 2 ^ 13 * 2 ^ 16 + dec % 2 ^ 32 * 2 ^ 32)) n

/-- KIND, POSITIONS and SAMPLE of a descriptor. -/
def Sample.kind (s : Sample) : Nat := leAt s.desc 12 1
/-- POSITIONS. -/
def Sample.positions (s : Sample) : Nat := leAt s.desc 16 4
/-- The caller's tag. -/
def Sample.tag (s : Sample) : Nat := leAt s.desc 20 4

/-- A sample-table entry (R529). -/
def tableEntry (s : Sample) (st row start reason : Nat) : List Byte :=
  leBytes 4 s.tag ++ leBytes 2 st ++ leBytes 2 row ++ leBytes 2 start ++ leBytes 1 reason ++ leBytes 1 s.kind ++
    leBytes 4 s.positions

/-- A sample ends with a status other than OK (R521 to R523, R529, R533). -/
def Tr.sampleEnd (die n : Nat) (s : Sample) (st reason : Nat) : Tr :=
  .seq [
    .onSlot die n fun x => { x with samples := x.samples.filter (·.num ≠ s.num) },
    .onJob die n fun j => { j with table := j.table ++ [tableEntry s st 0xFFFF 0 reason], ended := j.ended + 1 },
    .when (st = stDIM_LIMIT) (.bump ING_DIM_LIMITS die),
    .when (st = stDECODE_CORRUPT) (.bump ING_CORRUPT die),
    .when (st = stDECODE_TIMEOUT) (.seq [.bump ING_TIMEOUTS die, .ingSt fun g => { g with withdrawn := s.num :: g.withdrawn }]),
    .ingReg die n]

/-! ## Placement (R525) -/

/-- Where a sample of some positions goes in a job: row, first position, segment id. -/
def Job.room (j : Job) (positions : Nat) : Option (Nat × Nat × Nat) :=
  let used := fun (r : Nat) => agetD j.used r (0, 0)
  (List.range j.rows).findSome? fun r =>
    let (u, s) := used r
    if j.packed then (if u + positions ≤ j.l then some (r, u, s) else none)
    else if s = 0 && positions ≤ j.l then some (r, 0, 0) else none

/-- A job with a sample placed. -/
def Job.take (j : Job) (r start seg positions : Nat) : Job := { j with used := tinsert j.used r (start + positions, seg + 1) }

/-- Samples in order of their numbers. -/
def insertSample (s : Sample) : List Sample → List Sample
  | [] => [s]
  | x :: xs => if s.num < x.num then s :: x :: xs else x :: insertSample s xs

/-- Whether a descriptor holds no reserved value (R517). -/
def descGood (b : List Byte) : Bool :=
  1 ≤ leAt b 8 4 && leAt b 12 1 < 5 && leAt b 13 1 < 2 && leAt b 14 2 = 0 && 1 ≤ leAt b 16 4 && leAt b 16 4 ≤ 65536 && leAt b 24 8 = 0

/-- One sample is placed in the slot's oldest job, carried, or ended by a limit it cannot meet (R521, R525). -/
def Tr.placeOne (die n num : Nat) : Tr :=
  .read fun d =>
    match d.sample? die n num, (d.ingSlot die n).jobs.head? with
    | some s, some j =>
      if s.joint.isNone && !descGood s.desc then .sampleEnd die n s stDECODE_CORRUPT 2
      else if s.st ≠ 0 && j.pbytes < s.pbytes then .sampleEnd die n s stDIM_LIMIT 0
      else match j.room s.positions with
        | none => .skip
        | some (r, a, g) => .seq [
            .onJob die n fun j => j.take r a g s.positions,
            .onSample die n num fun x => { x with place := some (r, a, g) }]
    | _, _ => .skip

/-- The placement of a slot's oldest job: carried samples first, no more than CARRY_MAX, then its own (R525). -/
def Tr.placeJob (die n : Nat) : Tr :=
  .read fun d =>
    match (d.ingSlot die n).jobs.head? with
    | none => .ingReg die n
    | some j =>
      let old := (d.ingSlot die n).samples.foldr insertSample []
      let base := d.u.ing.nextNum
      let new := j.descs.zipIdx.map fun (b, i) => ({ num := base + i, desc := b, q := j.q, absUs := j.absUs } : Sample)
      .seq [
        .ingSt fun g => { g with nextNum := g.nextNum + new.length },
        .onJob die n fun j => { j with descs := [] },
        .onSlot die n fun s => { s with samples := s.samples.map (fun x => { x with place := none }) ++ new },
        .each ((old.take (d.fld ING_CTL ING_CTL_CARRY_MAX die)).map (·.num) ++ new.map (·.num)) fun num => .placeOne die n num,
        .ingReg die n]

/-! ## ING_DECODE (R513, R524, R526, R528) -/

/-- Offsets of the regions of a batch (R526): IDS, POS, MASK, DATA, TABLE. -/
def Job.idsAt (j : Job) : Nat := j.out + 64
/-- Bytes of IDS or POS with their padding. -/
def Job.idsLen (j : Job) : Nat := cdiv (2 * (j.rows * j.l)) 64 * 64
/-- POS. -/
def Job.posAt (j : Job) : Nat := j.idsAt + j.idsLen
/-- MASK. -/
def Job.maskAt (j : Job) : Nat := j.posAt + j.idsLen
/-- DATA. -/
def Job.dataAt (j : Job) : Nat := j.maskAt + cdiv (cdiv (j.rows * j.l) 8) 64 * 64
/-- TABLE. -/
def Job.tableAt (j : Job) : Nat := j.dataAt + j.rows * j.l * j.pbytes

/-- A translation asked for by ingest on behalf of a queue (R451). -/
def Dev.ingReq (d : Dev) (q a b : Nat) : XReq :=
  { die := qDie q, slot := d.fld CMD_QCFG CMD_QCFG_ASLOT (qDie q) (qIdx q), va := 0, access := 0, source := 4, queue := q,
    agent := agDma, who := .other (2 ^ 32 + a) b }

/-- ING_DECODE: the descriptors are read, the batch is cleared, and the job joins its slot. -/
def ingDecodeTr (src : CmdSrc) (n : BitVec 32) : Tr :=
  .withCmd src n 0x40 fun c => .read fun d =>
    let die := qDie c.q
    let slot := c.at 9 1
    let l := c.at 32 4
    let pb := c.at 36 4
    let rows := c.at 40 2
    let ns := c.at 10 2
    let j : Job := { id := d.u.ing.nextJob, src := src, n := c.n, q := c.q, packed := c.at 8 1 = 1, l := l, pbytes := pb,
                     rows := rows, out := c.at 24 8, need := c.at 48 8, absUs := c.at 56 4, descs := [] }
    let bad := !restZero c.pkt [(8, 4), (16, 26), (48, 12)] || 1 < c.at 8 1 || 15 < slot || c.at 16 8 % 64 ≠ 0 ||
      c.at 24 8 % 4096 ≠ 0 || l = 0 || 65536 < l || pb = 0 || 65536 < pb || rows = 0 || j.need ≤ d.beatIdx || l * pb % 64 ≠ 0 ||
      4 ≤ (d.ingSlot die slot).jobs.length
    if !d.dieFeature die 117 then .complete c stCAPABILITY_ABSENT 0
    else if bad then .complete c stMALFORMED 0
    else
      let x := d.cmdReq c 0 4
      .readVirt x (c.at 16 8) (32 * ns) fun r => match r with
        | .wait => .skip
        | .bad st => .complete c st 0
        | .ok bs _ =>
          let descs := (List.range ns).map fun i => (bs.drop (32 * i)).take 32
          let n2 := rows * l
          let clear : List (Nat × List Byte) :=
            [(j.out, leBytes 8 0), (j.idsAt, List.replicate (2 * n2) 0xFF), (j.posAt, List.replicate (2 * n2) 0),
             (j.maskAt, List.replicate (cdiv n2 8) 0)]
          let fin := Tr.seq [
            .ingSt fun g => { g with nextJob := g.nextJob + 1 },
            .onCmd c.seqNo fun y => { y with stage := 1 },
            .onSlot die slot fun s => { s with jobs := s.jobs ++ [{ j with descs := descs }] },
            if (d.ingSlot die slot).jobs.isEmpty then .placeJob die slot else .ingReg die slot]
          clear.foldr (fun (a, b) k => .writeVirt x a b fun st => match st with
            | none => .skip
            | some st => if st = stOK then k else .complete c st 0) fin
/-- ING_DECODE. -/
def execIngDecode (src : CmdSrc) (n : BitVec 32) (s : State) := run (ingDecodeTr src n) s

/-! ## Checks and staging (R518 to R522) -/

/-- What the engine learns of a sample from its header: width, height, channels, elements, decoded bytes, and bytes of a
position; or the reason it is corrupt. -/
inductive Figures where
  | ok (w h c elems bytes pbytes : Nat)
  | corrupt (reason : Nat)

/-- The figures of a raw tensor header of 64 bytes (R518). -/
def rawFigures (h : List Byte) : Figures :=
  let fmt := leAt h 3 1
  let nd := leAt h 4 1
  let dims := (List.range 4).map fun i => leAt h (8 + 4 * i) 4
  let used := dims.take nd
  if h.length < 64 then .corrupt 1
  else if leAt h 0 2 ≠ 0x5452 || leAt h 2 1 ≠ 1 || !([0, 1, 2, 3, 4, 0xB, 0xC, 0xD].contains fmt) || nd = 0 || 4 < nd ||
      1 < leAt h 5 1 || leAt h 6 2 ≠ 0 || used.any (· = 0) || (dims.drop nd).any (· ≠ 0) || !(h.drop 28).all (· = 0) ||
      used.getLastD 1 * fmtBits fmt % 8 ≠ 0 then .corrupt 2
  else
    let c := used.getLastD 1
    let w := if nd < 2 then 1 else used.getD (nd - 2) 1
    let hh := (used.take (nd - 2)).foldl (· * ·) 1
    .ok w hh c (w * hh * c) (w * hh * c * fmtBits fmt / 8) (c * fmtBits fmt / 8)

/-- Big-endian 16 bits. -/
def be16 (b : List Byte) (o : Nat) : Nat := leAt b o 1 * 256 + leAt b (o + 1) 1

/-- The segments of a JPEG stream from byte `o` on, up to SOF0 (R519). -/
def jpegFigures (b : List Byte) : Nat → Nat → Figures
  | 0, _ => .corrupt 1
  | fuel + 1, o =>
    if b.length < o + 4 then .corrupt 1
    else if leAt b o 1 ≠ 0xFF then .corrupt 2
    else
      let m := leAt b (o + 1) 1
      if m = 0xFF then jpegFigures b fuel (o + 1)
      else if m = 0xC0 then
        if b.length < o + 10 then .corrupt 1
        else
          let h := be16 b (o + 5)
          let w := be16 b (o + 7)
          let c := leAt b (o + 9) 1
          if leAt b (o + 4) 1 ≠ 8 || h = 0 || (c ≠ 1 && c ≠ 3) then .corrupt 5
          else if w = 0 then .corrupt 2
          else .ok w h c (w * h * c) (w * h * c) c
      else if (0xC1 ≤ m && m ≤ 0xCF && m ≠ 0xC4 && m ≠ 0xC8 && m ≠ 0xCC) then .corrupt 5
      else if m = 0xD9 || m = 0xDA || m = 0xD8 then .corrupt 2
      else if (0xD0 ≤ m && m ≤ 0xD7) || m = 1 then jpegFigures b fuel (o + 2)
      else if be16 b (o + 2) < 2 then .corrupt 2
      else jpegFigures b fuel (o + 2 + be16 b (o + 2))

/-- The figures of a sample from its encoded bytes; `head` holds the first 64 decompressed bytes of a DEFLATE-family sample,
which its decoder holds (R521). -/
def Sample.figures (s : Sample) (enc head : List Byte) : Figures :=
  match s.kind with
  | 0 => match rawFigures (enc.take 64) with
    | .ok w h c e b p => if leAt s.desc 8 4 = 64 + b then .ok w h c e b p else .corrupt 4
    | f => f
  | 1 => if leAt enc 0 1 = 0xFF && leAt enc 1 1 = 0xD8 then jpegFigures enc enc.length 2 else .corrupt 2
  | _ => rawFigures (head.take 64)

/-- The lowest free place for `size` bytes in an arena (R511, R522). -/
def arenaPlace (base total size : Nat) (taken : List (Nat × Nat)) : Option Nat :=
  let free := fun (a : Nat) => a + size ≤ base + total && taken.all fun t => a + size ≤ t.1 || t.1 + t.2 ≤ a
  ((base :: taken.map fun t => t.1 + t.2).filter free).foldl (fun best a => match best with
    | none => some a
    | some b => some (min a b)) none

/-- STAGING_ALLOCATED (R521 to R523): the engine checks a placed sample and allocates its staging. -/
def stagingAllocatedTr (die : TDie) (slot : Fin 16) (sample : Nat) (head : List Byte) : Tr :=
  .read fun d =>
    let dn := die.val
    let sl := d.ingSlot dn slot.val
    match d.sample? dn slot.val sample, sl.jobs.head? with
    | some s, some j =>
      if s.st ≠ 0 || s.place.isNone then .skip
      else
        let fin := fun st reason => Tr.sampleEnd dn slot.val s st reason
        .readVirt (d.ingReq s.q s.num 0) (leAt s.desc 0 8) (leAt s.desc 8 4) fun r => match r with
        | .wait => .skip
        | .bad st => fin st 0
        | .ok enc _ =>
          let maxBytes := d.fld ING_LIMIT_BYTES ING_LIMIT_BYTES_MAX dn
          if s.kind = 4 && maxBytes < leAt enc (enc.length - 4) 4 then fin stDIM_LIMIT 0
          else match s.figures enc head with
          | .corrupt reason => fin stDECODE_CORRUPT reason
          | .ok w h c e b p =>
            let arena := (d.reg ING_STAGE_SIZE dn slot.val).toNat
            let size := cdiv b 64 * 64
            if d.fld ING_LIMIT_DIM ING_LIMIT_DIM_MAX_WIDTH dn < w || d.fld ING_LIMIT_DIM ING_LIMIT_DIM_MAX_HEIGHT dn < h ||
                d.fld ING_LIMIT_DIM ING_LIMIT_DIM_MAX_CHANNELS dn < c || d.fld ING_LIMIT_ELEM ING_LIMIT_ELEM_MAX dn < e ||
                maxBytes < b || j.l < s.positions || j.pbytes < p || arena < size then fin stDIM_LIMIT 0
            else match arenaPlace (d.reg ING_STAGE_BASE dn slot.val).toNat arena size
                ((sl.samples.filter fun x => x.size ≠ 0).map fun x => (x.stage, x.size)) with
              | none => .skip
              | some a => .onSample dn slot.val sample fun x => { x with st := 1, stage := a, size := size, pbytes := p }
    | _, _ => .skip
/-- STAGING_ALLOCATED. -/
def execStagingAllocated (die : TDie) (slot : Fin 16) (sample : Nat) (head : List Byte) (s : State) :=
  run (stagingAllocatedTr die slot sample head) s

/-! ## BTAKE and BPUT (R512, R515, R532, R533) -/

/-- The sample BTAKE takes (R515): the oldest untaken one of the oldest job among the slots of a mask. -/
def Dev.btakePick (d : Dev) (die mask : Nat) : Option (Nat × Sample) :=
  let cands := (setBits 16 mask).filterMap fun n =>
    let s := d.ingSlot die n
    match s.jobs.head?, s.samples.find? (·.st = 1) with
    | some j, some x => some (j.id, n, x)
    | _, _ => none
  (cands.foldl (fun best (c : Nat × Nat × Sample) => match best with
    | none => some c
    | some b => if c.1 < b.1 then some c else some b) none).map (·.2)

/-- BTAKE. -/
def btakeTr (c : PCell) (t : Tid) (w : Word128) : Tr :=
  issue c t w (bMask true false false false true true false) fun x => .read fun d =>
    if x.role ≠ 4 || !d.dieFeature x.die 117 then x.illegal
    else if !d.slotFree x.pk then x.hold .waitMem
    else x.inSpad [(x.s 36, 64)] <|
      match d.btakePick x.die (x.s 16 % 65536) with
      | none => x.nextWith fun th => th.setC (x.f 41 3) false
      | some (n, s) => .seq [
          .writeSpad x.pk (x.s 36) (s.desc ++ leBytes 8 s.stage ++ leBytes 8 s.num ++ leBytes 1 n ++ List.replicate 15 0),
          .onSample x.die n s.num fun y => { y with st := 2, holder := some (x.pk, x.t), start := some (y.start.getD d.elapsed) },
          .when s.start.isSome (.bump ING_RESTARTS x.die),
          .ingReg x.die n,
          x.nextWith fun th => th.setC (x.f 41 3) true]
/-- BTAKE. -/
def execBtake (c : PCell) (t : Tid) (w : Word128) (s : State) := run (onWord 6 4 w (btakeTr c t w)) s

/-- M and its count after a sample decoded in `t` ns (R532). -/
def Tr.decodeMean (die n t : Nat) : Tr :=
  .read fun d =>
    let m : Int := d.fld ING_MEAN ING_MEAN_MEAN die n
    let k := d.fld ING_MEAN ING_MEAN_COUNT die n
    let m' : Int := if k = 0 then t else m + ((t : Int) - m) / 16
    .reg ING_MEAN die (w64 (m'.toNat % 2 ^ 40 + min (k + 1) 65535 * 2 ^ 48)) n

/-- The slot of a die that holds a sample. -/
def Dev.slotOf (d : Dev) (die num : Nat) : Option (Nat × Sample) :=
  (List.range 16).findSome? fun n => (d.sample? die n num).map fun s => (n, s)

/-- BPUT. -/
def bputTr (c : PCell) (t : Tid) (w : Word128) : Tr :=
  issue c t w (bMask true true false false false true false ||| mIMM 1) fun x => .read fun d =>
    let num := x.s 16
    let st := x.s 21 % 65536
    if x.role ≠ 4 || !d.dieFeature x.die 117 then x.illegal
    else if !d.slotFree x.pk then x.hold .waitMem
    else
      let go := fun (b : Bool) => x.nextWith fun th => th.setC (x.f 41 3) b
      if d.u.ing.withdrawn.contains num then go false
      else if bitOf x.imm 0 then go true
      else match d.slotOf x.die num with
        | none => go true
        | some (n, s) =>
          if s.st ≠ 2 then go true
          else if st = stOK then .seq [
            .decodeMean x.die n ((d.elapsed - s.start.getD d.elapsed) / oneNs),
            .onSample x.die n num fun y => { y with st := 3, holder := none }, .ingReg x.die n, go true]
          else .seq [.sampleEnd x.die n s st (bitsOf (x.s 21) 16 8), go true]
/-- BPUT. -/
def execBput (c : PCell) (t : Tid) (w : Word128) (s : State) := run (onWord 6 5 w (bputTr c t w)) s

/-- SAMPLE_WITHDRAW (R533): the decode time exceeds ABS_US, or 32 M once 16 samples have set M. -/
def sampleWithdrawTr (die : TDie) (slot : Fin 16) (sample : Nat) : Tr :=
  .read fun d => .opt (d.sample? die.val slot.val sample) fun s => .opt s.start fun t0 =>
    let t := d.elapsed - t0
    let byAbs := s.absUs ≠ 0 && s.absUs * oneUs < t
    let byMean := 16 ≤ d.fld ING_MEAN ING_MEAN_COUNT die.val slot.val &&
      32 * d.fld ING_MEAN ING_MEAN_MEAN die.val slot.val * oneNs < t
    .when (s.st < 3 && (byAbs || byMean)) (.sampleEnd die.val slot.val s stDECODE_TIMEOUT 0)
/-- SAMPLE_WITHDRAW. -/
def execSampleWithdraw (die : TDie) (slot : Fin 16) (sample : Nat) (s : State) := run (sampleWithdrawTr die slot sample) s

/-! ## Copying and closing (R526 to R530) -/

/-- The bytes of a sample's positions in a batch: each position's bytes, then zeros up to PBYTES (R526, R537). -/
def Sample.content (s : Sample) (j : Job) (staged : List Byte) : List Byte :=
  let pad := fun (b : List Byte) => b ++ List.replicate (j.pbytes - b.length) 0
  match s.joint with
  | some ps => ps.flatMap fun p => pad (p.getD [])
  | none => (List.range s.positions).flatMap fun i => pad ((staged.drop (i * s.pbytes)).take s.pbytes)

/-- Whether position `i` of a sample is active. -/
def Sample.active (s : Sample) (i : Nat) : Bool := match s.joint with | some ps => (ps.getD i none).isSome | none => true

/-- SAMPLE_COPY_DONE (R528): DATA, then IDS and POS, then the MASK bits; the sample is included. -/
def sampleCopyDoneTr (die : TDie) (slot : Fin 16) (sample : Nat) : Tr :=
  .read fun d =>
    let dn := die.val
    match d.sample? dn slot.val sample, (d.ingSlot dn slot.val).jobs.head? with
    | some s, some j =>
      match s.st, s.place with
      | 3, some (row, start, seg) =>
        let fin := fun st => Tr.sampleEnd dn slot.val s st 0
        let x := d.ingReq j.q s.num 1
        let i := row * j.l + start
        let n := s.positions
        let write := fun (a : Nat) (bs : List Byte) (k : Tr) => Tr.writeVirt x a bs fun st => match st with
          | none => .skip
          | some st => if st = stOK then k else fin st
        let go := fun (staged : List Byte) =>
          write (j.dataAt + i * j.pbytes) (s.content j staged) <|
          write (j.idsAt + 2 * i) ((List.range n).flatMap fun _ => leBytes 2 seg) <|
          write (j.posAt + 2 * i) ((List.range n).flatMap fun p => leBytes 2 p) <|
          let lo := i / 8
          let len := (i + n - 1) / 8 - lo + 1
          .readVirt x (j.maskAt + lo) len fun r => match r with
            | .wait => .skip
            | .bad st => fin st
            | .ok old _ =>
              let bits := (List.range n).foldl (fun v p => if s.active p then v ||| 2 ^ (i % 8 + p) else v) (leNat old)
              write (j.maskAt + lo) (leBytes len bits) <| .seq [
                .onSlot dn slot.val fun y => { y with samples := y.samples.filter (·.num ≠ sample) },
                .onJob dn slot.val fun j => { j with
                  table := j.table ++ [tableEntry s stOK row start 0], included := j.included + 1 },
                .bump ING_SAMPLES dn, .ingReg dn slot.val]
        if s.joint.isSome then go []
        else .readGa x false s.stage (n * s.pbytes) fun r => match r with
          | .ok bs _ => go bs
          | .bad st => fin st
          | .wait => .skip
      | _, _ => .skip
    | _, _ => .skip
/-- SAMPLE_COPY_DONE. -/
def execSampleCopyDone (die : TDie) (slot : Fin 16) (sample : Nat) (s : State) := run (sampleCopyDoneTr die slot sample) s

/-- The batch header without READY (R527). -/
def Job.header (j : Job) : List Byte :=
  leBytes 2 j.rows ++ leBytes 1 (b01 j.packed) ++ List.replicate 5 0 ++ leBytes 4 j.l ++ leBytes 4 j.pbytes ++
    leBytes 4 j.table.length ++ leBytes 4 j.included ++ leBytes 4 j.carried ++ leBytes 4 j.ended ++ List.replicate 24 0

/-- A closed job writes its table and its header, READY last, and its record (R529, R530). -/
def Tr.jobFinish (die n : Nat) (j : Job) : Tr :=
  .read fun d =>
    let x := d.ingReq j.q j.id 2
    let fin := fun (st : Nat) => Tr.seq [
      .onSlot die n fun s => { s with closing := s.closing.filter (·.id ≠ j.id) },
      .read fun d => .opt (d.u.cmd.cmds.find? fun c => c.src = j.src && c.n = j.n && c.op = 0x40 && c.stage = 1) fun c =>
        .complete c st (if st = stOK then j.included % 2 ^ 32 + j.carried % 2 ^ 16 * 2 ^ 32 + j.ended % 2 ^ 16 * 2 ^ 48 else 0)]
    let write := fun (a : Nat) (bs : List Byte) (k : Tr) => Tr.writeVirt x a bs fun st => match st with
      | none => .skip
      | some st => if st = stOK then k else fin st
    write j.tableAt j.table.flatten <| write (j.out + 8) j.header <| write j.out (leBytes 8 j.need) <| fin stOK

/-- The oldest job of a slot closes, when B has reached its NEED: late samples are carried, and the next job is placed
(R525, R530). -/
def Tr.jobClose (die n b : Nat) : Nat → Tr
  | 0 => .skip
  | fuel + 1 => .read fun d =>
    match (d.ingSlot die n).jobs with
    | [] => .skip
    | j :: js =>
      if b < j.need then .skip
      else
        let ss := (d.ingSlot die n).samples
        let late := (ss.filter fun s => s.place.isSome).length
        let j := { j with carried := ss.length }
        .seq [
          .bump ING_LATE die late,
          .onSlot die n fun s =>
            let rest := s.samples.map fun x => { x with place := none }
            { s with jobs := js, closing := s.closing ++ [j], samples := rest },
          .placeJob die n,
          .jobClose die n b fuel]

/-- The closes of a beat's beginning, and the writes of closed jobs (R530). -/
def Tr.ingestEdge (b : Nat) : Tr :=
  .read fun d => .each (d.u.ing.slots.map (·.1)) fun k => .seq [
    .jobClose (k / 16) (k % 16) b 5,
    .read fun d => .each (d.ingSlot (k / 16) (k % 16)).closing fun j => .jobFinish (k / 16) (k % 16) j]

/-! ## Environment streams (R534 to R537) -/

/-- Whether a stream-table entry is in range (R535). -/
def streamGood (e : List Byte) : Bool :=
  let rb := leAt e 8 4
  leAt e 0 8 % 64 = 0 && 64 ≤ rb && rb ≤ 65536 && rb % 64 = 0 && 1 ≤ leAt e 12 1 && leAt e 12 1 ≤ 20 && leAt e 13 3 = 0

/-- ING_ENV_CFG START (R535). -/
def ingEnvStartTr (src : CmdSrc) (n : BitVec 32) : Tr :=
  .withCmd src n 0x41 fun c => .read fun d =>
    let die := qDie c.q
    let slot := c.at 9 1
    let ns := c.at 10 1
    if c.at 8 1 = 1 then .skip
    else if !d.dieFeature die 117 then .complete c stCAPABILITY_ABSENT 0
    else if !restZero c.pkt [(8, 3), (12, 2), (16, 32)] || 1 < c.at 8 1 || 15 < slot || ns = 0 || 16 < ns ||
        2 ^ ns ≤ c.at 12 2 || c.at 24 8 < 1000 || (d.ingSlot die slot).env.isSome then .complete c stMALFORMED 0
    else .readVirt (d.cmdReq c 0 4) (c.at 40 8) (16 * ns) fun r => match r with
      | .wait => .skip
      | .bad st => .complete c st 0
      | .ok bs _ =>
        let es := (List.range ns).map fun i => (bs.drop (16 * i)).take 16
        if !es.all streamGood then .complete c stMALFORMED 0
        else
          let env : EnvSet := { q := c.q, required := c.at 12 2, t0 := c.at 16 8, period := c.at 24 8, window := c.at 32 4,
                                grace := c.at 36 4,
                                streams := es.map fun e => { base := leAt e 0 8, recBytes := leAt e 8 4, log2 := leAt e 12 1 } }
          .seq [.onSlot die slot fun s => { s with env := some env }, .ingReg die slot, .complete c stOK 0]
/-- ING_ENV_START. -/
def execIngEnvStart (src : CmdSrc) (n : BitVec 32) (s : State) := run (ingEnvStartTr src n) s

/-- ING_ENV_CFG STOP (R535). -/
def ingEnvStopTr (src : CmdSrc) (n : BitVec 32) : Tr :=
  .withCmd src n 0x41 fun c => .read fun d =>
    let die := qDie c.q
    let slot := c.at 9 1
    if c.at 8 1 ≠ 1 then .skip
    else if !d.dieFeature die 117 then .complete c stCAPABILITY_ABSENT 0
    else if !restZero c.pkt [(8, 3), (12, 2), (16, 32)] || 15 < slot || (d.ingSlot die slot).env.isNone then .complete c stMALFORMED 0
    else .seq [.onSlot die slot fun s => { s with env := none }, .ingReg die slot, .complete c stOK 0]
/-- ING_ENV_STOP. -/
def execIngEnvStop (src : CmdSrc) (n : BitVec 32) (s : State) := run (ingEnvStopTr src n) s

/-- The record a tick selects among candidates in ascending order (R536): largest TIME in the window, the later on a tie;
and how many were overwritten. -/
def Tr.selectRecord (x : XReq) (s : Stream) (lo hi : Nat) : Nat → Nat → Option (Nat × List Byte) → Nat →
    (Option (Option (List Byte)) → Nat → Tr) → Tr
  | 0, _, best, lapped, k => k (some (best.map (·.2))) lapped
  | left + 1, n, best, lapped, k =>
    .readVirt x (s.base + 64 + n % 2 ^ s.log2 * s.recBytes) s.recBytes fun r => match r with
      | .wait => k none lapped
      | .bad _ => .selectRecord x s lo hi left (n + 1) best lapped k
      | .ok bs _ =>
        let t := leAt bs 0 8
        if leAt bs 8 8 ≠ n then .selectRecord x s lo hi left (n + 1) best (lapped + 1) k
        else if lo ≤ t && t ≤ hi && (match best with | some (b, _) => b ≤ t | none => true) then
          .selectRecord x s lo hi left (n + 1) (some (t, bs.drop 16)) lapped k
        else .selectRecord x s lo hi left (n + 1) best lapped k

/-- The streams of a tick in order: the payload each selects, none for an absent one; `none` while one waits on a fault. -/
def Tr.selectAll (x : XReq) (lo hi : Nat) : List Stream → List (Option (List Byte)) → Nat →
    (Option (List (Option (List Byte))) → Nat → Tr) → Tr
  | [], acc, lapped, k => k (some acc.reverse) lapped
  | s :: ss, acc, lapped, k => .readVirt x s.base 8 fun r => match r with
    | .wait => k none lapped
    | .bad _ => .selectAll x lo hi ss (none :: acc) lapped k
    | .ok h _ =>
      let head := leNat h
      let n := min head (2 ^ s.log2)
      .selectRecord x s lo hi n (head - n) none lapped fun p lapped => match p with
        | none => k none lapped
        | some p => .selectAll x lo hi ss (p :: acc) lapped k

/-- ENV_TICK (R536, R537): the next tick of a set, once device time has reached it and its GRACE. -/
def envTickTr (die : TDie) (slot : Fin 16) : Tr :=
  .read fun d =>
    let dn := die.val
    let sl := d.ingSlot dn slot.val
    .opt sl.env fun e =>
      let t := e.t0 + e.k * e.period
      if d.nowNs < t + e.grace then .skip
      else .selectAll (d.ingReq e.q (slot.val + 2 ^ 31) e.k) (t - e.window) t e.streams [] 0 fun ps lapped =>
        .opt ps fun ps => .seq [
          .bump ING_ENV_LAPPED dn lapped,
          .onSlot dn slot.val fun s => { s with env := s.env.map fun e => { e with k := e.k + 1 } },
          if ps.zipIdx.any fun (p, i) => p.isNone && e.required.testBit i then .bump ING_ENV_MISSED dn
          else .read fun d =>
            let desc := leBytes 8 0 ++ leBytes 4 0 ++ leBytes 1 5 ++ leBytes 3 0 ++ leBytes 4 ps.length ++
              leBytes 4 (e.k % 2 ^ 32) ++ leBytes 8 0
            let s : Sample := { num := d.u.ing.nextNum, desc := desc, q := e.q, absUs := 0, st := 3, joint := some ps,
                                pbytes := ps.foldl (fun m p => max m (p.getD []).length) 0 }
            .seq [
              .bump ING_ENV_TICKS dn,
              .ingSt fun g => { g with nextNum := g.nextNum + 1 },
              .onSlot dn slot.val fun x => { x with samples := x.samples ++ [s] },
              .placeOne dn slot.val s.num, .ingReg dn slot.val]]
/-- ENV_TICK. -/
def execEnvTick (die : TDie) (slot : Fin 16) (s : State) := run (envTickTr die slot) s

end Sys2Proof.Machine
end

