-- ==== Sys2Proof/Machine/Beat.lean ====
section
/-! DEFINITION. Beats: plans and work lists, the start of threads, the edge and its actions, running and stopping (R63 to
R79, R94 to R102, R177 to R180, R469 to R471). -/

namespace Sys2Proof.Machine

/-- A change of the beat unit. -/
def Tr.beatSt (f : BeatSt → BeatSt) : Tr := .units fun u => { u with beat := f u.beat }

/-! ## Work lists (R469, R470) -/

/-- An entry of a work list: a THREAD, or a ROLE for `count` cells. -/
inductive WorkItem where
  | thread (e : WorkEntry)
  | role (first count role : Nat)
deriving DecidableEq, Repr

/-- Whether `n` bytes from `lo` on are zero. -/
def bytesZero (bs : List Byte) (lo n : Nat) : Bool := ((bs.drop lo).take n).all (· = 0)

/-- Entry `i` of beat `b`'s work list: none when it makes the beat fail; nothing for an empty entry. -/
def workItem (b i : Nat) (e : List Byte) : Option (List WorkItem) :=
  let n := leNat e
  match leAt e 0 1 with
  | 0 => some []
  | 1 =>
    if bitsOf n 12 4 ≠ 0 || 640 ≤ leAt e 2 2 || bitsOf n 54 2 ≠ 0 || bitsOf n 62 2 ≠ 0 || bitsOf n 67 3 ≠ 0 || !bytesZero e 9 7 ||
        2 ^ 57 ≤ leAt e 16 8 then none
    else some [.thread {
      index := i, beat := b, cell := leAt e 2 2, thread := bitsOf n 8 4, notify := leAt e 4 2, irq := bitOf n 70,
      quiet := bitOf n 71, start := leAt e 16 8, arg := leAt e 24 8, aslot := bitsOf n 48 6, wbase := bitsOf n 56 6,
      wsize := bitsOf n 64 3 }]
  | 2 =>
    if bitsOf n 11 5 ≠ 0 || bitsOf n 8 3 = 7 || 640 ≤ leAt e 2 2 || leAt e 4 2 = 0 || 640 < leAt e 2 2 + leAt e 4 2 ||
        !bytesZero e 6 26 then none
    else some [.role (leAt e 2 2) (leAt e 4 2) (bitsOf n 8 3)]
  | _ => none

/-- The entries of a work list in order. -/
def workItems (b : Nat) : Nat → Nat → List Byte → Option (List WorkItem)
  | 0, _, _ => some []
  | n + 1, i, bs =>
    match workItem b i (bs.take 32), workItems b n (i + 1) (bs.drop 32) with
    | some x, some xs => some (x ++ xs)
    | _, _ => none

/-- What the plan holds for a beat (R72): slack, its work, and whether a newly committed plan takes effect with it. -/
structure BeatPlan where
  beat : Nat
  slack : Bool := false
  items : List WorkItem := []
  fresh : Bool := false
deriving DecidableEq, Repr

/-- The cells for which the work list names a role. -/
def BeatPlan.roleCells (p : BeatPlan) : List Nat :=
  p.items.flatMap fun x => match x with
    | .role first count _ => (List.range count).map (first + ·)
    | .thread _ => []

/-- The THREAD entries of a beat. -/
def BeatPlan.threads (p : BeatPlan) : List WorkEntry :=
  p.items.filterMap fun x => match x with
    | .thread e => some e
    | .role .. => none

/-- The plan that governs beat `b`, and whether it is a pending one (R67, R74); none where the beat runs without work. -/
def Dev.planFor (d : Dev) (b : Nat) : Option (Plan × Bool) :=
  match d.u.beat.firstStart with
  | none => none
  | some f =>
    if b < f then none
    else match d.u.beat.pending with
      | some p => if p.start ≤ b then some (p, true) else d.u.beat.plan.map fun q => (q, false)
      | none => d.u.beat.plan.map fun q => (q, false)

/-- The entry of beat `b` in a plan's array (R73). -/
def Plan.entry (p : Plan) (b : Nat) : Nat := (((b : Int) - p.start) % p.len).toNat

/-- The beat unit reads the descriptor and work list of beat `b`: `k none` when the edge is incomplete (R75, R470). -/
def Tr.readPlan (b : Nat) (k : Option BeatPlan → Tr) : Tr :=
  .read fun d =>
    match d.planFor b with
    | none => k (some { beat := b })
    | some (p, fresh) =>
      .frontLoad HD (p.base + p.entry b * 16) 16 fun st desc =>
        let flags := leAt desc 0 8
        let ptr := leAt desc 8 8
        let plan := fun (items : List WorkItem) => BeatPlan.mk b (bitOf flags 0) items fresh
        if st ≠ stOK || 2 ≤ flags || 2 ^ 56 ≤ ptr then k none
        else if ptr = 0 then k (some (plan []))
        else .frontLoad HD ptr 16 fun st head =>
          let count := leAt head 0 4
          if st ≠ stOK || 16384 < count || !bytesZero head 4 12 then k none
          else .frontLoad HD (ptr + 16) (32 * count) fun st body =>
            if st ≠ stOK then k none
            else match workItems b count 0 body with
              | some items => k (some (plan items))
              | none => k none

/-! ## Threads start (R94, R98, R100, R101, R170) -/

/-- A thread as it starts. -/
def Dev.started (d : Dev) (e : WorkEntry) : Thread :=
  let die := e.cell / 160
  let th : Thread := {
    st := .ready, pc := e.start, fpctl := bitsOf (d.reg VEC_FPCTL_INIT die).toNat 0 8,
    srseed := mix64 (((d.reg VEC_SR_BASE die).toNat ^^^ (e.beat * 2 ^ 16) ^^^ (e.cell * 16) ^^^ e.thread) % 2 ^ 64),
    wbase := e.wbase, wsize := e.wsize, aslot := e.aslot, valid := true }
  th.setS 1 e.arg

/-- Whether the cell behind a logical cell cannot start threads yet: a copy is under way, or an in-place test. -/
def Dev.cellWaits (d : Dev) (c pk : Nat) : Bool :=
  d.unitSt (ukey 0 (pk / 168) (pk % 168)) = 5 ||
    d.u.spare.leaving.any fun x => x.carry && ukKind x.out = 0 && x.logical = c && x.to_ = pk % 168

/-- A THREAD entry starts its thread, or completes with CAPABILITY_ABSENT, or waits for its cell (R98, R619, R627, R662). -/
def Tr.startEntry (e : WorkEntry) : Tr :=
  .read fun d =>
    match d.physOf e.cell with
    | none => .entryRecord e stCAPABILITY_ABSENT
    | some pk =>
      if d.parked (e.cell / 160) then .entryRecord e stCAPABILITY_ABSENT
      else if d.cellWaits e.cell pk then .skip
      else .seq [
        .beatSt fun b => { b with work := b.work.map fun x => if x.index = e.index then { x with phys := some pk } else x },
        .thread pk e.thread fun _ => d.started e]

/-- The entries that wait for a logical cell start. -/
def Tr.startWaiting (c : Nat) : Tr :=
  .read fun d => .each (d.u.beat.work.filter fun e => e.cell = c && e.phys.isNone && !e.recorded) .startEntry

/-- Whether a THREAD entry completes with MALFORMED (R470): it names the cell and thread of an earlier one, breaks R108, or
its start is not aligned. -/
def entryBad (earlier : List WorkEntry) (e : WorkEntry) : Bool :=
  earlier.any (fun x => x.cell = e.cell && x.thread = e.thread) || 4 < e.wsize || e.wbase % windowSize e.wsize ≠ 0 ||
    64 < e.wbase + windowSize e.wsize || e.start % 16 ≠ 0

/-- The entries of a work list in order: malformed ones have their record, the others start. -/
def Tr.startAll : List WorkEntry → List WorkEntry → Tr
  | _, [] => .skip
  | done, e :: es => .seq [
      if entryBad done e then .entryRecord e stMALFORMED else .startEntry e,
      .startAll (done ++ [e]) es]

/-! ## The census (R176 to R180) -/

/-- The counts of a logical cell at the 11 census indices: 44 numbers. -/
def Dev.censusOf (d : Dev) (c : Nat) : List Nat :=
  match d.physOf c with
  | some pk => let cs := d.cellAt pk; (List.range 44).map fun i => agetD cs.census i 0
  | none => List.replicate 44 0

/-- An entry of a census record. -/
def censusEntry (ns : List Nat) : List Byte := ns.flatMap fun n => leBytes 4 (min n (2 ^ 32 - 1))

/-- The bytes of a census record after BEAT, at the edge at `ns` (R177, R178). -/
def Dev.censusRecord (d : Dev) (die mode ns : Nat) (skipped : Bool) : List Byte :=
  let cells := (List.range 160).map fun l => if skipped then List.replicate 44 0 else d.censusOf (die * 160 + l)
  let sums := (List.range 44).map fun i => cells.foldl (fun a c => a + c.getD i 0) 0
  let entries := if mode = 1 then [sums] else cells
  let sat := entries.any fun e => e.any fun n => 2 ^ 32 - 1 ≤ n
  let mine := d.u.cells.filter fun e => e.1 / 168 = die
  let asat := if skipped then 0 else mine.foldl (fun a e => a + popCount 16 e.2.asatBeat) 0
  let traps := if skipped then 0 else mine.foldl (fun a e => a + e.2.nanTraps) 0
  leBytes 1 die ++ leBytes 1 mode ++ leBytes 1 (b01 skipped + 2 * b01 sat) ++ leBytes 1 0 ++ leBytes 4 entries.length ++
    leBytes 8 ns ++ leBytes 8 asat ++ leBytes 8 traps ++ leBytes 24 0 ++ entries.flatMap censusEntry

/-- Step 1 of R70 for beat `b`: every tensor die with a census writes its record, BEAT last (R177, R179). -/
def Tr.census (b ns : Nat) (skipped : Bool) : Tr :=
  .each tds fun die => .read fun d =>
    let mode := d.forceFld VEC_CENSUS_CFG VEC_CENSUS_CFG_MODE die
    let stride := if mode = 1 then 256 else 28224
    let a := (d.inForce VEC_CENSUS_BASE die).toNat + b % 2 ^ d.forceFld VEC_CENSUS_CFG VEC_CENSUS_CFG_SLOTS_LOG2 die * stride
    let bad := Tr.fld VEC_CENSUS_STATUS VEC_CENSUS_STATUS_WRITE_ERR die 1
    .when (mode = 1 || mode = 2) (.frontStore die (a + 8) (d.censusRecord die mode ns skipped) fun st =>
      if st ≠ stOK then bad
      else .frontStore die a (leBytes 8 b) fun st =>
        if st ≠ stOK then bad else .reg VEC_CENSUS_LAST die (w64 b))

/-! ## Settings that take effect at an edge, before step 1 (R71, R120, R180, R204, R254, R308, R317, R332, R351, R391) -/

/-- Whether a request of a thread is in flight to the regions numbered `r` (R38). -/
def Dev.regionBusy (d : Dev) (r : Nat) : Bool :=
  d.u.ops.any fun o => o.reqs.any fun q =>
    (q.st = .ready || q.st = .sent) && !d.isRemote q.pa && localOf q.pa < 4 * hbmWindow && localOf q.pa % hbmWindow / 2 ^ 30 = r

/-- The interleave registers: request and current mode of regions 64 k to 64 k + 63. -/
def ilvRegs : List (Nat × Reg × Nat × Reg × Nat) :=
  [(0, MEM_ILV_REQ, 0, MEM_ILV_CUR, 0), (1, MEM_ILV_REQ, 1, MEM_ILV_CUR, 1), (2, MEM_ILV_REQ_TOP, 0, MEM_ILV_CUR_TOP, 0)]

/-- MEM_ILV_STATUS.PENDING: whether a requested mode is not yet in force (R38). -/
def Tr.ilvPending : Tr :=
  .read fun d => .fld MEM_ILV_STATUS MEM_ILV_STATUS_PENDING HD
    (b01 (ilvRegs.any fun (_, req, i, cur, j) => d.reg req HD i ≠ d.reg cur HD j))

/-- Requested interleave modes of regions without a request in flight come into force (R38). -/
def Tr.ilvEdge : Tr :=
  .read fun d =>
    .seq [
      .each ilvRegs fun (k, req, i, cur, j) =>
        let want := (d.reg req HD i).toNat
        let old := (d.reg cur HD j).toNat
        let new := (setBits 64 (want ^^^ old)).foldl (fun m b =>
          if d.regionBusy (64 * k + b) then m else putBits m b 1 (b01 (want.testBit b))) old
        .when (want ≠ old) (.reg cur HD (w64 new) j),
      .ilvPending]

/-- Writes that waited for an edge take effect. -/
def Tr.settingsEdge : Tr :=
  .seq [
    .each tds fun die => .seq [
      .takeEffect MTX_CTL die, .takeEffect SPARSE_CTL die, .takeEffect VEC_CTL die, .takeEffect STRM_CTL die,
      .takeEffect VEC_CENSUS_BASE die, .takeEffect VEC_CENSUS_CFG die, .takeEffect MEM_CTL die,
      .each (List.range 16) fun n => .seq [.takeEffect VQ_RANGE_BASE die n, .takeEffect VQ_RANGE_LIMIT die n],
      .mouldsDrained die, .routePredReset die, .cohPredReset die,
      .read fun d => .seq [
        .fld VEC_CENSUS_STATUS VEC_CENSUS_STATUS_ACTIVE die (b01 (d.fld VEC_CENSUS_CFG VEC_CENSUS_CFG_MODE die ≠ 0)),
        .when (d.flag CELL_CTL CELL_CTL_ICACHE_INV die) (.seq [.icacheClear die, .fld CELL_CTL CELL_CTL_ICACHE_INV die 0])]],
    .cohPredReset HD,
    .ilvEdge]

/-! ## Completeness and slip (R69, R75, R77, R79) -/

/-- Whether the work of the current beat is complete (R69). -/
def Dev.workDone (d : Dev) : Bool :=
  (d.u.beat.work.all fun e => e.recorded || (match e.phys with | some pk => d.threadDone pk e.thread | none => false)) &&
    d.collsDone d.beatIdx

/-- A cause of the management alert is set (R656). -/
def Tr.alert (bit : Nat) : Tr :=
  .read fun d => .fld MGMT_ALERT MGMT_ALERT_CAUSE HD (putBits (d.fld MGMT_ALERT MGMT_ALERT_CAUSE HD) bit 1 1)

/-- The slip after edge `n`, and what happens when it first exceeds the budget (R77, R79). -/
def Tr.slipCheck (n : Nat) : Tr :=
  .read fun d =>
    let slip := n - d.beatIdx
    .seq [
      .fld BEAT_STATUS BEAT_STATUS_SLIP HD (min slip 255),
      if slip = 0 then .beatSt fun b => { b with slipTold := false }
      else .when (d.fld BEAT_CTL BEAT_CTL_SLIP_BUDGET HD < slip && !d.u.beat.slipTold) (.seq [
        .beatSt fun b => { b with slipTold := true },
        .fld BEAT_STATUS BEAT_STATUS_SLIP_FAULT HD 1,
        .notice (d.fld BEAT_CTL BEAT_CTL_NOTIFY_QUEUE HD) stSLIP_LIMIT,
        .alert 0,
        .packageNotice 1 0 0xFFFF 0xFFFF])]

/-- An edge that is incomplete (R70, R75). -/
def Tr.incomplete (n : Nat) (planBad : Bool) : Tr :=
  .seq [
    .when planBad (.fld BEAT_STATUS BEAT_STATUS_PLAN_ERROR HD 1),
    .bump BEAT_SLIPS HD, .slipCheck n]

/-! ## A beat ends and the next begins -/

/-- The cells at the start of a beat (R95, R96, R102, R139, R176, R294, R336, R512): threads are IDLE; a cell that does not
carry state has undefined contents, no attachment, no buffer and no sample. The source of a copy under way keeps its
contents; its incoming cell carries state into the first beat after the swap alone. -/
def Tr.cellsBegin : Tr :=
  .read fun d => .seq [
    .each d.u.cells fun (pk, cs) =>
      let carry := d.carries? pk
      let source := d.u.spare.leaving.any fun x => x.carry && x.out = ukey 0 (pk / 168) (pk % 168)
      .seq [
        .dropRunAhead pk fun _ => true,
        .when (!carry && !source) (.seq [
          .each cs.pf fun (b, _) => .seq [.unsubscribe (.pf pk b), .cell pk fun c => { c with pf := terase c.pf b }, .pfReg pk b],
          .units fun u => { u with ing := u.ing.returned fun a _ => a = pk },
          .epoch fun e => .cell pk fun c => { c with
            spad := { epoch := e }, tiles := { epoch := e }, acc := { epoch := e }, poison := [], att := [] }]),
        .cell pk fun c => { c with threads := [], census := [], asatBeat := 0, nanTraps := 0, pendR := [], pendW := [] },
        .fld CELL_ROLE CELL_ROLE_CARRY (pk / 168) (b01 (carry && !source)) (pk % 168)],
    .each d.u.spare.leaving fun x => .when (x.carry && ukKind x.out = 0)
      (.fld CELL_ROLE CELL_ROLE_CARRY (ukDie x.out) (b01 (!d.u.beat.inBeat || x.ends = d.elapsed + copyTime)) x.to_),
    .each tds .mouldRefs]

/-- The records of entries whose threads are done are written before the work list is replaced (R471). -/
def Tr.flushRecords : Tr := .read fun d => .each d.u.beat.work .entryReady

/-- A newly committed plan takes effect with a beat (R74, R120). -/
def Tr.adopt (p : BeatPlan) : Tr :=
  .when p.fresh (.seq [
    .beatSt fun b => { b with plan := b.pending, pending := none },
    .fld BEAT_STATUS BEAT_STATUS_PLAN_PENDING HD 0,
    .each tds .icacheClear])

/-- Steps 2 to 5 of R70 at the edge actions of beat `p`, with B set to it. -/
def Tr.edgeActions (p : BeatPlan) : Tr :=
  .seq [
    .adopt p,
    .spareEdge,
    .controlStep p.beat p.roleCells,
    .each p.items fun x => match x with
      | .role first count role => .setRoles first count role
      | .thread _ => .skip,
    .setBeat p.beat, .collsGo]

/-- The queues whose commands were held back look again (R444). -/
def Tr.heldStart : Tr := .read fun d => .each ((d.u.cmd.held.map (·.q)).eraseDups) .startHeld

/-- Beat `p` begins at edge `n` (step 6 of R70, R78, R94). -/
def Tr.begin_ (p : BeatPlan) (n : Nat) : Tr :=
  .read fun d => .seq [
    .cellsBegin,
    .beatSt fun b => { b with
      inBeat := true, beganAt := d.u.time.now, beginEdge := n, slack := p.slack, work := p.threads },
    .when (p.slack && n = p.beat) (.slackTests (p.threads.map (·.cell))),
    .startAll [] p.threads,
    .ingestEdge p.beat,
    .heldStart,
    .slipCheck n]

/-- The beats from `b` on are read until one is not skipped at edge `n` (R77): those skipped, and the one that begins. -/
def Tr.walkBeats (n : Nat) : Nat → Nat → List BeatPlan → (Option (List BeatPlan × BeatPlan) → Tr) → Tr
  | 0, b, acc, k => .readPlan b fun r => k (r.map fun p => (acc, p))
  | fuel + 1, b, acc, k => .readPlan b fun r => match r with
    | none => k none
    | some p => if p.slack && b < n then .walkBeats n fuel (b + 1) (acc ++ [p]) k else k (some (acc, p))

/-- A complete edge (R70, R77): the census of beat B, the edge actions of skipped slack beats, and the beat that begins. -/
def Tr.completeEdge (n ns b : Nat) (skipped : List BeatPlan) (p : BeatPlan) : Tr :=
  .seq [
    .flushRecords,
    .settingsEdge,
    .ckptEdge ((skipped.head?).elim p.beat (·.beat)),
    .census b ns false,
    .each skipped fun q => .seq [
      .when (some q.beat ≠ skipped.head?.map (·.beat)) (.ckptEdge q.beat),
      .edgeActions q, .bump BEAT_SLACK_USED HD, .census q.beat ns true],
    .when (!skipped.isEmpty) (.ckptEdge p.beat),
    .edgeActions p,
    .begin_ p n]

/-- The edge at which a package that is to stop has finished its work: steps 1 to 3 of R70 (R68). -/
def Tr.stopEdge (ns : Nat) : Tr :=
  .read fun d => .seq [
    .flushRecords,
    .settingsEdge,
    .census d.beatIdx ns false,
    .spareEdge,
    .controlStep d.beatIdx [],
    .units fun u => { u with cells := u.cells.map fun e => (e.1, { e.2 with
      threads := e.2.threads.map fun t => (t.1, { t.2 with st := .idle, wait := .nothing, valid := false }) }) },
    .beatSt fun b => { b with inBeat := false, work := [] },
    .fld BEAT_STATUS BEAT_STATUS_RUNNING HD 0]

/-- BEAT_EDGE (R64, R67 to R70, R75, R77): the next edge has come in device time. -/
def beatEdgeTr : Tr :=
  .read fun d =>
    let n := d.u.beat.nextEdge
    let at_ := d.origin + n * d.period
    if !(d.running || d.u.beat.starting) || d.u.time.now < at_ then .skip
    else .seq [
      .beatSt fun b => { b with nextEdge := n + 1 },
      if !d.running then
        .readPlan n fun r => match r with
          | none => .seq [.fld BEAT_STATUS BEAT_STATUS_PLAN_ERROR HD 1, .bump BEAT_SLIPS HD]
          | some p => .seq [
              .beatSt fun b => { b with starting := false },
              .fld BEAT_STATUS BEAT_STATUS_RUNNING HD 1,
              .settingsEdge, .ckptEdge n, .edgeActions p, .begin_ p n]
      else .seq [
        .collLate d.beatIdx,
        .read fun d =>
          if !d.workDone then .incomplete n false
          else if !d.runBit then .stopEdge (at_ / oneNs)
          else .walkBeats n (n - (d.beatIdx + 1)) (d.beatIdx + 1) [] fun r => match r with
            | none => .incomplete n true
            | some (skipped, p) => .completeEdge n (at_ / oneNs) d.beatIdx skipped p]]
/-- BEAT_EDGE. -/
def execBeatEdge (s : State) := run beatEdgeTr s

/-! ## Running, stopping and committing (R66 to R68, R74) -/

/-- SLIP_BUDGET and NOTIFY_QUEUE of a write of BEAT_CTL; a budget of 0 is discarded (R79). -/
def Tr.beatCtlFields (v : Word) : Tr :=
  .seq [
    .when (BEAT_CTL_SLIP_BUDGET.get v ≠ 0) (.fld BEAT_CTL BEAT_CTL_SLIP_BUDGET HD (BEAT_CTL_SLIP_BUDGET.get v)),
    .fld BEAT_CTL BEAT_CTL_NOTIFY_QUEUE HD (BEAT_CTL_NOTIFY_QUEUE.get v)]

/-- The first edge after now (R64). -/
def Dev.firstEdge (d : Dev) : Nat := if d.u.time.now < d.origin then 0 else d.wall + 1

/-- ADJ within the clamp of R49: 100 ppm while RUN is 1, else 1,000 ppm. -/
def clampAdj (running : Bool) (v : Nat) : Nat :=
  let m : Int := if running then 28147497671 else 281474976711
  unsigned 40 (max (-m) (min m (signed 40 v)))

/-- TIME_RATE.ADJ := v, clamped (R49). -/
def Tr.setAdj (v : Nat) : Tr := .read fun d => .fld TIME_RATE TIME_RATE_ADJ HD (clampAdj d.runBit v)

/-- A write of BEAT_CTL with RUN 1 (R67): discarded without valid time or a plan. -/
def Tr.runStart (v : Word) : Tr :=
  .seq [
    .beatCtlFields v,
    .read fun d =>
      .when (d.flag TIME_STATUS TIME_STATUS_VALID HD && !d.flag BEAT_STATUS BEAT_STATUS_NO_PLAN HD && !d.runBit) (.seq [
        .fld BEAT_CTL BEAT_CTL_RUN HD 1,
        .setAdj (d.fld TIME_RATE TIME_RATE_ADJ HD),
        .when (!d.running) (.beatSt fun b => { b with starting := true, nextEdge := d.firstEdge })])]
/-- BEAT_RUN_START. -/
def execBeatRunStart (v : Word) (s : State) := run (.runStart v) s

/-- A write of BEAT_CTL with RUN 0 (R68): the package stops once the work of its current beat is complete. -/
def Tr.runStop (v : Word) : Tr :=
  .seq [
    .beatCtlFields v,
    .fld BEAT_CTL BEAT_CTL_RUN HD 0,
    .beatSt fun b => { b with starting := false }]
/-- BEAT_RUN_STOP. -/
def execBeatRunStop (v : Word) (s : State) := run (.runStop v) s

/-- PLAN_COMMIT (R74): a write of BEAT_PLAN_START commits the staged plan, in place of one that has not taken effect. -/
def planCommitTr (v : Word) : Tr :=
  .read fun d => .seq [
    .reg BEAT_PLAN_START HD v,
    .beatSt fun b => { b with
      pending := some { base := (d.reg BEAT_PLAN_BASE HD).toNat, len := d.fld BEAT_PLAN_CFG BEAT_PLAN_CFG_LEN HD, start := v.toNat },
      firstStart := b.firstStart.orElse fun _ => some v.toNat },
    .fld BEAT_STATUS BEAT_STATUS_PLAN_PENDING HD 1, .fld BEAT_STATUS BEAT_STATUS_NO_PLAN HD 0]
/-- PLAN_COMMIT. -/
def execPlanCommit (v : Word) (s : State) := run (planCommitTr v) s

/-! ## While beats do not run (R71) -/

/-- A cut that a command asks for, while beats do not run. -/
def Tr.ckptStopped : Tr :=
  .read fun d =>
    .when (d.u.ckpt.armed && d.u.ckpt.maq.isNone && !d.gated) (.opt d.cuts.head? fun c => .seq [
      .cut d.beatIdx (some c.seqNo), .onCmd c.seqNo fun x => { x with stage := 2 }])

/-- APPLY_WHILE_STOPPED (R71): what waits for an edge is applied. -/
def applyWhileStoppedTr : Tr :=
  .read fun d => .when (!d.running) (.seq [.settingsEdge, .ckptStopped, .spareEdge, .unparkEdge])
/-- APPLY_WHILE_STOPPED. -/
def execApplyWhileStopped (s : State) := run applyWhileStoppedTr s

/-! ## Cells that were moved or tested -/

/-- The carried contents of a cell arrive in the incoming one (R97, R336); `bad` are poison keys of words that the outgoing
cell's SECDED found uncorrectable. -/
def Tr.copyCell (src dst : Nat) (bad : List Nat) : Tr :=
  .read fun d =>
    let s := d.cellAt src
    .seq [
      .cell dst fun c => { c with
        spad := s.spad, tiles := s.tiles, acc := s.acc, spadOcc := s.spadOcc, att := s.att,
        poison := s.poison ++ bad.filter fun k => !s.poison.contains k },
      .cell src fun c => { c with att := [] },
      .reg MTX_ACC_STATE (dst / 168) (d.reg MTX_ACC_STATE (src / 168) (src % 168)) (dst % 168),
      .each (List.range 16) fun n => .reg MTX_OCC (dst / 168) (d.reg MTX_OCC (src / 168) (src % 168) n) (dst % 168) n,
      .mouldRefs (src / 168)]

/-- CELL_COPY_DONE (R97, R98, R620): the copy to the cell behind logical cell `c` ends; the outgoing cell enters its state,
and the threads start. -/
def cellCopyDoneTr (c : PCell) (bad : List Nat) : Tr :=
  .read fun d =>
    .opt (d.u.spare.leaving.find? fun x => x.carry && ukKind x.out = 0 && x.logical = c.val && x.ends ≤ d.elapsed) fun x =>
      let die := c.val / 160
      .seq [
        .when (d.physOf c.val = some (die * 168 + x.to_) && d.flag CELL_ROLE CELL_ROLE_CARRY die x.to_) (.copyCell (die * 168 + ukIdx x.out) (die * 168 + x.to_) bad),
        .leave x,
        .startWaiting c.val]
/-- CELL_COPY_DONE. -/
def execCellCopyDone (c : PCell) (bad : List Nat) (s : State) := run (cellCopyDoneTr c bad) s

/-- What an in-place test's outcome does to the unit, by kind (R627, R629). -/
def Tr.inPlaceOutcome (k : Nat) (pass : Bool) (p : Probe) : Tr :=
  .read fun d =>
    let die := ukDie k
    let idx := ukIdx k
    let n := d.unitLogical k
    match ukKind k with
    | 0 => .seq [
        if pass then .unitState k 0
        else .seq [
          .unitState k 3,
          match d.spareFor k with
          | some s => .seq [
              .bindCell die (n % 160) (ukIdx s),
              .reg CELL_ROLE die (d.reg CELL_ROLE die idx) (ukIdx s), .reg CELL_ROLE die 0 idx,
              .fld CELL_ROLE CELL_ROLE_CARRY die 0 (ukIdx s),
              .bringIn s n 2 p.queue]
          | none => .seq [.unbindCell die (n % 160), .service k n .unbacked 2 0 p.queue]],
        .startWaiting n]
    | 1 =>
      if pass then .unitState k 0
      else .seq [
        .unitState k 3,
        match d.spareFor k with
        | some s => .seq [.spareSt fun x => { x with hosts := tinsert x.hosts n (ukIdx s) }, .bringIn s n 2 p.queue]
        | none => .spareSt fun x => { x with stalled := x.stalled ++ [n] }]
    | 2 =>
      let port := (d.laneOf k).map (·.1)
      if pass then .seq [.unitState k 0, .opt port fun q => .laneBack die q]
      else match d.laneSpare k with
        | some s => .fresh fun i =>
            if Config.freeBit i then .seq [.swapLane k s 2 p.queue, .unitState k 3, .opt port fun q => .laneBack die q]
            else .unitState k 3
        | none => .unitState k 3
    | 3 => .seq [if pass then .seq [.unitState k 0, .moduleOn k true] else .unitState k 3, .nextInTurn (idx / 256)]
    | _ => .seq [
        if pass then .unitState k 0
        else .seq [.unitState k 3, .opt (d.spareFor k) fun s => .bringIn s 0xFFFF 2 p.queue],
        .nextInTurn (16 + die)]

/-- INPLACE_TEST_END (R627, R629): an in-place test has run its time, and its outcome is applied at once. -/
def inplaceTestEndTr (kind : Fin 8) (die : Die) (idx : BitVec 16) (pass : Bool) : Tr :=
  .read fun d =>
    let k := ukey kind.val die.val idx.toNat
    .opt (d.u.spare.probes.find? fun p => p.unit = k && p.inPlace && p.since + testTime kind.val p.level ≤ d.elapsed) fun p => .seq [
      .spareSt fun s => { s with probes := s.probes.erase p },
      .serviceOf k (if pass then .probationPass else .probationFail) 2 0 p.queue,
      .when (!pass) (.seq [.bump SPARE_PROBATION_FAILS HD, .bump SPARE_RETIREMENTS HD]),
      .tellTest p pass,
      .inPlaceOutcome k pass p]
/-- INPLACE_TEST_END. -/
def execInplaceTestEnd (kind : Fin 8) (die : Die) (idx : BitVec 16) (pass : Bool) (s : State) :=
  run (inplaceTestEndTr kind die idx pass) s

end Sys2Proof.Machine
end

