-- ==== Sys2Proof/Machine/Tick.lean ====
section
/-! DEFINITION. The passage of time (R46, R50): what a step does when no command waits. -/

namespace Sys2Proof.Machine

/-- The time of one idle step, in units of 2^-64 ns: 50 ns at the rate adjustment TIME_RATE.ADJ, a signed count of
2^-48 (R49; log 7). -/
def Dev.tickLen (d : Dev) : Nat :=
  (50 * 2 ^ 16 * ((2 ^ 48 : Int) + signed 40 (d.fld TIME_RATE TIME_RATE_ADJ HD))).toNat

/-- Wait hints count down one each cell cycle (R271): 47 cycles in 50 ns. -/
def CellSt.tickHints (cs : CellSt) (n : Nat) : CellSt :=
  { cs with threads := cs.threads.map fun e => (e.1, { e.2 with hint := e.2.hint - n }) }

/-- Threads of a cell that wait for a group's epoch (R482). -/
def CellSt.epochWaits (cs : CellSt) : Nat := (cs.threads.filter fun e => e.2.wait = .epoch).length

/-- One idle step: 50 ns pass. -/
def tick : Tr :=
  .seq [
    .read fun d => .each d.u.cells fun (pk, cs) =>
      .when (cs.epochWaits ≠ 0) (.bump UPD_EPOCH_WAITS (pk / 168) (47 * cs.epochWaits)),
    .read fun d => .units fun u => { u with
      time := { u.time with now := u.time.now + d.tickLen, elapsed := u.time.elapsed + d.tickLen },
      cells := u.cells.map fun e => (e.1, e.2.tickHints 47) }]

end Sys2Proof.Machine
end

