-- ==== Sys2Proof/Machine/Time.lean ====
section
/-! DEFINITION. Device time (R46 to R62): setting, stepping and slewing it, its sources, PTP, timing flits and the
reference outputs. -/

namespace Sys2Proof.Machine

/-- A change of the time unit. -/
def Tr.time (f : TimeSt → TimeSt) : Tr := .units fun u => { u with time := f u.time }

/-- TIME_NOW_READ (R48): the nanosecond count, and the fraction of the same instant latched. -/
def Tr.readTimeNow (k : Word → Tr) : Tr :=
  .read fun d => .seq [.fld TIME_NOW_FRAC TIME_NOW_FRAC_FRAC HD d.nowFrac, k (w64 d.nowNs)]
/-- TIME_NOW_READ. -/
def execTimeNowRead (s : State) := run (.readTimeNow .answer) s

/-- A write that would move device time is discarded while RUN is 1 (R49). -/
def Tr.unlessRunning (t : Tr) : Tr :=
  .read fun d => if d.runBit then .fld TIME_STATUS TIME_STATUS_STEP_REFUSED HD 1 else t

/-- Device time := `z` in units of 2^-64 ns, not below zero. Elapsed time stays (R50). -/
def Tr.stepTo (z : Int) : Tr := .time fun t => { t with now := z.toNat }

/-- TIME_SET (R47, R49). -/
def timeSetTr (v : Word) : Tr :=
  .unlessRunning (.seq [.stepTo (v.toNat * oneNs : Nat), .fld TIME_STATUS TIME_STATUS_VALID HD 1])
/-- TIME_SET. -/
def execTimeSet (v : Word) (s : State) := run (timeSetTr v) s

/-- TIME_STEP (R49): a signed offset in nanoseconds. -/
def timeStepTr (v : Word) : Tr :=
  .unlessRunning (.read fun d => .stepTo (d.u.time.now + signed 64 v.toNat * oneNs))
/-- TIME_STEP. -/
def execTimeStep (v : Word) (s : State) := run (timeStepTr v) s

/-- TIME_RATE_WRITE. -/
def execTimeRateWrite (v : Word) (s : State) := run (.setAdj (v.toNat % 2 ^ 40)) s

/-- TIME_CTL_SRC_CHANGE: a write of TIME_CTL. A reserved SRC, and a reserved PTP_ROLE or PTP_TRANSPORT (log 40), leaves its
field as it was; a change of SRC clears LOCKED, and one to free run clears HOLDOVER (R55). -/
def timeCtlTr (v : Word) : Tr :=
  .read fun d =>
    let keep := fun (f : Fld) (bad : Nat → Bool) (v : Word) => if bad (f.get v) then f.put v (d.fld TIME_CTL f HD) else v
    let v := keep TIME_CTL_PTP_TRANSPORT (· = 3) (keep TIME_CTL_PTP_ROLE (· = 3) (keep TIME_CTL_SRC (3 < ·) v))
    let src := TIME_CTL_SRC.get v
    .seq [
      .writeReg TIME_CTL HD v,
      .when (src ≠ d.fld TIME_CTL TIME_CTL_SRC HD) (.seq [
        .fld TIME_STATUS TIME_STATUS_LOCKED HD 0,
        .when (src = 0) (.fld TIME_STATUS TIME_STATUS_HOLDOVER HD 0),
        .time fun t => { t with good := 0, lastMeas := t.elapsed }])]
/-- TIME_CTL_SRC_CHANGE. -/
def execTimeCtlSrcChange (v : Word) (s : State) := run (timeCtlTr v) s

/-- Whether sub-port `sp` is a native one that is up. -/
def Dev.nativeUp (d : Dev) (sp : Nat) : Bool := d.spUp sp && d.spMode sp = 1
/-- Whether a sub-port of the upstream port is native and up (R62). -/
def Dev.upstreamUp (d : Dev) : Bool :=
  (List.range 4).any fun s => d.nativeUp (4 * d.fld TIME_CTL TIME_CTL_UPSTREAM_PORT HD + s)

/-- Whether the selected source can give a measurement: PPS and REF10M always may, PTP as client, the upstream port while it
is native and up (R55, R58, R62). -/
def Dev.measures (d : Dev) : Bool :=
  match d.fld TIME_CTL TIME_CTL_SRC HD with
  | 1 => true
  | 2 => d.fld TIME_CTL TIME_CTL_PTP_ROLE HD = 1
  | 3 => d.upstreamUp
  | _ => false

/-- The source is in lock (R47, R56, R57). -/
def Tr.locked : Tr :=
  .seq [
    .fld TIME_STATUS TIME_STATUS_LOCKED HD 1, .fld TIME_STATUS TIME_STATUS_VALID HD 1,
    .fld TIME_STATUS TIME_STATUS_HOLDOVER HD 0, .time fun t => { t with everLocked := true }]

/-- One measured offset of device time from the source, in 2^-16 ns (R56). -/
def Tr.measure (x : BitVec 48) : Tr :=
  .seq [
    .reg TIME_OFFSET HD (w64 x.toNat),
    .time fun t => { t with good := if (signed 48 x.toNat).natAbs < 8 * 2 ^ 16 then t.good + 1 else 0, lastMeas := t.elapsed },
    .read fun d => .when (16 ≤ d.u.time.good) .locked]

/-- SOURCE_LOCK (R55, R56): measurements of the selected source. `first` is the offset found before them: until the first
lock, one above 1 ms makes the device step to the source while RUN is 0. `adj` is the rate the servo sets. -/
def sourceLockTr (first : BitVec 48) (meas : List (BitVec 48)) (adj : Option (BitVec 40)) : Tr :=
  .read fun d =>
    let x := signed 48 first.toNat
    .when d.measures (.seq [
      .when (!d.u.time.everLocked && !d.runBit && decide (10 ^ 6 * 2 ^ 16 < x.natAbs)) (.stepTo (d.u.time.now - x * 2 ^ 48)),
      .each meas .measure,
      .opt adj fun a => .setAdj a.toNat])
/-- SOURCE_LOCK. -/
def execSourceLock (first : BitVec 48) (meas : List (BitVec 48)) (adj : Option (BitVec 40)) (s : State) :=
  run (sourceLockTr first meas adj) s

/-- SOURCE_LOST (R57, R62): no valid measurement for 2 s, or an upstream port that is not native or is down. -/
def sourceLostTr : Tr :=
  .read fun d =>
    let src := d.fld TIME_CTL TIME_CTL_SRC HD
    let lost := decide (2 * oneSec ≤ d.elapsed - d.u.time.lastMeas) || (src = 3 && !d.upstreamUp)
    .when (src ≠ 0 && !d.flag TIME_STATUS TIME_STATUS_HOLDOVER HD && lost) (.seq [
      .fld TIME_STATUS TIME_STATUS_LOCKED HD 0, .fld TIME_STATUS TIME_STATUS_HOLDOVER HD 1,
      .fld TIME_STATUS TIME_STATUS_SRC_LOST HD 1, .time fun t => { t with good := 0 }, .alert 5])
/-- SOURCE_LOST. -/
def execSourceLost (s : State) := run sourceLostTr s

/-- PPS_IN_EDGE (R54). -/
def ppsInEdgeTr : Tr :=
  .read fun d => .seq [.reg TIME_PPS_CAPTURE HD (w64 d.nowNs), .fld TIME_PPS_CAPTURE_FRAC TIME_PPS_CAPTURE_FRAC_FRAC HD d.nowFrac]
/-- PPS_IN_EDGE. -/
def execPpsInEdge (s : State) := run ppsInEdgeTr s

/-- PPS_OUT (R52, R53): device time has just reached a whole second. -/
def ppsOutTr : Tr :=
  .read fun d =>
    .when (d.flag TIME_CTL TIME_CTL_PPS_OUT_EN HD && d.flag TIME_STATUS TIME_STATUS_VALID HD &&
        decide (d.u.time.now % oneSec < d.tickLen)) (.time fun t => { t with ppsSecond := t.now / oneSec + 1 })
/-- PPS_OUT. -/
def execPpsOut (s : State) := run ppsOutTr s

/-- The level of PPS_OUT: high for 100 ms from its rise (R52, R53). -/
def Dev.ppsLevel (d : Dev) : Bool :=
  d.flag TIME_CTL TIME_CTL_PPS_OUT_EN HD && d.flag TIME_STATUS TIME_STATUS_VALID HD &&
    d.u.time.ppsSecond = d.u.time.now / oneSec + 1 && d.u.time.now % oneSec < 100 * oneMs

/-- REF10M_OUT (R52, R53): device time has just reached a whole 100 ns. -/
def ref10mOutTr : Tr :=
  .read fun d =>
    .when (d.flag TIME_CTL TIME_CTL_REF10M_OUT_EN HD && d.flag TIME_STATUS TIME_STATUS_VALID HD &&
        decide (d.u.time.now % (100 * oneNs) < d.tickLen)) (.time fun t => { t with refCount := t.now / (100 * oneNs) + 1 })
/-- REF10M_OUT. -/
def execRef10mOut (s : State) := run ref10mOutTr s

/-- Device time in 2^-16 ns. -/
def Dev.stamp16 (d : Dev) : Nat := d.u.time.now / 2 ^ 48

/-- PTP_MESSAGE (R58, R59): a message of the configured domain and transport is timestamped. A client takes the best of the
announced datasets as its master; a grandmaster answers delay requests. Other messages mean nothing to the role. -/
def ptpMessageTr (m : PtpMsg) : Tr :=
  .read fun d =>
    let role := d.fld TIME_CTL TIME_CTL_PTP_ROLE HD
    let mine := d.flag MGMT_ETH_CFG MGMT_ETH_CFG_EN HD && decide (m.domain.toNat = d.fld TIME_CTL TIME_CTL_PTP_DOMAIN HD) &&
      decide (m.transport.toNat = d.fld TIME_CTL TIME_CTL_PTP_TRANSPORT HD)
    let stamped := Tr.time fun t => { t with ptpStamp := d.stamp16 }
    .when mine (
      match m.kind with
      | .announce => .when (role = 1) (.seq [stamped, .time fun t =>
          { t with ptpMaster := some (min (t.ptpMaster.getD m.dataset.toNat) m.dataset.toNat) }])
      | .sync => .when (role = 1) stamped
      | .followUp => .when (role = 1) stamped
      | .delayResp => .when (role = 1) stamped
      | .delayReq => .when (role = 2) (.seq [stamped, .time fun t => { t with ptpSent := t.ptpSent ++ [(d.stamp16, d.stamp16)] }]))
/-- PTP_MESSAGE. -/
def execPtpMessage (m : PtpMsg) (s : State) := run (ptpMessageTr m) s

/-- PTP_ANNOUNCE_SEND (R59): the values are those that the management controller has written. -/
def ptpAnnounceSendTr (clockClass accuracy prio1 prio2 : BitVec 8) : Tr :=
  .read fun d => .when (d.flag MGMT_ETH_CFG MGMT_ETH_CFG_EN HD && d.fld TIME_CTL TIME_CTL_PTP_ROLE HD = 2) (.time fun t =>
    { t with announced := t.announced ++
      [(d.stamp16, prio1.toNat * 2 ^ 24 + clockClass.toNat * 2 ^ 16 + accuracy.toNat * 2 ^ 8 + prio2.toNat)] })
/-- PTP_ANNOUNCE_SEND. -/
def execPtpAnnounceSend (clockClass accuracy prio1 prio2 : BitVec 8) (s : State) :=
  run (ptpAnnounceSendTr clockClass accuracy prio1 prio2) s

/-- TIMING_FLIT (R60, R552): a native sub-port sends one every 1 µs; or one has arrived and gives a round trip to the
partner, in 2^-16 ns, half of which is the delay to the upstream partner. A timing flit carries its departure time (log 41). -/
def timingFlitTr (sp : SubPortId) (round : Option (BitVec 48)) : Tr :=
  .read fun d => .when (d.nativeUp sp.val) (
    match round with
    | none => .when (oneUs ≤ d.elapsed - (d.sub sp.val).timed) (.seq [
        .sendFlit sp.val ((d.sub sp.val).txSeq + 4095) 2 0 false (leBytes 10 d.stamp16),
        .onSub sp.val fun p => { p with timed := d.elapsed }])
    | some r => .when (d.fld TIME_CTL TIME_CTL_SRC HD = 3 && sp.val / 4 = d.fld TIME_CTL TIME_CTL_UPSTREAM_PORT HD)
        (.reg TIME_LINK_DELAY HD (w64 (r.toNat / 2))))
/-- TIMING_FLIT. -/
def execTimingFlit (sp : SubPortId) (round : Option (BitVec 48)) (s : State) := run (timingFlitTr sp round) s

end Sys2Proof.Machine
end

