-- ==== Sys2Proof/Machine/Power.lean ====
section
/-! DEFINITION. The package's states (R635 to R637), Dusk (R659, R660), loss of the host die or a link (R663), temperature
and rails (R661, R669, R681, R682), the host watchdog, and the pins (R673, R678, R679). -/

namespace Sys2Proof.Machine

/-- A change of the boot and power state. -/
def Tr.boot (f : BootSt → BootSt) : Tr := .units fun u => { u with boot := f u.boot }
/-- PWR_STATE.STATE: 0 Night, 1 Dawn, 2 Day, 3 Dusk (R635). -/
def Dev.state (d : Dev) : Nat := d.fld PWR_STATE PWR_STATE_STATE HD
/-- Day or Dusk: the dies run. -/
def Dev.awake (d : Dev) : Bool := d.state = 2 || d.state = 3
/-- BOOT_STATUS.PHASE (R638). -/
def Dev.phase (d : Dev) : Nat := d.fld BOOT_STATUS BOOT_STATUS_PHASE HD
/-- Dawn, in some phase. -/
def Dev.inPhase (d : Dev) (p : Nat) : Bool := d.state = 1 && d.phase = p
/-- PHASE := p. -/
def Tr.setPhase (p : Nat) : Tr := .fld BOOT_STATUS BOOT_STATUS_PHASE HD p

/-! ## Reset (R10, R47, R637) -/

/-- The units after a reset of every die. Contents of cells are undefined from epoch `e` on; the bulk tier's memory lies
outside the package. What the package has sent stays sent, and the model's own counters go on. -/
def Units.afterReset (u : Units) (e : Nat) : Units where
  time := { announced := u.time.announced, ptpSent := u.time.ptpSent }
  cells := (List.range 672).map fun pk => (pk, { spad := { epoch := e }, tiles := { epoch := e }, acc := { epoch := e } })
  cmd := { msis := u.cmd.msis }
  mem := {
    poison := u.mem.poison.filter (4 * hbmWindow / 64 ≤ ·),
    undef := u.mem.undef.filter (4 * hbmWindow ≤ ·.1) }
  fab := { tx := u.fab.tx }
  boot := {
    refclkBad := u.boot.refclkBad, pwrGood := u.boot.pwrGood, resetN := u.boot.resetN, pufBad := u.boot.pufBad,
    ethTx := u.boot.ethTx }
  rdata := u.rdata
  fresh := u.fresh
  epoch := u.epoch

/-- Every die is reset. -/
def Tr.resetDies : Tr :=
  .seq [.resetRegs fun _ => true, .epoch fun e => .units fun u => u.afterReset e]

/-- The package enters Night: every die is held in reset, READY falls and FAULT_N is low (R635, R659, R679). -/
def Tr.enterNight : Tr :=
  .seq [.resetDies, .fld PWR_STATE PWR_STATE_STATE HD 0, .boot fun b => { b with fault := true }]

/-- The package enters Dawn, with the cause that PWR_STATE.LAST_CAUSE keeps (R637). -/
def Tr.enterDawn (cause : Nat) : Tr :=
  .seq [.resetDies, .fld PWR_STATE PWR_STATE_LAST_CAUSE HD cause]

/-- PWRGOOD_DEASSERT (R636). -/
def pwrgoodDeassertTr : Tr := .seq [.boot fun b => { b with pwrGood := false }, .enterNight]
/-- PWRGOOD_DEASSERT. -/
def execPwrgoodDeassert (s : State) := run pwrgoodDeassertTr s
/-- RESET_N_ASSERT (R636). -/
def resetNAssertTr : Tr := .seq [.boot fun b => { b with resetN := true }, .enterNight]
/-- RESET_N_ASSERT. -/
def execResetNAssert (s : State) := run resetNAssertTr s
/-- INPUT_UNDERVOLTAGE (R673): the power stage deasserts PWRGOOD and removes the rails. -/
def execInputUndervoltage (s : State) := run pwrgoodDeassertTr s

/-- NIGHT_EXIT (R636): PWRGOOD is asserted and RESET_N deasserted. `auxOff`: VDD_AUX had been off as R674 asks. -/
def nightExitTr (auxOff : Bool) : Tr :=
  .read fun d => .when (d.state = 0) (.seq [
    .boot fun b => { b with pwrGood := true, resetN := false, pufBad := !auxOff, refclkBad := false }, .enterDawn 1])
/-- NIGHT_EXIT. -/
def execNightExit (auxOff : Bool) (s : State) := run (nightExitTr auxOff) s

/-- REFCLK_FAULT (R678): at the end of phase ROM the custodian waits; otherwise the power stage takes PWRGOOD away. -/
def refclkFaultTr (romEnd : Bool) : Tr :=
  .read fun d =>
    if d.state = 0 then .skip
    else if romEnd then .when (d.inPhase 0) (.boot fun b => { b with refclkBad := true, fault := true })
    else pwrgoodDeassertTr
/-- REFCLK_FAULT. -/
def execRefclkFault (romEnd : Bool) (s : State) := run (refclkFaultTr romEnd) s

/-- REFCLK_RESTORED (R678). -/
def refclkRestoredTr : Tr :=
  .read fun d => .when (d.inPhase 0 && d.u.boot.refclkBad) (.boot fun b => { b with refclkBad := false, fault := false })
/-- REFCLK_RESTORED. -/
def execRefclkRestored (s : State) := run refclkRestoredTr s

/-! ## Dusk (R659, R660) -/

/-- Dusk begins: ANNOUNCE, the interrupt to host-die firmware, RUN := 0, and ON queues become DRAINING (R659). `cause` is
what Dawn will record; `night`: Dusk ends in Night. -/
def Tr.enterDusk (reason cause : Nat) (night : Bool) : Tr :=
  .read fun d => .seq [
    .announce reason,
    .boot fun b => { b with mInt := b.mInt + 1, duskAt := d.elapsed, duskCause := cause, duskNight := night },
    .fld BEAT_CTL BEAT_CTL_RUN HD 0, .beatSt fun b => { b with starting := false },
    .each (tds.flatMap d.onQueues) fun q => .read fun d => .qcfgWrite q (d.reg CMD_QCFG (qDie q) (qIdx q) &&& ~~~1),
    .fld PWR_STATE PWR_STATE_STATE HD 3]

/-- Every started command has been recorded, and no memory request is in flight. -/
def Dev.drained (d : Dev) : Bool :=
  d.u.cmd.cmds.isEmpty && d.u.mem.bulk.isEmpty && d.u.fab.reqs.isEmpty && d.u.coh.reqs.isEmpty &&
    d.u.ops.all fun o => o.reqs.all fun r => r.st ≠ .sent

/-- DUSK_END (R659): the drain has ended, or TIMEOUT_MS has passed. -/
def duskEndTr : Tr :=
  .read fun d =>
    let late := decide (d.fld PWR_DUSK_CFG PWR_DUSK_CFG_TIMEOUT_MS HD * oneMs ≤ d.elapsed - d.u.boot.duskAt)
    .when (d.state = 3 && (d.drained || late))
      (if d.u.boot.duskNight then .enterNight else .enterDawn d.u.boot.duskCause)
/-- DUSK_END. -/
def execDuskEnd (s : State) := run duskEndTr s

/-! ## The lease (R657, R658) -/

/-- What is left of the lease; it counts down in Day and Dusk only. -/
def Dev.leaseLeft (d : Dev) : Nat := if d.awake then d.u.boot.lease - (d.elapsed - d.u.boot.leaseAt) else d.u.boot.lease

/-- The first grant in READY takes the package to Day (R651): READY is asserted, the host harts are released, the watchdog
starts, and heartbeats begin. -/
def Tr.dayEntry : Tr :=
  .read fun d => .seq [
    .fld PWR_STATE PWR_STATE_STATE HD 2, .setPhase 6,
    .fld BOOT_HOST_WDOG BOOT_HOST_WDOG_EXPIRED HD 0,
    .boot fun b => { b with
      ready := true, wdogAt := d.elapsed, beatAt := d.elapsed, aliveAt := tds.map fun t => (t, d.elapsed) }]

/-- A grant of `ms` milliseconds, from 1 to 600,000 (R657). -/
def Tr.grantLease (ms : Nat) : Tr :=
  .read fun d => .when (0 < ms && ms ≤ 600000) (.seq [
    .boot fun b => { b with lease := ms * oneMs, leaseAt := d.elapsed, grant := ms, lowTold := false },
    .when (d.inPhase 5) .dayEntry])

/-- LEASE_LOW (R658): once per grant. -/
def leaseLowTr : Tr :=
  .read fun d =>
    let pct := d.fld MGMT_LEASE_CFG MGMT_LEASE_CFG_LOW_PCT HD
    .when (d.awake && !d.u.boot.lowTold && decide (100 * d.leaseLeft < pct * d.u.boot.grant * oneMs)) (.seq [
      .boot fun b => { b with lowTold := true }, .alert 2])
/-- LEASE_LOW. -/
def execLeaseLow (s : State) := run leaseLowTr s

/-- LEASE_EXPIRE (R657, R660): in Day alone. -/
def leaseExpireTr : Tr := .read fun d => .when (d.state = 2 && d.leaseLeft = 0) (.enterDusk 2 6 false)
/-- LEASE_EXPIRE. -/
def execLeaseExpire (s : State) := run leaseExpireTr s

/-! ## Losing the host die or a link (R663) -/

/-- Bytes of writes to the bulk tier that had not reached their point of coherence are undefined. -/
def Tr.abortWrites : Tr :=
  .epoch fun e => .units fun u =>
    let lost := (u.mem.bulk.filter (·.write)).flatMap fun b => (List.range b.len).map (b.la + ·)
    { u with mem := { u.mem with undef := lost.foldl (fun t a => tinsert t a e) u.mem.undef } }

/-- The ON queues of a die whose completion ring lies in its own HBM. -/
def Dev.homeQueues (d : Dev) (die : Nat) : List Nat :=
  (d.onQueues die).filter fun q =>
    match d.place (localOf (d.reg CMD_CQ_BASE die (qIdx q)).toNat) with
    | .hbm h _ _ _ => h = die
    | _ => false

/-- The steps of R663 with a status, and Dawn. The requests that end with the status end with the reset of their dies. -/
def Tr.loss (status : Nat) : Tr :=
  .read fun d => .seq [
    .abortWrites,
    .each tds fun die => .each (d.homeQueues die) fun q => .notice q status,
    .announce 1,
    .enterDawn (if status = stLINK_LOST then 5 else 4),
    .alert 1]

/-- HOST_HEARTBEAT (R663): every 10 µs on every TD–HD link that is up; a die whose link is down misses it. -/
def hostHeartbeatTr : Tr :=
  .read fun d =>
    let alive := !d.flag BOOT_HOST_WDOG BOOT_HOST_WDOG_EXPIRED HD
    .when (d.awake && decide (10 * oneUs ≤ d.elapsed - d.u.boot.beatAt)) (.seq [
      .each tds fun t =>
        if (d.link (4 + t)).up then .seq [
          .fld BOOT_TD_HB BOOT_TD_HB_ALIVE t (b01 alive),
          .when alive (.boot fun b => { b with aliveAt := tinsert b.aliveAt t d.elapsed })]
        else .count BOOT_TD_HB BOOT_TD_HB_MISSED t 1,
      .boot fun b => { b with beatAt := d.elapsed }])
/-- HOST_HEARTBEAT. -/
def execHostHeartbeat (s : State) := run hostHeartbeatTr s

/-- HOST_HEARTBEAT_TIMEOUT (R663): a tensor die with its link up has seen no ALIVE for 100 µs. -/
def hostHeartbeatTimeoutTr (die : TDie) : Tr :=
  .read fun d =>
    .when (d.awake && (d.link (4 + die.val)).up && decide (100 * oneUs ≤ d.elapsed - agetD d.u.boot.aliveAt die.val 0))
      (.loss stHOST_LOST)
/-- HOST_HEARTBEAT_TIMEOUT. -/
def execHostHeartbeatTimeout (die : TDie) (s : State) := run (hostHeartbeatTimeoutTr die) s

/-- HOST_WDOG_EXPIRE (R651). -/
def hostWdogExpireTr : Tr :=
  .read fun d =>
    .when (d.awake && decide (d.fld BOOT_HOST_WDOG BOOT_HOST_WDOG_TIMEOUT_MS HD * oneMs ≤ d.elapsed - d.u.boot.wdogAt))
      (.fld BOOT_HOST_WDOG BOOT_HOST_WDOG_EXPIRED HD 1)
/-- HOST_WDOG_EXPIRE. -/
def execHostWdogExpire (s : State) := run hostWdogExpireTr s

/-- HOST_WDOG_KICK: a write of BOOT_HOST_WDOG. A TIMEOUT_MS of 0 is discarded; KICK restarts the watchdog, which has then
not expired (log 42). -/
def hostWdogKickTr (v : Word) : Tr :=
  .read fun d => .seq [
    .when (BOOT_HOST_WDOG_TIMEOUT_MS.get v ≠ 0) (.fld BOOT_HOST_WDOG BOOT_HOST_WDOG_TIMEOUT_MS HD (BOOT_HOST_WDOG_TIMEOUT_MS.get v)),
    .when (BOOT_HOST_WDOG_KICK.get v = 1) (.seq [
      .fld BOOT_HOST_WDOG BOOT_HOST_WDOG_EXPIRED HD 0, .boot fun b => { b with wdogAt := d.elapsed }])]
/-- HOST_WDOG_KICK. -/
def execHostWdogKick (v : Word) (s : State) := run (hostWdogKickTr v) s

/-! ## Temperature and rails -/

/-- The highest of some temperatures. -/
def hottest (ts : List (BitVec 8)) : Nat := ts.foldl (fun m t => max m t.toNat) 0
/-- The temperature at a place of a list; none reads 0. -/
def tempAt (ts : List (BitVec 8)) (i : Nat) : Nat := (ts.getD i 0).toNat

/-- TEMPERATURE_SAMPLE (R661, R681, R682): the temperatures of the seven dies and the twelve stacks, in °C, and the power
levels at which the custodian holds the tensor dies, two bits each. -/
def temperatureSampleTr (dies hbm : List (BitVec 8)) (hold : BitVec 8) : Tr :=
  .read fun d =>
    let hot := fun i => decide (95 < tempAt dies i) || (i < 4 && (List.range 3).any fun k => 95 < tempAt hbm (3 * i + k))
    let old := d.fld PWR_THERMAL PWR_THERMAL_THROTTLED HD
    let new_ := (List.range 7).foldl (fun m i => m + b01 (hot i) * 2 ^ i) 0
    let critical := (dies.any (110 < ·.toNat)) || hbm.any (105 < ·.toNat)
    .when (d.state ≠ 0) (.seq [
      .fld PWR_THERMAL PWR_THERMAL_HOTTEST_C HD (hottest (dies ++ hbm)),
      .fld PWR_THERMAL PWR_THERMAL_THROTTLED HD new_,
      .units fun u => { u with pwr := { u.pwr with cap := tds.map fun t => (t, min 2 (bitsOf hold.toNat (2 * t) 2)) } },
      .each tds .levelGo,
      .when ((List.range 7).any fun i => new_.testBit i && !old.testBit i) (.alert 4),
      .when (critical && d.awake) (.seq [.boot fun b => { b with fault := true }, .enterDusk 4 1 true])])
/-- TEMPERATURE_SAMPLE. -/
def execTemperatureSample (dies hbm : List (BitVec 8)) (hold : BitVec 8) (s : State) :=
  run (temperatureSampleTr dies hbm hold) s

/-- A core rail, in mV. -/
def Dev.rail (d : Dev) (die : Nat) : Nat := agetD d.u.pwr.rails die 750

/-- AVS_SETPOINT (R669): in phase SELFTEST any setpoint of 650 to 800 mV in steps of 5; in Day one step up, at most once per
100 ms, for a die whose timing margin has been low. -/
def avsSetpointTr (die : Die) (mv : BitVec 10) : Tr :=
  .read fun d =>
    let v := mv.toNat
    let found := d.inPhase 1
    let raise := d.state = 2 && v = d.rail die.val + 5 && d.u.pwr.lowMargin.contains die.val &&
      (match aget? d.u.pwr.raisedAt die.val with
       | some t => 100 * oneMs ≤ d.elapsed - t
       | none => true)
    .when (650 ≤ v && v ≤ 800 && v % 5 = 0 && (found || raise)) (.units fun u => { u with pwr := { u.pwr with
      rails := tinsert u.pwr.rails die.val v,
      raisedAt := if raise then tinsert u.pwr.raisedAt die.val d.elapsed else u.pwr.raisedAt,
      lowMargin := u.pwr.lowMargin.filter (· ≠ die.val) } })
/-- AVS_SETPOINT. -/
def execAvsSetpoint (die : Die) (mv : BitVec 10) (s : State) := run (avsSetpointTr die mv) s

/-- TIMING_MARGIN_SAMPLE (R611, R669): the margin of a cell or host core, in percent of the clock period. -/
def timingMarginSampleTr (die : Die) (idx : BitVec 8) (pct : BitVec 7) : Tr :=
  .read fun d =>
    let kind := if die.val = HD then 1 else 0
    .when (d.awake && unitExists kind die.val idx.toNat && pct.toNat < d.fld SPARE_CTL SPARE_CTL_LOGIC_MARGIN HD) (.seq [
      .patina (ukey kind die.val idx.toNat) 4,
      .units fun u => { u with pwr := { u.pwr with lowMargin := die.val :: u.pwr.lowMargin.filter (· ≠ die.val) } }])
/-- TIMING_MARGIN_SAMPLE. -/
def execTimingMarginSample (die : Die) (idx : BitVec 8) (pct : BitVec 7) (s : State) := run (timingMarginSampleTr die idx pct) s

end Sys2Proof.Machine
end

