-- ==== Sys2Proof/Machine/Link.lean ====
section
/-! DEFINITION. Die-to-die links (R13, R18 to R23, R27, R663): training, the capability exchange, retrains and loss. -/

namespace Sys2Proof.Machine

/-- VER and FLOOR of a capability word as major * 256 + minor, its DIE_TYPE and its LINK_FEATURES (R21). -/
def capVer (w : Nat) : Nat := w % 65536
/-- FLOOR. -/
def capFloor (w : Nat) : Nat := bitsOf w 16 16
/-- DIE_TYPE. -/
def capType (w : Nat) : Nat := bitsOf w 32 4
/-- PKG_FEATURES. -/
def capPkg (w : Nat) : Nat := bitsOf w 64 32
/-- LINK_FEATURES. -/
def capLink (w : Nat) : Nat := bitsOf w 96 16

/-- Links are up in phase SELFTEST: the custodian has left phase ROM unless it waits for REFCLK100 (R638, R678). -/
def Tr.selftestBegins : Tr :=
  .read fun d => .when (d.inPhase 0 && !d.u.boot.refclkBad) (.setPhase 1)

/-- A die sends its capability word: its own registers show it, and HD's copy of it (R28). -/
def Tr.capReceived (die w : Nat) : Tr :=
  .seq [
    .reg BOOT_CAP_SELF_LO die (w64 w), .reg BOOT_CAP_SELF_HI die (w64 (w / 2 ^ 64)),
    .reg BOOT_CAP_DIE_LO HD (w64 w) die, .reg BOOT_CAP_DIE_HI HD (w64 (w / 2 ^ 64)) die]

/-- LINK_UP (R18, R19, R23, R26): in phase SELFTEST a link trains the modules of a bit mask and its dies exchange their
words; modules that did not train are out of service. A link on which none trained is failed. `crcBad`: the die whose word
failed its flit CRC on three consecutive attempts. -/
def linkUpTr (l : LinkId) (modules : BitVec 24) (wordA wordB : Word128) (crcBad : Option Die) : Tr :=
  .seq [.selftestBegins, .read fun d =>
    let (a, b) := linkEnds l.val
    let ms := modules.toNat % 2 ^ linkModules l.val
    let wa := wordA.toNat
    let wb := wordB.toNat
    let bad := crcBad.filter fun x => x.val = a || x.val = b
    .when (d.inPhase 1 && !d.flag BOOT_STATUS BOOT_STATUS_HELD HD && !(d.link l.val).up) (.seq [
      .link l.val fun _ => {
        up := decide (ms ≠ 0) && bad.isNone, modules := ms, wordA := wa, wordB := wb,
        version := min (capVer wa) (capVer wb), feats := capLink wa &&& capLink wb, crcBad := bad.map (·.val) },
      .each ((List.range (linkModules l.val)).filter fun m => !ms.testBit m) fun m => .unit (moduleKey l.val m) fun x => { x with st := 3 },
      .when (ms ≠ 0) (.seq [
        .when (bad.all (·.val ≠ a)) (.capReceived a wa), .when (bad.all (·.val ≠ b)) (.capReceived b wb)])])]
/-- LINK_UP. -/
def execLinkUp (l : LinkId) (modules : BitVec 24) (wordA wordB : Word128) (crcBad : Option Die) (s : State) :=
  run (linkUpTr l modules wordA wordB crcBad) s

/-- LINK_DOWN (R19): the link begins to retrain. -/
def linkDownTr (l : LinkId) : Tr :=
  .read fun d => .when (d.link l.val).up (.link l.val fun x => { x with up := false, downAt := some d.elapsed })
/-- LINK_DOWN. -/
def execLinkDown (l : LinkId) (s : State) := run (linkDownTr l) s

/-- Whether a link's 1 ms to retrain has passed (R19). -/
def Dev.linkLate (d : Dev) (l : Nat) : Bool :=
  match (d.link l).downAt with
  | some t => oneMs ≤ d.elapsed - t
  | none => false

/-- LINK_RETRAIN_DONE (R20, R27): within 1 ms the link is up again and has lost nothing; in Day and Dusk a changed
capability word makes it lost. -/
def linkRetrainDoneTr (l : LinkId) (wordA wordB : Word128) : Tr :=
  .read fun d =>
    let x := d.link l.val
    .when (x.downAt.isSome && !x.lost && !d.linkLate l.val)
      (if d.awake && (wordA.toNat ≠ x.wordA || wordB.toNat ≠ x.wordB) then .link l.val fun x => { x with lost := true }
       else .link l.val fun x => { x with up := true, downAt := none })
/-- LINK_RETRAIN_DONE. -/
def execLinkRetrainDone (l : LinkId) (wordA wordB : Word128) (s : State) := run (linkRetrainDoneTr l wordA wordB) s

/-- LINK_LOST (R19, R27, R663): the package passes through Dawn. -/
def linkLostTr (l : LinkId) : Tr :=
  .read fun d => .when (d.awake && ((d.link l.val).lost || d.linkLate l.val)) (.loss stLINK_LOST)
/-- LINK_LOST. -/
def execLinkLost (l : LinkId) (s : State) := run (linkLostTr l) s

end Sys2Proof.Machine
end

