-- ==== Sys2Proof/Machine/Sha3.lean ====
section
/-! DEFINITION. SHA3-256 (FIPS 202) and HMAC with it (FIPS 198-1), which the spec names in R645, R648, R657 and R665 and does
not restate (PRESUMED, log 43). -/

namespace Sys2Proof.Machine

/-- A lane of the Keccak state. -/
abbrev Lane := BitVec 64

/-- Lane (x, y) of a state, lanes in the order x + 5 y. -/
def laneAt (s : List Lane) (x y : Nat) : Lane := s.getD (x % 5 + 5 * (y % 5)) 0

/-- The rotation offsets of rho, in the order x + 5 y. -/
def rhoOffsets : List Nat :=
  [0, 1, 62, 28, 27, 36, 44, 6, 55, 20, 3, 10, 43, 25, 39, 41, 45, 15, 21, 8, 18, 2, 61, 56, 14]

/-- The round constants of iota. -/
def roundConstants : List Lane :=
  [0x0000000000000001, 0x0000000000008082, 0x800000000000808A, 0x8000000080008000, 0x000000000000808B, 0x0000000080000001,
   0x8000000080008081, 0x8000000000008009, 0x000000000000008A, 0x0000000000000088, 0x0000000080008009, 0x000000008000000A,
   0x000000008000808B, 0x800000000000008B, 0x8000000000008089, 0x8000000000008003, 0x8000000000008002, 0x8000000000000080,
   0x000000000000800A, 0x800000008000000A, 0x8000000080008081, 0x8000000000008080, 0x0000000080000001, 0x8000000080008008]

/-- A state from its lanes by number. -/
def lanes (f : Nat → Lane) : List Lane := (List.range 25).map f

/-- One round of Keccak-f[1600]: theta, rho and pi, chi, iota. -/
def keccakRound (s : List Lane) (rc : Lane) : List Lane :=
  let c := (List.range 5).map fun x => (List.range 5).foldl (fun a y => a ^^^ laneAt s x y) 0
  let dl := (List.range 5).map fun x => c.getD ((x + 4) % 5) 0 ^^^ (c.getD ((x + 1) % 5) 0).rotateLeft 1
  let t := lanes fun i => s.getD i 0 ^^^ dl.getD (i % 5) 0
  let b := lanes fun i =>
    let x := i % 5
    let y := i / 5
    let src := (x + 3 * y) % 5 + 5 * x
    (t.getD src 0).rotateLeft (rhoOffsets.getD src 0)
  let h := lanes fun i => laneAt b (i % 5) (i / 5) ^^^ (~~~(laneAt b (i % 5 + 1) (i / 5)) &&& laneAt b (i % 5 + 2) (i / 5))
  lanes fun i => if i = 0 then h.getD 0 0 ^^^ rc else h.getD i 0

/-- Keccak-f[1600]. -/
def keccakF (s : List Lane) : List Lane := roundConstants.foldl keccakRound s

/-- The bytes of a message with the padding of SHA3-256 to whole blocks of 136 bytes. -/
def sha3Pad (m : List Byte) : List Byte :=
  let n := 136 - m.length % 136
  if n = 1 then m ++ [0x86] else m ++ [0x06] ++ List.replicate (n - 2) 0 ++ [0x80]

/-- `n` more blocks are absorbed. -/
def sha3Absorb : Nat → List Byte → List Lane → List Lane
  | 0, _, s => s
  | n + 1, bs, s =>
    sha3Absorb n (bs.drop 136)
      (keccakF (lanes fun i => s.getD i 0 ^^^ (if i < 17 then w64 (leAt bs (8 * i) 8) else 0)))

/-- SHA3-256: 32 bytes. -/
def sha3 (m : List Byte) : List Byte :=
  let p := sha3Pad m
  ((sha3Absorb (p.length / 136) p (List.replicate 25 0)).take 4).flatMap fun l => leBytes 8 l.toNat

/-- HMAC-SHA3-256 of a message under a key of at most 136 bytes. -/
def hmacSha3 (key m : List Byte) : List Byte :=
  let k := key ++ List.replicate (136 - key.length) 0
  sha3 (k.map (· ^^^ 0x5C) ++ sha3 (k.map (· ^^^ 0x36) ++ m))

end Sys2Proof.Machine
end

