-- ==== Sys2Proof/Machine/Boot.lean ====
section
/-! DEFINITION. Dawn (R24, R26, R87, R340, R541, R608, R609, R638, R639), identity and images (R641 to R650), management
commands (R659, R664, R666) and attestation (R665). -/

namespace Sys2Proof.Machine

/-! ## The end of self-test -/

/-- Self-test's result for the cells of a tensor die (R87): CELL_MAP_l, CELL_PHYS_p. -/
def Tr.dawnCells (die : Nat) : Tr :=
  .read fun d =>
    let st := fun p => d.u.spare.dawnState 0 die p
    let serving := (List.range 168).filter fun p => st p = 0
    .seq [
      .each serving.zipIdx fun (p, l) => .reg CELL_MAP die (w64 (p + p / 14 * 2 ^ 8 + p % 14 * 2 ^ 12)) l,
      .each (List.range 168) fun p => .reg CELL_PHYS die (w64 (st p)) p,
      .each serving.zipIdx fun (p, l) => .fld CELL_PHYS CELL_PHYS_LOGICAL die l p]

/-- The lanes of a port die (R541): lane i of a pair is its i-th, and the spare stands in for the first that failed. -/
def Tr.dawnLanes (die : Nat) : Tr :=
  .read fun d =>
    let bad := fun p => d.u.spare.failed.contains (ukey 2 die p)
    .seq [
      .each (List.range 16) fun k => .reg FAB_PORT_LANES die
        (w64 ((List.range 8).foldl (fun n i => n + (17 * (k / 2) + 8 * (k % 2) + i) * 2 ^ (8 * i)) 0)) k,
      .each (List.range 8) fun j => .when (!bad (17 * j + 16))
        (.opt ((List.range 16).find? fun i => bad (17 * j + i)) fun i => .setLane die (2 * j + i / 8) (i % 8) (17 * j + 16))]

/-- Repair rows and columns of a die (R608). -/
def repairStock (die : Nat) : Nat × Nat := if die < 4 then (4096, 2048) else if die = 4 then (3072, 1536) else (512, 256)

/-- SPARE_SRAM of a die after `r` rows and `c` columns were assigned. -/
def Tr.dawnSram (die r c : Nat) : Tr :=
  let (rs, cs) := repairStock die
  .reg SPARE_SRAM die (w64 (min r rs + (rs - r) * 2 ^ 16 + min c cs * 2 ^ 32 + (cs - c) * 2 ^ 48))

/-- The capability word that HD holds of die `n`. -/
def Dev.capWord (d : Dev) (n : Nat) : Nat := (d.reg BOOT_CAP_DIE_LO HD n).toNat + (d.reg BOOT_CAP_DIE_HI HD n).toNat * 2 ^ 64

/-- The dies whose word has been received. -/
def Dev.capDies (d : Dev) : List Nat := (List.range 7).filter fun n => d.capWord n ≠ 0

/-- The effective version and PKG_FEATURES (R24). -/
def Dev.effective (d : Dev) : Nat × Nat :=
  (d.capDies.foldl (fun v n => min v (capVer (d.capWord n))) 0xFFFF,
   d.capDies.foldl (fun f n => f &&& capPkg (d.capWord n)) 0xFFFFFFFF)

/-- DIE_TYPE that a die's position requires (R26). -/
def dieType (die : Nat) : Nat := if die < 4 then 1 else if die = 4 then 2 else 3

/-- The first cause of R26, in the order of the REASON codes: reason, die and link. -/
def Dev.refusal (d : Dev) : Option (Nat × Nat × Nat) :=
  let w := d.capWord
  let links := List.range 12
  (((d.capDies.find? fun n => capVer (w n) < 0x100).map fun n => (1, n, 0)).or
    ((d.capDies.find? fun n => d.effective.1 < capFloor (w n)).map fun n => (2, n, 0))).or
  ((((d.capDies.find? fun n => capType (w n) ≠ dieType n).map fun n => (3, n, 0))).or
    (((links.find? fun l => (d.link l).modules = 0).map fun l => (4, min (linkEnds l).1 (linkEnds l).2, l)).or
      (links.findSome? fun l => (d.link l).crcBad.map fun n => (5, n, l))))

/-- A cause holds the package in Dawn (R639); after a refused image, fabric boot or identity it is in AWAIT again. -/
def Tr.hold (reason detail : Nat) : Tr :=
  .seq [
    .reg BOOT_HOLD HD (w64 (reason + detail % 65536 * 65536)), .fld BOOT_STATUS BOOT_STATUS_HELD HD 1,
    .boot fun b => { b with fault := true }, .alert 3,
    .when (7 ≤ reason) (.setPhase 2)]

/-- The management controller tries again: the package is no longer held. -/
def Tr.retry : Tr :=
  .read fun d => .when (d.flag BOOT_STATUS BOOT_STATUS_HELD HD) (.seq [
    .fld BOOT_STATUS BOOT_STATUS_HELD HD 0, .boot fun b => { b with fault := false }])

/-- The words of the dies resolve to the effective one, or refuse (R24, R26, R28). `k` gets whether they refused. -/
def Tr.resolveCaps (k : Bool → Tr) : Tr :=
  .seq [
    .read fun d => .when (d.capWord HD = 0)
      (.capReceived HD ((d.reg BOOT_CAP_SELF_LO HD).toNat + (d.reg BOOT_CAP_SELF_HI HD).toNat * 2 ^ 64)),
    .read fun d =>
      let (ver, feats) := d.effective
      let r := d.refusal
      let (reason, die, link) := r.getD (0, 0, 0)
      .seq [
        .reg BOOT_LINKUP_STATUS HD
          (w64 (1 + b01 r.isSome * 2 + reason * 16 + die * 256 + link * 2 ^ 16 + ver % 256 * 2 ^ 24 + ver / 256 * 2 ^ 32)),
        .when r.isNone (.each allDies fun n => .seq [
          .reg BOOT_CAP_EFF_LO n (w64 ver), .reg BOOT_CAP_EFF_HI n (w64 feats)]),
        k r.isSome]]

/-- HBM reads as zero, without error (R340). -/
def Tr.zeroHbm : Tr :=
  .seq [
    .read fun d => .each (d.mem.filter (·.1 < 4 * hbmWindow)) fun e => .byte e.1 0,
    .memSt fun m => { m with
      errs := m.errs.filter (4 * hbmWindow / 64 ≤ ·.1), poison := m.poison.filter (4 * hbmWindow / 64 ≤ ·),
      undef := m.undef.filter (4 * hbmWindow ≤ ·.1) }]

/-- The first die with fewer passing units of a kind than its service set: cores of HD, or lanes of a pair (R609). -/
def SpareSt.short (s : SpareSt) : Option Nat :=
  let bad := fun (kind die lo n : Nat) => ((List.range n).filter fun i => s.failed.contains (ukey kind die (lo + i))).length
  if 8 < bad 1 HD 0 104 then some HD
  else [5, 6].find? fun pd => (List.range 8).any fun j => 1 < bad 2 pd (17 * j) 17

/-- The first tensor die with fewer than 160 passing cells (R88). -/
def SpareSt.fewCells (s : SpareSt) : Option Nat :=
  tds.find? fun t => ((List.range 168).filter fun p => s.failed.contains (ukey 0 t p)).length > 8

/-- DAWN_SELFTEST_DONE: phase SELFTEST ends. `failed`: the units (kind, die and index, as a unit key) that failed; `sram`: a
die with an SRAM outside every unit that cannot be repaired; `rows` and `cols`: repair rows and columns assigned by die;
`hbmBad`: a stack that fails R338. Causes are taken in the order of R638: self-test, link-up, HBM (log 46). -/
def dawnSelftestDoneTr (failed : List (BitVec 28)) (sram : Option Die) (rows cols : List (BitVec 16)) (hbmBad : Option (Fin 12)) : Tr :=
  .seq [.selftestBegins, .read fun d =>
    let units := (failed.map (·.toNat)).filter fun k =>
      unitExists (ukKind k) (ukDie k) (ukIdx k) && ([0, 1, 2, 4, 5].contains (ukKind k))
    .when (d.inPhase 1 && !d.flag BOOT_STATUS BOOT_STATUS_HELD HD) (.seq [
      .spareSt fun s => { s with failed := units },
      .each tds .dawnCells, .each [5, 6] .dawnLanes, .each tdsHd .dirWays,
      .each allDies fun n => .dawnSram n (rows.getD n 0).toNat (cols.getD n 0).toNat,
      .resolveCaps fun refused => .read fun d =>
        match d.u.spare.fewCells, d.u.spare.short.or (sram.map (·.val)), refused, hbmBad with
        | some t, _, _, _ => .hold 2 t
        | none, some t, _, _ => .hold 3 t
        | none, none, true, _ => .hold 1 (d.reg BOOT_LINKUP_STATUS HD).toNat
        | none, none, false, some k => .hold 6 k.val
        | none, none, false, none => .seq [.zeroHbm, .setPhase 2]])]
/-- DAWN_SELFTEST_DONE. -/
def execDawnSelftestDone (failed : List (BitVec 28)) (sram : Option Die) (rows cols : List (BitVec 16)) (hbmBad : Option (Fin 12))
    (s : State) := run (dawnSelftestDoneTr failed sram rows cols hbmBad) s

/-! ## Management commands (R636, R659, R660, R664, R666) -/

/-- MGMT_CMD_STATUS.ERR := e. -/
def Tr.mgmtErr (e : Nat) : Tr := .fld MGMT_CMD_STATUS MGMT_CMD_STATUS_ERR HD e
/-- MGMT_CMD_STATUS.BUSY := b. -/
def Tr.mgmtBusy (b : Bool) : Tr := .fld MGMT_CMD_STATUS MGMT_CMD_STATUS_BUSY HD (b01 b)

/-- A write of MGMT_CMD: discarded while a command executes. `dusk`: it is carried out in Dusk too (R660). -/
def Tr.mgmtCmd (dusk : Bool) (k : Tr) : Tr :=
  .read fun d =>
    if d.state = 0 || d.flag MGMT_CMD_STATUS MGMT_CMD_STATUS_BUSY HD then .skip
    else if d.state = 3 && !dusk then .mgmtErr 4
    else .seq [.mgmtErr 0, k]

/-- MGMT_CMD_UNKNOWN. -/
def mgmtCmdUnknownTr (code : BitVec 8) : Tr :=
  .mgmtCmd false (.when (code.toNat = 0 || 9 < code.toNat) (.mgmtErr 1))
/-- MGMT_CMD_UNKNOWN. -/
def execMgmtCmdUnknown (code : BitVec 8) (s : State) := run (mgmtCmdUnknownTr code) s

/-- DUSK_RESET and DUSK_OFF: from Day (R636); elsewhere refused in this state. -/
def Tr.duskCmd (night : Bool) : Tr :=
  .mgmtCmd false (.read fun d => if d.state = 2 then .enterDusk 3 (if night then 1 else 3) night else .mgmtErr 4)
/-- DUSK_RESET. -/
def execDuskReset (s : State) := run (.duskCmd false) s
/-- DUSK_OFF. -/
def execDuskOff (s : State) := run (.duskCmd true) s

/-- RESET_NOW (R584, R636). -/
def resetNowTr : Tr := .mgmtCmd true (.read fun d => .seq [.when d.awake (.announce 3), .enterDawn 2])
/-- RESET_NOW. -/
def execResetNow (s : State) := run resetNowTr s

/-- DEBUG_ON (R664). -/
def debugOnTr : Tr :=
  .mgmtCmd false (.seq [.fld BOOT_STATUS BOOT_STATUS_DEBUG HD 1, .fld SEC_STATUS SEC_STATUS_DEBUG_SEEN HD 1])
/-- DEBUG_ON. -/
def execDebugOn (s : State) := run debugOnTr s

/-! ## Identity (R641, R642) -/

/-- `n` bytes of a buffer from `o` on. -/
def bufBytes (b : List (Nat × Byte)) (o n : Nat) : List Byte := (List.range n).map fun i => agetD b (o + i) 0

/-- The identity of some helper data. -/
def Tr.identify (h : List Byte) : Tr :=
  .seq [
    .retry,
    .boot fun b => { b with idHelper := h, idPub := some ((List.range 1952).map (Config.identityKey h)) },
    .fld SEC_STATUS SEC_STATUS_IDENTITY HD 1]

/-- An identity command in AWAIT, the first of this Dawn that succeeds. -/
def Tr.identityCmd (k : Tr) : Tr :=
  .mgmtCmd false (.read fun d =>
    if d.u.boot.idPub.isSome then .mgmtErr 2 else if d.inPhase 2 then k else .mgmtErr 4)

/-- IDENTITY: helper data that fail their check, or that the PUF's state cannot be reconciled with (R674: which is open), are
refused. -/
def identityTr : Tr :=
  .identityCmd (.read fun d => .fresh fun i =>
    let h := bufBytes d.u.boot.helper 0 4096
    if Config.helperGood h && !(d.u.boot.pufBad && Config.freeBit i) then .identify h
    else .seq [.mgmtErr 3, .hold 9 0])
/-- IDENTITY. -/
def execIdentity (s : State) := run identityTr s

/-- ENROLL: fresh helper data. -/
def enrollTr : Tr :=
  .identityCmd (.fresh fun n =>
    let h := (List.range 4096).map (Config.enrolData n)
    .seq [
      .boot fun b => { b with helper := h.zipIdx.map fun e => (e.2, e.1) },
      .identify h, .fld SEC_STATUS SEC_STATUS_ENROLLED HD 1])
/-- ENROLL. -/
def execEnroll (s : State) := run enrollTr s

/-! ## Images (R644 to R650) -/

/-- An image command: refused before an identity, and outside AWAIT (R642). -/
def Tr.imageCmd (k : Tr) : Tr :=
  .mgmtCmd false (.read fun d =>
    if d.u.boot.idPub.isNone then .mgmtErr 2 else if d.inPhase 2 then .seq [.retry, k] else .mgmtErr 4)

/-- Phase VERIFY begins on an image of `n` bytes; the command executes until it ends (log 47). -/
def Tr.verifyBegins (n : Nat) (fabric : Bool) : Tr :=
  .seq [.setPhase 3, .mgmtBusy true, .boot fun b => { b with imageLen := n, fabricBoot := fabric }]

/-- IMAGE_READY (R644). -/
def execImageReady (length : BitVec 56) (s : State) := run (.imageCmd (.verifyBegins length.toNat false)) s

/-- FABRIC_BOOT (R647): the transport reads end with a status, or bring `image`. -/
def fabricBootTr (status : BitVec 16) (image : List Byte) : Tr :=
  .imageCmd (.read fun d =>
    let n := d.fld BOOT_FABRIC_LEN BOOT_FABRIC_LEN_VALUE HD
    if status.toNat ≠ stOK then .hold 8 status.toNat
    else .seq [
      .boot fun b => { b with staging := (image.take (min n (64 * 2 ^ 20))).zipIdx.map fun e => (e.2, e.1) },
      .verifyBegins n true])
/-- FABRIC_BOOT. -/
def execFabricBoot (status : BitVec 16) (image : List Byte) (s : State) := run (fabricBootTr status image) s

/-- Whether bytes are all zero. -/
def allZero (bs : List Byte) : Bool := bs.all (· == 0)

/-- Entry `i` of an image's component table: 64 bytes. -/
def compEntry (img : List Byte) (i : Nat) : List Byte := (img.drop (2016 + 64 * i)).take 64

/-- The components of an image: type, offset, length and digest (R645). -/
def imageComps (img : List Byte) : List (Nat × Nat × Nat × List Byte) :=
  (List.range (leAt img 6 2)).map fun i =>
    let e := compEntry img i
    (leAt e 0 1, leAt e 8 8, leAt e 16 8, (e.drop 32).take 32)

/-- Step 1 of R648. -/
def imageFormGood (img : List Byte) (n : Nat) : Bool :=
  let nc := leAt img 6 2
  leAt img 0 4 == 0x4D414E31 && leAt img 4 2 == 1 && 6 ≤ nc && nc ≤ 32 && leAt img 16 8 == n && 8192 ≤ n && n ≤ 64 * 2 ^ 20 &&
    allZero ((img.drop 24).take 40) && allZero ((img.drop 7373).take 819) &&
    (List.range 32).all fun i =>
      let e := compEntry img i
      if i < nc then allZero ((e.drop 1).take 7) && allZero ((e.drop 24).take 8) else allZero e

/-- Step 4 of R648: types and places of the components (R645, R646). -/
def compsGood (cs : List (Nat × Nat × Nat × List Byte)) (n : Nat) : Bool :=
  let count := fun t => (cs.filter (·.1 = t)).length
  cs.all (fun c => 1 ≤ c.1 && c.1 ≤ 7 && c.2.1 % 4096 = 0 && 8192 ≤ c.2.1 && c.2.1 + c.2.2.1 ≤ n) &&
    (List.range 6).all (fun t => count (t + 1) = 1) && count 7 ≤ 1 &&
    cs.zipIdx.all fun (c, i) => cs.zipIdx.all fun (x, j) =>
      i = j || c.2.1 + c.2.2.1 ≤ x.2.1 || x.2.1 + x.2.2.1 ≤ c.2.1

/-- The first step of R648 that fails for an image of `n` bytes. -/
def imageFault (img : List Byte) (n : Nat) : Option Nat :=
  let signer := (img.drop 64).take 1952
  if !imageFormGood img n then some 1
  else if sha3 signer ≠ (List.range 32).map Config.rootDigest then some 2
  else if !Config.mldsaVerify signer (img.take 4064) ((img.drop 4064).take 3309) then some 3
  else if !compsGood (imageComps img) n then some 4
  else if !(imageComps img).all fun c => sha3 ((img.drop c.2.1).take c.2.2.1) = c.2.2.2 then some 5
  else none

/-- The staged image. -/
def Dev.image (d : Dev) : List Byte := bufBytes d.u.boot.staging 0 (min d.u.boot.imageLen (64 * 2 ^ 20))

/-- IMAGE_VERIFY_DONE (R648). -/
def imageVerifyDoneTr : Tr :=
  .read fun d => .when (d.inPhase 3) (.seq [
    .mgmtBusy false,
    match imageFault d.image d.u.boot.imageLen with
    | some n => .hold 7 n
    | none => .seq [
        .boot fun b => { b with
          version := leAt d.image 8 8, manifest := sha3 (d.image.take 4064), comps := imageComps d.image },
        .setPhase 4]])
/-- IMAGE_VERIFY_DONE. -/
def execImageVerifyDone (s : State) := run imageVerifyDoneTr s

/-- A component's bytes stored at a local address. -/
def Tr.placeComp (img : List Byte) (c : Nat × Nat × Nat × List Byte) (la : Nat) : Tr :=
  .seq [.rawStore la ((img.drop c.2.1).take c.2.2.1), .clearSectors la c.2.2.1]

/-- FAB_ID as a register. -/
def Dev.fabId (d : Dev) : Nat := (d.reg FAB_ID HD).toNat

/-- The effective capability word. -/
def Dev.effWord (d : Dev) : Nat := (d.reg BOOT_CAP_EFF_LO HD).toNat + (d.reg BOOT_CAP_EFF_HI HD).toNat * 2 ^ 64

/-- IMAGE_LOAD_DONE (R650): the components are placed. `ingAt` and `collAt`: where the custodian puts types 4 and 5 in the HBM
of each tensor die, which the spec leaves to it; a port die's COLL_ASSIST_IMAGE names the copy on its lower-numbered
tensor die (log 45). -/
def imageLoadDoneTr (ingAt collAt : List (BitVec 41)) : Tr :=
  .read fun d => .when (d.inPhase 4) (
    let comp := fun t => d.u.boot.comps.find? (·.1 = t)
    let len := fun t => match comp t with | some c => c.2.2.1 | none => 0
    let up := fun (n k : Nat) => cdiv n k * k
    let osAt := up (len 2) (2 * 2 ^ 20)
    let info := up (if (comp 7).isSome then osAt + len 7 else len 2) 4096
    let place := fun (t : Nat) (a : Nat) => Tr.opt (comp t) fun c => Tr.placeComp d.image c a
    let where_ := fun t => if t = 2 then 0 else if t = 7 then osAt else if t = 4 then (ingAt.getD 0 0).toNat
      else if t = 5 then (collAt.getD 0 0).toNat else 0
    let listed := d.u.boot.comps.map fun c => (c.1, where_ c.1, c.2.2.1, c.2.2.2)
    .seq [
      .each tds fun t => .seq [place 4 (ingAt.getD t 0).toNat, place 5 (collAt.getD t 0).toNat,
        .fld ING_IMAGE ING_IMAGE_BASE t (d.globalOf (ingAt.getD t 0).toNat / 4096)],
      .each [5, 6] fun p => .fld COLL_ASSIST_IMAGE COLL_ASSIST_IMAGE_BASE p (d.globalOf (collAt.getD (2 * (p - 5)) 0).toNat / 4096),
      place 2 0, place 7 osAt,
      .rawStore info ((List.range 4096).map (Config.bootInfo listed d.effWord d.fabId)), .clearSectors info 4096,
      .reg BOOT_INFO HD (w64 info),
      .setPhase 5])
/-- IMAGE_LOAD_DONE. -/
def execImageLoadDone (ingAt collAt : List (BitVec 41)) (s : State) := run (imageLoadDoneTr ingAt collAt) s

/-! ## Attestation (R665) -/

/-- The nonce in SEC_NONCE_0 to SEC_NONCE_3. -/
def Dev.nonce (d : Dev) : List Byte := (List.range 4).flatMap fun k => leBytes 8 (d.reg SEC_NONCE HD k).toNat

/-- A report is requested. -/
def Tr.attest (toMem : Bool) : Tr :=
  .read fun d => .boot fun b => { b with atts := b.atts ++ [{ nonce := d.nonce, toMem := toMem }] }

/-- ATTEST: once an identity is derived; the command executes until its report is done (log 47). -/
def attestTr : Tr :=
  .mgmtCmd false (.read fun d =>
    if d.u.boot.idPub.isNone then .mgmtErr 2 else .seq [.mgmtBusy true, .attest false])
/-- ATTEST. -/
def execAttest (s : State) := run attestTr s

/-- SEC_ATT_GO: a write of GO by host-die firmware, in M-mode; one while GO is 1 asks for nothing more. -/
def secAttGoTr (who : Requester) : Tr :=
  .read fun d => .when (who = .hostM && d.awake && !d.flag SEC_ATT_CTL SEC_ATT_CTL_GO HD)
    (.seq [.fld SEC_ATT_CTL SEC_ATT_CTL_GO HD 1, .attest true])
/-- SEC_ATT_GO. -/
def execSecAttGo (who : Requester) (s : State) := run (secAttGoTr who) s

/-- Bytes 0 to 2,431 of a report. -/
def Dev.reportBody (d : Dev) (nonce : List Byte) : List Byte :=
  let b := d.u.boot
  let digest := fun t => match b.comps.find? (·.1 = t) with | some c => c.2.2.2 | none => leBytes 32 0
  let flags := b01 (d.flag SEC_STATUS SEC_STATUS_DEBUG_SEEN HD) + b01 (d.flag SEC_STATUS SEC_STATUS_ENROLLED HD) * 2 +
    b01 b.fabricBoot * 4 + b01 (d.flag TIME_STATUS TIME_STATUS_VALID HD) * 8
  leBytes 4 0x41545331 ++ leBytes 2 1 ++ leBytes 2 5741 ++ leBytes 8 d.nowNs ++ nonce ++ leBytes 8 b.version ++ leBytes 8 flags ++
    leBytes 16 d.effWord ++ (List.range 7).flatMap (fun n => leBytes 16 (d.capWord n)) ++
    (if b.manifest.isEmpty then leBytes 32 0 else b.manifest) ++ (List.range 7).flatMap (fun t => digest (t + 1)) ++
    b.idPub.getD [] ++ leBytes 8 d.fabId ++ leBytes 24 0

/-- Bytes that the custodian writes at a global address, in pieces of 64 bytes; to another package by transport writes. -/
def Tr.custodianWrite (ga : Nat) (bs : List Byte) : Tr :=
  .read fun d =>
    if d.isRemote ga then .each (sectorParts (localOf ga) bs) fun (a, p) =>
      .post HD { plane := 0, op := 2, dst := pkgOf ga, la := a, len := p.length, data := p, ordered := true, own := .nobody }
    else .when (!inMmio (localOf ga)) (.cohWrite agHost HD (localOf ga) bs (fun _ => false) fun _ => .skip)

/-- ATTEST_REPORT_DONE: the oldest request's report is signed and readable; in memory MAGIC is written last. -/
def attestReportDoneTr : Tr :=
  .read fun d => .opt d.u.boot.atts.head? fun a =>
    let body := d.reportBody a.nonce
    let r := body ++ (List.range 3309).map (Config.mldsaSign d.u.boot.idHelper body)
    let ga := d.fld SEC_ATT_ADDR SEC_ATT_ADDR_ADDR HD * 64
    .seq [
      .boot fun b => { b with report := r, atts := b.atts.drop 1 },
      .fld SEC_STATUS SEC_STATUS_REPORT HD 1,
      if a.toMem then .seq [
        .custodianWrite (ga + 4) (r.drop 4), .custodianWrite ga (r.take 4), .fld SEC_ATT_CTL SEC_ATT_CTL_GO HD 0]
      else .mgmtBusy false]
/-- ATTEST_REPORT_DONE. -/
def execAttestReportDone (s : State) := run attestReportDoneTr s

end Sys2Proof.Machine
end

