-- ==== Sys2Proof/Machine/Mgmt.lean ====
section
/-! DEFINITION. The management port's data window (R653, R654), leases (R657), its Ethernet interface (R652) and its mailbox
(R655). -/

namespace Sys2Proof.Machine

/-! ## The data window (R654) -/

/-- CRC-32C (R310) continued over more bytes. -/
def crcMore (crc : Nat) (bs : List Byte) : Nat :=
  let step := fun (c : Nat) => if c % 2 = 1 then (c / 2) ^^^ 0x82F63B78 else c / 2
  (bs.foldl (fun c b => (List.range 8).foldl (fun c _ => step c) (c ^^^ b.toNat)) (crc ^^^ 0xFFFFFFFF)) ^^^ 0xFFFFFFFF

/-- MGMT_DW_ADDR_WRITE: OFFSET is a multiple of 8, so its low three bits stay 0 (log 48). -/
def mgmtDwAddrTr (v : Word) : Tr :=
  .seq [.reg MGMT_DW_ADDR HD (w64 (v.toNat / 8 * 8)), .reg MGMT_DW_CRC HD 0]
/-- MGMT_DW_ADDR_WRITE. -/
def execMgmtDwAddrWrite (v : Word) (s : State) := run (mgmtDwAddrTr v) s

/-- Bytes of a target. -/
def dwSize : Nat → Nat
  | 0 => 64 * 2 ^ 20 | 1 => 4096 | 2 => 1952 | 3 => 5744 | 4 => 32 | _ => 0

/-- Whether a target is open for a write, or a read, of 8 bytes at an offset. A read of the write-only target moves eight
zero bytes while the target is open (log 48). -/
def Dev.dwOpen (d : Dev) (t o : Nat) (write : Bool) : Bool :=
  o + 8 ≤ dwSize t &&
    match t with
    | 0 => d.inPhase 2
    | 1 => if write then d.inPhase 2 && d.u.boot.idPub.isNone else d.flag SEC_STATUS SEC_STATUS_ENROLLED HD
    | 2 => !write && d.u.boot.idPub.isSome
    | 3 => !write && !d.u.boot.report.isEmpty
    | 4 => d.inPhase 2 || d.inPhase 5
    | _ => false

/-- The 8 bytes of a target at an offset, as a read sees them. -/
def Dev.dwBytes (d : Dev) (t o : Nat) : List Byte :=
  let b := d.u.boot
  let at_ := fun (l : List Byte) => (List.range 8).map fun i => l.getD (o + i) 0
  match t with
  | 0 => bufBytes b.staging o 8
  | 1 => bufBytes b.helper o 8
  | 2 => at_ (b.idPub.getD [])
  | 3 => at_ b.report
  | _ => leBytes 8 0

/-- An access to MGMT_DW_DATA moves 8 bytes: the CRC takes them, and the offset advances. -/
def Tr.dwMoved (bs : List Byte) : Tr :=
  .read fun d => .seq [
    .reg MGMT_DW_CRC HD (w64 (crcMore (d.reg MGMT_DW_CRC HD).toNat bs)),
    .fld MGMT_DW_ADDR MGMT_DW_ADDR_OFFSET HD (d.fld MGMT_DW_ADDR MGMT_DW_ADDR_OFFSET HD + 8)]

/-- The target and offset of MGMT_DW_ADDR. -/
def Dev.dwAt (d : Dev) : Nat × Nat := (d.fld MGMT_DW_ADDR MGMT_DW_ADDR_TARGET HD, d.fld MGMT_DW_ADDR MGMT_DW_ADDR_OFFSET HD)

/-- MGMT_DW_DATA_WRITE. -/
def mgmtDwWriteTr (v : Word) : Tr :=
  .read fun d =>
    let (t, o) := d.dwAt
    let bs := leBytes 8 v.toNat
    let put := fun (l : List (Nat × Byte)) => bs.zipIdx.foldl (fun l e => tinsert l (o + e.2) e.1) l
    if !d.dwOpen t o true then .fld MGMT_CMD_STATUS MGMT_CMD_STATUS_DW_ERR HD 1
    else .seq [
      match t with
      | 0 => .boot fun b => { b with staging := put b.staging }
      | 1 => .boot fun b => { b with helper := put b.helper }
      | _ => .seq [
          .boot fun b => { b with leaseKey := some (bufBytes (put ((b.leaseKey.getD (leBytes 32 0)).zipIdx.map fun e => (e.2, e.1))) 0 32) },
          .fld MGMT_LEASE_CFG MGMT_LEASE_CFG_KEY_SET HD 1],
      .dwMoved bs]
/-- MGMT_DW_DATA_WRITE. -/
def execMgmtDwDataWrite (v : Word) (s : State) := run (mgmtDwWriteTr v) s

/-- MGMT_DW_DATA_READ. -/
def Tr.readDw (k : Word → Tr) : Tr :=
  .read fun d =>
    let (t, o) := d.dwAt
    if !d.dwOpen t o false then .seq [.fld MGMT_CMD_STATUS MGMT_CMD_STATUS_DW_ERR HD 1, k 0]
    else .seq [.dwMoved (d.dwBytes t o), k (w64 (leNat (d.dwBytes t o)))]
/-- MGMT_DW_DATA_READ. -/
def execMgmtDwDataRead (s : State) := run (.readDw .answer) s

/-! ## Leases (R657) -/

/-- LEASE_GRANT: a management-port write of MGMT_LEASE. -/
def execLeaseGrant (v : Word) (s : State) := run (.grantLease (MGMT_LEASE_GRANT_MS.get v)) s

/-- A lease message: its fields are right, its counter is new, and its tag is right under the lease key. -/
def Dev.leaseGood (d : Dev) (m : List Byte) : Bool :=
  match d.u.boot.leaseKey with
  | none => false
  | some key =>
    m.length = 64 && leAt m 0 4 = 0x4C454153 && leAt m 4 2 = 1 && leAt m 6 2 = 0 && d.u.boot.lastCounter < leAt m 8 8 &&
      0 < leAt m 16 4 && leAt m 16 4 ≤ 600000 && leAt m 20 12 = 0 && m.drop 32 = hmacSha3 key (m.take 32)

/-- A lease message grants the lease, or is refused and counted. -/
def Tr.leaseMessage (m : List Byte) : Tr :=
  .read fun d =>
    if d.leaseGood m then .seq [.boot fun b => { b with lastCounter := leAt m 8 8 }, .grantLease (leAt m 16 4)]
    else .count MGMT_LEASE_CFG MGMT_LEASE_CFG_REFUSED HD 1

/-! ## Management Ethernet (R652) -/

/-- The port's own address: 4 or 16 bytes. -/
def Dev.mgmtIp (d : Dev) : List Byte :=
  if d.flag MGMT_ETH_CFG MGMT_ETH_CFG_IPV6 HD then
    beBytes 8 (d.reg MGMT_ETH_IP_HI HD).toNat ++ beBytes 8 (d.reg MGMT_ETH_IP_LO HD).toNat
  else beBytes 4 ((d.reg MGMT_ETH_IP_LO HD).toNat % 2 ^ 32)

/-- The station address. -/
def Dev.mgmtMac (d : Dev) : List Byte := beBytes 6 (d.fld MGMT_ETH_MAC MGMT_ETH_MAC_MAC HD)

/-- The UDP datagram of a frame addressed to the port, with its source address. -/
def Dev.mgmtUdp (d : Dev) (f : List Byte) : Option (List Byte × List Byte) :=
  let b := f.drop 14
  if f.take 6 ≠ d.mgmtMac then none
  else if d.flag MGMT_ETH_CFG MGMT_ETH_CFG_IPV6 HD then
    if beAt f 12 2 = 0x86DD && beAt b 0 1 / 16 = 6 && beAt b 6 1 = 17 && (b.drop 24).take 16 = d.mgmtIp then
      some ((b.drop 40).take (beAt b 4 2), (b.drop 8).take 16)
    else none
  else if beAt f 12 2 = 0x0800 && beAt b 0 1 = 0x45 && inetSum (b.take 20) 0 = 65535 && beAt b 6 2 % 2 ^ 14 = 0 &&
      beAt b 9 1 = 17 && (b.drop 16).take 4 = d.mgmtIp then
    some ((b.drop 20).take (beAt b 2 2 - 20), (b.drop 12).take 4)
  else none

/-- The lease message that a frame carries. -/
def Dev.leaseOf (d : Dev) (f : List Byte) : Option (List Byte) :=
  match d.mgmtUdp f with
  | none => none
  | some (u, src) =>
    if beAt u 2 2 ≠ d.fld MGMT_ETH_CFG MGMT_ETH_CFG_LEASE_PORT HD || beAt u 4 2 ≠ u.length ||
        (beAt u 6 2 ≠ 0 && inetSum (src ++ d.mgmtIp ++ beBytes 2 17 ++ beBytes 2 u.length ++ u) 0 ≠ 65535) then none
    else some (u.drop 8)

/-- The answer to an ARP request or a neighbour solicitation for the port's own address. -/
def Dev.mgmtReply (d : Dev) (f : List Byte) : Option (List Byte) :=
  let b := f.drop 14
  let own := d.mgmtIp
  let v6 := d.flag MGMT_ETH_CFG MGMT_ETH_CFG_IPV6 HD
  let head := fun (type : Nat) => (f.drop 6).take 6 ++ d.mgmtMac ++ beBytes 2 type
  if !v6 && beAt f 12 2 = 0x0806 && beAt b 0 8 = 0x0001080006040001 && (b.drop 24).take 4 = own then
    some (head 0x0806 ++ beBytes 8 0x0001080006040002 ++ d.mgmtMac ++ own ++ (b.drop 8).take 10)
  else if v6 && beAt f 12 2 = 0x86DD && beAt b 0 1 / 16 = 6 && beAt b 6 1 = 58 && beAt b 40 1 = 135 && (b.drop 48).take 16 = own then
    let asker := (b.drop 8).take 16
    let m := fun (c : Nat) => beBytes 2 0x8800 ++ beBytes 2 c ++ beBytes 4 0x60000000 ++ own ++ beBytes 2 0x0201 ++ d.mgmtMac
    let c := inetCheck (own ++ asker ++ beBytes 4 32 ++ beBytes 4 58 ++ m 0)
    some (head 0x86DD ++ beBytes 4 0x60000000 ++ beBytes 2 32 ++ beBytes 1 58 ++ beBytes 1 255 ++ own ++ asker ++ m c)
  else none

/-- LEASE_MESSAGE: a frame, without its FCS, on the management Ethernet port. It carries a lease message, or asks for the
port's address; every other frame is discarded (PTP frames come as PTP_MESSAGE). -/
def leaseMessageTr (frame : List Byte) : Tr :=
  .read fun d => .when (d.flag MGMT_ETH_CFG MGMT_ETH_CFG_EN HD) (
    match d.leaseOf frame with
    | some m => .leaseMessage m
    | none => .opt (d.mgmtReply frame) fun r => .boot fun b => { b with ethTx := b.ethTx ++ [r] })
/-- LEASE_MESSAGE. -/
def execLeaseMessage (frame : List Byte) (s : State) := run (leaseMessageTr frame) s

/-! ## The mailbox (R655) -/

/-- MGMT_MAILBOX_GO: a write of GO = 1 by the management port; refused in Dawn. -/
def mgmtMailboxGoTr (who : Requester) : Tr :=
  .read fun d =>
    .when (who = .mgmt && d.awake && !d.flag MGMT_MB_CTL MGMT_MB_CTL_GO HD) (.seq [
      .fld MGMT_MB_CTL MGMT_MB_CTL_GO HD 1,
      .mailbox .mgmt ((List.range 8).flatMap fun i => leBytes 8 (d.reg MGMT_MB_PKT HD i).toNat)])
/-- MGMT_MAILBOX_GO. -/
def execMgmtMailboxGo (who : Requester) (s : State) := run (mgmtMailboxGoTr who) s

end Sys2Proof.Machine
end

