-- ==== Sys2Proof/Machine/Reg.lean ====
section
/-! DEFINITION. Accesses to the CSR windows (R6 to R9, R41, R42, R44, R640, R653): what a read returns and what a write does,
for every register. -/

namespace Sys2Proof.Machine

/-! ## Reads -/

/-- How many of a list satisfy a test. -/
def countP (n : Nat) (p : Nat → Bool) : Nat := (List.range n).countP p

/-- The code of a thread state (R99). -/
def TState.code : TState → Nat
  | .idle => 0 | .ready => 1 | .waitDep => 2 | .waitMem => 3 | .sleep => 4 | .barrier => 5 | .ended => 6 | .trapped => 7

/-- Tile registers with a pending count, as a mask (R105). -/
def pendMask (t : List (Nat × Nat)) : Nat := t.foldl (fun m e => if e.2 = 0 || m.testBit e.1 then m else m + 2 ^ e.1) 0

/-- CELL_STATUS of a tensor die: its physical cells by state (R87); zero until self-test ends. -/
def Dev.cellStatus (d : Dev) (die : Nat) : Word :=
  if d.state = 1 && d.phase < 2 then 0
  else
    let n := fun st => countP 168 fun p => d.unitSt (ukey 0 die p) = st
    w64 ((n 0 + n 5) + n 1 * 2 ^ 8 + n 2 * 2 ^ 16 + n 3 * 2 ^ 24 + n 4 * 2 ^ 32)

/-- CELL_THREADS of a physical cell (R99). -/
def Dev.cellThreads (d : Dev) (pk : Nat) : Word :=
  w64 ((List.range 16).foldl (fun n t => n + (d.threadAt pk t).st.code * 2 ^ (3 * t)) 0)

/-- CELL_ROLE: NEXT is the role that accepted CTL_ROLE commands name for the next beat, while it awaits its edge. The work
list of a beat is read at the edge that begins it (R469), so no role of a work list waits (log 69). -/
def Dev.cellRole (d : Dev) (die p : Nat) : Word :=
  let v := d.reg CELL_ROLE die p
  match roleNamed (d.unitLogical (ukey 0 die p)) (d.ctlDue (d.beatIdx + 1)) [] with
  | some r => CELL_ROLE_NEXT_VALID.put (CELL_ROLE_NEXT.put v r) (b01 (r ≠ CELL_ROLE_ROLE.get v))
  | none => v

/-- TILE_WINDOW_t of a physical cell (R106 to R109). -/
def Dev.tileWindow (d : Dev) (pk t : Nat) : Word :=
  let th := d.threadAt pk t
  w64 (th.wbase + th.wsize * 2 ^ 8 + b01 th.valid * 2 ^ 16)

/-- CMD_STATUS of a tensor die (R448, R459). -/
def Dev.cmdStatus (d : Dev) (die : Nat) : Word :=
  let mine := d.u.cmd.cmds.filter fun c =>
    (match c.src with | .queue q => qDie q.val = die | _ => false) && opFirmware c.op && c.stage ≠ 1
  let held := d.u.cmd.waiting.filter (·.die = die)
  w64 (min 4 mine.length + (d.onQueues die).length * 2 ^ 16 + min 4096 held.length * 2 ^ 32)

/-- The valid groups of a tensor die (R473). -/
def Dev.dieGroups (d : Dev) (die : Nat) : List Group := (d.u.groups.filter fun e => e.1 / 1024 = die).map (·.2)

/-- UPD_STATUS of a tensor die. -/
def Dev.updStatus (d : Dev) (die : Nat) : Word :=
  let gs := d.dieGroups die
  let waits := d.u.cmd.cmds.any fun c => c.op = 0x3A && c.stage = 1 && c.dies.contains die
  w64 (b01 (gs.any (·.skipSeen)) + b01 waits * 2 + gs.length * 2 ^ 16)

/-- The group that UPD_GRP_SEL shows. -/
def Dev.selGroup (d : Dev) (die : Nat) : Option Group := d.group? die (d.fld UPD_GRP_SEL UPD_GRP_SEL_GROUP die)

/-- UPD_GRP_STATE of a tensor die; zero for an invalid group. -/
def Dev.updGrpState (d : Dev) (die : Nat) : Word :=
  (d.selGroup die).elim 0 fun g => w64 (1 + g.rule * 2 + b01 g.isLazy * 8 + b01 g.skipSeen * 16 + g.etaRes * 2 ^ 32)

/-- SPARE_UNIT (R634). -/
def Dev.spareUnit (d : Dev) : Word :=
  match d.selUnit with
  | none => w64 (2 ^ 5 + 0xFFFF * 2 ^ 16)
  | some k =>
    let u := d.u.spare.unit k
    let waits := d.u.spare.deferred.any fun x => d.deferredUnit x = some k
    w64 (u.st + b01 u.due.isSome * 8 + b01 waits * 16 + d.unitLogical k * 2 ^ 16)

/-- SPARE_DEFER_STATUS. -/
def Dev.deferStatus (d : Dev) : Word :=
  let due := d.u.spare.units.filter fun e => e.2.due.isSome && e.2.st = 0
  w64 (d.u.spare.deferred.length + due.length * 2 ^ 16)

/-- SPARE_POOL_d: spares of the die's pooled kind, its repair ways, and its unbacked cells; zero until self-test ends. -/
def Dev.sparePool (d : Dev) (die : Nat) : Word :=
  if d.state = 1 && d.phase < 2 then 0
  else
    let (kind, n) := if die < 4 then (0, 168) else if die = 4 then (1, 104) else (2, 136)
    let num := fun st => countP n fun p => d.unitSt (ukey kind die p) = st
    let unbacked := if die < 4 then (d.u.spare.unbacked.filter (· / 160 = die)).length else 0
    let cache := if die < 4 then countP 18 fun p => d.unitSt (ukey 4 die p) = 1 else 0
    let dir := if die < 5 then countP 17 fun p => d.unitSt (ukey 5 die (die * 256 + p)) = 1 else 0
    w64 (num 1 + num 2 * 2 ^ 8 + num 3 * 2 ^ 16 + unbacked * 2 ^ 24 + cache * 2 ^ 32 + dir * 2 ^ 36)

/-- ARB_STATUS of an instance: REQUESTERS by R593, WINDOW_POS from the time its window began. -/
def Dev.arbStatus (d : Dev) (die i : Nat) : Word :=
  let v := ARB_STATUS_REQUESTERS.put (d.reg ARB_STATUS die i) (arbRequesters die i)
  if arbRequesters die i = 0 then 0
  else ARB_STATUS_WINDOW_POS.put v (min 0xFFFF ((d.elapsed - (d.arb die i).since) * 1880 / oneUs))

/-- MEM_ILV_STATUS with the lowest region index whose change is pending (R40). -/
def Dev.ilvStatus (d : Dev) : Word :=
  let pending := fun i =>
    if i < 128 then (d.reg MEM_ILV_REQ HD (i / 64) ^^^ d.reg MEM_ILV_CUR HD (i / 64)).toNat.testBit (i % 64)
    else (d.reg MEM_ILV_REQ_TOP HD ^^^ d.reg MEM_ILV_CUR_TOP HD).toNat.testBit (i % 64)
  MEM_ILV_STATUS_FIRST_PENDING.put (d.reg MEM_ILV_STATUS HD) (((List.range 144).find? pending).getD 0)

/-- What register `r` of a die holds as a read sees it, WO fields aside: registers that show other state are computed. -/
def Dev.shown (d : Dev) (r : Reg) (die i j : Nat) : Word :=
  let v := d.reg r die i j
  let b := r.base
  if b = ARB_STATUS.base then d.arbStatus die i
  else if die < 4 && b = CELL_STATUS.base then d.cellStatus die
  else if die < 4 && b = CELL_ROLE.base then d.cellRole die i
  else if die < 4 && b = CELL_THREADS.base then d.cellThreads (die * 168 + i)
  else if die < 4 && b = TILE_WINDOW.base then d.tileWindow (die * 168 + i) j
  else if die < 4 && b = TILE_SCOREBOARD_R.base then w64 (pendMask (d.cellAt (die * 168 + i)).pendR)
  else if die < 4 && b = TILE_SCOREBOARD_W.base then w64 (pendMask (d.cellAt (die * 168 + i)).pendW)
  else if die < 4 && b = CMD_STATUS.base then d.cmdStatus die
  else if die < 4 && b = UPD_STATUS.base then d.updStatus die
  else if die < 4 && b = UPD_GRP_STATE.base then d.updGrpState die
  else if die < 4 && b = UPD_GRP_STEP.base then (d.selGroup die).elim 0 fun g => w64 g.n
  else if die < 4 && b = UPD_GRP_EPOCH.base then (d.selGroup die).elim 0 fun g => w64 g.e
  else if die < 4 && b = ROUTE_CTL.base then if d.dieFeature die 114 then v else ROUTE_CTL_PRED_EN.put v 0
  else if die < 4 && b = SPARSE_CTL.base then if d.dieFeature die 113 then v else SPARSE_CTL_EN_14.put v 0
  else if die < 5 && b = COH_CTL.base then if d.pkgFeature 65 then v else COH_CTL_ATOM_MODE.put v 1
  else if die = HD && b = BEAT_WALL.base then if d.runBit then w64 d.wall else 0
  else if die = HD && b = SPARE_UNIT.base then d.spareUnit
  else if die = HD && b = SPARE_PATINA.base then (d.selUnit).elim 0 fun k => w64 (d.u.spare.unit k).patina
  else if die = HD && b = SPARE_DEFER_STATUS.base then d.deferStatus
  else if die = HD && b = SPARE_POOL.base then d.sparePool i
  else if die = HD && b = MGMT_LEASE.base then w64 (d.leaseLeft / oneMs * 2 ^ 32)
  else if die = HD && b = CKPT_STATUS.base then CKPT_STATUS_CLEAN.put v (b01 d.u.ckpt.clean)
  else if die = HD && b = MEM_ILV_STATUS.base then d.ilvStatus
  else v

/-- Registers that only the management port writes (R653): MGMT_CMD, MGMT_DW_ADDR, MGMT_DW_DATA, MGMT_LEASE,
MGMT_LEASE_CFG, MGMT_ETH_ and MGMT_MB_. -/
def mgmtWrites (die off : Nat) : Bool :=
  die = HD && (off = 0x400 || off = 0x410 || off = 0x418 || (0x438 ≤ off && off < 0x500))

/-- The MGMT_ and SEC_ registers (R653). -/
def mgmtReads (die off : Nat) : Bool := die = HD && 0x400 ≤ off && off < 0x800

/-- The registers of the firmware mailbox (R468). -/
def fwRegs (die off : Nat) : Bool := die = HD && 0x3800 ≤ off && off < 0x3858

/-- Whether a requester's accesses to a CSR window are served at all: not in Night, and by the management port only in HD's
window before phase AWAIT (R640). -/
def Dev.csrOpen (d : Dev) (die : Nat) (who : Requester) : Bool :=
  d.state ≠ 0 && !(who = .mgmt && die ≠ HD && d.state = 1 && d.phase < 2)

/-- Whether a read of an offset responds to a requester (R468, R653). -/
def Dev.mayRead (d : Dev) (die off : Nat) (who : Requester) : Bool :=
  d.csrOpen die who && (!mgmtReads die off || who = .mgmt || who = .hostM || who = .custodian) &&
    (!fwRegs die off || who = .hostM || who = .custodian)

/-- A naturally aligned 64-bit read of offset `off` of a CSR window; an unassigned offset reads zero. -/
def Tr.regRead (die off : Nat) (who : Requester) (k : Word → Tr) : Tr :=
  .read fun d =>
    if !d.mayRead die off who then k 0
    else if die = HD && off = TIME_NOW.base then .readTimeNow k
    else if die = HD && off = MGMT_DW_DATA.base then .readDw k
    else match findReg die off with
      | none => k 0
      | some (r, i, j) => k (r.readVal (d.shown r die i j))

/-! ## Writes -/

/-- MGMT_CMD: the command of CODE with its ARG (R666). FABRIC_BOOT is a command of its own, with what the fabric brings
(log 51). -/
def Tr.mgmtCode (v : Word) : Tr :=
  match MGMT_CMD_CODE.get v with
  | 1 => identityTr
  | 2 => enrollTr
  | 3 => .imageCmd (.verifyBegins (MGMT_CMD_ARG.get v) false)
  | 4 => .skip
  | 5 => .duskCmd false
  | 6 => .duskCmd true
  | 7 => resetNowTr
  | 8 => debugOnTr
  | 9 => attestTr
  | n => mgmtCmdUnknownTr (BitVec.ofNat 8 n)

/-- Registers whose writes take effect at the next beat edge (R71, R180, R204, R308, R332, R351). -/
def stagedAtEdge (die b : Nat) : Bool :=
  die < 4 && [VEC_CENSUS_BASE.base, VEC_CENSUS_CFG.base, MTX_CTL.base, SPARSE_CTL.base, VEC_CTL.base, STRM_CTL.base,
    MEM_CTL.base, VQ_RANGE_BASE.base, VQ_RANGE_LIMIT.base].contains b

/-- A write of a register of HD that does more than set its fields; none for the others. -/
def hdWrite (b i : Nat) (v : Word) (who : Requester) : Option Tr :=
  if b = TIME_SET.base then some (timeSetTr v)
  else if b = TIME_STEP.base then some (timeStepTr v)
  else if b = TIME_RATE.base then some (.setAdj (v.toNat % 2 ^ 40))
  else if b = TIME_CTL.base then some (timeCtlTr v)
  else if b = BEAT_CTL.base then some (if bitOf v.toNat 0 then .runStart v else .runStop v)
  else if b = BEAT_PLAN_START.base then some (planCommitTr v)
  else if b = MEM_ILV_REQ.base then some (.seq [.guardedWrite MEM_ILV_REQ HD v i, .ilvPending])
  else if b = MEM_ILV_REQ_TOP.base then some (.seq [.guardedWrite MEM_ILV_REQ_TOP HD v, .ilvPending])
  else if b = MEM_BULK_CFG.base then some (bulkEnableTr (Fin.ofNat 8 i) v)
  else if b = MEM_RETIRE_ADD_HD.base then some (memRetireAddTr 4 v)
  else if b = FAB_ID.base then some (fabIdWriteTr v)
  else if b = CMD_FW_CTL.base then some (.when (bitOf v.toNat 0) (fwMailboxGoTr who))
  else if b = SPARE_PATINA.base then some (sparePatinaWriteTr v)
  else if b = BOOT_HOST_WDOG.base then some (hostWdogKickTr v)
  else if b = MGMT_CMD.base then some (.mgmtCode v)
  else if b = MGMT_DW_ADDR.base then some (mgmtDwAddrTr v)
  else if b = MGMT_DW_DATA.base then some (mgmtDwWriteTr v)
  else if b = MGMT_LEASE.base then some (.grantLease (MGMT_LEASE_GRANT_MS.get v))
  else if b = MGMT_MB_CTL.base then some (.when (bitOf v.toNat 0) (mgmtMailboxGoTr who))
  else if b = SEC_ATT_CTL.base then some (.when (bitOf v.toNat 0) (secAttGoTr who))
  else none

/-- XLAT_FQ_RESP (R429): RETRY or ABORT of a record; a reserved ACTION acts on nothing (log 52). -/
def Tr.fqRespWrite (die : Nat) (v : Word) : Tr :=
  match XLAT_FQ_RESP_ACTION.get v with
  | 0 => .fqResp die (XLAT_FQ_RESP_NUMBER.get v) none
  | 1 => .fqResp die (XLAT_FQ_RESP_NUMBER.get v) (some stTRANSLATION_ABORT)
  | _ => .skip

/-- XLAT_AS_CFG_n (R408). -/
def Tr.asCfgWrite (die n : Nat) (v : Word) : Tr :=
  if bitOf v.toNat 0 then .writeReg XLAT_AS_CFG die v n else asSlotInvalidTr (Fin.ofNat 4 die) (BitVec.ofNat 6 n) v

/-- A write of a register of a tensor die that does more than set its fields; none for the others. -/
def tdWrite (die b i : Nat) (v : Word) : Option Tr :=
  let q : QueueId := Fin.ofNat 65536 (die * 16384 + i)
  let block := fun (bad : Dev → Bool) (t : Tr) => some (Tr.read fun d => Tr.when (!bad d) t)
  if b = XLAT_AS_CFG.base then some (.asCfgWrite die i v)
  else if b = XLAT_AS_SATP.base then
    block (fun d => d.flag XLAT_AS_CFG XLAT_AS_CFG_VALID die i || XLAT_AS_SATP_MODE.get v ≠ 10) (.writeReg XLAT_AS_SATP die v i)
  else if b = XLAT_FQ_TAIL.base then some (.seq [.writeReg XLAT_FQ_TAIL die v, .fqStatus die])
  else if b = XLAT_FQ_RESP.base then some (.fqRespWrite die v)
  else if b = CMD_QCFG.base then some (.qcfgWrite q.val v)
  else if b = CMD_CQ_PTR.base then some (cqHeadWriteTr q v)
  else if b = CMD_SQ_BASE.base then block (·.flag CMD_QCFG CMD_QCFG_EN die i) (.writeReg CMD_SQ_BASE die v i)
  else if b = CMD_CQ_BASE.base then block (·.flag CMD_QCFG CMD_QCFG_EN die i) (.writeReg CMD_CQ_BASE die v i)
  else if b = ING_STAGE_BASE.base then block (·.fld ING_SLOT ING_SLOT_JOBS die i ≠ 0) (.writeReg ING_STAGE_BASE die v i)
  else if b = ING_STAGE_SIZE.base then block (·.fld ING_SLOT ING_SLOT_JOBS die i ≠ 0) (.writeReg ING_STAGE_SIZE die v i)
  else if b = MEM_RETIRE_ADD.base then some (memRetireAddTr (Fin.ofNat 7 die) v)
  else if b = SPARE_PPR_REQ.base then some (sparePprReqTr (Fin.ofNat 4 die) v)
  else none

/-- A write of a register of a port die that does more than set its fields; none for the others. -/
def pdWrite (die b i : Nat) (v : Word) : Option Tr :=
  if b = FAB_REMAP.base then some (fabRemapWriteTr (Fin.ofNat 2 (die - 5)) (BitVec.ofNat 15 i) v)
  else if b = FAB_PORT_CFG.base then some (portCfgWriteTr (Fin.ofNat 32 ((die - 5) * 16 + i)) v)
  else none

/-- ARB_CLASS_r: only a requester of the instance, and not requester 5 of a die-cache port, whose class R250 fixes. -/
def Tr.arbClassWrite (die i r : Nat) (v : Word) : Tr :=
  .when (r < arbRequesters die i && !(die < 4 && 192 ≤ i && i < 208 && r = 5)) (.guardedStaged ARB_CLASS die v i r)

/-- A write of a register that does more than set its fields; none for the others. -/
def specialWrite (die b i j : Nat) (v : Word) (who : Requester) : Option Tr :=
  if b = ARB_CFG.base then some (.when (0 < arbRequesters die i) (.guardedStaged ARB_CFG die v i))
  else if b = ARB_CLASS.base then some (.arbClassWrite die i j v)
  else if b = ARB_CTL.base then some (.arbCtlWrite die i v)
  else if die < 5 && b = XLAT_INV_CTL.base then some (xlatInvGoTr (Fin.ofNat 5 die) v)
  else if die = HD then hdWrite b i v who
  else if die < 4 then tdWrite die b i v
  else pdWrite die b i v

/-- Whether a write of an offset is taken from a requester (R468, R653). -/
def Dev.mayWrite (d : Dev) (die off : Nat) (who : Requester) : Bool :=
  d.csrOpen die who && (!mgmtWrites die off || who = .mgmt) && (!fwRegs die off || who = .hostM || who = .custodian)

/-- A naturally aligned 64-bit write of offset `off` of a CSR window; one of an unassigned offset is discarded. -/
def Tr.regWrite (die off : Nat) (v : Word) (who : Requester) : Tr :=
  .read fun d =>
    if !d.mayWrite die off who then .skip
    else match findReg die off with
      | none => .skip
      | some (r, i, j) =>
        match specialWrite die r.base i j v who with
        | some t => t
        | none => if stagedAtEdge die r.base then .guardedStaged r die v i j else .guardedWrite r die v i j

/-- REGISTER_WRITE (R6 to R9): a naturally aligned 64-bit store to a CSR window. -/
def execRegisterWrite (die : Die) (off : BitVec 24) (v : Word) (who : Requester) (s : State) :=
  run (.regWrite die.val off.toNat v who) s

/-- CSR_NARROW_ACCESS (R7): a load that is narrower than 64 bits or misaligned returns zero, a store of that kind is
discarded; the registers stay. -/
def csrNarrowTr (store : Option Word) : Tr := if store.isNone then .answer 0 else .skip
/-- CSR_NARROW_ACCESS. -/
def execCsrNarrowAccess (_die : Die) (_off : BitVec 24) (store : Option Word) (s : State) := run (csrNarrowTr store) s

/-! ## Register transfers (R652) -/

/-- One word of a transfer at a management address; `none` reads. An address that names no CSR window reads zero and
discards. -/
def Tr.mgmtWord (addr : Nat) (store : Option Word) : Tr :=
  let w := addr / 2 ^ 24
  let off := addr % 2 ^ 24
  let named := 1 ≤ w && w ≤ 7
  match store with
  | none => if named then .regRead (w - 1) off .mgmt .answer else .answer 0
  | some v => .when (named && off % 8 = 0) (.regWrite (w - 1) off v .mgmt)

/-- The address of the word after one at `addr`: it stays at MGMT_DW_DATA. -/
def mgmtNext (addr : Nat) : Nat := if addr = (HD + 1) * 2 ^ 24 + MGMT_DW_DATA.base then addr else (addr + 8) % 2 ^ 32

/-- The words of a transfer from `addr` on. -/
def Tr.mgmtWords : Nat → List (Option Word) → Tr
  | _, [] => .skip
  | addr, w :: ws => .seq [.mgmtWord addr w, .mgmtWords (mgmtNext addr) ws]

/-- Little-endian words of some bytes: data is in ascending byte order. -/
def wordsOf (bs : List Byte) : List (Option Word) := (List.range (bs.length / 8)).map fun i => some (w64 (leAt bs (8 * i) 8))

/-- REGISTER_TRANSFER (R652): a write of the bytes `store`, or a read of `len` bytes. The framing takes 8 to 4,096 bytes in
multiples of 8; any other transfer is discarded and sets BUS_ERR. -/
def registerTransferTr (addr : BitVec 32) (store : Option (List Byte)) (len : Nat) : Tr :=
  .read fun d =>
    let n := store.elim len (·.length)
    if d.state = 0 then .skip
    else if n < 8 || 4096 < n || n % 8 ≠ 0 then .fld MGMT_CMD_STATUS MGMT_CMD_STATUS_BUS_ERR HD 1
    else .mgmtWords addr.toNat (match store with | some bs => wordsOf bs | none => List.replicate (n / 8) none)
/-- REGISTER_TRANSFER. -/
def execRegisterTransfer (addr : BitVec 32) (store : Option (List Byte)) (len : Nat) (s : State) :=
  run (registerTransferTr addr store len) s

/-! ## The MMIO range (R41 to R44, R113, R321) -/

/-- The word of a debug window (R113): two elements of an accumulator tile of a physical cell, taken as they are. -/
def Dev.debugWord (d : Dev) (die off : Nat) : Word :=
  let p := off / 0x10000
  if die < 4 && p < 168 then w64 (leNat ((d.cellAt (die * 168 + p)).acc.slice (off % 0x10000 / 8 * 8) 8)) else 0

/-- Whether a die's debug window responds (R44, R664). -/
def Dev.debugMode (d : Dev) : Bool := d.flag BOOT_STATUS BOOT_STATUS_DEBUG HD

/-- DEBUG_WINDOW_ACCESS (R44, R113): a 64-bit load returns two elements; writes are discarded. Outside debug mode the window
is a hole (R35): nothing is read, and nothing changes. -/
def debugWindowTr (die : Die) (off : BitVec 24) (store : Option Word) : Tr :=
  .read fun d => .when (d.debugMode && store.isNone) (.answer (d.debugWord die.val off.toNat))
/-- DEBUG_WINDOW_ACCESS. -/
def execDebugWindowAccess (die : Die) (off : BitVec 24) (store : Option Word) (s : State) := run (debugWindowTr die off store) s

/-- The mould that an offset of a die's mould store window lies in, while it is LIVE or DRAINING (R321), and the offset in it
is below BYTES. -/
def Dev.mouldShown (d : Dev) (die off : Nat) : Bool :=
  let m := off / 0x100000
  let st := d.fld VQ_MOULD VQ_MOULD_STATE die m
  m < 16 && (st = 2 || st = 3) && off % 0x100000 < d.fld VQ_MOULD_GEOM VQ_MOULD_GEOM_BYTES die m

/-- A naturally aligned 64-bit read of the MMIO range by a requester inside the package; `k` gets a status and the word. -/
def Tr.mmioRead (la : Nat) (who : Requester) (k : Nat → Word → Tr) : Tr :=
  .read fun d =>
    match d.place la with
    | .csr die off => .regRead die off who (k stOK)
    | .doorbell _ _ => k stOK 0
    | .mould die off =>
      k stOK (w64 (leNat ((d.rawBytes la 8).zipIdx.map fun (b, i) => if d.mouldShown die (off + i) then b else 0)))
    | .debug die off => if d.debugMode then k stOK (d.debugWord die off) else k (d.accessStatus la) 0
    | _ => k (d.accessStatus la) 0

/-- A naturally aligned 64-bit write of the MMIO range by a requester inside the package; `k` gets a status. -/
def Tr.mmioWrite (la : Nat) (v : Word) (who : Requester) (k : Nat → Tr) : Tr :=
  .read fun d =>
    match d.place la with
    | .csr die off => .seq [.regWrite die off v who, k stOK]
    | .doorbell q off => .seq [.when (off = 0) (doorbellTr (Fin.ofNat 65536 q) v), k stOK]
    | .mould _ _ => k stOK
    | .debug _ _ => if d.debugMode then k stOK else k (d.accessStatus la)
    | _ => k (d.accessStatus la)

end Sys2Proof.Machine
end

