-- ==== Sys2Proof/Machine/Response.lean ====
section
/-! DEFINITION. How requests of threads end inside the package (R265, R276, R278, R283, R306): loads that return data and
stores that reach their point of coherence; the command SIGNAL; and instructions that only trap (R122, R123). -/

namespace Sys2Proof.Machine

/-! ## Requests on the MMIO range (R43, R276) -/

/-- The words that `len` bytes at `la` touch: address, and whether the whole word is covered. A word covered in part is a
narrow access (R7). -/
def mmioWords (la len : Nat) : List (Nat × Bool) :=
  (List.range (cdiv (la % 8 + len) 8)).map fun i =>
    let a := (la / 8 + i) * 8
    (a, la ≤ a && a + 8 ≤ la + len)

/-- Reads of words of the MMIO range in ascending order; `k` gets the first status other than OK, and the bytes. -/
def Tr.mmioLoad : List (Nat × Bool) → Nat → List Byte → (Nat → List Byte → Tr) → Tr
  | [], st, bs, k => k st bs
  | (a, whole) :: ws, st, bs, k =>
    if whole then .mmioRead a .cell fun r v => .mmioLoad ws (if st = stOK then r else st) (bs ++ leBytes 8 v.toNat) k
    else .mmioLoad ws st (bs ++ List.replicate 8 0) k

/-- Writes of words of the MMIO range in ascending order: the bytes of `bs`, whose first lies at `la`. -/
def Tr.mmioStore (la : Nat) (bs : List Byte) : List (Nat × Bool) → Nat → (Nat → Tr) → Tr
  | [], st, k => k st
  | (a, whole) :: ws, st, k =>
    if whole then .mmioWrite a (w64 (leAt bs (a - la) 8)) .cell fun r => .mmioStore la bs ws (if st = stOK then r else st) k
    else .mmioStore la bs ws st k

/-! ## Responses -/

/-- Whether a soft repair holds every request to the bank of a local address (R631). -/
def Dev.pprHolds (d : Dev) (la : Nat) : Bool :=
  match d.place la with
  | .hbm die pc slot _ => d.u.spare.ppr.any fun e => e.1 = die && bitsOf e.2 8 8 = pc && bitsOf e.2 16 6 = slot % 64
  | _ => false

/-- Whether a request of a die inside the package can be served now: its bank is not held, its lines are not fenced (R369),
and no link of its route retrains (R20). -/
def Dev.servable (d : Dev) (die la len : Nat) : Bool :=
  !d.fenced la len && !(sectorsOf la len).any d.pprHolds && !d.routeDown die la

/-- A thread's request is no longer under way at a bulk-tier port. -/
def Tr.bulkGone (op req : Nat) : Tr := .memSt fun m => { m with bulk := m.bulk.filter fun b => b.own ≠ some (op, req) }

/-- LOAD_RESPONSE (R278): request `req` of operation `op`, sent inside the package, returns its data or a status. A line that
a speculative fetch brought becomes an ordinary one (R252). `mouldErr`: the mould that a casting request names has an
uncorrectable word (R320). -/
def loadResponseTr (op req : Nat) (mouldErr : Bool) : Tr :=
  .read fun d => .opt (d.op? op) fun o => .opt (o.reqs[req]?) fun r =>
    let la := localOf r.pa
    let die := o.pk / 168
    let ra := match o.kind with | .ra _ => true | _ => false
    if r.st ≠ .sent || (o.kind.stores && !r.idx) || d.isRemote r.pa || !d.servable die la r.len then .skip
    else .seq [
      .bulkGone op req,
      .when mouldErr (.opt r.mould fun m => .mouldError die m),
      if inMmio la then .mmioLoad (mmioWords la r.len) stOK [] fun st bs => .loadReturn op req st ((bs.drop (la % 8)).take r.len) []
      else .seq [
        .when (!ra) (.specHit die (la / 512)),
        .readRange ra (if ra then agRunAhead else agCell) die la r.len fun x =>
          .loadReturn op req x.st x.bytes (x.poisoned.map (· - la))]]
/-- LOAD_RESPONSE. -/
def execLoadResponse (op req : Nat) (mouldErr : Bool) (s : State) := run (loadResponseTr op req mouldErr) s

/-- STORE_COMPLETE (R265, R283, R291, R394): a store's request inside the package reaches its point of coherence, once no earlier
request of its source to its lines is under way, and frees its slot. A write to an armed page that is not yet staged waits
(R499). -/
def storeCompleteTr (op req : Nat) : Tr :=
  .read fun d => .opt (d.op? op) fun o => .opt (o.reqs[req]?) fun r =>
    let la := localOf r.pa
    let die := o.pk / 168
    if r.st ≠ .sent || !o.kind.stores || r.idx || d.isRemote r.pa || !d.servable die la r.len || d.storeBlocked o req r then .skip
    else if d.u.ckpt.holds la r.len then .writeWaits 3 op req
    else .seq [
      .bulkGone op req,
      if inMmio la then .mmioStore la r.data (mmioWords la r.len) stOK fun st => .stored op req st
      else .cohWrite agCell die la r.data (fun s => r.psn.any fun p => (la + 64 * p) / 64 * 64 = s) fun st => .stored op req st]
/-- STORE_COMPLETE. -/
def execStoreComplete (op req : Nat) (s : State) := run (storeCompleteTr op req) s

/-! ## SIGNAL (R452) -/

/-- SIGNAL: VALUE is stored at ADDR as one 8-byte store, and the record follows when it has reached its point of coherence. A
store to another package goes by a transport write. -/
def signalTr (src : CmdSrc) (n : BitVec 32) : Tr :=
  .withCmd src n 0x01 fun c => .read fun d =>
    let va := c.at 8 8
    let v := c.at 16 8
    if !restZero c.pkt [(8, 16)] || va % 8 ≠ 0 then .complete c stMALFORMED 0
    else .translate { d.cmdReq c 0 4 with va := va, access := 1 } fun r => match r with
      | .wait => .skip
      | .unusable => .complete c stTRANSLATION_ABORT 0
      | .bad st => .complete c st 0
      | .ok ga _ _ => .read fun d =>
        let la := localOf ga
        let done := fun (st : Nat) => Tr.complete c st 0
        if d.isRemote ga then .seq [
          .onCmd c.seqNo fun x => { x with stage := 2 },
          .post (qDie c.q) { plane := 0, op := 2, dst := pkgOf ga, la := la, len := 8, data := leBytes 8 v, own := .cmd c.seqNo }]
        else if !d.servable (qDie c.q) la 8 then .skip
        else if inMmio la then .mmioWrite la (w64 v) .host done
        else if d.u.ckpt.holds la 8 then .writeWaits 1 c.seqNo 0
        else .cohWrite agDma (qDie c.q) la (leBytes 8 v) (fun _ => false) done
/-- SIGNAL. -/
def execSignal (src : CmdSrc) (n : BitVec 32) (s : State) := run (signalTr src n) s

/-! ## Instructions that only trap (R122, R123) -/

/-- Whether OP is defined for a class. -/
def classDefines (cls op : Nat) : Bool :=
  match cls with
  | 0 => op ≤ 0x10
  | 1 => op ≤ 0x0F
  | 2 => op ≤ 8
  | 3 => op ≤ 4
  | 4 => op ≤ 0x14 || (0x18 ≤ op && op ≤ 0x1C) || (0x20 ≤ op && op ≤ 0x22) || (0x25 ≤ op && op ≤ 0x27)
  | 5 => op ≤ 1
  | 6 => op ≤ 5 || (8 ≤ op && op ≤ 0xA)
  | 7 => op = 0
  | 8 => op ≤ 7
  | 9 => op ≤ 1
  | _ => false

/-- Whether a word is an operation of its class; ACTION 3 of RRND is reserved (R226). -/
def wordDefined (w : Nat) : Bool := classDefines (iClass w) (iOp w) && !(iClass w = 8 && iOp w = 2 && bitsOf w 65 2 = 3)

/-- ILLEGAL (R122, R123): a word of a reserved class, of a class that the cell's role does not allow, or with an undefined
operation traps with cause ILLEGAL. Any other word is another command's. -/
def illegalTr (c : PCell) (t : Tid) (w : Word128) : Tr :=
  .read fun d => .opt (d.physOf c.val) fun pk =>
    let role := d.fld CELL_ROLE CELL_ROLE_ROLE (pk / 168) (pk % 168)
    .when (!(wordDefined w.toNat && roleAllows role (iClass w.toNat))) (issue c t w (2 ^ 128 - 1) Ctx.illegal)
/-- ILLEGAL. -/
def execIllegal (c : PCell) (t : Tid) (w : Word128) (s : State) := run (illegalTr c t w) s

end Sys2Proof.Machine
end

