-- ==== Sys2Proof/Machine/Scalar.lean ====
section
/-! DEFINITION. The scalar class (R127). Arithmetic wraps modulo 2^64. -/

namespace Sys2Proof.Machine

/-- A scalar operation with the layout of R127: s[RD] := f (s[RS1], operand). -/
def scalarOp (f : Nat → Nat → Nat) (c : PCell) (t : Tid) (w : Word128) : Tr :=
  issue c t w (mRD ||| mRS1 ||| mRS2 ||| mI ||| mIMM 64) fun x =>
    x.nextWith fun th => th.setS x.rd (f x.rs1 x.operand)

/-- ADD: s[RS1] + operand. -/
def execAdd (c : PCell) (t : Tid) (w : Word128) (s : State) := run (onWord 1 0 w (scalarOp (fun a b => a + b) c t w)) s
/-- SUB: s[RS1] − operand. -/
def execSub (c : PCell) (t : Tid) (w : Word128) (s : State) := run (onWord 1 1 w (scalarOp (fun a b => a + 2 ^ 64 - b) c t w)) s
/-- AND. -/
def execAnd (c : PCell) (t : Tid) (w : Word128) (s : State) := run (onWord 1 2 w (scalarOp (fun a b => a &&& b) c t w)) s
/-- OR. -/
def execOr (c : PCell) (t : Tid) (w : Word128) (s : State) := run (onWord 1 3 w (scalarOp (fun a b => a ||| b) c t w)) s
/-- XOR. -/
def execXor (c : PCell) (t : Tid) (w : Word128) (s : State) := run (onWord 1 4 w (scalarOp (fun a b => a ^^^ b) c t w)) s
/-- SHL: shifted left by operand[5:0]. -/
def execShl (c : PCell) (t : Tid) (w : Word128) (s : State) := run (onWord 1 5 w (scalarOp (fun a b => a <<< (b % 64)) c t w)) s
/-- SHR: shifted right logically by operand[5:0]. -/
def execShr (c : PCell) (t : Tid) (w : Word128) (s : State) := run (onWord 1 6 w (scalarOp (fun a b => a >>> (b % 64)) c t w)) s
/-- SRA: shifted right arithmetically by operand[5:0]. -/
def execSra (c : PCell) (t : Tid) (w : Word128) (s : State) :=
  run (onWord 1 7 w (scalarOp (fun a b => unsigned 64 (signed 64 a / ((2 ^ (b % 64) : Nat) : Int))) c t w)) s
/-- MUL: low 64 bits of the product. -/
def execMul (c : PCell) (t : Tid) (w : Word128) (s : State) := run (onWord 1 8 w (scalarOp (fun a b => a * b) c t w)) s
/-- MULHU: high 64 bits of the unsigned product. -/
def execMulhu (c : PCell) (t : Tid) (w : Word128) (s : State) := run (onWord 1 9 w (scalarOp (fun a b => a * b / 2 ^ 64) c t w)) s
/-- MIN: signed minimum. -/
def execMin (c : PCell) (t : Tid) (w : Word128) (s : State) :=
  run (onWord 1 10 w (scalarOp (fun a b => if signed 64 a ≤ signed 64 b then a else b) c t w)) s
/-- MAX: signed maximum. -/
def execMax (c : PCell) (t : Tid) (w : Word128) (s : State) :=
  run (onWord 1 11 w (scalarOp (fun a b => if signed 64 a ≤ signed 64 b then b else a) c t w)) s
/-- MINU: unsigned minimum. -/
def execMinu (c : PCell) (t : Tid) (w : Word128) (s : State) := run (onWord 1 12 w (scalarOp (fun a b => min a b) c t w)) s
/-- MAXU: unsigned maximum. -/
def execMaxu (c : PCell) (t : Tid) (w : Word128) (s : State) := run (onWord 1 13 w (scalarOp (fun a b => max a b) c t w)) s

/-- LI: s[RD] := IMM. -/
def execLi (c : PCell) (t : Tid) (w : Word128) (s : State) :=
  run (onWord 1 14 w (issue c t w (mRD ||| mIMM 64) fun x => x.nextWith fun th => th.setS x.rd x.imm)) s

/-- SEL: s[RS1] if c[CS1] is 1, otherwise s[RS2]. -/
def execSel (c : PCell) (t : Tid) (w : Word128) (s : State) :=
  run (onWord 1 15 w (issue c t w (mRD ||| mRS1 ||| mRS2 ||| mCS1) fun x =>
    x.nextWith fun th => th.setS x.rd (if x.th.creg (x.f 34 3) then x.rs1 else x.rs2))) s

end Sys2Proof.Machine
end

