-- ==== Sys2Proof/Machine/Dispatch.lean ====
section
/-! DEFINITION. One arm per command: the meaning it has. -/

namespace Sys2Proof.Machine


/-- The effect of a command on everything but the queue. -/
def exec (i : Instr) (s : State) : Host.Outcome State Fault Refusal :=
  match i with
  | .registerWrite die off v who => Sys2Proof.Machine.execRegisterWrite die off v who s
  | .csrNarrowAccess die off store => Sys2Proof.Machine.execCsrNarrowAccess die off store s
  | .linkUp l modules wordA wordB crcBad => Sys2Proof.Machine.execLinkUp l modules wordA wordB crcBad s
  | .linkDown l => Sys2Proof.Machine.execLinkDown l s
  | .linkRetrainDone l wordA wordB => Sys2Proof.Machine.execLinkRetrainDone l wordA wordB s
  | .linkLost l => Sys2Proof.Machine.execLinkLost l s
  | .debugWindowAccess die off store => Sys2Proof.Machine.execDebugWindowAccess die off store s
  | .timeNowRead => Sys2Proof.Machine.execTimeNowRead s
  | .timeSet v => Sys2Proof.Machine.execTimeSet v s
  | .timeStep v => Sys2Proof.Machine.execTimeStep v s
  | .timeRateWrite v => Sys2Proof.Machine.execTimeRateWrite v s
  | .timeCtlSrcChange v => Sys2Proof.Machine.execTimeCtlSrcChange v s
  | .sourceLock first meas adj => Sys2Proof.Machine.execSourceLock first meas adj s
  | .sourceLost => Sys2Proof.Machine.execSourceLost s
  | .ppsInEdge => Sys2Proof.Machine.execPpsInEdge s
  | .ppsOut => Sys2Proof.Machine.execPpsOut s
  | .ptpMessage m => Sys2Proof.Machine.execPtpMessage m s
  | .ptpAnnounceSend clockClass accuracy prio1 prio2 => Sys2Proof.Machine.execPtpAnnounceSend clockClass accuracy prio1 prio2 s
  | .beatEdge => Sys2Proof.Machine.execBeatEdge s
  | .beatRunStart v => Sys2Proof.Machine.execBeatRunStart v s
  | .beatRunStop v => Sys2Proof.Machine.execBeatRunStop v s
  | .planCommit v => Sys2Proof.Machine.execPlanCommit v s
  | .applyWhileStopped => Sys2Proof.Machine.execApplyWhileStopped s
  | .cellCopyDone c bad => Sys2Proof.Machine.execCellCopyDone c bad s
  | .icacheInv die v => Sys2Proof.Machine.execIcacheInv die v s
  | .instructionFetch c t => Sys2Proof.Machine.execInstructionFetch c t s
  | .runAheadScan c t => Sys2Proof.Machine.execRunAheadScan c t s
  | .illegal c t w => Sys2Proof.Machine.execIllegal c t w s
  | .nop c t w => Sys2Proof.Machine.execNop c t w s
  | .endb c t w => Sys2Proof.Machine.execEndb c t w s
  | .br c t w => Sys2Proof.Machine.execBr c t w s
  | .brr c t w => Sys2Proof.Machine.execBrr c t w s
  | .call c t w => Sys2Proof.Machine.execCall c t w s
  | .ret c t w => Sys2Proof.Machine.execRet c t w s
  | .loop c t w => Sys2Proof.Machine.execLoop c t w s
  | .cmp c t w => Sys2Proof.Machine.execCmp c t w s
  | .clog c t w => Sys2Proof.Machine.execClog c t w s
  | .waitm c t w => Sys2Proof.Machine.execWaitm c t w s
  | .waitt c t w => Sys2Proof.Machine.execWaitt c t w s
  | .sleep c t w => Sys2Proof.Machine.execSleep c t w s
  | .sleepExpire c t => Sys2Proof.Machine.execSleepExpire c t s
  | .bar c t w => Sys2Proof.Machine.execBar c t w s
  | .fence c t w => Sys2Proof.Machine.execFence c t w s
  | .mfs c t w => Sys2Proof.Machine.execMfs c t w s
  | .mts c t w => Sys2Proof.Machine.execMts c t w s
  | .brk c t w => Sys2Proof.Machine.execBrk c t w s
  | .add c t w => Sys2Proof.Machine.execAdd c t w s
  | .sub c t w => Sys2Proof.Machine.execSub c t w s
  | .and c t w => Sys2Proof.Machine.execAnd c t w s
  | .or c t w => Sys2Proof.Machine.execOr c t w s
  | .xor c t w => Sys2Proof.Machine.execXor c t w s
  | .shl c t w => Sys2Proof.Machine.execShl c t w s
  | .shr c t w => Sys2Proof.Machine.execShr c t w s
  | .sra c t w => Sys2Proof.Machine.execSra c t w s
  | .mul c t w => Sys2Proof.Machine.execMul c t w s
  | .mulhu c t w => Sys2Proof.Machine.execMulhu c t w s
  | .min c t w => Sys2Proof.Machine.execMin c t w s
  | .max c t w => Sys2Proof.Machine.execMax c t w s
  | .minu c t w => Sys2Proof.Machine.execMinu c t w s
  | .maxu c t w => Sys2Proof.Machine.execMaxu c t w s
  | .li c t w => Sys2Proof.Machine.execLi c t w s
  | .sel c t w => Sys2Proof.Machine.execSel c t w s
  | .mma c t w => Sys2Proof.Machine.execMma c t w s
  | .mzero c t w => Sys2Proof.Machine.execMzero c t w s
  | .minit c t w => Sys2Proof.Machine.execMinit c t w s
  | .mdrain c t w => Sys2Proof.Machine.execMdrain c t w s
  | .msatf c t w => Sys2Proof.Machine.execMsatf c t w s
  | .vcvt c t w => Sys2Proof.Machine.execVcvt c t w s
  | .vadd c t w => Sys2Proof.Machine.execVadd c t w s
  | .vsub c t w => Sys2Proof.Machine.execVsub c t w s
  | .vmul c t w => Sys2Proof.Machine.execVmul c t w s
  | .vfma c t w => Sys2Proof.Machine.execVfma c t w s
  | .vmax c t w => Sys2Proof.Machine.execVmax c t w s
  | .vmin c t w => Sys2Proof.Machine.execVmin c t w s
  | .vabs c t w => Sys2Proof.Machine.execVabs c t w s
  | .vneg c t w => Sys2Proof.Machine.execVneg c t w s
  | .vcmp c t w => Sys2Proof.Machine.execVcmp c t w s
  | .vsel c t w => Sys2Proof.Machine.execVsel c t w s
  | .vrecip c t w => Sys2Proof.Machine.execVrecip c t w s
  | .vrsqrt c t w => Sys2Proof.Machine.execVrsqrt c t w s
  | .vsqrt c t w => Sys2Proof.Machine.execVsqrt c t w s
  | .vexp c t w => Sys2Proof.Machine.execVexp c t w s
  | .vexp2 c t w => Sys2Proof.Machine.execVexp2 c t w s
  | .vlog c t w => Sys2Proof.Machine.execVlog c t w s
  | .vtanh c t w => Sys2Proof.Machine.execVtanh c t w s
  | .vsigm c t w => Sys2Proof.Machine.execVsigm c t w s
  | .vgelu c t w => Sys2Proof.Machine.execVgelu c t w s
  | .vsilu c t w => Sys2Proof.Machine.execVsilu c t w s
  | .vrsum c t w => Sys2Proof.Machine.execVrsum c t w s
  | .vrmax c t w => Sys2Proof.Machine.execVrmax c t w s
  | .vrmin c t w => Sys2Proof.Machine.execVrmin c t w s
  | .vrssq c t w => Sys2Proof.Machine.execVrssq c t w s
  | .vrmvar c t w => Sys2Proof.Machine.execVrmvar c t w s
  | .vsoftmax c t w => Sys2Proof.Machine.execVsoftmax c t w s
  | .vtr c t w => Sys2Proof.Machine.execVtr c t w s
  | .vocc c t w => Sys2Proof.Machine.execVocc c t w s
  | .vand c t w => Sys2Proof.Machine.execVand c t w s
  | .vor c t w => Sys2Proof.Machine.execVor c t w s
  | .vxor c t w => Sys2Proof.Machine.execVxor c t w s
  | .rtopk c t w => Sys2Proof.Machine.execRtopk c t w s
  | .rdisp c t w => Sys2Proof.Machine.execRdisp c t w s
  | .dispatchClaim die tbl lane => Sys2Proof.Machine.execDispatchClaim die tbl lane s
  | .rrndOpen c t w => Sys2Proof.Machine.execRrndOpen c t w s
  | .routeTableLoaded die tbl => Sys2Proof.Machine.execRouteTableLoaded die tbl s
  | .rrndClose c t w => Sys2Proof.Machine.execRrndClose c t w s
  | .roundCloseDone die tbl => Sys2Proof.Machine.execRoundCloseDone die tbl s
  | .rrndAbort c t w => Sys2Proof.Machine.execRrndAbort c t w s
  | .speculativeLineArrive die tbl expert va => Sys2Proof.Machine.execSpeculativeLineArrive die tbl expert va s
  | .rcomb c t w => Sys2Proof.Machine.execRcomb c t w s
  | .ramx c t w => Sys2Proof.Machine.execRamx c t w s
  | .rbmask c t w => Sys2Proof.Machine.execRbmask c t w s
  | .rbnext c t w => Sys2Proof.Machine.execRbnext c t w s
  | .rbemask c t w => Sys2Proof.Machine.execRbemask c t w s
  | .predClear die v => Sys2Proof.Machine.execPredClear die v s
  | .lds c t w => Sys2Proof.Machine.execLds c t w s
  | .ldt c t w => Sys2Proof.Machine.execLdt c t w s
  | .sts c t w => Sys2Proof.Machine.execSts c t w s
  | .stt c t w => Sys2Proof.Machine.execStt c t w s
  | .mvst c t w => Sys2Proof.Machine.execMvst c t w s
  | .mvts c t w => Sys2Proof.Machine.execMvts c t w s
  | .pfb c t w => Sys2Proof.Machine.execPfb c t w s
  | .pfw c t w => Sys2Proof.Machine.execPfw c t w s
  | .pfr c t w => Sys2Proof.Machine.execPfr c t w s
  | .gath c t w => Sys2Proof.Machine.execGath c t w s
  | .scat c t w => Sys2Proof.Machine.execScat c t w s
  | .loadResponse op req mouldErr => Sys2Proof.Machine.execLoadResponse op req mouldErr s
  | .storeComplete op req => Sys2Proof.Machine.execStoreComplete op req s
  | .waitHint c t cycles => Sys2Proof.Machine.execWaitHint c t cycles s
  | .dmaCopy src n => Sys2Proof.Machine.execDmaCopy src n s
  | .dmaCopy2d src n => Sys2Proof.Machine.execDmaCopy2d src n s
  | .dmaFill src n => Sys2Proof.Machine.execDmaFill src n s
  | .dmaTiles src n => Sys2Proof.Machine.execDmaTiles src n s
  | .dmaChunkDone src n chunk late => Sys2Proof.Machine.execDmaChunkDone src n chunk late s
  | .vqMouldLoad src n => Sys2Proof.Machine.execVqMouldLoad src n s
  | .mouldLoadDone src n => Sys2Proof.Machine.execMouldLoadDone src n s
  | .vqMouldRetire src n => Sys2Proof.Machine.execVqMouldRetire src n s
  | .vqatt c t w => Sys2Proof.Machine.execVqatt c t w s
  | .vqx c t w => Sys2Proof.Machine.execVqx c t w s
  | .vqrel c t w => Sys2Proof.Machine.execVqrel c t w s
  | .hbmRead la agent die errs => Sys2Proof.Machine.execHbmRead la agent die errs s
  | .hbmWrite la mask data agent die => Sys2Proof.Machine.execHbmWrite la mask data agent die s
  | .hbmRefresh die pc bank => Sys2Proof.Machine.execHbmRefresh die pc bank s
  | .hbmCalibrationStep die stack pc eyePct lost passEnd => Sys2Proof.Machine.execHbmCalibrationStep die stack pc eyePct lost passEnd s
  | .scrubRead die errs => Sys2Proof.Machine.execScrubRead die errs s
  | .memRetireAdd die v => Sys2Proof.Machine.execMemRetireAdd die v s
  | .retireTakesEffect die frame => Sys2Proof.Machine.execRetireTakesEffect die frame s
  | .bulkEnable port v => Sys2Proof.Machine.execBulkEnable port v s
  | .bulkRequest port line data answered agent die own => Sys2Proof.Machine.execBulkRequest port line data answered agent die own s
  | .tierTimeout id => Sys2Proof.Machine.execTierTimeout id s
  | .bulkLateCompletion id => Sys2Proof.Machine.execBulkLateCompletion id s
  | .portFault port linkDown => Sys2Proof.Machine.execPortFault port linkDown s
  | .homeRequest agent line kind data evict => Sys2Proof.Machine.execHomeRequest agent line kind data evict s
  | .untrackNotice agent line => Sys2Proof.Machine.execUntrackNotice agent line s
  | .dropNotice line => Sys2Proof.Machine.execDropNotice line s
  | .broadcastSnoop agent line => Sys2Proof.Machine.execBroadcastSnoop agent line s
  | .snoop agent line => Sys2Proof.Machine.execSnoop agent line s
  | .holdEnd agent line sc => Sys2Proof.Machine.execHoldEnd agent line sc s
  | .farAtomic die agent la op wide a b => Sys2Proof.Machine.execFarAtomic die agent la op wide a b s
  | .nearAtomic agent la op wide a b waited => Sys2Proof.Machine.execNearAtomic agent la op wide a b waited s
  | .cohPredClear die v => Sys2Proof.Machine.execCohPredClear die v s
  | .pageWalk op req => Sys2Proof.Machine.execPageWalk op req s
  | .faultRecordDeferred die => Sys2Proof.Machine.execFaultRecordDeferred die s
  | .xlatFqRespRetry die number => Sys2Proof.Machine.execXlatFqRespRetry die number s
  | .xlatFqRespAbort die number => Sys2Proof.Machine.execXlatFqRespAbort die number s
  | .faultWatchdogExpire die fault => Sys2Proof.Machine.execFaultWatchdogExpire die fault s
  | .xlatInvGo die v => Sys2Proof.Machine.execXlatInvGo die v s
  | .invalidationDone die => Sys2Proof.Machine.execInvalidationDone die s
  | .asSlotInvalid die n v => Sys2Proof.Machine.execAsSlotInvalid die n v s
  | .queueEnable q v => Sys2Proof.Machine.execQueueEnable q v s
  | .queueDisable q v => Sys2Proof.Machine.execQueueDisable q v s
  | .doorbell q v => Sys2Proof.Machine.execDoorbell q v s
  | .cqHeadWrite q v => Sys2Proof.Machine.execCqHeadWrite q v s
  | .packetRead die => Sys2Proof.Machine.execPacketRead die s
  | .heldRecordWrite die q => Sys2Proof.Machine.execHeldRecordWrite die q s
  | .threadEntryRecord index => Sys2Proof.Machine.execThreadEntryRecord index s
  | .cmdNop src n => Sys2Proof.Machine.execCmdNop src n s
  | .signal src n => Sys2Proof.Machine.execSignal src n s
  | .atomic src n => Sys2Proof.Machine.execAtomic src n s
  | .ctlRole src n => Sys2Proof.Machine.execCtlRole src n s
  | .ctlPower src n => Sys2Proof.Machine.execCtlPower src n s
  | .ctlSelftest src n => Sys2Proof.Machine.execCtlSelftest src n s
  | .ctlCalibrate src n => Sys2Proof.Machine.execCtlCalibrate src n s
  | .ctlSwapRetire src n => Sys2Proof.Machine.execCtlSwapRetire src n s
  | .ctlSwapReturn src n => Sys2Proof.Machine.execCtlSwapReturn src n s
  | .controlApplyStopped => Sys2Proof.Machine.execControlApplyStopped s
  | .fwMailboxGo who => Sys2Proof.Machine.execFwMailboxGo who s
  | .mgmtMailboxGo who => Sys2Proof.Machine.execMgmtMailboxGo who s
  | .updGroupsLoad src n => Sys2Proof.Machine.execUpdGroupsLoad src n s
  | .updGroupsStep src n => Sys2Proof.Machine.execUpdGroupsStep src n s
  | .updGroupsSave src n => Sys2Proof.Machine.execUpdGroupsSave src n s
  | .updInstall src n die => Sys2Proof.Machine.execUpdInstall src n die s
  | .upd c t w => Sys2Proof.Machine.execUpd c t w s
  | .ckptArm src n => Sys2Proof.Machine.execCkptArm src n s
  | .ckptDisarm src n => Sys2Proof.Machine.execCkptDisarm src n s
  | .ckptCut src n => Sys2Proof.Machine.execCkptCut src n s
  | .pageStaged page sent => Sys2Proof.Machine.execPageStaged page sent s
  | .maquetteComplete status sent => Sys2Proof.Machine.execMaquetteComplete status sent s
  | .ckptFull v => Sys2Proof.Machine.execCkptFull v s
  | .ckptRestore src n area again status => Sys2Proof.Machine.execCkptRestore src n area again status s
  | .bload c t w => Sys2Proof.Machine.execBload c t w s
  | .bget c t w => Sys2Proof.Machine.execBget c t w s
  | .bhuff c t w => Sys2Proof.Machine.execBhuff c t w s
  | .bunpk c t w => Sys2Proof.Machine.execBunpk c t w s
  | .btake c t w => Sys2Proof.Machine.execBtake c t w s
  | .bput c t w => Sys2Proof.Machine.execBput c t w s
  | .ingDecode src n => Sys2Proof.Machine.execIngDecode src n s
  | .stagingAllocated die slot sample head => Sys2Proof.Machine.execStagingAllocated die slot sample head s
  | .sampleCopyDone die slot sample => Sys2Proof.Machine.execSampleCopyDone die slot sample s
  | .sampleWithdraw die slot sample => Sys2Proof.Machine.execSampleWithdraw die slot sample s
  | .ingEnvStart src n => Sys2Proof.Machine.execIngEnvStart src n s
  | .ingEnvStop src n => Sys2Proof.Machine.execIngEnvStop src n s
  | .envTick die slot => Sys2Proof.Machine.execEnvTick die slot s
  | .flitReceive sp flit uncorr => Sys2Proof.Machine.execFlitReceive sp flit uncorr s
  | .replayTimeout sp => Sys2Proof.Machine.execReplayTimeout sp s
  | .subportDown sp unlocked => Sys2Proof.Machine.execSubportDown sp unlocked s
  | .fabricLinkUp sp lanes phys logical credits => Sys2Proof.Machine.execFabricLinkUp sp lanes phys logical credits s
  | .timingFlit sp round => Sys2Proof.Machine.execTimingFlit sp round s
  | .laneLoss port lane partner => Sys2Proof.Machine.execLaneLoss port lane partner s
  | .portCfgWrite port v => Sys2Proof.Machine.execPortCfgWrite port v s
  | .fabIdWrite v => Sys2Proof.Machine.execFabIdWrite v s
  | .fabRemapWrite pd l v => Sys2Proof.Machine.execFabRemapWrite pd l v s
  | .ethFrameReceive sp frame fcsBad => Sys2Proof.Machine.execEthFrameReceive sp frame fcsBad s
  | .arpRequest sp frame => Sys2Proof.Machine.execArpRequest sp frame s
  | .transportRequestSend who => Sys2Proof.Machine.execTransportRequestSend who s
  | .transportPacketAccept pd room => Sys2Proof.Machine.execTransportPacketAccept pd room s
  | .read pd => Sys2Proof.Machine.execRead pd s
  | .write pd => Sys2Proof.Machine.execWrite pd s
  | .transportAtomic pd => Sys2Proof.Machine.execTransportAtomic pd s
  | .readData pd => Sys2Proof.Machine.execReadData pd s
  | .writeAck pd => Sys2Proof.Machine.execWriteAck pd s
  | .atomicData pd => Sys2Proof.Machine.execAtomicData pd s
  | .ack pd => Sys2Proof.Machine.execAck pd s
  | .nak pd => Sys2Proof.Machine.execNak pd s
  | .ackTimer pd phys cls logical => Sys2Proof.Machine.execAckTimer pd phys cls logical s
  | .retransmitTimeout pd phys cls => Sys2Proof.Machine.execRetransmitTimeout pd phys cls s
  | .coll pd => Sys2Proof.Machine.execColl pd s
  | .heartbeat pd received => Sys2Proof.Machine.execHeartbeat pd received s
  | .heartbeatMiss pd logical => Sys2Proof.Machine.execHeartbeatMiss pd logical s
  | .announce pd => Sys2Proof.Machine.execAnnounce pd s
  | .ltPut src n => Sys2Proof.Machine.execLtPut src n s
  | .ltGet src n => Sys2Proof.Machine.execLtGet src n s
  | .ltReadFence src n => Sys2Proof.Machine.execLtReadFence src n s
  | .collPost src n => Sys2Proof.Machine.execCollPost src n s
  | .collectiveAbort pd => Sys2Proof.Machine.execCollectiveAbort pd s
  | .ctake c t w => Sys2Proof.Machine.execCtake c t w s
  | .cgive c t w => Sys2Proof.Machine.execCgive c t w s
  | .arbiterGrant die inst heads => Sys2Proof.Machine.execArbiterGrant die inst heads s
  | .arbWindowEnd die inst => Sys2Proof.Machine.execArbWindowEnd die inst s
  | .arbMaxClr die inst v => Sys2Proof.Machine.execArbMaxClr die inst v s
  | .sparePatinaWrite v => Sys2Proof.Machine.execSparePatinaWrite v s
  | .probationTestEnd kind die idx pass => Sys2Proof.Machine.execProbationTestEnd kind die idx pass s
  | .inplaceTestEnd kind die idx pass => Sys2Proof.Machine.execInplaceTestEnd kind die idx pass s
  | .hostCoreSwapDone core => Sys2Proof.Machine.execHostCoreSwapDone core s
  | .wayEvictionDone die way => Sys2Proof.Machine.execWayEvictionDone die way s
  | .sparePprReq die v => Sys2Proof.Machine.execSparePprReq die v s
  | .pprDone die => Sys2Proof.Machine.execPprDone die s
  | .pwrgoodDeassert => Sys2Proof.Machine.execPwrgoodDeassert s
  | .resetNAssert => Sys2Proof.Machine.execResetNAssert s
  | .nightExit auxOff => Sys2Proof.Machine.execNightExit auxOff s
  | .dawnSelftestDone failed sram rows cols hbmBad => Sys2Proof.Machine.execDawnSelftestDone failed sram rows cols hbmBad s
  | .identity => Sys2Proof.Machine.execIdentity s
  | .enroll => Sys2Proof.Machine.execEnroll s
  | .imageReady length => Sys2Proof.Machine.execImageReady length s
  | .fabricBoot status image => Sys2Proof.Machine.execFabricBoot status image s
  | .imageVerifyDone => Sys2Proof.Machine.execImageVerifyDone s
  | .imageLoadDone ingAt collAt => Sys2Proof.Machine.execImageLoadDone ingAt collAt s
  | .duskReset => Sys2Proof.Machine.execDuskReset s
  | .duskOff => Sys2Proof.Machine.execDuskOff s
  | .resetNow => Sys2Proof.Machine.execResetNow s
  | .debugOn => Sys2Proof.Machine.execDebugOn s
  | .attest => Sys2Proof.Machine.execAttest s
  | .secAttGo who => Sys2Proof.Machine.execSecAttGo who s
  | .attestReportDone => Sys2Proof.Machine.execAttestReportDone s
  | .mgmtCmdUnknown code => Sys2Proof.Machine.execMgmtCmdUnknown code s
  | .registerTransfer addr store len => Sys2Proof.Machine.execRegisterTransfer addr store len s
  | .mgmtDwAddrWrite v => Sys2Proof.Machine.execMgmtDwAddrWrite v s
  | .mgmtDwDataWrite v => Sys2Proof.Machine.execMgmtDwDataWrite v s
  | .mgmtDwDataRead => Sys2Proof.Machine.execMgmtDwDataRead s
  | .leaseGrant v => Sys2Proof.Machine.execLeaseGrant v s
  | .leaseMessage frame => Sys2Proof.Machine.execLeaseMessage frame s
  | .leaseLow => Sys2Proof.Machine.execLeaseLow s
  | .leaseExpire => Sys2Proof.Machine.execLeaseExpire s
  | .duskEnd => Sys2Proof.Machine.execDuskEnd s
  | .temperatureSample dies hbm hold => Sys2Proof.Machine.execTemperatureSample dies hbm hold s
  | .hostHeartbeat => Sys2Proof.Machine.execHostHeartbeat s
  | .hostHeartbeatTimeout die => Sys2Proof.Machine.execHostHeartbeatTimeout die s
  | .hostWdogExpire => Sys2Proof.Machine.execHostWdogExpire s
  | .hostWdogKick v => Sys2Proof.Machine.execHostWdogKick v s
  | .avsSetpoint die mv => Sys2Proof.Machine.execAvsSetpoint die mv s
  | .inputUndervoltage => Sys2Proof.Machine.execInputUndervoltage s
  | .refclkFault romEnd => Sys2Proof.Machine.execRefclkFault romEnd s
  | .cxlLinkUp port width16 gts pcie => Sys2Proof.Machine.execCxlLinkUp port width16 gts pcie s
  | .ucieLaneFailure l m redundant => Sys2Proof.Machine.execUcieLaneFailure l m redundant s
  | .ucieFlitRetry l m => Sys2Proof.Machine.execUcieFlitRetry l m s
  | .laneAdaptationPass pd lane eyePct fec => Sys2Proof.Machine.execLaneAdaptationPass pd lane eyePct fec s
  | .timingMarginSample die idx pct => Sys2Proof.Machine.execTimingMarginSample die idx pct s
  | .refclkRestored => Sys2Proof.Machine.execRefclkRestored s
  | .ref10mOut => Sys2Proof.Machine.execRef10mOut s
  | .hostHartFence => Sys2Proof.Machine.execHostHartFence s

end Sys2Proof.Machine
end

