-- ==== Sys2Proof/Machine/Step.lean ====
section
/-! DEFINITION. One step: the command at the front of the queue, or the passage of time. -/

namespace Sys2Proof.Machine

/-- The state without the command at the front of its queue. -/
def State.popped (s : State) (rest : List Instr) : State := { s with pending := rest }

/-- Takes the command at the front of the queue and runs it with the queue's rest; on an empty queue, time passes. -/
def step (s : State) : Host.Outcome State Fault Refusal :=
  match s.pending with
  | [] => run tick s
  | c :: rest => exec c (s.popped rest)

/-- `s` with the command that a word spells at the front of its queue; `s` where the word spells none. -/
def State.withFetchWord (s : State) (nbits w : Nat) : State :=
  match Sys2Proof.decodeTableWord nbits w with
  | some c => { s with pending := c :: s.pending }
  | none => s

end Sys2Proof.Machine
end

