-- ==== Sys2Proof/Laws/Bits.lean ====
section
/-! SUPPORT. Bit fields: reading and replacing them, in numbers and in registers. -/

namespace Sys2Proof.Machine

theorem bitsOf_lt (v lo w : Nat) : bitsOf v lo w < 2 ^ w := Nat.mod_lt _ (Nat.two_pow_pos w)

theorem split_bits (v lo w : Nat) : v = 2 ^ lo * (2 ^ w * (v >>> lo >>> w) + bitsOf v lo w) + v % 2 ^ lo := by
  have h1 := Nat.div_add_mod v (2 ^ lo)
  have h2 := Nat.div_add_mod (v >>> lo) (2 ^ w)
  simp only [bitsOf, Nat.shiftRight_eq_div_pow] at *
  rw [h2, h1]

theorem putBits_eq (v lo w x : Nat) :
    putBits v lo w x = 2 ^ lo * (2 ^ w * (v >>> lo >>> w) + x % 2 ^ w) + v % 2 ^ lo := by
  have h := split_bits v lo w
  generalize v >>> lo >>> w = q at h ⊢
  generalize hm : bitsOf v lo w = m at h
  generalize v % 2 ^ lo = r at h ⊢
  unfold putBits
  rw [hm, h]
  simp only [Nat.mul_add]
  rw [Nat.mul_comm m, Nat.mul_comm (x % 2 ^ w)]
  omega

/-- The bits of a number with a field replaced. -/
theorem testBit_putBits (v lo w x i : Nat) :
    (putBits v lo w x).testBit i = if lo ≤ i ∧ i < lo + w then x.testBit (i - lo) else v.testBit i := by
  have hr : v % 2 ^ lo < 2 ^ lo := Nat.mod_lt _ (Nat.two_pow_pos lo)
  have hx : x % 2 ^ w < 2 ^ w := Nat.mod_lt _ (Nat.two_pow_pos w)
  rw [putBits_eq, Nat.testBit_two_pow_mul_add _ hr]
  by_cases h : i < lo
  · have : ¬ lo ≤ i := by omega
    simp only [h, if_true, this, false_and, if_false, Nat.testBit_mod_two_pow, decide_true, Bool.true_and]
  · rw [if_neg h, Nat.testBit_two_pow_mul_add _ hx]
    by_cases hw : i - lo < w
    · rw [if_pos hw, if_pos ⟨by omega, by omega⟩]
      simp [Nat.testBit_mod_two_pow, hw]
    · rw [if_neg hw, if_neg (by omega)]
      simp only [Nat.testBit_shiftRight]
      congr 1; omega

theorem testBit_bitsOf (v lo w i : Nat) : (bitsOf v lo w).testBit i = (decide (i < w) && v.testBit (lo + i)) := by
  simp [bitsOf, Nat.testBit_mod_two_pow, Nat.testBit_shiftRight]

/-- A field just replaced reads as the new value, cut to its width. -/
theorem bitsOf_putBits_self (v lo w x : Nat) : bitsOf (putBits v lo w x) lo w = x % 2 ^ w := by
  apply Nat.eq_of_testBit_eq; intro i
  simp only [testBit_bitsOf, testBit_putBits, Nat.testBit_mod_two_pow]
  by_cases h : i < w
  · simp [h]
  · simp [h]

/-- Replacing a field leaves a field apart from it alone. -/
theorem bitsOf_putBits_ne (v lo w x l n : Nat) (h : l + n ≤ lo ∨ lo + w ≤ l) :
    bitsOf (putBits v lo w x) l n = bitsOf v l n := by
  apply Nat.eq_of_testBit_eq; intro i
  simp only [testBit_bitsOf, testBit_putBits]
  by_cases hi : i < n
  · simp only [hi, decide_true, Bool.true_and]
    rw [if_neg (by omega)]
  · simp [hi]

theorem putBits_lt (v lo w x k : Nat) (hv : v < 2 ^ k) (hk : lo + w ≤ k) : putBits v lo w x < 2 ^ k := by
  apply Nat.lt_pow_two_of_testBit
  intro i hi
  rw [testBit_putBits, if_neg (by omega)]
  exact Nat.testBit_lt_two_pow (Nat.lt_of_lt_of_le hv (Nat.pow_le_pow_right (by decide) hi))

theorem testBit_b01 (b : Bool) (i : Nat) : (b01 b).testBit i = (decide (i = 0) && b) := by
  cases b <;> cases i <;> simp [b01, Nat.testBit_succ]

/-- A field of a register value just set reads as the new value, cut to its width. -/
theorem Fld.get_put_self (f : Fld) (v : Word) (x : Nat) (h : f.lo + f.w ≤ 64) : f.get (f.put v x) = x % 2 ^ f.w := by
  have := putBits_lt v.toNat f.lo f.w x 64 v.isLt h
  simp only [Fld.get, Fld.put, w64, BitVec.toNat_ofNat, Nat.mod_eq_of_lt this, bitsOf_putBits_self]

/-- Setting a field leaves a field apart from it alone. -/
theorem Fld.get_put_ne (f g : Fld) (v : Word) (x : Nat) (h : f.lo + f.w ≤ 64)
    (hd : g.lo + g.w ≤ f.lo ∨ f.lo + f.w ≤ g.lo) : g.get (f.put v x) = g.get v := by
  have := putBits_lt v.toNat f.lo f.w x 64 v.isLt h
  simp only [Fld.get, Fld.put, w64, BitVec.toNat_ofNat, Nat.mod_eq_of_lt this, bitsOf_putBits_ne _ _ _ _ _ _ hd]

end Sys2Proof.Machine
end

