-- ==== Sys2Proof/Laws/Table.lean ====
section
/-! SUPPORT. Reads after writes of the tables that hold registers, memory and the units. They hold of every table, canonical
or not. -/

namespace Sys2Proof.Machine

variable {β : Type}

@[simp] theorem tget_terase_self (dflt : Nat → β) (t : List (Nat × β)) (k : Nat) : tget dflt (terase t k) k = dflt k := by
  induction t with
  | nil => rfl
  | cons e t ih =>
    obtain ⟨a, b⟩ := e
    simp only [terase]
    split
    · exact ih
    · rename_i h; simp only [tget, if_neg h]; exact ih

theorem tget_terase_ne (dflt : Nat → β) (t : List (Nat × β)) (k j : Nat) (h : j ≠ k) :
    tget dflt (terase t k) j = tget dflt t j := by
  induction t with
  | nil => rfl
  | cons e t ih =>
    obtain ⟨a, b⟩ := e
    simp only [terase, tget]
    split
    · rename_i ha; subst ha; rw [if_neg (Ne.symm h)]; exact ih
    · simp only [tget]; rw [ih]

@[simp] theorem tget_tinsert_self (dflt : Nat → β) (t : List (Nat × β)) (k : Nat) (v : β) :
    tget dflt (tinsert t k v) k = v := by
  induction t with
  | nil => simp [tinsert, tget]
  | cons e t ih =>
    obtain ⟨a, b⟩ := e
    simp only [tinsert]
    split
    · simp [tget]
    · split
      · simp [tget]
      · rename_i h; simp only [tget, if_neg h]; exact ih

theorem tget_tinsert_ne (dflt : Nat → β) (t : List (Nat × β)) (k j : Nat) (v : β) (h : j ≠ k) :
    tget dflt (tinsert t k v) j = tget dflt t j := by
  induction t with
  | nil => simp [tinsert, tget, Ne.symm h]
  | cons e t ih =>
    obtain ⟨a, b⟩ := e
    simp only [tinsert]
    split
    · simp [tget, Ne.symm h]
    · split
      · rename_i ha; subst ha; simp [tget, Ne.symm h]
      · simp only [tget]; rw [ih]

/-- A table reads the value just written. -/
@[simp] theorem tget_tset_self [DecidableEq β] (dflt : Nat → β) (t : List (Nat × β)) (k : Nat) (v : β) :
    tget dflt (tset dflt t k v) k = v := by
  unfold tset
  split
  · rename_i h; simp [h]
  · simp

/-- A write leaves every other key alone. -/
theorem tget_tset_ne [DecidableEq β] (dflt : Nat → β) (t : List (Nat × β)) (k j : Nat) (v : β) (h : j ≠ k) :
    tget dflt (tset dflt t k v) j = tget dflt t j := by
  unfold tset
  split
  · exact tget_terase_ne dflt t k j h
  · exact tget_tinsert_ne dflt t k j v h

@[simp] theorem aget?_tinsert_self (t : List (Nat × β)) (k : Nat) (v : β) : aget? (tinsert t k v) k = some v := by
  induction t with
  | nil => simp [tinsert, aget?]
  | cons e t ih =>
    obtain ⟨a, b⟩ := e
    simp only [tinsert]
    split
    · simp [aget?]
    · split
      · simp [aget?]
      · rename_i h; simp only [aget?, if_neg h]; exact ih

theorem aget?_tinsert_ne (t : List (Nat × β)) (k j : Nat) (v : β) (h : j ≠ k) : aget? (tinsert t k v) j = aget? t j := by
  induction t with
  | nil => simp [tinsert, aget?, Ne.symm h]
  | cons e t ih =>
    obtain ⟨a, b⟩ := e
    simp only [tinsert]
    split
    · simp [aget?, Ne.symm h]
    · split
      · rename_i ha; subst ha; simp [aget?, Ne.symm h]
      · simp only [aget?]; rw [ih]

@[simp] theorem aget?_terase_self (t : List (Nat × β)) (k : Nat) : aget? (terase t k) k = none := by
  induction t with
  | nil => rfl
  | cons e t ih =>
    obtain ⟨a, b⟩ := e
    simp only [terase]
    split
    · exact ih
    · rename_i h; simp only [aget?, if_neg h]; exact ih

theorem aget?_terase_ne (t : List (Nat × β)) (k j : Nat) (h : j ≠ k) : aget? (terase t k) j = aget? t j := by
  induction t with
  | nil => rfl
  | cons e t ih =>
    obtain ⟨a, b⟩ := e
    simp only [terase, aget?]
    split
    · rename_i ha; subst ha; rw [if_neg (Ne.symm h)]; exact ih
    · simp only [aget?]; rw [ih]

@[simp] theorem agetD_tinsert_self (t : List (Nat × β)) (k : Nat) (v d : β) : agetD (tinsert t k v) k d = v := by
  simp [agetD]

theorem agetD_tinsert_ne (t : List (Nat × β)) (k j : Nat) (v d : β) (h : j ≠ k) :
    agetD (tinsert t k v) j d = agetD t j d := by
  simp [agetD, aget?_tinsert_ne t k j v h]

@[simp] theorem agetD_aupd_self (t : List (Nat × β)) (k : Nat) (d : β) (f : β → β) :
    agetD (aupd t k d f) k d = f (agetD t k d) := by
  simp [aupd]

theorem agetD_aupd_ne (t : List (Nat × β)) (k j : Nat) (d e : β) (f : β → β) (h : j ≠ k) :
    agetD (aupd t k d f) j e = agetD t j e := by
  simp [aupd, agetD_tinsert_ne _ _ _ _ _ h]

/-- A canonical table above `l` lists no key up to `l`. -/
theorem tcanonFrom_lt [DecidableEq β] (dflt : Nat → β) (t : List (Nat × β)) (l k : Nat)
    (h : tcanonFrom dflt (some l) t = true) (hk : k ≤ l) : tget dflt t k = dflt k := by
  induction t generalizing l with
  | nil => rfl
  | cons e t ih =>
    obtain ⟨a, b⟩ := e
    simp only [tcanonFrom, Bool.and_eq_true, decide_eq_true_eq] at h
    have hne : a ≠ k := by omega
    simp only [tget, if_neg hne]
    exact ih a h.2 (by omega)

end Sys2Proof.Machine
end

