-- ==== Sys2Proof/Laws/State.lean ====
section
/-! SUPPORT. One lemma per field of State and of Dev per update: no later proof unfolds a record update or a transformer. -/

namespace Sys2Proof.Machine

/-! ## Transformers as functions -/

@[simp] theorem Tr.run_skip (d : Dev) : Tr.skip.run d = d := (rfl)
@[simp] theorem Tr.run_andThen (a b : Tr) (d : Dev) : (a.andThen b).run d = b.run (a.run d) := (rfl)
@[simp] theorem Tr.run_seq_nil (d : Dev) : (Tr.seq []).run d = d := (rfl)
@[simp] theorem Tr.run_seq_cons (t : Tr) (ts : List Tr) (d : Dev) : (Tr.seq (t :: ts)).run d = (Tr.seq ts).run (t.run d) := (rfl)
@[simp] theorem Tr.run_read (f : Dev → Tr) (d : Dev) : (Tr.read f).run d = (f d).run d := (rfl)
@[simp] theorem Tr.when_true (t : Tr) : Tr.when true t = t := (rfl)
@[simp] theorem Tr.when_false (t : Tr) : Tr.when false t = Tr.skip := (rfl)
@[simp] theorem Tr.opt_some {α : Type} (x : α) (f : α → Tr) : Tr.opt (some x) f = f x := (rfl)
@[simp] theorem Tr.opt_none {α : Type} (f : α → Tr) : Tr.opt none f = Tr.skip := (rfl)
@[simp] theorem Tr.each_nil {α : Type} (f : α → Tr) : Tr.each [] f = Tr.seq [] := (rfl)
@[simp] theorem Tr.each_cons {α : Type} (x : α) (l : List α) (f : α → Tr) : Tr.each (x :: l) f = (f x).andThen (Tr.each l f) := (rfl)
theorem Tr.run_ite (b : Prop) [Decidable b] (x y : Tr) (d : Dev) :
    (if b then x else y).run d = if b then x.run d else y.run d := by split <;> rfl

/-! ## State -/

@[simp] theorem run_eq (t : Tr) (s : State) : run t s = .next { s with dev := t.run s.dev } := (rfl)
@[simp] theorem State.popped_dev (s : State) (r : List Instr) : (s.popped r).dev = s.dev := (rfl)
@[simp] theorem State.popped_pending (s : State) (r : List Instr) : (s.popped r).pending = r := (rfl)

/-! ## Dev: registers, memory and units -/

@[simp] theorem Tr.setKey_mem (k : Nat) (v : Word) (d : Dev) : ((Tr.setKey k v).run d).mem = d.mem := (rfl)
@[simp] theorem Tr.setKey_u (k : Nat) (v : Word) (d : Dev) : ((Tr.setKey k v).run d).u = d.u := (rfl)
@[simp] theorem Tr.setKey_regs (k : Nat) (v : Word) (d : Dev) :
    ((Tr.setKey k v).run d).regs = tset resetOf d.regs k (v &&& maskOf k) := (rfl)
@[simp] theorem Tr.setKey_get_self (k : Nat) (v : Word) (d : Dev) : ((Tr.setKey k v).run d).get k = v &&& maskOf k := by
  simp [Dev.get]
theorem Tr.setKey_get_ne (k j : Nat) (v : Word) (d : Dev) (h : j ≠ k) : ((Tr.setKey k v).run d).get j = d.get j := by
  simp [Dev.get, tget_tset_ne _ _ _ _ _ h]

@[simp] theorem Tr.byte_regs (a : Nat) (b : Byte) (d : Dev) : ((Tr.byte a b).run d).regs = d.regs := (rfl)
@[simp] theorem Tr.byte_u (a : Nat) (b : Byte) (d : Dev) : ((Tr.byte a b).run d).u = d.u := (rfl)
@[simp] theorem Tr.byte_get (a k : Nat) (b : Byte) (d : Dev) : ((Tr.byte a b).run d).get k = d.get k := (rfl)
@[simp] theorem Tr.byte_byte_self (a : Nat) (b : Byte) (d : Dev) : ((Tr.byte a b).run d).byte a = b := by
  simp [Dev.byte, Tr.byte]
theorem Tr.byte_byte_ne (a c : Nat) (b : Byte) (d : Dev) (h : c ≠ a) : ((Tr.byte a b).run d).byte c = d.byte c := by
  simp [Dev.byte, Tr.byte, tget_tset_ne _ _ _ _ _ h]

@[simp] theorem Tr.units_mem (f : Units → Units) (d : Dev) : ((Tr.units f).run d).mem = d.mem := (rfl)
@[simp] theorem Tr.units_regs (f : Units → Units) (d : Dev) : ((Tr.units f).run d).regs = d.regs := (rfl)
@[simp] theorem Tr.units_u (f : Units → Units) (d : Dev) : ((Tr.units f).run d).u = f d.u := (rfl)
@[simp] theorem Tr.units_get (f : Units → Units) (k : Nat) (d : Dev) : ((Tr.units f).run d).get k = d.get k := (rfl)
@[simp] theorem Tr.units_reg (f : Units → Units) (r : Reg) (die i j : Nat) (d : Dev) :
    ((Tr.units f).run d).reg r die i j = d.reg r die i j := (rfl)
@[simp] theorem Tr.units_byte (f : Units → Units) (a : Nat) (d : Dev) : ((Tr.units f).run d).byte a = d.byte a := (rfl)
@[simp] theorem Tr.byte_reg (a : Nat) (b : Byte) (r : Reg) (die i j : Nat) (d : Dev) :
    ((Tr.byte a b).run d).reg r die i j = d.reg r die i j := (rfl)

@[simp] theorem Tr.setKey_reg_ne (k : Nat) (v : Word) (r : Reg) (die i j : Nat) (d : Dev) (h : r.key die i j ≠ k) :
    ((Tr.setKey k v).run d).reg r die i j = d.reg r die i j := Tr.setKey_get_ne _ _ _ _ h
@[simp] theorem Tr.setKey_byte (k a : Nat) (v : Word) (d : Dev) : ((Tr.setKey k v).run d).byte a = d.byte a := (rfl)

theorem Tr.reg_eq (r : Reg) (die : Nat) (v : Word) (i j : Nat) : Tr.reg r die v i j = Tr.setKey (r.key die i j) v := (rfl)
theorem Tr.fld_run (r : Reg) (f : Fld) (die x i j : Nat) (d : Dev) :
    (Tr.fld r f die x i j).run d = (Tr.setKey (r.key die i j) (f.put (d.reg r die i j) x)).run d := (rfl)
theorem Tr.writeReg_run (r : Reg) (die : Nat) (v : Word) (i j : Nat) (d : Dev) :
    (Tr.writeReg r die v i j).run d = (Tr.setKey (r.key die i j) (r.write (d.reg r die i j) v)).run d := (rfl)
theorem Tr.count_run (r : Reg) (f : Fld) (die n i j : Nat) (d : Dev) :
    (Tr.count r f die n i j).run d =
      if n = 0 then d else (Tr.fld r f die (satAdd f.w (d.fld r f die i j) n) i j).run d := by
  unfold Tr.count; split <;> (rfl)
theorem Tr.bump_eq (r : Reg) (die n i j : Nat) : Tr.bump r die n i j = Tr.count r COUNT die n i j := (rfl)

@[simp] theorem Tr.reg_mem (r : Reg) (die : Nat) (v : Word) (i j : Nat) (d : Dev) : ((Tr.reg r die v i j).run d).mem = d.mem := by
  rw [Tr.reg_eq, Tr.setKey_mem]
@[simp] theorem Tr.reg_u (r : Reg) (die : Nat) (v : Word) (i j : Nat) (d : Dev) : ((Tr.reg r die v i j).run d).u = d.u := by
  rw [Tr.reg_eq, Tr.setKey_u]
@[simp] theorem Tr.reg_reg_self (r : Reg) (die : Nat) (v : Word) (i j : Nat) (d : Dev) :
    ((Tr.reg r die v i j).run d).reg r die i j = v &&& maskOf (r.key die i j) := by
  rw [Tr.reg_eq, Dev.reg, Tr.setKey_get_self]
theorem Tr.reg_reg_ne (r q : Reg) (die e : Nat) (v : Word) (i j k l : Nat) (d : Dev) (h : q.key e k l ≠ r.key die i j) :
    ((Tr.reg r die v i j).run d).reg q e k l = d.reg q e k l := by
  rw [Tr.reg_eq]; exact Tr.setKey_get_ne _ _ _ _ h

@[simp] theorem Tr.fld_mem (r : Reg) (f : Fld) (die x i j : Nat) (d : Dev) : ((Tr.fld r f die x i j).run d).mem = d.mem := by
  rw [Tr.fld_run, Tr.setKey_mem]
@[simp] theorem Tr.fld_u (r : Reg) (f : Fld) (die x i j : Nat) (d : Dev) : ((Tr.fld r f die x i j).run d).u = d.u := by
  rw [Tr.fld_run, Tr.setKey_u]
@[simp] theorem Tr.fld_reg_self (r : Reg) (f : Fld) (die x i j : Nat) (d : Dev) :
    ((Tr.fld r f die x i j).run d).reg r die i j = f.put (d.reg r die i j) x &&& maskOf (r.key die i j) := by
  rw [Tr.fld_run, Dev.reg, Tr.setKey_get_self]
theorem Tr.fld_reg_ne (r q : Reg) (f : Fld) (die e x i j k l : Nat) (d : Dev) (h : q.key e k l ≠ r.key die i j) :
    ((Tr.fld r f die x i j).run d).reg q e k l = d.reg q e k l := by
  rw [Tr.fld_run]; exact Tr.setKey_get_ne _ _ _ _ h

@[simp] theorem Tr.writeReg_mem (r : Reg) (die : Nat) (v : Word) (i j : Nat) (d : Dev) :
    ((Tr.writeReg r die v i j).run d).mem = d.mem := by
  rw [Tr.writeReg_run, Tr.setKey_mem]
@[simp] theorem Tr.writeReg_u (r : Reg) (die : Nat) (v : Word) (i j : Nat) (d : Dev) :
    ((Tr.writeReg r die v i j).run d).u = d.u := by
  rw [Tr.writeReg_run, Tr.setKey_u]
@[simp] theorem Tr.writeReg_reg_self (r : Reg) (die : Nat) (v : Word) (i j : Nat) (d : Dev) :
    ((Tr.writeReg r die v i j).run d).reg r die i j = r.write (d.reg r die i j) v &&& maskOf (r.key die i j) := by
  rw [Tr.writeReg_run, Dev.reg, Tr.setKey_get_self]
theorem Tr.writeReg_reg_ne (r q : Reg) (die e : Nat) (v : Word) (i j k l : Nat) (d : Dev) (h : q.key e k l ≠ r.key die i j) :
    ((Tr.writeReg r die v i j).run d).reg q e k l = d.reg q e k l := by
  rw [Tr.writeReg_run]; exact Tr.setKey_get_ne _ _ _ _ h

@[simp] theorem Tr.count_mem (r : Reg) (f : Fld) (die n i j : Nat) (d : Dev) : ((Tr.count r f die n i j).run d).mem = d.mem := by
  rw [Tr.count_run]; split
  · rfl
  · rw [Tr.fld_mem]
@[simp] theorem Tr.count_u (r : Reg) (f : Fld) (die n i j : Nat) (d : Dev) : ((Tr.count r f die n i j).run d).u = d.u := by
  rw [Tr.count_run]; split
  · rfl
  · rw [Tr.fld_u]
theorem Tr.count_reg_ne (r q : Reg) (f : Fld) (die e n i j k l : Nat) (d : Dev) (h : q.key e k l ≠ r.key die i j) :
    ((Tr.count r f die n i j).run d).reg q e k l = d.reg q e k l := by
  rw [Tr.count_run]; split
  · rfl
  · exact Tr.fld_reg_ne _ _ _ _ _ _ _ _ _ _ _ h
@[simp] theorem Tr.bump_mem (r : Reg) (die n i j : Nat) (d : Dev) : ((Tr.bump r die n i j).run d).mem = d.mem := by
  rw [Tr.bump_eq, Tr.count_mem]
@[simp] theorem Tr.bump_u (r : Reg) (die n i j : Nat) (d : Dev) : ((Tr.bump r die n i j).run d).u = d.u := by
  rw [Tr.bump_eq, Tr.count_u]
theorem Tr.bump_reg_ne (r q : Reg) (die e n i j k l : Nat) (d : Dev) (h : q.key e k l ≠ r.key die i j) :
    ((Tr.bump r die n i j).run d).reg q e k l = d.reg q e k l := by
  rw [Tr.bump_eq]; exact Tr.count_reg_ne _ _ _ _ _ _ _ _ _ _ _ h

end Sys2Proof.Machine
end

