-- ==== Sys2Proof/Safety.lean ====
section
/-! DEFINITION. What counts as a safe state, the limits the spec sets on the free values, and the terms in which the
obligations speak: when an instruction issues, and what a step leaves unchanged. -/

namespace Sys2Proof.Safety

open Sys2Proof.Machine

/-- The invariant of every reachable state: the register file and memory are canonical, and no reserved bit of a register
is set (R9). -/
def Inv (s : State) : Prop := s.dev.wf = true

/-- Word `w`, of a class and an operation whose defined bits are `used`, issues from thread `t` of package cell `c` with its
guard on (R99, R103, R122, R123, R130): the cell is backed by physical cell `pk`, the thread is READY, no condition register
it needs is awaited, the role allows the class, and the reserved bits are zero. -/
abbrev Issues (d : Dev) (c : PCell) (t : Tid) (w : Word128) (cls op used pk : Nat) : Prop :=
  (iClass w.toNat = cls ∧ iOp w.toNat = op) ∧ d.physOf c.val = some pk ∧ (d.threadAt pk t.val).st = .ready ∧
    ((d.threadAt pk t.val).creg (iPred w.toNat) != iPneg w.toNat) = true ∧
    condBusy (d.threadAt pk t.val) w.toNat true = false ∧
    roleAllows (d.fld CELL_ROLE CELL_ROLE_ROLE (pk / 168) (pk % 168)) cls = true ∧
    w.toNat &&& (2 ^ 128 - 1 - (used ||| 0xFFFF)) = 0

/-- What the meaning of an instruction works with where it issues. -/
abbrev ctxOf (d : Dev) (c : PCell) (t : Tid) (w : Word128) (pk : Nat) : Ctx :=
  { die := pk / 168, pk := pk, c := c.val, t := t.val, w := w.toNat, th := d.threadAt pk t.val,
    role := d.fld CELL_ROLE CELL_ROLE_ROLE (pk / 168) (pk % 168) }

/-- Register `r` of a die, instance (i, j), holds `v` in its defined bits; its reserved bits are zero (R9). -/
def Holds (d : Dev) (r : Reg) (die i j v : Nat) : Prop := d.reg r die i j = w64 v &&& maskOf (r.key die i j)

/-- Every byte of memory reads as before. -/
def SameMemory (s n : State) : Prop := ∀ a, n.dev.byte a = s.dev.byte a

/-- Every register whose key is not in `ks` reads as before. -/
def SameRegsBut (ks : List Nat) (s n : State) : Prop := ∀ k, k ∉ ks → n.dev.get k = s.dev.get k

/-- Every cell but physical cell `pk`, and every unit outside the cells, is unchanged. -/
def SameUnitsBut (pk : Nat) (s n : State) : Prop :=
  (∀ q, q ≠ pk → n.dev.cellAt q = s.dev.cellAt q) ∧ { n.dev.u with cells := s.dev.u.cells } = s.dev.u

/-- Within physical cell `pk`, everything but thread `t` is unchanged. -/
def SameCellBut (pk t : Nat) (s n : State) : Prop :=
  { n.dev.cellAt pk with threads := (s.dev.cellAt pk).threads } = s.dev.cellAt pk ∧
    ∀ u, u ≠ t → n.dev.threadAt pk u = s.dev.threadAt pk u

/-- The key of the issue counter of a class of a physical cell (R103). -/
def issueKey (cls pk : Nat) : Nat := (portReg cls).key (pk / 168) (pk % 168) 0

/-- The count of an issue at the port of its class (R103): an instruction that waits to issue again is not counted. -/
def counted (cls pk t : Nat) : Tr :=
  .read fun d => .when (!(d.threadAt pk t).wait.again) (.bump (portReg cls) (pk / 168) 1 (pk % 168))

/-- Operation `o` of an instruction of thread `t` has joined the operations in progress, and cell `pk` is `cell`; then the streams
of the cell have gone on. -/
def Launches (cls pk t : Nat) (o : MemOp) (cell : CellSt) (s n : State) : Prop :=
  n.pending = s.pending ∧ ∃ m : Dev, n.dev = (counted cls pk t).run ((Tr.pump pk).run m) ∧ m.mem = s.dev.mem ∧
    m.u.ops = s.dev.u.ops ++ [o] ∧ m.cellAt pk = cell

/-- Access `x` finds a cached translation `e` that permits it, and no fault of its own (R407, R411, R413, R416). -/
abbrev Hits (d : Dev) (x : XReq) (e : TlbEnt) : Prop :=
  x.slot < 64 ∧ d.u.xlat.ended.find? (·.1 = x.who) = none ∧ d.u.xlat.faults.any (·.waiters.contains x.who) = false ∧
    (d.reg XLAT_AS_CFG x.die x.slot).toNat.testBit 0 = true ∧
    bitsOf (d.reg XLAT_AS_SATP x.die x.slot).toNat 60 4 = 10 ∧ canonical x.va = true ∧
    d.u.xlat.cached x (bitsOf (d.reg XLAT_AS_SATP x.die x.slot).toNat 44 16) = some e ∧
    ptePermits (d.reg XLAT_AS_CFG x.die x.slot).toNat e.pte x.access = true ∧ pteNeeds e.pte x.access = 0

/-- The global address that a cached translation gives (R410). -/
def hitGa (x : XReq) (e : TlbEnt) : Nat :=
  (ptePpn e.pte * 4096 / leafSize e.level e.pte * leafSize e.level e.pte + x.va % leafSize e.level e.pte) % 2 ^ 56

/-- Whether a place lies in HBM. -/
def inHbm : Place → Bool
  | .hbm _ _ _ _ => true
  | _ => false

/-- Every sector of a range lies in HBM that can be read, with no symbol error and no poison. -/
abbrev Clean (d : Dev) (la len : Nat) : Prop :=
  ∀ a ∈ sectorsOf la len, inHbm (d.place a) = true ∧ d.accessStatus a = stOK ∧
    d.sectorErrs (d.sector a) = [] ∧ d.sectorPoison (d.sector a) = false

/-- Only thread `t` of physical cell `pk` and the cell's issue counter of the class have changed: memory, every other
register, every other thread, cell and unit, and the queue are as before. -/
def OnlyThread (cls pk t : Nat) (s n : State) : Prop :=
  n.pending = s.pending ∧ SameMemory s n ∧ SameRegsBut [issueKey cls pk] s n ∧ SameUnitsBut pk s n ∧ SameCellBut pk t s n

/-- A field of an instruction word. -/
def field (w : Word128) (lo len : Nat) : Nat := (w.extractLsb' lo len).toNat

/-- Scalar register `r` of a thread as a word; s0 reads zero (R124). -/
def sword (th : Thread) (r : Nat) : Word := BitVec.ofNat 64 (th.sreg r)

/-- The first source of the scalar layout: s[RS1] (R124). -/
def srcA (th : Thread) (w : Word128) : Word := sword th (field w 21 5)

/-- The "operand" of R125: IMM where I is 1, s[RS2] where it is 0. -/
def srcB (th : Thread) (w : Word128) : Word := if field w 40 1 = 1 then w.extractLsb' 64 64 else sword th (field w 26 5)

/-- The bits that the scalar operations with two sources define (R124, R127). -/
def aluUsed : Nat := mRD ||| mRS1 ||| mRS2 ||| mI ||| mIMM 64

/-- Thread `t` of cell `pk` has gone on to its next instruction with s[RD] := v; s0 ignores the write (R124). Nothing else has
changed but the issue counter of the class. -/
def WritesScalar (cls pk t rd : Nat) (v : Word) (s n : State) : Prop :=
  OnlyThread cls pk t s n ∧
  (∀ r, (n.dev.threadAt pk t).sreg r = if r = rd ∧ r ≠ 0 then v.toNat else (s.dev.threadAt pk t).sreg r) ∧
  { n.dev.threadAt pk t with s := (s.dev.threadAt pk t).s } = (s.dev.threadAt pk t).advance

/-- Thread `t` of cell `pk` has gone on to its next instruction with c[CD] := b; c0 ignores the write (R124). Nothing else has
changed but the issue counter of the class. -/
def WritesCond (cls pk t cd : Nat) (b : Bool) (s n : State) : Prop :=
  OnlyThread cls pk t s n ∧
  (∀ i, i < 8 → (n.dev.threadAt pk t).creg i = if i = cd ∧ i ≠ 0 then b else (s.dev.threadAt pk t).creg i) ∧
  { n.dev.threadAt pk t with c := (s.dev.threadAt pk t).c } = (s.dev.threadAt pk t).advance

/-! ## Vector instructions -/

/-- A RAM with bytes written at offsets from `a`, in order. -/
def ramWith (ram : Ram) (a : Nat) (ws : List (Nat × Byte)) : Ram := ws.foldl (fun r e => r.put (a + e.1) [e.2]) ram

/-- A vector instruction executes: its form is the role's, its fields are legal, its operands lie in the window or in the
scratchpad, no hazard holds, no operand is poisoned, and the first-NaN trap is off (R105, R110, R115, R171, R205 to R211). -/
def VecRuns (d : Dev) (x : Ctx) (sh : VShape) (legal : VF → Bool) (dstLen : VF → Nat) : Prop :=
  let v := vecArgs x
  let cs := d.cellAt x.pk
  let phys := fun (l : List Nat) => l.map (x.th.wbase + ·)
  x.vf.stream = roleStream x.role ∧ d.vecBasic x sh x.vf = true ∧ legal x.vf = true ∧ x.th.fpctl.testBit 4 = false ∧
    if x.vf.stream then
      x.vf.n ≠ 0 ∧ (vecFrom sh v ++ vecTo sh v dstLen).all (fun r => r.1 % 64 = 0 && (r.2 = 0 || r.1 + r.2 ≤ spadSize)) = true ∧
        (vecFrom sh v).any (fun r => cs.spadPoison r.1 r.2) = false
    else
      (vecReads x sh ++ vecWrites x sh).all (· < windowSize x.th.wsize) = true ∧
        cs.tileBusy (phys (vecReads x sh)) (phys (vecWrites x sh)) = false ∧ (phys (vecReads x sh)).any cs.tilePoison = false

/-- A vector instruction of thread `t` has written `o` to its destination, and scales to operand S3; the thread is at its next
instruction. The other RAMs of the cell, memory and the queue are as before. -/
def VecDone (pk t : Nat) (v : VF) (o : VOut) (s n : State) : Prop :=
  let cs := s.dev.cellAt pk
  let m := n.dev.cellAt pk
  let bytes := bitWrites (fun k => (cs.vram v.stream).get (operandBase v.stream v.dst + k)) o.ws
  n.pending = s.pending ∧ SameMemory s n ∧ m.acc = cs.acc ∧
    (if v.stream then m.tiles = cs.tiles ∧ m.spad = ramWith (ramWith cs.spad v.dst bytes) v.s3 o.scales
     else m.spad = cs.spad ∧ m.tiles = ramWith (ramWith cs.tiles (4096 * v.dst) bytes) (4096 * v.s3) o.scales) ∧
    (n.dev.threadAt pk t).pc = (s.dev.threadAt pk t).advance.pc ∧ (n.dev.threadAt pk t).st = .ready

/-- Thread `t` of cell `pk` is READY at its next instruction; memory, the accumulators and the queue are as before. -/
def CellGoes (pk t : Nat) (s n : State) : Prop :=
  n.pending = s.pending ∧ SameMemory s n ∧ (n.dev.cellAt pk).acc = (s.dev.cellAt pk).acc ∧
    (n.dev.threadAt pk t).pc = (s.dev.threadAt pk t).advance.pc ∧ (n.dev.threadAt pk t).st = .ready

/-- As `CellGoes`, with every tile register as before and the scratchpad `spad`. -/
def CellSpad (pk t : Nat) (spad : Ram) (s n : State) : Prop :=
  CellGoes pk t s n ∧ (n.dev.cellAt pk).tiles = (s.dev.cellAt pk).tiles ∧ (n.dev.cellAt pk).spad = spad

/-- As `CellGoes`, with the scratchpad as before and physical tile register `r` holding `bs` from its first byte on. -/
def CellTile (pk t r : Nat) (bs : List Byte) (s n : State) : Prop :=
  CellGoes pk t s n ∧ (n.dev.cellAt pk).spad = (s.dev.cellAt pk).spad ∧
    (n.dev.cellAt pk).tiles = ramWith (s.dev.cellAt pk).tiles (4096 * r) (bs.zipIdx.map fun e => (e.2, e.1))

/-- Every range lies in the scratchpad and those of `reads` hold no poison. -/
def SpadOk (cs : CellSt) (ranges reads : List (Nat × Nat)) : Prop :=
  ranges.all (fun r => r.2 = 0 || r.1 + r.2 ≤ spadSize) = true ∧ reads.any (fun r => cs.spadPoison r.1 r.2) = false

/-- The bytes `bs` have been written at local address `la` by the placement in force (R36); every other byte of memory reads as
before. -/
def Stores (la : Nat) (bs : List Byte) (s n : State) : Prop :=
  (∀ i, i < bs.length → n.dev.byte (s.dev.stor (la + i)) = bs.getD i 0) ∧
    ∀ a, (∀ i, i < bs.length → a ≠ s.dev.stor (la + i)) → n.dev.byte a = s.dev.byte a

/-- The pieces of a virtual range, each with a cached translation that permits the access: their global addresses (R280). -/
def Mapped (d : Dev) (x : XReq) : List (Nat × Nat) → List (Nat × Nat) → Prop
  | [], gas => gas = []
  | p :: ps, gas => ∃ e gs, Hits d { x with va := p.1 } e ∧ gas = (hitGa { x with va := p.1 } e, p.2) :: gs ∧ Mapped d x ps gs

/-- The global addresses `gas` of a virtual range lie in clean memory of this package. -/
def Reads (d : Dev) (x : XReq) (va len : Nat) (gas : List (Nat × Nat)) : Prop :=
  Mapped d { x with access := 0 } (pagePieces va len) gas ∧ ∀ g ∈ gas, d.isRemote g.1 = false ∧ Clean d (localOf g.1) g.2

/-- As `Reads`, for a write: no armed page waits to be staged (R499). -/
def Writes (d : Dev) (x : XReq) (va len : Nat) (gas : List (Nat × Nat)) : Prop :=
  Mapped d { x with access := 1 } (pagePieces va len) gas ∧
    ∀ g ∈ gas, d.isRemote g.1 = false ∧ Clean d (localOf g.1) g.2 ∧ d.u.ckpt.holds (localOf g.1) g.2 = false

/-- The bytes that memory holds at global addresses. -/
def bytesAt (d : Dev) (gas : List (Nat × Nat)) : List Byte := gas.flatMap fun g => d.rawBytes (localOf g.1) g.2

/-- The storage addresses and bytes, in order, of a write of `bs` to global addresses. -/
def writesAt (d : Dev) : List (Nat × Nat) → List Byte → List (Nat × Byte)
  | [], _ => []
  | g :: gs, bs => ((bs.take g.2).zipIdx.map fun e => (d.stor (localOf g.1 + e.2), e.1)) ++ writesAt d gs (bs.drop g.2)

/-- Memory is as before but for these writes, of which the last to an address counts. -/
def StoresList (ws : List (Nat × Byte)) (s n : State) : Prop :=
  ∀ a, n.dev.byte a = ((ws.reverse.find? (·.1 = a)).map (·.2)).getD (s.dev.byte a)

/-- Command `c` ends with a status and a result: its record is written, and what it held back may start (R447 to R449, R456),
from a device `m` on. -/
def Completes (c : Cmd) (st result : Nat) (m : Dev) (s n : State) : Prop :=
  n.pending = s.pending ∧ n.dev = (Tr.complete c st result).run m

/-- The number of command `c`, which it was given when it started, is its own. -/
def Single (d : Dev) (c : Cmd) : Prop := ∀ x ∈ d.u.cmd.cmds, x.seqNo = c.seqNo → x = c

/-! ## The bounds of R220 on the free intermediates -/

/-- The exact result `y` of transcendental operation `op` at `x` (R210): VRECIP, VRSQRT, VSQRT, VEXP, VEXP2, VLOG, VTANH, VSIGM,
VGELU (with the standard normal distribution function) and VSILU. -/
def TranscExact (op : Nat) (x y : ℝ) : Prop :=
  match op with
  | 0x0B => y = 1 / x
  | 0x0C => y = 1 / Real.sqrt x
  | 0x0D => y = Real.sqrt x
  | 0x0E => y = Real.exp x
  | 0x0F => y = Real.rpow 2 x
  | 0x10 => y = Real.log x
  | 0x11 => y = Real.tanh x
  | 0x12 => y = 1 / (1 + Real.exp (-x))
  | 0x13 => y = x * ∫ t in Set.Iic x, Real.exp (-t ^ 2 / 2) / Real.sqrt (2 * Real.pi)
  | 0x14 => y = x / (1 + Real.exp (-x))
  | _ => False

/-- `u` is an ulp of R220 at the exact result `y`. -/
def IsUlp (y u : ℝ) : Prop :=
  (|y| < 2 ^ (-126 : ℤ) → u = 2 ^ (-149 : ℤ)) ∧
    (2 ^ (-126 : ℤ) ≤ |y| → ∃ e : ℤ, (2 : ℝ) ^ e ≤ |y| ∧ |y| < (2 : ℝ) ^ (e + 1) ∧ u = (2 : ℝ) ^ (e - 23))

/-- Whether an error `err` at `x`, with exact result `y` and ulp `u`, keeps the bound of operation `op` (R220). -/
def TranscWithin (op : Nat) (x y u err : ℝ) : Prop :=
  match op with
  | 0x0B => err ≤ u
  | 0x0D => err ≤ u
  | 0x0C => err ≤ 2 * u
  | 0x0E => err ≤ 2 * u
  | 0x0F => err ≤ 2 * u
  | 0x10 => (1 / 2 ≤ x ∧ x ≤ 2 → err < 2 ^ (-22 : ℤ)) ∧ (x < 1 / 2 ∨ 2 < x → err ≤ 2 * u)
  | 0x11 => err ≤ 3 * u
  | 0x12 => err ≤ 3 * u
  | _ => (2 ^ (-20 : ℤ) ≤ |y| → err ≤ 4 * u) ∧ (|y| < 2 ^ (-20 : ℤ) → err < 2 ^ (-40 : ℤ))

/-- What R220 and R221 say of the free intermediates: at every source that is no special value, the intermediate keeps its
operation's bound; it overflows only where a value within the bound lies beyond the FP32 range, and vanishes only where zero
does not break the bound, with the sign of the exact result. No definition assumes it; a claim that needs a bound takes it as a
premise (log 6). -/
def TranscBounds : Prop :=
  ∀ (op : Nat) (q : Rat) (y u : ℝ), transcSpecial op (.ofRat q) = none → TranscExact op q y → IsUlp y u →
    let b := (Config.transc op q.num q.den).toNat
    let v := fp32.decode b
    let tooBig := Config.transcOver op q.num q.den
    let vanish := Config.transcVanish op q.num q.den
    (tooBig = false → vanish = false → v.isFin = true ∧ TranscWithin op q y u |(v.rat : ℝ) - y|) ∧
    (tooBig = true → (b.testBit 31 = true ↔ y < 0) ∧ ∃ z : ℝ, 2 ^ 128 - 2 ^ 104 < |z| ∧ TranscWithin op q y u |z - y|) ∧
    (vanish = true → y ≠ 0 ∧ (b.testBit 31 = true ↔ y < 0) ∧ TranscWithin op q y u |y|)

end Sys2Proof.Safety
end

