-- ==== Sys2Proof/Laws/Issue.lean ====
section
/-! SUPPORT. What the issue of an instruction does, said once: where its guard is on and its word is good, the meaning runs,
and the port's counter counts it. -/

namespace Sys2Proof.Machine

open Sys2Proof.Safety

/-! ## Cells and threads after a change -/

@[simp] theorem Tr.cell_mem (pk : Nat) (f : CellSt → CellSt) (d : Dev) : ((Tr.cell pk f).run d).mem = d.mem := (rfl)
@[simp] theorem Tr.cell_regs (pk : Nat) (f : CellSt → CellSt) (d : Dev) : ((Tr.cell pk f).run d).regs = d.regs := (rfl)
@[simp] theorem Tr.cell_get (pk k : Nat) (f : CellSt → CellSt) (d : Dev) : ((Tr.cell pk f).run d).get k = d.get k := by
  rw [Dev.get, Dev.get, Tr.cell_regs]
@[simp] theorem Tr.cell_reg (pk : Nat) (f : CellSt → CellSt) (r : Reg) (die i j : Nat) (d : Dev) :
    ((Tr.cell pk f).run d).reg r die i j = d.reg r die i j := by
  rw [Dev.reg, Dev.reg, Tr.cell_get]
theorem Tr.cell_u (pk : Nat) (f : CellSt → CellSt) (d : Dev) :
    ((Tr.cell pk f).run d).u = { d.u with cells := aupd d.u.cells pk {} f } := (rfl)
@[simp] theorem Tr.cell_cellAt_self (pk : Nat) (f : CellSt → CellSt) (d : Dev) :
    ((Tr.cell pk f).run d).cellAt pk = f (d.cellAt pk) := by
  simp [Dev.cellAt, Tr.cell_u]
theorem Tr.cell_cellAt_ne (pk q : Nat) (f : CellSt → CellSt) (d : Dev) (h : q ≠ pk) :
    ((Tr.cell pk f).run d).cellAt q = d.cellAt q := by
  simp [Dev.cellAt, Tr.cell_u, agetD_aupd_ne _ _ _ _ _ _ h]

@[simp] theorem CellSt.onThread_thread_self (cs : CellSt) (t : Nat) (f : Thread → Thread) :
    (cs.onThread t f).thread t = f (cs.thread t) := by
  simp [CellSt.onThread, CellSt.thread]
theorem CellSt.onThread_thread_ne (cs : CellSt) (t u : Nat) (f : Thread → Thread) (h : u ≠ t) :
    (cs.onThread t f).thread u = cs.thread u := by
  simp [CellSt.onThread, CellSt.thread, agetD_aupd_ne _ _ _ _ _ _ h]

theorem Tr.thread_eq (pk t : Nat) (f : Thread → Thread) : Tr.thread pk t f = Tr.cell pk fun cs => cs.onThread t f := (rfl)
@[simp] theorem Tr.thread_mem (pk t : Nat) (f : Thread → Thread) (d : Dev) : ((Tr.thread pk t f).run d).mem = d.mem := (rfl)
@[simp] theorem Tr.thread_get (pk t k : Nat) (f : Thread → Thread) (d : Dev) :
    ((Tr.thread pk t f).run d).get k = d.get k := by
  rw [Tr.thread_eq, Tr.cell_get]
@[simp] theorem Tr.thread_reg (pk t : Nat) (f : Thread → Thread) (r : Reg) (die i j : Nat) (d : Dev) :
    ((Tr.thread pk t f).run d).reg r die i j = d.reg r die i j := by
  rw [Tr.thread_eq, Tr.cell_reg]
@[simp] theorem Tr.thread_self (pk t : Nat) (f : Thread → Thread) (d : Dev) :
    ((Tr.thread pk t f).run d).threadAt pk t = f (d.threadAt pk t) := by
  simp [Tr.thread_eq, Dev.threadAt]
theorem Tr.thread_ne (pk t u : Nat) (f : Thread → Thread) (d : Dev) (h : u ≠ t) :
    ((Tr.thread pk t f).run d).threadAt pk u = d.threadAt pk u := by
  simp [Tr.thread_eq, Dev.threadAt, CellSt.onThread_thread_ne _ _ _ _ h]
theorem Tr.thread_cell_ne (pk t q : Nat) (f : Thread → Thread) (d : Dev) (h : q ≠ pk) :
    ((Tr.thread pk t f).run d).cellAt q = d.cellAt q := by
  rw [Tr.thread_eq, Tr.cell_cellAt_ne _ _ _ _ h]

@[simp] theorem Tr.bump_threadAt (r : Reg) (die n i j pk t : Nat) (d : Dev) :
    ((Tr.bump r die n i j).run d).threadAt pk t = d.threadAt pk t := by
  simp [Dev.threadAt, Dev.cellAt]
@[simp] theorem Tr.bump_cellAt (r : Reg) (die n i j pk : Nat) (d : Dev) :
    ((Tr.bump r die n i j).run d).cellAt pk = d.cellAt pk := by
  simp [Dev.cellAt]
@[simp] theorem Tr.reg_cellAt (r : Reg) (die : Nat) (v : Word) (i j pk : Nat) (d : Dev) :
    ((Tr.reg r die v i j).run d).cellAt pk = d.cellAt pk := by
  simp [Dev.cellAt]
@[simp] theorem Tr.fld_cellAt (r : Reg) (f : Fld) (die x i j pk : Nat) (d : Dev) :
    ((Tr.fld r f die x i j).run d).cellAt pk = d.cellAt pk := by
  simp [Dev.cellAt]

/-! ## Issue -/

/-- A word of its class and operation runs its own meaning. -/
theorem onWord_run {d : Dev} {c : PCell} {t : Tid} {w : Word128} {cls op used pk : Nat}
    (h : Issues d c t w cls op used pk) (x : Tr) : onWord cls op w x = x := by
  simp [onWord, h.1.1, h.1.2]

/-- The issue of an instruction runs its body, then counts it. -/
theorem issueIf_run {d : Dev} {c : PCell} {t : Tid} {w : Word128} {cls op used pk : Nat}
    (h : Issues d c t w cls op used pk) (room : Dev → Ctx → Bool) (hr : room d (ctxOf d c t w pk) = true)
    (body : Ctx → Tr) :
    (issueIf room c t w used body).run d = (counted cls pk t.val).run ((body (ctxOf d c t w pk)).run d) := by
  obtain ⟨⟨hc, -⟩, hp, hst, hg, hb, hro, hz⟩ := h
  simp only [issueIf, Tr.run_read, hp]
  simp only [hst, ne_eq, not_true_eq_false, if_false, hg, hb, Bool.false_eq_true, hr, hc, hro, hz]
  simp [counted]

/-- As `issueIf_run`, for a unit that always has room. -/
theorem issue_run {d : Dev} {c : PCell} {t : Tid} {w : Word128} {cls op used pk : Nat}
    (h : Issues d c t w cls op used pk) (body : Ctx → Tr) :
    (issue c t w used body).run d = (counted cls pk t.val).run ((body (ctxOf d c t w pk)).run d) :=
  issueIf_run h _ rfl body

/-- Counting changes one register at most. -/
@[simp] theorem Tr.counted_mem (cls pk t : Nat) (d : Dev) : ((counted cls pk t).run d).mem = d.mem := by
  simp only [counted, Tr.run_read]
  cases (d.threadAt pk t).wait.again <;> simp
@[simp] theorem Tr.counted_u (cls pk t : Nat) (d : Dev) : ((counted cls pk t).run d).u = d.u := by
  simp only [counted, Tr.run_read]
  cases (d.threadAt pk t).wait.again <;> simp
theorem Tr.counted_get (cls pk t k : Nat) (d : Dev) (h : k ≠ issueKey cls pk) :
    ((counted cls pk t).run d).get k = d.get k := by
  simp only [counted, Tr.run_read]
  cases (d.threadAt pk t).wait.again
  · simp only [Bool.not_false, Tr.when_true, Tr.bump_eq, Tr.count_run, Tr.fld_run]
    rw [if_neg (by decide)]
    exact Tr.setKey_get_ne _ _ _ _ h
  · simp
@[simp] theorem Tr.counted_cellAt (cls pk t q : Nat) (d : Dev) : ((counted cls pk t).run d).cellAt q = d.cellAt q := by
  simp [Dev.cellAt]
@[simp] theorem Tr.counted_threadAt (cls pk t q u : Nat) (d : Dev) :
    ((counted cls pk t).run d).threadAt q u = d.threadAt q u := by
  simp [Dev.threadAt]

/-- A change of one thread, counted: only that thread and the counter have changed. -/
theorem onlyThread_of_thread (s : State) (cls pk t : Nat) (f : Thread → Thread) :
    OnlyThread cls pk t s { s with dev := (counted cls pk t).run ((Tr.thread pk t f).run s.dev) } := by
  refine ⟨rfl, ?_, ?_, ⟨?_, ?_⟩, ?_, ?_⟩
  · intro a; simp [Dev.byte]
  · intro k hk; simp at hk; simp [Tr.counted_get _ _ _ _ _ hk]
  · intro q hq; simp [Tr.thread_cell_ne _ _ _ _ _ hq]
  · simp [Tr.thread_eq, Tr.cell_u]
  · simp [Tr.thread_eq, CellSt.onThread]
  · intro u hu; simp [Tr.thread_ne _ _ _ _ _ hu]

end Sys2Proof.Machine
end

