-- ==== Sys2Proof/Laws/Thread.lean ====
section
/-! SUPPORT. Registers of a thread, the fields of an instruction word, and what an instruction that only changes its thread
leaves. -/

namespace Sys2Proof.Machine

open Sys2Proof.Safety

/-! ## Fields -/

theorem field_eq (w : Word128) (lo len : Nat) : field w lo len = bitsOf w.toNat lo len := by
  simp [field, bitsOf, BitVec.extractLsb'_toNat]
theorem ctx_f (d : Dev) (c : PCell) (t : Tid) (w : Word128) (pk lo len : Nat) :
    (ctxOf d c t w pk).f lo len = field w lo len := by
  rw [field_eq]; rfl
theorem ctx_s (d : Dev) (c : PCell) (t : Tid) (w : Word128) (pk lo : Nat) :
    (ctxOf d c t w pk).s lo = (d.threadAt pk t.val).sreg (field w lo 5) := by
  rw [field_eq]; rfl
theorem ctx_imm (d : Dev) (c : PCell) (t : Tid) (w : Word128) (pk : Nat) : (ctxOf d c t w pk).imm = field w 64 64 := by
  rw [field_eq]; rfl
theorem ctx_rd (d : Dev) (c : PCell) (t : Tid) (w : Word128) (pk : Nat) : (ctxOf d c t w pk).rd = field w 16 5 := ctx_f ..

/-! ## Scalar registers -/

theorem agetD_eq_tget (l : List (Nat × Word)) (k : Nat) : agetD l k 0#64 = tget (fun _ => 0#64) l k := by
  induction l with
  | nil => rfl
  | cons e t ih => obtain ⟨a, b⟩ := e; simp only [agetD, aget?, tget] at *; split <;> simp_all
/-- s[r] after s[rd] := v. -/
theorem setS_sreg (th : Thread) (rd v r : Nat) :
    (th.setS rd v).sreg r = if r = rd ∧ r ≠ 0 then v % 2 ^ 64 else th.sreg r := by
  unfold Thread.setS Thread.sreg
  by_cases h0 : r = 0
  · simp [h0]
  · by_cases hrd : rd = 0
    · simp [h0, hrd]
    · by_cases h : r = rd
      · subst h; simp only [h0, if_false, w64]; simp [agetD_eq_tget, h0]
      · simp only [h0, hrd, if_false]; simp [agetD_eq_tget, tget_tset_ne _ _ _ _ _ h, h]
theorem setS_rest (th : Thread) (rd v : Nat) (l : List (Nat × Word)) (h : l = th.s) :
    { (th.setS rd v) with s := l } = th := by
  subst h; unfold Thread.setS; split <;> rfl
theorem sreg_lt (th : Thread) (r : Nat) : th.sreg r < 2 ^ 64 := by unfold Thread.sreg; split <;> omega
theorem sword_toNat (th : Thread) (r : Nat) : (sword th r).toNat = th.sreg r := by
  have := sreg_lt th r
  simp only [sword, BitVec.toNat_ofNat]; omega

@[simp] theorem advance_s (th : Thread) : th.advance.s = th.s := by unfold Thread.advance; rfl
@[simp] theorem advance_sreg (th : Thread) (r : Nat) : th.advance.sreg r = th.sreg r := by unfold Thread.sreg; rw [advance_s]
@[simp] theorem advance_c (th : Thread) : th.advance.c = th.c := by unfold Thread.advance; rfl
@[simp] theorem advance_creg (th : Thread) (i : Nat) : th.advance.creg i = th.creg i := by unfold Thread.creg; rw [advance_c]

theorem ctx_rs1 (d : Dev) (c : PCell) (t : Tid) (w : Word128) (pk : Nat) :
    (ctxOf d c t w pk).rs1 = (srcA (d.threadAt pk t.val) w).toNat := by
  rw [Ctx.rs1, ctx_s, srcA, sword_toNat]
theorem ctx_operand (d : Dev) (c : PCell) (t : Tid) (w : Word128) (pk : Nat) :
    (ctxOf d c t w pk).operand = (srcB (d.threadAt pk t.val) w).toNat := by
  unfold Ctx.operand srcB
  rw [ctx_f, ctx_imm, Ctx.rs2, ctx_s]
  split
  · rfl
  · rw [sword_toNat]

/-! ## Condition registers -/

/-- c[i] after c[k] := b. -/
theorem setC_creg (th : Thread) (k i : Nat) (b : Bool) :
    (th.setC k b).creg i = if i = k ∧ i ≠ 0 then b else th.creg i := by
  unfold Thread.setC Thread.creg
  by_cases h0 : i = 0
  · simp [h0]
  · by_cases hk : k = 0
    · simp [h0, hk]
    · simp only [h0, hk, if_false, testBit_putBits, testBit_b01, decide_false, Bool.false_or]
      by_cases h : i = k
      · subst h; simp [h0]
      · have : ¬ (k ≤ i ∧ i < k + 1) := by omega
        rw [if_neg this]; simp [h]
theorem setC_rest (th : Thread) (k : Nat) (b : Bool) (l : Nat) (h : l = th.c) : { (th.setC k b) with c := l } = th := by
  subst h; unfold Thread.setC; split <;> rfl

/-! ## Instructions that change only their thread -/

theorem writesScalar_of (s : State) (cls pk t rd : Nat) (v : Word) (m : Nat) (hm : m % 2 ^ 64 = v.toNat) :
    WritesScalar cls pk t rd v s
      { s with dev := (counted cls pk t).run ((Tr.thread pk t fun th => th.advance.setS rd m).run s.dev) } := by
  refine ⟨onlyThread_of_thread _ _ _ _ _, ?_, ?_⟩
  · intro r; simp only [Tr.counted_threadAt, Tr.thread_self, setS_sreg, advance_sreg, hm]
  · simp only [Tr.counted_threadAt, Tr.thread_self]; exact setS_rest _ _ _ _ (advance_s _).symm
theorem writesCond_of (s : State) (cls pk t cd : Nat) (b : Bool) :
    WritesCond cls pk t cd b s
      { s with dev := (counted cls pk t).run ((Tr.thread pk t fun th => th.advance.setC cd b).run s.dev) } := by
  refine ⟨onlyThread_of_thread _ _ _ _ _, ?_, ?_⟩
  · intro i _; simp only [Tr.counted_threadAt, Tr.thread_self, setC_creg, advance_creg]
  · simp only [Tr.counted_threadAt, Tr.thread_self]; exact setC_rest _ _ _ _ (advance_c _).symm

end Sys2Proof.Machine
end

