-- ==== Sys2Proof/Laws/Trap.lean ====
section
/-! SUPPORT. What a trap and the barriers of a cell do, said once (R126, R131, R134). -/

namespace Sys2Proof.Machine

open Sys2Proof.Safety

/-! ## Barriers -/

theorem aget?_map {α β : Type} (l : List (Nat × α)) (f : Nat × α → Nat × β) (g : Nat → α → β)
    (hf : ∀ e, f e = (e.1, g e.1 e.2)) (k : Nat) : aget? (l.map f) k = (aget? l k).map (g k) := by
  induction l with
  | nil => rfl
  | cons e l ih =>
    obtain ⟨a, b⟩ := e
    simp only [List.map_cons, hf, aget?]
    split
    · rename_i h; rw [h]; rfl
    · exact ih

/-- A thread that a change of all threads does not change reads as before. -/
theorem thread_map (cs : CellSt) (f : Nat × Thread → Nat × Thread) (g : Nat → Thread → Thread)
    (hf : ∀ e, f e = (e.1, g e.1 e.2)) (t : Nat) (hg : g t (cs.thread t) = cs.thread t) :
    ({ cs with threads := cs.threads.map f } : CellSt).thread t = cs.thread t := by
  unfold CellSt.thread agetD at *
  simp only [aget?_map _ _ _ hf]
  cases h : aget? cs.threads t with
  | none => rfl
  | some v => rw [h] at hg; simpa using hg

/-- What a completed barrier does to a thread. -/
def leaveBar (j : Nat) (x : Thread) : Thread :=
  match x.wait with
  | .bar j' _ => if j' = j then { x with st := .ready, wait := .nothing } else x
  | _ => x

/-- A thread that waits at no barrier is not changed by the barriers of its cell. -/
theorem barriers_thread (cs : CellSt) (t : Nat) (h : ∀ j m, (cs.thread t).wait ≠ .bar j m) :
    cs.barriers.thread t = cs.thread t := by
  have hl : ∀ j, leaveBar j (cs.thread t) = cs.thread t := by
    intro j; unfold leaveBar; split
    · rename_i j' m hw; exact absurd hw (h j' m)
    · rfl
  have step : ∀ (j : Nat) (x : CellSt), x.thread t = cs.thread t →
      (if x.barrierDone j = true then
        ({ x with threads := x.threads.map fun e => match e.2.wait with
            | .bar j' _ => if j' = j then (e.1, { e.2 with st := .ready, wait := .nothing }) else e
            | _ => e } : CellSt) else x).thread t = cs.thread t := by
    intro j x hx
    split
    · rw [thread_map x _ (fun _ => leaveBar j) _ t (by rw [hx]; exact hl j), hx]
      intro e; unfold leaveBar; split <;> (try split) <;> simp_all
    · exact hx
  unfold CellSt.barriers
  simp only [List.foldl_cons, List.foldl_nil]
  exact step 3 _ (step 2 _ (step 1 _ (step 0 _ rfl)))

/-- Whether the condition that a thread waits on holds (R99, R125). -/
def wakeGo (u : Units) (pk t : Nat) (x : Thread) : Bool :=
  match x.wait with
  | .requests n => decide (u.threadReqs pk t ≤ n)
  | .tile r => decide (agetD (agetD u.cells pk {}).pendW r 0 = 0)
  | .until_ t => decide (t ≤ u.time.elapsed)
  | _ => false

/-- What waking does to thread `t` of a cell. -/
def wakes (u : Units) (pk t : Nat) (x : Thread) : Thread :=
  if wakeGo u pk t x = true ∨ x.wait = .reissue then { x with st := .ready, wait := .nothing } else x

theorem wakes_wait (u : Units) (pk t j m : Nat) (x : Thread) (h : x.wait ≠ .bar j m) : (wakes u pk t x).wait ≠ .bar j m := by
  unfold wakes
  by_cases hc : wakeGo u pk t x = true ∨ x.wait = .reissue
  · rw [if_pos hc]; simp
  · rw [if_neg hc]; exact h

/-- A thread that waits at no barrier, after the waiting threads of its cell were woken. -/
theorem wake_thread (d : Dev) (pk t : Nat) (h : ∀ j m, (d.threadAt pk t).wait ≠ .bar j m) :
    ((Tr.units fun u => u.wake pk).run d).threadAt pk t = wakes d.u pk t (d.threadAt pk t) := by
  have hm : ∀ f : Nat × Thread → Nat × Thread, (∀ e, f e = (e.1, wakes d.u pk e.1 e.2)) →
      ({ d.cellAt pk with threads := (d.cellAt pk).threads.map f } : CellSt).thread t = wakes d.u pk t (d.threadAt pk t) := by
    intro f hf
    unfold Dev.threadAt CellSt.thread agetD
    simp only [aget?_map _ _ _ hf]
    cases aget? (d.cellAt pk).threads t with
    | none => simp [wakes, wakeGo]
    | some v => rfl
  unfold Dev.threadAt Dev.cellAt
  rw [Tr.units_u]
  unfold Units.wake
  simp only [agetD_tinsert_self]
  have hf : ∀ e : Nat × Thread, (
    let go : Bool := match e.2.wait with
      | .requests n => decide (d.u.threadReqs pk e.1 ≤ n)
      | .tile r => decide (agetD (agetD d.u.cells pk {}).pendW r 0 = 0)
      | .until_ t => decide (t ≤ d.u.time.elapsed)
      | _ => false
    if go then (e.1, { e.2 with st := .ready, wait := .nothing })
    else if e.2.wait = .reissue then (e.1, { e.2 with st := .ready, wait := .nothing })
    else e) = (e.1, wakes d.u pk e.1 e.2) := by
    intro e
    show (if wakeGo d.u pk e.1 e.2 = true then _ else _) = _
    unfold wakes
    by_cases h1 : wakeGo d.u pk e.1 e.2 = true
    · rw [if_pos h1, if_pos (.inl h1)]
    · rw [if_neg h1]
      by_cases h2 : e.2.wait = .reissue
      · rw [if_pos h2, if_pos (.inr h2)]
      · rw [if_neg h2, if_neg (by simp [h1, h2])]
  have := hm _ hf
  unfold Dev.cellAt at this
  refine (barriers_thread _ t ?_).trans this
  intro j m hh
  exact wakes_wait _ _ _ _ _ _ (h j m) ((congrArg Thread.wait this).symm.trans hh)

/-! ## Traps -/

theorem Tr.dropRunAhead_mem (pk : Nat) (p : RaEntry → Bool) (d : Dev) : ((Tr.dropRunAhead pk p).run d).mem = d.mem := by
  simp [Tr.dropRunAhead]
theorem Tr.dropRunAhead_thread (pk q t : Nat) (p : RaEntry → Bool) (d : Dev) :
    ((Tr.dropRunAhead pk p).run d).threadAt q t = d.threadAt q t := by
  simp only [Tr.dropRunAhead, Tr.run_read, Tr.run_seq_cons, Tr.run_seq_nil, Dev.threadAt]
  by_cases h : q = pk
  · subst h; simp [CellSt.thread]
  · simp [Tr.cell_cellAt_ne _ _ _ _ h]
theorem Tr.dropRunAhead_ra (pk : Nat) (p : RaEntry → Bool) (d : Dev) :
    (((Tr.dropRunAhead pk p).run d).cellAt pk).ra = (d.cellAt pk).ra.filter fun e => !p e := by
  simp [Tr.dropRunAhead]

/-- The record of a trap changes no memory and no unit. -/
theorem Tr.trapRecord_mem (pk t : Nat) (cause : Cause) (status pc : Nat) (d : Dev) :
    ((Tr.trapRecord pk t cause status pc).run d).mem = d.mem := by
  simp only [Tr.trapRecord, Tr.run_read]; split <;> simp
theorem Tr.trapRecord_u (pk t : Nat) (cause : Cause) (status pc : Nat) (d : Dev) :
    ((Tr.trapRecord pk t cause status pc).run d).u = d.u := by
  simp only [Tr.trapRecord, Tr.run_read]; split <;> simp

/-- The trap record of a cell that holds none (R134). -/
theorem Tr.trapRecord_holds (pk t : Nat) (cause : Cause) (status pc : Nat) (d : Dev)
    (h : d.flag CELL_TRAP CELL_TRAP_VALID (pk / 168) (pk % 168) = false) :
    let n := (Tr.trapRecord pk t cause status pc).run d
    Holds n CELL_TRAP (pk / 168) (pk % 168) 0
      (1 + b01 (d.flag CELL_TRAP CELL_TRAP_MORE (pk / 168) (pk % 168)) * 2 + cause.code * 2 ^ 4 + t * 2 ^ 8 + status * 2 ^ 16) ∧
    Holds n CELL_TRAP_PC (pk / 168) (pk % 168) 0 (pc % 2 ^ 57) ∧
    Holds n CELL_TRAP_BEAT (pk / 168) (pk % 168) 0 d.beatIdx := by
  have hk1 : ∀ a b : Nat, CELL_TRAP.key a b 0 ≠ CELL_TRAP_PC.key a b 0 := by intro a b; simp [Reg.key, CELL_TRAP, CELL_TRAP_PC]
  have hk2 : ∀ a b : Nat, CELL_TRAP.key a b 0 ≠ CELL_TRAP_BEAT.key a b 0 := by
    intro a b; simp [Reg.key, CELL_TRAP, CELL_TRAP_BEAT]
  have hk3 : ∀ a b : Nat, CELL_TRAP_PC.key a b 0 ≠ CELL_TRAP_BEAT.key a b 0 := by
    intro a b; simp [Reg.key, CELL_TRAP_PC, CELL_TRAP_BEAT]
  simp only [Tr.trapRecord, Tr.run_read, h, Bool.false_eq_true, if_false, Tr.run_seq_cons, Tr.run_seq_nil, Holds]
  refine ⟨?_, ?_, ?_⟩
  · rw [Tr.reg_reg_ne _ _ _ _ _ _ _ _ _ _ (hk2 _ _), Tr.reg_reg_ne _ _ _ _ _ _ _ _ _ _ (hk1 _ _), Tr.reg_reg_self]
  · rw [Tr.reg_reg_ne _ _ _ _ _ _ _ _ _ _ (hk3 _ _), Tr.reg_reg_self]
  · rw [Tr.reg_reg_self]

theorem Tr.dropRunAhead_holds (pk : Nat) (p : RaEntry → Bool) (d : Dev) (r : Reg) (die i j v : Nat)
    (hk : r.key die i j ≠ CELL_RA_DISCARDED.key (pk / 168) (pk % 168) 0) (h : Holds d r die i j v) :
    Holds ((Tr.dropRunAhead pk p).run d) r die i j v := by
  simp only [Tr.dropRunAhead, Tr.run_read, Tr.run_seq_cons, Tr.run_seq_nil, Holds] at *
  rw [Tr.bump_reg_ne _ _ _ _ _ _ _ _ _ _ hk, Tr.cell_reg, h]

/-- A trap changes no memory. -/
theorem Tr.trap_mem (pk t : Nat) (cause : Cause) (status pc : Nat) (d : Dev) :
    ((Tr.trap pk t cause status pc).run d).mem = d.mem := by
  simp [Tr.trap, Tr.trapRecord_mem, Tr.dropRunAhead_mem]

/-- The thread that traps. -/
theorem Tr.trap_thread (pk t : Nat) (cause : Cause) (status pc : Nat) (d : Dev) :
    ((Tr.trap pk t cause status pc).run d).threadAt pk t =
      { d.threadAt pk t with
        st := .trapped, wait := .nothing, carry := false, trap := some ((d.threadAt pk t).trap.getD status) } := by
  have hu : ∀ (f : Units → Units) (x : Dev), (f x.u).cells = x.u.cells → ((Tr.units f).run x).threadAt pk t = x.threadAt pk t := by
    intro f x hx; simp [Dev.threadAt, Dev.cellAt, hx]
  have hr : ((Tr.trapRecord pk t cause status pc).run d).threadAt pk t = d.threadAt pk t := by
    simp [Dev.threadAt, Dev.cellAt, Tr.trapRecord_u]
  simp only [Tr.trap, Tr.run_seq_cons, Tr.run_seq_nil]
  rw [Dev.threadAt, Tr.cell_cellAt_self, barriers_thread]
  · rw [← Dev.threadAt, Tr.dropRunAhead_thread, hu _ _ rfl, Tr.thread_self, hr]
  · intro j m
    rw [← Dev.threadAt, Tr.dropRunAhead_thread, hu _ _ rfl, Tr.thread_self]
    simp

/-- The record of a trap (R131, R134), in a cell that holds none. -/
theorem Tr.trap_holds (pk t : Nat) (cause : Cause) (status pc : Nat) (d : Dev)
    (h : d.flag CELL_TRAP CELL_TRAP_VALID (pk / 168) (pk % 168) = false) :
    let n := (Tr.trap pk t cause status pc).run d
    Holds n CELL_TRAP (pk / 168) (pk % 168) 0
      (1 + b01 (d.flag CELL_TRAP CELL_TRAP_MORE (pk / 168) (pk % 168)) * 2 + cause.code * 2 ^ 4 + t * 2 ^ 8 + status * 2 ^ 16) ∧
    Holds n CELL_TRAP_PC (pk / 168) (pk % 168) 0 (pc % 2 ^ 57) ∧
    Holds n CELL_TRAP_BEAT (pk / 168) (pk % 168) 0 d.beatIdx := by
  obtain ⟨h1, h2, h3⟩ := Tr.trapRecord_holds pk t cause status pc d h
  have keep : ∀ (r : Reg) (v : Nat) (x : Dev), r.key (pk / 168) (pk % 168) 0 ≠ CELL_RA_DISCARDED.key (pk / 168) (pk % 168) 0 →
      Holds x r (pk / 168) (pk % 168) 0 v →
      Holds ((Tr.cell pk fun cs => cs.barriers).run ((Tr.dropRunAhead pk fun e => e.thread = t).run
        ((Tr.units fun u => { u with ing := u.ing.returned fun a b => a = pk && b = t }).run ((Tr.thread pk t fun th =>
          { th with st := .trapped, wait := .nothing, carry := false, trap := some (th.trap.getD status) }).run x))))
        r (pk / 168) (pk % 168) 0 v := by
    intro r v x hk hx
    rw [Holds, Tr.cell_reg]
    refine Tr.dropRunAhead_holds pk _ _ r _ _ _ v hk ?_
    rw [Holds, Tr.units_reg, Tr.thread_reg]
    exact hx
  simp only [Tr.trap, Tr.run_seq_cons, Tr.run_seq_nil]
  exact ⟨keep _ _ _ (by simp [Reg.key, CELL_TRAP, CELL_RA_DISCARDED]) h1,
    keep _ _ _ (by simp [Reg.key, CELL_TRAP_PC, CELL_RA_DISCARDED]) h2,
    keep _ _ _ (by simp [Reg.key, CELL_TRAP_BEAT, CELL_RA_DISCARDED]) h3⟩

end Sys2Proof.Machine
end

