-- ==== Sys2Proof/Laws/Xlat.lean ====
section
/-! SUPPORT. What a translation that finds a cached entry does, and what a read of clean memory gives. -/

namespace Sys2Proof.Machine

open Sys2Proof.Safety

/-! ## Translation -/

/-- The device after access `x` found a cached translation: one hit more of the shared TLB and the leaf in the micro-TLB, unless
the micro-TLB held it. -/
def hitDev (x : XReq) (e : TlbEnt) (d : Dev) : Dev :=
  (Tr.tlbHit x (bitsOf (d.reg XLAT_AS_SATP x.die x.slot).toNat 44 16) e).run d

theorem hitDev_mem (x : XReq) (e : TlbEnt) (d : Dev) : (hitDev x e d).mem = d.mem := by
  simp only [hitDev, Tr.tlbHit, Tr.run_read, Tr.when]
  split <;> simp [Tr.xlatSt]

theorem hitDev_reg (x : XReq) (e : TlbEnt) (r : Reg) (n i j : Nat) (d : Dev) (h : r.key n i j ≠ XLAT_STLB_HITS.key x.die 0 0) :
    (hitDev x e d).reg r n i j = d.reg r n i j := by
  simp only [hitDev, Tr.tlbHit, Tr.run_read, Tr.when]
  split
  · rw [Tr.run_seq_cons, Tr.run_seq_cons, Tr.run_seq_nil, Tr.xlatSt, Tr.units_reg, Tr.bump_reg_ne _ _ _ _ _ _ _ _ _ _ h]
  · rw [Tr.run_skip]

/-- No unit but translation is touched. -/
theorem hitDev_cellAt (x : XReq) (e : TlbEnt) (d : Dev) (pk : Nat) : (hitDev x e d).cellAt pk = d.cellAt pk := by
  simp only [hitDev, Tr.tlbHit, Tr.run_read, Tr.when]
  split <;> simp [Tr.xlatSt, Dev.cellAt]

/-- A translation that finds a cached entry answers with its page. -/
theorem translate_hit {d : Dev} {x : XReq} {e : TlbEnt} (h : Hits d x e) (k : XRes → Tr) :
    (Tr.translate x k).run d = (k (.ok (hitGa x e) (ptePbmt e.pte) (pteBit e.pte 8))).run (hitDev x e d) := by
  obtain ⟨-, h1, h2, h3, h4, h5, h6, h7, h8⟩ := h
  simp only [Tr.translate, Tr.run_read, h1, h2, h3, h4, h5, h6, h7, h8, Bool.false_eq_true, if_false, Bool.not_true, ne_eq,
    not_true_eq_false, Bool.or_false, Bool.or_self, decide_false, Tr.run_seq_cons, Tr.run_seq_nil]
  rfl

end Sys2Proof.Machine
end

