-- ==== Sys2Proof/Laws/Mem.lean ====
section
/-! SUPPORT. What reads and writes of clean memory do: the bytes as stored, and nothing else but the count of free values. -/

namespace Sys2Proof.Machine

open Sys2Proof.Safety

/-- The device after `n` free values have been taken. -/
def freshBy (n : Nat) (d : Dev) : Dev := { d with u := { d.u with fresh := d.u.fresh + n } }

@[simp] theorem freshBy_zero (d : Dev) : freshBy 0 d = d := (rfl)
theorem freshBy_add (a b : Nat) (d : Dev) : freshBy a (freshBy b d) = freshBy (b + a) d := by
  simp [freshBy, Nat.add_assoc]
@[simp] theorem freshBy_mem (n : Nat) (d : Dev) : (freshBy n d).mem = d.mem := (rfl)
@[simp] theorem freshBy_regs (n : Nat) (d : Dev) : (freshBy n d).regs = d.regs := (rfl)
@[simp] theorem freshBy_reg (n : Nat) (d : Dev) (r : Reg) (die i j : Nat) : (freshBy n d).reg r die i j = d.reg r die i j := (rfl)
@[simp] theorem freshBy_get (n k : Nat) (d : Dev) : (freshBy n d).get k = d.get k := (rfl)
@[simp] theorem freshBy_byte (n a : Nat) (d : Dev) : (freshBy n d).byte a = d.byte a := (rfl)
@[simp] theorem freshBy_place (n la : Nat) (d : Dev) : (freshBy n d).place la = d.place la := (rfl)
@[simp] theorem freshBy_stor (n la : Nat) (d : Dev) : (freshBy n d).stor la = d.stor la := (rfl)
@[simp] theorem freshBy_access (n la : Nat) (d : Dev) : (freshBy n d).accessStatus la = d.accessStatus la := (rfl)
@[simp] theorem freshBy_sector (n la : Nat) (d : Dev) : (freshBy n d).sector la = d.sector la := (rfl)
@[simp] theorem freshBy_errs (n k : Nat) (d : Dev) : (freshBy n d).sectorErrs k = d.sectorErrs k := (rfl)
@[simp] theorem freshBy_poison (n k : Nat) (d : Dev) : (freshBy n d).sectorPoison k = d.sectorPoison k := (rfl)
@[simp] theorem freshBy_rawBytes (n a k : Nat) (d : Dev) : (freshBy n d).rawBytes a k = d.rawBytes a k := (rfl)
@[simp] theorem freshBy_cellAt (n pk : Nat) (d : Dev) : (freshBy n d).cellAt pk = d.cellAt pk := (rfl)
@[simp] theorem freshBy_threadAt (n pk t : Nat) (d : Dev) : (freshBy n d).threadAt pk t = d.threadAt pk t := (rfl)

/-- A sector that can be read, with no symbol error and no poison. -/
abbrev CleanAt (d : Dev) (a : Nat) : Prop :=
  inHbm (d.place a) = true ∧ d.accessStatus a = stOK ∧
    d.sectorErrs (d.sector a) = [] ∧ d.sectorPoison (d.sector a) = false

/-- A clean sector reads as stored. -/
theorem readSector_clean {d : Dev} {a : Nat} (ha : a % 64 = 0) (h : CleanAt d a) (fwd scrub : Bool) (agent die : Nat)
    (k : SecOut → Tr) :
    (Tr.readSector fwd scrub agent die a k).run d = (k { st := stOK, bytes := d.rawBytes a 64 }).run (freshBy 1 d) := by
  have he : a / 64 * 64 = a := by omega
  obtain ⟨hp, hs, herr, hpo⟩ := h
  have hret : d.retiredAt a = false := by
    unfold Dev.accessStatus at hs
    revert hs; revert hp
    cases d.place a <;> simp [inHbm]
    intro hs; revert hs; cases d.retiredAt a <;> simp
  unfold Tr.readSector
  simp only [Tr.run_read, he]
  revert hp
  cases hpl : d.place a with
  | hbm sd pc slot stor =>
    intro _
    simp only [hret, Bool.false_eq_true, if_false, hs, ne_eq, not_true_eq_false, herr, hpo, List.length_nil]
    simp only [Tr.fresh, Tr.run_read, Tr.run_seq_cons, Tr.run_seq_nil, secDecode, Bool.false_eq_true, if_false, Nat.zero_le, if_true,
      not_true_eq_false, decide_false, Tr.when_false, Tr.run_skip]
    rfl
  | _ => intro hp; simp [inHbm] at hp

/-- Clean sectors in order read as stored. -/
theorem readSectors_clean (fwd : Bool) (agent die : Nat) (k : RangeOut → Tr) :
    ∀ (ss : List Nat) (d : Dev) (o : RangeOut), o.st = stOK → (∀ a ∈ ss, a % 64 = 0 ∧ CleanAt d a) →
      (Tr.readSectors fwd agent die ss o k).run d =
        (k { st := stOK, bytes := o.bytes ++ ss.flatMap (fun s => d.rawBytes s 64), poisoned := o.poisoned }).run
          (freshBy ss.length d) := by
  intro ss
  induction ss with
  | nil => intro d o ho _; cases o; simp_all [Tr.readSectors]
  | cons s ss ih =>
    intro d o ho h
    have h1 := h s (by simp)
    simp only [Tr.readSectors]
    rw [readSector_clean h1.1 h1.2]
    rw [ih]
    · simp [freshBy_add, Nat.add_comm]
    · simp [ho]
    · intro a ha; exact h a (by simp [ha])

theorem rawBytes_append (d : Dev) (a m n : Nat) : d.rawBytes a (m + n) = d.rawBytes a m ++ d.rawBytes (a + m) n := by
  simp only [Dev.rawBytes, List.range_add, List.map_append, List.map_map]
  congr 1
  apply List.map_congr_left
  intro i _; simp [Nat.add_assoc]

theorem rawBytes_sectors (d : Dev) (b : Nat) : ∀ n, ((List.range n).map fun i => (b + i) * 64).flatMap (fun s => d.rawBytes s 64) =
    d.rawBytes (b * 64) (64 * n) := by
  intro n
  induction n with
  | zero => simp [Dev.rawBytes]
  | succ n ih =>
    rw [List.range_succ, List.map_append, List.flatMap_append, ih]
    rw [show 64 * (n + 1) = 64 * n + 64 by omega, rawBytes_append]
    simp only [List.map_cons, List.map_nil, List.flatMap_cons, List.flatMap_nil, List.append_nil]
    congr 2; omega

theorem rawBytes_length (d : Dev) (a n : Nat) : (d.rawBytes a n).length = n := by simp [Dev.rawBytes]

theorem rawBytes_drop_take (d : Dev) (a m n k : Nat) (h : m + n ≤ k) :
    ((d.rawBytes a k).drop m).take n = d.rawBytes (a + m) n := by
  obtain ⟨r, rfl⟩ := Nat.exists_eq_add_of_le h
  rw [rawBytes_append, rawBytes_append, List.append_assoc, List.drop_left' (rawBytes_length _ _ _),
    List.take_left' (rawBytes_length _ _ _)]

/-- A read of a clean range gives its bytes as stored. -/
theorem readRange_clean {d : Dev} {la len : Nat} (h : Clean d la len) (fwd : Bool) (agent die : Nat) (k : RangeOut → Tr) :
    (Tr.readRange fwd agent die la len k).run d =
      (k { st := stOK, bytes := d.rawBytes la len }).run (freshBy (sectorsOf la len).length d) := by
  unfold Tr.readRange
  rw [readSectors_clean]
  · simp only [List.nil_append]
    congr 3
    unfold sectorsOf
    split
    · rename_i h0; simp [h0, Dev.rawBytes]
    · rename_i h0
      rw [rawBytes_sectors, rawBytes_drop_take]
      · congr 1; omega
      · omega
  · rfl
  · intro a ha
    refine ⟨?_, h a ha⟩
    unfold sectorsOf at ha
    split at ha
    · simp at ha
    · simp at ha; obtain ⟨i, -, rfl⟩ := ha; omega

/-! ## Changes elsewhere -/

/-- The registers that say where a byte of HBM lies and whether it can be read (R36, R347). -/
def memKey (k : Nat) : Prop :=
  k = 0x4002018 ∨ k = 0x4002020 ∨ k = 0x4002028 ∨ (k / 2 ^ 24 < 4 ∧ 0x78800 ≤ k % 2 ^ 24 ∧ k % 2 ^ 24 < 0x78E00)

/-- `n` holds the same memory as `d`, under the same bookkeeping and the same placement. -/
structure SameMem (d n : Dev) : Prop where
  mem : n.mem = d.mem
  st : n.u.mem = d.u.mem
  keys : ∀ k, memKey k → n.get k = d.get k

theorem SameMem.refl (d : Dev) : SameMem d d := ⟨rfl, rfl, fun _ _ => rfl⟩
theorem SameMem.trans {a b c : Dev} (h : SameMem a b) (g : SameMem b c) : SameMem a c :=
  ⟨g.mem.trans h.mem, g.st.trans h.st, fun k hk => (g.keys k hk).trans (h.keys k hk)⟩
theorem SameMem.setKey (d : Dev) (k : Nat) (v : Word) (h : ¬ memKey k) : SameMem d ((Tr.setKey k v).run d) :=
  ⟨rfl, rfl, fun _ hj => Tr.setKey_get_ne _ _ _ _ fun e => h (e ▸ hj)⟩
theorem SameMem.units (d : Dev) (f : Units → Units) (h : (f d.u).mem = d.u.mem) : SameMem d ((Tr.units f).run d) :=
  ⟨rfl, h, fun _ _ => rfl⟩
theorem SameMem.reg (d : Dev) (r : Reg) (die : Nat) (v : Word) (i j : Nat) (h : ¬ memKey (r.key die i j)) :
    SameMem d ((Tr.reg r die v i j).run d) := by rw [Tr.reg_eq]; exact .setKey _ _ _ h
theorem SameMem.fld (d : Dev) (r : Reg) (f : Fld) (die x i j : Nat) (h : ¬ memKey (r.key die i j)) :
    SameMem d ((Tr.fld r f die x i j).run d) := by rw [Tr.fld_run]; exact .setKey _ _ _ h
theorem SameMem.count (d : Dev) (r : Reg) (f : Fld) (die n i j : Nat) (h : ¬ memKey (r.key die i j)) :
    SameMem d ((Tr.count r f die n i j).run d) := by
  rw [Tr.count_run]; split
  · exact .refl d
  · exact .fld _ _ _ _ _ _ _ h
theorem SameMem.bump (d : Dev) (r : Reg) (die n i j : Nat) (h : ¬ memKey (r.key die i j)) :
    SameMem d ((Tr.bump r die n i j).run d) := .count _ _ _ _ _ _ _ h
theorem SameMem.freshBy (d : Dev) (n : Nat) : SameMem d (freshBy n d) := ⟨rfl, rfl, fun _ _ => rfl⟩

theorem SameMem.place {d n : Dev} (h : SameMem d n) (a : Nat) (ha : a < 4 * hbmWindow) : n.place a = d.place a := by
  have hw : ∀ r, n.pkgWide r = d.pkgWide r := by
    intro r
    have h0 := h.keys 0x4002018 (.inl rfl)
    have h1 := h.keys 0x4002020 (.inr (.inl rfl))
    have h2 := h.keys 0x4002028 (.inr (.inr (.inl rfl)))
    unfold Dev.pkgWide
    split
    · rename_i hr
      have : r / 64 = 0 ∨ r / 64 = 1 := by omega
      rcases this with e | e <;> rw [e]
      · exact congrArg (fun v : Word => v.toNat.testBit (r % 64)) h0
      · exact congrArg (fun v : Word => v.toNat.testBit (r % 64)) h1
    · exact congrArg (fun v : Word => v.toNat.testBit (r % 64)) h2
  unfold Dev.place
  simp only [ha, if_true, hw]

/-- Only an address below 4 × 144 GiB lies in HBM. -/
theorem hbm_lt {d : Dev} {a : Nat} (h : inHbm (d.place a) = true) :
    a < 4 * hbmWindow := by
  by_contra hn
  refine absurd h ?_
  rw [Bool.not_eq_true]
  unfold Dev.place
  rw [if_neg hn]
  simp only [apply_ite inHbm]
  simp only [inHbm, ite_self]

theorem ilvPlace_bounds {wide : Bool} {wd o die pc slot st : Nat} (hw : wd < 4) (h : ilvPlace wide wd o = .hbm die pc slot st) :
    die < 4 ∧ pc < 192 := by
  unfold ilvPlace at h
  injection h with h1 h2 h3 h4
  subst h1; subst h2
  refine ⟨?_, Nat.mod_lt _ (by decide)⟩
  split <;> omega

theorem place_bounds {d : Dev} {a die pc slot st : Nat} (ha : a < 4 * hbmWindow) (h : d.place a = .hbm die pc slot st) :
    die < 4 ∧ pc < 192 := by
  unfold Dev.place at h
  simp only [ha, if_true] at h
  refine ilvPlace_bounds ?_ h
  unfold hbmWindow at *; omega

theorem SameMem.cleanAt {d n : Dev} (h : SameMem d n) {a : Nat} (c : CleanAt d a) : CleanAt n a := by
  have ha := hbm_lt c.1
  obtain ⟨c1, c2, c3, c4⟩ := c
  have hp := h.place a ha
  have hsec : n.sector a = d.sector a := by unfold Dev.sector Dev.stor; rw [hp]
  refine ⟨by rw [hp]; exact c1, ?_, ?_, ?_⟩
  · revert c2
    unfold Dev.accessStatus Dev.retiredAt
    rw [hp, h.st]
    revert c1
    cases hd : d.place a with
    | hbm die pc slot st =>
      intro _
      obtain ⟨b1, b2⟩ := place_bounds ha hd
      have : n.reg MEM_PC die pc 0 = d.reg MEM_PC die pc 0 :=
        h.keys _ (by right; right; right; simp [Reg.key, MEM_PC]; omega)
      simp only [Dev.flag, Dev.fld, this]
      exact id
    | _ => simp [inHbm]
  · rw [hsec]; unfold Dev.sectorErrs at *; rw [h.st]; exact c3
  · rw [hsec]; unfold Dev.sectorPoison at *; rw [h.st]; exact c4

theorem SameMem.clean {d n : Dev} (h : SameMem d n) {la len : Nat} (c : Clean d la len) : Clean n la len :=
  fun a ha => h.cleanAt (c a ha)

theorem SameMem.rawByte {d n : Dev} (h : SameMem d n) {a : Nat} (ha : a < 4 * hbmWindow) : n.rawByte a = d.rawByte a := by
  unfold Dev.rawByte Dev.stor Dev.byte
  rw [h.place a ha, h.st, h.mem]

theorem mem_sectorsOf (la len i : Nat) (h : i < len) : (la + i) / 64 * 64 ∈ sectorsOf la len := by
  unfold sectorsOf
  rw [if_neg (by omega)]
  simp only [List.mem_map, List.mem_range]
  exact ⟨(la + i) / 64 - la / 64, by omega, by omega⟩

theorem SameMem.rawBytes {d n : Dev} (h : SameMem d n) {la len : Nat} (c : Clean d la len) :
    n.rawBytes la len = d.rawBytes la len := by
  unfold Dev.rawBytes
  apply List.map_congr_left
  intro i hi
  simp only [List.mem_range] at hi
  have := hbm_lt (c _ (mem_sectorsOf la len i hi)).1
  exact h.rawByte (by unfold hbmWindow at *; omega)

/-- A read of a range that is clean, after changes elsewhere. -/
theorem readRange_same {d n : Dev} (h : SameMem d n) {la len : Nat} (c : Clean d la len) (fwd : Bool) (agent die : Nat)
    (k : RangeOut → Tr) :
    (Tr.readRange fwd agent die la len k).run n =
      (k { st := stOK, bytes := d.rawBytes la len }).run (freshBy (sectorsOf la len).length n) := by
  rw [readRange_clean (h.clean c), h.rawBytes c]

/-- The cached entry is found as well after changes of other registers. -/
theorem hits_of {d n : Dev} {x : XReq} {e : TlbEnt} (hu : n.u.xlat = d.u.xlat)
    (h1 : n.reg XLAT_AS_CFG x.die x.slot = d.reg XLAT_AS_CFG x.die x.slot)
    (h2 : n.reg XLAT_AS_SATP x.die x.slot = d.reg XLAT_AS_SATP x.die x.slot) (h : Hits d x e) : Hits n x e := by
  simpa only [Hits, hu, h1, h2] using h

end Sys2Proof.Machine
end

