-- ==== Sys2Proof/Laws/Vector.lean ====
section
/-! SUPPORT. What a vector instruction that executes does, said once for every operation. -/

namespace Sys2Proof.Machine

open Sys2Proof.Safety

/-- The window of a thread maps tile numbers within it. -/
theorem mapM_tile (x : Ctx) : ∀ ns : List Nat, ns.all (· < windowSize x.th.wsize) = true →
    ns.mapM x.tile = some (ns.map (x.th.wbase + ·)) := by
  intro ns
  induction ns with
  | nil => intro _; rfl
  | cons n ns ih =>
    intro h
    simp only [List.all_cons, Bool.and_eq_true, decide_eq_true_eq] at h
    simp only [List.mapM_cons, Ctx.tile, h.1, if_true, ih h.2, List.map_cons]
    rfl

/-- Running transformers one after another over a list. -/
theorem each_foldl {α β : Type} (f : α → Tr) (P : Dev → β) (g : β → α → β)
    (h : ∀ a d, P ((f a).run d) = g (P d) a) : ∀ (l : List α) (d : Dev), P ((Tr.each l f).run d) = l.foldl g (P d) := by
  intro l
  induction l with
  | nil => intro d; simp
  | cons a l ih => intro d; simp [ih, h]

theorem each_inv {α β : Type} (f : α → Tr) (P : Dev → β) (h : ∀ a d, P ((f a).run d) = P d) (l : List α) (d : Dev) :
    P ((Tr.each l f).run d) = P d := by
  rw [each_foldl f P (fun b _ => b) h]; simp

/-! ## Writing tiles and the scratchpad -/

theorem writeTile_mem (pk r : Nat) (ws : List (Nat × Byte)) (d : Dev) : ((Tr.writeTile pk r ws).run d).mem = d.mem := by
  simp [Tr.writeTile]
theorem writeTile_tiles (pk r : Nat) (ws : List (Nat × Byte)) (d : Dev) :
    (((Tr.writeTile pk r ws).run d).cellAt pk).tiles = ramWith (d.cellAt pk).tiles (4096 * r) ws := by
  simp [Tr.writeTile, ramWith]
theorem writeTile_spad (pk r : Nat) (ws : List (Nat × Byte)) (d : Dev) :
    (((Tr.writeTile pk r ws).run d).cellAt pk).spad = (d.cellAt pk).spad := by
  simp [Tr.writeTile]
theorem writeTile_acc (pk r : Nat) (ws : List (Nat × Byte)) (d : Dev) :
    (((Tr.writeTile pk r ws).run d).cellAt pk).acc = (d.cellAt pk).acc := by
  simp [Tr.writeTile]
theorem writeTile_thread (pk r t : Nat) (ws : List (Nat × Byte)) (d : Dev) :
    ((Tr.writeTile pk r ws).run d).threadAt pk t = d.threadAt pk t := by
  simp [Tr.writeTile, Dev.threadAt, CellSt.thread]

theorem writeSpad_mem (pk a : Nat) (bs : List Byte) (d : Dev) : ((Tr.writeSpad pk a bs).run d).mem = d.mem := by
  simp [Tr.writeSpad]
theorem writeSpad_spad (pk a : Nat) (bs : List Byte) (d : Dev) :
    (((Tr.writeSpad pk a bs).run d).cellAt pk).spad = (d.cellAt pk).spad.put a bs := by
  simp [Tr.writeSpad]
theorem writeSpad_tiles (pk a : Nat) (bs : List Byte) (d : Dev) :
    (((Tr.writeSpad pk a bs).run d).cellAt pk).tiles = (d.cellAt pk).tiles := by
  simp [Tr.writeSpad]
theorem writeSpad_acc (pk a : Nat) (bs : List Byte) (d : Dev) :
    (((Tr.writeSpad pk a bs).run d).cellAt pk).acc = (d.cellAt pk).acc := by
  simp [Tr.writeSpad]
theorem writeSpad_thread (pk a t : Nat) (bs : List Byte) (d : Dev) :
    ((Tr.writeSpad pk a bs).run d).threadAt pk t = d.threadAt pk t := by
  simp [Tr.writeSpad, Dev.threadAt, CellSt.thread]

/-- What a device looks like to a vector instruction of one thread. -/
abbrev vview (pk t : Nat) (d : Dev) : List Host.Cell × Ram × Ram × Ram × Thread :=
  (d.mem, (d.cellAt pk).tiles, (d.cellAt pk).spad, (d.cellAt pk).acc, d.threadAt pk t)

theorem spadBytes_view (pk t a : Nat) (ws : List (Nat × Byte)) (d : Dev) :
    vview pk t ((Tr.each ws fun e => .writeSpad pk (a + e.1) [e.2]).run d) =
      (d.mem, (d.cellAt pk).tiles, ramWith (d.cellAt pk).spad a ws, (d.cellAt pk).acc, d.threadAt pk t) := by
  have := each_foldl (fun e : Nat × Byte => Tr.writeSpad pk (a + e.1) [e.2]) (vview pk t)
    (fun b e => (b.1, b.2.1, b.2.2.1.put (a + e.1) [e.2], b.2.2.2.1, b.2.2.2.2))
    (by intro e d; simp only [vview, writeSpad_mem, writeSpad_tiles, writeSpad_spad, writeSpad_acc, writeSpad_thread]) ws d
  rw [this]
  unfold ramWith vview
  generalize (d.cellAt pk).spad = r
  induction ws generalizing r with
  | nil => rfl
  | cons e ws ih => simp only [List.foldl_cons]; exact ih (by
      refine each_foldl _ _ _ ?_ _ _
      intro e d; simp only [vview, writeSpad_mem, writeSpad_tiles, writeSpad_spad, writeSpad_acc, writeSpad_thread]) _

theorem tally_view (x : Ctx) (idx : Nat) (a : Tally) (d : Dev) :
    vview x.pk x.t ((x.tally idx a).run d) =
      (d.mem, (d.cellAt x.pk).tiles, (d.cellAt x.pk).spad, (d.cellAt x.pk).acc, (d.threadAt x.pk x.t).sticky a) := by
  simp [Ctx.tally, vview, Tr.thread_eq, Dev.threadAt, CellSt.thread, CellSt.onThread, CellSt.count]

theorem srStep_view (x : Ctx) (m : RMode) (k : Nat) (d : Dev) :
    ∃ r, vview x.pk x.t ((x.srStep m k).run d) =
      (d.mem, (d.cellAt x.pk).tiles, (d.cellAt x.pk).spad, (d.cellAt x.pk).acc, { d.threadAt x.pk x.t with srseed := r }) := by
  unfold Ctx.srStep
  split
  · exact ⟨_, by simp [vview, Tr.thread_eq, Dev.threadAt, CellSt.thread, CellSt.onThread]; rfl⟩
  · exact ⟨(d.threadAt x.pk x.t).srseed, rfl⟩

/-- Without its trap, a NaN changes nothing. -/
theorem nanTrap_off (x : Ctx) (e : Option NanEvent) (d : Dev) (h : (d.threadAt x.pk x.t).fpctl.testBit 4 = false) :
    (x.nanTrap e).run d = d := by
  unfold Ctx.nanTrap
  simp only [Tr.run_read]
  cases e with
  | none => rfl
  | some e => simp [bitOf, h]

theorem sticky_bit4 (th : Thread) (a : Tally) : (th.sticky a).fpctl.testBit 4 = th.fpctl.testBit 4 := by
  unfold Thread.sticky
  dsimp only
  split <;> split <;> split <;> simp [testBit_putBits]
theorem sticky_pc (th : Thread) (a : Tally) : (th.sticky a).pc = th.pc := by unfold Thread.sticky; rfl
theorem sticky_st (th : Thread) (a : Tally) : (th.sticky a).st = th.st := by unfold Thread.sticky; rfl
theorem sticky_loops (th : Thread) (a : Tally) : (th.sticky a).loops = th.loops := by unfold Thread.sticky; rfl

theorem advance_pc_congr (a b : Thread) (h : a.pc = b.pc) (g : a.loops = b.loops) : a.advance.pc = b.advance.pc := by
  unfold Thread.advance; rw [h, g]
theorem advance_st (a : Thread) : a.advance.st = a.st := by unfold Thread.advance; rfl
theorem advance_fpctl (a : Thread) : a.advance.fpctl = a.fpctl := by unfold Thread.advance; rfl

/-- The bytes a vector instruction writes. -/
theorem vecStore_view (pk t : Nat) (v : VF) (ts3 : Nat) (bytes scales : List (Nat × Byte)) (d : Dev) :
    vview pk t ((if v.stream then
        Tr.seq [.each bytes fun (k, b) => .writeSpad pk (v.dst + k) [b], .each scales fun (k, b) => .writeSpad pk (v.s3 + k) [b]]
      else Tr.seq [.when (!bytes.isEmpty) (.writeTile pk v.dst bytes), .when (!scales.isEmpty) (.writeTile pk ts3 scales)]).run d) =
      if v.stream then (d.mem, (d.cellAt pk).tiles, ramWith (ramWith (d.cellAt pk).spad v.dst bytes) v.s3 scales,
        (d.cellAt pk).acc, d.threadAt pk t)
      else (d.mem, ramWith (ramWith (d.cellAt pk).tiles (4096 * v.dst) bytes) (4096 * ts3) scales, (d.cellAt pk).spad,
        (d.cellAt pk).acc, d.threadAt pk t) := by
  have htile : ∀ (r : Nat) (ws : List (Nat × Byte)) (d : Dev), vview pk t ((Tr.when (!ws.isEmpty) (.writeTile pk r ws)).run d) =
      (d.mem, ramWith (d.cellAt pk).tiles (4096 * r) ws, (d.cellAt pk).spad, (d.cellAt pk).acc, d.threadAt pk t) := by
    intro r ws d
    cases ws with
    | nil => rfl
    | cons e ws =>
      simp only [List.isEmpty_cons, Bool.not_false, Tr.when_true, vview, writeTile_mem, writeTile_tiles, writeTile_spad,
        writeTile_acc, writeTile_thread]
  cases v.stream with
  | true =>
    simp only [if_true, Tr.run_seq_cons, Tr.run_seq_nil]
    have h1 := spadBytes_view pk t v.dst bytes d
    have h2 := spadBytes_view pk t v.s3 scales ((Tr.each bytes fun e => .writeSpad pk (v.dst + e.1) [e.2]).run d)
    simp only [vview, Prod.mk.injEq] at h1 h2 ⊢
    obtain ⟨a1, a2, a3, a4, a5⟩ := h1
    rw [a1, a2, a3, a4, a5] at h2
    exact h2
  | false =>
    simp only [Bool.false_eq_true, if_false, Tr.run_seq_cons, Tr.run_seq_nil]
    have h1 := htile v.dst bytes d
    have h2 := htile ts3 scales ((Tr.when (!bytes.isEmpty) (.writeTile pk v.dst bytes)).run d)
    simp only [vview, Prod.mk.injEq] at h1 h2 ⊢
    obtain ⟨a1, a2, a3, a4, a5⟩ := h1
    rw [a1, a2, a3, a4, a5] at h2
    exact h2

/-- What writing the results of a vector instruction does, with the first-NaN trap off. -/
theorem vecWrite_done (x : Ctx) (v : VF) (cycles : Nat) (o : VOut) (d : Dev) (hn : (d.threadAt x.pk x.t).fpctl.testBit 4 = false) :
    let n := (x.vecWrite v v.s3 cycles o).run d
    let cs := d.cellAt x.pk
    let m := n.cellAt x.pk
    let bytes := bitWrites (fun k => (cs.vram v.stream).get (operandBase v.stream v.dst + k)) o.ws
    n.mem = d.mem ∧ m.acc = cs.acc ∧
    (if v.stream then m.tiles = cs.tiles ∧ m.spad = ramWith (ramWith cs.spad v.dst bytes) v.s3 o.scales
     else m.spad = cs.spad ∧ m.tiles = ramWith (ramWith cs.tiles (4096 * v.dst) bytes) (4096 * v.s3) o.scales) ∧
    (n.threadAt x.pk x.t).pc = (d.threadAt x.pk x.t).advance.pc ∧ (n.threadAt x.pk x.t).st = (d.threadAt x.pk x.t).st := by
  intro n cs m bytes
  have hv := vecStore_view x.pk x.t v v.s3 bytes o.scales d
  generalize hd1 : (if v.stream then
        Tr.seq [.each bytes fun (k, b) => .writeSpad x.pk (v.dst + k) [b], .each o.scales fun (k, b) => .writeSpad x.pk (v.s3 + k) [b]]
      else Tr.seq [.when (!bytes.isEmpty) (.writeTile x.pk v.dst bytes), .when (!o.scales.isEmpty) (.writeTile x.pk v.s3 o.scales)]).run d
      = d1 at hv
  have h2 := tally_view x (censusIndex v.fmtd) o.tally d1
  generalize hd2 : (x.tally (censusIndex v.fmtd) o.tally).run d1 = d2 at h2
  obtain ⟨r, h3⟩ := srStep_view x (x.rmode v.rm) o.npos d2
  generalize hd3 : (x.srStep (x.rmode v.rm) o.npos).run d2 = d3 at h3
  have hth : ((Tr.bump VEC_BUSY x.die cycles x.p).run ((Tr.bump VEC_INSTR x.die 1 x.p).run d3)).threadAt x.pk x.t =
      { (d.threadAt x.pk x.t).sticky o.tally with srseed := r } := by
    rw [Tr.bump_threadAt, Tr.bump_threadAt]
    have e3 := congrArg (fun p => p.2.2.2.2) h3
    have e2 := congrArg (fun p => p.2.2.2.2) h2
    have e1 : d1.threadAt x.pk x.t = d.threadAt x.pk x.t := by
      have := congrArg (fun p => p.2.2.2.2) hv
      revert this; cases v.stream <;> exact id
    simp only at e3 e2
    rw [e3, e2, e1]
  have hn' : n = x.next.run ((Tr.bump VEC_BUSY x.die cycles x.p).run ((Tr.bump VEC_INSTR x.die 1 x.p).run d3)) := by
    have : n = (x.nanTrap (o.nan.map fun (p, kd) => { unit := 2, fmt := v.fmtd, kind := kd, elem := p })).run
      (x.next.run ((Tr.bump VEC_BUSY x.die cycles x.p).run ((Tr.bump VEC_INSTR x.die 1 x.p).run d3))) := by
      subst hd3; subst hd2; subst hd1; rfl
    rw [this, nanTrap_off]
    unfold Ctx.next
    rw [Tr.thread_self, hth, advance_fpctl]
    exact (sticky_bit4 _ _).trans hn
  have hfin : vview x.pk x.t n = (d3.mem, (d3.cellAt x.pk).tiles, (d3.cellAt x.pk).spad, (d3.cellAt x.pk).acc,
      ({ (d.threadAt x.pk x.t).sticky o.tally with srseed := r } : Thread).advance) := by
    rw [hn']
    unfold Ctx.next vview
    rw [Tr.thread_self, hth]
    simp [Tr.thread_eq, CellSt.onThread]
  simp only [vview, Prod.mk.injEq] at hfin h2 h3
  obtain ⟨f1, f2, f3, f4, f5⟩ := hfin
  obtain ⟨g1, g2, g3, g4, -⟩ := h3
  obtain ⟨k1, k2, k3, k4, -⟩ := h2
  have hadv : (n.threadAt x.pk x.t).pc = (d.threadAt x.pk x.t).advance.pc ∧ (n.threadAt x.pk x.t).st = (d.threadAt x.pk x.t).st := by
    rw [f5, advance_st]
    exact ⟨advance_pc_congr _ _ (sticky_pc (d.threadAt x.pk x.t) o.tally) (sticky_loops (d.threadAt x.pk x.t) o.tally),
      sticky_st (d.threadAt x.pk x.t) o.tally⟩
  revert hv
  simp only [m, f1, f2, f3, f4, g1, g2, g3, g4, k1, k2, k3, k4, cs, bytes]
  cases v.stream with
  | true =>
    simp only [if_true, vview, Prod.mk.injEq]
    rintro ⟨a1, a2, a3, a4, -⟩
    exact ⟨a1, a4, ⟨a2, a3⟩, hadv⟩
  | false =>
    simp only [Bool.false_eq_true, if_false, vview, Prod.mk.injEq]
    rintro ⟨a1, a2, a3, a4, -⟩
    exact ⟨a1, a4, ⟨a3, a2⟩, hadv⟩

theorem vecArgs_stream (x : Ctx) : (vecArgs x).stream = x.vf.stream := by unfold vecArgs; split <;> rfl

theorem vecArgs_n (x : Ctx) : (vecArgs x).n = x.vf.n := by unfold vecArgs; split <;> rfl

/-- A vector instruction that executes comes to writing its results. -/
theorem vecBody_run {d : Dev} {x : Ctx} {sh : VShape} {legal : VF → Bool} {cycles dstLen : VF → Nat}
    {body : CellSt → Ctx → VF → VOut} (hr : VecRuns d x sh legal dstLen) :
    ∃ k j, (vecBody sh legal cycles dstLen body x).run d =
      (x.vecWrite (vecArgs x) (vecArgs x).s3 k
        (vecOut d.u.fresh sh (vecArgs x) dstLen (body (d.cellAt x.pk) x (vecArgs x)))).run (freshBy j d) := by
  obtain ⟨r1, r2, r3, r4, r5⟩ := hr
  have e1 := vecArgs_stream x
  have e2 := vecArgs_n x
  unfold vecBody
  generalize vecArgs x = v at *
  generalize vecReads x sh = rs at *
  generalize vecWrites x sh = ws at *
  generalize x.vf = v0 at *
  simp only [Tr.run_read, r1, r2, r3, bne_self_eq_false, Bool.not_true, Bool.or_self, Bool.false_eq_true, if_false]
  refine ⟨cycles v, ?_⟩
  cases hs : v.stream with
  | true =>
    rw [hs] at e1
    simp only [← e1, if_true, ← e2] at r5 ⊢
    obtain ⟨q1, q2, q3⟩ := r5
    have qa : ((vecFrom sh v ++ vecTo sh v dstLen).any fun r => decide (r.1 % 64 ≠ 0)) = false := by
      rw [List.any_eq_false]; rw [List.all_eq_true] at q2
      intro r hr; have := q2 r hr; simp at this; simp [this.1]
    have qb : ((vecFrom sh v ++ vecTo sh v dstLen).all fun r => decide (r.2 = 0) || decide (r.1 + r.2 ≤ spadSize)) = true := by
      rw [List.all_eq_true] at q2 ⊢
      intro r hr; have := q2 r hr; simp at this; simp [this.2]
    refine ⟨1, ?_⟩
    simp only [q1, if_false, qa, Bool.false_eq_true, Ctx.inSpad, qb, if_true, Ctx.unpoisoned, Tr.run_read, q3, Tr.fresh,
      Tr.run_seq_cons, Tr.run_seq_nil]
    rfl
  | false =>
    rw [hs] at e1
    simp only [← e1, Bool.false_eq_true, if_false] at r5 ⊢
    obtain ⟨q1, q2, q3⟩ := r5
    refine ⟨0, ?_⟩
    have ht : ((rs ++ ws).map (x.th.wbase + ·)).take rs.length = rs.map (x.th.wbase + ·) := by
      rw [List.map_append]; exact List.take_left' (by simp)
    have hd : ((rs ++ ws).map (x.th.wbase + ·)).drop rs.length = ws.map (x.th.wbase + ·) := by
      rw [List.map_append]; exact List.drop_left' (by simp)
    simp only [Ctx.withTiles, mapM_tile x _ q1, ht, hd, Ctx.hazard, Tr.run_read, q2, Ctx.unpoisoned, q3, Bool.false_eq_true,
      if_false, vecOut, hs]
    rfl

/-- A vector instruction that executes writes its results. -/
theorem vecInstr_done {s : State} {c : PCell} {t : Tid} {w : Word128} {op pk : Nat} {sh : VShape} {legal : VF → Bool}
    {cycles dstLen : VF → Nat} {body : CellSt → Ctx → VF → VOut} (h : Issues s.dev c t w 4 op (sh.used w.toNat) pk)
    (hr : VecRuns s.dev (ctxOf s.dev c t w pk) sh legal dstLen) :
    VecDone pk t.val (vecArgs (ctxOf s.dev c t w pk))
      (vecOut s.dev.u.fresh sh (vecArgs (ctxOf s.dev c t w pk)) dstLen
        (body (s.dev.cellAt pk) (ctxOf s.dev c t w pk) (vecArgs (ctxOf s.dev c t w pk)))) s
      { s with dev := (vecInstr c t w sh legal cycles dstLen body).run s.dev } := by
  have hst := h.2.2.1
  have r4 := hr.2.2.2.1
  obtain ⟨k, j, hb⟩ := vecBody_run (cycles := cycles) (body := body) hr
  rw [vecInstr, issue_run h, hb]
  obtain ⟨w1, w2, w3, w4, w5⟩ := vecWrite_done (ctxOf s.dev c t w pk) (vecArgs (ctxOf s.dev c t w pk)) k _ (freshBy j s.dev) r4
  refine ⟨rfl, ?_, ?_, ?_, ?_, ?_⟩
  · intro a; simp only [Dev.byte, Tr.counted_mem]; rw [w1, freshBy_mem]
  · rw [Tr.counted_cellAt]; exact w2
  · rw [Tr.counted_cellAt]; exact w3
  · rw [Tr.counted_threadAt]; exact w4
  · rw [Tr.counted_threadAt]; exact w5.trans hst

end Sys2Proof.Machine
end

