-- ==== Sys2Proof/Certificates/Slice0/Obligations.lean ====
section
/-! DEFINITION. The statements for the provers. -/

open Sys2Proof Sys2Proof.Machine Sys2Proof.Safety

/-- The sixteen scalar operations complete with the result of R127 in s[RD], modulo 2^64, and change nothing else: two sources, LI and
SEL. -/
def Obligations.ScalarOperations : Prop :=
  ∀ (s : State) (c : PCell) (t : Tid) (w : Word128) (pk : Nat),
    let th := s.dev.threadAt pk t.val
    let a := srcA th w
    let b := srcB th w
    let done := WritesScalar 1 pk t.val (field w 16 5)
    (Issues s.dev c t w 1 0 aluUsed pk → ∃ n, exec (.add c t w) s = .next n ∧ done (a + b) s n) ∧
    (Issues s.dev c t w 1 1 aluUsed pk → ∃ n, exec (.sub c t w) s = .next n ∧ done (a - b) s n) ∧
    (Issues s.dev c t w 1 2 aluUsed pk → ∃ n, exec (.and c t w) s = .next n ∧ done (a &&& b) s n) ∧
    (Issues s.dev c t w 1 3 aluUsed pk → ∃ n, exec (.or c t w) s = .next n ∧ done (a ||| b) s n) ∧
    (Issues s.dev c t w 1 4 aluUsed pk → ∃ n, exec (.xor c t w) s = .next n ∧ done (a ^^^ b) s n) ∧
    (Issues s.dev c t w 1 5 aluUsed pk → ∃ n, exec (.shl c t w) s = .next n ∧ done (a <<< (b.toNat % 64)) s n) ∧
    (Issues s.dev c t w 1 6 aluUsed pk → ∃ n, exec (.shr c t w) s = .next n ∧ done (a >>> (b.toNat % 64)) s n) ∧
    (Issues s.dev c t w 1 7 aluUsed pk →
      ∃ n, exec (.sra c t w) s = .next n ∧ done (a.sshiftRight (b.toNat % 64)) s n) ∧
    (Issues s.dev c t w 1 8 aluUsed pk → ∃ n, exec (.mul c t w) s = .next n ∧ done (a * b) s n) ∧
    (Issues s.dev c t w 1 9 aluUsed pk →
      ∃ n, exec (.mulhu c t w) s = .next n ∧ done ((a.setWidth 128 * b.setWidth 128) >>> 64 |>.setWidth 64) s n) ∧
    (Issues s.dev c t w 1 10 aluUsed pk → ∃ n, exec (.min c t w) s = .next n ∧ done (if a.slt b then a else b) s n) ∧
    (Issues s.dev c t w 1 11 aluUsed pk → ∃ n, exec (.max c t w) s = .next n ∧ done (if a.slt b then b else a) s n) ∧
    (Issues s.dev c t w 1 12 aluUsed pk → ∃ n, exec (.minu c t w) s = .next n ∧ done (if a.ult b then a else b) s n) ∧
    (Issues s.dev c t w 1 13 aluUsed pk → ∃ n, exec (.maxu c t w) s = .next n ∧ done (if a.ult b then b else a) s n) ∧
    (Issues s.dev c t w 1 14 (mRD ||| mIMM 64) pk →
      ∃ n, exec (.li c t w) s = .next n ∧ done (w.extractLsb' 64 64) s n) ∧
    (Issues s.dev c t w 1 15 (mRD ||| mRS1 ||| mRS2 ||| mCS1) pk →
      ∃ n, exec (.sel c t w) s = .next n ∧
        done (if th.creg (field w 34 3) then sword th (field w 21 5) else sword th (field w 26 5)) s n)

/-- NOP, the branches, the calls and LOOP complete as R125 says: the pc, the loops and the return stack of the thread, and
nothing else but the issue counter. The clauses of LOOP are its three cases: a body, a count of 0, and a length of 0. CMP, CLOG, MFS
and MTS complete with the condition, scalar or special register that R125 and R128 name. -/
def Obligations.ControlInstructions : Prop :=
  ∀ (s : State) (c : PCell) (t : Tid) (w : Word128) (pk : Nat),
    let th := s.dev.threadAt pk t.val
    let imm := w.extractLsb' 64 64
    let rel := (w64 th.pc + imm <<< 4).toNat
    let reg := (srcA th w).toNat
    let len := field w 96 16
    let count := if field w 40 1 = 1 then field w 64 32 else reg % 2 ^ 32
    let used := mRS1 ||| mI ||| mIMM 48
    let goes := fun (x : Thread) (n : State) => OnlyThread 0 pk t.val s n ∧ n.dev.threadAt pk t.val = x
    let a := srcA th w
    let b := srcB th w
    let x := th.creg (field w 34 3)
    let y := th.creg (field w 37 3)
    let cmp := fun (code : Nat) (r : Bool) =>
      Issues s.dev c t w 0 7 (fmask 16 3 ||| mRS1 ||| mRS2 ||| mCD ||| mI ||| mIMM 64) pk → field w 16 3 = code →
        ∃ n, exec (.cmp c t w) s = .next n ∧ WritesCond 0 pk t.val (field w 31 3) r s n
    let clog := fun (code : Nat) (r : Bool) =>
      Issues s.dev c t w 0 8 (fmask 16 2 ||| mCD ||| mCS1 ||| mCS2) pk → field w 16 2 = code →
        ∃ n, exec (.clog c t w) s = .next n ∧ WritesCond 0 pk t.val (field w 31 3) r s n
    let mfs := fun (k v : Nat) =>
      Issues s.dev c t w 0 14 (mRD ||| mIMM 8) pk → field w 64 64 = k →
        ∃ n, exec (.mfs c t w) s = .next n ∧ WritesScalar 0 pk t.val (field w 16 5) (w64 v) s n
    let mts := fun (k : Nat) (y : Thread) =>
      Issues s.dev c t w 0 15 (mRS1 ||| mIMM 8) pk → field w 64 64 = k →
        ∃ n, exec (.mts c t w) s = .next n ∧ OnlyThread 0 pk t.val s n ∧ n.dev.threadAt pk t.val = y
    (Issues s.dev c t w 0 0 0 pk → ∃ n, exec (.nop c t w) s = .next n ∧ goes th.advance n) ∧
    (Issues s.dev c t w 0 2 (mIMM 64) pk →
      ∃ n, exec (.br c t w) s = .next n ∧ goes { th with pc := rel, loops := leaveLoops rel th.loops } n) ∧
    (Issues s.dev c t w 0 3 mRS1 pk → reg % 16 = 0 →
      ∃ n, exec (.brr c t w) s = .next n ∧ goes { th with pc := reg, loops := leaveLoops reg th.loops } n) ∧
    (Issues s.dev c t w 0 4 (mIMM 64) pk → th.rets.length < 8 →
      ∃ n, exec (.call c t w) s = .next n ∧ goes { th with pc := rel, rets := (th.pc + 16) :: th.rets } n) ∧
    (∀ r rs, Issues s.dev c t w 0 5 0 pk → th.rets = r :: rs →
      ∃ n, exec (.ret c t w) s = .next n ∧
        goes { th with pc := (loopNext r th.loops).1, loops := (loopNext r th.loops).2, rets := rs } n) ∧
    (Issues s.dev c t w 0 6 used pk → len ≠ 0 → count ≠ 0 → th.loops.length < 4 →
      ∃ n, exec (.loop c t w) s = .next n ∧
        goes { th with pc := th.pc + 16, loops := { first := th.pc + 16, len := len, left := count } :: th.loops } n) ∧
    (Issues s.dev c t w 0 6 used pk → len ≠ 0 → count = 0 → th.loops = [] →
      ∃ n, exec (.loop c t w) s = .next n ∧ goes { th with pc := th.pc + 16 + 16 * len } n) ∧
    (Issues s.dev c t w 0 6 used pk → len = 0 → ∃ n, exec (.loop c t w) s = .next n ∧ goes th.advance n) ∧
    cmp 0 (a == b) ∧ cmp 1 (a != b) ∧ cmp 2 (a.slt b) ∧ cmp 3 (b.sle a) ∧ cmp 4 (a.ult b) ∧ cmp 5 (b.ule a) ∧
    clog 0 (x && y) ∧ clog 1 (x || y) ∧ clog 2 (x ^^ y) ∧ clog 3 (x && !y) ∧
    mfs 0 t.val ∧ mfs 1 c.val ∧ mfs 2 (pk % 168) ∧ mfs 3 s.dev.beatIdx ∧
    mfs 6 (s.dev.fld CELL_ROLE CELL_ROLE_ROLE (pk / 168) (pk % 168)) ∧ mfs 7 th.fpctl ∧ mfs 8 th.srseed ∧
    mfs 10 (b01 s.dev.debug) ∧
    mts 7 { th.advance with fpctl := a.toNat &&& 0xF00FF } ∧ mts 8 { th.advance with srseed := a.toNat }

/-- ENDB, the waits, BAR and FENCE complete as R95, R125, R126 and R397 say. A wait whose condition holds leaves the thread READY
at its next instruction; one whose condition does not leaves it waiting. ENDB ends the thread with IMM[0] as CARRY and discards
its held run-ahead entries (R139). BAR puts the thread at its barrier, and every thread of a barrier that is then complete goes
on. FENCE, with no earlier request under way, begins the fence of the cell's port die: no line that a request filled before it is
used after it. -/
def Obligations.WaitsAndEnds : Prop :=
  ∀ (s : State) (c : PCell) (t : Tid) (w : Word128) (pk : Nat),
    let th := s.dev.threadAt pk t.val
    let imm := field w 64 64
    let cycles := if imm = 0 then th.hint else imm
    let goes := fun (x : Thread) (n : State) => SameMemory s n ∧ n.dev.threadAt pk t.val = x
    (Issues s.dev c t w 0 1 (mIMM 1) pk →
      ∃ n, exec (.endb c t w) s = .next n ∧
        goes { th with st := .ended, wait := .nothing, carry := field w 64 1 = 1 } n ∧
        (n.dev.cellAt pk).ra = (s.dev.cellAt pk).ra.filter (fun e => e.thread ≠ t.val)) ∧
    (Issues s.dev c t w 0 9 (mIMM 7) pk → imm ≤ 64 → s.dev.u.threadReqs pk t.val ≤ imm →
      ∃ n, exec (.waitm c t w) s = .next n ∧ goes { th.advance with st := .ready, wait := .nothing } n) ∧
    (Issues s.dev c t w 0 9 (mIMM 7) pk → imm ≤ 64 → imm < s.dev.u.threadReqs pk t.val →
      ∃ n, exec (.waitm c t w) s = .next n ∧ goes { th.advance with st := .waitMem, wait := .requests imm } n) ∧
    (Issues s.dev c t w 0 10 (mIMM 6) pk → imm < windowSize th.wsize →
      agetD (s.dev.cellAt pk).pendW (th.wbase + imm) 0 = 0 →
      ∃ n, exec (.waitt c t w) s = .next n ∧ goes { th.advance with st := .ready, wait := .nothing } n) ∧
    (Issues s.dev c t w 0 10 (mIMM 6) pk → imm < windowSize th.wsize →
      agetD (s.dev.cellAt pk).pendW (th.wbase + imm) 0 ≠ 0 →
      ∃ n, exec (.waitt c t w) s = .next n ∧ goes { th.advance with st := .waitDep, wait := .tile (th.wbase + imm) } n) ∧
    (Issues s.dev c t w 0 11 (mIMM 32) pk → cycles ≠ 0 →
      ∃ n, exec (.sleep c t w) s = .next n ∧ OnlyThread 0 pk t.val s n ∧
        n.dev.threadAt pk t.val = { th.advance with st := .sleep, wait := .until_ (s.dev.elapsed + cyclesTime cycles) }) ∧
    (Issues s.dev c t w 0 12 (mIMM 18) pk →
      ∃ n, exec (.bar c t w) s = .next n ∧ SameMemory s n ∧ SameUnitsBut pk s n ∧
        n.dev.cellAt pk = ((s.dev.cellAt pk).onThread t.val fun x =>
          { x.advance with st := .barrier, wait := .bar (field w 80 2) (field w 64 16) }).barriers) ∧
    (Issues s.dev c t w 0 13 (mIMM 1) pk →
      (if field w 64 1 = 1 then s.dev.u.cellReqs pk else s.dev.u.threadReqs pk t.val) = 0 →
      ∃ n, exec (.fence c t w) s = .next n ∧ goes th.advance n ∧
        (∀ l ∈ n.dev.u.fab.rlb, l.plane ≠ pk / 168 / 2) ∧
        ∀ q ∈ n.dev.u.fab.reqs, q.plane = pk / 168 / 2 → q.tid.isSome → q.fill = false)

/-- A sleep that has come to its end leaves its thread READY (R125), and nothing else changes. BRK writes a trap record with cause
BREAK in debug mode, where no record is held yet, and the thread goes on (R125, R131); outside debug mode it does nothing. A
word of a class that the role does not allow, or of no operation, traps its thread with cause ILLEGAL: the thread is TRAPPED at
its instruction, and the trap record names the cause, the thread, the status, the pc and the beat (R122, R123, R131, R134). -/
def Obligations.SleepsBreaksAndIllegalWords : Prop :=
  ∀ (s : State) (c : PCell) (t : Tid) (w : Word128) (pk : Nat),
    let th := s.dev.threadAt pk t.val
    let die := pk / 168
    let p := pk % 168
    let more := s.dev.fld CELL_TRAP CELL_TRAP_MORE die p
    let record := fun (cause status : Nat) (n : State) =>
      Holds n.dev CELL_TRAP die p 0 (1 + more * 2 + cause * 2 ^ 4 + t.val * 2 ^ 8 + status * 2 ^ 16) ∧
      Holds n.dev CELL_TRAP_PC die p 0 (th.pc % 2 ^ 57) ∧ Holds n.dev CELL_TRAP_BEAT die p 0 s.dev.beatIdx
    (∀ e, s.dev.physOf c.val = some pk → th.wait = .until_ e → e ≤ s.dev.elapsed →
      ∃ n, exec (.sleepExpire c t) s = .next n ∧ n.pending = s.pending ∧ SameMemory s n ∧ SameRegsBut [] s n ∧
        SameUnitsBut pk s n ∧ SameCellBut pk t.val s n ∧
        n.dev.threadAt pk t.val = { th with st := .ready, wait := .nothing }) ∧
    (Issues s.dev c t w 0 16 0 pk → s.dev.debug = false →
      ∃ n, exec (.brk c t w) s = .next n ∧ OnlyThread 0 pk t.val s n ∧ n.dev.threadAt pk t.val = th.advance) ∧
    (Issues s.dev c t w 0 16 0 pk → s.dev.debug = true → s.dev.flag CELL_TRAP CELL_TRAP_VALID die p = false →
      ∃ n, exec (.brk c t w) s = .next n ∧ SameMemory s n ∧ n.dev.threadAt pk t.val = th.advance ∧ record 8 0 n) ∧
    (s.dev.physOf c.val = some pk → th.st = .ready → (th.creg (iPred w.toNat) != iPneg w.toNat) = true →
      condBusy th w.toNat true = false →
      (wordDefined w.toNat && roleAllows (s.dev.fld CELL_ROLE CELL_ROLE_ROLE die p) (iClass w.toNat)) = false →
      s.dev.flag CELL_TRAP CELL_TRAP_VALID die p = false →
      ∃ n, exec (.illegal c t w) s = .next n ∧ SameMemory s n ∧
        n.dev.threadAt pk t.val =
          { th with st := .trapped, wait := .nothing, carry := false, trap := some (th.trap.getD stMALFORMED) } ∧
        record 1 stMALFORMED n)

/-- INSTRUCTION_FETCH, ICACHE_INV, RUN_AHEAD_SCAN and WAIT_HINT complete as R119, R120, R135 to R138 and R301 say. A fetch that
misses, whose page is cached and whose line is clean memory of this package, fills the instruction cache with the line's 128
bytes. A write with ICACHE_INV = 1 asks for the invalidation at the next edge. A scan that finds a load of one request, which no
entry of the thread holds, sends it: the thread's run-ahead buffer has one more entry. A hint while the thread has requests in
flight raises its WAITHINT to the hint in cell cycles, rounded up. -/
def Obligations.FetchScanAndHints : Prop :=
  ∀ (s : State) (c : PCell) (t : Tid) (pk : Nat), s.dev.physOf c.val = some pk →
    let th := s.dev.threadAt pk t.val
    let cs := s.dev.cellAt pk
    let die := pk / 168
    let line := th.pc / 128 * 128
    let fx : XReq := { die := die, slot := th.aslot, va := line, access := 3, source := 0, cell := c.val, thread := t.val,
                       queue := s.dev.threadQueue pk t.val, agent := agCell, pk := some pk, who := .other (pk + 1000) t.val }
    (∀ e, th.st = .ready → aget? cs.icache (icKey th.aslot line) = none →
      (s.dev.u.ops.any fun o => o.pk = pk && o.thread = t.val && o.kind = .ifetch) = false → Hits s.dev fx e →
      s.dev.isRemote (hitGa fx e) = false → pk < 672 → Clean s.dev (localOf (hitGa fx e)) 128 →
      ∃ n, exec (.instructionFetch c t) s = .next n ∧ n.pending = s.pending ∧ SameMemory s n ∧
        n.dev.cellAt pk = { cs with
          icache := tinsert cs.icache (icKey th.aslot line) (s.dev.rawBytes (localOf (hitGa fx e)) 128) }) ∧
    (∀ (td : TDie) v, v.toNat.testBit 16 = true →
      ∃ n, exec (.icacheInv td v) s = .next n ∧ n.dev.reg CELL_CTL td.val = CELL_CTL.write (s.dev.reg CELL_CTL td.val) v &&&
          maskOf (CELL_CTL.key td.val 0 0) ∧
        n.dev.mem = s.dev.mem ∧ n.dev.u = s.dev.u ∧ SameRegsBut [CELL_CTL.key td.val 0 0] s n) ∧
    (∀ w r h e, let rx : XReq := { die := die, slot := th.aslot, va := r.va, access := 0, spec := true, source := 0,
                                   agent := agRunAhead, pk := some pk, who := .other (pk + 2000) t.val }
      let start : Shadow := { th := th, badC := setBits 8 th.pendC }
      s.dev.flag CELL_CTL CELL_CTL_RA_EN die = true → (th.st = .waitDep ∨ th.st = .waitMem) → th.wait.again = false →
      cs.fetched th.aslot th.pc = some w → start.scan w = .load [r] h → cs.fetched th.aslot h.th.pc = none →
      Hits s.dev rx e → rangeOf (s.dev.castRanges die) (hitGa rx e) = none → s.dev.localMmio (hitGa rx e) = false → die < 4 →
      (cs.ra.any fun x => x.thread = t.val && x.va = r.va && x.len = r.len) = false → s.dev.raCount pk t.val < 16 →
      s.dev.fld CELL_CTL CELL_CTL_RA_RESERVE die < 64 - s.dev.u.slotsUsed pk → s.dev.slotFree pk = true →
      (s.dev.u.coh.subs.filter fun x => x.1 = die).length < 8 →
      let req : Req := { va := r.va, len := r.len, pa := hitGa rx e, pin := pteBit e.pte 8, st := .sent }
      let op : MemOp := { id := s.dev.u.nextOp, pk := pk, thread := t.val, pc := 0, aslot := th.aslot, kind := .ra r.va,
                          stream := 4, reqs := [req] }
      ∃ n, exec (.runAheadScan c t) s = .next n ∧ SameMemory s n ∧ n.dev.threadAt pk t.val = th ∧
        (n.dev.cellAt pk).ra = cs.ra ++ [{ thread := t.val, va := r.va, pa := hitGa rx e, len := r.len }] ∧
        n.dev.u.ops = s.dev.u.ops ++ [op]) ∧
    (∀ cycles, s.dev.forceFld STRM_CTL STRM_CTL_HINT_EN die = 1 → s.dev.u.threadReqs pk t.val ≠ 0 →
      ∃ n, exec (.waitHint c t cycles) s = .next n ∧ SameMemory s n ∧ SameUnitsBut pk s n ∧ SameCellBut pk t.val s n ∧
        SameRegsBut [STRM_HINTS.key die (pk % 168) 0] s n ∧
        n.dev.threadAt pk t.val = { th with hint := max th.hint ((cycles.toNat + 1) / 2) })

/-- MMA completes (R185, R197 to R203): every element of the accumulator becomes the sum of R157 to R161 over the k-groups that
are not skipped, the saturation flag stays or is set by a saturated element, and an MMA with every k-slice skipped changes no
element. No other accumulator, no tile register, no scratchpad byte and no byte of memory changes, and the thread goes on. -/
def Obligations.MatrixMultiply : Prop :=
  ∀ (s : State) (c : PCell) (t : Tid) (w : Word128) (pk : Nat),
    let x := ctxOf s.dev c t w pk
    let cs := s.dev.cellAt pk
    let na := 2 ^ x.mSparse
    let mx := fmtIsMx x.mFA || fmtIsMx x.mFB
    let tiles := (List.range na).map (x.mTA + ·) ++ [x.mTB] ++ (if mx then [x.mTS] else []) ++
      (if x.mSparse ≠ 0 then [x.mTM] else [])
    let ts := tiles.map (x.th.wbase + ·)
    let i := s.dev.mmaIn x (ts.take na) (ts.getD na 0) (if mx then ts.getD (na + 1) 0 else 0)
      (if x.mSparse ≠ 0 then ts.getD (na + 1 + b01 mx) 0 else 0)
    Issues s.dev c t w 3 0 (mmaUsed w.toNat) pk → s.dev.mmaLegal x = true → x.th.fpctl.testBit 4 = false → pk < 672 →
    tiles.all (· < windowSize x.th.wsize) = true → cs.tileBusy ts [] = false → ts.any cs.tilePoison = false →
    cs.accPoison x.mAcc = false →
    ∃ n, exec (.mma c t w) s = .next n ∧ n.pending = s.pending ∧ SameMemory s n ∧
      (n.dev.cellAt pk).tiles = cs.tiles ∧ (n.dev.cellAt pk).spad = cs.spad ∧
      (∀ a r j, r < 32 → j < 32 → (n.dev.cellAt pk).accGet a r j =
        if a = x.mAcc ∧ i.groups ≠ [] then (i.elem (cs.accGet a r j) r j).bits % 2 ^ 32 else cs.accGet a r j) ∧
      (∀ a, a < 16 → n.dev.accInt x a = s.dev.accInt x a ∧ n.dev.asat x a = (s.dev.asat x a ||
        (a == x.mAcc && (List.range 1024).any fun p => (i.elem (cs.accGet a (p / 32) (p % 32)) (p / 32) (p % 32)).sats ≠ 0))) ∧
      (n.dev.threadAt pk t.val).pc = x.th.advance.pc ∧ (n.dev.threadAt pk t.val).st = .ready

/-- MZERO, MINIT, MDRAIN and MSATF complete as R190 and R193 to R196 say. MZERO and MINIT give every element of the accumulator,
its type and a clear flag; MDRAIN packs the converted elements of each row into the tile at the place POS names, with the scale
bytes of an MX format into TS, and zeroes the accumulator with Z = 1; MSATF answers the flag. -/
def Obligations.MatrixAccumulators : Prop :=
  ∀ (s : State) (c : PCell) (t : Tid) (w : Word128) (pk : Nat), pk < 672 →
    let x := ctxOf s.dev c t w pk
    let cs := s.dev.cellAt pk
    let wd := x.th.wbase
    let win := windowSize x.th.wsize
    let same := fun (n : State) => n.pending = s.pending ∧ SameMemory s n ∧ (n.dev.cellAt pk).spad = cs.spad ∧
      (n.dev.threadAt pk t.val).pc = x.th.advance.pc ∧ (n.dev.threadAt pk t.val).st = .ready
    let fresh := fun (int : Bool) (f : Nat → Nat → Nat) (n : State) =>
      same n ∧ (n.dev.cellAt pk).tiles = cs.tiles ∧
      (∀ a r j, r < 32 → j < 32 → (n.dev.cellAt pk).accGet a r j = if a = x.mAcc then f r j else cs.accGet a r j) ∧
      (∀ a, a < 16 → n.dev.accInt x a = (if a = x.mAcc then int else s.dev.accInt x a) ∧
        n.dev.asat x a = (a != x.mAcc && s.dev.asat x a))
    (Issues s.dev c t w 3 1 (fmask 16 4 ||| fmask 71 1) pk →
      ∃ n, exec (.mzero c t w) s = .next n ∧ fresh (field w 71 1 = 1) (fun _ _ => 0) n) ∧
    (Issues s.dev c t w 3 2 (fmask 16 10 ||| fmask 52 4 ||| fmask 75 1) pk → x.mFA = 0 ∨ x.mFA = 13 →
      x.mTA < win → cs.tileBusy [wd + x.mTA] [] = false → cs.tilePoison (wd + x.mTA) = false →
      ∃ n, exec (.minit c t w) s = .next n ∧ fresh (x.mFA = 13) (fun r j =>
        leAt (cs.tileBytes (wd + x.mTA)) (128 * (if field w 75 1 = 1 then 0 else r) + 4 * j) 4) n) ∧
    (∀ f, let mx := fmtIsMx x.mFA
      let pos := field w 72 3
      let rm := field w 67 3
      let nb := fmtBlocks x.mFA
      let used := fmask 16 10 ||| fmask 52 4 ||| fmask 67 4 ||| fmask 72 3 ||| (if mx then fmask 32 11 else 0)
      let ts := [wd + x.mTA] ++ if mx then [wd + x.mTS] else []
      let src := fun r j => (if s.dev.accInt x x.mAcc then Elem.int 32 0 else fp32).decode (cs.accGet x.mAcc r j)
      let row := fun r => drainRow f mx (fmtIsInt x.mFA) (s.dev.accInt x x.mAcc) (x.ctl rm)
        (fun j => rand16 x.th.srseed (32 * r + j)) ((List.range 32).map (src r))
      let bytes := (List.range 32).flatMap fun r => (packBytes f.bits ((row r).es.map (·.bits))).zipIdx.map fun e =>
        (128 * r + drainRowBytes x.mFA * pos + e.2, e.1)
      let scales := if mx then (List.range 32).map fun r => (x.mSslot * 128 + r * nb + pos, BitVec.ofNat 8 (row r).sc) else []
      Issues s.dev c t w 3 3 used pk → fmtElem x.mFA = some f → s.dev.fmtOk (pk / 168) x.mFA = true → rm ≤ 4 →
      pos ≤ drainPosMax x.mFA → (mx = true → x.mSslot * 128 + 31 * nb + pos < 4096) → x.mTA < win → (mx = true → x.mTS < win) →
      cs.tileBusy [] ts = false → cs.accPoison x.mAcc = false → x.th.fpctl.testBit 4 = false →
      ∃ n, exec (.mdrain c t w) s = .next n ∧ same n ∧
        (n.dev.cellAt pk).tiles = ramWith (ramWith cs.tiles (4096 * (wd + x.mTA)) bytes) (4096 * (wd + x.mTS)) scales ∧
        ∀ a r j, r < 32 → j < 32 → (n.dev.cellAt pk).accGet a r j =
          if a = x.mAcc ∧ field w 70 1 = 1 then 0 else cs.accGet a r j) ∧
    (Issues s.dev c t w 3 4 (fmask 16 4 ||| fmask 64 3) pk →
      ∃ n, exec (.msatf c t w) s = .next n ∧ same n ∧ (n.dev.cellAt pk).tiles = cs.tiles ∧
        n.dev.threadAt pk t.val = x.th.advance.setC (field w 64 3) (s.dev.asat x x.mAcc))

/-- The elementwise arithmetic operations of R210 complete: every unmasked element of the destination is the operation's result
on the elements that the broadcast gives it, rounded once to the destination's format (R166, R209, R211, R212), in the register
form and in the stream form. -/
def Obligations.VectorArithmetic : Prop :=
  ∀ (s : State) (c : PCell) (t : Tid) (w : Word128) (pk : Nat),
    let x := ctxOf s.dev c t w pk
    let v := vecArgs x
    let op := fun (code : Nat) (i : Instr) (sh : VShape) (f : Val → Val → Val → Val) =>
      let len := fun v : VF => streamBytes v.fmtd v.n
      Issues s.dev c t w 4 code (sh.used w.toNat) pk →
      VecRuns s.dev x sh (fun v => vecFmt v.fmt && vecFmt v.fmtd && sameWidth v) len →
      ∃ n, exec i s = .next n ∧
        VecDone pk t.val v (vecOut s.dev.u.fresh sh v len ((s.dev.cellAt pk).arith x v sh.nsrc f)) s n
    op 1 (.vadd c t w) { nsrc := 2, scalar := true } (fun a b _ => a.add b) ∧
    op 2 (.vsub c t w) { nsrc := 2, scalar := true } (fun a b _ => a.add b.neg) ∧
    op 3 (.vmul c t w) { nsrc := 2, scalar := true } (fun a b _ => a.mul b) ∧
    op 4 (.vfma c t w) { nsrc := 3, scalar := true } (fun a b e => (a.mul b).add e) ∧
    op 5 (.vmax c t w) { nsrc := 2, scalar := true } (fun a b _ => a.max b) ∧
    op 6 (.vmin c t w) { nsrc := 2, scalar := true } (fun a b _ => a.min b) ∧
    op 7 (.vabs c t w) { nsrc := 1 } (fun a _ _ => a.abs) ∧
    op 8 (.vneg c t w) { nsrc := 1 } (fun a _ _ => a.neg)

/-- The transcendental operations of R220 complete: every unmasked element is the operation's FP32 intermediate, rounded once to
the destination's format. The intermediate of a special value is that of R221; that of any other value is free within the spec's
bounds. -/
def Obligations.VectorTranscendental : Prop :=
  ∀ (s : State) (c : PCell) (t : Tid) (w : Word128) (pk : Nat),
    let x := ctxOf s.dev c t w pk
    let v := vecArgs x
    let sh : VShape := { nsrc := 1 }
    let len := fun v : VF => streamBytes v.fmtd v.n
    let op := fun (code : Nat) (i : Instr) =>
      Issues s.dev c t w 4 code (sh.used w.toNat) pk →
      VecRuns s.dev x sh (fun v => vecFloat v.fmt && vecFmt v.fmtd && sameWidth v) len →
      ∃ n, exec i s = .next n ∧
        VecDone pk t.val v (vecOut s.dev.u.fresh sh v len ((s.dev.cellAt pk).transcOp x v code)) s n
    op 0x0B (.vrecip c t w) ∧ op 0x0C (.vrsqrt c t w) ∧ op 0x0D (.vsqrt c t w) ∧ op 0x0E (.vexp c t w) ∧
    op 0x0F (.vexp2 c t w) ∧ op 0x10 (.vlog c t w) ∧ op 0x11 (.vtanh c t w) ∧ op 0x12 (.vsigm c t w) ∧
    op 0x13 (.vgelu c t w) ∧ op 0x14 (.vsilu c t w)

/-- VSEL, VCMP, VAND, VOR, VXOR and VTR complete as R210, R212 and R214 say. The element at position e is s1 or s2 as the mask
says, the comparison as one bit, the bitwise combination of the raw elements, or, in the register form of VTR, the element of
the other place. What R208 and R214 do not state (a bitwise operation of two widths, VTR of a stream) is a free value (log 8). -/
def Obligations.VectorSelectionsAndBits : Prop :=
  ∀ (s : State) (c : PCell) (t : Tid) (w : Word128) (pk : Nat),
    let x := ctxOf s.dev c t w pk
    let v := vecArgs x
    let cs := s.dev.cellAt pk
    let k := s.dev.u.fresh
    let wd := fmtBits v.fmtd
    let free := fun (e : Nat) => (Config.freeWord ((k + 1) * 2 ^ 32 + e)).toNat % 2 ^ wd
    let len := fun v : VF => streamBytes v.fmtd v.n
    let basic := fun v : VF => vecFmt v.fmt && vecFmt v.fmtd && sameWidth v
    let each := fun (f : Nat → Nat) => (List.range v.n).filterMap fun e =>
      if cs.vlive v e then some (elemBit v.stream v.fmtd e, wd, f e)
      else if v.mz then some (elemBit v.stream v.fmtd e, wd, 0) else none
    let bits := fun (code : Nat) (i : Instr) (f : Nat → Nat → Nat) =>
      let sh : VShape := { nsrc := 2, rm := false }
      let r := fun (e : Nat) => if fmtBits v.fmt = wd then f (cs.vraw v v.s1 false e) (cs.vraw v v.s2 true e) else free e
      let o : VOut := { ws := each r }
      Issues s.dev c t w 4 code (sh.used w.toNat) pk → VecRuns s.dev x sh basic len →
      ∃ n, exec i s = .next n ∧ VecDone pk t.val v (vecOut (k + 1) sh v len o) s n
    (∀ fd, let sh : VShape := { nsrc := 2 }
      fmtElem v.fmtd = some fd → Issues s.dev c t w 4 10 (sh.used w.toNat) pk →
      VecRuns s.dev x sh (fun v => vecFmt v.fmt && vecFmt v.fmtd && sameWidth v && v.men && !v.mz) len →
      ∃ n, exec (.vsel c t w) s = .next n ∧
        VecDone pk t.val v (vecOut k sh v len (elementwise v (fun _ => true) fun e =>
          vround fd (x.ctl v.rm) (rand16 x.th.srseed e) false
            (cs.vval v (if cs.vmask v e then v.s1 else v.s2) (!cs.vmask v e) e))) s n) ∧
    (let sh : VShape := { nsrc := 2, rm := false, immR := 7, immS := 7 }
      let clen := fun v : VF => cdiv v.n 8
      let bit := fun (e : Nat) => b01 (vcmpCond (bitsOf v.imm 0 3) (cs.vval v v.s1 false e) (cs.vval v v.s2 true e))
      let bitsOut := (List.range v.n).filterMap fun e =>
        if cs.vlive v e then some (e, 1, bit e) else if v.mz then some (e, 1, 0) else none
      let o : VOut := { ws := bitsOut ++ if v.stream then [] else [(v.n, 32768 - v.n, 0)] }
      Issues s.dev c t w 4 9 (sh.used w.toNat) pk →
      VecRuns s.dev x sh (fun v => vecFmt v.fmt && v.fmtd = 0 && bitsOf v.imm 0 3 ≤ 5) clen →
      ∃ n, exec (.vcmp c t w) s = .next n ∧ VecDone pk t.val v (vecOut k sh v clen o) s n) ∧
    bits 37 (.vand c t w) (· &&& ·) ∧ bits 38 (.vor c t w) (· ||| ·) ∧ bits 39 (.vxor c t w) (· ^^^ ·) ∧
    (let sh : VShape := { nsrc := 1, rm := false }
      let m := fmtN v.fmt
      let o : VOut :=
        { ws := each fun e => if v.stream then free e else cs.vraw v v.s1 true (e % m % 32 * m + e % m / 32 * 32 + e / m) }
      Issues s.dev c t w 4 33 (sh.used w.toNat) pk →
      VecRuns s.dev x sh (fun v => v.fmtd = v.fmt && !fmtMxfp6 v.fmt) len →
      ∃ n, exec (.vtr c t w) s = .next n ∧ VecDone pk t.val v (vecOut (k + 1) sh v len o) s n)

/-- The reductions, VRMVAR, VSOFTMAX and VCVT complete with the results of R213 and R216 to R219. VOCC completes with the count
or map of R215 in s[RD] and whether it is zero under the mask in c[CD]. -/
def Obligations.VectorReductionsAndConversions : Prop :=
  ∀ (s : State) (c : PCell) (t : Tid) (w : Word128) (pk : Nat),
    let x := ctxOf s.dev c t w pk
    let v := vecArgs x
    let cs := s.dev.cellAt pk
    let th := s.dev.threadAt pk t.val
    let done := fun (code : Nat) (i : Instr) (sh : VShape) (legal : VF → Bool) (len : VF → Nat) (o : VOut) =>
      Issues s.dev c t w 4 code (sh.used w.toNat) pk → VecRuns s.dev x sh legal len →
      ∃ n, exec i s = .next n ∧ VecDone pk t.val v (vecOut s.dev.u.fresh sh v len o) s n
    let red := fun (code : Nat) (i : Instr) =>
      done code i redShape (fun v => vecFmt v.fmt && vecFmt v.fmtd && redLegal v)
        (fun v => streamBytes v.fmtd (redCount v)) (cs.reduce x v code)
    let occ := fun (k : Nat) (zero : Bool) =>
      ∃ n, exec (.vocc c t w) s = .next n ∧ SameMemory s n ∧
        n.dev.threadAt pk t.val = (th.advance.setS (field w 64 5) k).setC (field w 72 3) zero
    red 24 (.vrsum c t w) ∧ red 25 (.vrmax c t w) ∧ red 26 (.vrmin c t w) ∧ red 27 (.vrssq c t w) ∧
    done 28 (.vrmvar c t w) redShape (fun v => vecFloat v.fmt && vecFmt v.fmtd && redLegal v)
      (fun v => streamBytes v.fmtd (2 * redCount v)) (cs.meanVar x v) ∧
    done 32 (.vsoftmax c t w) { nsrc := 1, rows := true, immR := 0xFFFFFFFF, immS := 0xFFFFFFFF }
      (fun v => vecFloat v.fmt && vecFmt v.fmtd && sameWidth v && (!v.stream || redLegal v))
      (fun v => streamBytes v.fmtd v.n) (cs.softmax x v) ∧
    done 0 (.vcvt c t w) { nsrc := 1, scales := true, immR := 0x1FFFFF } cvtLegal (fun v => streamBytes v.fmtd v.n)
      (if v.stream then cs.cvtStream x v else cs.cvtTile x v v.s3) ∧
    (let a := th.sreg (field w 22 5)
      let len := th.sreg (field w 37 5) % 2 ^ 24
      let k := ((List.range (len / 64)).filter fun i => s.dev.lineMap pk (a / 64 + i)).length
      Issues s.dev c t w 4 34 (voccShape.used w.toNat) pk → w.toNat.testBit 16 = true → roleStream x.role = true →
      len ≠ 0 → a % 64 = 0 → len % 64 = 0 → a + len ≤ spadSize → occ k (k == 0)) ∧
    (let tile := field w 23 6
      let r := th.wbase + tile
      let m := if s.dev.forceFld VEC_CTL VEC_CTL_OCC_EN (pk / 168) = 1 then s.dev.tileMap pk r else 0xFFFF
      Issues s.dev c t w 4 34 (voccShape.used w.toNat) pk → w.toNat.testBit 16 = false → roleStream x.role = false →
      tile < windowSize th.wsize → agetD cs.pendW r 0 = 0 → occ m (m &&& field w 112 16 == 0))

/-- RTOPK and RCOMB complete with the choice records of R228 to R231 and the combined rows of R248, where their fields are legal
and their ranges lie in the scratchpad without poison; with no token they only go on. Nothing else of the cell's RAMs changes. -/
def Obligations.RoutingTokens : Prop :=
  ∀ (s : State) (c : PCell) (t : Tid) (w : Word128) (pk : Nat),
    let x := ctxOf s.dev c t w pk
    let cs := s.dev.cellAt pk
    let n := x.rn % 2 ^ 24
    let topk := rMask true true true true true false true false false ||| mIMM 22
    let comb := rMask true true true true true false true true false ||| mIMM 22
    let rows := (List.range n).filterMap fun i => (rcombRow cs x i).map fun r => (i, packBytes (fmtBits (x.f 48 4)) (r.map (·.2.e.bits)))
    x.th.fpctl.testBit 4 = false →
    (Issues s.dev c t w 8 0 topk pk → rtopkLegal x = true → n ≠ 0 →
      SpadOk cs (rtopkReads x ++ [(x.rdv, 64 * n)]) (rtopkReads x) →
      ∃ m, exec (.rtopk c t w) s = .next m ∧
        CellSpad pk t.val (cs.spad.put x.rdv ((List.range n).flatMap fun i => (rtopkToken cs x i).1)) s m) ∧
    (Issues s.dev c t w 8 0 topk pk → rtopkLegal x = true → n = 0 →
      ∃ m, exec (.rtopk c t w) s = .next m ∧ OnlyThread 8 pk t.val s m ∧ m.dev.threadAt pk t.val = x.th.advance) ∧
    (Issues s.dev c t w 8 3 comb pk → rcombLegal x = true → n ≠ 0 → SpadOk cs (rcombRanges x) (rcombReads cs x) →
      ∃ m, exec (.rcomb c t w) s = .next m ∧
        CellSpad pk t.val (rows.foldl (fun r e => r.put (x.rdv + e.1 * rowLines (bitsOf x.imm 0 16) (x.f 48 4)) e.2) cs.spad) s m) ∧
    (Issues s.dev c t w 8 3 comb pk → rcombLegal x = true → n = 0 →
      ∃ m, exec (.rcomb c t w) s = .next m ∧ OnlyThread 8 pk t.val s m ∧ m.dev.threadAt pk t.val = x.th.advance)

/-- RAMX, RBMASK, RBNEXT and RBEMASK complete with the masks and codes of R256 to R260: RAMX spreads 32 activity bits over the
columns of a tile mask, RBMASK writes a block mask, RBNEXT answers the next block that is not EMPTY with its code, and RBEMASK
writes the element mask of a quadrant. c[CD] says whether anything is set or found. -/
def Obligations.RoutingMasks : Prop :=
  ∀ (s : State) (c : PCell) (t : Tid) (w : Word128) (pk : Nat),
    let x := ctxOf s.dev c t w pk
    let cs := s.dev.cellAt pk
    let cond := fun (b : Bool) (m : State) => m.dev.threadAt pk t.val = x.th.advance.setC x.rcd b
    let td := x.f 52 6
    let r := x.th.wbase + td
    let free := td < windowSize x.th.wsize ∧ cs.tileBusy [] [r] = false
    let n0 := x.rn % 2 ^ 24
    let bits := (List.range 32).map fun i => cs.maskBit x.ra (n0 + i)
    let qb := bitsOf x.imm 0 12 + 1
    let kb := bitsOf x.imm 12 12 + 1
    let b := cs.bmask x.ra
    let col := bitOf x.imm 0
    let lim := if col then b.qb else b.kb
    let code := fun p => if col then cs.blockAt b p x.rc else cs.blockAt b x.rc p
    let segs := if cs.blockAt b x.rb x.rc = 3 then [(b.segq + 128 * x.rb, 128), (b.segk + 128 * x.rc, 128)] else []
    let quad := bitsOf x.imm 0 2
    let wide := bitOf x.imm 2
    let ebits := if wide then (List.range 2048).map fun e =>
        cs.blockElem b (cs.blockAt b x.rb x.rc) x.rb x.rc (32 * (quad / 2) + e / 64) (e % 64)
      else (List.range 1024).map fun e =>
        cs.blockElem b (cs.blockAt b x.rb x.rc) x.rb x.rc (32 * (quad / 2) + e / 32) (32 * (quad % 2) + e % 32)
    (Issues s.dev c t w 8 4 (rMask true false false true false true true false true) pk → x.ra % 64 = 0 →
      s.dev.fmtOk (pk / 168) (x.f 44 4) = true → free →
      SpadOk cs [(x.ra, cdiv (n0 + 32) 8)] [(x.ra + n0 / 8, cdiv (n0 % 8 + 32) 8)] →
      ∃ m, exec (.ramx c t w) s = .next m ∧ cond (bits.any id) m ∧
        CellTile pk t.val r (maskTile (bits.flatMap fun b => List.replicate (fmtN (x.f 44 4)) b)) s m) ∧
    (Issues s.dev c t w 8 5 (rMask true true true true true false false false false ||| mIMM 25) pk →
      x.ra % 64 = 0 → x.rb % 64 = 0 → x.rdv % 64 = 0 →
      SpadOk cs [(x.ra, 128 * qb), (x.rb, 128 * kb), (x.rdv, 64 + 8 * qb * cdiv kb 32)] [(x.ra, 128 * qb), (x.rb, 128 * kb)] →
      ∃ m, exec (.rbmask c t w) s = .next m ∧ CellSpad pk t.val (cs.spad.put x.rdv (rbmaskBytes cs x)) s m) ∧
    (Issues s.dev c t w 8 6 (rMask true true true false true true false false false ||| mIMM 1) pk →
      x.ra % 64 = 0 → SpadOk cs [(x.ra, 64), b.range] [b.range] →
      ∃ m, exec (.rbnext c t w) s = .next m ∧ CellSpad pk t.val cs.spad s m ∧
        (∀ p, x.rb ≤ p → p < lim → code p ≠ 0 → (∀ q, x.rb ≤ q → q < p → code q = 0) →
          m.dev.threadAt pk t.val = (x.th.advance.setS (x.f 36 5) (p + code p * 2 ^ 32)).setC x.rcd true) ∧
        ((∀ q, x.rb ≤ q → q < lim → code q = 0) →
          m.dev.threadAt pk t.val = (x.th.advance.setS (x.f 36 5) lim).setC x.rcd false)) ∧
    (Issues s.dev c t w 8 7 (rMask true true true false false true false false true ||| mIMM 3) pk →
      x.ra % 64 = 0 → (wide && quad.testBit 0) = false → free → SpadOk cs ([(x.ra, 64), b.range] ++ segs) (b.range :: segs) →
      ∃ m, exec (.rbemask c t w) s = .next m ∧ cond (ebits.any id) m ∧ CellTile pk t.val r (maskTile ebits) s m)

/-- RDISP, RRND OPEN, RRND CLOSE and RRND ABORT complete as R233, R234, R237, R244 and R246 say. RDISP puts one claim for every
candidate of every active token at the lane of its expert, in rank order, and holds a request slot; OPEN takes a CLOSED table to
LOADING, CLOSE an OPEN one to CLOSING; ABORT of a CLOSED table only goes on, of a LOADING one closes it and counts the round, of
another ends its round as aborted. -/
def Obligations.DispatchInstructions : Prop :=
  ∀ (s : State) (c : PCell) (t : Tid) (w : Word128) (pk : Nat), pk < 672 →
    let x := ctxOf s.dev c t w pk
    let cs := s.dev.cellAt pk
    let die := pk / 168
    let n := x.rn % 2 ^ 24
    let k := bitsOf x.imm 1 4
    let tbl := bitsOf x.imm 0 1
    let mout := bitOf x.imm 6
    let st := s.dev.tblState die tbl
    let id := s.dev.u.nextOp
    let hold := fun (what b : Nat) => ({ id := id, pk := pk, thread := t.val, pc := x.th.pc, aslot := x.th.aslot,
                                         kind := .held what tbl b, stream := 5 } : MemOp)
    let goes := fun (m : State) => m.pending = s.pending ∧ SameMemory s m ∧ m.dev.threadAt pk t.val = x.th.advance
    let recs := (List.range n).map fun i => cs.spad.slice (x.ra + 64 * i) 64
    let claims := (List.range k).flatMap fun j => recs.zipIdx.filterMap fun e =>
      if leAt e.1 5 1 = 0 && j < choiceNc e.1 then
        some ({ disp := id, token := e.2, rank := j, expert := choiceExpert e.1 j, late := st = 3 } : Claim) else none
    let lane := fun (m : State) (l : Nat) => agetD m.dev.u.route.lanes (8 * die + 4 * tbl + l) []
    (Issues s.dev c t w 8 1 (rMask true false true true true false false false false ||| mIMM 7) pk → k ≠ 0 → k ≤ 8 →
      x.ra % 64 = 0 → x.rdv % 64 = 0 → (mout = true → x.rc % 64 = 0) → n ≠ 0 →
      SpadOk cs ([(x.ra, 64 * n), (x.rdv, 128 * n)] ++ if mout then [(x.rc, cdiv n 8)] else []) [(x.ra, 64 * n)] →
      s.dev.slotFree pk = true → claims ≠ [] → st ≠ 0 →
      ∃ m, exec (.rdisp c t w) s = .next m ∧ goes m ∧ m.dev.u.ops = s.dev.u.ops ++ [hold 1 0] ∧
        m.dev.u.route.disps = s.dev.u.route.disps ++ [{
          op := id, pk := pk, c := c.val, thread := t.val, pc := x.th.pc, w := w.toNat, tbl := tbl, k := k,
          renorm := bitOf x.imm 5, mout := mout, rc := x.rc, rd := x.rdv, left := claims.length,
          tokens := recs.map fun r => { record := r, nextRank := k } }] ∧
        ∀ l, l < 4 → lane m l = lane s l ++ claims.filter (fun q => q.expert % 4 = l)) ∧
    (Issues s.dev c t w 8 2 rrndMask pk → bitsOf w.toNat 65 2 = 0 → x.ra % 64 = 0 → st = 0 → s.dev.slotFree pk = true →
      ∃ m, exec (.rrndOpen c t w) s = .next m ∧ goes m ∧ m.dev.u.ops = s.dev.u.ops ++ [hold 2 0] ∧ m.dev.tblState die tbl = 1 ∧
        m.dev.routeTbl die tbl = { op := id, va := x.ra, aslot := x.th.aslot }) ∧
    (Issues s.dev c t w 8 2 (mIMM 3) pk → bitsOf w.toNat 65 2 = 1 → st = 2 → s.dev.slotFree pk = true →
      ∃ m, exec (.rrndClose c t w) s = .next m ∧ goes m ∧ m.dev.u.ops = s.dev.u.ops ++ [hold 2 1] ∧ m.dev.tblState die tbl = 3 ∧
        m.dev.routeTbl die tbl = { s.dev.routeTbl die tbl with op := id }) ∧
    (Issues s.dev c t w 8 2 (mIMM 3) pk → bitsOf w.toNat 65 2 = 2 → st = 0 →
      ∃ m, exec (.rrndAbort c t w) s = .next m ∧ goes m ∧ m.dev.u.ops = s.dev.u.ops ∧ m.dev.tblState die tbl = 0) ∧
    (Issues s.dev c t w 8 2 (mIMM 3) pk → bitsOf w.toNat 65 2 = 2 → st = 1 → s.dev.slotFree pk = true →
      (∀ l, l < 4 → lane s l = []) →
      ∃ m y, exec (.rrndAbort c t w) s = .next m ∧ m.pending = s.pending ∧
        m.dev = (counted 8 pk t.val).run ((Tr.release id).run y) ∧ y.tblState die tbl = 0 ∧ y.routeTbl die tbl = {} ∧
        y.fld ROUTE_TBL ROUTE_TBL_ROUND die tbl = (s.dev.fld ROUTE_TBL ROUTE_TBL_ROUND die tbl + 1) % 2 ^ 32) ∧
    (Issues s.dev c t w 8 2 (mIMM 3) pk → bitsOf w.toNat 65 2 = 2 → st = 2 ∨ st = 3 → s.dev.slotFree pk = true →
      (∀ q ∈ s.dev.u.route.disps, q.tbl < 2) →
      ∃ m y, exec (.rrndAbort c t w) s = .next m ∧ m.pending = s.pending ∧
        m.dev = (counted 8 pk t.val).run ((Tr.roundEnd die tbl).run y) ∧ y.tblState die tbl = 3 ∧
        (y.routeTbl die tbl).aborted = true ∧ (y.routeTbl die tbl).op = id ∧ ∀ l, l < 4 → agetD y.u.route.lanes (8 * die + 4 * tbl + l) [] = [])

/-- DISPATCH_CLAIM, ROUTE_TABLE_LOADED, SPECULATIVE_LINE_ARRIVE, ROUND_CLOSE_DONE and PRED_CLEAR complete as R232 to R254 say.
A claim of a null expert is kept with row 0xFFFFFFFE, one of a full or unknown expert is dropped, one that reached a CLOSING
table is dropped as late; here the answers of its RDISP are not yet complete. A kept claim of another expert writes its entry to
the expert's list and takes the next row. A loaded descriptor opens its table; the lines that arrive are counted; the end of a
round writes its summary and closes its table. -/
def Obligations.DispatchUnit : Prop :=
  ∀ (s : State) (td : TDie) (tf : Fin 2) (lf : Fin 4),
    let die := td.val
    let tbl := tf.val
    let key := 8 * die + 4 * tbl + lf.val
    let st := s.dev.tblState die tbl
    let b := s.dev.routeTbl die tbl
    let count := fun (r : Reg) (d : Dev) => d.fld r COUNT die
    let at_ := fun (va a : Nat) => { tblReq die tbl b with va := va, access := a }
    (∀ c rest q (kept : Option Nat) (late : Bool), agetD s.dev.u.route.lanes key [] = c :: rest →
      s.dev.disp? c.disp = some q → 2 ≤ q.left →
      (c.late = true ∧ kept = none ∧ late = true ∨
        c.late = false ∧ late = false ∧ 2 ≤ st ∧ (b.experts[c.expert]? = none ∧ kept = none ∨
          ∃ e, b.experts[c.expert]? = some e ∧ (e.null = true ∧ kept = some 0xFFFFFFFE ∨
            e.null = false ∧ e.cap ≤ agetD b.fill c.expert 0 ∧ kept = none))) →
      ∃ n, exec (.dispatchClaim td tf lf) s = .next n ∧ n.pending = s.pending ∧ SameMemory s n ∧
        SameRegsBut [ROUTE_CLAIMS.key die 0 0, ROUTE_KEPT.key die 0 0, ROUTE_DROPS.key die 0 0, ROUTE_LATE.key die 0 0] s n ∧
        agetD n.dev.u.route.lanes key [] = rest ∧ count ROUTE_CLAIMS n.dev = satAdd 48 (count ROUTE_CLAIMS s.dev) 1 ∧
        count ROUTE_KEPT n.dev = satAdd 48 (count ROUTE_KEPT s.dev) (b01 kept.isSome) ∧
        count ROUTE_DROPS n.dev = satAdd 48 (count ROUTE_DROPS s.dev) (b01 kept.isNone) ∧
        count ROUTE_LATE n.dev = satAdd 48 (count ROUTE_LATE s.dev) (b01 late) ∧
        n.dev.disp? c.disp = some { q with
          left := q.left - 1,
          tokens := q.tokens.modify c.token fun k => match kept with
            | some row => { k with kept := k.kept ++ [(c.rank, row)] }
            | none => { k with dropped := true, late := k.late || late } }) ∧
    (∀ c rest q e x ent, agetD s.dev.u.route.lanes key [] = c :: rest → s.dev.disp? c.disp = some q → 2 ≤ q.left →
      c.late = false → 2 ≤ st → b.experts[c.expert]? = some e → e.null = false →
      let slot := agetD b.fill c.expert 0
      let token := (q.tokens[c.token]?).elim [] (·.record)
      slot < e.cap → (e.dlist + 8 * slot) % 8 = 0 → x = at_ (e.dlist + 8 * slot) 1 → Hits s.dev x ent →
      s.dev.isRemote (hitGa x ent) = false → Clean s.dev (localOf (hitGa x ent)) 8 →
      s.dev.u.ckpt.holds (localOf (hitGa x ent)) 8 = false →
      ∃ n, exec (.dispatchClaim td tf lf) s = .next n ∧ n.pending = s.pending ∧
        Stores (localOf (hitGa x ent)) (leBytes 8 (leAt token 0 4 + c.rank * 2 ^ 32 + 2 ^ 35)) s n ∧
        agetD n.dev.u.route.lanes key [] = rest ∧ agetD (n.dev.routeTbl die tbl).fill c.expert 0 = slot + 1 ∧
        n.dev.disp? c.disp = some { q with
          left := q.left - 1,
          tokens := q.tokens.modify c.token fun k => { k with kept := k.kept ++ [(c.rank, (e.rowBase + slot) % 2 ^ 32)] } }) ∧
    (∀ e1 e2 ex, let x1 := at_ b.va 0
      let x2 := at_ (b.va + 64) 0
      let h := s.dev.rawBytes (localOf (hitGa x1 e1)) 64
      let ne := leAt h 0 2
      let es := s.dev.rawBytes (localOf (hitGa x2 e2)) (32 * ne)
      let b' := { b with next := leAt h 2 1 = 1, clear := (leAt h 3 1).testBit 0, predict := (leAt h 3 1).testBit 1,
                         layer := leAt h 4 1, summary := leAt h 8 8, experts := ex }
      st = 1 → b.va % 64 = 0 → b.va % 4096 + 64 + 32 * ne ≤ 4096 → Hits s.dev x1 e1 → Hits s.dev x2 e2 →
      s.dev.isRemote (hitGa x1 e1) = false → s.dev.isRemote (hitGa x2 e2) = false →
      Clean s.dev (localOf (hitGa x1 e1)) 64 → Clean s.dev (localOf (hitGa x2 e2)) (32 * ne) → headerOk h = true →
      (List.range ne).mapM (fun i => expertOf ((es.drop (32 * i)).take 32)) = some ex →
      ∃ n m, exec (.routeTableLoaded td tf) s = .next n ∧ n.pending = s.pending ∧
        n.dev = (Tr.specGo die tbl 16384).run ((Tr.release b.op).run m) ∧ m.mem = s.dev.mem ∧ m.tblState die tbl = 2 ∧
        m.routeTbl die tbl = { b' with
          op := 0, predicted := s.dev.predicted die b',
          want := wantList (s.dev.fld ROUTE_SPEC_CFG ROUTE_SPEC_CFG_BUDGET die) b' (s.dev.predicted die b') 0 }) ∧
    (∀ (e : BitVec 10) (va : BitVec 57) l,
      s.dev.u.route.spec.find? (fun l => l.die = die && l.tbl = tbl && l.expert = e.toNat && l.va = va.toNat && !l.arrived) = some l →
      l.closed = none → l.header = false → Clean s.dev (l.gran * 512 + l.va % 512) l.len →
      ∃ n m, exec (.speculativeLineArrive td tf e va) s = .next n ∧ n.pending = s.pending ∧ SameMemory s ⟨m, s.pending⟩ ∧
        n.dev = (Tr.specGo die tbl (m.u.dieFly die + 16384)).run m ∧
        m.u.route.spec = s.dev.u.route.spec.map (fun q => if q = l then { q with arrived := true, poison := false } else q) ∧
        m.routeTbl die tbl = { b with specBytes := b.specBytes + l.len } ∧
        count ROUTE_SPEC_BYTES m = satAdd 48 (count ROUTE_SPEC_BYTES s.dev) l.len) ∧
    (∀ ent, let x := at_ b.summary 1
      let used := fun e => agetD b.fill e 0 ≠ 0
      let loc := (b.experts.zipIdx.filter fun e => e.1.isLocal).map (·.2)
      let num := fun (p : Nat → Bool) => if b.predict then (loc.filter p).length else 0
      let lost := ((s.dev.u.route.spec.filter fun l => l.die = die && l.tbl = tbl && l.closed.isNone && l.arrived &&
        !(!b.aborted && decide (used l.expert))).map (·.len)).sum
      let round := (s.dev.fld ROUTE_TBL ROUTE_TBL_ROUND die tbl + 1) % 2 ^ 32
      let bytes := summaryBytes { b with discard := b.discard + lost, want := [] } tbl round b.aborted
        (num fun e => b.predicted.contains e && decide (used e)) (num fun e => b.predicted.contains e && !decide (used e))
        (num fun e => !b.predicted.contains e && decide (used e))
      st = 3 → (∀ l, l < 4 → ∀ q ∈ agetD s.dev.u.route.lanes (8 * die + 4 * tbl + l) [], q.late = true) →
      b.clear = false ∨ b.aborted = true → b.summary % 64 = 0 → b.summary % 4096 + bytes.length ≤ 4096 → Hits s.dev x ent →
      s.dev.isRemote (hitGa x ent) = false → Clean s.dev (localOf (hitGa x ent)) bytes.length →
      s.dev.u.ckpt.holds (localOf (hitGa x ent)) bytes.length = false →
      ∃ n m, exec (.roundCloseDone td tf) s = .next n ∧ n.pending = s.pending ∧ n.dev = (Tr.release b.op).run m ∧
        Stores (localOf (hitGa x ent)) bytes s ⟨m, s.pending⟩ ∧ m.tblState die tbl = 0 ∧ m.routeTbl die tbl = {} ∧
        m.fld ROUTE_TBL ROUTE_TBL_ROUND die tbl = round ∧
        (b.predict = true → b.aborted = false → ∀ e, e < b.experts.length → b.layer < 64 → b.experts.length ≤ 1024 →
          m.routePred die b.layer e = if used e then min 3 (s.dev.routePred die b.layer e + 1) else s.dev.routePred die b.layer e - 1)) ∧
    (∀ v : Word, v.toNat.testBit 8 = true →
      ∃ n, exec (.predClear td v) s = .next n ∧ n.pending = s.pending ∧ n.dev.mem = s.dev.mem ∧ n.dev.u = s.dev.u ∧
        SameRegsBut [ROUTE_CTL.key die 0 0] s n ∧ n.dev.flag ROUTE_CTL ROUTE_CTL_PRED_CLEAR die = true)

/-- LDS, LDT, STS, STT, GATH and SCAT complete by joining their streams (R268 to R290): the thread goes on, the operation with its
requests is the youngest in progress, LDT and STT mark their tile registers, and the streams of the cell go on. Memory is as
before; the requests end with LOAD_RESPONSE and STORE_COMPLETE. -/
def Obligations.MemoryInstructionsLaunch : Prop :=
  ∀ (s : State) (c : PCell) (t : Tid) (w : Word128) (pk : Nat),
    let x := ctxOf s.dev c t w pk
    let cs := s.dev.cellAt pk
    let ls := x.f 51 1
    let rb := x.mGeom.1
    let rows := x.mGeom.2
    let id := s.dev.u.nextOp
    let go := fun (cell : CellSt) => cell.onThread t.val Thread.advance
    let ranges := s.dev.castRanges (pk / 168)
    let cast := fun (k : CastSt) => if ranges.isEmpty then none else some k
    let spadRows := (List.range rows).map fun r => (rowAt x.mSpad x.mPitch r, rb)
    let memRows := (List.range rows).map fun r => (rowAt x.mVa x.mStride r, rb)
    let ts := x.mTileNos.map (x.th.wbase + ·)
    let base := ts.headD 0
    let inWin := x.mTileNos.all (· < windowSize x.th.wsize) = true
    let rowsOk := by64 [x.mVa, x.mStride, x.mSpad, x.mPitch, rb] = true ∧ rb ≠ 0 ∧ rb * rows ≤ 262144 ∧ SpadOk cs spadRows []
    let g := x.gathSt
    let gop := fun (k : OpKind) => { x.memOp s.dev id k 3 g.idxReqs with
      cls := x.arbClass s.dev (x.f 50 2), na := x.f 52 1 = 1, gath := some g }
    (Issues s.dev c t w 2 0 (fmask 16 5 ||| fmask 31 5 ||| mMem true false true true) pk → roomIn ls s.dev x = true → rowsOk →
      rowsOverlap rows rb x.mPitch = false →
      ∃ n, exec (.lds c t w) s = .next n ∧
        Launches 2 pk t.val { x.memOp s.dev id .lds ls (ldsReqs x.mVa x.mStride x.mSpad x.mPitch rb rows) with
          cast := cast { ranges := ranges, contiguous := rows = 1 || x.mStride = rb, va := x.mVa, dst := x.mSpad, rowBytes := rb,
                         pitch := x.mPitch, total := rb * rows } } (go cs) s n) ∧
    (Issues s.dev c t w 2 1 (fmask 16 5 ||| fmask 31 5 ||| mMem false true true true) pk → roomIn ls s.dev x = true →
      by64 [x.mVa, x.tStride] = true → inWin → cs.tileBusy [] ts = false →
      ∃ n, exec (.ldt c t w) s = .next n ∧
        Launches 2 pk t.val { x.memOp s.dev id .ldt ls (ldtReqs x.mVa x.tStride base x.mTiles) with
          cast := cast { ranges := ranges, contiguous := x.tStride = 128, va := x.mVa, dst := 4096 * base, rowBytes := 4096,
                         pitch := 4096, total := 4096 * x.mTiles },
          pend := ts, base := base } (go (cs.mark true ts)) s n) ∧
    (Issues s.dev c t w 2 2 (fmask 16 5 ||| fmask 31 5 ||| mMem true false false true) pk → roomIn 2 s.dev x = true → rowsOk →
      rowsOverlap rows rb x.mStride = false → pagesOf memRows ≤ 64 →
      ∃ n, exec (.sts c t w) s = .next n ∧
        Launches 2 pk t.val (x.memOp s.dev id .sts 2
          (memRows.zipIdx.flatMap fun e => reqPieces e.1.1 rb (rowAt x.mSpad x.mPitch e.2) 0)) (go cs) s n) ∧
    (Issues s.dev c t w 2 3 (fmask 16 5 ||| fmask 31 5 ||| mMem false true false true) pk → roomIn 2 s.dev x = true →
      by64 [x.mVa, x.tStride] = true → rowsOverlap (32 * x.mTiles) 128 x.tStride = false →
      pagesOf ((List.range (32 * x.mTiles)).map fun r => (rowAt x.mVa x.tStride r, 128)) ≤ 64 → inWin →
      cs.tileBusy ts [] = false → ts.any cs.tilePoison = false →
      ∃ n, exec (.stt c t w) s = .next n ∧
        Launches 2 pk t.val { x.memOp s.dev id .stt 2 ((ldtReqs x.mVa x.tStride base x.mTiles).map fun r => { r with grp := 0 }) with
          pend := ts, base := base } (go (cs.mark false ts)) s n) ∧
    (Issues s.dev c t w 5 0 (fmask 16 37 ||| fmask 64 3 ||| fmask 80 16) pk → gatherRoom s.dev x = true → g.legal = true →
      SpadOk cs g.ranges [] →
      ∃ n, exec (.gath c t w) s = .next n ∧ Launches 5 pk t.val (gop .gath) (go cs) s n) ∧
    (Issues s.dev c t w 5 1 (fmask 16 33 ||| fmask 50 3 ||| fmask 64 3 ||| fmask 80 16) pk → gatherRoom s.dev x = true →
      g.legal = true → SpadOk cs g.ranges [] →
      ∃ n, exec (.scat c t w) s = .next n ∧ Launches 5 pk t.val (gop .scat) (go cs) s n)

/-- MVST, MVTS, PFB, PFW and PFR complete as R269, R273 and R294 to R298 say. MVST copies scratchpad rows into the tiles, MVTS
tile rows into the scratchpad; PFB starts the fill of its buffer, PFW waits for c[CD], PFR frees its buffer and ends its
subscriptions. -/
def Obligations.MovesAndPrefetch : Prop :=
  ∀ (s : State) (c : PCell) (t : Tid) (w : Word128) (pk : Nat),
    let x := ctxOf s.dev c t w pk
    let cs := s.dev.cellAt pk
    let ts := x.mTileNos.map (x.th.wbase + ·)
    let used := fmask 21 5 ||| fmask 36 5 ||| mMem false true false false
    let inWin := x.mTileNos.all (· < windowSize x.th.wsize) = true
    let rowAt_ := fun (i : Nat) => (x.moveRows.drop (32 * i)).take 32
    let b := x.mBuf
    let len := x.mGeom.1
    let rs := (reqPieces x.mVa len x.mSpad 0).zipIdx.map fun e => { e.1 with grp := e.2 }
    let cd := x.f 55 3
    let id := s.dev.u.nextOp
    let go := fun (cell : CellSt) => cell.onThread t.val Thread.advance
    (Issues s.dev c t w 2 4 used pk → by64 [x.mSpad, x.tPitch] = true → inWin → SpadOk cs x.moveRows x.moveRows →
      cs.tileBusy [] ts = false →
      ∃ n, exec (.mvst c t w) s = .next n ∧ CellGoes pk t.val s n ∧ (n.dev.cellAt pk).spad = cs.spad ∧
        (n.dev.cellAt pk).tiles = ts.zipIdx.foldl (fun ram e =>
          ramWith ram (4096 * e.1) (((rowAt_ e.2).flatMap fun r => cs.spad.slice r.1 128).zipIdx.map fun p => (p.2, p.1))) cs.tiles) ∧
    (Issues s.dev c t w 2 5 used pk → by64 [x.mSpad, x.tPitch] = true → rowsOverlap (32 * x.mTiles) 128 x.tPitch = false → inWin →
      SpadOk cs x.moveRows [] → cs.tileBusy ts [] = false → ts.any cs.tilePoison = false →
      ∃ n, exec (.mvts c t w) s = .next n ∧ CellSpad pk t.val (x.moveRows.zipIdx.foldl (fun ram e =>
        ram.put e.1.1 (cs.tiles.slice (4096 * ts.getD (e.2 / 32) 0 + 128 * (e.2 % 32)) 128)) cs.spad) s n) ∧
    (Issues s.dev c t w 2 6 (fmask 16 15 ||| mMem false false true true ||| fmask 64 3) pk → roomIn (x.f 51 1) s.dev x = true →
      x.mGeom.2 = 1 → 64 ≤ len → len ≤ 262144 → len % 64 = 0 → (agetD cs.pf b {}).state ≠ 1 → SpadOk cs [(x.mSpad, len)] [] →
      ∃ n, exec (.pfb c t w) s = .next n ∧ Launches 2 pk t.val (x.memOp s.dev id (.pfb b) (x.f 51 1) rs)
        (go { cs with pf := tinsert cs.pf b { state := 1, spad := x.mSpad, len := len, va := x.mVa, aslot := x.th.aslot,
                                              thread := t.val, granules := rs.map fun r => { va := r.va, len := r.len } } }) s n) ∧
    (Issues s.dev c t w 2 7 (mMem false false true true ||| fmask 55 3 ||| fmask 64 3) pk → roomIn (x.f 51 1) s.dev x = true →
      ∃ n, exec (.pfw c t w) s = .next n ∧ Launches 2 pk t.val (x.memOp s.dev id (.pfw b cd) (x.f 51 1) [])
        (go (cs.onThread t.val fun th => if cd = 0 then th else { th with pendC := putBits th.pendC cd 1 1 })) s n) ∧
    (Issues s.dev c t w 2 8 (fmask 64 3) pk →
      ∃ n m, exec (.pfr c t w) s = .next n ∧ n.pending = s.pending ∧ n.dev = (counted 2 pk t.val).run ((Tr.pump pk).run m) ∧
        m.mem = s.dev.mem ∧ m.cellAt pk = go { cs with pf := tinsert cs.pf b {} } ∧
        (∀ q ∈ m.u.coh.subs, q.2.2 ≠ .pf pk b) ∧
        ∀ o ∈ m.u.ops, o.pk = pk → o.kind = .pfb b → o.failed.isSome = true ∧ ∀ r ∈ o.reqs, r.st = .sent ∨ r.st = .done)

/-- LOAD_RESPONSE and STORE_COMPLETE complete the one request of the one operation that its cell has in progress (R265, R277,
R278, R283): a load's bytes of clean memory come to the scratchpad at its place, a store's bytes come to memory and nowhere else;
the operation has ended, and its thread, if it waited for its requests, is READY. -/
def Obligations.ResponsesCompleteOperations : Prop :=
  ∀ (s : State) (op : Nat) (o : MemOp) (r : Req),
    let la := localOf r.pa
    let pk := o.pk
    let bytes := s.dev.rawBytes la r.len
    let gone := fun (n : State) => n.dev.u.ops = s.dev.u.ops.filter (·.id ≠ op) ∧
      (∀ k, (s.dev.threadAt pk o.thread).wait = .requests k → (n.dev.threadAt pk o.thread).st = .ready)
    s.dev.op? op = some o → (∀ q ∈ s.dev.u.ops, q.pk = pk → q = o) → o.reqs = [r] → r.st = .sent → r.idx = false → r.len ≠ 0 →
    s.dev.isRemote r.pa = false → s.dev.servable (pk / 168) la r.len = true → Clean s.dev la r.len → o.failed = none →
    o.gath = none → o.cast = none → o.closed = [] → pk < 672 →
    (o.kind = .lds →
      ∃ n, exec (.loadResponse op 0 false) s = .next n ∧ n.pending = s.pending ∧ SameMemory s n ∧ gone n ∧
        (n.dev.cellAt pk).spad = (s.dev.cellAt pk).spad.put r.loc bytes ∧ (n.dev.cellAt pk).tiles = (s.dev.cellAt pk).tiles ∧
        (n.dev.cellAt pk).acc = (s.dev.cellAt pk).acc) ∧
    (o.kind = .sts ∨ o.kind = .stt → r.data.length = r.len → r.psn = [] → s.dev.storeBlocked o 0 r = false →
      s.dev.u.ckpt.holds la r.len = false →
      ∃ n, exec (.storeComplete op 0) s = .next n ∧ n.pending = s.pending ∧ Stores la r.data s n ∧ gone n ∧
        n.dev.fld STRM_STORE_BYTES COUNT (pk / 168) (pk % 168) =
          satAdd 48 (s.dev.fld STRM_STORE_BYTES COUNT (pk / 168) (pk % 168)) r.len)

/-- DMA_COPY, DMA_COPY_2D, DMA_FILL, DMA_TILES, LT_PUT and LT_GET complete by starting their chunks, where their parameters are good
(R302 to R304, R565, R566): the command waits with the number of its chunks, and memory is as before. The chunks end with
DMA_CHUNK_DONE. -/
def Obligations.TransfersStart : Prop :=
  ∀ (s : State) (src : CmdSrc) (k : BitVec 32) (c : Cmd),
    let runs := fun (op : Nat) => s.dev.cmd? src k.toNat op 0 = some c ∧ Single s.dev c ∧ c.sent = 0 ∧ c.ended = [] ∧ c.failed = none
    let starts := fun (i : Instr) (total : Nat) (tiles : List (Nat × Nat)) => total ≠ 0 →
      ∃ n, exec i s = .next n ∧ n.pending = s.pending ∧ SameMemory s n ∧
        n.dev.u.cmd.cmds.map (fun x => { x with sent := 0 }) = s.dev.u.cmd.cmds.map (fun x =>
          { (if x.seqNo = c.seqNo then { x with stage := 1, total := total, tiles := tiles } else x) with sent := 0 })
    let words := fun (l : List Nat) => l.all (fun o => c.at o 8 % 64 = 0)
    let far := c.at 16 8 / 2 ^ 41 % 2 ^ 7 = 0 ∧ c.at 16 8 < 2 ^ 63 ∧ s.dev.btagAbsent c = false
    let len := c.at 24 8
    (runs 0x10 → restZero c.pkt [(8, 24)] = true → words [8, 16, 24] → len ≤ 2 ^ 40 → starts (.dmaCopy src k) (cdiv len 65536) c.tiles) ∧
    (runs 0x11 → restZero c.pkt [(8, 48)] = true → words [8, 16, 24, 40, 48] → len * c.at 32 8 ≤ 2 ^ 40 →
      (len ≠ 0 → rowsOverlap (c.at 32 8) len (signed 64 (c.at 48 8)) = false) →
      starts (.dmaCopy2d src k) (c.at 32 8 * cdiv len 65536) c.tiles) ∧
    (runs 0x12 → restZero c.pkt [(8, 24)] = true → words [8, 16] → c.at 16 8 ≤ 2 ^ 40 →
      starts (.dmaFill src k) (cdiv (c.at 16 8) 65536) c.tiles) ∧
    (∀ g1 g2 : Nat → List (Nat × Nat), runs 0x13 → restZero c.pkt [(8, 24)] = true → words [8, 16] → len ≤ 2 ^ 24 →
      let x := s.dev.cmdReq c 0 1
      (∀ i, i < len → Reads s.dev x ((c.at 8 8 + 8 * i) % 2 ^ 64) 8 (g1 i) ∧ Reads s.dev x ((c.at 16 8 + 8 * i) % 2 ^ 64) 8 (g2 i) ∧
        leNat (bytesAt s.dev (g1 i)) % 512 = 0 ∧ leNat (bytesAt s.dev (g2 i)) % 512 = 0) →
      starts (.dmaTiles src k) len
        ((List.range len).map fun i => (leNat (bytesAt s.dev (g1 i)), leNat (bytesAt s.dev (g2 i))))) ∧
    (runs 0x30 → restZero c.pkt [(8, 40)] = true → words [8, 16, 24] → far → len ≤ 2 ^ 40 → c.at 32 8 % 8 = 0 → c.at 32 8 < 2 ^ 41 →
      starts (.ltPut src k) (cdiv len 65536) c.tiles) ∧
    (runs 0x31 → restZero c.pkt [(8, 24)] = true → words [8, 16, 24] → far → len ≤ 2 ^ 40 →
      starts (.ltGet src k) (cdiv len 65536) c.tiles)

/-- DMA_CHUNK_DONE completes a chunk of a copy or of a fill whose pages are cached and lie in clean memory of this package (R303 to
R306): the source bytes, or the fill's pattern, are written at the destination and nowhere else, and the chunk has ended. -/
def Obligations.DmaChunkMovesItsBytes : Prop :=
  ∀ (s : State) (src : CmdSrc) (k : BitVec 32) (i : Nat) (late : Bool) (c : Cmd) (srcs dsts : List (Nat × Nat)),
    let ch := c.chunk i
    let x := s.dev.cmdReq c (i + 1) 1
    let ends := fun (bs : List Byte) => ∃ n m, exec (.dmaChunkDone src k i late) s = .next n ∧ n.pending = s.pending ∧
      StoresList (writesAt s.dev dsts bs) s ⟨m, s.pending⟩ ∧ n.dev = (Tr.chunkEnd c i stOK).run m
    s.dev.u.cmd.cmds.find? (fun c => c.src = src && c.n = k.toNat && c.stage = 1 &&
      (0x10 ≤ c.op && c.op ≤ 0x13 || c.op = 0x30 || c.op = 0x31)) = some c → i < c.sent → i ∉ c.ended →
    (∀ q ∈ s.dev.u.fab.reqs, q.ofChunk c.seqNo i = false) → Writes s.dev x ch.dst ch.len dsts →
    s.dev.piecesFenced (qDie c.q) (srcs ++ dsts) = false →
    (c.op = 0x10 ∨ c.op = 0x11 ∨ c.op = 0x13 → Reads s.dev x ch.src ch.len srcs →
      (∀ j, j < ch.len → c.overlaps (ch.dst + j) = false) → ends (bytesAt s.dev srcs)) ∧
    (c.op = 0x12 → srcs = [] → ch.len % 8 = 0 → ends ((List.replicate (ch.len / 8) (leBytes 8 (c.at 24 8))).flatten))

/-- VQ_MOULD_LOAD, MOULD_LOAD_DONE and VQ_MOULD_RETIRE complete as R315 to R317 and R455 say: a FREE mould goes to LOADING; a good
codebook's entries come to the mould's storage, with its geometry and generation, and the mould is LIVE; a LIVE mould of the named
generation goes to DRAINING. The clauses with a record end their command with OK. -/
def Obligations.MouldsLoadAndRetire : Prop :=
  ∀ (s : State) (src : CmdSrc) (k : BitVec 32) (c : Cmd),
    let die := c.at 8 1
    let m := c.at 9 1
    let st := fun (d : Dev) => d.fld VQ_MOULD VQ_MOULD_STATE die m
    (s.dev.cmd? src k.toNat 0x20 0 = some c → restZero c.pkt [(8, 4), (16, 8)] = true → die ≤ 3 → m ≤ 15 → c.at 10 2 ≠ 0 →
      c.at 16 8 % 64 = 0 → st s.dev = 0 →
      (s.dev.u.cmd.cmds.filter fun x => x.op = 0x20 && x.stage = 1 && qDie x.q = qDie c.q).length < 4 →
      ∃ n, exec (.vqMouldLoad src k) s = .next n ∧ n.pending = s.pending ∧ SameMemory s n ∧ st n.dev = 1 ∧
        SameRegsBut [VQ_MOULD.key die m 0] s n ∧
        n.dev.u.cmd.cmds = s.dev.u.cmd.cmds.map fun x => if x.seqNo = c.seqNo then { x with stage := 1 } else x) ∧
    (∀ g1 g2, let x := s.dev.cmdReq c 0 4
      let h := bytesAt s.dev g1
      let es := bytesAt s.dev g2
      s.dev.cmd? src k.toNat 0x20 1 = some c → die ≤ 3 → m ≤ 15 → Reads s.dev x (c.at 16 8) 64 g1 → codebookGood h = true →
      Reads s.dev x ((c.at 16 8 + 64) % 2 ^ 64) (leAt h 8 4) g2 → crc32c es = leAt h 12 4 →
      ∃ n d, exec (.mouldLoadDone src k) s = .next n ∧ Completes c stOK 0 d s n ∧ st d = 2 ∧
        d.fld VQ_MOULD VQ_MOULD_GEN die m = c.at 10 2 ∧ d.rawBytes (mouldAddr die m) es.length = es ∧
        d.reg VQ_MOULD_GEOM die m =
          w64 (leAt h 3 1 + leAt h 4 1 * 2 ^ 8 + leAt h 5 1 * 2 ^ 16 + leAt h 8 4 * 2 ^ 32) &&& maskOf (VQ_MOULD_GEOM.key die m 0)) ∧
    (s.dev.cmd? src k.toNat 0x21 0 = some c → restZero c.pkt [(8, 4)] = true → die ≤ 3 → m ≤ 15 → st s.dev = 2 →
      s.dev.fld VQ_MOULD VQ_MOULD_GEN die m = c.at 10 2 →
      ∃ n d, exec (.vqMouldRetire src k) s = .next n ∧ Completes c stOK 0 d s n ∧ st d = 3 ∧ d.mem = s.dev.mem ∧ d.u = s.dev.u ∧
        SameRegsBut [VQ_MOULD.key die m 0] s ⟨d, s.pending⟩)

/-- VQATT, VQX and VQREL complete as R333 to R336 say. VQATT copies the table of a LIVE mould of the named generation into the
scratchpad and holds the attachment; VQX writes the content of a good block, whose entries come from the copy; VQREL gives the
attachment up. -/
def Obligations.CastingAtUse : Prop :=
  ∀ (s : State) (c : PCell) (t : Tid) (w : Word128) (pk : Nat),
    let x := ctxOf s.dev c t w pk
    let cs := s.dev.cellAt pk
    let die := pk / 168
    let goes := CellSpad pk t.val
    let count := fun (r : Reg) (d : Dev) => d.fld r COUNT die
    (let a := x.s 16
      let m := bitsOf x.imm 0 4
      let gen := bitsOf x.imm 16 16
      let g := s.dev.geom die m
      Issues s.dev c t w 6 8 (bMask true false false false false false true ||| mIMM 4 ||| fmask 80 16) pk →
      s.dev.dieFeature die 115 = true → aget? cs.att x.att = none → a % 64 = 0 → s.dev.slotFree pk = true →
      s.dev.fld VQ_MOULD VQ_MOULD_STATE die m = 2 → s.dev.fld VQ_MOULD VQ_MOULD_GEN die m = gen → g.bytes ≤ 262144 →
      SpadOk cs [(a, g.bytes)] [] → s.dev.u.badMould.contains (die * 16 + m) = false →
      ∃ n, exec (.vqatt c t w) s = .next n ∧ goes (cs.spad.put a (s.dev.rawBytes (mouldAddr die m) g.bytes)) s n ∧
        (n.dev.cellAt pk).att = tinsert cs.att x.att (m, gen, a)) ∧
    (∀ m gen tbl, let src := x.s 16
      let dst := x.s 36
      let b := blockOf (cs.spad.slice src 32)
      let g := s.dev.geom die m
      let bs := cs.spad.slice src b.used
      let o := b.content g bs fun i => cs.spad.slice (tbl + i * g.vecBytes) g.vecBytes
      Issues s.dev c t w 6 9 (bMask true false false false true false true) pk → src % 64 = 0 → dst % 64 = 0 →
      aget? cs.att x.att = some (m, gen, tbl) → s.dev.slotFree pk = true → b.good = true → b.mould = m → b.gen = gen →
      b.geomOk g = true → SpadOk cs [(src, 32), (src, b.used), (dst, b.slot)] [(src, 32), (src, b.used), (tbl, g.bytes)] →
      b.crcOk bs = true → o.2 = stOK →
      ∃ n, exec (.vqx c t w) s = .next n ∧ goes (cs.spad.put dst o.1) s n ∧
        count VQ_BYTES_CAST n.dev = satAdd 48 (count VQ_BYTES_CAST s.dev) o.1.length ∧
        count VQ_BLOCKS_CAST n.dev = satAdd 48 (count VQ_BLOCKS_CAST s.dev) 1) ∧
    (Issues s.dev c t w 6 10 (bMask false false false false false false true) pk →
      ∃ n, exec (.vqrel c t w) s = .next n ∧ goes cs.spad s n ∧ (n.dev.cellAt pk).att = terase cs.att x.att)

/-- HBM_READ, HBM_WRITE, HBM_REFRESH, SCRUB_READ, MEM_RETIRE_ADD and RETIRE_TAKES_EFFECT complete as R341 to R363 say. A read of a
clean sector answers its eight words; one of a sector with errors that the code corrects answers the data as stored and counts the
correction; a write stores the masked bytes and no other; a refresh changes no memory; a scrub read moves on by one sector; a
frame to be retired waits, and is retired once no request to it is in flight. -/
def Obligations.HbmCommands : Prop :=
  ∀ (s : State) (la : BitVec 41) (agent : BitVec 8) (die : Die) (td : TDie),
    let a := la.toNat / 64 * 64
    let clean := Clean s.dev a 64
    let words := (List.range 8).map fun i => w64 (leAt (s.dev.rawBytes a 64) (8 * i) 8)
    let rec_ := retireStatus die.val
    let ms := s.dev.u.mem
    (clean →
      ∃ n, exec (.hbmRead la agent die []) s = .next n ∧ n.pending = s.pending ∧ SameMemory s n ∧ SameRegsBut [] s n ∧
        n.dev.u.rdata = s.dev.u.rdata ++ words) ∧
    (∀ errs sd pc slot st, s.dev.place la.toNat = .hbm sd pc slot st → s.dev.accessStatus a = stOK →
      let d := (Tr.damage (st / 64) errs).run s.dev
      d.sectorPoison (d.sector a) = false → (d.sectorErrs (d.sector a)).length ≠ 0 →
      (d.sectorErrs (d.sector a)).length ≤ s.dev.forceFld MEM_CTL MEM_CTL_ECC_T sd →
      ∃ n, exec (.hbmRead la agent die errs) s = .next n ∧ n.pending = s.pending ∧ n.dev.u.rdata = s.dev.u.rdata ++ words ∧
        n.dev.fld MEM_CE_COUNT COUNT sd = satAdd 48 (s.dev.fld MEM_CE_COUNT COUNT sd) 1) ∧
    (∀ (mask : BitVec 64) (data : BitVec 512), clean →
      ∃ n, exec (.hbmWrite la mask data agent die) s = .next n ∧ n.pending = s.pending ∧ SameRegsBut [] s n ∧
        (∀ i, i < 64 → n.dev.byte (s.dev.stor (a + i)) =
          if mask.getLsbD i then data.extractLsb' (8 * i) 8 else s.dev.byte (s.dev.stor (a + i))) ∧
        ∀ b, (∀ i, i < 64 → b ≠ s.dev.stor (a + i)) → n.dev.byte b = s.dev.byte b) ∧
    (∀ (pc : BitVec 8) (bank : BitVec 6), pc.toNat < 192 →
      ∃ n, exec (.hbmRefresh td pc bank) s = .next n ∧ n.pending = s.pending ∧ n.dev.mem = s.dev.mem ∧ n.dev.regs = s.dev.regs ∧
        n.dev.u.mem.refreshed = aupd ms.refreshed (td.val * 2 ^ 16 + pc.toNat * 64 + bank.toNat) 0 (· + 1)) ∧
    (let pos := agetD ms.scrubPos td.val 0
      let next := if pos + 1 = dieSectors then 0 else pos + 1
      s.dev.flag MEM_CTL MEM_CTL_SCRUB_EN td.val = true → Clean s.dev (s.dev.localOfStor td.val (64 * pos)) 64 →
      ∃ n, exec (.scrubRead td []) s = .next n ∧ n.pending = s.pending ∧ SameMemory s n ∧
        SameRegsBut [MEM_SCRUB_STATUS.key td.val 0 0] s n ∧ agetD n.dev.u.mem.scrubPos td.val 0 = next) ∧
    (∀ v : Word, let frame := bitsOf v.toNat 12 29
      die.val ≤ 4 → inRetireWindow die.val frame = true → frame ∉ ms.retired → frame ∉ ms.retiring →
      s.dev.fld rec_.1 rec_.2.2.2.2 die.val < 4096 →
      ∃ n, exec (.memRetireAdd die v) s = .next n ∧ n.pending = s.pending ∧ n.dev.mem = s.dev.mem ∧
        SameRegsBut [rec_.1.key die.val 0 0] s n ∧ n.dev.u.mem = { ms with retiring := ms.retiring ++ [frame] } ∧
        n.dev.fld rec_.1 rec_.2.2.2.2 die.val = s.dev.fld rec_.1 rec_.2.2.2.2 die.val + 1 ∧
        n.dev.flag rec_.1 rec_.2.1 die.val = true) ∧
    (∀ frame : BitVec 29, let f := frame.toNat
      die.val ≤ 4 → f ∈ ms.retiring → inRetireWindow die.val f = true → s.dev.frameBusy f = false →
      ∃ n, exec (.retireTakesEffect die frame) s = .next n ∧ n.pending = s.pending ∧ n.dev.mem = s.dev.mem ∧
        SameRegsBut [rec_.1.key die.val 0 0] s n ∧ f ∈ n.dev.u.mem.retired ∧ f ∉ n.dev.u.mem.retiring ∧
        n.dev.flag rec_.1 rec_.2.1 die.val = (n.dev.u.mem.retiring.any (inRetireWindow die.val)))

/-- The commands of the bulk tier complete as R367 to R371 say. A request that its device answers reads or writes its line; one that
it does not answer waits; the timer ends it, and the lines of a write enter the fence list; a late completion stores the data and
takes the lines out of the list; a fault of a port takes it to FAULTED with no request left; a port is enabled on a trained CXL
link; a link that trains says so, and its port's fence list is empty. -/
def Obligations.BulkTierCommands : Prop :=
  ∀ (s : State) (port : HostPort) (line : BitVec 31) (data : BitVec 512) (agent : BitVec 8) (die : Die) (off : Nat),
    let p := port.val
    let la := portBase p + line.toNat * 64
    let ms := s.dev.u.mem
    let st := fun (f : Fld) (d : Dev) => d.fld MEM_BULK_STATUS f HD p
    let good := s.dev.place la = .bulk p off ∧ s.dev.accessStatus la = stOK ∧ s.dev.fenced la 64 = false
    let mine := fun (l : Nat) => l / 2 ^ 37 = portBase p / 2 ^ 37
    let asked := fun (w : Bool) => ({ id := ms.nextBulk, port := p, la := la, len := 64, write := w,
                                      data := (if w then leBytes 64 data.toNat else []), since := s.dev.elapsed,
                                      agent := agent.toNat, die := die.val } : BulkReq)
    (good → s.dev.sectorPoison (s.dev.sector la) = false →
      ∃ n, exec (.bulkRequest port line none true agent die none) s = .next n ∧ n.pending = s.pending ∧ SameMemory s n ∧
        SameRegsBut [] s n ∧
        n.dev.u.rdata = s.dev.u.rdata ++ (List.range 8).map fun i => w64 (leAt (s.dev.rawBytes la 64) (8 * i) 8)) ∧
    (good → s.dev.u.ckpt.holds la 64 = false →
      ∃ n, exec (.bulkRequest port line (some data) true agent die none) s = .next n ∧ n.pending = s.pending ∧
        Stores la (leBytes 64 data.toNat) s n) ∧
    (∀ w : Bool, good →
      ∃ n, exec (.bulkRequest port line (if w then some data else none) false agent die none) s = .next n ∧
        n.pending = s.pending ∧ SameMemory s n ∧ SameRegsBut [] s n ∧
        n.dev.u.mem = { ms with bulk := ms.bulk ++ [asked w], nextBulk := ms.nextBulk + 1 }) ∧
    (∀ id b, ms.bulk.find? (·.id = id) = some b → b.timedOut = false → b.waiting = false → b.own = none →
      b.since + s.dev.fld MEM_BULK_CFG MEM_BULK_CFG_TIMEOUT_US HD b.port * oneUs ≤ s.dev.elapsed → b.port < 8 →
      ∃ n, exec (.tierTimeout id) s = .next n ∧ n.pending = s.pending ∧
        n.dev.fld MEM_BULK_TIMEOUTS COUNT HD b.port = satAdd 48 (s.dev.fld MEM_BULK_TIMEOUTS COUNT HD b.port) 1 ∧
        (b.write = true → n.dev.u.mem.fence = ms.fence ++ (sectorsOf b.la b.len).map fun l => (l, s.dev.elapsed)) ∧
        (b.write = false → n.dev.u.mem.fence = ms.fence ∧ ∀ q ∈ n.dev.u.mem.bulk, q.id ≠ id)) ∧
    (∀ id b q, ms.bulk.find? (·.id = id) = some b → b.timedOut = true → (∀ r ∈ ms.bulk, r.waiting = false) →
      b.la % 64 = 0 → b.data.length = 64 → s.dev.place b.la = .bulk b.port q → s.dev.accessStatus b.la = stOK →
      s.dev.u.ckpt.holds b.la 64 = false →
      ∃ n, exec (.bulkLateCompletion id) s = .next n ∧ n.pending = s.pending ∧ Stores b.la b.data s n ∧
        n.dev.u.mem.fence = ms.fence.filter (fun f => !(sectorsOf b.la b.len).contains f.1) ∧ ∀ r ∈ n.dev.u.mem.bulk, r.id ≠ id) ∧
    (st MEM_BULK_STATUS_STATE s.dev = 1 → st MEM_BULK_STATUS_LINK_UP s.dev = 1 →
      ∃ n, exec (.portFault port true) s = .next n ∧ n.pending = s.pending ∧ st MEM_BULK_STATUS_STATE n.dev = 2 ∧
        st MEM_BULK_STATUS_LINK_UP n.dev = 0 ∧ ∀ r ∈ n.dev.u.mem.bulk, r.port ≠ p) ∧
    (∀ v : Word, v.toNat.testBit 0 = true → s.dev.flag MEM_BULK_CFG MEM_BULK_CFG_EN HD p = false →
      st MEM_BULK_STATUS_LINK_UP s.dev = 1 → st MEM_BULK_STATUS_PCIE_MODE s.dev = 0 → (∀ f ∈ ms.fence, ¬ mine f.1) →
      ∃ n, exec (.bulkEnable port v) s = .next n ∧ n.pending = s.pending ∧ n.dev.mem = s.dev.mem ∧ n.dev.u = s.dev.u ∧
        SameRegsBut [MEM_BULK_CFG.key HD p 0, MEM_BULK_STATUS.key HD p 0] s n ∧ st MEM_BULK_STATUS_STATE n.dev = 1 ∧
        n.dev.flag MEM_BULK_CFG MEM_BULK_CFG_EN HD p = true) ∧
    (∀ (w16 : Bool) (gts : BitVec 8) (pcie : Bool), s.dev.flag MEM_BULK_CFG MEM_BULK_CFG_EN HD p = false →
      ∃ n, exec (.cxlLinkUp port w16 gts pcie) s = .next n ∧ n.pending = s.pending ∧ n.dev.mem = s.dev.mem ∧
        SameRegsBut [MEM_BULK_STATUS.key HD p 0] s n ∧ st MEM_BULK_STATUS_LINK_UP n.dev = 1 ∧
        st MEM_BULK_STATUS_PCIE_MODE n.dev = b01 pcie ∧ st MEM_BULK_STATUS_WIDTH n.dev = (if w16 then 16 else 8) ∧
        n.dev.u.mem.fence = ms.fence.filter fun f => !decide (mine f.1))

/-- The messages of coherence complete as R375 to R386 say. A request to an untouched line is granted at once, with E or M, its
data answered; a write of the line stores its data; a give-up drops the copy. A request to a held line waits for the holders that
must answer. A snoop is answered when the copy's hold has run out, by downgrade or invalidation, and waits otherwise. The end of a
hold, untrack notices and drop notices do what R378, R379 and R384 say. -/
def Obligations.CoherenceMessages : Prop :=
  ∀ (s : State) (ag : Fin 32) (line : BitVec 35),
    let a := ag.val
    let l := line.toNat
    let c := s.dev.u.coh
    let h := s.dev.home (l * 64)
    let fi := h * 65536 + filterIdx (l * 64)
    let untouched := Clean s.dev (l * 64) 64 ∧ c.lineReqs l = [] ∧ aget? c.dir l = none ∧ agetD c.filter fi 0 = 0 ∧
      (c.holders l).all (·.agent = a) = true
    let others := c.copies.filter fun x => !(x.agent = a && x.line = l)
    let r0 : HomeReq := { agent := a, line := l, kind := 0 }
    (∀ k : Fin 4, untouched → k.val < 3 → (s.dev.u.ckpt.page? (l * 64)) = none →
      ∃ n, exec (.homeRequest ag line k none none) s = .next n ∧ n.pending = s.pending ∧ SameMemory s n ∧
        n.dev.u.coh.reqs = c.reqs ∧
        n.dev.u.coh.copies = others ++ [{ agent := a, line := l, st := (if k.val = 0 then 2 else 3),
                                          hold := s.dev.elapsed + s.dev.holdTime (agentDie a) k.val }] ∧
        n.dev.u.rdata = s.dev.u.rdata ++ (List.range 8).map fun i => w64 (leAt (s.dev.rawBytes (l * 64) 64) (8 * i) 8)) ∧
    (∀ (k : Fin 4) (data : BitVec 512), untouched → k.val < 3 → s.dev.u.ckpt.holds (l * 64) 64 = false →
      ∃ n, exec (.homeRequest ag line k (some data) none) s = .next n ∧ n.pending = s.pending ∧
        Stores (l * 64) (leBytes 64 data.toNat) s n ∧ n.dev.u.coh.reqs = c.reqs ∧ aget? n.dev.u.coh.dir l = none) ∧
    (untouched →
      ∃ n, exec (.homeRequest ag line 3 none none) s = .next n ∧ n.pending = s.pending ∧ SameMemory s n ∧
        n.dev.u.coh.copies = others ∧ n.dev.u.coh.reqs = c.reqs) ∧
    (∀ e, Clean s.dev (l * 64) 64 → c.lineReqs l = [] → aget? c.dir l = some e →
      let ws := ((c.holders l).filter fun x => x.agent ≠ a && x.st ≠ 1).map (·.agent)
      ws ≠ [] →
      ∃ n, exec (.homeRequest ag line 0 none none) s = .next n ∧ n.pending = s.pending ∧ SameMemory s n ∧
        n.dev.u.coh = { c with reqs := c.reqs ++ [{ r0 with started := true, wait := ws }] }) ∧
    (∀ (b : Bool) (i : Instr) r x, i = (if b then .broadcastSnoop ag line else .snoop ag line) →
      (c.lineReqs l).head? = some r → r.started = true → r.bcast = b → a ∈ r.wait → a ∉ r.held → c.copy a l = some x →
      s.dev.elapsed < x.hold →
      ∃ n, exec i s = .next n ∧ n.pending = s.pending ∧ SameMemory s n ∧
        n.dev.fld COH_HOLD_WAITS COUNT (agentDie a) = satAdd 48 (s.dev.fld COH_HOLD_WAITS COUNT (agentDie a)) 1 ∧
        n.dev.u.coh = { c with reqs := onFirst l (fun q => { q with held := a :: q.held }) c.reqs }) ∧
    (∀ (b : Bool) (i : Instr) r x, i = (if b then .broadcastSnoop ag line else .snoop ag line) →
      (c.lineReqs l).head? = some r → r.started = true → r.bcast = b → a ∈ r.wait → a ∉ r.held → c.copy a l = some x →
      x.hold ≤ s.dev.elapsed → r.agent ≠ a → r.wait.erase a ≠ [] →
      ∃ n, exec i s = .next n ∧ n.pending = s.pending ∧ SameMemory s n ∧
        n.dev.u.coh.copies = (if r.kind = 0 ∧ r.data = none then
            (c.onCopy a l fun y => { y with st := 1, u := (if b then false else y.u) }).copies else others) ∧
        n.dev.u.coh.reqs = onFirst l (fun q => { q with wait := q.wait.erase a, held := q.held.erase a }) c.reqs) ∧
    (∀ x sc, c.copy a l = some x → x.hold ≤ s.dev.elapsed ∨ sc = true →
      (c.lineReqs l).head?.any (·.held.contains a) = false →
      ∃ n, exec (.holdEnd ag line sc) s = .next n ∧ n.pending = s.pending ∧ n.dev.mem = s.dev.mem ∧ n.dev.regs = s.dev.regs ∧
        n.dev.u.coh = c.onCopy a l fun y => { y with hold := 0 }) ∧
    ((a, l) ∈ c.untrack →
      ∃ n, exec (.untrackNotice ag line) s = .next n ∧ n.pending = s.pending ∧ n.dev.mem = s.dev.mem ∧ n.dev.regs = s.dev.regs ∧
        n.dev.u.coh.untrack = c.untrack.erase (a, l) ∧
        n.dev.u.coh.copies = (c.onCopy a l fun y => { y with u := true }).copies ∧
        n.dev.u.coh.drops = (if (c.copy a l).isSome then c.drops else c.drops ++ [l])) ∧
    (l ∈ c.drops →
      ∃ n, exec (.dropNotice line) s = .next n ∧ n.pending = s.pending ∧ n.dev.mem = s.dev.mem ∧
        n.dev.u.coh.drops = c.drops.erase l ∧ agetD n.dev.u.coh.filter fi 0 = agetD c.filter fi 0 - 1 ∧
        SameRegsBut [COH_UNTRACKED.key h 0 0] s n)

/-- FAR_ATOMIC and NEAR_ATOMIC complete on a clean, naturally aligned operand: memory holds the new value of R387 and nothing else
changes, and the old value is answered; a near atomic leaves the line in M at its agent (R389). COH_PRED_CLEAR asks for the
contention predictor's reset at the next edge (R391). -/
def Obligations.Atomics : Prop :=
  ∀ (s : State) (la : BitVec 41) (op : Fin 11) (wide : Bool) (x y : Word),
    let a := la.toNat
    let line := a / 64
    let sz := if wide then 8 else 4
    let old := leNat (s.dev.rawBytes a sz)
    let new := leBytes sz (atomicNew op.val (8 * sz) old x.toNat y.toNat)
    let good := a % sz = 0 ∧ Clean s.dev a sz ∧ s.dev.u.ckpt.holds a sz = false ∧ (op.val = 10 → wide = false)
    let does := fun (n : State) => n.pending = s.pending ∧ Stores a new s n ∧ n.dev.u.rdata = s.dev.u.rdata ++ [w64 old]
    (∀ (die : Die) (agent : BitVec 8), good → (s.dev.atomFar die.val a).1 = true →
      (s.dev.u.coh.lineReqs line).head?.any (·.started) = false →
      ∃ n, exec (.farAtomic die agent la op wide x y) s = .next n ∧ does n) ∧
    (∀ (ag : Fin 32) (waited : Bool), let die := agentDie ag.val
      let had := ((s.dev.u.coh.copy ag.val line).map (·.hold)).getD (s.dev.elapsed + s.dev.holdTime die 1)
      good → (s.dev.atomFar die a).1 = false → s.dev.u.coh.lineReqs line = [] →
      (s.dev.u.coh.holders line).any (fun c => c.agent ≠ ag.val && s.dev.elapsed < c.hold) = false →
      ∃ n, exec (.nearAtomic ag la op wide x y waited) s = .next n ∧ does n ∧
        n.dev.u.coh.copies = s.dev.u.coh.copies.filter (fun c => c.line ≠ line) ++
          [{ agent := ag.val, line := line, st := 3, hold := had }]) ∧
    (∀ (die : Die) (v : Word), die.val < 5 → v.toNat.testBit 12 = true →
      ∃ n, exec (.cohPredClear die v) s = .next n ∧ n.pending = s.pending ∧ n.dev.mem = s.dev.mem ∧ n.dev.u = s.dev.u ∧
        SameRegsBut [COH_CTL.key die.val 0 0] s n ∧ n.dev.flag COH_CTL COH_CTL_PRED_CLEAR die.val = true)

/-- The commands of translation complete as R407, R408 and R420 to R430 say: a request that waits for its translation and finds it
cached goes on; the oldest fault without a record gets its record in the ring; a response or the watchdog ends a fault, with its
status for every request that waited; an invalidation takes its translations away at once and says when the requests in flight
have completed; a slot made invalid loses its translations. -/
def Obligations.TranslationCommands : Prop :=
  ∀ (s : State) (td : TDie) (f5 : Fin 5),
    let die := td.val
    let x := s.dev.u.xlat
    let without := fun (f : FaultSt) (ended : List (Waiter × Nat)) (n : State) =>
      n.pending = s.pending ∧ n.dev.mem = s.dev.mem ∧ SameRegsBut [XLAT_FQ_STATUS.key f.die 0 0, XLAT_WDOG_EXPIRED.key die 0 0] s n ∧
        n.dev.u.xlat = { x with faults := x.faults.filter (·.id ≠ f.id), ended := x.ended ++ ended }
    (∀ op req o r e, let rx : XReq := { die := o.pk / 168, slot := o.aslot, va := r.va, access := b01 (o.kind.stores && !r.idx),
                                        spec := false, source := 0, cell := o.pk / 168 * 160 + s.dev.logicalOf o.pk % 160,
                                        thread := o.thread, queue := s.dev.threadQueue o.pk o.thread, agent := agCell,
                                        pk := some o.pk, who := .req op req }
      s.dev.op? op = some o → o.reqs[req]? = some r → r.st = .untranslated ∨ (∃ k, r.st = .faulted k) → Hits s.dev rx e →
      s.dev.localMmio (hitGa rx e) = false → o.cast = none →
      ∃ n m, exec (.pageWalk op req) s = .next n ∧ n.pending = s.pending ∧ n.dev = (Tr.pump o.pk).run m ∧ m.mem = s.dev.mem ∧
        m.u.ops = s.dev.u.ops.map fun q => if q.id = op then { q with
          reqs := q.reqs.modify req fun r => { r with pa := hitGa rx e, pin := pteBit e.pte 8, st := .ready } } else q) ∧
    (∀ f, let head := (s.dev.reg XLAT_FQ_HEAD die).toNat % 2 ^ 32
      let la := localOf ((s.dev.reg XLAT_FQ_BASE die).toNat + head % 4096 * 32)
      x.faults.find? (fun f => f.die = die && f.record.isNone) = some f → s.dev.fqRoom die = true →
      s.dev.isRemote ((s.dev.reg XLAT_FQ_BASE die).toNat + head % 4096 * 32) = false → la % 32 = 0 → Clean s.dev la 32 →
      ∃ n, exec (.faultRecordDeferred td) s = .next n ∧ n.pending = s.pending ∧ Stores la (faultBytes f head) s n ∧
        n.dev.reg XLAT_FQ_HEAD die = w64 ((head + 1) % 2 ^ 32) &&& maskOf (XLAT_FQ_HEAD.key die 0 0) ∧
        n.dev.u.xlat = x.onFault f.id fun q => { q with record := some head }) ∧
    (∀ (num : BitVec 32) f, x.faults.find? (fun f => f.die = die && f.record = some num.toNat) = some f →
      (∃ n, exec (.xlatFqRespRetry td num) s = .next n ∧ without f [] n) ∧
      ∃ n, exec (.xlatFqRespAbort td num) s = .next n ∧ without f (f.waiters.map fun w => (w, stTRANSLATION_ABORT)) n) ∧
    (∀ id f, x.faults.find? (fun f => f.die = die && f.id = id) = some f →
      f.since + s.dev.fld XLAT_WDOG XLAT_WDOG_TIMEOUT_US die * oneUs ≤ s.dev.elapsed →
      ∃ n, exec (.faultWatchdogExpire td id) s = .next n ∧
        without f (f.waiters.map fun w => (w, if f.record.isSome then stTRANSLATION_ABORT else stFAULTQ_OVERFLOW)) n ∧
        n.dev.fld XLAT_WDOG_EXPIRED COUNT die = satAdd 48 (s.dev.fld XLAT_WDOG_EXPIRED COUNT die) 1) ∧
    (∀ v : Word, let i : InvSt := { reg := f5.val, scope := bitsOf v.toNat 1 2, asid := bitsOf v.toNat 16 16,
                                    va := (s.dev.reg XLAT_INV_ADDR f5.val).toNat }
      v.toNat.testBit 0 = true → s.dev.flag XLAT_INV_CTL XLAT_INV_CTL_GO f5.val = false →
      ∃ n, exec (.xlatInvGo f5 v) s = .next n ∧ n.pending = s.pending ∧ n.dev.mem = s.dev.mem ∧
        n.dev.flag XLAT_INV_CTL XLAT_INV_CTL_GO f5.val = true ∧
        n.dev.u.xlat = { x.without i with inv := x.inv ++ [{ i with waits := s.dev.invWaits i }] }) ∧
    (∀ i, x.inv.find? (·.reg = f5.val) = some i →
      (i.waits.any fun e => s.dev.u.ops.any fun q => q.id = e.1 && ((q.reqs[e.2]?).any fun r => r.st = .sent || r.st = .ready)) = false →
      ∃ n, exec (.invalidationDone f5) s = .next n ∧ n.pending = s.pending ∧ n.dev.mem = s.dev.mem ∧
        SameRegsBut [XLAT_INV_CTL.key f5.val 0 0, XLAT_INV_STATUS.key f5.val 0 0] s n ∧
        n.dev.flag XLAT_INV_CTL XLAT_INV_CTL_GO f5.val = false ∧
        n.dev.fld XLAT_INV_STATUS XLAT_INV_STATUS_DONE_COUNT f5.val =
          (s.dev.fld XLAT_INV_STATUS XLAT_INV_STATUS_DONE_COUNT f5.val + 1) % 2 ^ 32 ∧
        n.dev.u.xlat = { x with inv := x.inv.filter (·.reg ≠ f5.val) }) ∧
    (∀ (slot : BitVec 6) (v : Word), v.toNat.testBit 0 = false →
      let i : InvSt := { reg := die, scope := 1, asid := s.dev.asidOf die slot.toNat, va := 0 }
      ∃ n, exec (.asSlotInvalid td slot v) s = .next n ∧ n.pending = s.pending ∧ n.dev.mem = s.dev.mem ∧
        n.dev.flag XLAT_AS_CFG XLAT_AS_CFG_VALID die slot.toNat = false ∧
        (s.dev.flag XLAT_AS_CFG XLAT_AS_CFG_VALID die slot.toNat = true → n.dev.u.xlat = x.without i))

/-- The commands of the queues complete as R439 to R449, R456, R459, R471 and R472 say: a queue is enabled with empty rings, or
disabled, and is OFF once no command of it is in flight; a doorbell moves its tail; the driver frees records; a packet is read
whole from its ring and held until it may start; a record that waited is written in its ring's next place; the entry of a thread
that has ended gets its record. -/
def Obligations.QueuesAndPackets : Prop :=
  ∀ (s : State) (td : TDie) (qid : QueueId) (v : Word),
    let q := qid.val
    let die := qDie q
    let j := qIdx q
    let f := fun (r : Reg) (x : Fld) (d : Dev) => d.fld r x die j
    let mine := [CMD_QCFG.key die j 0, CMD_SQ_PTR.key die j 0, CMD_CQ_PTR.key die j 0, CMD_QSTAT.key die j 0]
    let cm := s.dev.u.cmd
    let quiet := fun (n : State) => n.pending = s.pending ∧ n.dev.mem = s.dev.mem
    let tail := f CMD_CQ_PTR CMD_CQ_PTR_TAIL s.dev
    let at_ := (s.dev.reg CMD_CQ_BASE die j).toNat + tail % s.dev.cqSize q * 16
    (f CMD_QCFG CMD_QCFG_EN s.dev = 0 → s.dev.qState q = 0 →
      ∃ n, exec (.queueEnable qid v) s = .next n ∧ quiet n ∧ n.dev.u = s.dev.u ∧ SameRegsBut mine s n ∧
        f CMD_QCFG CMD_QCFG_EN n.dev = 1 ∧ n.dev.qState q = 1 ∧ n.dev.reg CMD_SQ_PTR die j = 0 ∧ n.dev.reg CMD_CQ_PTR die j = 0 ∧
        f CMD_QCFG CMD_QCFG_ASLOT n.dev = bitsOf v.toNat 24 6) ∧
    (f CMD_QCFG CMD_QCFG_EN s.dev = 1 →
      ∃ n, exec (.queueDisable qid v) s = .next n ∧ quiet n ∧ SameRegsBut (CMD_RECORDS_LOST.key die 0 0 :: mine) s n ∧
        f CMD_QCFG CMD_QCFG_EN n.dev = 0 ∧ n.dev.qState q = (if s.dev.inflight q = 0 then 0 else 2) ∧
        n.dev.u.cmd.held = cm.held.filter (·.q ≠ q) ∧
        n.dev.u.cmd.waiting = if s.dev.inflight q = 0 then cm.waiting.filter (·.q ≠ q) else cm.waiting) ∧
    (s.dev.qState q = 1 → s.dev.fld PWR_STATE PWR_STATE_STATE HD ≠ 3 → v.toNat % 2 ^ 32 ≠ f CMD_SQ_PTR CMD_SQ_PTR_TAIL s.dev →
      (v.toNat % 2 ^ 32 + 2 ^ 32 - f CMD_SQ_PTR CMD_SQ_PTR_HEAD s.dev) % 2 ^ 32 ≤ s.dev.sqSize q →
      ∃ n, exec (.doorbell qid v) s = .next n ∧ quiet n ∧ n.dev.u = s.dev.u ∧ SameRegsBut [CMD_SQ_PTR.key die j 0] s n ∧
        f CMD_SQ_PTR CMD_SQ_PTR_TAIL n.dev = v.toNat % 2 ^ 32 ∧ f CMD_SQ_PTR CMD_SQ_PTR_HEAD n.dev = f CMD_SQ_PTR CMD_SQ_PTR_HEAD s.dev) ∧
    ((v.toNat / 2 ^ 32 + 2 ^ 32 - f CMD_CQ_PTR CMD_CQ_PTR_HEAD s.dev) % 2 ^ 32 ≤ s.dev.cqUsed q →
      cm.held.find? (·.q = q) = none →
      ∃ n, exec (.cqHeadWrite qid v) s = .next n ∧ quiet n ∧ n.dev.u = s.dev.u ∧ SameRegsBut mine s n ∧
        f CMD_CQ_PTR CMD_CQ_PTR_HEAD n.dev = v.toNat / 2 ^ 32 ∧ f CMD_CQ_PTR CMD_CQ_PTR_TAIL n.dev = tail) ∧
    (let head := f CMD_SQ_PTR CMD_SQ_PTR_HEAD s.dev
      let entry := fun (i : Nat) => s.dev.sqAddr q (head + i)
      let ext := leAt (s.dev.rawBytes (localOf (entry 0)) 64) 4 1 % 8
      let pkt := (List.range (1 + ext)).flatMap fun i => s.dev.rawBytes (localOf (entry i)) 64
      s.dev.nextQueue td.val = some q → die = td.val →
      (∀ i, i ≤ ext → s.dev.isRemote (entry i) = false ∧ Clean s.dev (localOf (entry i)) 64) →
      ∃ n m, exec (.packetRead td) s = .next n ∧ n.pending = s.pending ∧ n.dev = (Tr.startHeld q).run m ∧ m.mem = s.dev.mem ∧
        m.u.cmd.held = cm.held ++ [{ q := q, n := head, pkt := pkt, due := dueOf pkt s.dev.beatIdx }] ∧
        f CMD_SQ_PTR CMD_SQ_PTR_HEAD m = (head + 1 + ext) % 2 ^ 32 ∧
        m.fld CMD_PACKETS COUNT die = satAdd 48 (s.dev.fld CMD_PACKETS COUNT die) 1) ∧
    (∀ w, cm.waiting.find? (fun w => w.die = td.val && w.q = q) = some w → s.dev.cqRoom q = true →
      s.dev.isRemote at_ = false → Clean s.dev (localOf at_) 16 → s.dev.u.ckpt.holds (localOf at_) 16 = false →
      w.irq = false ∨ f CMD_QCFG CMD_QCFG_MSI_EN s.dev = 0 →
      ∃ n, exec (.heldRecordWrite td qid) s = .next n ∧ n.pending = s.pending ∧
        Stores (localOf at_) (leBytes 8 w.result ++ leBytes 2 w.status ++ leBytes 2 w.seq ++ leBytes 4 ((tail + 1) % 2 ^ 24 + 2 ^ 24)) s n ∧
        n.dev.u.cmd = { cm with waiting := cm.waiting.erase w } ∧ f CMD_CQ_PTR CMD_CQ_PTR_TAIL n.dev = (tail + 1) % 2 ^ 32) ∧
    (∀ i e pk, s.dev.u.beat.work.find? (·.index = i) = some e → e.phys = some pk → e.recorded = false →
      s.dev.threadDone pk e.thread = true →
      let status := (s.dev.threadAt pk e.thread).trap.getD stOK
      ∃ n m, exec (.threadEntryRecord i) s = .next n ∧ n.pending = s.pending ∧
        n.dev = (Tr.workRecord e.notify (workResult e.cell e.thread e.beat) status (e.index % 2 ^ 16) e.irq e.quiet).run m ∧
        m.mem = s.dev.mem ∧ m.regs = s.dev.regs ∧
        m.u.beat.work = s.dev.u.beat.work.map fun x => if x.index = i then { x with recorded := true } else x)

/-- CMD_NOP, SIGNAL and ATOMIC complete as R452 to R454 say. A NOP whose beat has come and that is not QUIET writes its completion
record of R456 at the place of its number in the ring, moves CQ_TAIL on by one and frees its slot, with nothing else stored. SIGNAL
stores its value before its record; ATOMIC stores the new value of R387, and its record holds the old one. -/
def Obligations.CommandsComplete : Prop :=
  ∀ (s : State) (src : CmdSrc) (k : BitVec 32) (c : Cmd),
    let cm := s.dev.u.cmd
    let q := c.q
    let die := qDie q
    let j := qIdx q
    let tail := s.dev.fld CMD_CQ_PTR CMD_CQ_PTR_TAIL die j
    let at_ := (s.dev.reg CMD_CQ_BASE die j).toNat + tail % s.dev.cqSize q * 16
    (∀ qid, src = .queue qid → s.dev.cmd? src k.toNat 0 0 = some c → restZero c.pkt [] = true →
      c.due.any (fun b => s.dev.beatIdx < b) = false → c.flags.testBit 1 = false → c.flags.testBit 2 = false →
      cm.held.find? (·.q = q) = none → s.dev.qState q = 1 → s.dev.isRemote at_ = false → Clean s.dev (localOf at_) 16 →
      s.dev.u.ckpt.holds (localOf at_) 16 = false →
      ∃ n, exec (.cmdNop src k) s = .next n ∧ n.pending = s.pending ∧
        Stores (localOf at_) (leBytes 8 0 ++ leBytes 2 stOK ++ leBytes 2 (c.at 2 2) ++ leBytes 4 ((tail + 1) % 2 ^ 24)) s n ∧
        n.dev.u.cmd = { cm with cmds := cm.cmds.filter (·.seqNo ≠ c.seqNo) } ∧
        n.dev.fld CMD_CQ_PTR CMD_CQ_PTR_TAIL die j = (tail + 1) % 2 ^ 32 ∧ n.dev.inflight q = s.dev.inflight q - 1) ∧
    (∀ e, let x := { s.dev.cmdReq c 0 4 with va := c.at 8 8, access := 1 }
      let la := localOf (hitGa x e)
      s.dev.cmd? src k.toNat 1 0 = some c → restZero c.pkt [(8, 16)] = true → c.at 8 8 % 8 = 0 → Hits s.dev x e →
      s.dev.isRemote (hitGa x e) = false → s.dev.servable die la 8 = true → la % 8 = 0 → Clean s.dev la 8 →
      s.dev.u.ckpt.holds la 8 = false →
      ∃ n m, exec (.signal src k) s = .next n ∧ Completes c stOK 0 m s n ∧ Stores la (leBytes 8 (c.at 16 8)) s ⟨m, s.pending⟩ ∧
        m.u.cmd = cm) ∧
    (∀ e, let op := c.at 8 1
      let wide := c.at 9 1 = 1
      let w := if wide then 8 else 4
      let x := { s.dev.cmdReq c 0 4 with va := c.at 16 8, access := 2 }
      let la := localOf (hitGa x e)
      let b := if op = 1 then c.at 32 8 else 0
      let old := leNat (s.dev.rawBytes la w)
      s.dev.cmd? src k.toNat 0x18 0 = some c →
      restZero c.pkt ([(8, 2), (16, 16)] ++ (if op = 1 then [(32, 8)] else [])) = true → op ≤ 10 → c.at 9 1 ≤ 1 →
      (op = 10 → ¬ wide) → c.at 16 8 % w = 0 → Hits s.dev x e → s.dev.isRemote (hitGa x e) = false → la % w = 0 →
      Clean s.dev la w → s.dev.u.ckpt.holds la w = false →
      ((s.dev.atomFar die la).1 = true → (s.dev.u.coh.lineReqs (la / 64)).head?.any (·.started) = false) →
      ((s.dev.atomFar die la).1 = false → s.dev.u.coh.lineReqs (la / 64) = [] ∧
        (s.dev.u.coh.holders (la / 64)).any (fun h => h.agent ≠ 25 + die && s.dev.elapsed < h.hold) = false) →
      ∃ n m g, exec (.atomic src k) s = .next n ∧ n.pending = s.pending ∧
        n.dev = (Tr.cohSt g).run ((Tr.complete c stOK old).run m) ∧ m.u.cmd = cm ∧
        Stores la (leBytes w (atomicNew op (8 * w) old (c.at 24 8) b)) s ⟨m, s.pending⟩)

/-- Control commands are parsed and wait for their edge as R461 and R462 say: each names resources of a kind it may name, COUNT
is not zero and the resources exist, and its ARG and PARAM are ones it allows. Nothing but the command changes. -/
def Obligations.ControlCommandsWait : Prop :=
  ∀ (s : State) (src : CmdSrc) (k : BitVec 32) (c : Cmd),
    let waits := fun (n : State) => n = ⟨{ s.dev with u := { s.dev.u with cmd := { s.dev.u.cmd with
      cmds := s.dev.u.cmd.cmds.map fun x => if x.seqNo = c.seqNo then { x with stage := 1 } else x } } }, s.pending⟩
    let names := fun (kinds : List Nat) => restZero c.pkt [(8, 2), (16, 8)] = true ∧ c.at 8 1 ∈ kinds ∧ c.at 18 2 ≠ 0 ∧
      c.at 16 2 + c.at 18 2 ≤ (match c.at 8 1 with | 0 => 640 | 1 => 96 | 2 => 272 | 3 => 12 | 4 => 12 | 5 => 4 | _ => 4)
    let plain := c.at 20 4 = 0
    (s.dev.cmd? src k.toNat 0x80 0 = some c → names [0] → c.at 9 1 ≤ 6 → plain →
      ∃ n, exec (.ctlRole src k) s = .next n ∧ waits n) ∧
    (s.dev.cmd? src k.toNat 0x81 0 = some c → names [5] → c.at 9 1 ≤ 3 → plain →
      ∃ n, exec (.ctlPower src k) s = .next n ∧ waits n) ∧
    (s.dev.cmd? src k.toNat 0x82 0 = some c → names [0, 1, 2, 4, 6] → c.at 9 1 ≤ 2 → plain →
      ∃ n, exec (.ctlSelftest src k) s = .next n ∧ waits n) ∧
    (s.dev.cmd? src k.toNat 0x83 2 = none → s.dev.cmd? src k.toNat 0x83 0 = some c → names [2, 3, 4] → c.at 9 1 = 0 → plain →
      ∃ n, exec (.ctlCalibrate src k) s = .next n ∧ waits n) ∧
    (s.dev.cmd? src k.toNat 0x84 0 = some c → names [0, 1, 2] → c.at 18 2 ≤ 8 → c.at 9 1 = 0 → plain →
      ∃ n, exec (.ctlSwapRetire src k) s = .next n ∧ waits n) ∧
    (s.dev.cmd? src k.toNat 0x84 0 = some c → names [0, 1, 2] → c.at 18 2 = 1 → c.at 9 1 = 1 → c.at 20 4 < 256 →
      ∃ n, exec (.ctlSwapReturn src k) s = .next n ∧ waits n)

/-- Control commands apply while beats are stopped, and packets enter by mailbox, as R464, R465, R468, R655 and R662 say: the
oldest waiting command without a beat is applied alone, CTL_ROLE giving each backed cell its role and the vector mode of the role,
CTL_POWER a die its level; a write of GO hands the packet in the mailbox's registers to the front end, and one that is malformed is
answered at once. -/
def Obligations.ControlCommandsAndMailboxes : Prop :=
  ∀ (s : State) (who : Requester) (c : Cmd),
    let cm := s.dev.u.cmd
    let packet := fun (r : Reg) => (List.range 8).flatMap fun i => leBytes 8 (s.dev.reg r HD i).toNat
    let accepts := fun (pkt : List Byte) => headerGood pkt none = true ∧ (leAt pkt 0 1 = 0 ∨ 0x80 ≤ leAt pkt 0 1 ∧ leAt pkt 0 1 ≤ 0x84)
    let joins := fun (src : CmdSrc) (pkt : List Byte) (n : State) =>
      n.dev.u = { s.dev.u with cmd := { cm with
        cmds := cm.cmds ++ [{ src := src, n := 0, op := leAt pkt 0 1, pkt := pkt, seqNo := cm.seqNo, due := dueOf pkt s.dev.beatIdx }]
        seqNo := cm.seqNo + 1 } }
    (s.dev.running = false → cm.cmds.find? (fun c => c.waits && c.due.isNone) = some c → c.op = 0x80 → c.arg ≤ 6 →
      ∃ n m, exec .controlApplyStopped s = .next n ∧ Completes c stOK 0 m s n ∧ m.mem = s.dev.mem ∧ m.u = s.dev.u ∧
        (∀ i pk, i < c.count → s.dev.physOf (c.index + i) = some pk → pk < 672 →
          m.fld CELL_ROLE CELL_ROLE_ROLE (pk / 168) (pk % 168) = c.arg ∧
          m.fld CELL_ROLE CELL_ROLE_VMODE (pk / 168) (pk % 168) = if roleStream c.arg then 1 else 0) ∧
        ∀ key, (∀ i pk, i < c.count → s.dev.physOf (c.index + i) = some pk → key ≠ CELL_ROLE.key (pk / 168) (pk % 168) 0) →
          m.get key = s.dev.get key) ∧
    (s.dev.running = false → cm.cmds.find? (fun c => c.waits && c.due.isNone) = some c → c.op = 0x81 → c.count = 1 →
      c.index < 4 → c.arg ≤ 2 → Single s.dev c → c.status = 0 → c.result = 0 → agetD s.dev.u.pwr.level c.index 0 ≠ 3 →
      ∃ n m, exec .controlApplyStopped s = .next n ∧ Completes { c with stage := 2, units := [namingKey] } stOK 0 m s n ∧
        m.mem = s.dev.mem ∧ m.u.pwr = { s.dev.u.pwr with level := tinsert s.dev.u.pwr.level c.index c.arg } ∧
        m.u.cells = s.dev.u.cells ∧
        ((s.dev.fld PWR_THERMAL PWR_THERMAL_THROTTLED HD).testBit c.index = false → agetD s.dev.u.pwr.cap c.index 0 ≤ c.arg →
          m.fld PWR_LEVEL (levelFld c.index) HD = c.arg)) ∧
    (who = .hostM ∨ who = .custodian → s.dev.fld CMD_FW_CTL CMD_FW_CTL_GO HD = 0 →
      let pkt := packet CMD_FW_PKT
      ∃ n, exec (.fwMailboxGo who) s = .next n ∧ n.pending = s.pending ∧ n.dev.mem = s.dev.mem ∧
        (accepts pkt → joins .fw pkt n ∧ SameRegsBut [CMD_FW_CTL.key HD 0 0] s n ∧ n.dev.fld CMD_FW_CTL CMD_FW_CTL_GO HD = 1) ∧
        (¬ accepts pkt → n.dev.fld CMD_FW_CTL CMD_FW_CTL_GO HD = 0 ∧ Holds n.dev CMD_FW_CPL_LO HD 0 0 0 ∧
          Holds n.dev CMD_FW_CPL_HI HD 0 0 (stMALFORMED + leAt pkt 2 2 * 2 ^ 16 + (cm.fwRecords + 1) % 2 ^ 24 * 2 ^ 32))) ∧
    (s.dev.awake = true → s.dev.fld MGMT_MB_CTL MGMT_MB_CTL_GO HD = 0 →
      let pkt := packet MGMT_MB_PKT
      ∃ n, exec (.mgmtMailboxGo .mgmt) s = .next n ∧ n.pending = s.pending ∧ n.dev.mem = s.dev.mem ∧
        (accepts pkt → joins .mgmt pkt n ∧ SameRegsBut [MGMT_MB_CTL.key HD 0 0] s n ∧ n.dev.fld MGMT_MB_CTL MGMT_MB_CTL_GO HD = 1) ∧
        (¬ accepts pkt → n.dev.fld MGMT_MB_CTL MGMT_MB_CTL_GO HD = 0 ∧ Holds n.dev MGMT_MB_CPL_LO HD 0 0 0 ∧
          Holds n.dev MGMT_MB_CPL_HI HD 0 0 (stMALFORMED + leAt pkt 2 2 * 2 ^ 16 + (cm.mbRecords + 1) % 2 ^ 24 * 2 ^ 32)))

/-- UPD_GROUPS as R474 to R479, R491 and R492 say: LOAD reads its records and their curves, STEP reads q, and each then waits for
its installs; SAVE stores each named group of each named die, dies ascending. The install on a die takes the new groups, η resolved at
n, n and e kept with KEEP_STEP; a step advances e of every named group, and n of each unless it is skipped; it wakes the threads that
wait for an epoch, and the last install completes the command. -/
def Obligations.UpdateGroups : Prop :=
  ∀ (s : State) (src : CmdSrc) (k : BitVec 32) (c : Cmd) (gas : List (Nat × Nat)),
    let cm := s.dev.u.cmd
    let x := s.dev.cmdReq c 0 4
    let first := c.at 10 2
    let count := c.at 12 2
    let started := s.dev.cmd? src k.toNat 0x3A 0 = some c ∧ s.dev.updBad c = none
    let waits := fun (f : Cmd → Cmd) (n : State) => n.pending = s.pending ∧ SameMemory s n ∧ n.dev.u.groups = s.dev.u.groups ∧
      n.dev.u.cmd = { cm with cmds := cm.cmds.map fun y => if y.seqNo = c.seqNo then f y else y }
    (∀ gs : List Group, started → c.at 8 1 = 0 → Reads s.dev x (c.at 16 8) (64 * count) gas → gs.length = count →
      (∀ i, i < count → ∃ g npts cg curve, groupOf (((bytesAt s.dev gas).drop (64 * i)).take 64) = some (g, npts) ∧
        Reads s.dev x g.curveVa (16 * npts) cg ∧ curveOf (bytesAt s.dev cg) npts = some curve ∧
        gs[i]? = some { g with curve := curve }) →
      ∃ n, exec (.updGroupsLoad src k) s = .next n ∧
        waits (fun y => { y with stage := 1, groups := (List.range count).zip gs |>.map fun e => (first + e.1, e.2), dies := setBits 4 (c.at 9 1) }) n) ∧
    (started → c.at 8 1 = 1 → Reads s.dev x (c.at 24 8) 4 gas →
      ∃ n, exec (.updGroupsStep src k) s = .next n ∧
        waits (fun y => { y with stage := 1, result := leNat (bytesAt s.dev gas), dies := setBits 4 (c.at 9 1) }) n) ∧
    (let out := (setBits 4 (c.at 9 1)).flatMap fun die => (List.range count).flatMap fun i => groupBytes (s.dev.group? die (first + i));
      started → c.at 8 1 = 2 → Writes s.dev x (c.at 16 8) out.length gas →
      ∃ n m, exec (.updGroupsSave src k) s = .next n ∧ Completes c stOK 0 m s n ∧ m.u.cmd = cm ∧
        StoresList (writesAt s.dev gas out) s ⟨m, s.pending⟩) ∧
    (∀ die : TDie,
      let left := c.dies.erase die.val
      let now := fun (m : Dev) (i : Nat) => m.group? die.val i
      let ready := s.dev.cmd? src k.toNat 0x3A 1 = some c ∧ Single s.dev c ∧ c.dies.contains die.val = true ∧
        cm.cmds.any (fun y => y.op = 0x3A && y.stage = 1 && y.seqNo < c.seqNo && y.dies.contains die.val) = false
      let woken := fun (m : Dev) => ∀ pk t, m.threadAt pk t =
        if pk / 168 = die.val ∧ (s.dev.threadAt pk t).wait = .epoch then
          { s.dev.threadAt pk t with st := .ready, wait := .nothing } else s.dev.threadAt pk t
      let ends := fun (y : Cmd) (st res : Nat) (m : Dev) (n : State) => m.mem = s.dev.mem ∧ woken m ∧
        (if left = [] then Completes y st res m s n else n = ⟨m, s.pending⟩) ∧
        m.u.cmd = { cm with cmds := cm.cmds.map fun z => if z.seqNo = c.seqNo then y else z }
      let skip := qNonFinite c.result || (setBits 4 (c.at 9 1)).any fun t =>
        (List.range count).any fun i => (s.dev.group? t (first + i)).any (·.skipSeen)
      (ready → c.at 8 1 = 0 → (c.groups.map (·.1)).Nodup →
        ∃ n m y, exec (.updInstall src k die) s = .next n ∧ ends { c with dies := left, status := y } stOK 0 m n ∧
          (∀ i g, (i, g) ∈ c.groups →
            let old := s.dev.group? die.val i
            let g' := if g.keep then { g with n := (old.map (·.n)).getD g.n, e := (old.map (·.e)).getD g.e } else g
            now m i = some { g'.resolve with skipSeen := old.any (·.skipSeen) }) ∧
          ∀ i, i ∉ c.groups.map (·.1) → now m i = s.dev.group? die.val i) ∧
      (ready → c.at 8 1 = 1 → c.status = 0 → skip = false →
        ∃ n m, exec (.updInstall src k die) s = .next n ∧
          ends { c with dies := left, status := 1 } stOK ((m.group? ((setBits 4 (c.at 9 1)).headD 0) first).elim 0 (·.n)) m n ∧
          (∀ i, now m i = if first ≤ i ∧ i < first + count then (s.dev.group? die.val i).map fun g =>
            ({ g with e := (g.e + 1) % 2 ^ 48, skipSeen := false, n := g.n + 1 } : Group).resolve else s.dev.group? die.val i) ∧
          m.fld UPD_STEPS COUNT die.val = satAdd 48 (s.dev.fld UPD_STEPS COUNT die.val) 1) ∧
      (ready → c.at 8 1 = 1 → c.status = 0 → skip = true →
        ∃ n m, exec (.updInstall src k die) s = .next n ∧
          ends { c with dies := left, status := 2 } stSTEP_SKIPPED_NONFINITE c.result m n ∧
          (∀ i, now m i = if first ≤ i ∧ i < first + count then (s.dev.group? die.val i).map fun g =>
            { g with e := (g.e + 1) % 2 ^ 48, skipSeen := false } else s.dev.group? die.val i) ∧
          m.fld UPD_SKIPPED COUNT die.val = satAdd 48 (s.dev.fld UPD_SKIPPED COUNT die.val) 1))

/-- The four update rules of R483: on finite operands the results before rounding are the numbers the rule gives, p' from the exact
s'; of UPD_RMS, wherever s' is the square of a rational. -/
def Obligations.UpdateRules : Prop :=
  ∀ (g : Group) (kc : Val) (k : Nat) (p gr st : Val) (r : Rat),
    let eta := (f32v g.etaRes).rat
    let lam := (f32v g.lambda).rat
    let b1 := (f32v g.beta1).rat
    let b2 := (f32v g.beta2).rat
    let eps := (f32v g.eps).rat
    let pc := p.rat * (1 - eta * lam) ^ k
    let sc := st.rat * (if g.rule = 2 then b2 else b1) ^ k
    let gg := kc.rat * gr.rat
    let o := updElement g kc k p gr st
    let sgn := fun (q : Rat) => if q < 0 then (-1 : Rat) else if q = 0 then 0 else 1
    [kc, p, gr, st, f32v g.etaRes, f32v g.lambda, f32v g.beta1, f32v g.beta2, f32v g.eps].all Val.isFin = true →
    (g.rule = 0 → o.1.isFin = true ∧ o.1.rat = pc - eta * (gg + lam * pc)) ∧
    (g.rule = 1 → o.2.isFin = true ∧ o.2.rat = b1 * sc + gg ∧ o.1.isFin = true ∧ o.1.rat = pc - eta * (b1 * sc + gg + lam * pc)) ∧
    (g.rule = 2 → o.2.isFin = true ∧ o.2.rat = b2 * sc + (1 - b2) * gg ∧
      o.1.isFin = true ∧ o.1.rat = pc - eta * (sgn (b1 * sc + (1 - b1) * gg) + lam * pc)) ∧
    (g.rule = 3 → o.2.isFin = true ∧ o.2.rat = b1 * sc + (1 - b1) * (gg * gg) ∧
      (0 ≤ r → r * r = b1 * sc + (1 - b1) * (gg * gg) → 0 < eps →
        o.1.isFin = true ∧ o.1.rat = pc - eta * (gg / (r + eps) + lam * pc)))

/-- UPD as R480 to R490 say: it writes the results of its elements, rounded by the group's mode, row by row to the parameter and the
state stream, and changes nothing else of the scratchpad, no tile register and no byte of memory; a q that is not finite writes
nothing and sets SKIP_SEEN of the group. -/
def Obligations.UpdateInstruction : Prop :=
  ∀ (s : State) (c : PCell) (t : Tid) (w : Word128) (pk : Nat) (g : Group),
    let x := ctxOf s.dev c t w pk
    let cs := s.dev.cellAt pk
    let n := x.s 31 % 2 ^ 24
    let u := updStreams g (field w 56 4) (x.s 16) (x.s 21) (x.s 26) n (field w 64 16)
    let all := u.ranges ++ [(x.s 36, 4)]
    let q := leNat (cs.spad.slice (x.s 36) 4)
    let ok := Issues s.dev c t w 7 0 updMask pk ∧ s.dev.dieFeature (pk / 168) 116 = true ∧ field w 56 4 ≤ 2 ∧
      [x.s 16, x.s 21, x.s 26, x.s 36].all (· % 64 = 0) = true ∧ s.dev.group? (pk / 168) (field w 46 10) = some g ∧
      (g.isLazy = true ↔ field w 64 16 ≠ 0) ∧ (g.isLazy = false → g.rule = 0 → field w 26 5 = 0)
    (ok → n = 0 → ∃ m, exec (.upd c t w) s = .next m ∧ CellSpad pk t.val cs.spad s m) ∧
    (ok → n ≠ 0 → (field w 41 5 = 0 ∨ g.e = x.s 41 % 2 ^ 48) → s.dev.slotFree pk = true → SpadOk cs all all → qNonFinite q = true →
      ∃ m, exec (.upd c t w) s = .next m ∧ CellSpad pk t.val cs.spad s m ∧
        m.dev.group? (pk / 168) (field w 46 10) = some { g with skipSeen := true }) ∧
    (let k : NumCtl := { x.ctl 0 with mode := .ofCode g.rmode }
      let o := cs.updRows g u (field w 56 4) k x.th.srseed (clipFactor g q) (fun a => Config.undefByte (2 ^ 67 + s.dev.u.fresh) a) u.rows 0
      ok → n ≠ 0 → (field w 41 5 = 0 ∨ g.e = x.s 41 % 2 ^ 48) → s.dev.slotFree pk = true → SpadOk cs all all → qNonFinite q = false →
      o.2.2.2.2 = false → x.th.fpctl.testBit 4 = false →
      ∃ m, exec (.upd c t w) s = .next m ∧ CellSpad pk t.val (o.1.foldl (fun ram e => ram.put e.1 e.2) cs.spad) s m ∧
        m.dev.u.groups = s.dev.u.groups)

/-- The bit-stream instructions of R514 to R516: BLOAD sets the thread's reader; BGET takes or peeks up to 32 bits, and takes none
where fewer remain; BHUFF decodes symbols by a table until one stops it, and stores them; BUNPK stores fixed-width codes. Each reports
in c[CD] and changes nothing but the thread and, of the last two, the scratchpad. The reader itself (R515): LSB-first, `k` bits are the
bits of the bytes from its place on, the first in bit 0; MSB-first and with no byte 0xFF among them, the first in the most significant
place; and it has gone on by `k` bits. -/
def Obligations.BitStreamInstructions : Prop :=
  ∀ (s : State) (c : PCell) (t : Tid) (w : Word128) (pk : Nat) (r : Reader),
    let x := ctxOf s.dev c t w pk
    let th := s.dev.threadAt pk t.val
    let cs := s.dev.cellAt pk
    let clean := fun (o : Reader) => cs.spadPoison r.addr (readerSpan r o) = false
    let rd := field w 36 5
    let cd := field w 41 3
    let n := x.s 31 % 2 ^ 24
    (∀ (sp : Nat → Byte) (r : Reader) (k : Nat),
      let at_ := 8 * r.addr + r.bit
      let len := (r.bit + k + 7) / 8
      let bytes := (List.range len).map fun i => sp (r.addr + i)
      let o := r.take sp k
      r.bit < 8 → at_ + k ≤ 8 * r.stop → (r.msb = true → (255 : Byte) ∉ bytes) →
        o.1.length = k ∧ 8 * o.2.addr + o.2.bit = at_ + k ∧ o.2.bit < 8 ∧ o.2.stop = r.stop ∧ o.2.msb = r.msb ∧
        bitsValue r.msb o.1 =
          if r.msb then leNat bytes.reverse / 2 ^ (8 * len - r.bit - k) % 2 ^ k else leNat bytes / 2 ^ r.bit % 2 ^ k) ∧
    (Issues s.dev c t w 6 0 (bMask true true true false false false false ||| mIMM 1) pk → x.s 16 < spadSize → x.s 26 ≤ spadSize →
      ∃ m, exec (.bload c t w) s = .next m ∧ OnlyThread 6 pk t s m ∧
        m.dev.threadAt pk t = { th.advance with reader := some ⟨x.s 16, x.s 21 % 8, x.s 26, field w 64 1 = 1⟩ }) ∧
    (let k := field w 64 6
     let o := r.take cs.spad.get k
     Issues s.dev c t w 6 1 (bMask false false false false true true false ||| mIMM 7) pk → 1 ≤ k → k ≤ 32 → th.reader = some r →
      clean o.2 →
      ∃ m, exec (.bget c t w) s = .next m ∧ OnlyThread 6 pk t s m ∧
        m.dev.threadAt pk t =
          if o.1.length < k then (th.advance.setS rd 0).setC cd false
          else (({ th.advance with reader := some (if field w 70 1 = 1 then r else o.2) }).setS rd (bitsValue r.msb o.1)).setC cd true) ∧
    (let o := r.huffs cs.spad.get (x.s 16) n
     Issues s.dev c t w 6 2 (bMask true true false true true true false) pk → th.reader = some r →
      SpadOk cs [(x.s 16, 4096), (x.s 36, 2 * n)] [(x.s 16, 4096)] → clean o.2.1 → o.2.2.2 = false →
      ∃ m, exec (.bhuff c t w) s = .next m ∧
        CellSpad pk t (if o.1 = [] then cs.spad else cs.spad.put (x.s 36) (o.1.flatMap (leBytes 2))) s m ∧
        m.dev.threadAt pk t = (({ th.advance with reader := some o.2.1 }).setS (field w 21 5) o.1.length).setC cd (!o.2.2.1)) ∧
    (let b := field w 64 5
     let o := r.take cs.spad.get (n * b)
     Issues s.dev c t w 6 3 (bMask false false false true true true false ||| mIMM 5) pk → 1 ≤ b → b ≤ 16 → th.reader = some r →
      SpadOk cs [(x.s 36, 2 * n)] [] → clean o.2 →
      ∃ m, exec (.bunpk c t w) s = .next m ∧
        (o.1.length < n * b → CellSpad pk t cs.spad s m ∧ m.dev.threadAt pk t = th.advance.setC cd false) ∧
        (o.1.length = n * b →
          CellSpad pk t (if n = 0 then cs.spad else cs.spad.put (x.s 36)
            ((List.range n).flatMap fun i => leBytes 2 (bitsValue r.msb ((o.1.drop (i * b)).take b)))) s m ∧
          m.dev.threadAt pk t = ({ th.advance with reader := some o.2 }).setC cd true))

/-- The samples of a job slot as R512, R515, R521 to R523, R525, R528, R532 and R533 say: BTAKE hands the oldest untaken sample of
the oldest job to a decode-role thread as a work record; BPUT ends it, decoded or with a status; staging is allocated to a sample
within the limits, and one beyond them, corrupt or withdrawn ends with its status in the sample table. -/
def Obligations.Samples : Prop :=
  ∀ (s : State) (die : TDie) (slot : Fin 16) (c : PCell) (t : Tid) (w : Word128) (pk : Nat) (smp : Sample) (j : Job) (js : List Job),
    let x := ctxOf s.dev c t w pk
    let th := s.dev.threadAt pk t.val
    let cs := s.dev.cellAt pk
    let g := s.dev.u.ing
    let sl := s.dev.ingSlot die.val slot.val
    let set := fun (y : Sample) => sl.samples.map fun z => if z.num = smp.num then y else z
    let one := sl.jobs = j :: js ∧ s.dev.sample? die.val slot.val smp.num = some smp ∧ ∀ z ∈ sl.samples, z.num = smp.num → z = smp
    let ends := fun (st reason : Nat) (n : State) => n.dev.ingSlot die.val slot.val =
      { sl with samples := sl.samples.filter (·.num ≠ smp.num)
                jobs := { j with table := j.table ++ [tableEntry smp st 0xFFFF 0 reason], ended := j.ended + 1 } :: js }
    let decode := x.role = 4 ∧ s.dev.dieFeature (pk / 168) 117 = true ∧ s.dev.slotFree pk = true ∧ pk / 168 = die.val
    let cd := field w 41 3
    (Issues s.dev c t w 6 4 (bMask true false false false true true false) pk → decode → SpadOk cs [(x.s 36, 64)] [] →
      (s.dev.btakePick die.val (x.s 16 % 65536) = none →
        ∃ m, exec (.btake c t w) s = .next m ∧ OnlyThread 6 pk t s m ∧ m.dev.threadAt pk t = th.advance.setC cd false) ∧
      (s.dev.btakePick die.val (x.s 16 % 65536) = some (slot.val, smp) → one →
        let rec_ := smp.desc ++ leBytes 8 smp.stage ++ leBytes 8 smp.num ++ leBytes 1 slot.val ++ List.replicate 15 0
        ∃ m, exec (.btake c t w) s = .next m ∧ CellSpad pk t (cs.spad.put (x.s 36) rec_) s m ∧
          m.dev.threadAt pk t = th.advance.setC cd true ∧
          m.dev.ingSlot die.val slot.val =
            { sl with samples := set { smp with st := 2, holder := some (pk, t.val), start := some (smp.start.getD s.dev.elapsed) } })) ∧
    (let st := x.s 21 % 65536
     let put := Issues s.dev c t w 6 5 (bMask true true false false false true false ||| mIMM 1) pk ∧ decode ∧ x.s 16 = smp.num ∧
        g.withdrawn.contains smp.num = false
     (put → field w 64 1 = 1 → ∃ m, exec (.bput c t w) s = .next m ∧ OnlyThread 6 pk t s m ∧
        m.dev.threadAt pk t = th.advance.setC cd true) ∧
     (put → field w 64 1 = 0 → one → s.dev.slotOf die.val smp.num = some (slot.val, smp) → smp.st = 2 →
        let took := (s.dev.elapsed - smp.start.getD s.dev.elapsed) / oneNs
        let k := s.dev.fld ING_MEAN ING_MEAN_COUNT die slot
        let old := s.dev.fld ING_MEAN ING_MEAN_MEAN die slot
        ∃ m, exec (.bput c t w) s = .next m ∧ CellSpad pk t cs.spad s m ∧ m.dev.threadAt pk t = th.advance.setC cd true ∧
          (st = stOK → m.dev.ingSlot die.val slot.val = { sl with samples := set { smp with st := 3, holder := none } } ∧
            m.dev.fld ING_MEAN ING_MEAN_COUNT die slot = min (k + 1) 65535 ∧
            m.dev.fld ING_MEAN ING_MEAN_MEAN die slot =
              (if k = 0 then took else ((old : Int) + ((took : Int) - old) / 16).toNat) % 2 ^ 40) ∧
          (st ≠ stOK → ends st (bitsOf (x.s 21) 16 8) m))) ∧
    (∀ head gas, one → smp.st = 0 → smp.place.isSome = true →
      Reads s.dev (s.dev.ingReq smp.q smp.num 0) (leAt smp.desc 0 8) (leAt smp.desc 8 4) gas →
      let enc := bytesAt s.dev gas
      let maxBytes := s.dev.fld ING_LIMIT_BYTES ING_LIMIT_BYTES_MAX die
      smp.kind ≠ 4 ∨ leAt enc (enc.length - 4) 4 ≤ maxBytes →
      ∃ n, exec (.stagingAllocated die slot smp.num head) s = .next n ∧ n.pending = s.pending ∧ SameMemory s n ∧
        (∀ reason, smp.figures enc head = .corrupt reason → ends stDECODE_CORRUPT reason n) ∧
        ∀ wd h ch e b p, smp.figures enc head = .ok wd h ch e b p →
          let base := (s.dev.reg ING_STAGE_BASE die slot).toNat
          let arena := (s.dev.reg ING_STAGE_SIZE die slot).toNat
          let size := (b + 63) / 64 * 64
          if s.dev.fld ING_LIMIT_DIM ING_LIMIT_DIM_MAX_WIDTH die < wd ∨ s.dev.fld ING_LIMIT_DIM ING_LIMIT_DIM_MAX_HEIGHT die < h ∨
              s.dev.fld ING_LIMIT_DIM ING_LIMIT_DIM_MAX_CHANNELS die < ch ∨ s.dev.fld ING_LIMIT_ELEM ING_LIMIT_ELEM_MAX die < e ∨
              maxBytes < b ∨ j.l < smp.positions ∨ j.pbytes < p ∨ arena < size then ends stDIM_LIMIT 0 n
          else ∀ a, arenaPlace base arena size ((sl.samples.filter fun z => z.size ≠ 0).map fun z => (z.stage, z.size)) = some a →
            n.dev.ingSlot die.val slot.val = { sl with samples := set { smp with st := 1, stage := a, size := size, pbytes := p } }) ∧
    (∀ t0, one → smp.st < 3 → smp.start = some t0 →
      let took := s.dev.elapsed - t0
      (smp.absUs ≠ 0 ∧ smp.absUs * oneUs < took ∨ 16 ≤ s.dev.fld ING_MEAN ING_MEAN_COUNT die slot ∧
        32 * s.dev.fld ING_MEAN ING_MEAN_MEAN die slot * oneNs < took) →
      ∃ n, exec (.sampleWithdraw die slot smp.num) s = .next n ∧ n.pending = s.pending ∧ SameMemory s n ∧ ends stDECODE_TIMEOUT 0 n ∧
        n.dev.u.ing.withdrawn = smp.num :: g.withdrawn ∧
        n.dev.fld ING_TIMEOUTS COUNT die = satAdd 48 (s.dev.fld ING_TIMEOUTS COUNT die) 1)

/-- The batches of ING_DECODE and the environment streams as R524 to R528 and R534 to R537 say: a job reads its descriptors, clears
its batch and joins its slot; a copied sample has its data, segment ids, positions and mask bits in the batch and its entry in the table;
START and STOP give a slot its streams and take them; a tick selects of each stream the newest record of its window, and makes a
joint sample unless a required stream is absent. -/
def Obligations.Batches : Prop :=
  ∀ (s : State) (src : CmdSrc) (k : BitVec 32) (c : Cmd) (die : TDie) (slot : Fin 16) (gas : List (Nat × Nat)),
    let cm := s.dev.u.cmd
    let sl := s.dev.ingSlot die.val slot.val
    let x := s.dev.cmdReq c 0 4
    let mine := qDie c.q = die.val ∧ c.at 9 1 = slot.val ∧ s.dev.dieFeature die.val 117 = true
    (∀ g1 g2 g3 g4, let l := c.at 32 4
      let pb := c.at 36 4
      let rows := c.at 40 2
      let ns := c.at 10 2
      let out := c.at 24 8
      let ids := (2 * (rows * l) + 63) / 64 * 64
      let hdr := leBytes 8 0
      let ff := List.replicate (2 * (rows * l)) (0xFF : Byte)
      let zs := List.replicate (2 * (rows * l)) (0 : Byte)
      let ms := List.replicate ((rows * l + 7) / 8) (0 : Byte)
      s.dev.cmd? src k.toNat 0x40 0 = some c → mine → restZero c.pkt [(8, 4), (16, 26), (48, 12)] = true → c.at 8 1 ≤ 1 →
      c.at 16 8 % 64 = 0 → out % 4096 = 0 → 1 ≤ l → l ≤ 65536 → 1 ≤ pb → pb ≤ 65536 → 1 ≤ rows → s.dev.beatIdx < c.at 48 8 →
      l * pb % 64 = 0 → sl.jobs.length < 4 → Reads s.dev x (c.at 16 8) (32 * ns) gas → Writes s.dev x out 8 g1 →
      Writes s.dev x (out + 64) ff.length g2 → Writes s.dev x (out + 64 + ids) zs.length g3 →
      Writes s.dev x (out + 64 + ids + ids) ms.length g4 →
      let job : Job := { id := s.dev.u.ing.nextJob, src := src, n := c.n, q := c.q, packed := c.at 8 1 = 1, l := l, pbytes := pb,
                         rows := rows, out := out, need := c.at 48 8, absUs := c.at 56 4,
                         descs := (List.range ns).map fun i => ((bytesAt s.dev gas).drop (32 * i)).take 32 }
      ∃ n m, exec (.ingDecode src k) s = .next n ∧ n.pending = s.pending ∧
        n.dev = (if sl.jobs = [] then Tr.placeJob die.val slot.val else Tr.ingReg die.val slot.val).run m ∧
        StoresList (writesAt s.dev g1 hdr ++ writesAt s.dev g2 ff ++ writesAt s.dev g3 zs ++ writesAt s.dev g4 ms) s ⟨m, s.pending⟩ ∧
        m.ingSlot die.val slot.val = { sl with jobs := sl.jobs ++ [job] } ∧
        m.u.cmd = { cm with cmds := cm.cmds.map fun y => if y.seqNo = c.seqNo then { y with stage := 1 } else y }) ∧
    (∀ (smp : Sample) (j : Job) (js : List Job) (row start seg : Nat) (gD gI gP gM : List (Nat × Nat)),
      let y := s.dev.ingReq j.q smp.num 1
      let i := row * j.l + start
      let np := smp.positions
      let staged := s.dev.rawBytes (localOf smp.stage) (np * smp.pbytes)
      let ws := writesAt s.dev gD (smp.content j staged) ++ writesAt s.dev gI ((List.range np).flatMap fun _ => leBytes 2 seg) ++
        writesAt s.dev gP ((List.range np).flatMap fun p => leBytes 2 p)
      let len := (i + np - 1) / 8 - i / 8 + 1
      let bits := (List.range np).foldl (fun v p => if smp.active p then v ||| 2 ^ (i % 8 + p) else v) (leNat (bytesAt s.dev gM))
      sl.jobs = j :: js → s.dev.sample? die.val slot.val smp.num = some smp → smp.st = 3 → smp.place = some (row, start, seg) →
      (smp.joint = none → s.dev.isRemote smp.stage = false ∧ Clean s.dev (localOf smp.stage) (np * smp.pbytes)) →
      Writes s.dev y (j.dataAt + i * j.pbytes) (smp.content j staged).length gD → Writes s.dev y (j.idsAt + 2 * i) (2 * np) gI →
      Writes s.dev y (j.posAt + 2 * i) (2 * np) gP → Reads s.dev y (j.maskAt + i / 8) len gM → Writes s.dev y (j.maskAt + i / 8) len gM →
      (∀ e ∈ writesAt s.dev gM (leBytes len bits), ∀ e' ∈ ws, e.1 ≠ e'.1) →
      ∃ n, exec (.sampleCopyDone die slot smp.num) s = .next n ∧ n.pending = s.pending ∧
        StoresList (ws ++ writesAt s.dev gM (leBytes len bits)) s n ∧
        n.dev.ingSlot die.val slot.val =
          { sl with samples := sl.samples.filter (·.num ≠ smp.num)
                    jobs := { j with table := j.table ++ [tableEntry smp stOK row start 0], included := j.included + 1 } :: js } ∧
        n.dev.fld ING_SAMPLES COUNT die = satAdd 48 (s.dev.fld ING_SAMPLES COUNT die) 1) ∧
    (let ns := c.at 10 1
     let e := fun (i : Nat) => ((bytesAt s.dev gas).drop (16 * i)).take 16
     s.dev.cmd? src k.toNat 0x41 0 = some c → mine → restZero c.pkt [(8, 3), (12, 2), (16, 32)] = true → c.at 8 1 = 0 → 1 ≤ ns →
      ns ≤ 16 → c.at 12 2 < 2 ^ ns → 1000 ≤ c.at 24 8 → sl.env = none → Reads s.dev x (c.at 40 8) (16 * ns) gas →
      (∀ i, i < ns → streamGood (e i) = true) →
      ∃ n m, exec (.ingEnvStart src k) s = .next n ∧ Completes c stOK 0 m s n ∧ SameMemory s ⟨m, s.pending⟩ ∧ m.u.cmd = cm ∧
        m.ingSlot die.val slot.val = { sl with env := some {
          q := c.q, required := c.at 12 2, t0 := c.at 16 8, period := c.at 24 8, window := c.at 32 4, grace := c.at 36 4,
          streams := (List.range ns).map fun i => { base := leAt (e i) 0 8, recBytes := leAt (e i) 8 4, log2 := leAt (e i) 12 1 } } }) ∧
    (s.dev.cmd? src k.toNat 0x41 0 = some c → mine → restZero c.pkt [(8, 3), (12, 2), (16, 32)] = true → c.at 8 1 = 1 →
      sl.env.isSome = true →
      ∃ n m, exec (.ingEnvStop src k) s = .next n ∧ Completes c stOK 0 m s n ∧ m.mem = s.dev.mem ∧ m.u.cmd = cm ∧
        m.ingSlot die.val slot.val = { sl with env := none }) ∧
    (∀ (e : EnvSet) (heads : List (List (Nat × Nat))) (recs : List (List (List (Nat × Nat)))),
      let at_ := e.t0 + e.k * e.period
      let y := s.dev.ingReq e.q (slot.val + 2 ^ 31) e.k
      let head := fun (a : Nat) => leNat (bytesAt s.dev (heads.getD a []))
      let kept := fun (a : Nat) => min (head a) (2 ^ (e.streams.getD a ⟨0, 0, 0⟩).log2)
      let number := fun (a i : Nat) => head a - kept a + i
      let rec_ := fun (a i : Nat) => bytesAt s.dev ((recs.getD a []).getD i [])
      let old := fun (a i : Nat) => leAt (rec_ a i) 8 8 ≠ number a i
      let fits := fun (a i : Nat) => ¬ old a i ∧ at_ - e.window ≤ leAt (rec_ a i) 0 8 ∧ leAt (rec_ a i) 0 8 ≤ at_
      let best := fun (a : Nat) => (List.range (kept a)).foldl (fun (b : Option Nat) i =>
        if fits a i ∧ ∀ p, b = some p → leAt (rec_ a p) 0 8 ≤ leAt (rec_ a i) 0 8 then some i else b) none
      let ps := (List.range e.streams.length).map fun a => (best a).map fun i => (rec_ a i).drop 16
      let lapped := ((List.range e.streams.length).map fun a => ((List.range (kept a)).filter fun i => old a i).length).sum
      sl.env = some e → at_ + e.grace ≤ s.dev.nowNs → heads.length = e.streams.length →
      (∀ a st, e.streams[a]? = some st → Reads s.dev y st.base 8 (heads.getD a []) ∧ ∀ i, i < kept a →
        Reads s.dev y (st.base + 64 + number a i % 2 ^ st.log2 * st.recBytes) st.recBytes ((recs.getD a []).getD i [])) →
      ∃ n, exec (.envTick die slot) s = .next n ∧ n.pending = s.pending ∧ SameMemory s n ∧
        n.dev.fld ING_ENV_LAPPED COUNT die = satAdd 48 (s.dev.fld ING_ENV_LAPPED COUNT die) lapped ∧
        (n.dev.ingSlot die.val slot.val).env = some { e with k := e.k + 1 } ∧
        if (List.range ps.length).any fun a => (ps.getD a none).isNone && e.required.testBit a then
          (n.dev.ingSlot die.val slot.val).samples = sl.samples ∧
            n.dev.fld ING_ENV_MISSED COUNT die = satAdd 48 (s.dev.fld ING_ENV_MISSED COUNT die) 1
        else
          n.dev.fld ING_ENV_TICKS COUNT die = satAdd 48 (s.dev.fld ING_ENV_TICKS COUNT die) 1 ∧
          ∃ m smp, n.dev = (Tr.seq [.placeOne die.val slot.val smp.num, .ingReg die.val slot.val]).run m ∧
            smp.num = s.dev.u.ing.nextNum ∧ smp.joint = some ps ∧ smp.st = 3 ∧ leAt smp.desc 20 4 = e.k % 2 ^ 32 ∧
            m.ingSlot die.val slot.val = { sl with env := some { e with k := e.k + 1 }, samples := sl.samples ++ [smp] })

/-- Checkpoints as R493 to R503 say: ARM reads its regions, makes every page dirty in both slots and recalls to S every M and E copy
of an armed line; CUT waits for its edge; DISARM clears the pages; a page whose F is set is staged; a maquette completes with its pages, then
its manifest, then MNUM, and then CKPT_LAST_BEAT and CKPT_LAST_NUM; one that ends with a status is abandoned, its unsent pages dirty
again. -/
def Obligations.Checkpoints : Prop :=
  ∀ (s : State) (src : CmdSrc) (k : BitVec 32) (c : Cmd) (mq : Maquette) (v : Word),
    let cm := s.dev.u.cmd
    let ck := s.dev.u.ckpt
    let idle := s.dev.u.coh.reqs.filter (·.data.isSome) = []
    let mine := s.dev.cmd? src k.toNat 0x38 0 = some c ∧ s.dev.pkgFeature 68 = true
    (∀ gas rs, let x := { s.dev.cmdReq c 0 2 with source := 4 }
      let total := rs.foldl (fun n (r : Nat × Nat) => n + r.2) 0
      let armed := fun (y : Copy) => (pageIndex (y.line * 64) 0 rs).isSome
      mine → s.dev.armGood c = true → ck.armed = false → Reads s.dev x (c.at 16 8) (16 * c.at 10 2) gas →
      regionsOf (bytesAt s.dev gas) = some rs → (1 + total) * 2 ^ 21 ≤ c.at 32 8 →
      (∀ y ∈ s.dev.u.coh.copies, y.st ≠ 1 → armed y = true → y.hold ≤ s.dev.elapsed) →
      ∃ n m, exec (.ckptArm src k) s = .next n ∧ Completes c stOK 0 m s n ∧ SameMemory s ⟨m, s.pending⟩ ∧ m.u.cmd = cm ∧
        m.u.ckpt = { ck with armed := true, slotBytes := c.at 32 8, start := c.at 48 8, notify := c.at 56 8, rate := c.at 64 4,
                             regions := rs, d0 := { inv := true }, d1 := { inv := true }, clean := false } ∧
        m.u.coh.copies = s.dev.u.coh.copies.map (fun y => if armed y then { y with st := 1 } else y) ∧
        m.fld CKPT_CFG CKPT_CFG_ARMED HD = 1 ∧ m.fld CKPT_CFG CKPT_CFG_GATE HD = c.at 9 1 ∧
        m.fld CKPT_CFG CKPT_CFG_NEIGHBOUR HD = c.at 12 2 ∧ m.fld CKPT_CFG CKPT_CFG_INTERVAL HD = c.at 40 4 ∧
        m.reg CKPT_AREA HD = w64 (c.at 24 8)) ∧
    (mine → c.at 8 1 = 2 → restZero c.pkt [(8, 1)] = true → ck.armed = true →
      ∃ n, exec (.ckptCut src k) s = .next n ∧ n = ⟨{ s.dev with u := { s.dev.u with cmd := { cm with
        cmds := cm.cmds.map fun y => if y.seqNo = c.seqNo then { y with stage := 1 } else y } } }, s.pending⟩) ∧
    (mine → c.at 8 1 = 1 → restZero c.pkt [(8, 1)] = true → ck.armed = true → ck.maq = none → s.dev.cuts = [] →
      ∃ n m, exec (.ckptDisarm src k) s = .next n ∧ Completes c stOK 0 m s n ∧ m.mem = s.dev.mem ∧
        m.u = { s.dev.u with ckpt := { ck with armed := false, regions := [], d0 := {}, d1 := {}, clean := false } } ∧
        m.fld CKPT_CFG CKPT_CFG_ARMED HD = 0) ∧
    (∃ n, exec (.ckptFull v) s = .next n ∧ n.pending = s.pending ∧ n.dev.mem = s.dev.mem ∧ n.dev.u = s.dev.u ∧
      SameRegsBut [CKPT_CTL.key HD 0 0] s n ∧
      n.dev.fld CKPT_CTL CKPT_CTL_FULL HD = (if v.getLsbD 0 then 1 else s.dev.fld CKPT_CTL CKPT_CTL_FULL HD)) ∧
    (∀ page, let la := pageAddr page ck.regions
      ck.maq = some mq → mq.f.has page = true → mq.staged.any (·.1 = page) = false → mq.failed = none →
      (mq.staged.filter fun y => s.dev.home (pageAddr y.1 ck.regions) = s.dev.home la).length < 8 → Clean s.dev la (2 ^ 21) → idle →
      ∃ n, exec (.pageStaged page []) s = .next n ∧ n.pending = s.pending ∧ n.dev.mem = s.dev.mem ∧
        n.dev.u.ckpt = { ck with maq := some { mq with staged := mq.staged ++ [(page, s.dev.rawBytes la (2 ^ 21), [])] } } ∧
        n.dev.fld CKPT_STAGED COUNT HD = satAdd 48 (s.dev.fld CKPT_STAGED COUNT HD) 1) ∧
    (let ps := mq.f.pages ck.total
     let base := mq.slot * ck.slotBytes
     let out := ps.map (fun p => (base + 2 ^ 21 + p * 2 ^ 21, s.dev.rawBytes (pageAddr p ck.regions) (2 ^ 21), ([] : List Nat))) ++
        [(base + 8, ck.manifest mq, []), (base + 0x1000, mq.groupRecords, []), (base, leBytes 8 mq.num, [])]
     ck.maq = some mq → mq.failed = none → mq.staged = [] → ps.Nodup → mq.num < 2 ^ 32 → mq.slot ≤ 1 → ck.notify = 0 →
      (∀ p ∈ ps, Clean s.dev (pageAddr p ck.regions) (2 ^ 21)) →
      ∃ n m, exec (.maquetteComplete 0 []) s = .next n ∧ n.pending = s.pending ∧
        n.dev = (Tr.seq [.cutEnds mq stOK mq.beat, .heldGo]).run m ∧ m.mem = s.dev.mem ∧
        m.u = { s.dev.u with ckpt := { ck with maq := none, out := ck.out ++ out } } ∧
        m.reg CKPT_LAST_BEAT HD = w64 mq.beat ∧ m.fld CKPT_LAST_NUM CKPT_LAST_NUM_MNUM HD = mq.num ∧
        m.fld CKPT_LAST_NUM CKPT_LAST_NUM_SLOT HD = mq.slot ∧ m.fld CKPT_STATUS CKPT_STATUS_BUSY HD = 0 ∧
        m.fld CKPT_MAQUETTES COUNT HD = satAdd 48 (s.dev.fld CKPT_MAQUETTES COUNT HD) 1) ∧
    (∀ status : BitVec 16, let lost := status.toNat = stPARTNER_LOST
      ck.maq = some mq → status.toNat ≠ stOK →
      ∃ n m, exec (.maquetteComplete status []) s = .next n ∧ n.pending = s.pending ∧
        n.dev = (Tr.seq [.cutEnds mq status.toNat 0, .heldGo]).run m ∧ m.mem = s.dev.mem ∧ m.u.ckpt.maq = none ∧
        (ck.d0.list.Nodup → ∀ p, m.u.ckpt.d0.has p = true ↔ lost ∨ ck.d0.has p = true ∨ mq.f.has p = true) ∧
        (ck.d1.list.Nodup → ∀ p, m.u.ckpt.d1.has p = true ↔ lost ∨ ck.d1.has p = true ∨ mq.f.has p = true) ∧
        m.fld CKPT_STATUS CKPT_STATUS_FAILED HD = 1 ∧ m.fld CKPT_STATUS CKPT_STATUS_FAIL_STATUS HD = status.toNat ∧
        m.fld CKPT_STATUS CKPT_STATUS_BUSY HD = 0 ∧ (lost → m.reg CKPT_LAST_NUM HD = 0))

/-- CKPT_RESTORE as R504 and R505 say: of the area that SOURCE answers it takes the slot of the newest complete maquette, or of BEAT;
copies every page to its region, then resolves every non-zero group record, its curve read from the restored memory; and completes with
CUT_BEAT. On an armed package, while beats run, or with no slot that matches, it is MALFORMED and restores nothing. -/
def Obligations.CheckpointRestore : Prop :=
  ∀ (s : State) (src : CmdSrc) (k : BitVec 32) (c : Cmd) (area : List (Nat × Byte)) (again : Word),
    let cm := s.dev.u.cmd
    let started := s.dev.cmd? src k.toNat 0x39 0 = some c ∧ restZero c.pkt [(12, 2), (16, 24)] = true ∧ c.at 12 2 < 2 ^ 15 ∧
      s.dev.pkgFeature 68 = true
    let sb := c.at 24 8
    (∀ status, started → (s.dev.u.ckpt.armed = true ∨ s.dev.running = true) →
      ∃ n, exec (.ckptRestore src k area again status) s = .next n ∧ Completes c stMALFORMED 0 s.dev s n) ∧
    (∀ (slot : Nat) (gs : List (Nat × Group)),
      let at_ := fun (o w : Nat) => leNat (areaBytes area (slot * sb + o) w)
      let rs := (List.range (min 64 (at_ 0xE 2))).map fun i => (at_ (0x40 + 16 * i) 8, at_ (0x48 + 16 * i) 4)
      let total := rs.foldl (fun n (r : Nat × Nat) => n + r.2) 0
      let ws := (List.range total).flatMap fun p => ((areaBytes area (slot * sb + 2 ^ 21 + p * 2 ^ 21) (2 ^ 21)).zipIdx.map fun e =>
        (s.dev.stor (pageAddr p rs + e.2), e.1))
      let after := fun (la : Nat) => ((ws.reverse.find? (·.1 = s.dev.stor la)).map (·.2)).getD (s.dev.rawByte la)
      let restored := fun (gas : List (Nat × Nat)) => gas.flatMap fun g => (List.range g.2).map fun i => after (localOf g.1 + i)
      let record := fun (i : Nat) => areaBytes area (slot * sb + 0x1000 + 64 * i) 64
      let ilv := [MEM_ILV_CUR.key HD 0 0, MEM_ILV_CUR.key HD 1 0, MEM_ILV_CUR_TOP.key HD 0 0].map fun key => (s.dev.get key).toNat
      started → s.dev.u.ckpt.armed = false → s.dev.running = false → c.at 12 2 = s.dev.ownId →
      areaSlot area sb (c.at 32 8) = some slot → at_ 8 4 = 0x4D515431 → at_ 0x18 8 = sb → at_ 0xC 2 = s.dev.ownId →
      [at_ 0x20 8, at_ 0x28 8, at_ 0x30 8] = ilv → again.toNat = at_ 0 8 →
      (∀ p, p < total → Clean s.dev (pageAddr p rs) (2 ^ 21)) →
      gs.map (·.1) = (List.range 4096).filter (fun i => (record i).any (· ≠ 0)) →
      (∀ i g, (i, g) ∈ gs → ∃ npts gas curve, groupOf (record i) = some ({ g with curve := [] }, npts) ∧
        Reads s.dev (s.dev.cmdReq c 0 4) g.curveVa (16 * npts) gas ∧ curveOf (restored gas) npts = some curve ∧ g.curve = curve) →
      ∃ n m, exec (.ckptRestore src k area again 0) s = .next n ∧ Completes c stOK (at_ 0x10 8) m s n ∧ m.u.cmd = cm ∧
        StoresList ws s ⟨m, s.pending⟩ ∧
        ∀ i, m.u.groups.find? (·.1 = i) = (gs.find? (·.1 = i)).map fun e => (i, ({ e.2 with keep := false } : Group).resolve))

/-- The native link layer as R542, R549 to R552, R60 and R586 say: a flit whose CRC is wrong, or whose SEQ is not the next, passes nothing
on and is answered by a flit with NAK; one in order gives its credits and its bytes, whole packets go on, and a flit acknowledges it;
ACK empties the retry buffer up to its flit; 10 µs without progress replays the whole buffer in order; a sub-port goes down after 16
replays and comes up with its partner's identity and credits; timing flits are TYPE 2 every 1 µs. -/
def Obligations.NativeLinks : Prop :=
  ∀ (s : State) (sp : SubPortId) (flit : List Byte) (uncorr : BitVec 8),
    let fab := s.dev.u.fab
    let p := s.dev.sub sp.val
    let die := spDie sp.val
    let k := spPort sp.val
    let native := s.dev.spUp sp.val = true ∧ s.dev.spMode sp.val = 1
    let plus := fun (r : Reg) (n : Nat) (m : Dev) => m.fld r COUNT die k = satAdd 48 (s.dev.fld r COUNT die k) n
    let crc := leAt flit 252 4 = crc32c (flit.take 252)
    let seq := leAt flit 0 2 % 4096
    let type := leAt flit 0 2 / 4096
    let ack := leAt flit 2 2 % 4096
    let vc := leAt flit 4 1 % 8
    let q := { p.acked ack s.dev.elapsed with credits := aupd p.credits (leAt flit 5 1 % 8) 0 (· + leAt flit 6 2) }
    let pushes := Tr.read fun d => .pushFlits sp.val (d.sub sp.val).fuel
    let isFlit := fun (f : Flit) (b : List Byte) => b.length = 256 ∧ leAt b 252 4 = crc32c (b.take 252) ∧ leAt b 0 2 % 4096 = f.seq ∧
      leAt b 0 2 / 4096 = f.type ∧ leAt b 4 1 = f.vc ∧ (b.drop 8).take f.payload.length = f.payload
    (native → flit.length = 256 → ¬ crc →
      ∃ n m, exec (.flitReceive sp flit uncorr) s = .next n ∧ n.pending = s.pending ∧ n.dev = (Tr.idleFlit sp.val true).run m ∧
        m.mem = s.dev.mem ∧ m.u = s.dev.u ∧ plus FAB_PORT_RX_BYTES 256 m ∧ plus FAB_PORT_CRC_ERRS 1 m ∧
        plus FAB_PORT_FEC_UNCORR uncorr.toNat m) ∧
    (native → flit.length = 256 → crc → leAt flit 2 2 / 4096 % 2 = 0 → type = 1 →
      ∃ n m, exec (.flitReceive sp flit uncorr) s = .next n ∧ n.pending = s.pending ∧ m.mem = s.dev.mem ∧
        plus FAB_PORT_RX_BYTES 256 m ∧
        (seq ≠ (p.rxSeq + 1) % 4096 → n.dev = (Tr.seq [.idleFlit sp.val true, pushes]).run m ∧ m.sub sp.val = q ∧ m.u.fab.rx = fab.rx) ∧
        (seq = (p.rxSeq + 1) % 4096 →
          let stream := agetD p.rxVc vc [] ++ (flit.drop 8).take 244
          let o := takePackets stream.length stream
          n.dev = (Tr.seq [.idleFlit sp.val false, pushes]).run m ∧
          m.sub sp.val = { q with rxSeq := seq, rxVc := tinsert p.rxVc vc o.2, freed := aupd p.freed vc 0 (· + 1) } ∧
          m.u.fab.rx = fab.rx ++ o.1.map fun x => (sp.val / 64, false, false, x))) ∧
    (∀ (f : Flit) (a b : List Flit), p.retry = a ++ f :: b → (∀ x ∈ a, x.seq ≠ ack) → f.seq = ack → (p.acked ack s.dev.elapsed).retry = b) ∧
    (native → p.retry ≠ [] → p.since + 10 * oneUs ≤ s.dev.elapsed →
      (∀ f ∈ p.retry, f.seq < 4096 ∧ f.type < 16 ∧ f.vc < 256 ∧ f.payload.length ≤ 244) →
      ∃ (n : State) (out : List (List Byte)), exec (.replayTimeout sp) s = .next n ∧ n.pending = s.pending ∧ n.dev.mem = s.dev.mem ∧
        plus FAB_PORT_REPLAYS 1 n.dev ∧ (n.dev.sub sp.val).retry = p.retry ∧ (n.dev.sub sp.val).replays = p.replays + 1 ∧
        n.dev.u.fab.tx = fab.tx ++ out.map (fun b => (sp.val, b)) ∧ out.length = p.retry.length ∧
        ∀ (i : Nat) (f : Flit) (b : List Byte), p.retry[i]? = some f → out[i]? = some b → isFlit f b) ∧
    (∀ unlocked, s.dev.spUp sp.val = true → (unlocked = true ∨ s.dev.spMode sp.val = 1 ∧ 16 ≤ p.replays) →
      ∃ n m, exec (.subportDown sp unlocked) s = .next n ∧ n.pending = s.pending ∧
        n.dev = (Tr.seq [.unreachable (sp.val / 64), .fabNotice (sp.val / 64) 3 0 0xFFFF sp.val]).run m ∧ m.mem = s.dev.mem ∧
        m.spUp sp.val = false ∧ m.peer? sp.val = none ∧ m.sub sp.val = {} ∧ plus FAB_PORT_DOWNS 1 m) ∧
    (∀ lanes (phys logical : BitVec 15) (credits : List (BitVec 16)), s.dev.spUp sp.val = false → s.dev.spMode sp.val = 1 →
      (splitLanes (s.dev.fld FAB_PORT_CFG FAB_PORT_CFG_SPLIT die k) (sp.val % 4)).isSome = true → p.retry = [] →
      (∀ e ∈ p.txVc, e.2 = []) →
      ∃ n, exec (.fabricLinkUp sp lanes phys logical credits) s = .next n ∧ n.pending = s.pending ∧ n.dev.mem = s.dev.mem ∧
        n.dev.spUp sp.val = true ∧ n.dev.peer? sp.val = some phys.toNat ∧
        n.dev.fld FAB_PORT_STATUS FAB_PORT_STATUS_LANES_OK die k = lanes.toNat ∧ (n.dev.sub sp.val).peerLog = logical.toNat ∧
        (∀ v, aget? (n.dev.sub sp.val).credits v = if v < 7 then credits[v]?.map (·.toNat) else none) ∧ n.dev.u.fab.tx = fab.tx) ∧
    (native → oneUs ≤ s.dev.elapsed - p.timed → p.txSeq < 4096 →
      ∃ n b, exec (.timingFlit sp none) s = .next n ∧ n.pending = s.pending ∧ n.dev.mem = s.dev.mem ∧
        n.dev.u.fab.tx = fab.tx ++ [(sp.val, b)] ∧ isFlit ⟨(p.txSeq + 4095) % 4096, 2, 0, leBytes 10 s.dev.stamp16⟩ b ∧
        (n.dev.sub sp.val).timed = s.dev.elapsed) ∧
    (∀ r : BitVec 48, native → s.dev.fld TIME_CTL TIME_CTL_SRC HD = 3 → sp.val / 4 = s.dev.fld TIME_CTL TIME_CTL_UPSTREAM_PORT HD →
      ∃ n, exec (.timingFlit sp (some r)) s = .next n ∧ n.pending = s.pending ∧ n.dev.mem = s.dev.mem ∧ n.dev.u = s.dev.u ∧
        SameRegsBut [TIME_LINK_DELAY.key HD 0 0] s n ∧ Holds n.dev TIME_LINK_DELAY HD 0 0 (r.toNat / 2))

/-- Transport packets as bytes (R556, R557): a packet whose fields are in range, and whose payload is the one its OP carries, is read back
whole from the front of any bytes it begins, with its length, and its CRC is right. -/
def Obligations.PacketsAsBytes : Prop :=
  ∀ (p : Pkt) (rest : List Byte),
    p.op < 256 → p.poison < 256 → p.hops < 16 → p.dstPhys < 2 ^ 15 → p.srcPhys < 2 ^ 15 → p.dstLog < 2 ^ 15 → p.srcLog < 2 ^ 15 →
    p.psn < 2 ^ 32 → p.addr < 2 ^ 41 → p.lenm1 < 512 → p.tid < 2 ^ 14 → p.tag < 2 ^ 32 →
    p.payload.length = payLen p.op p.tag p.lenm1 →
      p.bytes.length = 32 + p.payload.length ∧ parsePkt (p.bytes ++ rest) = some (p, 32 + p.payload.length, true) ∧
      leAt p.bytes 28 4 = crc32c (p.bytes.take 28 ++ p.payload) ∧ leAt p.bytes 16 8 % 2 ^ 41 = p.addr

/-- Ports, identities and Lanty-over-Ethernet frames as R539, R545, R546, R553, R554, R585 and R587 say: a frame for this package with its
packet whole is received, a PAUSE frame goes at once and any other is discarded and counted; the device answers requests for its own
address; a write of MODE 3 keeps MODE, and a change of MODE or SPLIT retrains the port; FAB_ID is discarded as a whole while RUN is 1;
a write of a remap entry clears the lost mark of its port die. -/
def Obligations.PortsAndFrames : Prop :=
  ∀ (s : State) (sp : SubPortId) (frame : List Byte) (port : PortId) (v : Word) (pd : PDie) (l : BitVec 15),
    let fab := s.dev.u.fab
    let die := spDie sp.val
    let k := spPort sp.val
    let eth := s.dev.spUp sp.val = true ∧ s.dev.spMode sp.val = 2
    let quiet := fun (n : State) => n.pending = s.pending ∧ n.dev.mem = s.dev.mem
    let discard := fun (n : State) => n.dev.u = s.dev.u ∧ n.dev.fld FAB_RX_DISCARDS COUNT die = satAdd 48 (s.dev.fld FAB_RX_DISCARDS COUNT die) 1
    (∀ bad, eth → ∃ n, exec (.ethFrameReceive sp frame bad) s = .next n ∧ quiet n ∧
      n.dev.fld FAB_PORT_RX_BYTES COUNT die k = satAdd 48 (s.dev.fld FAB_PORT_RX_BYTES COUNT die k) frame.length ∧
      if bad = true ∨ 9212 < frame.length then discard n
      else if beAt frame 12 2 = 0x8808 then n.dev.u = s.dev.u
      else match s.dev.framePkt sp.val frame with
        | none => discard n
        | some (p, ce) => n.dev.u = { s.dev.u with fab := { fab with rx := fab.rx ++ [(sp.val / 64, true, ce, p)] } }) ∧
    (∀ type b, eth → s.dev.phys?.isSome = true → s.dev.ethBody sp.val frame true = some (type, b) →
      let own := s.dev.ipOf (sp.val / 64) (s.dev.phys?.getD 0)
      let mac := beBytes 6 (s.dev.fld FAB_PORT_MAC FAB_PORT_MAC_MAC die k)
      let v6 := s.dev.fld FAB_IP_CFG FAB_IP_CFG_IPV6 die = 1
      let sends := fun (r : List Byte) (n : State) => n.dev.u = { s.dev.u with fab := { fab with tx := fab.tx ++ [(sp.val, r)] } } ∧
        n.dev.fld FAB_PORT_TX_BYTES COUNT die k = satAdd 48 (s.dev.fld FAB_PORT_TX_BYTES COUNT die k) r.length
      ∃ n, exec (.arpRequest sp frame) s = .next n ∧ quiet n ∧
        (type = 0x0806 → ¬ v6 → beAt b 0 8 = 0x0001080006040001 → (b.drop 24).take 4 = beBytes 4 (own % 2 ^ 32) →
          sends (s.dev.ethFrame sp.val (beAt b 8 6) 0x0806
            (beBytes 8 0x0001080006040002 ++ mac ++ beBytes 4 (own % 2 ^ 32) ++ (b.drop 8).take 10)) n) ∧
        (∀ r, type = 0x86DD → v6 → s.dev.ndReply sp.val frame b = some r → sends r n) ∧
        (type ≠ 0x0806 → type ≠ 0x86DD → n = s)) ∧
    (let die := 5 + port.val / 16
     let k := port.val % 16
     let old := fun (f : Fld) => s.dev.fld FAB_PORT_CFG f die k
     let mode := if FAB_PORT_CFG_MODE.get v = 3 then old FAB_PORT_CFG_MODE else FAB_PORT_CFG_MODE.get v
     let same := mode = old FAB_PORT_CFG_MODE ∧ FAB_PORT_CFG_SPLIT.get v = old FAB_PORT_CFG_SPLIT
     let st := fun (d : Dev) (f : Fld) => d.fld FAB_PORT_STATUS f die k
     same ∨ (∀ i : Fin 4, s.dev.spUp (4 * port.val + i.val) = false) →
      ∃ n, exec (.portCfgWrite port v) s = .next n ∧ quiet n ∧ n.dev.u = s.dev.u ∧
        SameRegsBut [FAB_PORT_CFG.key die k 0, FAB_PORT_STATUS.key die k 0] s n ∧ n.dev.fld FAB_PORT_CFG FAB_PORT_CFG_MODE die k = mode ∧
        (∀ f ∈ [FAB_PORT_CFG_SPLIT, FAB_PORT_CFG_DATELINE, FAB_PORT_CFG_VLAN_EN, FAB_PORT_CFG_PCP, FAB_PORT_CFG_VID],
          n.dev.fld FAB_PORT_CFG f die k = f.get v) ∧
        (same → n.dev.reg FAB_PORT_STATUS die k = s.dev.reg FAB_PORT_STATUS die k) ∧
        (¬ same → st n.dev FAB_PORT_STATUS_DEGRADED = 0 ∧ st n.dev FAB_PORT_STATUS_LANES_OK = 0 ∧
          st n.dev FAB_PORT_STATUS_RETRAINS = (st s.dev FAB_PORT_STATUS_RETRAINS + 1) % 65536)) ∧
    (∃ n, exec (.fabIdWrite v) s = .next n ∧ quiet n ∧ n.dev.u = s.dev.u ∧
      (s.dev.runBit = true → n = s) ∧
      (s.dev.runBit = false → SameRegsBut [FAB_ID.key HD 0 0, FAB_STATUS.key 5 0 0, FAB_STATUS.key 6 0 0] s n ∧
        (∀ f ∈ [FAB_ID_LOGICAL, FAB_ID_LVALID, FAB_ID_PHYS, FAB_ID_PVALID], n.dev.fld FAB_ID f HD = f.get v) ∧
        ∀ p ∈ [5, 6], n.dev.fld FAB_STATUS FAB_STATUS_ID_VALID p = if v.getLsbD 15 && v.getLsbD 31 then 1 else 0)) ∧
    (let die := 5 + pd.val
     ∃ n, exec (.fabRemapWrite pd l v) s = .next n ∧ quiet n ∧ n.dev.u = s.dev.u ∧
      SameRegsBut [FAB_REMAP.key die l.toNat 0, FAB_LOST.key die (l.toNat / 64) 0, FAB_STATUS.key die 0 0] s n ∧
      n.dev.fld FAB_REMAP FAB_REMAP_PHYS die l.toNat = v.toNat % 2 ^ 15 ∧
      n.dev.fld FAB_REMAP FAB_REMAP_VALID die l.toNat = v.toNat / 2 ^ 15 % 2 ∧
      n.dev.lost pd.val l.toNat = false ∧ ∀ o : BitVec 15, o ≠ l → n.dev.lost pd.val o.toNat = s.dev.lost pd.val o.toNat)

/-- Transport requests are sent, accepted and served as R543 to R548 and R556 to R561 say: a request takes a transaction number and goes
out on its connection with the next PSN, kept until acknowledged, or ends with PARTNER_LOST where no partner can be reached; a packet
with the package's identities is passed on in PSN order, one for another package goes on with one hop fewer, others are answered by
NAK; READ, WRITE and ATOMIC act on the target's memory and are answered. -/
def Obligations.TransportRequests : Prop :=
  ∀ (s : State) (pd : PDie),
    let fab := s.dev.u.fab
    let plane := pd.val
    let quiet := fun (n : State) => n.pending = s.pending ∧ n.dev.mem = s.dev.mem
    let fits := fun (q : TReq) (phys : Nat) => s.dev.remap? q.plane q.dst = some phys ∧ s.dev.lost q.plane q.dst = false ∧
      (q.op = 1 → s.dev.fld FAB_CTL FAB_CTL_RLB_EN (5 + q.plane) = 0) ∧
      (∀ x ∈ fab.reqs, x.plane = q.plane → x.tid ≠ some (fab.nextTid % 2 ^ 14))
    let packet := fun (q : TReq) (phys psn : Nat) =>
      ({ op := q.op, tagged := q.tagged, ordered := q.ordered, poison := q.poison, dstPhys := phys, dstLog := q.dst, addr := q.la
         lenm1 := q.len - 1, tid := fab.nextTid % 2 ^ 14, tag := (if q.tagged then s.dev.beatIdx % 2 ^ 32 else 0), psn := psn
         payload := (if q.op = 1 then [] else q.data), hops := s.dev.fld FAB_CTL FAB_CTL_HOP_LIMIT (5 + q.plane)
         srcPhys := s.dev.phys?.getD 0, srcLog := s.dev.ownId } : Pkt)
    let leaves := fun (q : TReq) (phys : Nat) (n : State) =>
      let c := (fab.conn? q.plane phys 0).getD
        { plane := q.plane, phys := phys, cls := 0, window := s.dev.fld FAB_TP_CFG FAB_TP_CFG_WINDOW (5 + q.plane) }
      n.dev.u.fab.nextTid = fab.nextTid % 2 ^ 14 + 1 ∧ n.dev.u.fab.conn? q.plane phys 0 = some { c with
        psn := (c.psn + 1) % 2 ^ 32, kept := c.kept ++ [{ pkt := packet q phys c.psn, since := s.dev.elapsed }] }
    let routed := fun (q : TReq) (phys sp : Nat) => s.dev.pick q.plane phys 0 = some sp ∧
      (s.dev.spMode sp = 2 → ∀ c, fab.conn? q.plane phys 0 = some c → c.kept.length < c.window ∧ c.queue = []) ∧
      (s.dev.spMode sp = 2 → 0 < s.dev.fld FAB_TP_CFG FAB_TP_CFG_WINDOW (5 + q.plane))
    (∀ (i : Nat) (q : TReq), fab.reqs[i]? = some q → q.tid = none → q.done = none → 1 ≤ q.op → q.op ≤ 3 →
      (s.dev.remap? q.plane q.dst = none ∨ s.dev.lost q.plane q.dst = true →
        ∃ n, exec (.transportRequestSend (.queued i)) s = .next n ∧ n.pending = s.pending ∧
          n.dev = (Tr.ended q stPARTNER_LOST [] 0).run s.dev) ∧
      ∀ phys sp, fits q phys → routed q phys sp →
        ∃ n, exec (.transportRequestSend (.queued i)) s = .next n ∧ quiet n ∧ leaves q phys n ∧
          n.dev.u.fab.reqs = fab.reqs.map fun x => if x = q then { x with tid := some (fab.nextTid % 2 ^ 14) } else x) ∧
    (∀ (op i phys sp : Nat) (o : MemOp) (r : Req), s.dev.op? op = some o → o.reqs[i]? = some r → r.st = .sent →
      s.dev.isRemote r.pa = true → (o.kind.stores && !r.idx) = false → fab.reqs.any (·.own = .thread op i) = false →
      let q : TReq := { plane := o.pk / 168 / 2, op := 1, dst := pkgOf r.pa, la := localOf r.pa, len := r.len, data := []
                        poison := poisonMask (r.psn.map (64 * ·)) 0 r.len, own := .thread op i }
      fits q phys → routed q phys sp →
      ∃ n, exec (.transportRequestSend (.thread op i)) s = .next n ∧ quiet n ∧ leaves q phys n ∧
        n.dev.u.fab.reqs = fab.reqs ++ [{ q with tid := some (fab.nextTid % 2 ^ 14) }]) ∧
    (∀ (eth ce room : Bool) (p : Pkt), fab.rx.find? (·.1 = plane) = some (plane, eth, ce, p) →
      let go := exec (.transportPacketAccept pd room) s
      let rest := fab.rx.erase (plane, eth, ce, p)
      let only := fun (m : Dev) => m.mem = s.dev.mem ∧ m.regs = s.dev.regs ∧ m.u = { s.dev.u with fab := { fab with rx := rest } }
      let ids := s.dev.phys?.isSome = true ∧ s.dev.idValid = true
      let mine := ids ∧ some p.dstPhys = s.dev.phys? ∧ opDefined p.op = true
      (¬ ids → ∃ n m, go = .next n ∧ n.pending = s.pending ∧ only m ∧ n.dev = (Tr.nak plane 3 p).run m) ∧
      (ids → some p.dstPhys ≠ s.dev.phys? → p.hops ≠ 0 → ∃ n m, go = .next n ∧ n.pending = s.pending ∧ only m ∧
        n.dev = (Tr.transmit plane { p with hops := p.hops - 1 } fun ok => .when (!ok) (.nak plane 1 p)).run m) ∧
      (ids → some p.dstPhys ≠ s.dev.phys? → p.hops = 0 → ∃ n m, go = .next n ∧ n.pending = s.pending ∧ n.dev = (Tr.nak plane 4 p).run m ∧
        m.u.fab.rx = rest ∧ m.fld FAB_HOPS_EXPIRED COUNT (5 + plane) = satAdd 48 (s.dev.fld FAB_HOPS_EXPIRED COUNT (5 + plane)) 1) ∧
      (mine → p.dstLog ≠ s.dev.ownId → ∃ n m, go = .next n ∧ n.pending = s.pending ∧ m.mem = s.dev.mem ∧ m.u.fab.rx = rest ∧
        n.dev = (Tr.nak plane 2 p).run m) ∧
      (let cls := opClass p.op
       let c := fab.rconn plane p.srcPhys cls
       mine → p.dstLog = s.dev.ownId → (cls = 0 ∨ cls = 2 → (s.dev.remap? plane p.srcLog).any (· ≠ p.srcPhys) = false) →
        (p.tagged && s.dev.early p && s.dev.earlyFull plane) = false →
        (cls ≠ 3 → room = false → ∃ n m, go = .next n ∧ n.pending = s.pending ∧ m.mem = s.dev.mem ∧ m.u.fab.rx = rest ∧
          n.dev = (Tr.nak plane 5 p).run m) ∧
        (cls = 3 → ∃ n, go = .next n ∧ quiet n ∧ n.dev.u.fab.rx = rest ∧ n.dev.u.fab.inq = fab.inq ++ [(plane, p)]) ∧
        (cls ≠ 3 → room = true → c.psn < 2 ^ 32 → p.psn = c.psn → c.ahead = [] → c.unacked < 7 →
          ∃ n, go = .next n ∧ quiet n ∧ n.dev.u.fab.rx = rest ∧ n.dev.u.fab.inq = fab.inq ++ [(plane, p)] ∧
            (n.dev.u.fab.rconn plane p.srcPhys cls).psn = (c.psn + 1) % 2 ^ 32 ∧
            (n.dev.u.fab.rconn plane p.srcPhys cls).unacked = c.unacked + 1))) ∧
    (∀ (op : Nat) (p : Pkt),
      let cmd : Instr := if op = 1 then .read pd else if op = 2 then .write pd else .transportAtomic pd
      let taken := fun (m : Dev) => m.u.fab = { fab with inq := fab.inq.erase (plane, p) }
      let answers := fun (m : Dev) (st : Nat) (data : List Byte) (n : State) => n.pending = s.pending ∧ taken m ∧
        n.dev = (Tr.respondPkt plane (op + 3) p st data 0).run m
      1 ≤ op → op ≤ 3 → s.dev.nextPkt plane op = some p →
      (s.dev.targetBad p.addr = true → ∃ n m, exec cmd s = .next n ∧ answers m stTRANSLATION_ABORT [] n ∧ m.mem = s.dev.mem) ∧
      (op = 1 → Clean s.dev p.addr (p.lenm1 + 1) → s.dev.fenced p.addr (p.lenm1 + 1) = false →
        ∃ n m, exec cmd s = .next n ∧ answers m stOK (s.dev.rawBytes p.addr (p.lenm1 + 1)) n ∧ SameMemory s ⟨m, s.pending⟩) ∧
      (op = 2 → p.payload ≠ [] → p.poison = 0 → Clean s.dev p.addr p.payload.length → s.dev.fenced p.addr p.payload.length = false →
        s.dev.u.ckpt.holds p.addr p.payload.length = false →
        ∃ n m, exec cmd s = .next n ∧ answers m stOK [] n ∧ Stores p.addr p.payload s ⟨m, s.pending⟩) ∧
      (let code := leAt p.payload 0 1
       let wide := leAt p.payload 1 1 = 1
       let w := if wide then 8 else 4
       let old := leNat (s.dev.rawBytes p.addr w)
       op = 3 → code ≤ 10 → leAt p.payload 1 1 ≤ 1 → (code = 10 → ¬ wide) → p.addr % w = 0 → Clean s.dev p.addr w →
        (s.dev.u.coh.lineReqs (p.addr / 64)).head?.any (·.started) = false → s.dev.u.ckpt.holds p.addr 8 = false →
        s.dev.u.ckpt.holds p.addr w = false →
        ∃ n m, exec cmd s = .next n ∧ answers m stOK (leBytes 8 old) n ∧
          Stores p.addr (leBytes w (atomicNew code (8 * w) old (leAt p.payload 8 8) (leAt p.payload 16 8))) s ⟨m, s.pending⟩))

/-- Responses, acknowledgement, heartbeats and fences of the transport as R555, R557 to R559, R562, R563, R582 to R584 and R586 say:
a response ends the request with its TID; an ACK drops the packets up to its PSN; a NAK starts the time to a retransmission again, or ends
the request or the partner; packets wait 2 µs for their ACK, and the oldest unacknowledged one is sent again after RTO_US; watched partners
get heartbeats, and MISS periods without an answer lose one; a fence keeps lines filled by earlier requests from later use. -/
def Obligations.TransportResponses : Prop :=
  ∀ (s : State) (pd : PDie) (p : Pkt),
    let fab := s.dev.u.fab
    let plane := pd.val
    let die := 5 + plane
    let inq := fab.inq.erase (plane, p)
    let quiet := fun (n : State) => n.pending = s.pending ∧ n.dev.mem = s.dev.mem
    let plus := fun (r : Reg) (m : Dev) => m.fld r COUNT die = satAdd 48 (s.dev.fld r COUNT die) 1
    let fence := fun (planes : List Nat) (m : Dev) => m.mem = s.dev.mem ∧
      m.u.fab = { fab with rlb := fab.rlb.filter fun e => ! planes.contains e.plane
                           reqs := fab.reqs.map fun q => if planes.contains q.plane && q.tid.isSome then { q with fill := false } else q } ∧
      ∀ i ∈ planes, m.fld FAB_FENCES COUNT (5 + i) = satAdd 48 (s.dev.fld FAB_FENCES COUNT (5 + i)) 1
    (∀ (op : Nat) (q : TReq),
      let cmd : Instr := if op = 4 then .readData pd else if op = 5 then .writeAck pd else .atomicData pd
      4 ≤ op → op ≤ 6 → s.dev.nextPkt plane op = some p →
      fab.reqs.find? (fun q => q.plane = plane && q.tid = some p.tid && q.dst = p.srcLog && q.done.isNone) = some q →
      (op = 4 → s.dev.fld FAB_CTL FAB_CTL_RLB_EN die = 0) →
      ∃ n m, exec cmd s = .next n ∧ n.pending = s.pending ∧ m.mem = s.dev.mem ∧ m.u.fab = { fab with inq := inq } ∧
        n.dev = (Tr.ended q (p.tag % 2 ^ 16) p.payload (if op = 4 then p.poison else 0)).run m) ∧
    (∀ c, s.dev.nextPkt plane 8 = some p → fab.conn? plane p.srcPhys (p.addr % 4) = some c → c.queue = [] → p.tag.testBit 24 = false →
      ∃ n c', exec (.ack pd) s = .next n ∧ quiet n ∧ n.dev.u.fab.inq = inq ∧
        n.dev.u.fab.conn? plane p.srcPhys (p.addr % 4) = some c' ∧ c'.tries = 0 ∧
        c'.kept = c.kept.filter fun k => 2 ^ 31 ≤ (p.psn + 2 ^ 32 - k.pkt.psn) % 2 ^ 32) ∧
    (∀ c k, let cls := p.addr % 4
      let phys := p.addr / 4 % 2 ^ 15
      let reason := p.tag / 2 ^ 16 % 2 ^ 8
      s.dev.nextPkt plane 9 = some p → fab.conn? plane phys cls = some c → c.kept.find? (·.pkt.psn = p.psn) = some k →
      ∃ n, exec (.nak pd) s = .next n ∧ n.pending = s.pending ∧
        (reason = 5 → n.dev.mem = s.dev.mem ∧ plus FAB_TP_NAKS n.dev ∧ n.dev.u.fab.inq = inq ∧
          n.dev.u.fab.conn? plane phys cls = some { c with
            kept := c.kept.map fun x => if x.pkt.psn = p.psn then { x with since := s.dev.elapsed, again := false } else x }) ∧
        (reason = 2 ∨ reason = 3 → ∃ m, n.dev = (Tr.partnerLost plane k.pkt.dstLog).run m ∧ plus FAB_TP_NAKS m ∧
          m.u.fab = { fab with inq := inq }) ∧
        (∀ q, reason ∈ [1, 4] → cls = 0 →
          fab.reqs.find? (fun q => q.plane = plane && q.tid = some k.pkt.tid && q.dst = k.pkt.dstLog && q.done.isNone) = some q →
          ∃ m, n.dev = (Tr.ended q (p.tag % 2 ^ 16) [] 0).run m ∧ plus FAB_TP_NAKS m ∧
            m.u.fab.conn? plane phys cls = some { c with kept := c.kept.filter (·.pkt.psn ≠ p.psn) })) ∧
    (∀ (phys : BitVec 15) (cls : Fin 3) (l : BitVec 15),
      let c := fab.rconn plane phys.toNat cls.val
      c.unacked ≠ 0 → c.since + 2 * oneUs ≤ s.dev.elapsed →
      ∃ n m, exec (.ackTimer pd phys cls l) s = .next n ∧ quiet n ∧
        n.dev = (Tr.sendConn plane { op := 8, dstPhys := phys.toNat, dstLog := l.toNat, psn := (c.psn + 2 ^ 32 - 1) % 2 ^ 32
                                     addr := cls.val + 4 * s.dev.phys?.getD 0, tag := if c.ce then 2 ^ 24 else 0 } fun _ => .skip).run m ∧
        m.u.fab = fab.setRconn { c with unacked := 0, ce := false }) ∧
    (∀ (phys : BitVec 15) (cls : Fin 3) c k,
      let rto := s.dev.fld FAB_TP_CFG FAB_TP_CFG_RTO_US die * oneUs
      let tries := if k.again then c.tries + 1 else c.tries
      fab.conn? plane phys.toNat cls.val = some c → c.kept.find? (fun k => k.since + rto ≤ s.dev.elapsed) = some k →
      (s.dev.fld FAB_TP_CFG FAB_TP_CFG_RETRIES die ≤ tries →
        ∃ n, exec (.retransmitTimeout pd phys cls) s = .next n ∧ n.pending = s.pending ∧
          n.dev = (Tr.partnerLost plane k.pkt.dstLog).run s.dev) ∧
      (tries < s.dev.fld FAB_TP_CFG FAB_TP_CFG_RETRIES die →
        ∃ n m, exec (.retransmitTimeout pd phys cls) s = .next n ∧ n.pending = s.pending ∧ m.mem = s.dev.mem ∧ plus FAB_TP_RETX m ∧
          n.dev = (Tr.transmit plane k.pkt fun ok => .when (!ok) (.partnerLost plane k.pkt.dstLog)).run m ∧
          m.u.fab.conn? plane phys.toNat cls.val = some { c with
            tries := tries, kept := c.kept.map fun x => if x.pkt.psn = k.pkt.psn then { x with since := s.dev.elapsed, again := true } else x })) ∧
    (s.dev.nextPkt plane 0x20 = some p →
      ∃ n m, exec (.heartbeat pd true) s = .next n ∧ n.pending = s.pending ∧ m.mem = s.dev.mem ∧ m.u.fab = { fab with inq := inq } ∧
        n.dev = (Tr.controlTo plane 8 p.srcLog 0).run m) ∧
    (∀ l, s.dev.watched plane = [l] → fab.hb.find? (fun h => h.plane = plane && h.logical = l) = none →
      ∃ n m, exec (.heartbeat pd false) s = .next n ∧ quiet n ∧ n.dev = (Tr.controlTo plane 0x20 l 0).run m ∧
        m.u.fab.hb.find? (fun h => h.plane = plane && h.logical = l) =
          some { plane := plane, logical := l, last := s.dev.elapsed, waiting := true, misses := 0 }) ∧
    (∀ (l : BitVec 15) h, let period := s.dev.fld FAB_HB_CFG FAB_HB_CFG_PERIOD_US die * oneUs
      let miss := s.dev.fld FAB_HB_CFG FAB_HB_CFG_MISS die
      fab.hb.find? (fun h => h.plane = plane && h.logical = l.toNat && h.waiting && h.last + period ≤ s.dev.elapsed) = some h →
      ∃ n m, exec (.heartbeatMiss pd l) s = .next n ∧ n.pending = s.pending ∧ plus FAB_HB_MISSED m ∧ m.mem = s.dev.mem ∧
        m.u.fab.hb = fab.hb.map (fun x => if x = h then { x with waiting := false, misses := x.misses + 1 } else x) ∧
        n.dev = if miss ≤ h.misses + 1 then (Tr.partnerLost plane l.toNat).run m else m) ∧
    (s.dev.nextPkt plane 0x21 = some p →
      ∃ n m, exec (.announce pd) s = .next n ∧ n.pending = s.pending ∧ m.u.fab = { fab with inq := inq } ∧
        n.dev = (Tr.fabNotice plane 4 (p.tag / 2 ^ 16 % 2 ^ 8) p.srcLog 0xFFFF).run ((Tr.partnerLost plane p.srcLog).run m)) ∧
    (∃ n, exec .hostHartFence s = .next n ∧ n.pending = s.pending ∧ fence [0, 1] n.dev) ∧
    (∀ src (k : BitVec 32) c, s.dev.cmd? src k.toNat 0x32 0 = some c → s.dev.btagAbsent c = false → restZero c.pkt [] = true →
      ∃ n m, exec (.ltReadFence src k) s = .next n ∧ Completes c stOK 0 m s n ∧ fence [0, 1] m)

/-- Collectives as R569 to R573, R575, R580 and R581 say: a good post reads its group and waits for its first phase; a packet of data joins
the messages of its phase and rank, and the engine goes on; an abort ends the collective with its status; CTAKE hands a cell an offered
item with its two operands, and CGIVE brings its result back. Two members that exchange their partials in one phase hold the same
result, the lower rank's operand first. -/
def Obligations.Collectives : Prop :=
  ∀ (s : State) (src : CmdSrc) (key : BitVec 32) (pd : PDie) (k : Cmd) (cl : Coll),
    let fab := s.dev.u.fab
    let cm := s.dev.u.cmd
    let plane := pd.val
    let mine := fab.colls.find? fun x => x.plane = plane && (cm.cmds.find? (·.seqNo = x.cmd)).any fun y => y.at 16 4 = (k.at 16 4)
    let data := fun (p : Pkt) (kind : Nat) => s.dev.nextPkt plane 0x10 = some p ∧ leAt p.payload 6 2 = kind ∧ p.addr = k.at 16 4 ∧
      mine = some cl
    (∀ (gN gI gB : List (Nat × Nat)) (ids : List Nat) (rank : Nat),
      let n := leNat (bytesAt s.dev gN)
      let bits := bytesAt s.dev gB
      s.dev.cmd? src key.toNat 0x34 0 = some k → qDie k.q / 2 = plane → s.dev.pkgFeature 69 = true →
      (k.cSparse = true → s.dev.pkgFeature 67 = true) → k.collGood = true → s.dev.beatIdx < k.at 32 8 →
      (fab.colls.filter (·.plane = plane)).length < 64 → Reads s.dev (s.dev.collReq k 0 0) (k.at 24 8) 8 gN → 1 ≤ n → n ≤ 32768 →
      Reads s.dev (s.dev.collReq k 1 0) ((k.at 24 8 + 8) % 2 ^ 64) (2 * n) gI → u16s (bytesAt s.dev gI) = ids →
      (k.cDeliver = true → Reads s.dev (s.dev.collReq k 2 0) (k.at 104 8) 80 gB) →
      ids.zipIdx.find? (fun g => g.1 = s.dev.ownId) = some (s.dev.ownId, rank) → ids.Nodup →
      (collPhases k.cOp k.cAlgo n k.cSparse).isSome = true → (k.cOp ∈ [1, 2, 3] → k.at 40 8 % n = 0) →
      (k.cDeliver = true → k.cOutBytes n ≤ 4096 ∧ k.at 96 8 + k.cOutBytes n ≤ spadSize) →
      ∃ n', exec (.collPost src key) s = .next n' ∧ n'.pending = s.pending ∧ SameMemory s n' ∧
        n'.dev.u.cmd = { cm with cmds := cm.cmds.map fun y => if y.seqNo = k.seqNo then { y with stage := 1 } else y } ∧
        n'.dev.u.fab.colls = fab.colls ++ [{
          cmd := k.seqNo, plane := plane, group := ids, rank := rank, digest := k.collDigest n
          cells := if k.cDeliver then (List.range 640).filter fun c => (bits.getD (c / 8) 0).toNat.testBit (c % 8) else [] }]) ∧
    (∀ (p : Pkt) (rank : Nat), data p 0 → cl.group.zipIdx.find? (fun g => g.1 = p.srcLog) = some (p.srcLog, rank) →
      leAt p.payload 0 4 = cl.digest →
      let phase := leAt p.payload 4 2
      let other := fun (m : CollMsg) => ! (m.phase = phase && m.rank = rank)
      ∃ n m, exec (.coll pd) s = .next n ∧ n.pending = s.pending ∧ m.mem = s.dev.mem ∧ n.dev = (Tr.collGo cl.cmd cl.fuel).run m ∧
        m.u.fab.inq = fab.inq.erase (plane, p) ∧
        m.u.fab.colls = fab.colls.map fun x => if x.cmd = cl.cmd then
          let old : CollMsg := (x.msgs.find? fun m => ! other m).getD { phase := phase, rank := rank, len := leAt p.payload 8 8, bytes := [] }
          { x with msgs := x.msgs.filter other ++ [{ old with bytes := old.bytes ++ p.payload.drop 24 }] } else x) ∧
    (∀ (p : Pkt) (c : Cmd), data p 1 → cm.cmds.find? (·.seqNo = cl.cmd) = some c →
      ∃ n m, exec (.collectiveAbort pd) s = .next n ∧ Completes c (leAt p.payload 8 8 % 2 ^ 16) 0 m s n ∧ m.mem = s.dev.mem ∧
        m.u.fab = { fab with inq := fab.inq.erase (plane, p), colls := fab.colls.filter (·.cmd ≠ cl.cmd) } ∧
        m.fld COLL_ABORTED COUNT (5 + cl.plane) = satAdd 48 (s.dev.fld COLL_ABORTED COUNT (5 + cl.plane)) 1) ∧
    (∀ (c : PCell) (t : Tid) (w : Word128) (pk : Nat),
      let x := ctxOf s.dev c t w pk
      let th := s.dev.threadAt pk t.val
      let cs := s.dev.cellAt pk
      let a := x.s 16
      let cd := field w 36 3
      (Issues s.dev c t w 9 0 collMask pk → 196608 ≤ x.s 26 → x.s 26 % 64 = 0 → SpadOk cs [(a, x.s 26), (x.s 31, 64)] [] →
        (s.dev.offered (pk / 168 / 2) = none →
          ∃ m, exec (.ctake c t w) s = .next m ∧ OnlyThread 9 pk t s m ∧ m.dev.threadAt pk t = th.advance.setC cd false) ∧
        ∀ i y, s.dev.offered (pk / 168 / 2) = some (cl, i) → cm.cmds.find? (·.seqNo = cl.cmd) = some y →
          let o := cl.operands y
          let chunk := fun (l : List Nat) => ((l.drop i.off).take i.count).flatMap (leBytes 4)
          let item := leBytes 8 i.num ++ leBytes 1 y.cRed ++ List.replicate 3 0 ++ leBytes 4 i.count ++ leBytes 8 a ++
            leBytes 8 (a + 65536) ++ leBytes 8 (a + 131072) ++ List.replicate 24 0
          ∃ m, exec (.ctake c t w) s = .next m ∧ m.dev.threadAt pk t = th.advance.setC cd true ∧
            CellSpad pk t (((cs.spad.put a (chunk o.1)).put (a + 65536) (chunk o.2)).put (x.s 31) item) s m ∧
            m.dev.u.fab.colls = fab.colls.map fun e => { e with items := e.items.map fun is => is.map fun j =>
              if j.num = i.num then { j with taken := some (pk, a) } else j }) ∧
      (let held := fab.colls.findSome? fun e => (e.items.getD []).findSome? fun j => match j.taken with
         | some (q, b) => if j.num = a && q = pk && j.result.isNone then some (e, j, b) else none
         | none => none
       Issues s.dev c t w 9 1 collMask pk →
        (held = none → ∃ m, exec (.cgive c t w) s = .next m ∧ OnlyThread 9 pk t s m ∧ m.dev.threadAt pk t = th.advance) ∧
        ∀ i b, held = some (cl, i, b) → cs.spadPoison (b + 131072) (4 * i.count) = false →
          let res := (List.range i.count).map fun j => leNat (cs.spad.slice (b + 131072 + 4 * j) 4)
          ∃ n m, exec (.cgive c t w) s = .next n ∧ n.pending = s.pending ∧
            n.dev = (counted 9 pk t).run ((Tr.collGo cl.cmd cl.fuel).run m) ∧
            m.mem = s.dev.mem ∧ m.threadAt pk t = th.advance ∧
            m.u.fab.colls = fab.colls.map fun e => { e with items := e.items.map fun is => is.map fun j =>
              if j.num = i.num then { j with result := some res } else j })) ∧
    (∀ (c0 c1 : Coll) (a b : List Nat),
      let held := fun (l : List Nat) => l.length = k.at 40 8 ∧ ∀ v ∈ l, v < 2 ^ 32 ∧ widen32 0 (narrowTo 0 v) = v
      k.cOp = 0 → k.cAlgo = 1 → k.cRed ≤ 3 → k.cNarrow = false → c0.group.length = 2 → c0.group = c1.group → c0.rank = 0 → c1.rank = 1 →
      c0.phase = 0 → c1.phase = 0 → c0.vec = a → c1.vec = b → held a → held b →
      c0.whole 1 = some (c1.message k 0) → c1.whole 0 = some (c0.message k 1) →
      (c0.combine k none).vec = List.zipWith (collRed k.cRed) a b ∧ (c1.combine k none).vec = (c0.combine k none).vec)

/-- The choice of the shared arbiter (R594, R595, R597): the winner is eligible. Where a head has waited AGE × 64 cycles the grant is aged,
and the winner has waited longest, of equals the lowest-numbered. Else an unmasked requester wins, of the highest class of any unmasked
one and there the first after the class's pointer; a masked one wins only where no unmasked one is eligible and CONSERVE is 1. With none to
choose among, nobody wins. -/
def Obligations.ArbiterChoice : Prop :=
  ∀ (d : Dev) (t i : Nat) (e : List ArbReq),
    let old := fun (q : ArbReq) => d.forceFld ARB_CTL ARB_CTL_AGE t i * 64 ≤ q.wait
    let masked := fun (r : Nat) => r ∈ (d.arb t i).masked
    let conserve := d.forceFld ARB_CFG ARB_CFG_CONSERVE t i = 1
    e.Pairwise (fun a b => a.r.val < b.r.val) →
    (∀ w aged, d.arbWinner t i e = some (w, aged) →
      ∃ q ∈ e, q.r.val = w ∧ (aged = true ↔ ∃ x ∈ e, old x) ∧
        (aged = true → old q ∧ ∀ x ∈ e, x.wait ≤ q.wait ∧ (x.wait = q.wait → w ≤ x.r.val)) ∧
        (aged = false → ¬ masked w → ∀ x ∈ e, ¬ masked x.r.val → d.arbClass t i w ≤ d.arbClass t i x.r.val) ∧
        (aged = false → masked w → conserve ∧ ∀ x ∈ e, masked x.r.val ∧ d.arbClass t i w ≤ d.arbClass t i x.r.val) ∧
        (aged = false →
          let p := (d.arb t i).ptrOf (d.arbClass t i w)
          let rival := fun (x : ArbReq) => x ∈ e ∧ (masked x.r.val ↔ masked w) ∧ d.arbClass t i x.r.val = d.arbClass t i w;
          (p < w ∧ ∀ x, rival x → p < x.r.val → w ≤ x.r.val) ∨ ∀ x, rival x → x.r.val ≤ p ∧ w ≤ x.r.val)) ∧
    (d.arbWinner t i e = none ↔ e = [] ∨ ¬ conserve ∧ ∀ x ∈ e, masked x.r.val ∧ ¬ old x)

/-- What a grant and a window end of the shared arbiter change (R594 to R598, R601): the winner's grants, waits and largest wait; an aged
grant counts against no quota and moves no pointer, another moves the pointer of its class and counts, and the grant that reaches the quota
masks its requester. A window end clears counts and masks and puts the staged settings in force; MAX_CLR asks for the largest waits to be
cleared there. -/
def Obligations.ArbiterGrants : Prop :=
  ∀ (s : State) (die : Die) (inst : BitVec 8) (heads : List ArbReq) (v : Word),
    let t := die.val
    let i := inst.toNat
    let a := s.dev.arb t i
    let quiet := fun (n : State) => n.pending = s.pending ∧ n.dev.mem = s.dev.mem
    let e := (List.range (arbRequesters t i)).filterMap fun r => heads.find? (·.r.val = r)
    let reqs := List.range (arbRequesters t i)
    (∀ w aged q, s.dev.arbWinner t i e = some (w, aged) → e.find? (·.r.val = w) = some q → s.dev.fld ARB_CTL ARB_CTL_HINT_EN t i = 0 →
      let c := s.dev.arbClass t i w
      let used := agetD a.used w 0 + 1
      ∃ n, exec (.arbiterGrant die inst heads) s = .next n ∧ quiet n ∧
        n.dev.fld ARB_GRANTS COUNT t i w = satAdd 48 (s.dev.fld ARB_GRANTS COUNT t i w) 1 ∧
        n.dev.fld ARB_WAIT COUNT t i w = satAdd 48 (s.dev.fld ARB_WAIT COUNT t i w) q.wait ∧
        n.dev.fld ARB_MAXWAIT COUNT t i w = max (s.dev.fld ARB_MAXWAIT COUNT t i w) q.wait % 2 ^ 48 ∧
        (aged = true → n.dev.u = s.dev.u ∧ n.dev.fld ARB_AGED COUNT t i = satAdd 48 (s.dev.fld ARB_AGED COUNT t i) 1) ∧
        (aged = false → { n.dev.u with arb := s.dev.u.arb } = s.dev.u ∧ (n.dev.arb t i).ptrOf c = w ∧
          (∀ o, o ≠ c → (n.dev.arb t i).ptrOf o = a.ptrOf o) ∧
          match s.dev.arbQuota t i c with
          | none => (n.dev.arb t i).used = a.used ∧ (n.dev.arb t i).masked = a.masked
          | some k => agetD (n.dev.arb t i).used w 0 = used ∧ (n.dev.arb t i).masked = if used = k then w :: a.masked else a.masked)) ∧
    (let len := s.dev.forceFld ARB_CFG ARB_CFG_WINDOW t i * oneUs / 1880
     let keys := [ARB_CFG.key t i 0, ARB_CTL.key t i 0] ++ reqs.map fun r => ARB_CLASS.key t i r
     reqs ≠ [] → a.since + len ≤ s.dev.elapsed →
      ∃ n, exec (.arbWindowEnd die inst) s = .next n ∧ quiet n ∧
        n.dev.arb t i = { a with used := [], masked := [], since := a.since + len } ∧
        (∀ k, aget? n.dev.u.force k = if k ∈ keys then none else aget? s.dev.u.force k) ∧
        (s.dev.fld ARB_CTL ARB_CTL_MAX_CLR t i = 0 → SameRegsBut [ARB_STATUS.key t i 0] s n) ∧
        (s.dev.fld ARB_CTL ARB_CTL_MAX_CLR t i = 1 → n.dev.fld ARB_CTL ARB_CTL_MAX_CLR t i = 0 ∧
          ∀ r ∈ reqs, n.dev.reg ARB_MAXWAIT t i r = 0)) ∧
    (reqs ≠ [] → v.getLsbD 17 = true →
      ∃ n, exec (.arbMaxClr die inst v) s = .next n ∧ quiet n ∧ SameRegsBut [ARB_CTL.key t i 0] s n ∧
        n.dev.fld ARB_CTL ARB_CTL_MAX_CLR t i = 1 ∧ n.dev.fld ARB_CTL ARB_CTL_HINT_EN t i = v.toNat / 2 ^ 16 % 2 ∧
        n.dev.fld ARB_CTL ARB_CTL_AGE t i = (if v.toNat % 2 ^ 12 = 0 then s.dev.fld ARB_CTL ARB_CTL_AGE t i else v.toNat % 2 ^ 12) ∧
        n.dev.forceFld ARB_CTL ARB_CTL_AGE t i = s.dev.forceFld ARB_CTL ARB_CTL_AGE t i)

/-- What raises a unit's patina (R17, R18, R346, R347, R611 to R614, R630, R669), while no record is written: a retry adds 1, a lane
replaced by the module's redundant one 64, every 65,536 corrected symbols 1, a low eye of a lane or stack 16, a low timing margin 4; a
write of SPARE_PATINA sets it. Reaching WARN and RETIRE each records once, and RETIRE makes a unit due where AUTO has its kind. -/
def Obligations.PatinaOfUnits : Prop :=
  ∀ (s : State) (v : Word) (l : LinkId) (m : Fin 24) (pd : PDie) (lane : BitVec 8) (eye : BitVec 7) (fec : BitVec 32) (td : TDie)
      (stack : Fin 3) (pc : BitVec 6) (lost passEnd : Bool) (die : Die) (idx : BitVec 8),
    let mk := moduleKey l.val m.val
    let lk := ukey 2 (pdOf pd.val) lane.toNat
    let hk := ukey 7 td.val (stack.val * 256)
    let ck := ukey (if die.val = HD then 1 else 0) die.val idx.toNat
    let goes := fun (c : Instr) (k w : Nat) => ∃ n, exec c s = .next n ∧ n.pending = s.pending ∧ n.dev = (Tr.patina k w).run s.dev
    let lowEye := eye.toNat < s.dev.fld SPARE_CTL SPARE_CTL_HBM_MARGIN HD
    s.dev.fld SPARE_EVQ_CFG SPARE_EVQ_CFG_EN HD = 0 →
    (∀ k x, let un := s.dev.u.spare.unit k
      let w := !un.warned && decide (s.dev.fld SPARE_THRESH SPARE_THRESH_WARN HD (ukKind k) ≤ x)
      let r := !un.told && decide (s.dev.fld SPARE_THRESH SPARE_THRESH_RETIRE HD (ukKind k) ≤ x)
      let auto := decide (ukKind k < 6) && (s.dev.fld SPARE_CTL SPARE_CTL_AUTO HD).testBit (ukKind k)
      let due := r && auto && decide (un.st = 0) && un.due.isNone
      let o := (Tr.setPatina k x).run s.dev
      o.mem = s.dev.mem ∧ { o.u with spare := s.dev.u.spare } = s.dev.u ∧
        o.u.spare.unit k = { un with patina := x, warned := un.warned || w, told := un.told || r,
                                     due := if due then some s.dev.u.spare.seq else un.due } ∧
        (∀ j, j ≠ k → o.u.spare.unit j = s.dev.u.spare.unit j) ∧
        o.fld SPARE_EVQ_LOST COUNT HD = satAdd 48 (s.dev.fld SPARE_EVQ_LOST COUNT HD) (b01 w + b01 r) ∧
        ∀ q, q ≠ SPARE_EVQ_LOST.key HD 0 0 → o.get q = s.dev.get q) ∧
    (∀ k w, (Tr.patina k w).run s.dev = (Tr.setPatina k (satAdd 32 (s.dev.u.spare.unit k).patina w)).run s.dev) ∧
    (∀ k, s.dev.selUnit = some k →
      ∃ n, exec (.sparePatinaWrite v) s = .next n ∧ n.pending = s.pending ∧ n.dev = (Tr.setPatina k (v.toNat % 2 ^ 32)).run s.dev) ∧
    (s.dev.selUnit = none → exec (.sparePatinaWrite v) s = .next s) ∧
    ((s.dev.link l.val).modules.testBit m.val = true → goes (.ucieFlitRetry l m) mk 1 ∧ goes (.ucieLaneFailure l m true) mk 64 ∧
      ∃ n, exec (.ucieLaneFailure l m false) s = .next n ∧ n.pending = s.pending ∧ n.dev.mem = s.dev.mem ∧ n.dev.regs = s.dev.regs ∧
        n.dev.link l.val = { s.dev.link l.val with leaving := putBits (s.dev.link l.val).leaving m.val 1 1 } ∧
        { n.dev.u with links := s.dev.u.links } = s.dev.u) ∧
    (lane.toNat < 136 → (∀ c ∈ s.dev.u.cmd.cmds, lk ∉ c.units) →
      let sum := (s.dev.u.spare.unit lk).fec + fec.toNat
      ∃ n o, exec (.laneAdaptationPass pd lane eye fec) s = .next n ∧ n.pending = s.pending ∧
        n.dev = (Tr.when (decide (eye.toNat < s.dev.fld SPARE_CTL SPARE_CTL_LANE_MARGIN HD)) (.patina lk 16)).run
          ((Tr.patina lk (sum / 65536)).run o) ∧
        o.mem = s.dev.mem ∧ (∀ p, s.dev.laneOf lk = some p → o.fld FAB_PORT_FEC_CORR COUNT (pdOf pd.val) p.1 =
          satAdd 48 (s.dev.fld FAB_PORT_FEC_CORR COUNT (pdOf pd.val) p.1) fec.toNat) ∧ o.u.spare.unit lk = { s.dev.u.spare.unit lk with fec := sum % 65536 } ∧
        { o.u with spare := s.dev.u.spare } = s.dev.u) ∧
    (let c := s.dev.cal (3 * td.val + stack.val)
      ∃ n o, exec (.hbmCalibrationStep td stack pc eye lost passEnd) s = .next n ∧ n.pending = s.pending ∧
        n.dev = (Tr.each (if passEnd then c.running else []) fun id => .unitDone id hk).run o ∧ o.mem = s.dev.mem ∧
        o.fld MEM_CAL_STATUS MEM_CAL_STATUS_LOW_MARGIN td.val =
          (let old := s.dev.fld MEM_CAL_STATUS MEM_CAL_STATUS_LOW_MARGIN td.val
           if lowEye then putBits old stack.val 1 1 else old) ∧
        (o.u.spare.unit hk).patina = (let old := (s.dev.u.spare.unit hk).patina; if lowEye then satAdd 32 old 16 else old) ∧
        o.fld MEM_PC MEM_PC_DOWN td.val (3 * pc.toNat + stack.val) =
          (if lost then 1 else s.dev.fld MEM_PC MEM_PC_DOWN td.val (3 * pc.toNat + stack.val)) ∧
        o.cal (3 * td.val + stack.val) = if passEnd then { waiting := [], running := c.waiting, passes := c.passes + 1 } else c) ∧
    (let low := s.dev.awake = true ∧ unitExists (if die.val = HD then 1 else 0) die.val idx.toNat = true ∧
        eye.toNat < s.dev.fld SPARE_CTL SPARE_CTL_LOGIC_MARGIN HD;
      (¬ low → exec (.timingMarginSample die idx eye) s = .next s) ∧
      (low → ∃ n, exec (.timingMarginSample die idx eye) s = .next n ∧ n.pending = s.pending ∧ n.dev.mem = s.dev.mem ∧
        (n.dev.u.spare.unit ck).patina = satAdd 32 (s.dev.u.spare.unit ck).patina 4 ∧ die.val ∈ n.dev.u.pwr.lowMargin ∧
        SameRegsBut [SPARE_EVQ_LOST.key HD 0 0] s n))

/-- What ends a test, a swap, an eviction or a repair, and the loss of a lane (R541, R542, R621, R623 to R625, R627, R631), while no
record is written: an outcome waits for the edge in PROBATION and acts at once in place; a hart goes on at the incoming core; a repair way
comes in; a repaired row is counted, and one without a free row is refused; a lost lane is retired and its spare takes over. -/
def Obligations.SparesAndTests : Prop :=
  ∀ (s : State) (kind : Fin 8) (die : Die) (idx : BitVec 16) (pass : Bool) (core : BitVec 7) (td : TDie) (way : BitVec 5) (v : Word)
      (port : PortId) (lane : Fin 8),
    let sp := s.dev.u.spare
    let k := ukey kind.val die.val idx.toNat
    let plus := fun (r : Reg) (x : Nat) (m : Dev) => m.fld r COUNT HD = satAdd 48 (s.dev.fld r COUNT HD) x
    let entered := fun (j st : Nat) (m : Dev) =>
      m.u.spare.unit j = { sp.unit j with st := st, due := if st = 2 ∨ st = 3 then none else (sp.unit j).due }
    let others := fun (ks : List Nat) (m : Dev) => ∀ j, j ∉ ks → m.u.spare.unit j = sp.unit j
    let ends := fun (p : Probe) => p ∈ sp.probes ∧ p.unit = k ∧ p.since + testTime kind.val p.level ≤ s.dev.elapsed ∧
      ∀ q ∈ sp.probes, q.unit = k → q = p
    s.dev.fld SPARE_EVQ_CFG SPARE_EVQ_CFG_EN HD = 0 →
    (∀ p, ends p → p.inPlace = false → p.outcome = none →
      exec (.probationTestEnd kind die idx pass) s = .next { s with dev := { s.dev with u := { s.dev.u with
        spare := { sp with probes := sp.probes.map fun q => if q.unit = k then { q with outcome := some pass } else q } } } }) ∧
    (∀ p, ends p → p.inPlace = true → p.cmds = [] →
      ∃ n m, exec (.inplaceTestEnd kind die idx pass) s = .next n ∧ n.pending = s.pending ∧
        n.dev = (Tr.inPlaceOutcome k pass p).run m ∧ m.mem = s.dev.mem ∧ m.u = { s.dev.u with spare := { sp with probes := sp.probes.erase p } } ∧
        plus SPARE_EVQ_LOST 1 m ∧ plus SPARE_PROBATION_FAILS (b01 (!pass)) m ∧ plus SPARE_RETIREMENTS (b01 (!pass)) m ∧
        (kind.val = 1 → pass = true → entered k 0 n.dev ∧ others [k] n.dev)) ∧
    (∀ x, sp.leaving.find? (fun x => ukKind x.out = 1 && x.logical = core.toNat) = some x → x.probe = none → x.cmds = [] →
      ∃ n, exec (.hostCoreSwapDone core) s = .next n ∧ n.pending = s.pending ∧ n.dev.mem = s.dev.mem ∧ n.dev.regs = s.dev.regs ∧
        n.dev.u.spare.leaving = sp.leaving.erase x ∧ entered x.out x.st n.dev ∧ others [x.out] n.dev) ∧
    (let wk := ukey 4 td.val way.toNat
     wk ∈ sp.evicting → (∀ c ∈ s.dev.u.coh.copies, c.agent ≠ 25 + td.val) →
      ∃ n, exec (.wayEvictionDone td way) s = .next n ∧ n.pending = s.pending ∧ n.dev.mem = s.dev.mem ∧
        n.dev.u.spare.evicting = sp.evicting.erase wk ∧
        (s.dev.spareFor wk = none → others [] n.dev ∧ n.dev.regs = s.dev.regs) ∧
        ∀ j, s.dev.spareFor wk = some j → entered j 0 n.dev ∧ others [j] n.dev ∧ plus SPARE_SWAPS 1 n.dev ∧ plus SPARE_EVQ_LOST 1 n.dev) ∧
    (let bank := td.val * 2 ^ 16 + pprBank v.toNat
     let full := Config.pprRows td.val (pprBank v.toNat) ≤ agetD sp.pprUsed bank 0
     let get := fun (f : Fld) (m : Dev) => m.fld SPARE_PPR_REQ f td.val
     (get SPARE_PPR_REQ_GO s.dev = 1 → exec (.sparePprReq td v) s = .next s) ∧
     (get SPARE_PPR_REQ_GO s.dev = 0 → v.toNat.testBit 0 = true → bitsOf v.toNat 8 8 < 192 → bitsOf v.toNat 32 13 < 6144 →
      ∃ n, exec (.sparePprReq td v) s = .next n ∧ n.pending = s.pending ∧ n.dev.mem = s.dev.mem ∧
        get SPARE_PPR_REQ_PC n.dev = bitsOf v.toNat 8 8 ∧ get SPARE_PPR_REQ_BANK n.dev = bitsOf v.toNat 16 6 ∧
        get SPARE_PPR_REQ_ROW n.dev = bitsOf v.toNat 32 13 ∧ get SPARE_PPR_REQ_GO n.dev = b01 (decide (¬ full)) ∧
        n.dev.u.spare = { sp with ppr := sp.ppr ++ if full then [] else [(td.val, v.toNat)] } ∧
        n.dev.fld SPARE_PPR_STATUS SPARE_PPR_STATUS_NO_RESOURCE td.val =
          if full then 1 else s.dev.fld SPARE_PPR_STATUS SPARE_PPR_STATUS_NO_RESOURCE td.val) ∧
     (∀ e, sp.ppr.find? (·.1 = td.val) = some e →
      (∀ so ∈ rowSectors (bitsOf e.2 8 8) (bitsOf e.2 16 6) (bitsOf e.2 32 13), s.dev.sectorErrs ((td.val * hbmWindow + so) / 64) = []) →
      let b := td.val * 2 ^ 16 + pprBank e.2
      ∃ n, exec (.pprDone td) s = .next n ∧ n.pending = s.pending ∧ n.dev.mem = s.dev.mem ∧ get SPARE_PPR_REQ_GO n.dev = 0 ∧
        n.dev.u.spare = { sp with ppr := sp.ppr.erase e, pprUsed := tinsert sp.pprUsed b (agetD sp.pprUsed b 0 + 1) } ∧
        plus SPARE_EVQ_LOST 1 n.dev ∧ n.dev.fld SPARE_PPR_STATUS SPARE_PPR_STATUS_REPAIRS td.val =
          satAdd 16 (s.dev.fld SPARE_PPR_STATUS SPARE_PPR_STATUS_REPAIRS td.val) 1)) ∧
    (let pdie := pdOf (port.val / 16)
     let lk := ukey 2 pdie (s.dev.lanePhys port.val lane.val)
     s.dev.unitSt lk = 0 → s.dev.unitLogical lk = 8 * port.val + lane.val →
      (∃ n m, exec (.laneLoss port lane false) s = .next n ∧ n.pending = s.pending ∧
        n.dev = (Tr.laneOut pdie (port.val % 16) lane.val).run m ∧ m.mem = s.dev.mem ∧ entered lk 3 m ∧ others [lk] m ∧
        plus SPARE_RETIREMENTS 1 m ∧ plus SPARE_EVQ_LOST 1 m) ∧
      (∀ j, s.dev.laneSpare lk = some j →
        ∃ n, exec (.laneLoss port lane true) s = .next n ∧ n.pending = s.pending ∧ n.dev.mem = s.dev.mem ∧ entered lk 3 n.dev ∧
          entered j 0 n.dev ∧ others [lk, j] n.dev ∧ n.dev.lanePhys port.val lane.val = ukIdx j ∧ plus SPARE_RETIREMENTS 1 n.dev ∧
          plus SPARE_SWAPS 1 n.dev ∧ plus SPARE_EVQ_LOST 2 n.dev))

/-- The package's states (R10, R635 to R637, R657 to R660, R663, R673, R678): what takes it to Night, from Night to Dawn, into Dusk and
out of it, and to Dawn when the host die is lost. Every die is reset then: every register but PWR_STATE (and the alert's cause) holds its
reset value, no command is under way, and every thread is idle. An event whose occasion is absent changes nothing. -/
def Obligations.PowerStates : Prop :=
  ∀ (s : State) (b : Bool) (die : TDie),
    let st := s.dev.state
    let boot := s.dev.u.boot
    let stays := fun (c : Instr) => exec c s = .next s
    let reset := fun (n : State) => n.pending = s.pending ∧ n.dev.u.cmd.cmds = [] ∧ n.dev.u.fab = { tx := n.dev.u.fab.tx } ∧
      n.dev.u.boot.ready = false ∧ n.dev.u.boot.lease = 0 ∧ (∀ pk t, pk < 672 → (n.dev.threadAt pk t).st = .idle)
    let onlyPower := fun (n : State) => n.dev.mem = s.dev.mem ∧ ∀ k, k ≠ PWR_STATE.key HD 0 0 → n.dev.get k = resetOf k
    let night := fun (n : State) => reset n ∧ onlyPower n ∧ n.dev.state = 0 ∧ n.dev.u.boot.fault = true
    let dawn := fun (cause : Nat) (n : State) => reset n ∧ n.dev.state = 1 ∧ n.dev.phase = 0 ∧ n.dev.fld PWR_STATE PWR_STATE_LAST_CAUSE HD = cause
    let alerts := fun (n : State) => n.dev.fld MGMT_ALERT MGMT_ALERT_CAUSE HD
    (∃ n, exec .pwrgoodDeassert s = .next n ∧ night n ∧ n.dev.u.boot.pwrGood = false ∧ n.dev.u.boot.resetN = boot.resetN) ∧
    (∃ n, exec .resetNAssert s = .next n ∧ night n ∧ n.dev.u.boot.resetN = true ∧ n.dev.u.boot.pwrGood = boot.pwrGood) ∧
    (∃ n, exec .inputUndervoltage s = .next n ∧ night n ∧ n.dev.u.boot.pwrGood = false) ∧
    (st ≠ 0 → ∃ n, exec (.refclkFault false) s = .next n ∧ night n ∧ n.dev.u.boot.pwrGood = false) ∧
    (s.dev.inPhase 0 = true → exec (.refclkFault true) s =
      .next { s with dev := { s.dev with u := { s.dev.u with boot := { boot with refclkBad := true, fault := true } } } }) ∧
    (s.dev.inPhase 0 = true → boot.refclkBad = true → exec .refclkRestored s =
      .next { s with dev := { s.dev with u := { s.dev.u with boot := { boot with refclkBad := false, fault := false } } } }) ∧
    (st = 0 → stays (.refclkFault b) ∧ ∃ n, exec (.nightExit b) s = .next n ∧ dawn 1 n ∧ onlyPower n ∧
      n.dev.u.boot.pwrGood = true ∧ n.dev.u.boot.resetN = false ∧ n.dev.u.boot.pufBad = !b) ∧
    (st ≠ 0 → stays (.nightExit b)) ∧
    (let due := st = 3 ∧ (s.dev.drained = true ∨
        s.dev.fld PWR_DUSK_CFG PWR_DUSK_CFG_TIMEOUT_MS HD * oneMs ≤ s.dev.elapsed - boot.duskAt)
     (¬ due → stays .duskEnd) ∧
     (due → boot.duskCause < 256 → ∃ n, exec .duskEnd s = .next n ∧ onlyPower n ∧
        if boot.duskNight then night n else dawn boot.duskCause n)) ∧
    (let low := s.dev.awake = true ∧ boot.lowTold = false ∧
        100 * s.dev.leaseLeft < s.dev.fld MGMT_LEASE_CFG MGMT_LEASE_CFG_LOW_PCT HD * boot.grant * oneMs
     (¬ low → stays .leaseLow) ∧
     (low → ∃ n, exec .leaseLow s = .next n ∧ n.pending = s.pending ∧ n.dev.mem = s.dev.mem ∧
        n.dev.u = { s.dev.u with boot := { boot with lowTold := true } } ∧ SameRegsBut [MGMT_ALERT.key HD 0 0] s n ∧
        alerts n = putBits (alerts s) 2 1 1)) ∧
    (¬ (st = 2 ∧ s.dev.leaseLeft = 0) → stays .leaseExpire) ∧
    (st = 2 → s.dev.leaseLeft = 0 → ∃ n, exec .leaseExpire s = .next n ∧ n.pending = s.pending ∧ n.dev.state = 3 ∧
      ((∀ t ∈ tds, s.dev.onQueues t = []) → s.dev.watched 0 = [] → s.dev.watched 1 = [] → (∀ sp, s.dev.peer? sp = none) →
        n.dev.mem = s.dev.mem ∧ SameRegsBut [PWR_STATE.key HD 0 0, BEAT_CTL.key HD 0 0] s n ∧ n.dev.runBit = false ∧
        n.dev.u.boot = { boot with mInt := boot.mInt + 1, duskAt := s.dev.elapsed, duskCause := 6, duskNight := false })) ∧
    (let lost := s.dev.awake = true ∧ (s.dev.link (4 + die.val)).up = true ∧ 100 * oneUs ≤ s.dev.elapsed - agetD boot.aliveAt die.val 0
     (¬ lost → stays (.hostHeartbeatTimeout die)) ∧
     (lost → ∃ n, exec (.hostHeartbeatTimeout die) s = .next n ∧ dawn 4 n ∧ alerts n = 2 ∧
        ∀ k, k ∉ [PWR_STATE.key HD 0 0, MGMT_ALERT.key HD 0 0] → n.dev.get k = resetOf k))

/-- What the custodian watches in Day (R651, R661, R663, R669, R681, R682): heartbeats every 10 µs to the tensor dies whose links are up,
the host watchdog, temperatures with throttling and the thermal trip, and the core rails' steps. -/
def Obligations.HeartbeatsAndTemperatures : Prop :=
  ∀ (s : State) (die : Die) (mv : BitVec 10) (temps hbm : List (BitVec 8)) (hold : BitVec 8) (v : Word),
    let boot := s.dev.u.boot
    let pwr := s.dev.u.pwr
    let stays := fun (c : Instr) => exec c s = .next s
    let expired := s.dev.flag BOOT_HOST_WDOG BOOT_HOST_WDOG_EXPIRED HD
    let wdog := fun (f : Fld) (n : State) => n.dev.fld BOOT_HOST_WDOG f HD
    (let due := s.dev.awake = true ∧ 10 * oneUs ≤ s.dev.elapsed - boot.beatAt
     (¬ due → stays .hostHeartbeat) ∧
     (due → ∃ n, exec .hostHeartbeat s = .next n ∧ n.pending = s.pending ∧ n.dev.mem = s.dev.mem ∧
        SameRegsBut (tds.map fun t => BOOT_TD_HB.key t 0 0) s n ∧ n.dev.u.boot.beatAt = s.dev.elapsed ∧
        ∀ t, t < 4 →
          if (s.dev.link (4 + t)).up then n.dev.fld BOOT_TD_HB BOOT_TD_HB_ALIVE t = b01 (!expired) ∧
            n.dev.fld BOOT_TD_HB BOOT_TD_HB_MISSED t = s.dev.fld BOOT_TD_HB BOOT_TD_HB_MISSED t ∧
            aget? n.dev.u.boot.aliveAt t = if expired then aget? boot.aliveAt t else some s.dev.elapsed
          else n.dev.fld BOOT_TD_HB BOOT_TD_HB_MISSED t = satAdd 32 (s.dev.fld BOOT_TD_HB BOOT_TD_HB_MISSED t) 1 ∧
            n.dev.fld BOOT_TD_HB BOOT_TD_HB_ALIVE t = s.dev.fld BOOT_TD_HB BOOT_TD_HB_ALIVE t ∧
            aget? n.dev.u.boot.aliveAt t = aget? boot.aliveAt t)) ∧
    (let late := s.dev.awake = true ∧ wdog BOOT_HOST_WDOG_TIMEOUT_MS s * oneMs ≤ s.dev.elapsed - boot.wdogAt
     (¬ late → stays .hostWdogExpire) ∧
     (late → ∃ n, exec .hostWdogExpire s = .next n ∧ n.pending = s.pending ∧ n.dev.mem = s.dev.mem ∧ n.dev.u = s.dev.u ∧
        SameRegsBut [BOOT_HOST_WDOG.key HD 0 0] s n ∧ wdog BOOT_HOST_WDOG_EXPIRED n = 1 ∧
        wdog BOOT_HOST_WDOG_TIMEOUT_MS n = wdog BOOT_HOST_WDOG_TIMEOUT_MS s)) ∧
    (∃ n, exec (.hostWdogKick v) s = .next n ∧ n.pending = s.pending ∧ n.dev.mem = s.dev.mem ∧ SameRegsBut [BOOT_HOST_WDOG.key HD 0 0] s n ∧
      wdog BOOT_HOST_WDOG_TIMEOUT_MS n = (if v.toNat % 2 ^ 16 = 0 then wdog BOOT_HOST_WDOG_TIMEOUT_MS s else v.toNat % 2 ^ 16) ∧
      n.dev.u = if v.getLsbD 16 then { s.dev.u with boot := { boot with wdogAt := s.dev.elapsed } } else s.dev.u) ∧
    (let hot := fun i => decide (95 < tempAt temps i ∨ i < 4 ∧ (List.range 3).any (fun k => 95 < tempAt hbm (3 * i + k)) = true)
     let critical := (∃ t ∈ temps, 110 < t.toNat) ∨ ∃ t ∈ hbm, 105 < t.toNat
     let old := s.dev.fld PWR_THERMAL PWR_THERMAL_THROTTLED HD
     (s.dev.state = 0 → stays (.temperatureSample temps hbm hold)) ∧
     (s.dev.state ≠ 0 → ∃ n, exec (.temperatureSample temps hbm hold) s = .next n ∧ n.pending = s.pending ∧
        n.dev.state = (if critical ∧ s.dev.awake = true then 3 else s.dev.state) ∧
        (critical → s.dev.awake = true → n.dev.u.boot.fault = true) ∧
        (¬ (critical ∧ s.dev.awake = true) → n.dev.mem = s.dev.mem ∧
          SameRegsBut [PWR_THERMAL.key HD 0 0, PWR_LEVEL.key HD 0 0, MGMT_ALERT.key HD 0 0] s n ∧
          n.dev.fld PWR_THERMAL PWR_THERMAL_HOTTEST_C HD = hottest (temps ++ hbm) ∧
          (∀ i, i < 7 → ((n.dev.fld PWR_THERMAL PWR_THERMAL_THROTTLED HD).testBit i = hot i)) ∧
          n.dev.fld MGMT_ALERT MGMT_ALERT_CAUSE HD = (let was := s.dev.fld MGMT_ALERT MGMT_ALERT_CAUSE HD
            if (List.range 7).any fun i => hot i && !old.testBit i then putBits was 4 1 1 else was) ∧
          ∀ t, t < 4 → agetD pwr.level t 0 < 4 → n.dev.fld PWR_LEVEL (levelFld t) HD =
            max (if hot t then max (agetD pwr.level t 0) 2 else agetD pwr.level t 0) (min 2 (bitsOf hold.toNat (2 * t) 2))))) ∧
    (let x := mv.toNat
     let good := 650 ≤ x ∧ x ≤ 800 ∧ x % 5 = 0
     let raise := s.dev.state = 2 ∧ x = s.dev.rail die.val + 5 ∧ die.val ∈ pwr.lowMargin ∧
       (∀ t, aget? pwr.raisedAt die.val = some t → 100 * oneMs ≤ s.dev.elapsed - t)
     (¬ (good ∧ (s.dev.inPhase 1 = true ∨ raise)) → stays (.avsSetpoint die mv)) ∧
     (good → s.dev.inPhase 1 = true ∨ raise → ∃ n, exec (.avsSetpoint die mv) s = .next n ∧ n.pending = s.pending ∧
        n.dev.mem = s.dev.mem ∧ n.dev.regs = s.dev.regs ∧ n.dev.rail die.val = x ∧
        (∀ e, e ≠ die.val → n.dev.rail e = s.dev.rail e) ∧ die.val ∉ n.dev.u.pwr.lowMargin ∧
        (raise → aget? n.dev.u.pwr.raisedAt die.val = some s.dev.elapsed)))

/-- Die-to-die links (R18, R19, R20, R23, R27, R663): one trains in phase SELFTEST, keeps the lower version and the common features, and
each die's word shows; it goes down to retrain and is up again within 1 ms with nothing lost; where in Day or Dusk its words have changed, or
it is late, it is lost, and the package passes through Dawn with cause 5. -/
def Obligations.LinksBetweenDies : Prop :=
  ∀ (s : State) (l : LinkId) (modules : BitVec 24) (wa wb : Word128),
    let x := s.dev.link l.val
    let a := (linkEnds l.val).1
    let b := (linkEnds l.val).2
    let ms := modules.toNat % 2 ^ linkModules l.val
    let only := fun (y : LinkSt) (n : State) => n.pending = s.pending ∧ n.dev.mem = s.dev.mem ∧ n.dev.regs = s.dev.regs ∧
      { n.dev.u with links := s.dev.u.links } = s.dev.u ∧ n.dev.link l.val = y ∧ ∀ j, j ≠ l.val → n.dev.link j = s.dev.link j
    (s.dev.inPhase 1 = true ∨ s.dev.inPhase 0 = true ∧ s.dev.u.boot.refclkBad = false → s.dev.flag BOOT_STATUS BOOT_STATUS_HELD HD = false →
      x.up = false →
      ∃ n, exec (.linkUp l modules wa wb none) s = .next n ∧ n.pending = s.pending ∧ n.dev.mem = s.dev.mem ∧ n.dev.phase = 1 ∧
        n.dev.link l.val = { up := decide (ms ≠ 0), modules := ms, wordA := wa.toNat, wordB := wb.toNat,
                             version := min (wa.toNat % 65536) (wb.toNat % 65536),
                             feats := bitsOf wa.toNat 96 16 &&& bitsOf wb.toNat 96 16 } ∧
        (∀ m, m < linkModules l.val → n.dev.unitSt (moduleKey l.val m) = if ms.testBit m then s.dev.unitSt (moduleKey l.val m) else 3) ∧
        (ms ≠ 0 → Holds n.dev BOOT_CAP_SELF_LO a 0 0 wa.toNat ∧ Holds n.dev BOOT_CAP_SELF_HI a 0 0 (wa.toNat / 2 ^ 64) ∧
          Holds n.dev BOOT_CAP_SELF_LO b 0 0 wb.toNat ∧ Holds n.dev BOOT_CAP_DIE_LO HD a 0 wa.toNat ∧
          Holds n.dev BOOT_CAP_DIE_LO HD b 0 wb.toNat ∧ Holds n.dev BOOT_CAP_DIE_HI HD b 0 (wb.toNat / 2 ^ 64))) ∧
    (x.up = true → ∃ n, exec (.linkDown l) s = .next n ∧ only { x with up := false, downAt := some s.dev.elapsed } n) ∧
    (x.up = false → exec (.linkDown l) s = .next s) ∧
    (x.downAt.isSome = true → x.lost = false → s.dev.linkLate l.val = false →
      ∃ n, exec (.linkRetrainDone l wa wb) s = .next n ∧
        only (if s.dev.awake = true ∧ (wa.toNat ≠ x.wordA ∨ wb.toNat ≠ x.wordB) then { x with lost := true }
              else { x with up := true, downAt := none }) n) ∧
    (s.dev.awake = true → x.lost = true ∨ s.dev.linkLate l.val = true →
      ∃ n, exec (.linkLost l) s = .next n ∧ n.pending = s.pending ∧ n.dev.state = 1 ∧
        n.dev.fld PWR_STATE PWR_STATE_LAST_CAUSE HD = 5 ∧ n.dev.fld MGMT_ALERT MGMT_ALERT_CAUSE HD = 2 ∧ n.dev.u.cmd.cmds = [] ∧
        ∀ k, k ∉ [PWR_STATE.key HD 0 0, MGMT_ALERT.key HD 0 0] → n.dev.get k = resetOf k) ∧
    (s.dev.awake = false → exec (.linkLost l) s = .next s)

/-- Dawn from self-test to READY (R24, R26, R87, R340, R638, R639, R641, R642, R644, R647, R648, R650): what ends self-test and holds the
package or lets it await an image; the identity; an image verified by the first step of R648 that fails, and loaded. Causes stand in
the order self-test, link-up, HBM, a choice of the model (log 46), as is where a component goes (log 45). -/
def Obligations.BootPhases : Prop :=
  ∀ (s : State) (failed : List (BitVec 28)) (sram : Option Die) (rows cols : List (BitVec 16)) (hbmBad : Option (Fin 12))
      (length : BitVec 56) (status : BitVec 16) (image : List Byte) (ingAt collAt : List (BitVec 41)),
    let boot := s.dev.u.boot
    let held := fun (reason detail phase : Nat) (m : Dev) => m.flag BOOT_STATUS BOOT_STATUS_HELD HD = true ∧ m.phase = phase ∧
      Holds m BOOT_HOLD HD 0 0 (reason + detail % 65536 * 65536) ∧ m.u.boot.fault = true ∧
      (m.fld MGMT_ALERT MGMT_ALERT_CAUSE HD).testBit 3 = true
    let stat := fun (f : Fld) (m : Dev) => m.fld MGMT_CMD_STATUS f HD
    let goes := fun (m : Dev) => m.flag BOOT_STATUS BOOT_STATUS_HELD HD = false ∧
      m.u.boot.fault = (boot.fault && !s.dev.flag BOOT_STATUS BOOT_STATUS_HELD HD)
    let idle := s.dev.flag MGMT_CMD_STATUS MGMT_CMD_STATUS_BUSY HD = false
    let refuses := fun (c : Instr) (e : Nat) => ∃ n, exec c s = .next n ∧ n.pending = s.pending ∧ n.dev.mem = s.dev.mem ∧
      n.dev.u = s.dev.u ∧ SameRegsBut [MGMT_CMD_STATUS.key HD 0 0] s n ∧ stat MGMT_CMD_STATUS_ERR n.dev = e
    let key := fun (h : List Byte) => (List.range 1952).map (Config.identityKey h)
    let ident := fun (h : List Byte) (m : Dev) => m.u.boot.idHelper = h ∧ m.u.boot.idPub = some (key h) ∧ goes m ∧
      m.fld SEC_STATUS SEC_STATUS_IDENTITY HD = 1 ∧ stat MGMT_CMD_STATUS_ERR m = 0 ∧ m.phase = 2
    let verify := fun (len : Nat) (fabric : Bool) (m : Dev) => m.phase = 3 ∧ stat MGMT_CMD_STATUS_BUSY m = 1 ∧ goes m ∧
      stat MGMT_CMD_STATUS_ERR m = 0 ∧ m.u.boot.imageLen = len ∧ m.u.boot.fabricBoot = fabric
    (s.dev.inPhase 1 = true ∨ s.dev.inPhase 0 = true ∧ boot.refclkBad = false → s.dev.flag BOOT_STATUS BOOT_STATUS_HELD HD = false →
      s.dev.capWord HD ≠ 0 →
      let units := (failed.map (·.toNat)).filter fun k =>
        unitExists (ukKind k) (ukDie k) (ukIdx k) && [0, 1, 2, 4, 5].contains (ukKind k)
      let sp : SpareSt := { s.dev.u.spare with failed := units }
      let serving := fun (t : Nat) => (List.range 168).filter fun p => sp.dawnState 0 t p = 0
      ∃ n, exec (.dawnSelftestDone failed sram rows cols hbmBad) s = .next n ∧ n.pending = s.pending ∧ n.dev.u.spare.failed = units ∧
        (∀ t l p, t < 4 → (serving t)[l]? = some p → Holds n.dev CELL_MAP t l 0 (p + p / 14 * 2 ^ 8 + p % 14 * 2 ^ 12)) ∧
        (s.dev.refusal = none → ∀ die ∈ allDies, Holds n.dev BOOT_CAP_EFF_LO die 0 0 s.dev.effective.1 ∧
          Holds n.dev BOOT_CAP_EFF_HI die 0 0 s.dev.effective.2) ∧
        match sp.fewCells, sp.short.or (sram.map (·.val)), s.dev.refusal, hbmBad with
        | some t, _, _, _ => held 2 t 1 n.dev
        | none, some t, _, _ => held 3 t 1 n.dev
        | none, none, some r, _ => held 1 (n.dev.reg BOOT_LINKUP_STATUS HD).toNat 1 n.dev ∧
            Holds n.dev BOOT_LINKUP_STATUS HD 0 0 (3 + r.1 * 16 + r.2.1 * 256 + r.2.2 * 2 ^ 16 + s.dev.effective.1 % 256 * 2 ^ 24 +
              s.dev.effective.1 / 256 * 2 ^ 32)
        | none, none, none, some k => held 6 k.val 1 n.dev
        | none, none, none, none => n.dev.phase = 2 ∧ n.dev.flag BOOT_STATUS BOOT_STATUS_HELD HD = false ∧
            n.dev.u.boot.fault = boot.fault ∧ ∀ a, a < 4 * hbmWindow → n.dev.byte a = 0) ∧
    (idle → boot.idPub.isSome = true → s.dev.awake = false → s.dev.state ≠ 0 → refuses .identity 2 ∧ refuses .enroll 2) ∧
    (idle → boot.idPub = none → s.dev.state = 2 → refuses .identity 4 ∧ refuses .enroll 4 ∧ refuses (.imageReady length) 2) ∧
    (idle → boot.idPub = none → s.dev.inPhase 2 = true →
      (boot.pufBad = false → let h := bufBytes boot.helper 0 4096
        ∃ n, exec .identity s = .next n ∧ n.pending = s.pending ∧ n.dev.mem = s.dev.mem ∧
          if Config.helperGood h then ident h n.dev else held 9 0 2 n.dev ∧ n.dev.u.boot.idPub = none ∧ stat MGMT_CMD_STATUS_ERR n.dev = 3) ∧
      (∃ n h, exec .enroll s = .next n ∧ n.pending = s.pending ∧ n.dev.mem = s.dev.mem ∧ ident h n.dev ∧
        bufBytes n.dev.u.boot.helper 0 4096 = h ∧ n.dev.fld SEC_STATUS SEC_STATUS_ENROLLED HD = 1) ∧
      refuses (.imageReady length) 2 ∧ refuses (.fabricBoot status image) 2) ∧
    (idle → boot.idPub.isSome = true → s.dev.inPhase 2 = true →
      (∃ n, exec (.imageReady length) s = .next n ∧ n.pending = s.pending ∧ n.dev.mem = s.dev.mem ∧ verify length.toNat false n.dev ∧
        n.dev.u.boot.staging = boot.staging) ∧
      (let len := s.dev.fld BOOT_FABRIC_LEN BOOT_FABRIC_LEN_VALUE HD
       ∃ n, exec (.fabricBoot status image) s = .next n ∧ n.pending = s.pending ∧ n.dev.mem = s.dev.mem ∧
        if status.toNat = stOK then verify len true n.dev ∧
          ∀ i, agetD n.dev.u.boot.staging i 0 = (image.take (min len (64 * 2 ^ 20))).getD i 0
        else held 8 status.toNat 2 n.dev ∧ n.dev.u.boot.staging = boot.staging)) ∧
    (s.dev.inPhase 3 = false → exec .imageVerifyDone s = .next s) ∧
    (s.dev.inPhase 3 = true → ∃ n, exec .imageVerifyDone s = .next n ∧ n.pending = s.pending ∧ n.dev.mem = s.dev.mem ∧
      stat MGMT_CMD_STATUS_BUSY n.dev = 0 ∧
      match imageFault s.dev.image boot.imageLen with
      | some f => held 7 f 2 n.dev
      | none => n.dev.phase = 4 ∧ n.dev.u.boot = { boot with
          version := leAt s.dev.image 8 8, manifest := sha3 (s.dev.image.take 4064), comps := imageComps s.dev.image }) ∧
    (s.dev.inPhase 4 = false → exec (.imageLoadDone ingAt collAt) s = .next s) ∧
    (s.dev.inPhase 4 = true →
      let size := fun t => ((boot.comps.find? (·.1 = t)).map fun c => c.2.2.1).getD 0
      let osAt := cdiv (size 2) (2 * 2 ^ 20) * (2 * 2 ^ 20)
      let info := cdiv (if (boot.comps.find? (·.1 = 7)).isSome then osAt + size 7 else size 2) 4096 * 4096
      ∃ n, exec (.imageLoadDone ingAt collAt) s = .next n ∧ n.pending = s.pending ∧ n.dev.phase = 5 ∧ n.dev.u.boot = boot ∧
        Holds n.dev BOOT_INFO HD 0 0 info ∧
        ∀ t, t < 4 → n.dev.fld ING_IMAGE ING_IMAGE_BASE t = s.dev.globalOf (ingAt.getD t 0).toNat / 4096 % 2 ^ ING_IMAGE_BASE.w)

/-- The management port (R636, R651, R653, R654, R657, R659, R660, R664 to R666): its commands and the errors they are refused with, the
data window with its CRC, leases granted by register or by signed message, and attestation reports. -/
def Obligations.ManagementPort : Prop :=
  ∀ (s : State) (code : BitVec 8) (v : Word) (who : Requester) (frame : List Byte),
    let boot := s.dev.u.boot
    let st := s.dev.state
    let idle := s.dev.flag MGMT_CMD_STATUS MGMT_CMD_STATUS_BUSY HD = false
    let stat := fun (f : Fld) (m : Dev) => m.fld MGMT_CMD_STATUS f HD
    let stays := fun (c : Instr) => exec c s = .next s
    let quiet := fun (n : State) => n.pending = s.pending ∧ n.dev.mem = s.dev.mem
    let refuses := fun (c : Instr) (e : Nat) => ∃ n, exec c s = .next n ∧ quiet n ∧ n.dev.u = s.dev.u ∧
      SameRegsBut [MGMT_CMD_STATUS.key HD 0 0] s n ∧ stat MGMT_CMD_STATUS_ERR n.dev = e
    let bootIs := fun (b : BootSt) (n : State) => n.dev.u = { s.dev.u with boot := b }
    let t := s.dev.dwAt.1
    let o := s.dev.dwAt.2
    let moved := fun (bs : List Byte) (m : Dev) => m.dwAt = (t, (o + 8) % 2 ^ 26) ∧
      Holds m MGMT_DW_CRC HD 0 0 (crcMore (s.dev.reg MGMT_DW_CRC HD).toNat bs)
    let granted := fun (ms : Nat) (b : BootSt) => { b with lease := ms * oneMs, leaseAt := s.dev.elapsed, grant := ms, lowTold := false }
    (¬ idle → ∀ c ∈ [.mgmtCmdUnknown code, .duskReset, .duskOff, .resetNow, .debugOn, .attest], stays c) ∧
    (idle → st = 3 → ∀ c ∈ [.mgmtCmdUnknown code, .duskReset, .duskOff, .debugOn, .attest], refuses c 4) ∧
    (idle → st = 1 → refuses .duskReset 4 ∧ refuses .duskOff 4) ∧
    (idle → st = 1 ∨ st = 2 → code.toNat = 0 ∨ 9 < code.toNat → refuses (.mgmtCmdUnknown code) 1) ∧
    (idle → st = 2 →
      (∃ n, exec .duskReset s = .next n ∧ n.pending = s.pending ∧ n.dev.state = 3 ∧ n.dev.runBit = false ∧
        stat MGMT_CMD_STATUS_ERR n.dev = 0 ∧ ((∀ die ∈ tds, s.dev.onQueues die = []) →
          n.dev.u.boot.duskCause = 3 ∧ n.dev.u.boot.duskNight = false ∧ n.dev.u.boot.duskAt = s.dev.elapsed)) ∧
      (∃ n, exec .duskOff s = .next n ∧ n.pending = s.pending ∧ n.dev.state = 3 ∧ n.dev.runBit = false ∧
        stat MGMT_CMD_STATUS_ERR n.dev = 0 ∧ ((∀ die ∈ tds, s.dev.onQueues die = []) →
          n.dev.u.boot.duskCause = 1 ∧ n.dev.u.boot.duskNight = true ∧ n.dev.u.boot.duskAt = s.dev.elapsed))) ∧
    (idle → st ≠ 0 → ∃ n, exec .resetNow s = .next n ∧ n.pending = s.pending ∧ n.dev.state = 1 ∧
      n.dev.fld PWR_STATE PWR_STATE_LAST_CAUSE HD = 2 ∧ n.dev.u.cmd.cmds = [] ∧
      ∀ k, k ≠ PWR_STATE.key HD 0 0 → n.dev.get k = resetOf k) ∧
    (idle → st = 1 ∨ st = 2 →
      (∃ n, exec .debugOn s = .next n ∧ quiet n ∧ n.dev.u = s.dev.u ∧ n.dev.flag BOOT_STATUS BOOT_STATUS_DEBUG HD = true ∧
        n.dev.fld SEC_STATUS SEC_STATUS_DEBUG_SEEN HD = 1 ∧ stat MGMT_CMD_STATUS_ERR n.dev = 0) ∧
      (boot.idPub = none → refuses .attest 2) ∧
      (boot.idPub.isSome = true → ∃ n, exec .attest s = .next n ∧ quiet n ∧ stat MGMT_CMD_STATUS_BUSY n.dev = 1 ∧
        stat MGMT_CMD_STATUS_ERR n.dev = 0 ∧ bootIs { boot with atts := boot.atts ++ [{ nonce := s.dev.nonce, toMem := false }] } n)) ∧
    (who ≠ .hostM → stays (.secAttGo who)) ∧
    (s.dev.awake = true → s.dev.flag SEC_ATT_CTL SEC_ATT_CTL_GO HD = false → ∃ n, exec (.secAttGo .hostM) s = .next n ∧ quiet n ∧
      n.dev.flag SEC_ATT_CTL SEC_ATT_CTL_GO HD = true ∧
      bootIs { boot with atts := boot.atts ++ [{ nonce := s.dev.nonce, toMem := true }] } n) ∧
    (boot.atts = [] → stays .attestReportDone) ∧
    (∀ a rest, boot.atts = a :: rest →
      let body := s.dev.reportBody a.nonce
      let r := body ++ (List.range 3309).map (Config.mldsaSign boot.idHelper body)
      let ga := s.dev.fld SEC_ATT_ADDR SEC_ATT_ADDR_ADDR HD * 64
      ∃ n m, exec .attestReportDone s = .next n ∧ n.pending = s.pending ∧ m.mem = s.dev.mem ∧
        m.u = { s.dev.u with boot := { boot with report := r, atts := rest } } ∧ m.fld SEC_STATUS SEC_STATUS_REPORT HD = 1 ∧
        n.dev = (if a.toMem then Tr.seq [.custodianWrite (ga + 4) (r.drop 4), .custodianWrite ga (r.take 4), .fld SEC_ATT_CTL SEC_ATT_CTL_GO HD 0]
          else .mgmtBusy false).run m) ∧
    (∃ n, exec (.mgmtDwAddrWrite v) s = .next n ∧ quiet n ∧ n.dev.u = s.dev.u ∧ n.dev.reg MGMT_DW_CRC HD = 0 ∧
      n.dev.dwAt = (v.toNat / 2 ^ 60, v.toNat / 8 * 8 % 2 ^ 26) ∧ SameRegsBut [MGMT_DW_ADDR.key HD 0 0, MGMT_DW_CRC.key HD 0 0] s n) ∧
    (s.dev.dwOpen t o true = false → ∃ n, exec (.mgmtDwDataWrite v) s = .next n ∧ quiet n ∧ n.dev.u = s.dev.u ∧
      SameRegsBut [MGMT_CMD_STATUS.key HD 0 0] s n ∧ stat MGMT_CMD_STATUS_DW_ERR n.dev = 1) ∧
    (s.dev.dwOpen t o true = true →
      let bs := leBytes 8 v.toNat
      let put := fun (l : List (Nat × Byte)) (i : Nat) => if o ≤ i ∧ i < o + 8 then bs.getD (i - o) 0 else agetD l i 0
      ∃ n, exec (.mgmtDwDataWrite v) s = .next n ∧ quiet n ∧ moved bs n.dev ∧
        (t = 0 → ∀ i, agetD n.dev.u.boot.staging i 0 = put boot.staging i) ∧
        (t = 1 → ∀ i, agetD n.dev.u.boot.helper i 0 = put boot.helper i) ∧
        (t = 4 → n.dev.fld MGMT_LEASE_CFG MGMT_LEASE_CFG_KEY_SET HD = 1 ∧ ∃ k, n.dev.u.boot.leaseKey = some k ∧ k.length = 32 ∧
          ∀ i, i < 32 → k.getD i 0 = if o ≤ i ∧ i < o + 8 then bs.getD (i - o) 0 else (boot.leaseKey.getD []).getD i 0)) ∧
    (s.dev.dwOpen t o false = false → ∃ n, exec .mgmtDwDataRead s = .next n ∧ quiet n ∧ n.dev.u.rdata = s.dev.u.rdata ++ [0] ∧
      SameRegsBut [MGMT_CMD_STATUS.key HD 0 0] s n ∧ stat MGMT_CMD_STATUS_DW_ERR n.dev = 1) ∧
    (s.dev.dwOpen t o false = true → let bs := s.dev.dwBytes t o
      ∃ n, exec .mgmtDwDataRead s = .next n ∧ quiet n ∧ moved bs n.dev ∧ n.dev.u = { s.dev.u with rdata := s.dev.u.rdata ++ [w64 (leNat bs)] }) ∧
    (let ms := v.toNat % 2 ^ 20
     (ms = 0 ∨ 600000 < ms → stays (.leaseGrant v)) ∧
     (0 < ms → ms ≤ 600000 → ∃ n, exec (.leaseGrant v) s = .next n ∧ quiet n ∧
       if s.dev.inPhase 5 then n.dev.state = 2 ∧ n.dev.phase = 6 ∧ n.dev.flag BOOT_HOST_WDOG BOOT_HOST_WDOG_EXPIRED HD = false ∧
         bootIs { granted ms boot with ready := true, wdogAt := s.dev.elapsed, beatAt := s.dev.elapsed,
                                       aliveAt := tds.map fun d => (d, s.dev.elapsed) } n
       else n.dev.regs = s.dev.regs ∧ bootIs (granted ms boot) n)) ∧
    (s.dev.flag MGMT_ETH_CFG MGMT_ETH_CFG_EN HD = false → stays (.leaseMessage frame)) ∧
    (s.dev.flag MGMT_ETH_CFG MGMT_ETH_CFG_EN HD = true →
      (∀ m, s.dev.leaseOf frame = some m →
        (s.dev.leaseGood m = true → s.dev.inPhase 5 = false → ∃ n, exec (.leaseMessage frame) s = .next n ∧ quiet n ∧
          n.dev.regs = s.dev.regs ∧ bootIs { granted (leAt m 16 4) boot with lastCounter := leAt m 8 8 } n) ∧
        (s.dev.leaseGood m = false → ∃ n, exec (.leaseMessage frame) s = .next n ∧ quiet n ∧ n.dev.u = s.dev.u ∧
          SameRegsBut [MGMT_LEASE_CFG.key HD 0 0] s n ∧ n.dev.fld MGMT_LEASE_CFG MGMT_LEASE_CFG_REFUSED HD =
            satAdd 32 (s.dev.fld MGMT_LEASE_CFG MGMT_LEASE_CFG_REFUSED HD) 1)) ∧
      (s.dev.leaseOf frame = none → ∃ n, exec (.leaseMessage frame) s = .next n ∧ quiet n ∧ n.dev.regs = s.dev.regs ∧
        bootIs { boot with ethTx := boot.ethTx ++ (s.dev.mgmtReply frame).toList } n))

/-- Device time (R46 to R50, R52 to R59, R62): reading it, setting and stepping it, which a package told to run refuses; the rate and its
clamp; the sources, their lock and their loss; the captured second; the reference outputs; PTP as client and as grandmaster; and one idle
step, 50 ns at the adjusted rate (log 7). -/
def Obligations.DeviceTime : Prop :=
  ∀ (s : State) (v : Word) (first : BitVec 48) (meas : List (BitVec 48)) (adj : Option (BitVec 40)) (m : PtpMsg)
      (cls acc prio1 prio2 : BitVec 8),
    let t := s.dev.u.time
    let fld := fun (r : Reg) (f : Fld) (n : State) => n.dev.fld r f HD
    let timeIs := fun (x : TimeSt) (n : State) => n.pending = s.pending ∧ n.dev.mem = s.dev.mem ∧ n.dev.u = { s.dev.u with time := x }
    let regsBut := fun (l : List Reg) (n : State) => SameRegsBut (l.map fun r => r.key HD 0 0) s n
    let stays := fun (c : Instr) => exec c s = .next s
    let refused := fun (c : Instr) => ∃ n, exec c s = .next n ∧ timeIs t n ∧ regsBut [TIME_STATUS] n ∧ fld TIME_STATUS TIME_STATUS_STEP_REFUSED n = 1
    let clamp := fun (x : Nat) (run : Bool) => unsigned 40 (let lim : Int := if run then 28147497671 else 281474976711
      max (-lim) (min lim (signed 40 x)))
    let small := fun (x : BitVec 48) => (signed 48 x.toNat).natAbs < 8 * 2 ^ 16
    let src := fld TIME_CTL TIME_CTL_SRC s
    let role := fld TIME_CTL TIME_CTL_PTP_ROLE s
    let lost := 2 * oneSec ≤ s.dev.elapsed - t.lastMeas ∨ src = 3 ∧ s.dev.upstreamUp = false
    let mine := s.dev.flag MGMT_ETH_CFG MGMT_ETH_CFG_EN HD = true ∧ m.domain.toNat = fld TIME_CTL TIME_CTL_PTP_DOMAIN s ∧
      m.transport.toNat = fld TIME_CTL TIME_CTL_PTP_TRANSPORT s
    let out := fun (en : Fld) => s.dev.flag TIME_CTL en HD = true ∧ s.dev.flag TIME_STATUS TIME_STATUS_VALID HD = true
    (∃ n, exec .timeNowRead s = .next n ∧ n.pending = s.pending ∧ n.dev.mem = s.dev.mem ∧ n.dev.u.time = t ∧
      n.dev.u.rdata = s.dev.u.rdata ++ [w64 (t.now / 2 ^ 64)] ∧ regsBut [TIME_NOW_FRAC] n ∧
      fld TIME_NOW_FRAC TIME_NOW_FRAC_FRAC n = t.now % 2 ^ 64 / 2 ^ 48) ∧
    (s.dev.runBit = true → refused (.timeSet v) ∧ refused (.timeStep v)) ∧
    (s.dev.runBit = false →
      (∃ n, exec (.timeSet v) s = .next n ∧ timeIs { t with now := v.toNat * 2 ^ 64 } n ∧ regsBut [TIME_STATUS] n ∧
        fld TIME_STATUS TIME_STATUS_VALID n = 1) ∧
      (∃ n, exec (.timeStep v) s = .next n ∧ timeIs { t with now := ((t.now : Int) + v.toInt * 2 ^ 64).toNat } n ∧ n.dev.regs = s.dev.regs)) ∧
    (∃ n, exec (.timeRateWrite v) s = .next n ∧ timeIs t n ∧ regsBut [TIME_RATE] n ∧
      fld TIME_RATE TIME_RATE_ADJ n = clamp (v.toNat % 2 ^ 40) s.dev.runBit) ∧
    (∃ n, exec (.timeCtlSrcChange v) s = .next n ∧ n.pending = s.pending ∧ n.dev.mem = s.dev.mem ∧ regsBut [TIME_CTL, TIME_STATUS] n ∧
      (let w := v.toNat % 8
       let kept := 3 < w ∨ w = src
       fld TIME_CTL TIME_CTL_SRC n = (if kept then src else w) ∧
       (kept → n.dev.u = s.dev.u ∧ regsBut [TIME_CTL] n) ∧
       (¬ kept → n.dev.u.time = { t with good := 0, lastMeas := t.elapsed } ∧ fld TIME_STATUS TIME_STATUS_LOCKED n = 0 ∧
         fld TIME_STATUS TIME_STATUS_HOLDOVER n = if w = 0 then 0 else fld TIME_STATUS TIME_STATUS_HOLDOVER s)) ∧
      fld TIME_CTL TIME_CTL_PTP_DOMAIN n = bitsOf v.toNat 20 8 ∧
      fld TIME_CTL TIME_CTL_PPS_OUT_EN n = bitsOf v.toNat 28 1) ∧
    (s.dev.measures = false → stays (.sourceLock first meas adj)) ∧
    (s.dev.measures = true → ∃ n, exec (.sourceLock first meas adj) s = .next n ∧ n.pending = s.pending ∧ n.dev.mem = s.dev.mem ∧
      (let x := signed 48 first.toNat
       n.dev.u.time.now = if t.everLocked = false ∧ s.dev.runBit = false ∧ 10 ^ 6 * 2 ^ 16 < x.natAbs then ((t.now : Int) - x * 2 ^ 48).toNat else t.now) ∧
      n.dev.u.time.elapsed = t.elapsed ∧ (∀ x, meas.getLast? = some x → Holds n.dev TIME_OFFSET HD 0 0 x.toNat) ∧
      (∀ a, adj = some a → fld TIME_RATE TIME_RATE_ADJ n = clamp a.toNat s.dev.runBit) ∧
      ((∀ x ∈ meas, small x) → n.dev.u.time.good = t.good + meas.length ∧ (16 ≤ t.good + meas.length → meas ≠ [] →
        fld TIME_STATUS TIME_STATUS_LOCKED n = 1 ∧ fld TIME_STATUS TIME_STATUS_VALID n = 1 ∧ fld TIME_STATUS TIME_STATUS_HOLDOVER n = 0)) ∧
      (∀ x, meas.getLast? = some x → ¬ small x → n.dev.u.time.good = 0) ∧
      (t.good + meas.length < 16 → regsBut [TIME_OFFSET, TIME_RATE] n)) ∧
    (¬ (src ≠ 0 ∧ fld TIME_STATUS TIME_STATUS_HOLDOVER s = 0 ∧ lost) → stays .sourceLost) ∧
    (src ≠ 0 → fld TIME_STATUS TIME_STATUS_HOLDOVER s = 0 → lost → ∃ n, exec .sourceLost s = .next n ∧ timeIs { t with good := 0 } n ∧
      regsBut [TIME_STATUS, MGMT_ALERT] n ∧ fld TIME_STATUS TIME_STATUS_LOCKED n = 0 ∧ fld TIME_STATUS TIME_STATUS_HOLDOVER n = 1 ∧
      fld TIME_STATUS TIME_STATUS_SRC_LOST n = 1 ∧ fld TIME_STATUS TIME_STATUS_VALID n = fld TIME_STATUS TIME_STATUS_VALID s ∧
      (fld MGMT_ALERT MGMT_ALERT_CAUSE n).testBit 5 = true) ∧
    (∃ n, exec .ppsInEdge s = .next n ∧ timeIs t n ∧ regsBut [TIME_PPS_CAPTURE, TIME_PPS_CAPTURE_FRAC] n ∧
      Holds n.dev TIME_PPS_CAPTURE HD 0 0 (t.now / 2 ^ 64) ∧ fld TIME_PPS_CAPTURE_FRAC TIME_PPS_CAPTURE_FRAC_FRAC n = t.now % 2 ^ 64 / 2 ^ 48) ∧
    (∃ n, exec .ppsOut s = .next n ∧ n.dev.regs = s.dev.regs ∧
      timeIs (if out TIME_CTL_PPS_OUT_EN ∧ t.now % oneSec < s.dev.tickLen then { t with ppsSecond := t.now / oneSec + 1 } else t) n) ∧
    (∃ n, exec .ref10mOut s = .next n ∧ n.dev.regs = s.dev.regs ∧
      timeIs (if out TIME_CTL_REF10M_OUT_EN ∧ t.now % (100 * oneNs) < s.dev.tickLen then { t with refCount := t.now / (100 * oneNs) + 1 } else t) n) ∧
    (¬ mine → stays (.ptpMessage m)) ∧
    (mine → ∃ n, exec (.ptpMessage m) s = .next n ∧ n.dev.regs = s.dev.regs ∧
      timeIs (let at_ := t.now / 2 ^ 48
        if m.kind = .delayReq then (if role = 2 then { t with ptpStamp := at_, ptpSent := t.ptpSent ++ [(at_, at_)] } else t)
        else if role ≠ 1 then t
        else if m.kind = .announce then { t with ptpStamp := at_, ptpMaster := some (min (t.ptpMaster.getD m.dataset.toNat) m.dataset.toNat) }
        else { t with ptpStamp := at_ }) n) ∧
    (let sends := s.dev.flag MGMT_ETH_CFG MGMT_ETH_CFG_EN HD = true ∧ role = 2
     (¬ sends → stays (.ptpAnnounceSend cls acc prio1 prio2)) ∧
     (sends → ∃ n, exec (.ptpAnnounceSend cls acc prio1 prio2) s = .next n ∧ n.dev.regs = s.dev.regs ∧
       timeIs { t with announced := t.announced ++ [(t.now / 2 ^ 48, prio1.toNat * 2 ^ 24 + cls.toNat * 2 ^ 16 + acc.toNat * 2 ^ 8 + prio2.toNat)] } n)) ∧
    (s.pending = [] → s.dev.u.cells = [] →
      step s = .next { s with dev := { s.dev with u := { s.dev.u with
        time := { t with now := t.now + s.dev.tickLen, elapsed := t.elapsed + s.dev.tickLen } } } })

/-- Beats (R64 to R71, R74, R75, R77 to R79, R94, R95, R97, R98): the edge when it comes, complete, incomplete or the last; what an edge
sets, how the cells begin a beat and a thread starts; running, stopping and committing a plan; what is applied while beats do not run; and
the end of a cell's copy. -/
def Obligations.Beats : Prop :=
  ∀ (s : State) (v : Word) (c : PCell) (bad : List Nat),
    let b := s.dev.u.beat
    let n := b.nextEdge
    let B := s.dev.beatIdx
    let stays := fun (i : Instr) => exec i s = .next s
    let fld := fun (r : Reg) (f : Fld) (m : Dev) => m.fld r f HD
    let beatIs := fun (x : BeatSt) (m : Dev) => m.mem = s.dev.mem ∧ m.u = { s.dev.u with beat := x }
    let regsBut := fun (l : List Reg) (m : Dev) => ∀ k, (∀ r ∈ l, k ≠ r.key HD 0 0) → m.get k = s.dev.get k
    let due := (s.dev.running = true ∨ b.starting = true) ∧ s.dev.origin + n * s.dev.period ≤ s.dev.u.time.now
    let quiet := s.dev.u.fab.colls = []
    let slip := n - B
    let budgeted := fun (x : Nat) (m : Dev) => (if v.toNat / 2 ^ 8 % 2 ^ 8 = 0 then x else v.toNat / 2 ^ 8 % 2 ^ 8) =
      fld BEAT_CTL BEAT_CTL_SLIP_BUDGET m ∧ fld BEAT_CTL BEAT_CTL_NOTIFY_QUEUE m = v.toNat / 2 ^ 16 % 2 ^ 16
    (¬ due → stays .beatEdge) ∧
    (due → s.dev.running = true → quiet → s.dev.workDone = false →
      ∃ t m, exec .beatEdge s = .next t ∧ t.pending = s.pending ∧ t.dev = (Tr.slipCheck n).run m ∧ beatIs { b with nextEdge := n + 1 } m ∧
        regsBut [BEAT_SLIPS] m ∧ fld BEAT_SLIPS COUNT m = satAdd 48 (fld BEAT_SLIPS COUNT s.dev) 1 ∧
        (slip ≠ 0 → slip ≤ fld BEAT_CTL BEAT_CTL_SLIP_BUDGET s.dev → beatIs { b with nextEdge := n + 1 } t.dev ∧
          fld BEAT_STATUS BEAT_STATUS_SLIP t.dev = min slip 255 ∧ regsBut [BEAT_SLIPS, BEAT_STATUS] t.dev)) ∧
    (due → s.dev.running = true → quiet → s.dev.workDone = true → s.dev.runBit = false →
      ∃ t, exec .beatEdge s = .next t ∧ t.pending = s.pending ∧ t.dev.running = false ∧ t.dev.u.beat.inBeat = false ∧
        t.dev.u.beat.work = [] ∧ ∀ pk th, (t.dev.threadAt pk th).st = .idle) ∧
    (due → s.dev.running = true → quiet → s.dev.workDone = true → s.dev.runBit = true → n = B + 1 → s.dev.planFor n = none →
      ∃ t m, exec .beatEdge s = .next t ∧ t.pending = s.pending ∧ beatIs { b with nextEdge := n + 1 } m ∧ m.regs = s.dev.regs ∧
        t.dev = (Tr.completeEdge n ((s.dev.origin + n * s.dev.period) / oneNs) B [] { beat := n }).run m) ∧
    (due → s.dev.running = false → s.dev.planFor n = none →
      ∃ t m, exec .beatEdge s = .next t ∧ t.pending = s.pending ∧ beatIs { b with nextEdge := n + 1, starting := false } m ∧
        m.running = true ∧ regsBut [BEAT_STATUS] m ∧
        t.dev = (Tr.seq [.settingsEdge, .ckptEdge n, .edgeActions { beat := n }, .begin_ { beat := n } n]).run m) ∧
    (∀ (m : Dev) (p : BeatPlan), ∃ o, (Tr.edgeActions p).run m = Tr.collsGo.run o ∧ ∀ die ∈ allDies, Holds o BEAT_INDEX die 0 0 p.beat) ∧
    (∀ (m : Dev) pk th, ((Tr.cellsBegin.run m).threadAt pk th).st = .idle) ∧
    (∀ (e : WorkEntry) (pk : Nat), s.dev.physOf e.cell = some pk → s.dev.parked (e.cell / 160) = false → s.dev.cellWaits e.cell pk = false →
      let th := ((Tr.startEntry e).run s.dev).threadAt pk e.thread
      th.st = .ready ∧ th.pc = e.start ∧ th.sreg 1 = e.arg % 2 ^ 64 ∧ (∀ i, i ≠ 1 → th.sreg i = 0) ∧ (∀ i, i ≠ 0 → th.creg i = false) ∧
        th.wbase = e.wbase ∧ th.wsize = e.wsize ∧ th.aslot = e.aslot ∧
        th.fpctl = (s.dev.reg VEC_FPCTL_INIT (e.cell / 160)).toNat % 2 ^ 8) ∧
    (∃ t, exec (.beatRunStart v) s = .next t ∧ t.pending = s.pending ∧ budgeted (fld BEAT_CTL BEAT_CTL_SLIP_BUDGET s.dev) t.dev ∧
      if fld TIME_STATUS TIME_STATUS_VALID s.dev = 1 ∧ fld BEAT_STATUS BEAT_STATUS_NO_PLAN s.dev = 0 ∧ s.dev.runBit = false then
        t.dev.runBit = true ∧ regsBut [BEAT_CTL, TIME_RATE] t.dev ∧
          fld TIME_RATE TIME_RATE_ADJ t.dev = clampAdj true (fld TIME_RATE TIME_RATE_ADJ s.dev) ∧
          beatIs (if s.dev.running then b else { b with starting := true, nextEdge := s.dev.firstEdge }) t.dev
      else t.dev.runBit = s.dev.runBit ∧ regsBut [BEAT_CTL] t.dev ∧ beatIs b t.dev) ∧
    (∃ t, exec (.beatRunStop v) s = .next t ∧ t.pending = s.pending ∧ budgeted (fld BEAT_CTL BEAT_CTL_SLIP_BUDGET s.dev) t.dev ∧
      t.dev.runBit = false ∧ regsBut [BEAT_CTL] t.dev ∧ beatIs { b with starting := false } t.dev) ∧
    (∃ t, exec (.planCommit v) s = .next t ∧ t.pending = s.pending ∧ regsBut [BEAT_PLAN_START, BEAT_STATUS] t.dev ∧
      t.dev.reg BEAT_PLAN_START HD = v ∧ fld BEAT_STATUS BEAT_STATUS_PLAN_PENDING t.dev = 1 ∧ fld BEAT_STATUS BEAT_STATUS_NO_PLAN t.dev = 0 ∧
      beatIs { b with
        pending := some { base := (s.dev.reg BEAT_PLAN_BASE HD).toNat, len := fld BEAT_PLAN_CFG BEAT_PLAN_CFG_LEN s.dev, start := v.toNat },
        firstStart := some (b.firstStart.getD v.toNat) } t.dev) ∧
    (s.dev.running = true → stays .applyWhileStopped) ∧
    (s.dev.running = false → ∃ t m, exec .applyWhileStopped s = .next t ∧ t.pending = s.pending ∧
      t.dev = (Tr.seq [.ckptStopped, .spareEdge, .unparkEdge]).run m ∧
      ∀ die ∈ tds, ∀ r ∈ [MTX_CTL, SPARSE_CTL, VEC_CTL, STRM_CTL, VEC_CENSUS_BASE, VEC_CENSUS_CFG, MEM_CTL], m.inForce r die = m.reg r die) ∧
    (let moved := s.dev.u.spare.leaving.find? fun x => x.carry && ukKind x.out = 0 && x.logical = c.val && x.ends ≤ s.dev.elapsed;
     (moved = none → stays (.cellCopyDone c bad)) ∧
     ∀ x, moved = some x →
      let die := c.val / 160
      let src := die * 168 + ukIdx x.out
      let dst := die * 168 + x.to_
      s.dev.physOf c.val = some dst → s.dev.flag CELL_ROLE CELL_ROLE_CARRY die x.to_ = true → x.to_ ≠ ukIdx x.out →
      ∃ t m, exec (.cellCopyDone c bad) s = .next t ∧ t.pending = s.pending ∧ t.dev = (Tr.seq [.leave x, .startWaiting c.val]).run m ∧
        m.mem = s.dev.mem ∧ m.cellAt src = { s.dev.cellAt src with att := [] } ∧
        m.cellAt dst = { s.dev.cellAt dst with
          spad := (s.dev.cellAt src).spad, tiles := (s.dev.cellAt src).tiles, acc := (s.dev.cellAt src).acc,
          spadOcc := (s.dev.cellAt src).spadOcc, att := (s.dev.cellAt src).att,
          poison := (s.dev.cellAt src).poison ++ bad.filter fun k => !(s.dev.cellAt src).poison.contains k } ∧
        ∀ pk, pk ≠ src → pk ≠ dst → m.cellAt pk = s.dev.cellAt pk)

/-- Accesses to the CSR windows (R6 to R9, R44, R71, R113, R468, R640, R652, R653): a 64-bit write takes each field by its access code, but
for a value the table discards and a requester or an offset that is turned away; a setting that waits for an edge keeps the value in force;
a narrow access reads zero or is discarded; the management port reads and writes words in order; the debug window shows accumulators. -/
def Obligations.RegisterAccesses : Prop :=
  ∀ (s : State) (die : Die) (off : BitVec 24) (v : Word) (who : Requester) (addr : BitVec 32) (store : Option (List Byte)) (len : Nat),
    let stays := fun (c : Instr) => exec c s = .next s
    let answers := fun (w : Word) (n : State) => n.pending = s.pending ∧ n.dev = { s.dev with u := { s.dev.u with rdata := s.dev.u.rdata ++ [w] } }
    let size := store.elim len (·.length)
    (s.dev.mayWrite die.val off.toNat who = false ∨ findReg die.val off.toNat = none → stays (.registerWrite die off v who)) ∧
    (∀ r i j, s.dev.mayWrite die.val off.toNat who = true → findReg die.val off.toNat = some (r, i, j) →
      specialWrite die.val r.base i j v who = none →
      ∃ n, exec (.registerWrite die off v who) s = .next n ∧ n.pending = s.pending ∧ n.dev.mem = s.dev.mem ∧
        SameRegsBut [die.val * 2 ^ 24 + off.toNat] s n ∧
        (∀ f ∈ r.fields, n.dev.fld r f die.val i j =
          let old := s.dev.fld r f die.val i j
          match f.acc with
          | .ro => old
          | .wo => old
          | .rw => if (f, true) ∈ s.dev.discards r die.val v then old else f.get v
          | .w1c => old &&& (2 ^ f.w - 1 - f.get v)
          | .rw1s => old ||| f.get v) ∧
        (n.dev.reg r die.val i j).toNat &&& (2 ^ 64 - 1 - r.mask) = 0 ∧
        (stagedAtEdge die.val r.base = false → n.dev.u = s.dev.u) ∧
        (stagedAtEdge die.val r.base = true → { n.dev.u with force := s.dev.u.force } = s.dev.u ∧
          n.dev.inForce r die.val i j = s.dev.inForce r die.val i j)) ∧
    (∃ n, exec (.csrNarrowAccess die off none) s = .next n ∧ answers 0 n) ∧
    stays (.csrNarrowAccess die off (some v)) ∧
    (s.dev.debugMode = true → ∃ n, exec (.debugWindowAccess die off none) s = .next n ∧
      answers (let p := off.toNat / 2 ^ 16
        if die.val < 4 ∧ p < 168 then w64 (leNat ((s.dev.cellAt (die.val * 168 + p)).acc.slice (off.toNat % 2 ^ 16 / 8 * 8) 8)) else 0) n) ∧
    stays (.debugWindowAccess die off (some v)) ∧
    (s.dev.debugMode = false → stays (.debugWindowAccess die off none)) ∧
    (s.dev.state = 0 → stays (.registerTransfer addr store len)) ∧
    (s.dev.state ≠ 0 → size < 8 ∨ 4096 < size ∨ size % 8 ≠ 0 →
      ∃ n, exec (.registerTransfer addr store len) s = .next n ∧ n.pending = s.pending ∧ n.dev.mem = s.dev.mem ∧ n.dev.u = s.dev.u ∧
        SameRegsBut [MGMT_CMD_STATUS.key HD 0 0] s n ∧ n.dev.fld MGMT_CMD_STATUS MGMT_CMD_STATUS_BUS_ERR HD = 1) ∧
    (s.dev.state ≠ 0 → 8 ≤ size → size ≤ 4096 → size % 8 = 0 →
      ∃ n, exec (.registerTransfer addr store len) s = .next n ∧ n.pending = s.pending ∧
        (store = none → addr.toNat / 2 ^ 24 = 0 ∨ 7 < addr.toNat / 2 ^ 24 →
          (addr.toNat + len) / 2 ^ 24 = addr.toNat / 2 ^ 24 →
          n.dev = { s.dev with u := { s.dev.u with rdata := s.dev.u.rdata ++ List.replicate (len / 8) 0 } }) ∧
        (store = none → len = 8 → addr.toNat = (die.val + 1) * 2 ^ 24 + off.toNat → s.dev.mayRead die.val off.toNat .mgmt = true →
          ∀ r i j, findReg die.val off.toNat = some (r, i, j) → r ≠ TIME_NOW → r ≠ MGMT_DW_DATA →
            answers (r.readVal (s.dev.shown r die.val i j)) n) ∧
        (store = some (leBytes 8 v.toNat) → addr.toNat = (die.val + 1) * 2 ^ 24 + off.toNat → off.toNat % 8 = 0 →
          exec (.registerWrite die off v .mgmt) s = .next n))

/-- A step takes the command at the front of the queue and runs it with the queue's rest; every command answers a next state and leaves
the queue to the step. With no command waiting, time passes (log 7). -/
def Obligations.StepRunsTheFrontCommand : Prop :=
  ∀ (s : State) (c : Instr) (rest : List Instr),
    (s.pending = c :: rest → step s = exec c { s with pending := rest }) ∧
    (s.pending = [] → ∃ n, step s = .next n ∧ n.pending = [] ∧ n.dev.mem = s.dev.mem ∧ n.dev.elapsed = s.dev.elapsed + s.dev.tickLen) ∧
    ∃ n, exec c s = .next n ∧ n.pending = s.pending

/-- Every step keeps the invariant: reserved bits of every register stay zero (R9), and the register file and memory stay in canonical
form, whatever the command and its operands, and whatever state it meets. -/
def Obligations.EveryStepKeepsTheInvariant : Prop :=
  ∀ s : State, Inv s → ∃ n, step s = .next n ∧ Inv n ∧ ∀ k, n.dev.get k &&& maskOf k = n.dev.get k

/-- What reset leaves (R10, R87, R99, R340, R635): the invariant holds; every register has the reset value of its table; the package is in
Dawn, phase ROM, not READY; HBM reads zero; every thread is idle, and no command waits. -/
def Obligations.Reset : Prop :=
  let d := State.reset.dev
  Inv State.reset ∧ State.reset.pending = [] ∧ (∀ k, d.get k = resetOf k) ∧ d.state = 1 ∧ d.phase = 0 ∧
    d.u.boot.ready = false ∧ (∀ a, a < 4 * hbmWindow → d.byte a = 0) ∧
    (∀ pk t, (d.threadAt pk t).st = .idle) ∧ d.u.cmd.cmds = [] ∧
    (∀ die, die < 4 → d.fld CMD_CTL CMD_CTL_QLIMIT die = 64) ∧ d.fld BEAT_PERIOD BEAT_PERIOD_PERIOD_US HD = 20 ∧
    d.fld BEAT_CTL BEAT_CTL_SLIP_BUDGET HD = 8 ∧ d.flag BEAT_STATUS BEAT_STATUS_NO_PLAN HD = true ∧
    d.fld MGMT_LEASE_CFG MGMT_LEASE_CFG_LOW_PCT HD = 25 ∧ d.fld PWR_DUSK_CFG PWR_DUSK_CFG_TIMEOUT_MS HD = 10 ∧
    d.fld BOOT_HOST_WDOG BOOT_HOST_WDOG_TIMEOUT_MS HD = 1000
end

