-- ==== Sys2Proof/WellFormed.lean ====
section
/-! DEFINITION. Which commands are well-formed: a cell instruction's word carries the class and operation of its row, and
every other command is: the types of its operands bound them. -/

namespace Sys2Proof

/-- CLASS and OP of an instruction word (R121). -/
def wordIs (cls op : Nat) (w : Word128) : Bool :=
  w.toNat % 16 == cls && w.toNat / 16 % 256 == op

/-- Whether a command is well-formed. -/
def Instr.wellFormed : Instr → Bool
  | .registerWrite _ _ _ _ => true
  | .csrNarrowAccess _ _ _ => true
  | .linkUp _ _ _ _ _ => true
  | .linkDown _ => true
  | .linkRetrainDone _ _ _ => true
  | .linkLost _ => true
  | .debugWindowAccess _ _ _ => true
  | .timeNowRead => true
  | .timeSet _ => true
  | .timeStep _ => true
  | .timeRateWrite _ => true
  | .timeCtlSrcChange _ => true
  | .sourceLock _ _ _ => true
  | .sourceLost => true
  | .ppsInEdge => true
  | .ppsOut => true
  | .ptpMessage _ => true
  | .ptpAnnounceSend _ _ _ _ => true
  | .beatEdge => true
  | .beatRunStart _ => true
  | .beatRunStop _ => true
  | .planCommit _ => true
  | .applyWhileStopped => true
  | .cellCopyDone _ _ => true
  | .icacheInv _ _ => true
  | .instructionFetch _ _ => true
  | .runAheadScan _ _ => true
  | .illegal _ _ _ => true
  | .nop _ _ w => wordIs 0 0 w
  | .endb _ _ w => wordIs 0 1 w
  | .br _ _ w => wordIs 0 2 w
  | .brr _ _ w => wordIs 0 3 w
  | .call _ _ w => wordIs 0 4 w
  | .ret _ _ w => wordIs 0 5 w
  | .loop _ _ w => wordIs 0 6 w
  | .cmp _ _ w => wordIs 0 7 w
  | .clog _ _ w => wordIs 0 8 w
  | .waitm _ _ w => wordIs 0 9 w
  | .waitt _ _ w => wordIs 0 10 w
  | .sleep _ _ w => wordIs 0 11 w
  | .sleepExpire _ _ => true
  | .bar _ _ w => wordIs 0 12 w
  | .fence _ _ w => wordIs 0 13 w
  | .mfs _ _ w => wordIs 0 14 w
  | .mts _ _ w => wordIs 0 15 w
  | .brk _ _ w => wordIs 0 16 w
  | .add _ _ w => wordIs 1 0 w
  | .sub _ _ w => wordIs 1 1 w
  | .and _ _ w => wordIs 1 2 w
  | .or _ _ w => wordIs 1 3 w
  | .xor _ _ w => wordIs 1 4 w
  | .shl _ _ w => wordIs 1 5 w
  | .shr _ _ w => wordIs 1 6 w
  | .sra _ _ w => wordIs 1 7 w
  | .mul _ _ w => wordIs 1 8 w
  | .mulhu _ _ w => wordIs 1 9 w
  | .min _ _ w => wordIs 1 10 w
  | .max _ _ w => wordIs 1 11 w
  | .minu _ _ w => wordIs 1 12 w
  | .maxu _ _ w => wordIs 1 13 w
  | .li _ _ w => wordIs 1 14 w
  | .sel _ _ w => wordIs 1 15 w
  | .mma _ _ w => wordIs 3 0 w
  | .mzero _ _ w => wordIs 3 1 w
  | .minit _ _ w => wordIs 3 2 w
  | .mdrain _ _ w => wordIs 3 3 w
  | .msatf _ _ w => wordIs 3 4 w
  | .vcvt _ _ w => wordIs 4 0 w
  | .vadd _ _ w => wordIs 4 1 w
  | .vsub _ _ w => wordIs 4 2 w
  | .vmul _ _ w => wordIs 4 3 w
  | .vfma _ _ w => wordIs 4 4 w
  | .vmax _ _ w => wordIs 4 5 w
  | .vmin _ _ w => wordIs 4 6 w
  | .vabs _ _ w => wordIs 4 7 w
  | .vneg _ _ w => wordIs 4 8 w
  | .vcmp _ _ w => wordIs 4 9 w
  | .vsel _ _ w => wordIs 4 10 w
  | .vrecip _ _ w => wordIs 4 11 w
  | .vrsqrt _ _ w => wordIs 4 12 w
  | .vsqrt _ _ w => wordIs 4 13 w
  | .vexp _ _ w => wordIs 4 14 w
  | .vexp2 _ _ w => wordIs 4 15 w
  | .vlog _ _ w => wordIs 4 16 w
  | .vtanh _ _ w => wordIs 4 17 w
  | .vsigm _ _ w => wordIs 4 18 w
  | .vgelu _ _ w => wordIs 4 19 w
  | .vsilu _ _ w => wordIs 4 20 w
  | .vrsum _ _ w => wordIs 4 24 w
  | .vrmax _ _ w => wordIs 4 25 w
  | .vrmin _ _ w => wordIs 4 26 w
  | .vrssq _ _ w => wordIs 4 27 w
  | .vrmvar _ _ w => wordIs 4 28 w
  | .vsoftmax _ _ w => wordIs 4 32 w
  | .vtr _ _ w => wordIs 4 33 w
  | .vocc _ _ w => wordIs 4 34 w
  | .vand _ _ w => wordIs 4 37 w
  | .vor _ _ w => wordIs 4 38 w
  | .vxor _ _ w => wordIs 4 39 w
  | .rtopk _ _ w => wordIs 8 0 w
  | .rdisp _ _ w => wordIs 8 1 w
  | .dispatchClaim _ _ _ => true
  | .rrndOpen _ _ w => wordIs 8 2 w && w.toNat / 2 ^ 65 % 4 == 0
  | .routeTableLoaded _ _ => true
  | .rrndClose _ _ w => wordIs 8 2 w && w.toNat / 2 ^ 65 % 4 == 1
  | .roundCloseDone _ _ => true
  | .rrndAbort _ _ w => wordIs 8 2 w && w.toNat / 2 ^ 65 % 4 == 2
  | .speculativeLineArrive _ _ _ _ => true
  | .rcomb _ _ w => wordIs 8 3 w
  | .ramx _ _ w => wordIs 8 4 w
  | .rbmask _ _ w => wordIs 8 5 w
  | .rbnext _ _ w => wordIs 8 6 w
  | .rbemask _ _ w => wordIs 8 7 w
  | .predClear _ _ => true
  | .lds _ _ w => wordIs 2 0 w
  | .ldt _ _ w => wordIs 2 1 w
  | .sts _ _ w => wordIs 2 2 w
  | .stt _ _ w => wordIs 2 3 w
  | .mvst _ _ w => wordIs 2 4 w
  | .mvts _ _ w => wordIs 2 5 w
  | .pfb _ _ w => wordIs 2 6 w
  | .pfw _ _ w => wordIs 2 7 w
  | .pfr _ _ w => wordIs 2 8 w
  | .gath _ _ w => wordIs 5 0 w
  | .scat _ _ w => wordIs 5 1 w
  | .loadResponse _ _ _ => true
  | .storeComplete _ _ => true
  | .waitHint _ _ _ => true
  | .dmaCopy _ _ => true
  | .dmaCopy2d _ _ => true
  | .dmaFill _ _ => true
  | .dmaTiles _ _ => true
  | .dmaChunkDone _ _ _ _ => true
  | .vqMouldLoad _ _ => true
  | .mouldLoadDone _ _ => true
  | .vqMouldRetire _ _ => true
  | .vqatt _ _ w => wordIs 6 8 w
  | .vqx _ _ w => wordIs 6 9 w
  | .vqrel _ _ w => wordIs 6 10 w
  | .hbmRead _ _ _ _ => true
  | .hbmWrite _ _ _ _ _ => true
  | .hbmRefresh _ _ _ => true
  | .hbmCalibrationStep _ _ _ _ _ _ => true
  | .scrubRead _ _ => true
  | .memRetireAdd _ _ => true
  | .retireTakesEffect _ _ => true
  | .bulkEnable _ _ => true
  | .bulkRequest _ _ _ _ _ _ _ => true
  | .tierTimeout _ => true
  | .bulkLateCompletion _ => true
  | .portFault _ _ => true
  | .homeRequest _ _ _ _ _ => true
  | .untrackNotice _ _ => true
  | .dropNotice _ => true
  | .broadcastSnoop _ _ => true
  | .snoop _ _ => true
  | .holdEnd _ _ _ => true
  | .farAtomic _ _ _ _ _ _ _ => true
  | .nearAtomic _ _ _ _ _ _ _ => true
  | .cohPredClear _ _ => true
  | .pageWalk _ _ => true
  | .faultRecordDeferred _ => true
  | .xlatFqRespRetry _ _ => true
  | .xlatFqRespAbort _ _ => true
  | .faultWatchdogExpire _ _ => true
  | .xlatInvGo _ _ => true
  | .invalidationDone _ => true
  | .asSlotInvalid _ _ _ => true
  | .queueEnable _ _ => true
  | .queueDisable _ _ => true
  | .doorbell _ _ => true
  | .cqHeadWrite _ _ => true
  | .packetRead _ => true
  | .heldRecordWrite _ _ => true
  | .threadEntryRecord _ => true
  | .cmdNop _ _ => true
  | .signal _ _ => true
  | .atomic _ _ => true
  | .ctlRole _ _ => true
  | .ctlPower _ _ => true
  | .ctlSelftest _ _ => true
  | .ctlCalibrate _ _ => true
  | .ctlSwapRetire _ _ => true
  | .ctlSwapReturn _ _ => true
  | .controlApplyStopped => true
  | .fwMailboxGo _ => true
  | .mgmtMailboxGo _ => true
  | .updGroupsLoad _ _ => true
  | .updGroupsStep _ _ => true
  | .updGroupsSave _ _ => true
  | .updInstall _ _ _ => true
  | .upd _ _ w => wordIs 7 0 w
  | .ckptArm _ _ => true
  | .ckptDisarm _ _ => true
  | .ckptCut _ _ => true
  | .pageStaged _ _ => true
  | .maquetteComplete _ _ => true
  | .ckptFull _ => true
  | .ckptRestore _ _ _ _ _ => true
  | .bload _ _ w => wordIs 6 0 w
  | .bget _ _ w => wordIs 6 1 w
  | .bhuff _ _ w => wordIs 6 2 w
  | .bunpk _ _ w => wordIs 6 3 w
  | .btake _ _ w => wordIs 6 4 w
  | .bput _ _ w => wordIs 6 5 w
  | .ingDecode _ _ => true
  | .stagingAllocated _ _ _ _ => true
  | .sampleCopyDone _ _ _ => true
  | .sampleWithdraw _ _ _ => true
  | .ingEnvStart _ _ => true
  | .ingEnvStop _ _ => true
  | .envTick _ _ => true
  | .flitReceive _ _ _ => true
  | .replayTimeout _ => true
  | .subportDown _ _ => true
  | .fabricLinkUp _ _ _ _ _ => true
  | .timingFlit _ _ => true
  | .laneLoss _ _ _ => true
  | .portCfgWrite _ _ => true
  | .fabIdWrite _ => true
  | .fabRemapWrite _ _ _ => true
  | .ethFrameReceive _ _ _ => true
  | .arpRequest _ _ => true
  | .transportRequestSend _ => true
  | .transportPacketAccept _ _ => true
  | .read _ => true
  | .write _ => true
  | .transportAtomic _ => true
  | .readData _ => true
  | .writeAck _ => true
  | .atomicData _ => true
  | .ack _ => true
  | .nak _ => true
  | .ackTimer _ _ _ _ => true
  | .retransmitTimeout _ _ _ => true
  | .coll _ => true
  | .heartbeat _ _ => true
  | .heartbeatMiss _ _ => true
  | .announce _ => true
  | .ltPut _ _ => true
  | .ltGet _ _ => true
  | .ltReadFence _ _ => true
  | .collPost _ _ => true
  | .collectiveAbort _ => true
  | .ctake _ _ w => wordIs 9 0 w
  | .cgive _ _ w => wordIs 9 1 w
  | .arbiterGrant _ _ _ => true
  | .arbWindowEnd _ _ => true
  | .arbMaxClr _ _ _ => true
  | .sparePatinaWrite _ => true
  | .probationTestEnd _ _ _ _ => true
  | .inplaceTestEnd _ _ _ _ => true
  | .hostCoreSwapDone _ => true
  | .wayEvictionDone _ _ => true
  | .sparePprReq _ _ => true
  | .pprDone _ => true
  | .pwrgoodDeassert => true
  | .resetNAssert => true
  | .nightExit _ => true
  | .dawnSelftestDone _ _ _ _ _ => true
  | .identity => true
  | .enroll => true
  | .imageReady _ => true
  | .fabricBoot _ _ => true
  | .imageVerifyDone => true
  | .imageLoadDone _ _ => true
  | .duskReset => true
  | .duskOff => true
  | .resetNow => true
  | .debugOn => true
  | .attest => true
  | .secAttGo _ => true
  | .attestReportDone => true
  | .mgmtCmdUnknown _ => true
  | .registerTransfer _ _ _ => true
  | .mgmtDwAddrWrite _ => true
  | .mgmtDwDataWrite _ => true
  | .mgmtDwDataRead => true
  | .leaseGrant _ => true
  | .leaseMessage _ => true
  | .leaseLow => true
  | .leaseExpire => true
  | .duskEnd => true
  | .temperatureSample _ _ _ => true
  | .hostHeartbeat => true
  | .hostHeartbeatTimeout _ => true
  | .hostWdogExpire => true
  | .hostWdogKick _ => true
  | .avsSetpoint _ _ => true
  | .inputUndervoltage => true
  | .refclkFault _ => true
  | .cxlLinkUp _ _ _ _ => true
  | .ucieLaneFailure _ _ _ => true
  | .ucieFlitRetry _ _ => true
  | .laneAdaptationPass _ _ _ _ => true
  | .timingMarginSample _ _ _ => true
  | .refclkRestored => true
  | .ref10mOut => true
  | .hostHartFence => true

end Sys2Proof
end

