-- ==== Sys2Proof/Tests/Slice0.lean ====
section
/-! SUPPORT. Tests: well-formedness, single steps with results from the spec's words, and for every obligation with hypotheses a
witness: the obligation applied, clause by clause, to concrete states and operands that meet every hypothesis. -/

namespace Sys2Proof.Tests

open Sys2Proof Sys2Proof.Machine Sys2Proof.Safety

/-- Command `c` answers a next state at `s`. -/
def Ran (c : Instr) (s : State) : Prop := ∃ n, exec c s = .next n

/-- The first part of a conclusion about a next state. -/
theorem ran1 {c : Instr} {s : State} {p : State → Prop} (h : ∃ n, exec c s = .next n ∧ p n) : Ran c s := h.imp fun _ x => x.1
theorem ran2 {α : Type} {c : Instr} {s : State} {p : State → α → Prop} (h : ∃ n m, exec c s = .next n ∧ p n m) : Ran c s := by
  obtain ⟨n, m, x, _⟩ := h; exact ⟨n, x⟩
theorem ran0 {c : Instr} {s n : State} (h : exec c s = .next n) : Ran c s := ⟨n, h⟩

/-- An instruction word of a class and operation, with `rest` in its other fields. -/
def wd (cls op : Nat) (rest : Nat := 0) : Word128 := BitVec.ofNat 128 (cls + op * 16 + rest)

/-- A state with thread 0 of physical cell 0 as given, in a package of its own. -/
def cell0 (th : Thread) (cs : CellSt := {}) (regs : List (Nat × Word) := []) (u : Units := {}) (mem : List Host.Cell := []) : State :=
  { dev := { regs := regs, mem := mem, u := { u with cells := [(0, { cs with threads := [(0, th)] })] } }, pending := [] }

/-- A READY thread with s1 = 5, s2 = 3, s5 = 4,096, s6 = 64 and all 64 tile registers. -/
def ready : Thread := { st := .ready, pc := 4096, wsize := 4, valid := true, s := [(1, 5), (2, 3), (5, 4096), (6, 64)] }

/-- A state with registers and units alone. -/
def bare (regs : List (Nat × Word)) (u : Units := {}) (mem : List Host.Cell := []) : State :=
  { dev := { regs := regs, mem := mem, u := u }, pending := [] }

/-- Register (i, j) of a die, with these values in its fields. -/
def rg (r : Reg) (die i j : Nat) (fs : List (Fld × Nat)) : Nat × Word :=
  (r.key die i j, BitVec.ofNat 64 (fs.foldl (fun n f => n + f.2 * 2 ^ f.1.lo) 0))

/-- A cached leaf of die 0 for virtual addresses below 2 MiB, mapped to the same global addresses (R, W, X, U, A and D set). -/
def page0 : TlbEnt := { die := 0, asid := 0, global := true, size := 2 ^ 21, page := 0, pte := 0xDF, level := 1 }
/-- Registers that make address-space slot 0 of die 0 valid, with paging on. -/
def slot0 : List (Nat × Word) := [rg XLAT_AS_SATP 0 0 0 [(XLAT_AS_SATP_MODE, 10)], rg XLAT_AS_CFG 0 0 0 [(XLAT_AS_CFG_VALID, 1)]]
/-- `cell0` with `page0` cached in slot 0. -/
def paged (th : Thread) (cs : CellSt := {}) (regs : List (Nat × Word) := []) (u : Units := {}) (mem : List Host.Cell := []) : State :=
  cell0 th cs (slot0 ++ regs) { u with xlat := { u.xlat with tlb := [page0] } } mem

/-- A 64-byte packet of eight 64-bit words. -/
def packet (ws : List Nat) : List Byte := ws.flatMap (leBytes 8) ++ List.replicate (8 * (8 - ws.length)) 0
/-- A started command of queue 0 of die 0, entry 0. -/
def started (op : Nat) (ws : List Nat) : Cmd := { src := .queue 0, n := 0, op := op, pkt := packet (op :: ws) }
/-- A package with one command, and memory below 2 MiB mapped in slot 0 of die 0. -/
def withCmd (c : Cmd) (regs : List (Nat × Word) := []) (u : Units := {}) (mem : List Host.Cell := []) : State :=
  bare (slot0 ++ regs) { u with cmd := { cmds := [c] }, xlat := { u.xlat with tlb := [page0] } } mem

/-- A range within one page, mapped by `page0` to the same addresses. -/
theorem mapped1 {d : Dev} {x : XReq} {va len : Nat} (a n : Nat) (hp : pagePieces va len = [(a, n)])
    (hh : Hits d { x with va := a } page0) (hg : hitGa { x with va := a } page0 = a) :
    Mapped d x (pagePieces va len) [(a, n)] := by
  rw [hp]; exact ⟨page0, [], hh, by rw [hg], rfl⟩

theorem ran3 {α β : Type} {c : Instr} {s : State} {p : State → α → β → Prop} (h : ∃ n m g, exec c s = .next n ∧ p n m g) : Ran c s := by
  obtain ⟨n, m, g, x, _⟩ := h; exact ⟨n, x⟩

/-! ## The spec's own worked examples, and known answers of named algorithms -/

/-- 01_package.md, the example after R36: local address 0x024_4000_1200 in die-local and in package-wide mode. -/
theorem test_placement : ((bare []).dev.place 0x02440001200 = .hbm 1 137 10922 (hbmWindow + 2097161 * 512)) ∧
    ilvPlace true 1 0x40001200 = .hbm 1 66 ((2621442 - 66) / 192) (hbmWindow + 2621442 * 512) ∧
    ilvPlace true 1 0x40001400 = .hbm 2 66 13653 (2 * hbmWindow + 2621442 * 512) := by decide

/-- 01_package.md, the example after R41: the doorbell page of queue 20,000. -/
theorem test_doorbell_page : (bare []).dev.place 0x0C104E20000 = .doorbell 20000 0 := by decide

/-- 03_cells.md, the example after R89: physical cells 23 and 101 of TD3 fail. -/
theorem test_cell_map : (let s : SpareSt := { failed := [ukey 0 3 23, ukey 0 3 101] }
    let serving := (List.range 168).filter fun p => s.dawnState 0 3 p = 0
    [0, 22, 23, 99, 100, 159].map (serving[·]?) = [some 0, some 22, some 24, some 100, some 102, some 161] ∧
      serving.length = 160) := by decide +kernel

/-- 03_cells.md, the example after R110: t3 of a window of 16 at base 48 is register 51; t4 of a window of 4 traps. -/
theorem test_windows : ({ die := 0, pk := 0, c := 0, t := 9, w := 0, th := { wbase := 48, wsize := 2 }, role := 0 } : Ctx).tile 3 = some 51 ∧
    ({ die := 0, pk := 0, c := 0, t := 2, w := 0, th := { wbase := 8, wsize := 0 }, role := 0 } : Ctx).tile 4 = none := by decide

/-- 04_numerics.md, the first example after R147: an MXFP8 block with one dominant element. -/
theorem test_mx_dominant : ((fun (b : MxBlock) => b.sc = 0x82 ∧ b.es.map (·.bits) = 0x7C :: List.replicate 15 0 ++ List.replicate 16 1 ∧ (b.es.filter (·.van)).length = 15) (mxWrite e4m3 accCtl (fun _ => 0)
      (fp32.decode 0x453B8000 :: List.replicate 15 (fp32.decode 0x3BA3D70A) ++ List.replicate 16 (fp32.decode 0x3C449BA6)))) := by
  decide +kernel

/-- 04_numerics.md, the second example after R147: an MXFP4 block whose elements vanish, and blocks of zeros and of NaNs. -/
theorem test_mx_zero : ((fun (b : MxBlock) => b.sc = 0 ∧ b.es.map (·.bits) = List.replicate 32 0 ∧ (b.es.filter (·.van)).length = 2) (mxWrite e2m1 accCtl (fun _ => 0)
      (Val.fin false (pow2 (-140)) :: .fin true (pow2 (-141)) :: List.replicate 30 (.fin true 0)))) ∧
    mxRead e2m1 0xFF [0, 8] = [.fin false 0, .fin false 0] ∧ mxRead e2m1 0xFF [0, 1] = [.nan, .nan] := by decide +kernel

/-- 04_numerics.md, the example after R156: 1.0625 + 2^-9 in one step, and in two with RNE and with RTO. -/
theorem test_two_steps : (let x := Val.fin false (mkRat 17 16 + pow2 (-9))
    let two := fun (m : RMode) => (e4m3.narrow accCtl 0 (bf16.decode (bf16.narrow { accCtl with mode := m } 0 x).bits)).bits
    (e4m3.narrow accCtl 0 x).bits = 0x39 ∧ two .rne = 0x38 ∧ two .rto = 0x39) := by decide +kernel

/-- 06_conditional_computation.md, the example after R258: one packed row of 256 positions. -/
theorem test_block_mask : (let ids := (List.range 256).map fun p => if p < 100 then 0 else if p < 190 then 1 else if p < 250 then 2 else 0xFFFF
    let part := fun (i : Nat) => (ids.drop (64 * i)).take 64
    (List.range 4).map (fun i => (List.range 4).foldr (fun j acc => blockCode true (64 * i) (64 * j) (part i) (part j) + 4 * acc) 0) =
      [0x2, 0xF, 0x3C, 0xF0]) := by decide +kernel

/-- 08_weight_compression.md, the example after R336: 1,600 bytes are fetched of a slot of four tiles. -/
theorem test_bytes_fetched : ({ runs := false, mould := 5, fmt := 2, gen := 3, nelem := 8192, slot := 16384, bits := 12288, crc := 0, good := true } : Block).fetched
    = 1600 := by decide

/-- R310: the check value of CRC-32C, over the digits 1 to 9. -/
theorem test_crc32c : crc32c [0x31, 0x32, 0x33, 0x34, 0x35, 0x36, 0x37, 0x38, 0x39] = 0xE3069283 := by decide +kernel

/-- SHA3-256 of "abc" (FIPS 202). -/
theorem test_sha3 : leNat (sha3 [0x61, 0x62, 0x63]).reverse = 0x3A985DA74FE225B2045C172D6BD390BD855F086E3E9D525B46BFE24511431532 := by
  decide +kernel

/-- 11_translation.md, the example after R415: a 2 MiB leaf. -/
theorem test_leaf : pteMalformed 1 0x289100000D7 = false ∧
    (match leafRes 0x7F0000200040 1 0x289100000D7 with | .ok ga _ _ => decide (ga = 0xA2440000040) | _ => false) = true := by decide

/-- 11_translation.md, the same example: a walk begins at level 4, and with levels 4 to 2 in the walk cache it reads one PTE. -/
theorem test_walk_cache : (let va := 0x7F0000200040
    let ent := fun l => TlbEnt.mk 0 0 false (4096 * 512 ^ l) (va / (4096 * 512 ^ l)) (1 + (100 + l) * 1024) l
    XlatSt.walkFrom {} 0 0 va 77 = (4, 77, false) ∧ XlatSt.walkFrom { walks := [ent 4, ent 3, ent 2] } 0 0 va 77 = (1, 102, false)) := by
  decide

/-- 13_training.md, the example after R489: the clip factor of q = 9.0 and CLIP = 1.0. -/
theorem test_clip : fp32.narrow plainCtl 0 (clipFactor { rule := 0, isLazy := false, pfmt := 0, sfmt := 0, rmode := 0, eta := 0, lambda := 0, beta1 := 0, beta2 := 0, eps := 0, clip := 0x3F800000, n := 0, e := 0, curveVa := 0, curve := [], etaRes := 0 } 0x41100000)
    = { bits := 0x3EAAAAAB } := by decide +kernel

/-- 13_training.md, the example after R488: a lazy momentum row touched after four steps (0.4958240 and 0.168098, rounded there). -/
theorem test_lazy_momentum : ((fun (r : Val × Val) => 4958239 ≤ r.1.rat * 10000000 ∧ r.1.rat * 10000000 ≤ 4958241 ∧ 1680979 ≤ r.2.rat * 10000000 ∧ r.2.rat * 10000000 ≤ 1680981) (updElement { rule := 1, isLazy := true, pfmt := 0, sfmt := 0, rmode := 0, eta := 0, lambda := 0x3DCCCCCD, beta1 := 0x3F666666, beta2 := 0, eps := 0, clip := 0, n := 100, e := 0, curveVa := 0, curve := [], etaRes := 0x3C23D70A } valOne 4 (fp32.decode 0x3F000000) (fp32.decode 0x3D4CCCCD)
      (fp32.decode 0x3E4CCCCD))) := by
  decide +kernel

/-- 14_ingest.md, the example after R531: 100, 200, 90 and 60 positions are placed, and 130 are not. -/
theorem test_packing : (let j0 : Job := { id := 0, src := .queue 0, n := 0, q := 0, packed := true, l := 256, pbytes := 1, rows := 2, out := 0, need := 0, absUs := 0, descs := [] }
    let put := fun (a : Job × List (Option (Nat × Nat × Nat))) (n : Nat) =>
      match a.1.room n with
      | some (r, s, g) => (a.1.take r s g n, a.2 ++ [some (r, s, g)])
      | none => (a.1, a.2 ++ [none])
    ([100, 200, 90, 60, 130].foldl put (j0, [])).2 = [some (0, 0, 0), some (1, 0, 0), some (0, 100, 1), some (0, 190, 2), none]) := by decide

/-- 16_arbitration.md, the example after R601: HOST at class 1 with QUOTA1 16, X at class 2; each read takes 30 cycles. -/
theorem test_hint : ((fun (s : State) => let host : ArbReq := { r := 0, wait := 0, service := 30, queued := 40, first := true }; let x : ArbReq := { r := 1, wait := 0, service := 30, queued := 1, first := true }; s.dev.arbHint 0 0 [host, x] host x = 480) (bare [rg ARB_CLASS 0 0 0 [(ARB_CLASS_CLASS, 1)], rg ARB_CLASS 0 0 1 [(ARB_CLASS_CLASS, 2)],
      rg ARB_CFG 0 0 0 [(ARB_CFG_CONSERVE, 1), (ARB_CFG_WINDOW, 1024), (ARB_CFG_QUOTA1, 16)]]
        { arb := [(0, { used := [(0, 1)] })] })) := by decide

/-! ## Well-formedness -/

/-- Each check refuses a word of another operation, class or ACTION, and admits its own. -/
theorem test_wellFormed : (Instr.add 0 0 (wd 1 0)).wellFormed = true ∧ (Instr.add 0 0 (wd 1 1)).wellFormed = false ∧
    (Instr.add 0 0 (wd 2 0)).wellFormed = false ∧ (Instr.rrndOpen 0 0 (wd 8 2)).wellFormed = true ∧
    (Instr.rrndOpen 0 0 (wd 8 2 (2 ^ 65))).wellFormed = false ∧ (Instr.rrndClose 0 0 (wd 8 2)).wellFormed = false ∧
    (Instr.rrndAbort 0 0 (wd 8 2)).wellFormed = false ∧ (Instr.rrndAbort 0 0 (wd 8 2 (2 ^ 66))).wellFormed = true := by decide
/-- The check on every other word: its own class and operation are admitted, another operation is refused. -/
theorem test_words : ([
    (Instr.nop, 0, 0), (Instr.endb, 0, 1), (Instr.br, 0, 2), (Instr.brr, 0, 3), (Instr.call, 0, 4), (Instr.ret, 0, 5),
    (Instr.loop, 0, 6), (Instr.cmp, 0, 7), (Instr.clog, 0, 8), (Instr.waitm, 0, 9), (Instr.waitt, 0, 10), (Instr.sleep, 0, 11),
    (Instr.bar, 0, 12), (Instr.fence, 0, 13), (Instr.mfs, 0, 14), (Instr.mts, 0, 15), (Instr.brk, 0, 16), (Instr.add, 1, 0),
    (Instr.sub, 1, 1), (Instr.and, 1, 2), (Instr.or, 1, 3), (Instr.xor, 1, 4), (Instr.shl, 1, 5), (Instr.shr, 1, 6),
    (Instr.sra, 1, 7), (Instr.mul, 1, 8), (Instr.mulhu, 1, 9), (Instr.min, 1, 10), (Instr.max, 1, 11), (Instr.minu, 1, 12),
    (Instr.maxu, 1, 13), (Instr.li, 1, 14), (Instr.sel, 1, 15), (Instr.mma, 3, 0), (Instr.mzero, 3, 1), (Instr.minit, 3, 2),
    (Instr.mdrain, 3, 3), (Instr.msatf, 3, 4), (Instr.vcvt, 4, 0), (Instr.vadd, 4, 1), (Instr.vsub, 4, 2), (Instr.vmul, 4, 3),
    (Instr.vfma, 4, 4), (Instr.vmax, 4, 5), (Instr.vmin, 4, 6), (Instr.vabs, 4, 7), (Instr.vneg, 4, 8), (Instr.vcmp, 4, 9),
    (Instr.vsel, 4, 10), (Instr.vrecip, 4, 11), (Instr.vrsqrt, 4, 12), (Instr.vsqrt, 4, 13), (Instr.vexp, 4, 14),
    (Instr.vexp2, 4, 15), (Instr.vlog, 4, 16), (Instr.vtanh, 4, 17), (Instr.vsigm, 4, 18), (Instr.vgelu, 4, 19),
    (Instr.vsilu, 4, 20), (Instr.vrsum, 4, 24)] ++ [
    (Instr.vrmax, 4, 25), (Instr.vrmin, 4, 26), (Instr.vrssq, 4, 27), (Instr.vrmvar, 4, 28), (Instr.vsoftmax, 4, 32),
    (Instr.vtr, 4, 33), (Instr.vocc, 4, 34), (Instr.vand, 4, 37), (Instr.vor, 4, 38), (Instr.vxor, 4, 39), (Instr.rtopk, 8, 0),
    (Instr.rdisp, 8, 1), (Instr.rcomb, 8, 3), (Instr.ramx, 8, 4), (Instr.rbmask, 8, 5), (Instr.rbnext, 8, 6),
    (Instr.rbemask, 8, 7), (Instr.lds, 2, 0), (Instr.ldt, 2, 1), (Instr.sts, 2, 2), (Instr.stt, 2, 3), (Instr.mvst, 2, 4),
    (Instr.mvts, 2, 5), (Instr.pfb, 2, 6), (Instr.pfw, 2, 7), (Instr.pfr, 2, 8), (Instr.gath, 5, 0), (Instr.scat, 5, 1),
    (Instr.vqatt, 6, 8), (Instr.vqx, 6, 9), (Instr.vqrel, 6, 10), (Instr.upd, 7, 0), (Instr.bload, 6, 0), (Instr.bget, 6, 1),
    (Instr.bhuff, 6, 2), (Instr.bunpk, 6, 3), (Instr.btake, 6, 4), (Instr.bput, 6, 5), (Instr.ctake, 9, 0),
    (Instr.cgive, 9, 1)] : List ((PCell → Tid → Word128 → Instr) × Nat × Nat)).all (fun e =>
    (e.1 0 0 (wd e.2.1 e.2.2)).wellFormed && !(e.1 0 0 (wd e.2.1 (e.2.2 + 1))).wellFormed) = true := by decide

/-! ## Scalar and control instructions -/

/-- A scalar word: s3 := s1 op s2. -/
def sw (op : Nat) : Word128 := wd 1 op (3 * 2 ^ 16 + 1 * 2 ^ 21 + 2 * 2 ^ 26)
theorem witness_ScalarOperations (h : Obligations.ScalarOperations) :
    Ran (.add 0 0 (sw 0)) (cell0 ready) ∧
    Ran (.sub 0 0 (sw 1)) (cell0 ready) ∧
    Ran (.and 0 0 (sw 2)) (cell0 ready) ∧
    Ran (.or 0 0 (sw 3)) (cell0 ready) ∧
    Ran (.xor 0 0 (sw 4)) (cell0 ready) ∧
    Ran (.shl 0 0 (sw 5)) (cell0 ready) ∧
    Ran (.shr 0 0 (sw 6)) (cell0 ready) ∧
    Ran (.sra 0 0 (sw 7)) (cell0 ready) ∧
    Ran (.mul 0 0 (sw 8)) (cell0 ready) ∧
    Ran (.mulhu 0 0 (sw 9)) (cell0 ready) ∧
    Ran (.min 0 0 (sw 10)) (cell0 ready) ∧
    Ran (.max 0 0 (sw 11)) (cell0 ready) ∧
    Ran (.minu 0 0 (sw 12)) (cell0 ready) ∧
    Ran (.maxu 0 0 (sw 13)) (cell0 ready) ∧
    Ran (.li 0 0 (wd 1 14 (3 * 2 ^ 16 + 2 ^ 127))) (cell0 ready) ∧
    Ran (.sel 0 0 (sw 15)) (cell0 ready) :=
  ⟨ran1 ((h (cell0 ready) 0 0 (sw 0) 0).1 (by decide)),
   ran1 ((h (cell0 ready) 0 0 (sw 1) 0).2.1 (by decide)),
   ran1 ((h (cell0 ready) 0 0 (sw 2) 0).2.2.1 (by decide)),
   ran1 ((h (cell0 ready) 0 0 (sw 3) 0).2.2.2.1 (by decide)),
   ran1 ((h (cell0 ready) 0 0 (sw 4) 0).2.2.2.2.1 (by decide)),
   ran1 ((h (cell0 ready) 0 0 (sw 5) 0).2.2.2.2.2.1 (by decide)),
   ran1 ((h (cell0 ready) 0 0 (sw 6) 0).2.2.2.2.2.2.1 (by decide)),
   ran1 ((h (cell0 ready) 0 0 (sw 7) 0).2.2.2.2.2.2.2.1 (by decide)),
   ran1 ((h (cell0 ready) 0 0 (sw 8) 0).2.2.2.2.2.2.2.2.1 (by decide)),
   ran1 ((h (cell0 ready) 0 0 (sw 9) 0).2.2.2.2.2.2.2.2.2.1 (by decide)),
   ran1 ((h (cell0 ready) 0 0 (sw 10) 0).2.2.2.2.2.2.2.2.2.2.1 (by decide)),
   ran1 ((h (cell0 ready) 0 0 (sw 11) 0).2.2.2.2.2.2.2.2.2.2.2.1 (by decide)),
   ran1 ((h (cell0 ready) 0 0 (sw 12) 0).2.2.2.2.2.2.2.2.2.2.2.2.1 (by decide)),
   ran1 ((h (cell0 ready) 0 0 (sw 13) 0).2.2.2.2.2.2.2.2.2.2.2.2.2.1 (by decide)),
   ran1 ((h (cell0 ready) 0 0 (wd 1 14 (3 * 2 ^ 16 + 2 ^ 127)) 0).2.2.2.2.2.2.2.2.2.2.2.2.2.2.1 (by decide)),
   ran1 ((h (cell0 ready) 0 0 (sw 15) 0).2.2.2.2.2.2.2.2.2.2.2.2.2.2.2 (by decide))⟩

theorem witness_ControlInstructions (h : Obligations.ControlInstructions) :
    Ran (.nop 0 0 (wd 0 0)) (cell0 ready) ∧
    Ran (.br 0 0 (wd 0 2 (2 ^ 64 * 3))) (cell0 ready) ∧
    Ran (.brr 0 0 (wd 0 3 (5 * 2 ^ 21))) (cell0 ready) ∧
    Ran (.call 0 0 (wd 0 4 (2 ^ 64))) (cell0 ready) ∧
    Ran (.ret 0 0 (wd 0 5)) (cell0 { ready with rets := [16] }) ∧
    Ran (.loop 0 0 (wd 0 6 (2 ^ 40 + 3 * 2 ^ 64 + 2 * 2 ^ 96))) (cell0 ready) ∧
    Ran (.loop 0 0 (wd 0 6 (2 ^ 40 + 2 * 2 ^ 96))) (cell0 ready) ∧
    Ran (.loop 0 0 (wd 0 6 (2 ^ 40 + 2 ^ 64))) (cell0 ready) ∧
    Ran (.cmp 0 0 (wd 0 7 (0 * 2 ^ 16 + 2 ^ 21 + 2 * 2 ^ 26 + 2 ^ 31))) (cell0 ready) ∧
    Ran (.cmp 0 0 (wd 0 7 (1 * 2 ^ 16 + 2 ^ 21 + 2 * 2 ^ 26 + 2 ^ 31))) (cell0 ready) ∧
    Ran (.cmp 0 0 (wd 0 7 (2 * 2 ^ 16 + 2 ^ 21 + 2 * 2 ^ 26 + 2 ^ 31))) (cell0 ready) ∧
    Ran (.cmp 0 0 (wd 0 7 (3 * 2 ^ 16 + 2 ^ 21 + 2 * 2 ^ 26 + 2 ^ 31))) (cell0 ready) ∧
    Ran (.cmp 0 0 (wd 0 7 (4 * 2 ^ 16 + 2 ^ 21 + 2 * 2 ^ 26 + 2 ^ 31))) (cell0 ready) ∧
    Ran (.cmp 0 0 (wd 0 7 (5 * 2 ^ 16 + 2 ^ 21 + 2 * 2 ^ 26 + 2 ^ 31))) (cell0 ready) ∧
    Ran (.clog 0 0 (wd 0 8 (0 * 2 ^ 16 + 2 ^ 31 + 2 ^ 34 + 2 ^ 37))) (cell0 ready) ∧
    Ran (.clog 0 0 (wd 0 8 (1 * 2 ^ 16 + 2 ^ 31 + 2 ^ 34 + 2 ^ 37))) (cell0 ready) ∧
    Ran (.clog 0 0 (wd 0 8 (2 * 2 ^ 16 + 2 ^ 31 + 2 ^ 34 + 2 ^ 37))) (cell0 ready) ∧
    Ran (.clog 0 0 (wd 0 8 (3 * 2 ^ 16 + 2 ^ 31 + 2 ^ 34 + 2 ^ 37))) (cell0 ready) ∧
    Ran (.mfs 0 0 (wd 0 14 (3 * 2 ^ 16 + 0 * 2 ^ 64))) (cell0 ready) ∧
    Ran (.mfs 0 0 (wd 0 14 (3 * 2 ^ 16 + 1 * 2 ^ 64))) (cell0 ready) ∧
    Ran (.mfs 0 0 (wd 0 14 (3 * 2 ^ 16 + 2 * 2 ^ 64))) (cell0 ready) ∧
    Ran (.mfs 0 0 (wd 0 14 (3 * 2 ^ 16 + 3 * 2 ^ 64))) (cell0 ready) ∧
    Ran (.mfs 0 0 (wd 0 14 (3 * 2 ^ 16 + 6 * 2 ^ 64))) (cell0 ready) ∧
    Ran (.mfs 0 0 (wd 0 14 (3 * 2 ^ 16 + 7 * 2 ^ 64))) (cell0 ready) ∧
    Ran (.mfs 0 0 (wd 0 14 (3 * 2 ^ 16 + 8 * 2 ^ 64))) (cell0 ready) ∧
    Ran (.mfs 0 0 (wd 0 14 (3 * 2 ^ 16 + 10 * 2 ^ 64))) (cell0 ready) ∧
    Ran (.mts 0 0 (wd 0 15 (2 ^ 21 + 7 * 2 ^ 64))) (cell0 ready) ∧
    Ran (.mts 0 0 (wd 0 15 (2 ^ 21 + 8 * 2 ^ 64))) (cell0 ready) :=
  ⟨ran1 ((h (cell0 ready) 0 0 (wd 0 0) 0).1 (by decide)),
   ran1 ((h (cell0 ready) 0 0 (wd 0 2 (2 ^ 64 * 3)) 0).2.1 (by decide)),
   ran1 ((h (cell0 ready) 0 0 (wd 0 3 (5 * 2 ^ 21)) 0).2.2.1 (by decide) (by decide)),
   ran1 ((h (cell0 ready) 0 0 (wd 0 4 (2 ^ 64)) 0).2.2.2.1 (by decide) (by decide)),
   ran1 ((h (cell0 { ready with rets := [16] }) 0 0 (wd 0 5) 0).2.2.2.2.1 16 [] (by decide) rfl),
   ran1 ((h (cell0 ready) 0 0 (wd 0 6 (2 ^ 40 + 3 * 2 ^ 64 + 2 * 2 ^ 96)) 0).2.2.2.2.2.1 (by decide) (by decide) (by decide) (by decide)),
   ran1 ((h (cell0 ready) 0 0 (wd 0 6 (2 ^ 40 + 2 * 2 ^ 96)) 0).2.2.2.2.2.2.1 (by decide) (by decide) (by decide) rfl),
   ran1 ((h (cell0 ready) 0 0 (wd 0 6 (2 ^ 40 + 2 ^ 64)) 0).2.2.2.2.2.2.2.1 (by decide) (by decide)),
   ran1 ((h (cell0 ready) 0 0 (wd 0 7 (0 * 2 ^ 16 + 2 ^ 21 + 2 * 2 ^ 26 + 2 ^ 31)) 0).2.2.2.2.2.2.2.2.1 (by decide) (by decide)),
   ran1 ((h (cell0 ready) 0 0 (wd 0 7 (1 * 2 ^ 16 + 2 ^ 21 + 2 * 2 ^ 26 + 2 ^ 31)) 0).2.2.2.2.2.2.2.2.2.1 (by decide) (by decide)),
   ran1 ((h (cell0 ready) 0 0 (wd 0 7 (2 * 2 ^ 16 + 2 ^ 21 + 2 * 2 ^ 26 + 2 ^ 31)) 0).2.2.2.2.2.2.2.2.2.2.1 (by decide) (by decide)),
   ran1 ((h (cell0 ready) 0 0 (wd 0 7 (3 * 2 ^ 16 + 2 ^ 21 + 2 * 2 ^ 26 + 2 ^ 31)) 0).2.2.2.2.2.2.2.2.2.2.2.1 (by decide) (by decide)),
   ran1 ((h (cell0 ready) 0 0 (wd 0 7 (4 * 2 ^ 16 + 2 ^ 21 + 2 * 2 ^ 26 + 2 ^ 31)) 0).2.2.2.2.2.2.2.2.2.2.2.2.1 (by decide) (by decide)),
   ran1 ((h (cell0 ready) 0 0 (wd 0 7 (5 * 2 ^ 16 + 2 ^ 21 + 2 * 2 ^ 26 + 2 ^ 31)) 0).2.2.2.2.2.2.2.2.2.2.2.2.2.1 (by decide) (by decide)),
   ran1 ((h (cell0 ready) 0 0 (wd 0 8 (0 * 2 ^ 16 + 2 ^ 31 + 2 ^ 34 + 2 ^ 37)) 0).2.2.2.2.2.2.2.2.2.2.2.2.2.2.1 (by decide) (by decide)),
   ran1 ((h (cell0 ready) 0 0 (wd 0 8 (1 * 2 ^ 16 + 2 ^ 31 + 2 ^ 34 + 2 ^ 37)) 0).2.2.2.2.2.2.2.2.2.2.2.2.2.2.2.1 (by decide) (by decide)),
   ran1 ((h (cell0 ready) 0 0 (wd 0 8 (2 * 2 ^ 16 + 2 ^ 31 + 2 ^ 34 + 2 ^ 37)) 0).2.2.2.2.2.2.2.2.2.2.2.2.2.2.2.2.1 (by decide) (by decide)),
   ran1 ((h (cell0 ready) 0 0 (wd 0 8 (3 * 2 ^ 16 + 2 ^ 31 + 2 ^ 34 + 2 ^ 37)) 0).2.2.2.2.2.2.2.2.2.2.2.2.2.2.2.2.2.1 (by decide) (by decide)),
   ran1 ((h (cell0 ready) 0 0 (wd 0 14 (3 * 2 ^ 16 + 0 * 2 ^ 64)) 0).2.2.2.2.2.2.2.2.2.2.2.2.2.2.2.2.2.2.1 (by decide) (by decide)),
   ran1 ((h (cell0 ready) 0 0 (wd 0 14 (3 * 2 ^ 16 + 1 * 2 ^ 64)) 0).2.2.2.2.2.2.2.2.2.2.2.2.2.2.2.2.2.2.2.1 (by decide) (by decide)),
   ran1 ((h (cell0 ready) 0 0 (wd 0 14 (3 * 2 ^ 16 + 2 * 2 ^ 64)) 0).2.2.2.2.2.2.2.2.2.2.2.2.2.2.2.2.2.2.2.2.1 (by decide) (by decide)),
   ran1 ((h (cell0 ready) 0 0 (wd 0 14 (3 * 2 ^ 16 + 3 * 2 ^ 64)) 0).2.2.2.2.2.2.2.2.2.2.2.2.2.2.2.2.2.2.2.2.2.1 (by decide) (by decide)),
   ran1 ((h (cell0 ready) 0 0 (wd 0 14 (3 * 2 ^ 16 + 6 * 2 ^ 64)) 0).2.2.2.2.2.2.2.2.2.2.2.2.2.2.2.2.2.2.2.2.2.2.1 (by decide) (by decide)),
   ran1 ((h (cell0 ready) 0 0 (wd 0 14 (3 * 2 ^ 16 + 7 * 2 ^ 64)) 0).2.2.2.2.2.2.2.2.2.2.2.2.2.2.2.2.2.2.2.2.2.2.2.1 (by decide) (by decide)),
   ran1 ((h (cell0 ready) 0 0 (wd 0 14 (3 * 2 ^ 16 + 8 * 2 ^ 64)) 0).2.2.2.2.2.2.2.2.2.2.2.2.2.2.2.2.2.2.2.2.2.2.2.2.1 (by decide) (by decide)),
   ran1 ((h (cell0 ready) 0 0 (wd 0 14 (3 * 2 ^ 16 + 10 * 2 ^ 64)) 0).2.2.2.2.2.2.2.2.2.2.2.2.2.2.2.2.2.2.2.2.2.2.2.2.2.1 (by decide) (by decide)),
   ran1 ((h (cell0 ready) 0 0 (wd 0 15 (2 ^ 21 + 7 * 2 ^ 64)) 0).2.2.2.2.2.2.2.2.2.2.2.2.2.2.2.2.2.2.2.2.2.2.2.2.2.2.1 (by decide) (by decide)),
   ran1 ((h (cell0 ready) 0 0 (wd 0 15 (2 ^ 21 + 8 * 2 ^ 64)) 0).2.2.2.2.2.2.2.2.2.2.2.2.2.2.2.2.2.2.2.2.2.2.2.2.2.2.2 (by decide) (by decide))⟩
/-! ## Waits, traps and fetches -/

/-- A cell whose thread 0 has a memory operation with one request in flight and a pending load of tile register 63. -/
def waiting : State := cell0 ready { pendW := [(63, 1)] }
  (u := { ops := [{ id := 0, pk := 0, thread := 0, pc := 0, aslot := 0, kind := .ldt, reqs := [{ va := 0, len := 64, st := .sent }] }] })

theorem witness_WaitsAndEnds (h : Obligations.WaitsAndEnds) :
    Ran (.endb 0 0 (wd 0 1 (2 ^ 64))) (cell0 ready) ∧
    Ran (.waitm 0 0 (wd 0 9 (64 * 2 ^ 64))) (cell0 ready) ∧
    Ran (.waitm 0 0 (wd 0 9)) waiting ∧
    Ran (.waitt 0 0 (wd 0 10 (63 * 2 ^ 64))) (cell0 ready) ∧
    Ran (.waitt 0 0 (wd 0 10 (63 * 2 ^ 64))) waiting ∧
    Ran (.sleep 0 0 (wd 0 11 (2 ^ 64))) (cell0 ready) ∧
    Ran (.bar 0 0 (wd 0 12 (2 ^ 64 + 3 * 2 ^ 80))) (cell0 ready) ∧
    Ran (.fence 0 0 (wd 0 13 (2 ^ 64))) (cell0 ready) :=
  ⟨ran1 ((h (cell0 ready) 0 0 (wd 0 1 (2 ^ 64)) 0).1 (by decide)),
   ran1 ((h (cell0 ready) 0 0 (wd 0 9 (64 * 2 ^ 64)) 0).2.1 (by decide) (by decide) (by decide)),
   ran1 ((h waiting 0 0 (wd 0 9) 0).2.2.1 (by decide) (by decide) (by decide)),
   ran1 ((h (cell0 ready) 0 0 (wd 0 10 (63 * 2 ^ 64)) 0).2.2.2.1 (by decide) (by decide) (by decide)),
   ran1 ((h waiting 0 0 (wd 0 10 (63 * 2 ^ 64)) 0).2.2.2.2.1 (by decide) (by decide) (by decide)),
   ran1 ((h (cell0 ready) 0 0 (wd 0 11 (2 ^ 64)) 0).2.2.2.2.2.1 (by decide) (by decide)),
   ran1 ((h (cell0 ready) 0 0 (wd 0 12 (2 ^ 64 + 3 * 2 ^ 80)) 0).2.2.2.2.2.2.1 (by decide)),
   ran1 ((h (cell0 ready) 0 0 (wd 0 13 (2 ^ 64)) 0).2.2.2.2.2.2.2 (by decide) (by decide))⟩

/-- A cell whose thread 0 sleeps until now. -/
def asleep : State := cell0 { ready with st := .sleep, wait := .until_ 0 }
/-- A package in debug mode. -/
def debugging : State := cell0 ready (regs := [rg BOOT_STATUS HD 0 0 [(BOOT_STATUS_DEBUG, 1)]])

theorem witness_SleepsBreaksAndIllegalWords (h : Obligations.SleepsBreaksAndIllegalWords) :
    Ran (.sleepExpire 0 0) asleep ∧
    Ran (.brk 0 0 (wd 0 16)) (cell0 ready) ∧
    Ran (.brk 0 0 (wd 0 16)) debugging ∧
    Ran (.illegal 0 0 (wd 0 63)) (cell0 ready) :=
  ⟨ran1 ((h asleep 0 0 (wd 0 0) 0).1 0 (by decide) rfl (by decide)),
   ran1 ((h (cell0 ready) 0 0 (wd 0 16) 0).2.1 (by decide) (by decide)),
   ran1 ((h debugging 0 0 (wd 0 16) 0).2.2.1 (by decide) (by decide) (by decide)),
   ran1 ((h (cell0 ready) 0 0 (wd 0 63) 0).2.2.2 (by decide) (by decide) (by decide) (by decide) (by decide) (by decide))⟩

/-- The word at 4,208: LDS of 64 bytes at s5. -/
def aheadLoad : Nat := (wd 2 0 (5 * 2 ^ 16 + 6 * 2 ^ 26)).toNat
/-- A cell whose thread 0 awaits a condition, with that line in the instruction cache. -/
def ahead : State := paged { ready with st := .waitDep, pc := 4208 } { icache := [(icKey 0 4096, List.replicate 112 0 ++ leBytes 16 aheadLoad)] }

theorem witness_FetchScanAndHints (h : Obligations.FetchScanAndHints) :
    Ran (.instructionFetch 0 0) (paged ready) ∧
    Ran (.icacheInv 0 (2 ^ 16)) (cell0 ready) ∧
    Ran (.runAheadScan 0 0) ahead ∧
    Ran (.waitHint 0 0 3) waiting :=
  ⟨ran1 ((h (paged ready) 0 0 0 (by decide)).1 page0 (by decide) (by decide) (by decide) (by decide) (by decide) (by decide) (by decide)),
   ran1 ((h (cell0 ready) 0 0 0 (by decide)).2.1 0 (2 ^ 16) (by decide)),
   ran1 ((h ahead 0 0 0 (by decide)).2.2.1 aheadLoad { va := 4096, len := 64 } _ page0 (by decide) (by decide) (by decide) (by decide) rfl (by decide) (by decide) (by decide) (by decide) (by decide) (by decide) (by decide) (by decide) (by decide) (by decide)),
   ran1 ((h waiting 0 0 0 (by decide)).2.2.2 3 (by decide) (by decide))⟩

/-! ## Matrix and vector instructions -/

/-- A cell in the streaming role, and one of the other role, with a thread that may issue. -/
def streaming : State := cell0 ready (regs := [rg CELL_ROLE 0 0 0 [(CELL_ROLE_ROLE, 1)]])

theorem witness_MatrixMultiply (h : Obligations.MatrixMultiply) :
    Ran (.mma 0 0 (wd 3 0 (15 * 2 ^ 16))) (cell0 ready) :=
  ran1 ((h (cell0 ready) 0 0 (wd 3 0 (15 * 2 ^ 16)) 0) (by decide) (by decide) (by decide) (by decide) (by decide) (by decide) (by decide) (by decide))

theorem witness_MatrixAccumulators (h : Obligations.MatrixAccumulators) :
    Ran (.mzero 0 0 (wd 3 1 (15 * 2 ^ 16))) (cell0 ready) ∧
    Ran (.minit 0 0 (wd 3 2 (15 * 2 ^ 16 + 63 * 2 ^ 20 + 13 * 2 ^ 52))) (cell0 ready) ∧
    Ran (.mdrain 0 0 (wd 3 3 (63 * 2 ^ 20 + 4 * 2 ^ 67 + 2 ^ 70))) (cell0 ready) ∧
    Ran (.msatf 0 0 (wd 3 4 (7 * 2 ^ 64))) (cell0 ready) :=
  ⟨ran1 ((h (cell0 ready) 0 0 (wd 3 1 (15 * 2 ^ 16)) 0 (by decide)).1 (by decide)),
   ran1 ((h (cell0 ready) 0 0 (wd 3 2 (15 * 2 ^ 16 + 63 * 2 ^ 20 + 13 * 2 ^ 52)) 0 (by decide)).2.1 (by decide) (.inr (by decide)) (by decide) (by decide) (by decide)),
   ran1 ((h (cell0 ready) 0 0 (wd 3 3 (63 * 2 ^ 20 + 4 * 2 ^ 67 + 2 ^ 70)) 0 (by decide)).2.2.1 fp32 (by decide) (by decide) (by decide) (by decide) (by decide) (by decide) (by decide) (by decide) (by decide) (by decide) (by decide)),
   ran1 ((h (cell0 ready) 0 0 (wd 3 4 (7 * 2 ^ 64)) 0 (by decide)).2.2.2 (by decide))⟩

theorem witness_VectorArithmetic (h : Obligations.VectorArithmetic) :
    Ran (.vadd 0 0 (wd 4 1 (63 * 2 ^ 17))) (cell0 ready) ∧
    Ran (.vsub 0 0 (wd 4 2 (63 * 2 ^ 17))) (cell0 ready) ∧
    Ran (.vmul 0 0 (wd 4 3 (63 * 2 ^ 17))) (cell0 ready) ∧
    Ran (.vfma 0 0 (wd 4 4 (63 * 2 ^ 17))) (cell0 ready) ∧
    Ran (.vmax 0 0 (wd 4 5 (63 * 2 ^ 17))) (cell0 ready) ∧
    Ran (.vmin 0 0 (wd 4 6 (63 * 2 ^ 17))) (cell0 ready) ∧
    Ran (.vabs 0 0 (wd 4 7 (63 * 2 ^ 17))) (cell0 ready) ∧
    Ran (.vneg 0 0 (wd 4 8 (63 * 2 ^ 17))) (cell0 ready) ∧
    Ran (.vadd 0 0 (wd 4 1 (2 ^ 16 + 5 * 2 ^ 17 + 6 * 2 ^ 37))) streaming :=
  ⟨ran1 ((h (cell0 ready) 0 0 (wd 4 1 (63 * 2 ^ 17)) 0).1 (by decide) (by unfold VecRuns; decide)),
   ran1 ((h (cell0 ready) 0 0 (wd 4 2 (63 * 2 ^ 17)) 0).2.1 (by decide) (by unfold VecRuns; decide)),
   ran1 ((h (cell0 ready) 0 0 (wd 4 3 (63 * 2 ^ 17)) 0).2.2.1 (by decide) (by unfold VecRuns; decide)),
   ran1 ((h (cell0 ready) 0 0 (wd 4 4 (63 * 2 ^ 17)) 0).2.2.2.1 (by decide) (by unfold VecRuns; decide)),
   ran1 ((h (cell0 ready) 0 0 (wd 4 5 (63 * 2 ^ 17)) 0).2.2.2.2.1 (by decide) (by unfold VecRuns; decide)),
   ran1 ((h (cell0 ready) 0 0 (wd 4 6 (63 * 2 ^ 17)) 0).2.2.2.2.2.1 (by decide) (by unfold VecRuns; decide)),
   ran1 ((h (cell0 ready) 0 0 (wd 4 7 (63 * 2 ^ 17)) 0).2.2.2.2.2.2.1 (by decide) (by unfold VecRuns; decide)),
   ran1 ((h (cell0 ready) 0 0 (wd 4 8 (63 * 2 ^ 17)) 0).2.2.2.2.2.2.2 (by decide) (by unfold VecRuns; decide)),
   ran1 ((h streaming 0 0 (wd 4 1 (2 ^ 16 + 5 * 2 ^ 17 + 6 * 2 ^ 37)) 0).1 (by decide) (by unfold VecRuns; decide))⟩

theorem witness_VectorTranscendental (h : Obligations.VectorTranscendental) :
    Ran (.vrecip 0 0 (wd 4 11 (63 * 2 ^ 17))) (cell0 ready) ∧
    Ran (.vrsqrt 0 0 (wd 4 12 (63 * 2 ^ 17))) (cell0 ready) ∧
    Ran (.vsqrt 0 0 (wd 4 13 (63 * 2 ^ 17))) (cell0 ready) ∧
    Ran (.vexp 0 0 (wd 4 14 (63 * 2 ^ 17))) (cell0 ready) ∧
    Ran (.vexp2 0 0 (wd 4 15 (63 * 2 ^ 17))) (cell0 ready) ∧
    Ran (.vlog 0 0 (wd 4 16 (63 * 2 ^ 17))) (cell0 ready) ∧
    Ran (.vtanh 0 0 (wd 4 17 (63 * 2 ^ 17))) (cell0 ready) ∧
    Ran (.vsigm 0 0 (wd 4 18 (63 * 2 ^ 17))) (cell0 ready) ∧
    Ran (.vgelu 0 0 (wd 4 19 (63 * 2 ^ 17))) (cell0 ready) ∧
    Ran (.vsilu 0 0 (wd 4 20 (63 * 2 ^ 17))) (cell0 ready) :=
  ⟨ran1 ((h (cell0 ready) 0 0 (wd 4 11 (63 * 2 ^ 17)) 0).1 (by decide) (by unfold VecRuns; decide)),
   ran1 ((h (cell0 ready) 0 0 (wd 4 12 (63 * 2 ^ 17)) 0).2.1 (by decide) (by unfold VecRuns; decide)),
   ran1 ((h (cell0 ready) 0 0 (wd 4 13 (63 * 2 ^ 17)) 0).2.2.1 (by decide) (by unfold VecRuns; decide)),
   ran1 ((h (cell0 ready) 0 0 (wd 4 14 (63 * 2 ^ 17)) 0).2.2.2.1 (by decide) (by unfold VecRuns; decide)),
   ran1 ((h (cell0 ready) 0 0 (wd 4 15 (63 * 2 ^ 17)) 0).2.2.2.2.1 (by decide) (by unfold VecRuns; decide)),
   ran1 ((h (cell0 ready) 0 0 (wd 4 16 (63 * 2 ^ 17)) 0).2.2.2.2.2.1 (by decide) (by unfold VecRuns; decide)),
   ran1 ((h (cell0 ready) 0 0 (wd 4 17 (63 * 2 ^ 17)) 0).2.2.2.2.2.2.1 (by decide) (by unfold VecRuns; decide)),
   ran1 ((h (cell0 ready) 0 0 (wd 4 18 (63 * 2 ^ 17)) 0).2.2.2.2.2.2.2.1 (by decide) (by unfold VecRuns; decide)),
   ran1 ((h (cell0 ready) 0 0 (wd 4 19 (63 * 2 ^ 17)) 0).2.2.2.2.2.2.2.2.1 (by decide) (by unfold VecRuns; decide)),
   ran1 ((h (cell0 ready) 0 0 (wd 4 20 (63 * 2 ^ 17)) 0).2.2.2.2.2.2.2.2.2 (by decide) (by unfold VecRuns; decide))⟩

theorem witness_VectorSelectionsAndBits (h : Obligations.VectorSelectionsAndBits) :
    Ran (.vsel 0 0 (wd 4 10 ((63 * 2 ^ 17) + 2 ^ 58))) (cell0 ready) ∧
    Ran (.vcmp 0 0 (wd 4 9 ((63 * 2 ^ 17) + 5 * 2 ^ 64))) (cell0 ready) ∧
    Ran (.vand 0 0 (wd 4 37 (63 * 2 ^ 17))) (cell0 ready) ∧
    Ran (.vor 0 0 (wd 4 38 (63 * 2 ^ 17))) (cell0 ready) ∧
    Ran (.vxor 0 0 (wd 4 39 (63 * 2 ^ 17))) (cell0 ready) ∧
    Ran (.vtr 0 0 (wd 4 33 (63 * 2 ^ 17))) (cell0 ready) ∧
    Ran (.vtr 0 0 (wd 4 33 (2 ^ 16 + 5 * 2 ^ 17 + 6 * 2 ^ 37))) streaming :=
  ⟨ran1 ((h (cell0 ready) 0 0 (wd 4 10 ((63 * 2 ^ 17) + 2 ^ 58)) 0).1 fp32 (by decide) (by decide) (by unfold VecRuns; decide)),
   ran1 ((h (cell0 ready) 0 0 (wd 4 9 ((63 * 2 ^ 17) + 5 * 2 ^ 64)) 0).2.1 (by decide) (by unfold VecRuns; decide)),
   ran1 ((h (cell0 ready) 0 0 (wd 4 37 (63 * 2 ^ 17)) 0).2.2.1 (by decide) (by unfold VecRuns; decide)),
   ran1 ((h (cell0 ready) 0 0 (wd 4 38 (63 * 2 ^ 17)) 0).2.2.2.1 (by decide) (by unfold VecRuns; decide)),
   ran1 ((h (cell0 ready) 0 0 (wd 4 39 (63 * 2 ^ 17)) 0).2.2.2.2.1 (by decide) (by unfold VecRuns; decide)),
   ran1 ((h (cell0 ready) 0 0 (wd 4 33 (63 * 2 ^ 17)) 0).2.2.2.2.2 (by decide) (by unfold VecRuns; decide)),
   ran1 ((h streaming 0 0 (wd 4 33 (2 ^ 16 + 5 * 2 ^ 17 + 6 * 2 ^ 37)) 0).2.2.2.2.2 (by decide) (by unfold VecRuns; decide))⟩

theorem witness_VectorReductionsAndConversions (h : Obligations.VectorReductionsAndConversions) :
    Ran (.vrsum 0 0 (wd 4 24 ((63 * 2 ^ 17) + 2 * 2 ^ 64))) (cell0 ready) ∧
    Ran (.vrmax 0 0 (wd 4 25 ((63 * 2 ^ 17) + 2 * 2 ^ 64))) (cell0 ready) ∧
    Ran (.vrmin 0 0 (wd 4 26 ((63 * 2 ^ 17) + 2 * 2 ^ 64))) (cell0 ready) ∧
    Ran (.vrssq 0 0 (wd 4 27 ((63 * 2 ^ 17) + 2 * 2 ^ 64))) (cell0 ready) ∧
    Ran (.vrmvar 0 0 (wd 4 28 ((63 * 2 ^ 17) + 2 * 2 ^ 64))) (cell0 ready) ∧
    Ran (.vrsum 0 0 (wd 4 24 ((2 ^ 16 + 5 * 2 ^ 17 + 6 * 2 ^ 37) + 64 * 2 ^ 96))) streaming ∧
    Ran (.vsoftmax 0 0 (wd 4 32 (63 * 2 ^ 17))) (cell0 ready) ∧
    Ran (.vcvt 0 0 (wd 4 0 ((63 * 2 ^ 17) + 2 ^ 45))) (cell0 ready) ∧
    Ran (.vocc 0 0 (wd 4 34 (2 ^ 16 + 6 * 2 ^ 37))) streaming ∧
    Ran (.vocc 0 0 (wd 4 34 (63 * 2 ^ 23))) (cell0 ready) :=
  ⟨ran1 ((h (cell0 ready) 0 0 (wd 4 24 ((63 * 2 ^ 17) + 2 * 2 ^ 64)) 0).1 (by decide) (by unfold VecRuns; decide)),
   ran1 ((h (cell0 ready) 0 0 (wd 4 25 ((63 * 2 ^ 17) + 2 * 2 ^ 64)) 0).2.1 (by decide) (by unfold VecRuns; decide)),
   ran1 ((h (cell0 ready) 0 0 (wd 4 26 ((63 * 2 ^ 17) + 2 * 2 ^ 64)) 0).2.2.1 (by decide) (by unfold VecRuns; decide)),
   ran1 ((h (cell0 ready) 0 0 (wd 4 27 ((63 * 2 ^ 17) + 2 * 2 ^ 64)) 0).2.2.2.1 (by decide) (by unfold VecRuns; decide)),
   ran1 ((h (cell0 ready) 0 0 (wd 4 28 ((63 * 2 ^ 17) + 2 * 2 ^ 64)) 0).2.2.2.2.1 (by decide) (by unfold VecRuns; decide)),
   ran1 ((h streaming 0 0 (wd 4 24 ((2 ^ 16 + 5 * 2 ^ 17 + 6 * 2 ^ 37) + 64 * 2 ^ 96)) 0).1 (by decide) (by unfold VecRuns; decide)),
   ran1 ((h (cell0 ready) 0 0 (wd 4 32 (63 * 2 ^ 17)) 0).2.2.2.2.2.1 (by decide) (by unfold VecRuns; decide)),
   ran1 ((h (cell0 ready) 0 0 (wd 4 0 ((63 * 2 ^ 17) + 2 ^ 45)) 0).2.2.2.2.2.2.1 (by decide) (by unfold VecRuns; decide)),
   ran1 ((h streaming 0 0 (wd 4 34 (2 ^ 16 + 6 * 2 ^ 37)) 0).2.2.2.2.2.2.2.1 (by decide) (by decide) (by decide) (by decide) (by decide) (by decide) (by decide)),
   ran1 ((h (cell0 ready) 0 0 (wd 4 34 (63 * 2 ^ 23)) 0).2.2.2.2.2.2.2.2 (by decide) (by decide) (by decide) (by decide) (by decide))⟩

/-! ## Routing -/

/-- A cell with a combine record without choices at the start of its scratchpad (s9 = 1 token). -/
def combining : State := cell0 { ready with s := ready.s ++ [(9, 1)] } { spad := ({} : Ram).put 0 (List.replicate 128 0) }
/-- A cell with a block mask of one block, PARTIAL, at the start of its scratchpad. -/
def masking : State :=
  cell0 ready { spad := ({} : Ram).put 0 (leBytes 4 1 ++ leBytes 4 1 ++ leBytes 8 0 ++ leBytes 8 1024 ++ leBytes 8 2048 ++
    List.replicate 32 0 ++ leBytes 8 3) }
/-- A cell with a choice record of one candidate, expert 5, at the start of its scratchpad (s9 = 1 token), and table 0 of die 0
in a state. -/
def routing (st : Nat) : State :=
  cell0 { ready with s := ready.s ++ [(9, 1)] } { spad := ({} : Ram).put 0 (leBytes 4 0 ++ [1, 0, 0, 0, 5, 0] ++ List.replicate 54 0) }
    (regs := [rg ROUTE_TBL 0 0 0 [(ROUTE_TBL_STATE, st)]])

theorem witness_RoutingTokens (h : Obligations.RoutingTokens) :
    Ran (.rtopk 0 0 (wd 8 0 (2 * 2 ^ 31 + 5 * 2 ^ 36 + (7 + 8 * 2 ^ 10) * 2 ^ 64))) (cell0 ready) ∧
    Ran (.rtopk 0 0 (wd 8 0 (0 * 2 ^ 31 + 5 * 2 ^ 36 + (7 + 8 * 2 ^ 10) * 2 ^ 64))) (cell0 ready) ∧
    Ran (.rcomb 0 0 (wd 8 3 (9 * 2 ^ 31 + 5 * 2 ^ 36 + (64 + 2 ^ 16) * 2 ^ 64))) combining ∧
    Ran (.rcomb 0 0 (wd 8 3 (5 * 2 ^ 36 + (64 + 2 ^ 16) * 2 ^ 64))) (cell0 ready) :=
  ⟨ran1 ((h (cell0 ready) 0 0 (wd 8 0 (2 * 2 ^ 31 + 5 * 2 ^ 36 + (7 + 8 * 2 ^ 10) * 2 ^ 64)) 0 (by decide)).1 (by decide) (by decide) (by decide) ⟨by decide, by decide⟩),
   ran1 ((h (cell0 ready) 0 0 (wd 8 0 (0 * 2 ^ 31 + 5 * 2 ^ 36 + (7 + 8 * 2 ^ 10) * 2 ^ 64)) 0 (by decide)).2.1 (by decide) (by decide) (by decide)),
   ran1 ((h combining 0 0 (wd 8 3 (9 * 2 ^ 31 + 5 * 2 ^ 36 + (64 + 2 ^ 16) * 2 ^ 64)) 0 (by decide)).2.2.1 (by decide) (by decide) (by decide) ⟨by decide, by decide⟩),
   ran1 ((h (cell0 ready) 0 0 (wd 8 3 (5 * 2 ^ 36 + (64 + 2 ^ 16) * 2 ^ 64)) 0 (by decide)).2.2.2 (by decide) (by decide) (by decide))⟩

theorem witness_RoutingMasks (h : Obligations.RoutingMasks) :
    Ran (.ramx 0 0 (wd 8 4 (1 * 2 ^ 41 + 63 * 2 ^ 52))) (cell0 ready) ∧
    Ran (.rbmask 0 0 (wd 8 5 (0 * 2 ^ 16 + 6 * 2 ^ 21 + 5 * 2 ^ 36))) (cell0 ready) ∧
    Ran (.rbnext 0 0 (wd 8 6 (0 * 2 ^ 16 + 7 * 2 ^ 41))) masking ∧
    Ran (.rbemask 0 0 (wd 8 7 (3 * 2 ^ 64 + 63 * 2 ^ 52))) masking :=
  ⟨ran1 ((h (cell0 ready) 0 0 (wd 8 4 (1 * 2 ^ 41 + 63 * 2 ^ 52)) 0).1 (by decide) (by decide) (by decide) ⟨by decide, by decide⟩ ⟨by decide, by decide⟩),
   ran1 ((h (cell0 ready) 0 0 (wd 8 5 (0 * 2 ^ 16 + 6 * 2 ^ 21 + 5 * 2 ^ 36)) 0).2.1 (by decide) (by decide) (by decide) (by decide) ⟨by decide, by decide⟩),
   ran1 ((h masking 0 0 (wd 8 6 (0 * 2 ^ 16 + 7 * 2 ^ 41)) 0).2.2.1 (by decide) (by decide) ⟨by decide, by decide⟩),
   ran1 ((h masking 0 0 (wd 8 7 (3 * 2 ^ 64 + 63 * 2 ^ 52)) 0).2.2.2 (by decide) (by decide) (by decide) ⟨by decide, by decide⟩ ⟨by decide, by decide⟩)⟩

theorem witness_DispatchInstructions (h : Obligations.DispatchInstructions) :
    Ran (.rdisp 0 0 (wd 8 1 (9 * 2 ^ 31 + 5 * 2 ^ 36 + 2 * 2 ^ 64))) (routing 2) ∧
    Ran (.rrndOpen 0 0 (wd 8 2 (5 * 2 ^ 16))) (cell0 ready) ∧
    Ran (.rrndClose 0 0 (wd 8 2 (2 * 2 ^ 64))) (routing 2) ∧
    Ran (.rrndAbort 0 0 (wd 8 2 (4 * 2 ^ 64))) (cell0 ready) ∧
    Ran (.rrndAbort 0 0 (wd 8 2 (4 * 2 ^ 64))) (routing 1) ∧
    Ran (.rrndAbort 0 0 (wd 8 2 (4 * 2 ^ 64))) (routing 3) :=
  ⟨ran1 ((h (routing 2) 0 0 (wd 8 1 (9 * 2 ^ 31 + 5 * 2 ^ 36 + 2 * 2 ^ 64)) 0 (by decide)).1 (by decide) (by decide) (by decide) (by decide) (by decide) (by decide) (by decide) ⟨by decide, by decide⟩ (by decide) (by decide) (by decide)),
   ran1 ((h (cell0 ready) 0 0 (wd 8 2 (5 * 2 ^ 16)) 0 (by decide)).2.1 (by decide) (by decide) (by decide) (by decide) (by decide)),
   ran1 ((h (routing 2) 0 0 (wd 8 2 (2 * 2 ^ 64)) 0 (by decide)).2.2.1 (by decide) (by decide) (by decide) (by decide)),
   ran1 ((h (cell0 ready) 0 0 (wd 8 2 (4 * 2 ^ 64)) 0 (by decide)).2.2.2.1 (by decide) (by decide) (by decide)),
   ran2 ((h (routing 1) 0 0 (wd 8 2 (4 * 2 ^ 64)) 0 (by decide)).2.2.2.2.1 (by decide) (by decide) (by decide) (by decide) (by decide)),
   ran2 ((h (routing 3) 0 0 (wd 8 2 (4 * 2 ^ 64)) 0 (by decide)).2.2.2.2.2 (by decide) (by decide) (.inr (by decide)) (by decide) (by decide))⟩

/-- Die 0 with table 0 in a state, one claim of an RDISP at its first lane, one speculative fetch in flight, and memory as given. -/
def rounds (st : Nat) (b : RouteTbl) (mem : List Host.Cell := []) (late : Bool := false) : State :=
  bare (slot0 ++ [rg ROUTE_TBL 0 0 0 [(ROUTE_TBL_STATE, st)]])
    { xlat := { tlb := [page0] },
      route := { tables := [(0, b)], lanes := [(0, [{ disp := 7, token := 0, rank := 1, expert := 0, late := late }])],
                 spec := [{ die := 0, tbl := 0, expert := 0, va := 8192, len := 512, gran := 16 }],
                 disps := [{ op := 7, pk := 0, c := 0, thread := 0, pc := 0, w := 0, tbl := 0, k := 2, renorm := false,
                             mout := false, rc := 0, rd := 0, left := 2, tokens := [{ record := List.replicate 64 0, nextRank := 2 }] }] } } mem
/-- An expert entry with its list at 4,096. -/
def expert0 (cap : Nat) (null : Bool) : Expert :=
  { cap := cap, null := null, isLocal := true, dest := 0, dlist := 4096, rowBase := 0, wtiles := 0, wbase := 0 }
/-- A page of memory with a route descriptor of one expert at 4,096 and its summary at 7,936. -/
def descriptor : List Host.Cell := [(4096, 1), (4105, 31)]

theorem witness_DispatchUnit (h : Obligations.DispatchUnit) :
    Ran (.dispatchClaim 0 0 0) (rounds 3 {} [] true) ∧
    Ran (.dispatchClaim 0 0 0) (rounds 2 {}) ∧
    Ran (.dispatchClaim 0 0 0) (rounds 2 { experts := [expert0 0 true] }) ∧
    Ran (.dispatchClaim 0 0 0) (rounds 2 { experts := [expert0 0 false] }) ∧
    Ran (.dispatchClaim 0 0 0) (rounds 2 { experts := [expert0 1 false] }) ∧
    Ran (.routeTableLoaded 0 0) (rounds 1 { va := 4096 } descriptor) ∧
    Ran (.speculativeLineArrive 0 0 0 8192) (rounds 2 {}) ∧
    Ran (.roundCloseDone 0 0) (rounds 3 { summary := 4096 } [] true) ∧
    Ran (.predClear 0 256) (bare []) :=
  ⟨ran1 ((h (rounds 3 {} [] true) 0 0 0).1 _ _ _ none true rfl rfl (by decide) (.inl ⟨rfl, rfl, rfl⟩)),
   ran1 ((h (rounds 2 {}) 0 0 0).1 _ _ _ none false rfl rfl (by decide) (.inr ⟨rfl, rfl, by decide, .inl ⟨rfl, rfl⟩⟩)),
   ran1 ((h (rounds 2 { experts := [expert0 0 true] }) 0 0 0).1 _ _ _ (some 0xFFFFFFFE) false rfl rfl (by decide) (.inr ⟨rfl, rfl, by decide, .inr ⟨_, rfl, .inl ⟨rfl, rfl⟩⟩⟩)),
   ran1 ((h (rounds 2 { experts := [expert0 0 false] }) 0 0 0).1 _ _ _ none false rfl rfl (by decide) (.inr ⟨rfl, rfl, by decide, .inr ⟨_, rfl, .inr ⟨rfl, by decide, rfl⟩⟩⟩)),
   ran1 ((h (rounds 2 { experts := [expert0 1 false] }) 0 0 0).2.1 _ _ _ _ _ page0 rfl rfl (by decide) rfl (by decide) rfl rfl (by decide) (by decide) rfl (by decide) (by decide) (by decide) (by decide)),
   ran2 ((h (rounds 1 { va := 4096 } descriptor) 0 0 0).2.2.1 page0 page0 _ (by decide) (by decide) (by decide) (by decide) (by decide) (by decide) (by decide) (by decide) (by decide) (by decide) rfl),
   ran2 ((h (rounds 2 {}) 0 0 0).2.2.2.1 0 8192 _ rfl rfl rfl (by decide)),
   ran2 ((h (rounds 3 { summary := 4096 } [] true) 0 0 0).2.2.2.2.1 page0 (by decide) (by decide) (.inl rfl) (by decide) (by decide) (by decide) (by decide) (by decide) (by decide)),
   ran1 ((h (bare []) 0 0 0).2.2.2.2.2 256 (by decide))⟩

/-! ## Memory instructions -/

theorem witness_MemoryInstructionsLaunch (h : Obligations.MemoryInstructionsLaunch) :
    Ran (.lds 0 0 (wd 2 0 (5 * 2 ^ 16 + 6 * 2 ^ 26 + 2 ^ 51))) (cell0 ready) ∧
    Ran (.ldt 0 0 (wd 2 1 (5 * 2 ^ 16 + 62 * 2 ^ 41 + 2 ^ 47))) (cell0 ready) ∧
    Ran (.sts 0 0 (wd 2 2 (5 * 2 ^ 16 + 6 * 2 ^ 26))) (cell0 ready) ∧
    Ran (.stt 0 0 (wd 2 3 (5 * 2 ^ 16 + 63 * 2 ^ 41))) (cell0 ready) ∧
    Ran (.gath 0 0 (wd 5 0 (5 * 2 ^ 16 + 2 * 2 ^ 31 + 6 * 2 ^ 36 + 6 * 2 ^ 41))) (cell0 ready) ∧
    Ran (.scat 0 0 (wd 5 1 (5 * 2 ^ 16 + 2 * 2 ^ 31 + 6 * 2 ^ 36 + 6 * 2 ^ 41))) (cell0 ready) :=
  ⟨ran1 ((h (cell0 ready) 0 0 (wd 2 0 (5 * 2 ^ 16 + 6 * 2 ^ 26 + 2 ^ 51)) 0).1 (by decide) (by decide) ⟨by decide, by decide, by decide, ⟨by decide, by decide⟩⟩ (by decide)),
   ran1 ((h (cell0 ready) 0 0 (wd 2 1 (5 * 2 ^ 16 + 62 * 2 ^ 41 + 2 ^ 47)) 0).2.1 (by decide) (by decide) (by decide) (by decide) (by decide)),
   ran1 ((h (cell0 ready) 0 0 (wd 2 2 (5 * 2 ^ 16 + 6 * 2 ^ 26)) 0).2.2.1 (by decide) (by decide) ⟨by decide, by decide, by decide, ⟨by decide, by decide⟩⟩ (by decide) (by decide)),
   ran1 ((h (cell0 ready) 0 0 (wd 2 3 (5 * 2 ^ 16 + 63 * 2 ^ 41)) 0).2.2.2.1 (by decide) (by decide) (by decide) (by decide) (by decide) (by decide) (by decide) (by decide)),
   ran1 ((h (cell0 ready) 0 0 (wd 5 0 (5 * 2 ^ 16 + 2 * 2 ^ 31 + 6 * 2 ^ 36 + 6 * 2 ^ 41)) 0).2.2.2.2.1 (by decide) (by decide) (by decide) ⟨by decide, by decide⟩),
   ran1 ((h (cell0 ready) 0 0 (wd 5 1 (5 * 2 ^ 16 + 2 * 2 ^ 31 + 6 * 2 ^ 36 + 6 * 2 ^ 41)) 0).2.2.2.2.2 (by decide) (by decide) (by decide) ⟨by decide, by decide⟩)⟩

theorem witness_MovesAndPrefetch (h : Obligations.MovesAndPrefetch) :
    Ran (.mvst 0 0 (wd 2 4 (5 * 2 ^ 21 + 63 * 2 ^ 41))) (cell0 ready) ∧
    Ran (.mvts 0 0 (wd 2 5 (5 * 2 ^ 21 + 63 * 2 ^ 41))) (cell0 ready) ∧
    Ran (.pfb 0 0 (wd 2 6 (5 * 2 ^ 16 + 6 * 2 ^ 26 + 7 * 2 ^ 64))) (cell0 ready) ∧
    Ran (.pfw 0 0 (wd 2 7 (7 * 2 ^ 55 + 7 * 2 ^ 64))) (cell0 ready) ∧
    Ran (.pfr 0 0 (wd 2 8 (7 * 2 ^ 64))) (cell0 ready) :=
  ⟨ran1 ((h (cell0 ready) 0 0 (wd 2 4 (5 * 2 ^ 21 + 63 * 2 ^ 41)) 0).1 (by decide) (by decide) (by decide) ⟨by decide, by decide⟩ (by decide)),
   ran1 ((h (cell0 ready) 0 0 (wd 2 5 (5 * 2 ^ 21 + 63 * 2 ^ 41)) 0).2.1 (by decide) (by decide) (by decide) (by decide) ⟨by decide, by decide⟩ (by decide) (by decide)),
   ran1 ((h (cell0 ready) 0 0 (wd 2 6 (5 * 2 ^ 16 + 6 * 2 ^ 26 + 7 * 2 ^ 64)) 0).2.2.1 (by decide) (by decide) (by decide) (by decide) (by decide) (by decide) (by decide) ⟨by decide, by decide⟩),
   ran1 ((h (cell0 ready) 0 0 (wd 2 7 (7 * 2 ^ 55 + 7 * 2 ^ 64)) 0).2.2.2.1 (by decide) (by decide)),
   ran2 ((h (cell0 ready) 0 0 (wd 2 8 (7 * 2 ^ 64)) 0).2.2.2.2 (by decide))⟩

/-- A load or a store of 64 bytes of thread 0 of physical cell 0, with its one request in flight. -/
def flying (kind : OpKind) : MemOp :=
  { id := 0, pk := 0, thread := 0, pc := 0, aslot := 0, kind := kind, started := true,
    reqs := [{ va := 4096, len := 64, pa := 4096, st := .sent, data := if kind = .lds then [] else List.replicate 64 1 }] }
/-- A cell with that operation in progress. -/
def inFlight (kind : OpKind) : State := cell0 ready (u := { ops := [flying kind] })

theorem witness_ResponsesCompleteOperations (h : Obligations.ResponsesCompleteOperations) :
    Ran (.loadResponse 0 0 false) (inFlight .lds) ∧
    Ran (.storeComplete 0 0) (inFlight .sts) ∧
    Ran (.storeComplete 0 0) (inFlight .stt) :=
  ⟨ran1 ((h (inFlight .lds) 0 (flying .lds) _ (by decide) (by decide) rfl (by decide) (by decide) (by decide) (by decide) (by decide) (by decide) (by decide) (by decide) (by decide) (by decide) (by decide)).1 rfl),
   ran1 ((h (inFlight .sts) 0 (flying .sts) _ (by decide) (by decide) rfl (by decide) (by decide) (by decide) (by decide) (by decide) (by decide) (by decide) (by decide) (by decide) (by decide) (by decide)).2 (.inl rfl) (by decide) (by decide) (by decide) (by decide)),
   ran1 ((h (inFlight .stt) 0 (flying .stt) _ (by decide) (by decide) rfl (by decide) (by decide) (by decide) (by decide) (by decide) (by decide) (by decide) (by decide) (by decide) (by decide) (by decide)).2 (.inr rfl) (by decide) (by decide) (by decide) (by decide))⟩

/-! ## Transfers and moulds -/

theorem witness_TransfersStart (h : Obligations.TransfersStart) :
    Ran (.dmaCopy (.queue 0) 0) (withCmd (started 16 [64, 4096, 2 ^ 40])) ∧
    Ran (.dmaCopy2d (.queue 0) 0) (withCmd (started 17 [64, 4096, 128, 2, 128, 128])) ∧
    Ran (.dmaFill (.queue 0) 0) (withCmd (started 18 [4096, 128, 7])) ∧
    Ran (.dmaTiles (.queue 0) 0) (withCmd (started 19 [64, 4096, 1])) ∧
    Ran (.ltPut (.queue 0) 0) (withCmd (started 48 [64, 4096, 128])) ∧
    Ran (.ltGet (.queue 0) 0) (withCmd (started 49 [64, 4096, 128])) :=
  ⟨ran1 ((h (withCmd (started 16 [64, 4096, 2 ^ 40])) (.queue 0) 0 (started 16 [64, 4096, 2 ^ 40])).1 ⟨rfl, by unfold Single; decide, rfl, rfl, rfl⟩ (by decide) (by decide) (by decide) (by decide)),
   ran1 ((h (withCmd (started 17 [64, 4096, 128, 2, 128, 128])) (.queue 0) 0 (started 17 [64, 4096, 128, 2, 128, 128])).2.1 ⟨rfl, by unfold Single; decide, rfl, rfl, rfl⟩ (by decide) (by decide) (by decide) (fun _ => by decide) (by decide)),
   ran1 ((h (withCmd (started 18 [4096, 128, 7])) (.queue 0) 0 (started 18 [4096, 128, 7])).2.2.1 ⟨rfl, by unfold Single; decide, rfl, rfl, rfl⟩ (by decide) (by decide) (by decide) (by decide)),
   ran1 ((h (withCmd (started 19 [64, 4096, 1])) (.queue 0) 0 (started 19 [64, 4096, 1])).2.2.2.1 (fun _ => [(64, 8)]) (fun _ => [(4096, 8)]) ⟨rfl, by unfold Single; decide, rfl, rfl, rfl⟩ (by decide) (by decide) (by decide)
     (by intro i hi; obtain rfl : i = 0 := by (have : i < 1 := hi); omega
         exact ⟨⟨mapped1 _ _ (by decide) (by decide) (by decide), by decide⟩, ⟨mapped1 _ _ (by decide) (by decide) (by decide), by decide⟩, by decide, by decide⟩) (by decide)),
   ran1 ((h (withCmd (started 48 [64, 4096, 128])) (.queue 0) 0 (started 48 [64, 4096, 128])).2.2.2.2.1 ⟨rfl, by unfold Single; decide, rfl, rfl, rfl⟩ (by decide) (by decide) ⟨by decide, by decide, by decide⟩ (by decide) (by decide) (by decide) (by decide)),
   ran1 ((h (withCmd (started 49 [64, 4096, 128])) (.queue 0) 0 (started 49 [64, 4096, 128])).2.2.2.2.2 ⟨rfl, by unfold Single; decide, rfl, rfl, rfl⟩ (by decide) (by decide) ⟨by decide, by decide, by decide⟩ (by decide) (by decide))⟩

theorem witness_DmaChunkMovesItsBytes (h : Obligations.DmaChunkMovesItsBytes) :
    Ran (.dmaChunkDone (.queue 0) 0 0 false) (withCmd { started 16 [64, 4096, 128] with stage := 1, total := 1, sent := 1 }) ∧
    Ran (.dmaChunkDone (.queue 0) 0 0 false) (withCmd { started 18 [4096, 128, 7] with stage := 1, total := 1, sent := 1 }) :=
  ⟨ran2 ((h (withCmd { started 16 [64, 4096, 128] with stage := 1, total := 1, sent := 1 }) (.queue 0) 0 0 false { started 16 [64, 4096, 128] with stage := 1, total := 1, sent := 1 } [(64, 128)] [(4096, 128)] rfl (by decide) (by decide) (by decide)
     ⟨mapped1 _ _ (by decide) (by decide) (by decide), by decide⟩ (by decide)).1 (.inl rfl) ⟨mapped1 _ _ (by decide) (by decide) (by decide), by decide⟩ (fun j hj => by revert j; decide)),
   ran2 ((h (withCmd { started 18 [4096, 128, 7] with stage := 1, total := 1, sent := 1 }) (.queue 0) 0 0 false { started 18 [4096, 128, 7] with stage := 1, total := 1, sent := 1 } [] [(4096, 128)] rfl (by decide) (by decide) (by decide)
     ⟨mapped1 _ _ (by decide) (by decide) (by decide), by decide⟩ (by decide)).2 rfl rfl (by decide))⟩

/-- A good codebook of four FP8 entries of zero, at 4,096. -/
def codebook : List Host.Cell := [(4096, 0x56), (4097, 0x43), (4098, 1), (4099, 3), (4100, 1), (4101, 2), (4104, 4),
  (4108, 0xC7), (4109, 0x4B), (4110, 0x67), (4111, 0x48)]

theorem witness_MouldsLoadAndRetire (h : Obligations.MouldsLoadAndRetire) :
    Ran (.vqMouldLoad (.queue 0) 0) (withCmd (started 32 [3 + 15 * 2 ^ 8 + 2 ^ 16, 4096]) []) ∧
    Ran (.mouldLoadDone (.queue 0) 0) (withCmd { started 32 [3 + 15 * 2 ^ 8 + 2 ^ 16, 4096] with stage := 1 } [] {} codebook) ∧
    Ran (.vqMouldRetire (.queue 0) 0) (withCmd (started 33 [3 + 15 * 2 ^ 8 + 2 ^ 16]) [rg VQ_MOULD 3 15 0 [(VQ_MOULD_STATE, 2), (VQ_MOULD_GEN, 1)]]) :=
  ⟨ran1 ((h (withCmd (started 32 [3 + 15 * 2 ^ 8 + 2 ^ 16, 4096]) []) (.queue 0) 0 (started 32 [3 + 15 * 2 ^ 8 + 2 ^ 16, 4096])).1 (by decide) (by decide) (by decide) (by decide) (by decide) (by decide) (by decide) (by decide)),
   ran2 ((h (withCmd { started 32 [3 + 15 * 2 ^ 8 + 2 ^ 16, 4096] with stage := 1 } [] {} codebook) (.queue 0) 0 { started 32 [3 + 15 * 2 ^ 8 + 2 ^ 16, 4096] with stage := 1 }).2.1 [(4096, 64)] [(4160, 4)] (by decide) (by decide) (by decide) ⟨mapped1 _ _ (by decide) (by decide) (by decide), by decide⟩ (by decide) ⟨mapped1 _ _ (by decide) (by decide) (by decide), by decide⟩ (by set_option maxRecDepth 10000 in decide)),
   ran2 ((h (withCmd (started 33 [3 + 15 * 2 ^ 8 + 2 ^ 16]) [rg VQ_MOULD 3 15 0 [(VQ_MOULD_STATE, 2), (VQ_MOULD_GEN, 1)]]) (.queue 0) 0 (started 33 [3 + 15 * 2 ^ 8 + 2 ^ 16])).2.2 (by decide) (by decide) (by decide) (by decide) (by decide) (by decide))⟩

/-! ## Casting at the point of use -/

/-- A block of one FP8 element, entry 2 of mould 0 at generation 1; its CRC was computed by hand from R310. -/
def block0 : List Byte := [81, 86, 1, 0, 0, 3, 1, 0, 1, 0, 0, 0, 0, 0, 0, 0, 2, 0, 0, 0, 144, 65, 154, 23, 0, 0, 0, 0, 0, 0, 0, 0, 2]
/-- Mould 0 of die 0: LIVE, generation 1, four entries of one FP8 element. -/
def mould0 : List (Nat × Word) := [rg VQ_MOULD 0 0 0 [(VQ_MOULD_STATE, 2), (VQ_MOULD_GEN, 1)],
  rg CELL_ROLE 0 0 0 [(CELL_ROLE_ROLE, 4)],
  rg VQ_MOULD_GEOM 0 0 0 [(VQ_MOULD_GEOM_FMT, 3), (VQ_MOULD_GEOM_V, 1), (VQ_MOULD_GEOM_B, 2), (VQ_MOULD_GEOM_BYTES, 4)],
  (BOOT_CAP_SELF_HI.key 0 0 0, BitVec.ofNat 64 (2 ^ 51))]

theorem witness_CastingAtUse (h : Obligations.CastingAtUse) :
    Ran (.vqatt 0 0 (wd 6 8 (5 * 2 ^ 16 + 2 ^ 80))) (cell0 ready (regs := mould0)) ∧
    Ran (.vqx 0 0 (wd 6 9 (5 * 2 ^ 16 + 6 * 2 ^ 36))) (cell0 ready { spad := ({} : Ram).put 4096 block0, att := [(0, 0, 1, 8192)] } mould0) ∧
    Ran (.vqrel 0 0 (wd 6 10 0)) (cell0 ready (regs := mould0)) :=
  ⟨ran1 ((h (cell0 ready (regs := mould0)) 0 0 (wd 6 8 (5 * 2 ^ 16 + 2 ^ 80)) 0).1 (by decide) (by decide) rfl (by decide) (by decide) (by decide) (by decide) (by decide) ⟨by decide, by decide⟩ (by decide)),
   ran1 ((h (cell0 ready { spad := ({} : Ram).put 4096 block0, att := [(0, 0, 1, 8192)] } mould0) 0 0 (wd 6 9 (5 * 2 ^ 16 + 6 * 2 ^ 36)) 0).2.1 0 1 8192 (by decide) (by decide) (by decide) rfl (by decide) (by decide) rfl rfl (by decide) ⟨by decide, by decide⟩ (by decide +kernel) (by decide +kernel)),
   ran1 ((h (cell0 ready (regs := mould0)) 0 0 (wd 6 10 0) 0).2.2 (by decide))⟩

/-! ## Memory, the bulk tier and coherence -/

theorem witness_HbmCommands (h : Obligations.HbmCommands) :
    Ran (.hbmRead 4096 0 0 []) (bare []) ∧
    Ran (.hbmRead 4096 0 0 [(71, 1)]) (bare []) ∧
    Ran (.hbmWrite 4096 1 7 0 0) (bare []) ∧
    Ran (.hbmRefresh 3 191 63) (bare []) ∧
    Ran (.scrubRead 0 []) (bare [rg MEM_CTL 0 0 0 [(MEM_CTL_SCRUB_EN, 1)]]) ∧
    Ran (.memRetireAdd 4 (0x10000000000)) (bare []) ∧
    Ran (.retireTakesEffect 0 1) (bare [] { mem := { retiring := [1] } }) :=
  ⟨ran1 ((h (bare []) 4096 0 0 0).1 (by decide)),
   ran1 ((h (bare []) 4096 0 0 0).2.1 [(71, 1)] 0 _ _ _ rfl (by decide) (by decide) (by decide) (by decide)),
   ran1 ((h (bare []) 4096 0 0 0).2.2.1 1 7 (by decide)),
   ran1 ((h (bare []) 0 0 0 3).2.2.2.1 191 63 (by decide)),
   ran1 ((h (bare [rg MEM_CTL 0 0 0 [(MEM_CTL_SCRUB_EN, 1)]]) 0 0 0 0).2.2.2.2.1 (by decide) (by decide)),
   ran1 ((h (bare []) 0 0 4 0).2.2.2.2.2.1 0x10000000000 (by decide) (by decide) (by decide) (by decide) (by decide)),
   ran1 ((h (bare [] { mem := { retiring := [1] } }) 0 0 0 0).2.2.2.2.2.2 1 (by decide) (by decide) (by decide) (by decide))⟩

theorem witness_BulkTierCommands (h : Obligations.BulkTierCommands) :
    Ran (.bulkRequest 7 3 none true 0 0 none) (bare [rg MEM_BULK_CFG HD 7 0 [(MEM_BULK_CFG_EN, 1), (MEM_BULK_CFG_SIZE_GIB, 1)]]) ∧
    Ran (.bulkRequest 7 3 (some 5) true 0 0 none) (bare [rg MEM_BULK_CFG HD 7 0 [(MEM_BULK_CFG_EN, 1), (MEM_BULK_CFG_SIZE_GIB, 1)]]) ∧
    Ran (.bulkRequest 7 3 (some 5) false 0 0 none) (bare [rg MEM_BULK_CFG HD 7 0 [(MEM_BULK_CFG_EN, 1), (MEM_BULK_CFG_SIZE_GIB, 1)]]) ∧
    Ran (.bulkRequest 7 3 none false 0 0 none) (bare [rg MEM_BULK_CFG HD 7 0 [(MEM_BULK_CFG_EN, 1), (MEM_BULK_CFG_SIZE_GIB, 1)]]) ∧
    Ran (.tierTimeout 1) (bare [rg MEM_BULK_CFG HD 7 0 [(MEM_BULK_CFG_EN, 1), (MEM_BULK_CFG_SIZE_GIB, 1)]] {  mem := { bulk := [{ id := 1, port := 7, la := portBase 7, len := 64, write := true, data := List.replicate 64 1, timedOut := false }] }, time := { elapsed := 10 ^ 40 } }) ∧
    Ran (.bulkLateCompletion 1) (bare [rg MEM_BULK_CFG HD 7 0 [(MEM_BULK_CFG_EN, 1), (MEM_BULK_CFG_SIZE_GIB, 1)]] {  mem := { bulk := [{ id := 1, port := 7, la := portBase 7, len := 64, write := true, data := List.replicate 64 1, timedOut := true }] }, time := { elapsed := 0 } }) ∧
    Ran (.portFault 7 true) (bare [rg MEM_BULK_STATUS HD 7 0 [(MEM_BULK_STATUS_STATE, 1), (MEM_BULK_STATUS_LINK_UP, 1)]]) ∧
    Ran (.bulkEnable 7 1) (bare [rg MEM_BULK_STATUS HD 7 0 [(MEM_BULK_STATUS_LINK_UP, 1)]]) ∧
    Ran (.cxlLinkUp 7 true 64 false) (bare []) :=
  ⟨ran1 ((h (bare [rg MEM_BULK_CFG HD 7 0 [(MEM_BULK_CFG_EN, 1), (MEM_BULK_CFG_SIZE_GIB, 1)]]) 7 3 5 0 0 192).1 ⟨by decide, by decide, by decide⟩ (by decide)),
   ran1 ((h (bare [rg MEM_BULK_CFG HD 7 0 [(MEM_BULK_CFG_EN, 1), (MEM_BULK_CFG_SIZE_GIB, 1)]]) 7 3 5 0 0 192).2.1 ⟨by decide, by decide, by decide⟩ (by decide)),
   ran1 ((h (bare [rg MEM_BULK_CFG HD 7 0 [(MEM_BULK_CFG_EN, 1), (MEM_BULK_CFG_SIZE_GIB, 1)]]) 7 3 5 0 0 192).2.2.1 true ⟨by decide, by decide, by decide⟩),
   ran1 ((h (bare [rg MEM_BULK_CFG HD 7 0 [(MEM_BULK_CFG_EN, 1), (MEM_BULK_CFG_SIZE_GIB, 1)]]) 7 3 5 0 0 192).2.2.1 false ⟨by decide, by decide, by decide⟩),
   ran1 ((h (bare [rg MEM_BULK_CFG HD 7 0 [(MEM_BULK_CFG_EN, 1), (MEM_BULK_CFG_SIZE_GIB, 1)]] {  mem := { bulk := [{ id := 1, port := 7, la := portBase 7, len := 64, write := true, data := List.replicate 64 1, timedOut := false }] }, time := { elapsed := 10 ^ 40 } }) 7 3 5 0 0 192).2.2.2.1 1 _ rfl rfl rfl rfl (by decide) (by decide)),
   ran1 ((h (bare [rg MEM_BULK_CFG HD 7 0 [(MEM_BULK_CFG_EN, 1), (MEM_BULK_CFG_SIZE_GIB, 1)]] {  mem := { bulk := [{ id := 1, port := 7, la := portBase 7, len := 64, write := true, data := List.replicate 64 1, timedOut := true }] }, time := { elapsed := 0 } }) 7 3 5 0 0 192).2.2.2.2.1 1 _ _ rfl rfl (by decide) (by decide) (by decide) rfl (by decide) (by decide)),
   ran1 ((h (bare [rg MEM_BULK_STATUS HD 7 0 [(MEM_BULK_STATUS_STATE, 1), (MEM_BULK_STATUS_LINK_UP, 1)]]) 7 3 5 0 0 192).2.2.2.2.2.1 (by decide) (by decide)),
   ran1 ((h (bare [rg MEM_BULK_STATUS HD 7 0 [(MEM_BULK_STATUS_LINK_UP, 1)]]) 7 3 5 0 0 192).2.2.2.2.2.2.1 1 (by decide) (by decide) (by decide) (by decide) (by decide)),
   ran1 ((h (bare []) 7 3 5 0 0 192).2.2.2.2.2.2.2 true 64 false (by decide))⟩

theorem witness_CoherenceMessages (h : Obligations.CoherenceMessages) :
    Ran (.homeRequest 0 64 0 none none) (bare []) ∧
    Ran (.homeRequest 0 64 2 none none) (bare []) ∧
    Ran (.homeRequest 0 64 2 (some 9) none) (bare []) ∧
    Ran (.homeRequest 0 64 3 none none) (bare [] { coh := { copies := [{ agent := 0, line := 64, st := 2 }] } }) ∧
    Ran (.homeRequest 0 64 0 none none) (bare [] { coh := { copies := [{ agent := 31, line := 64, st := 3 }], dir := [(64, { owner := some 31 })] } }) ∧
    Ran (.broadcastSnoop 0 64) (bare [] { coh := { copies := [{ agent := 0, line := 64, st := 3, hold := 1 }], reqs := [{ agent := 31, line := 64, kind := 0, started := true, bcast := true, wait := [0, 1] }] } }) ∧
    Ran (.broadcastSnoop 0 64) (bare [] { coh := { copies := [{ agent := 0, line := 64, st := 3, hold := 0 }], reqs := [{ agent := 31, line := 64, kind := 0, started := true, bcast := true, wait := [0, 1] }] } }) ∧
    Ran (.snoop 0 64) (bare [] { coh := { copies := [{ agent := 0, line := 64, st := 3, hold := 1 }], reqs := [{ agent := 31, line := 64, kind := 0, started := true, bcast := false, wait := [0, 1] }] } }) ∧
    Ran (.snoop 0 64) (bare [] { coh := { copies := [{ agent := 0, line := 64, st := 3, hold := 0 }], reqs := [{ agent := 31, line := 64, kind := 0, started := true, bcast := false, wait := [0, 1] }] } }) ∧
    Ran (.holdEnd 0 64 false) (bare [] { coh := { copies := [{ agent := 0, line := 64, st := 3, hold := 0 }], untrack := [(0, 64)], drops := [64] } }) ∧
    Ran (.holdEnd 0 64 true) (bare [] { coh := { copies := [{ agent := 0, line := 64, st := 3, hold := 1 }], untrack := [(0, 64)], drops := [64] } }) ∧
    Ran (.untrackNotice 0 64) (bare [] { coh := { copies := [{ agent := 0, line := 64, st := 3, hold := 0 }], untrack := [(0, 64)], drops := [64] } }) ∧
    Ran (.dropNotice 64) (bare [] { coh := { copies := [{ agent := 0, line := 64, st := 3, hold := 0 }], untrack := [(0, 64)], drops := [64] } }) :=
  ⟨ran1 ((h (bare []) 0 64).1 0 ⟨by decide, rfl, rfl, by decide, by decide⟩ (by decide) (by decide)),
   ran1 ((h (bare []) 0 64).1 2 ⟨by decide, rfl, rfl, by decide, by decide⟩ (by decide) (by decide)),
   ran1 ((h (bare []) 0 64).2.1 2 9 ⟨by decide, rfl, rfl, by decide, by decide⟩ (by decide) (by decide)),
   ran1 ((h (bare [] { coh := { copies := [{ agent := 0, line := 64, st := 2 }] } }) 0 64).2.2.1 ⟨by decide, rfl, rfl, by decide, by decide⟩),
   ran1 ((h (bare [] { coh := { copies := [{ agent := 31, line := 64, st := 3 }], dir := [(64, { owner := some 31 })] } }) 0 64).2.2.2.1 _ (by decide) rfl rfl (by decide)),
   ran1 ((h (bare [] { coh := { copies := [{ agent := 0, line := 64, st := 3, hold := 1 }], reqs := [{ agent := 31, line := 64, kind := 0, started := true, bcast := true, wait := [0, 1] }] } }) 0 64).2.2.2.2.1 true _ _ _ rfl rfl rfl rfl (by decide) (by decide) rfl (by decide)),
   ran1 ((h (bare [] { coh := { copies := [{ agent := 0, line := 64, st := 3, hold := 0 }], reqs := [{ agent := 31, line := 64, kind := 0, started := true, bcast := true, wait := [0, 1] }] } }) 0 64).2.2.2.2.2.1 true _ _ _ rfl rfl rfl rfl (by decide) (by decide) rfl (by decide) (by decide) (by decide)),
   ran1 ((h (bare [] { coh := { copies := [{ agent := 0, line := 64, st := 3, hold := 1 }], reqs := [{ agent := 31, line := 64, kind := 0, started := true, bcast := false, wait := [0, 1] }] } }) 0 64).2.2.2.2.1 false _ _ _ rfl rfl rfl rfl (by decide) (by decide) rfl (by decide)),
   ran1 ((h (bare [] { coh := { copies := [{ agent := 0, line := 64, st := 3, hold := 0 }], reqs := [{ agent := 31, line := 64, kind := 0, started := true, bcast := false, wait := [0, 1] }] } }) 0 64).2.2.2.2.2.1 false _ _ _ rfl rfl rfl rfl (by decide) (by decide) rfl (by decide) (by decide) (by decide)),
   ran1 ((h (bare [] { coh := { copies := [{ agent := 0, line := 64, st := 3, hold := 0 }], untrack := [(0, 64)], drops := [64] } }) 0 64).2.2.2.2.2.2.1 _ false rfl (.inl (by decide)) (by decide)),
   ran1 ((h (bare [] { coh := { copies := [{ agent := 0, line := 64, st := 3, hold := 1 }], untrack := [(0, 64)], drops := [64] } }) 0 64).2.2.2.2.2.2.1 _ true rfl (.inr rfl) (by decide)),
   ran1 ((h (bare [] { coh := { copies := [{ agent := 0, line := 64, st := 3, hold := 0 }], untrack := [(0, 64)], drops := [64] } }) 0 64).2.2.2.2.2.2.2.1 (by decide)),
   ran1 ((h (bare [] { coh := { copies := [{ agent := 0, line := 64, st := 3, hold := 0 }], untrack := [(0, 64)], drops := [64] } }) 0 64).2.2.2.2.2.2.2.2 (by decide))⟩

theorem witness_Atomics (h : Obligations.Atomics) :
    Ran (.farAtomic 4 0 (2 ^ 21 - 8) 9 true 1 2) (bare [] { ckpt := { armed := true, regions := [(0, 1)] } }) ∧
    Ran (.nearAtomic 31 (2 ^ 21 - 8) 9 true 1 2 false) (bare []) ∧
    Ran (.farAtomic 4 0 (2 ^ 21 - 4) 10 false 1 2) (bare [] { ckpt := { armed := true, regions := [(0, 1)] } }) ∧
    Ran (.nearAtomic 31 (2 ^ 21 - 4) 10 false 1 2 false) (bare []) ∧
    Ran (.cohPredClear 4 4096) (bare []) :=
  ⟨ran1 ((h (bare [] { ckpt := { armed := true, regions := [(0, 1)] } }) (2 ^ 21 - 8) 9 true 1 2).1 4 0 ⟨by decide, by decide, by decide, by decide⟩ (by decide) (by decide)),
   ran1 ((h (bare []) (2 ^ 21 - 8) 9 true 1 2).2.1 31 false ⟨by decide, by decide, by decide, by decide⟩ (by decide) (by decide) (by decide)),
   ran1 ((h (bare [] { ckpt := { armed := true, regions := [(0, 1)] } }) (2 ^ 21 - 4) 10 false 1 2).1 4 0 ⟨by decide, by decide, by decide, by decide⟩ (by decide) (by decide)),
   ran1 ((h (bare []) (2 ^ 21 - 4) 10 false 1 2).2.1 31 false ⟨by decide, by decide, by decide, by decide⟩ (by decide) (by decide) (by decide)),
   ran1 ((h (bare []) 0 0 false 0 0).2.2 4 4096 (by decide) (by decide))⟩

/-! ## Translation, queues and packets -/

/-- A fault of die 0 that began at time 0, with its record's number. -/
def fault0 (record : Option Nat) : FaultSt :=
  { id := 3, die := 0, va := 0, asid := 0, kind := 0, access := 0, level := 0, slot := 0, source := 0, cell := 0, thread := 0,
    queue := 0, time := 0, since := 0, record := record, waiters := [.req 0 0] }
/-- Die 0 with that fault, its fault queue enabled, at time `now`. -/
def faulted (record : Option Nat) (now : Nat) : State :=
  bare [rg XLAT_FQ_CFG 0 0 0 [(XLAT_FQ_CFG_EN, 1)]] { xlat := { faults := [fault0 record] }, time := { elapsed := now } }
/-- An invalidation started by die 4's register that nothing holds up. -/
def invalidating : State := bare [] { xlat := { inv := [{ reg := 4, scope := 0, asid := 0, va := 0 }] } }
/-- A load that waits for its translation. -/
def walking (st : ReqSt) : MemOp :=
  { id := 0, pk := 0, thread := 0, pc := 0, aslot := 0, kind := .lds, reqs := [{ va := 4096, len := 64, st := st }] }

theorem witness_TranslationCommands (h : Obligations.TranslationCommands) :
    Ran (.pageWalk 0 0) (paged ready {} [] { ops := [walking .untranslated] }) ∧
    Ran (.pageWalk 0 0) (paged ready {} [] { ops := [walking (.faulted 3)] }) ∧
    Ran (.faultRecordDeferred 0) (faulted none 0) ∧
    Ran (.xlatFqRespRetry 0 5) (faulted (some 5) 0) ∧
    Ran (.xlatFqRespAbort 0 5) (faulted (some 5) 0) ∧
    Ran (.faultWatchdogExpire 0 3) (faulted none (10 ^ 40)) ∧
    Ran (.xlatInvGo 4 1) (bare []) ∧
    Ran (.invalidationDone 4) invalidating ∧
    Ran (.asSlotInvalid 3 63 0) (bare []) :=
  ⟨ran2 (((h (paged ready {} [] { ops := [walking .untranslated] }) 0 0).1 0 0 _ _ page0 rfl rfl (.inl rfl) (by decide) (by decide) rfl)),
   ran2 (((h (paged ready {} [] { ops := [walking (.faulted 3)] }) 0 0).1 0 0 _ _ page0 rfl rfl (.inr ⟨_, rfl⟩) (by decide) (by decide) rfl)),
   ran1 (((h (faulted none 0) 0 0).2.1 _ rfl (by decide) (by decide) (by decide) (by decide))),
   ran1 (((h (faulted (some 5) 0) 0 0).2.2.1 5 _ rfl).1),
   ran1 (((h (faulted (some 5) 0) 0 0).2.2.1 5 _ rfl).2),
   ran1 (((h (faulted none (10 ^ 40)) 0 0).2.2.2.1 3 _ rfl (by decide))),
   ran1 (((h (bare []) 0 4).2.2.2.2.1 1 (by decide) (by decide))),
   ran1 (((h invalidating 0 4).2.2.2.2.2.1 _ rfl (by decide))),
   ran1 (((h (bare []) 3 0).2.2.2.2.2.2 63 0 (by decide)))⟩

/-- Queue 0 of die 0 ON, with values in its ring pointers, and units as given. -/
def queueOn (head tail : Nat) (u : Units := {}) : State :=
  bare [rg CMD_QCFG 0 0 0 [(CMD_QCFG_EN, 1), (CMD_QCFG_SQ_LOG2, 6), (CMD_QCFG_CQ_LOG2, 4)],
        rg CMD_SQ_PTR 0 0 0 [(CMD_SQ_PTR_HEAD, head), (CMD_SQ_PTR_TAIL, tail)], rg CMD_QSTAT 0 0 0 [(CMD_QSTAT_STATE, 1)]] u

theorem witness_QueuesAndPackets (h : Obligations.QueuesAndPackets) :
    Ran (.queueEnable 65535 1) (bare []) ∧
    Ran (.queueDisable 0 0) (queueOn 0 0) ∧
    Ran (.doorbell 0 64) (queueOn 0 0) ∧
    Ran (.cqHeadWrite 0 0) (queueOn 0 0) ∧
    Ran (.packetRead 0) (queueOn 63 64) ∧
    Ran (.heldRecordWrite 0 0) (queueOn 0 0 { cmd := { waiting := [{ die := 0, q := 0, result := 1, status := 0, seq := 2, irq := false }] } }) ∧
    Ran (.threadEntryRecord 9) (cell0 { st := .ended } {} [] { beat := { work := [{ index := 9, beat := 0, cell := 0, thread := 0, notify := 0, irq := false, quiet := false, start := 0, arg := 0, aslot := 0, wbase := 0, wsize := 0, phys := some 0 }] } }) :=
  ⟨ran1 ((h (bare []) 0 65535 1).1 (by decide) (by decide)),
   ran1 ((h (queueOn 0 0) 0 0 0).2.1 (by decide)),
   ran1 ((h (queueOn 0 0) 0 0 64).2.2.1 (by decide) (by decide) (by decide) (by decide)),
   ran1 ((h (queueOn 0 0) 0 0 0).2.2.2.1 (by decide) (by decide)),
   ran2 ((h (queueOn 63 64) 0 0 0).2.2.2.2.1 (by decide) (by decide) (by decide)),
   ran1 ((h (queueOn 0 0 { cmd := { waiting := [{ die := 0, q := 0, result := 1, status := 0, seq := 2, irq := false }] } }) 0 0 0).2.2.2.2.2.1 _ rfl (by decide) (by decide) (by decide) (by decide) (.inl rfl)),
   ran2 ((h (cell0 { st := .ended } {} [] { beat := { work := [{ index := 9, beat := 0, cell := 0, thread := 0, notify := 0, irq := false, quiet := false, start := 0, arg := 0, aslot := 0, wbase := 0, wsize := 0, phys := some 0 }] } }) 0 0 0).2.2.2.2.2.2 9 _ 0 rfl rfl rfl (by decide))⟩

theorem witness_CommandsComplete (h : Obligations.CommandsComplete) :
    Ran (.cmdNop (.queue 0) 0) (withCmd (started 0 []) [rg CMD_QSTAT 0 0 0 [(CMD_QSTAT_STATE, 1)]]) ∧
    Ran (.signal (.queue 0) 0) (withCmd (started 1 [4096, 7])) ∧
    Ran (.atomic (.queue 0) 0) (withCmd (started 24 [10, 4092, 7])) ∧
    Ran (.atomic (.queue 0) 0) (withCmd (started 24 [1 + 2 ^ 8, 4088, 7, 9])) :=
  ⟨ran1 ((h (withCmd (started 0 []) [rg CMD_QSTAT 0 0 0 [(CMD_QSTAT_STATE, 1)]]) (.queue 0) 0 (started 0 [])).1 0 rfl rfl (by decide) (by decide) (by decide) (by decide) (by decide) (by decide) (by decide) (by decide) (by decide)),
   ran2 ((h (withCmd (started 1 [4096, 7])) (.queue 0) 0 (started 1 [4096, 7])).2.1 page0 rfl (by decide) (by decide) (by decide) (by decide) (by decide) (by decide) (by decide) (by decide)),
   ran3 ((h (withCmd (started 24 [10, 4092, 7])) (.queue 0) 0 (started 24 [10, 4092, 7])).2.2 page0 rfl (by decide) (by decide) (by decide) (by decide) (by decide) (by decide) (by decide) (by decide) (by decide) (by decide) (by decide) (fun _ => ⟨rfl, by decide⟩)),
   ran3 ((h (withCmd (started 24 [1 + 2 ^ 8, 4088, 7, 9])) (.queue 0) 0 (started 24 [1 + 2 ^ 8, 4088, 7, 9])).2.2 page0 rfl (by decide) (by decide) (by decide) (by decide) (by decide) (by decide) (by decide) (by decide) (by decide) (by decide) (by decide) (fun _ => ⟨rfl, by decide⟩))⟩

/-! ## Control commands and mailboxes -/

theorem witness_ControlCommandsWait (h : Obligations.ControlCommandsWait) :
    Ran (.ctlRole (.queue 0) 0) (withCmd (started 128 [0 + 6 * 2 ^ 8, 639 + 1 * 2 ^ 16 + 0 * 2 ^ 32])) ∧
    Ran (.ctlPower (.queue 0) 0) (withCmd (started 129 [5 + 3 * 2 ^ 8, 3 + 1 * 2 ^ 16 + 0 * 2 ^ 32])) ∧
    Ran (.ctlSelftest (.queue 0) 0) (withCmd (started 130 [6 + 2 * 2 ^ 8, 3 + 1 * 2 ^ 16 + 0 * 2 ^ 32])) ∧
    Ran (.ctlCalibrate (.queue 0) 0) (withCmd (started 131 [4 + 0 * 2 ^ 8, 0 + 12 * 2 ^ 16 + 0 * 2 ^ 32])) ∧
    Ran (.ctlSwapRetire (.queue 0) 0) (withCmd (started 132 [2 + 0 * 2 ^ 8, 264 + 8 * 2 ^ 16 + 0 * 2 ^ 32])) ∧
    Ran (.ctlSwapReturn (.queue 0) 0) (withCmd (started 132 [1 + 1 * 2 ^ 8, 95 + 1 * 2 ^ 16 + 255 * 2 ^ 32])) :=
  ⟨ran1 ((h (withCmd (started 128 [0 + 6 * 2 ^ 8, 639 + 1 * 2 ^ 16 + 0 * 2 ^ 32])) (.queue 0) 0 (started 128 [0 + 6 * 2 ^ 8, 639 + 1 * 2 ^ 16 + 0 * 2 ^ 32])).1 rfl ⟨by decide, by decide, by decide, by decide⟩ (by decide) (by decide)),
   ran1 ((h (withCmd (started 129 [5 + 3 * 2 ^ 8, 3 + 1 * 2 ^ 16 + 0 * 2 ^ 32])) (.queue 0) 0 (started 129 [5 + 3 * 2 ^ 8, 3 + 1 * 2 ^ 16 + 0 * 2 ^ 32])).2.1 rfl ⟨by decide, by decide, by decide, by decide⟩ (by decide) (by decide)),
   ran1 ((h (withCmd (started 130 [6 + 2 * 2 ^ 8, 3 + 1 * 2 ^ 16 + 0 * 2 ^ 32])) (.queue 0) 0 (started 130 [6 + 2 * 2 ^ 8, 3 + 1 * 2 ^ 16 + 0 * 2 ^ 32])).2.2.1 rfl ⟨by decide, by decide, by decide, by decide⟩ (by decide) (by decide)),
   ran1 ((h (withCmd (started 131 [4 + 0 * 2 ^ 8, 0 + 12 * 2 ^ 16 + 0 * 2 ^ 32])) (.queue 0) 0 (started 131 [4 + 0 * 2 ^ 8, 0 + 12 * 2 ^ 16 + 0 * 2 ^ 32])).2.2.2.1 rfl rfl ⟨by decide, by decide, by decide, by decide⟩ (by decide) (by decide)),
   ran1 ((h (withCmd (started 132 [2 + 0 * 2 ^ 8, 264 + 8 * 2 ^ 16 + 0 * 2 ^ 32])) (.queue 0) 0 (started 132 [2 + 0 * 2 ^ 8, 264 + 8 * 2 ^ 16 + 0 * 2 ^ 32])).2.2.2.2.1 rfl ⟨by decide, by decide, by decide, by decide⟩ (by decide) (by decide) (by decide)),
   ran1 ((h (withCmd (started 132 [1 + 1 * 2 ^ 8, 95 + 1 * 2 ^ 16 + 255 * 2 ^ 32])) (.queue 0) 0 (started 132 [1 + 1 * 2 ^ 8, 95 + 1 * 2 ^ 16 + 255 * 2 ^ 32])).2.2.2.2.2 rfl ⟨by decide, by decide, by decide, by decide⟩ (by decide) (by decide) (by decide))⟩

theorem witness_ControlCommandsAndMailboxes (h : Obligations.ControlCommandsAndMailboxes) :
    Ran .controlApplyStopped (withCmd { started 128 [6 * 2 ^ 8, 639 + 1 * 2 ^ 16] with stage := 1 }) ∧
    Ran .controlApplyStopped (withCmd { started 129 [5 + 2 * 2 ^ 8, 3 + 1 * 2 ^ 16] with stage := 1 }) ∧
    Ran (.fwMailboxGo .hostM) (bare []) ∧
    Ran (.fwMailboxGo .custodian) (bare []) ∧
    Ran (.mgmtMailboxGo .mgmt) (bare [rg PWR_STATE HD 0 0 [(PWR_STATE_STATE, 3)]]) :=
  ⟨ran2 ((h (withCmd { started 128 [6 * 2 ^ 8, 639 + 1 * 2 ^ 16] with stage := 1 }) .hostM { started 128 [6 * 2 ^ 8, 639 + 1 * 2 ^ 16] with stage := 1 }).1 rfl rfl rfl (by decide)),
   ran2 ((h (withCmd { started 129 [5 + 2 * 2 ^ 8, 3 + 1 * 2 ^ 16] with stage := 1 }) .hostM { started 129 [5 + 2 * 2 ^ 8, 3 + 1 * 2 ^ 16] with stage := 1 }).2.1 rfl rfl rfl (by decide) (by decide) (by decide) (by unfold Single; decide) rfl rfl (by decide)),
   ran1 ((h (bare []) .hostM (started 0 [])).2.2.1 (.inl rfl) rfl),
   ran1 ((h (bare []) .custodian (started 0 [])).2.2.1 (.inr rfl) rfl),
   ran1 ((h (bare [rg PWR_STATE HD 0 0 [(PWR_STATE_STATE, 3)]]) .hostM (started 0 [])).2.2.2 rfl rfl)⟩

/-! ## Update -/

/-- A valid group of UPD_SGD with η of 1, step 5, epoch 7. -/
def group0 : Group :=
  { rule := 0, isLazy := false, pfmt := 0, sfmt := 0, rmode := 0, eta := 0x3F800000, lambda := 0, beta1 := 0, beta2 := 0, eps := 0,
    clip := 0, n := 5, e := 7, curveVa := 0, curve := [], etaRes := 0x3F800000 }
/-- A record of a group of UPD_SGD at step 1, at 4,096. -/
def record0 : List Host.Cell := [(4128, 1)]
/-- The tensor role, with group 9 of die 0. -/
def updating (th : Thread) (q : Nat) : State :=
  cell0 th { spad := ({} : Ram).put 0 (leBytes 4 q ++ List.replicate 60 0) }
    (regs := [rg CELL_ROLE 0 0 0 [(CELL_ROLE_ROLE, 5)]]) (u := { groups := [(9, group0)] })

theorem witness_UpdateGroups (h : Obligations.UpdateGroups) :
    Ran (.updGroupsLoad (.queue 0) 0) (withCmd (started 58 [0 + 1 * 2 ^ 8 + 9 * 2 ^ 16 + 1 * 2 ^ 32, 4096]) [] { groups := [(9, group0)] } record0) ∧
    Ran (.updGroupsStep (.queue 0) 0) (withCmd (started 58 [1 + 1 * 2 ^ 8 + 9 * 2 ^ 16 + 1 * 2 ^ 32, 0, 4096]) [] { groups := [(9, group0)] }) ∧
    Ran (.updGroupsSave (.queue 0) 0) (withCmd (started 58 [2 + 1 * 2 ^ 8 + 9 * 2 ^ 16 + 1 * 2 ^ 32, 4096]) [] { groups := [(9, group0)] }) ∧
    Ran (.updInstall (.queue 0) 0 0) (withCmd { started 58 [0 + 1 * 2 ^ 8 + 9 * 2 ^ 16 + 1 * 2 ^ 32, 4096] with stage := 1, dies := [0], groups := [(9, group0)] } [] { groups := [(9, group0)] }) ∧
    Ran (.updInstall (.queue 0) 0 0) (withCmd { started 58 [1 + 1 * 2 ^ 8 + 9 * 2 ^ 16 + 1 * 2 ^ 32, 0, 4096] with stage := 1, dies := [0], result := 0 } [] { groups := [(9, group0)] }) ∧
    Ran (.updInstall (.queue 0) 0 0) (withCmd { started 58 [1 + 1 * 2 ^ 8 + 9 * 2 ^ 16 + 1 * 2 ^ 32, 0, 4096] with stage := 1, dies := [0], result := 0x7F800000 } [] { groups := [(9, group0)] }) :=
  ⟨ran1 ((h (withCmd (started 58 [0 + 1 * 2 ^ 8 + 9 * 2 ^ 16 + 1 * 2 ^ 32, 4096]) [] { groups := [(9, group0)] } record0) (.queue 0) 0 (started 58 [0 + 1 * 2 ^ 8 + 9 * 2 ^ 16 + 1 * 2 ^ 32, 4096]) [(4096, 64)]).1 [_] ⟨rfl, by decide⟩ rfl ⟨mapped1 _ _ (by decide) (by decide) (by decide), by decide⟩ rfl
     (by intro i hi; obtain rfl : i = 0 := by (have : i < 1 := hi); omega
         exact ⟨_, 0, [], [], rfl, ⟨rfl, by decide⟩, rfl, rfl⟩)),
   ran1 ((h (withCmd (started 58 [1 + 1 * 2 ^ 8 + 9 * 2 ^ 16 + 1 * 2 ^ 32, 0, 4096]) [] { groups := [(9, group0)] }) (.queue 0) 0 (started 58 [1 + 1 * 2 ^ 8 + 9 * 2 ^ 16 + 1 * 2 ^ 32, 0, 4096]) [(4096, 4)]).2.1 ⟨rfl, by decide⟩ rfl ⟨mapped1 _ _ (by decide) (by decide) (by decide), by decide⟩),
   ran2 ((h (withCmd (started 58 [2 + 1 * 2 ^ 8 + 9 * 2 ^ 16 + 1 * 2 ^ 32, 4096]) [] { groups := [(9, group0)] }) (.queue 0) 0 (started 58 [2 + 1 * 2 ^ 8 + 9 * 2 ^ 16 + 1 * 2 ^ 32, 4096]) [(4096, 64)]).2.2.1 ⟨rfl, by decide⟩ rfl ⟨mapped1 _ _ (by decide) (by decide) (by decide), by decide⟩),
   ran3 (((h (withCmd { started 58 [0 + 1 * 2 ^ 8 + 9 * 2 ^ 16 + 1 * 2 ^ 32, 4096] with stage := 1, dies := [0], groups := [(9, group0)] } [] { groups := [(9, group0)] }) (.queue 0) 0 { started 58 [0 + 1 * 2 ^ 8 + 9 * 2 ^ 16 + 1 * 2 ^ 32, 4096] with stage := 1, dies := [0], groups := [(9, group0)] } []).2.2.2 0).1 ⟨rfl, by unfold Single; decide, rfl, rfl⟩ rfl (by decide)),
   ran2 (((h (withCmd { started 58 [1 + 1 * 2 ^ 8 + 9 * 2 ^ 16 + 1 * 2 ^ 32, 0, 4096] with stage := 1, dies := [0], result := 0 } [] { groups := [(9, group0)] }) (.queue 0) 0 { started 58 [1 + 1 * 2 ^ 8 + 9 * 2 ^ 16 + 1 * 2 ^ 32, 0, 4096] with stage := 1, dies := [0], result := 0 } []).2.2.2 0).2.1 ⟨rfl, by unfold Single; decide, rfl, rfl⟩ rfl rfl (by decide)),
   ran2 (((h (withCmd { started 58 [1 + 1 * 2 ^ 8 + 9 * 2 ^ 16 + 1 * 2 ^ 32, 0, 4096] with stage := 1, dies := [0], result := 0x7F800000 } [] { groups := [(9, group0)] }) (.queue 0) 0 { started 58 [1 + 1 * 2 ^ 8 + 9 * 2 ^ 16 + 1 * 2 ^ 32, 0, 4096] with stage := 1, dies := [0], result := 0x7F800000 } []).2.2.2 0).2.2 ⟨rfl, by unfold Single; decide, rfl, rfl⟩ rfl rfl (by decide))⟩

/-- The four rules, on ones: with ε of 1 and β of 0 (UPD_RMS). -/
theorem witness_UpdateRules (h : Obligations.UpdateRules) (r : Fin 4) :
    (updElement { group0 with rule := r.val, eps := 0x3F800000 } (.fin false 1) 0 (.fin false 1) (.fin false 1) (.fin false 1)).1.isFin = true := by
  have H := h { group0 with rule := r.val, eps := 0x3F800000 } (.fin false 1) 0 (.fin false 1) (.fin false 1) (.fin false 1) 1 (by revert r; decide)
  match r with
  | 0 => exact (H.1 rfl).1
  | 1 => exact (H.2.1 rfl).2.2.1
  | 2 => exact (H.2.2.1 rfl).2.2.1
  | 3 =>
    have e0 : f32v 0 = .fin false 0 := by decide +kernel
    have e1 : f32v 0x3F800000 = .fin false 1 := by decide +kernel
    exact ((H.2.2.2 rfl).2.2 (by decide) (by simp [group0, e0, Val.rat]) (by simp [e1, Val.rat])).1

theorem witness_UpdateInstruction (h : Obligations.UpdateInstruction) :
    Ran (.upd 0 0 (wd 7 0 (5 * 2 ^ 16 + 5 * 2 ^ 21 + 0 * 2 ^ 31 + 9 * 2 ^ 46))) (updating ready 0) ∧
    Ran (.upd 0 0 (wd 7 0 (5 * 2 ^ 16 + 5 * 2 ^ 21 + 9 * 2 ^ 31 + 9 * 2 ^ 46))) (updating { ready with s := ready.s ++ [(9, 1)] } 0x7F800000) ∧
    Ran (.upd 0 0 (wd 7 0 (5 * 2 ^ 16 + 5 * 2 ^ 21 + 9 * 2 ^ 31 + 9 * 2 ^ 46))) (updating { ready with s := ready.s ++ [(9, 1)] } 0) :=
  ⟨ran1 ((h (updating ready 0) 0 0 (wd 7 0 (5 * 2 ^ 16 + 5 * 2 ^ 21 + 0 * 2 ^ 31 + 9 * 2 ^ 46)) 0 group0).1 ⟨by decide, by decide, by decide, by decide, rfl, by decide, by decide⟩ rfl),
   ran1 ((h (updating { ready with s := ready.s ++ [(9, 1)] } 0x7F800000) 0 0 (wd 7 0 (5 * 2 ^ 16 + 5 * 2 ^ 21 + 9 * 2 ^ 31 + 9 * 2 ^ 46)) 0 group0).2.1 ⟨by decide, by decide, by decide, by decide, rfl, by decide, by decide⟩ (by decide) (.inl rfl) (by decide) ⟨by decide, by decide⟩ (by decide)),
   ran1 ((h (updating { ready with s := ready.s ++ [(9, 1)] } 0) 0 0 (wd 7 0 (5 * 2 ^ 16 + 5 * 2 ^ 21 + 9 * 2 ^ 31 + 9 * 2 ^ 46)) 0 group0).2.2 ⟨by decide, by decide, by decide, by decide, rfl, by decide, by decide⟩ (by decide) (.inl rfl) (by decide) ⟨by decide, by decide⟩ (by decide) rfl (by decide))⟩

/-! ## Bit streams and ingest -/

/-- The decode role, with a bit reader over 64 bytes at 128. -/
def decoding (th : Thread) (u : Units := {}) : State :=
  cell0 { th with reader := some ⟨128, 7, 192, true⟩ } { spad := ({} : Ram).put 128 (List.replicate 64 0xA5) }
    (slot0 ++ [rg CELL_ROLE 0 0 0 [(CELL_ROLE_ROLE, 4)]]) { u with xlat := { tlb := [page0] } }

theorem witness_BitStreamInstructions (h : Obligations.BitStreamInstructions) :
    ((⟨128, 7, 192, true⟩ : Reader).take (fun _ => 0xA5) 32).1.length = 32 ∧
    ((⟨128, 0, 132, false⟩ : Reader).take (fun _ => 0xFF) 32).1.length = 32 ∧
    Ran (.bload 0 0 (wd 6 0 (1 * 2 ^ 16 + 2 * 2 ^ 21 + 5 * 2 ^ 26 + 2 ^ 64))) (decoding ready) ∧
    Ran (.bget 0 0 (wd 6 1 (3 * 2 ^ 36 + 7 * 2 ^ 41 + 32 * 2 ^ 64))) (decoding ready) ∧
    Ran (.bhuff 0 0 (wd 6 2 (5 * 2 ^ 16 + 3 * 2 ^ 21 + 5 * 2 ^ 36 + 7 * 2 ^ 41))) (decoding ready) ∧
    Ran (.bunpk 0 0 (wd 6 3 (2 * 2 ^ 31 + 5 * 2 ^ 36 + 7 * 2 ^ 41 + 16 * 2 ^ 64))) (decoding ready) :=
  ⟨((h (decoding ready) 0 0 (wd 6 0) 0 ⟨128, 7, 192, true⟩).1 (fun _ => 0xA5) ⟨128, 7, 192, true⟩ 32 (by decide) (by decide) (by decide)).1,
   ((h (decoding ready) 0 0 (wd 6 0) 0 ⟨128, 7, 192, true⟩).1 (fun _ => 0xFF) ⟨128, 0, 132, false⟩ 32 (by decide) (by decide) (by decide)).1,
   ran1 ((h (decoding ready) 0 0 (wd 6 0 (1 * 2 ^ 16 + 2 * 2 ^ 21 + 5 * 2 ^ 26 + 2 ^ 64)) 0 ⟨128, 7, 192, true⟩).2.1 (by decide) (by decide) (by decide)),
   ran1 ((h (decoding ready) 0 0 (wd 6 1 (3 * 2 ^ 36 + 7 * 2 ^ 41 + 32 * 2 ^ 64)) 0 ⟨128, 7, 192, true⟩).2.2.1 (by decide) (by decide) (by decide) rfl (by decide)),
   ran1 ((h (decoding ready) 0 0 (wd 6 2 (5 * 2 ^ 16 + 3 * 2 ^ 21 + 5 * 2 ^ 36 + 7 * 2 ^ 41)) 0 ⟨128, 7, 192, true⟩).2.2.2.1 (by decide) rfl ⟨by decide, by decide⟩ (by decide) rfl),
   ran1 ((h (decoding ready) 0 0 (wd 6 3 (2 * 2 ^ 31 + 5 * 2 ^ 36 + 7 * 2 ^ 41 + 16 * 2 ^ 64)) 0 ⟨128, 7, 192, true⟩).2.2.2.2 (by decide) (by decide) (by decide) rfl ⟨by decide, by decide⟩ (by decide))⟩

/-- A RAW sample of one position, its encoded bytes at 4,096, in a state. -/
def sample0 (st : Nat) : Sample :=
  { num := 5, desc := leBytes 8 4096 ++ leBytes 8 128 ++ leBytes 8 1 ++ leBytes 8 0, q := 0, absUs := 1, st := st, pbytes := 1,
    stage := 65536, start := some 0, holder := some (0, 0), place := some (0, 0, 1) }
/-- A job of one row of 64 positions of one byte, its batch at 8,192. -/
def job0 : Job := { id := 0, src := .queue 0, n := 0, q := 0, packed := true, l := 64, pbytes := 1, rows := 1, out := 8192, need := 1, absUs := 0, descs := [] }
/-- Slot 15 of die 0 with that job and sample, at time `now`. -/
def slot15 (st : Nat) (now : Nat := 0) : Units :=
  { ing := { slots := [(15, { jobs := [job0], samples := [sample0 st] })] }, time := { elapsed := now, now := now } }

theorem witness_Samples (h : Obligations.Samples) :
    Ran (.btake 0 0 (wd 6 4 (9 * 2 ^ 16 + 5 * 2 ^ 36 + 7 * 2 ^ 41))) (decoding { ready with s := ready.s ++ [(9, 2 ^ 15)] } (slot15 0)) ∧
    Ran (.btake 0 0 (wd 6 4 (9 * 2 ^ 16 + 5 * 2 ^ 36 + 7 * 2 ^ 41))) (decoding { ready with s := ready.s ++ [(9, 2 ^ 15)] } (slot15 1)) ∧
    Ran (.bput 0 0 (wd 6 5 (1 * 2 ^ 16 + 7 * 2 ^ 41 + 1 * 2 ^ 64))) (decoding { ready with s := [(1, 5), (2, 5)] } (slot15 2)) ∧
    Ran (.bput 0 0 (wd 6 5 (1 * 2 ^ 16 + 7 * 2 ^ 41 + 0 * 2 ^ 64))) (decoding { ready with s := [(1, 5), (2, 5)] } (slot15 2)) ∧
    Ran (.stagingAllocated 0 15 5 []) (decoding ready (slot15 0)) ∧
    Ran (.sampleWithdraw 0 15 5) (decoding ready (slot15 2 (10 ^ 40))) :=
  ⟨ran1 (((h (decoding { ready with s := ready.s ++ [(9, 2 ^ 15)] } (slot15 0)) 0 15 0 0 (wd 6 4 (9 * 2 ^ 16 + 5 * 2 ^ 36 + 7 * 2 ^ 41)) 0 (sample0 0) job0 []).1 (by decide) ⟨by decide, by decide, by decide, by decide⟩ ⟨by decide, by decide⟩).1 rfl),
   ran1 (((h (decoding { ready with s := ready.s ++ [(9, 2 ^ 15)] } (slot15 1)) 0 15 0 0 (wd 6 4 (9 * 2 ^ 16 + 5 * 2 ^ 36 + 7 * 2 ^ 41)) 0 (sample0 1) job0 []).1 (by decide) ⟨by decide, by decide, by decide, by decide⟩ ⟨by decide, by decide⟩).2 rfl ⟨rfl, rfl, by decide⟩),
   ran1 (((h (decoding { ready with s := [(1, 5), (2, 5)] } (slot15 2)) 0 15 0 0 (wd 6 5 (1 * 2 ^ 16 + 7 * 2 ^ 41 + 1 * 2 ^ 64)) 0 (sample0 2) job0 []).2.1).1 ⟨(by decide), ⟨by decide, by decide, by decide, by decide⟩, by decide, by decide⟩ (by decide)),
   ran1 (((h (decoding { ready with s := [(1, 5), (2, 5)] } (slot15 2)) 0 15 0 0 (wd 6 5 (1 * 2 ^ 16 + 7 * 2 ^ 41 + 0 * 2 ^ 64)) 0 (sample0 2) job0 []).2.1).2 ⟨(by decide), ⟨by decide, by decide, by decide, by decide⟩, by decide, by decide⟩ (by decide) ⟨rfl, rfl, by decide⟩ rfl rfl),
   ran1 ((h (decoding ready (slot15 0)) 0 15 0 0 (wd 6 4) 0 (sample0 0) job0 []).2.2.1 [] [(4096, 128)] ⟨rfl, rfl, by decide⟩ rfl rfl ⟨mapped1 _ _ (by decide) (by decide) (by decide), by decide⟩ (.inl (by decide))),
   ran1 ((h (decoding ready (slot15 2 (10 ^ 40))) 0 15 0 0 (wd 6 4) 0 (sample0 2) job0 []).2.2.2 0 ⟨rfl, rfl, by decide⟩ (by decide) rfl (.inl ⟨by decide, by decide⟩))⟩

set_option maxRecDepth 4000 in
theorem witness_Batches (h : Obligations.Batches) :
    Ran (.ingDecode (.queue 0) 0) (withCmd (started 64 [1 + 15 * 2 ^ 8 + 1 * 2 ^ 16, 4096, 8192, 64 + 1 * 2 ^ 32, 1, 1])) ∧
    Ran (.sampleCopyDone 0 15 5) (decoding ready (slot15 3)) ∧
    Ran (.ingEnvStart (.queue 0) 0) (withCmd (started 65 [0 + 15 * 2 ^ 8 + 1 * 2 ^ 16 + 1 * 2 ^ 32, 0, 1000, 0, 4096]) [] {} [(4105, 1), (4108, 20)]) ∧
    Ran (.ingEnvStop (.queue 0) 0) (withCmd (started 65 [1 + 15 * 2 ^ 8]) [] { ing := { slots := [(15, { env := some { q := 0, required := 1, t0 := 0, period := 1000, window := 0, grace := 0, streams := [⟨4096, 64, 1⟩] } })] } }) ∧
    Ran (.envTick 0 15) (withCmd (started 0 []) [] { ing := { slots := [(15, { env := some { q := 0, required := 1, t0 := 0, period := 1000, window := 0, grace := 0, streams := [⟨4096, 64, 1⟩] } })] } } [(4096, 1)]) :=
  ⟨ran2 ((h (withCmd (started 64 [1 + 15 * 2 ^ 8 + 1 * 2 ^ 16, 4096, 8192, 64 + 1 * 2 ^ 32, 1, 1])) (.queue 0) 0 (started 64 [1 + 15 * 2 ^ 8 + 1 * 2 ^ 16, 4096, 8192, 64 + 1 * 2 ^ 32, 1, 1]) 0 15 [(4096, 32)]).1 [(8192, 8)] [(8256, 128)] [(8384, 128)] [(8512, 8)]
     rfl ⟨by decide, by decide, by decide⟩ (by decide) (by decide) (by decide) (by decide) (by decide) (by decide) (by decide) (by decide) (by decide) (by decide) (by decide) (by decide) ⟨mapped1 _ _ (by decide) (by decide) (by decide), by decide⟩ ⟨mapped1 _ _ (by decide) (by decide) (by decide), by decide⟩ ⟨mapped1 _ _ (by decide) (by decide) (by decide), by decide⟩
     ⟨mapped1 _ _ (by decide) (by decide) (by decide), by decide⟩ ⟨mapped1 _ _ (by decide) (by decide) (by decide), by decide⟩),
   ran1 ((h (decoding ready (slot15 3)) (.queue 0) 0 (started 0 []) 0 15 []).2.1 (sample0 3) job0 [] 0 0 1 [(8576, 1)] [(8256, 2)] [(8384, 2)] [(8512, 1)]
     rfl rfl rfl rfl (fun _ => ⟨rfl, by decide⟩) ⟨mapped1 _ _ (by decide) (by decide) (by decide), by decide⟩ ⟨mapped1 _ _ (by decide) (by decide) (by decide), by decide⟩
     ⟨mapped1 _ _ (by decide) (by decide) (by decide), by decide⟩ ⟨mapped1 _ _ (by decide) (by decide) (by decide), by decide⟩ ⟨mapped1 _ _ (by decide) (by decide) (by decide), by decide⟩ (by decide)),
   ran2 ((h (withCmd (started 65 [0 + 15 * 2 ^ 8 + 1 * 2 ^ 16 + 1 * 2 ^ 32, 0, 1000, 0, 4096]) [] {} [(4105, 1), (4108, 20)]) (.queue 0) 0 (started 65 [0 + 15 * 2 ^ 8 + 1 * 2 ^ 16 + 1 * 2 ^ 32, 0, 1000, 0, 4096]) 0 15 [(4096, 16)]).2.2.1 rfl ⟨by decide, by decide, by decide⟩ (by decide) (by decide) (by decide) (by decide) (by decide) (by decide) rfl ⟨mapped1 _ _ (by decide) (by decide) (by decide), by decide⟩ (by
       intro i hi
       obtain rfl : i = 0 := by (have : i < 1 := hi); omega
       decide)),
   ran2 ((h (withCmd (started 65 [1 + 15 * 2 ^ 8]) [] { ing := { slots := [(15, { env := some { q := 0, required := 1, t0 := 0, period := 1000, window := 0, grace := 0, streams := [⟨4096, 64, 1⟩] } })] } }) (.queue 0) 0 (started 65 [1 + 15 * 2 ^ 8]) 0 15 []).2.2.2.1 rfl ⟨by decide, by decide, by decide⟩ (by decide) (by decide) rfl),
   ran1 ((h (withCmd (started 0 []) [] { ing := { slots := [(15, { env := some { q := 0, required := 1, t0 := 0, period := 1000, window := 0, grace := 0, streams := [⟨4096, 64, 1⟩] } })] } } [(4096, 1)]) (.queue 0) 0 (started 0 []) 0 15 []).2.2.2.2 _ [[(4096, 8)]] [[[(4160, 64)]]] rfl (by decide) rfl
     (by intro a st hst
         match a, hst with
         | 0, rfl =>
           exact ⟨⟨mapped1 _ _ (by decide) (by decide) (by decide), by decide⟩, by
             intro i hi
             obtain rfl : i = 0 := by have : i < 1 := hi; omega
             exact ⟨mapped1 _ _ (by decide) (by decide) (by decide), by decide⟩⟩
         | a + 1, hst => cases hst))⟩

/-! ## Checkpoints and the fabric -/

/-- The low 2 MiB of a package with no memory event are clean. -/
theorem clean_page (u : Units) (h : u.mem = {}) : Clean (bare [] u).dev 0 (2 ^ 21) := by
  intro a ha
  obtain ⟨i, hi, rfl⟩ : ∃ i, i < 32768 ∧ a = i * 64 := by
    simp only [sectorsOf] at ha
    simp at ha
    obtain ⟨i, hi, rfl⟩ := ha
    exact ⟨i, by omega, by ring⟩
  have hw : (bare [] u).dev.pkgWide 0 = false := (by decide : (bare []).dev.pkgWide 0 = false)
  have hp : ∃ r q, (bare [] u).dev.place (i * 64) = .hbm 0 (i / 8 % 192) r q := by
    refine ⟨i / 8 / 192, i / 8 * 512 + i * 64 % 512, ?_⟩
    have h1 : i * 64 < 4 * hbmWindow := by unfold hbmWindow; omega
    have h2 : i * 64 / hbmWindow = 0 := by unfold hbmWindow; omega
    have h3 : i * 64 % hbmWindow = i * 64 := by unfold hbmWindow; omega
    have h4 : i * 64 / 2 ^ 30 = 0 := by omega
    simp only [Dev.place, h1, if_true, h2, h3, h4, hw, ilvPlace]
    have h5 : i * 64 % 2 ^ 30 / 512 = i / 8 := by omega
    rw [h5]; simp
  obtain ⟨r, q, hp⟩ := hp
  have hd : ∀ pc, pc < 192 → (bare [] u).dev.flag MEM_PC MEM_PC_DOWN 0 pc = false := by
    exact (by decide +kernel : ∀ pc, pc < 192 → (bare []).dev.flag MEM_PC MEM_PC_DOWN 0 pc = false)
  refine ⟨by rw [hp]; rfl, ?_, ?_, ?_⟩
  · simp only [Dev.accessStatus, hp]
    have : (bare [] u).dev.retiredAt (i * 64) = false := by simp [Dev.retiredAt, bare, h]
    rw [this, hd _ (Nat.mod_lt _ (by decide))]; rfl
  · simp [Dev.sectorErrs, bare, h, agetD, aget?]
  · simp [Dev.sectorPoison, bare, h]

/-- A package that has its checkpoint engines. -/
def engines : List (Nat × Word) := [(BOOT_CAP_EFF_HI.key HD 0 0, 0x3F)]
/-- A maquette of the page at 0, and one with no page left to send. -/
def maq0 (inv : Bool) : Maquette :=
  { slot := 1, num := 7, beat := 3, f := { inv := inv }, total := 1, package := 0, ilv := [0, 0, 0], groups := [], cmd := none }
/-- An armed package with that maquette. -/
def armed (m : Option Maquette) : CkptSt := { armed := true, slotBytes := 2 ^ 22, regions := [(0, 1)], maq := m }
/-- What a checkpoint area answers that holds a maquette of no region and no group: its words by offset. -/
def area0 : List (Nat × Byte) := [(0, 1), (8, 0x31), (9, 0x54), (10, 0x51), (11, 0x4D), (0x18, 0), (0x19, 0), (0x1A, 0x40)]

theorem witness_Checkpoints (h : Obligations.Checkpoints) :
    Ran (.ckptArm (.queue 0) 0) (withCmd (started 56 [2 ^ 16 + 2 ^ 32, 4096, 2 ^ 40, 2 ^ 22]) engines { coh := { copies := [{ agent := 0, line := 2 ^ 15, st := 3 }] } } [(4098, 0x20), (4104, 1)]) ∧
    Ran (.ckptCut (.queue 0) 0) (withCmd (started 56 [2]) engines { ckpt := armed none }) ∧
    Ran (.ckptDisarm (.queue 0) 0) (withCmd (started 56 [1]) engines { ckpt := armed none }) ∧
    Ran (.ckptFull 1) (bare []) ∧
    Ran (.pageStaged 0 []) (bare [] { ckpt := armed (some (maq0 true)) }) ∧
    Ran (.maquetteComplete 0 []) (bare [] { ckpt := armed (some (maq0 false)) }) ∧
    Ran (.maquetteComplete 0x17 []) (bare [] { ckpt := armed (some (maq0 true)) }) :=
  ⟨ran2 ((h (withCmd (started 56 [2 ^ 16 + 2 ^ 32, 4096, 2 ^ 40, 2 ^ 22]) engines { coh := { copies := [{ agent := 0, line := 2 ^ 15, st := 3 }] } } [(4098, 0x20), (4104, 1)]) (.queue 0) 0 (started 56 [2 ^ 16 + 2 ^ 32, 4096, 2 ^ 40, 2 ^ 22]) (maq0 true) 0).1 [(4096, 16)] [(2 ^ 21, 1)] ⟨rfl, by decide⟩ (by decide) rfl ⟨mapped1 _ _ (by decide) (by decide) (by decide), by decide⟩ (by decide) (by decide) (by decide)),
   ran1 ((h (withCmd (started 56 [2]) engines { ckpt := armed none }) (.queue 0) 0 (started 56 [2]) (maq0 true) 0).2.1 ⟨rfl, by decide⟩ rfl (by decide) rfl),
   ran2 ((h (withCmd (started 56 [1]) engines { ckpt := armed none }) (.queue 0) 0 (started 56 [1]) (maq0 true) 0).2.2.1 ⟨rfl, by decide⟩ rfl (by decide) rfl rfl rfl),
   ran1 (h (bare []) (.queue 0) 0 (started 0 []) (maq0 true) 1).2.2.2.1,
   ran1 ((h (bare [] { ckpt := armed (some (maq0 true)) }) (.queue 0) 0 (started 0 []) (maq0 true) 0).2.2.2.2.1 0 rfl (by decide) rfl rfl (by decide) (clean_page _ rfl) rfl),
   ran2 ((h (bare [] { ckpt := armed (some (maq0 false)) }) (.queue 0) 0 (started 0 []) (maq0 false) 0).2.2.2.2.2.1 rfl rfl rfl (by decide) (by decide) (by decide) rfl (by decide)),
   ran2 ((h (bare [] { ckpt := armed (some (maq0 true)) }) (.queue 0) 0 (started 0 []) (maq0 true) 0).2.2.2.2.2.2 0x17 rfl (by decide))⟩

/-- The group records of that area are zero. -/
theorem area0_records : (List.range 4096).filter (fun i => (areaBytes area0 (1 * 0 + 0x1000 + 64 * i) 64).any (· ≠ 0)) = [] := by
  refine List.filter_eq_nil_iff.2 fun i _ => ?_
  simp only [areaBytes, List.any_map, List.any_eq_true, not_exists, not_and, List.mem_range]
  intro j _
  have hz : ∀ k, 0x1000 ≤ k → agetD area0 k 0 = 0 := by
    intro k hk
    unfold agetD area0
    have : ∀ a : Nat, a < 0x1000 → ¬ a = k := by omega
    simp [aget?, this]
  have h0 := hz (0x1000 + 64 * i + j) (by omega)
  simpa using h0

theorem witness_CheckpointRestore (h : Obligations.CheckpointRestore) :
    Ran (.ckptRestore (.queue 0) 0 area0 1 0) (withCmd (started 57 [0, 0, 2 ^ 22]) engines { ckpt := armed none }) ∧
    Ran (.ckptRestore (.queue 0) 0 area0 1 0) (withCmd (started 57 [0, 0, 2 ^ 22]) engines) :=
  ⟨ran1 ((h (withCmd (started 57 [0, 0, 2 ^ 22]) engines { ckpt := armed none }) (.queue 0) 0 (started 57 [0, 0, 2 ^ 22]) area0 1).1 0 ⟨rfl, by decide, by decide, by decide⟩ (.inl rfl)),
   ran2 ((h (withCmd (started 57 [0, 0, 2 ^ 22]) engines) (.queue 0) 0 (started 57 [0, 0, 2 ^ 22]) area0 1).2 0 [] ⟨rfl, by decide, by decide, by decide⟩ rfl rfl rfl
     (by decide) (by decide) (by decide) (by decide) (by decide) (by decide) (by decide) area0_records.symm (fun _ _ hm => nomatch hm))⟩

/-- The last sub-port of plane 1, up, on a port of MODE `mode`, with links state as given. -/
def portUp (mode : Nat) (p : SubPort := {}) (now : Nat := 0) (regs : List (Nat × Word) := []) : State :=
  bare ([rg FAB_PORT_CFG 6 15 0 [(FAB_PORT_CFG_MODE, mode), (FAB_PORT_CFG_SPLIT, 3)], rg FAB_PORT_STATUS 6 15 0 [(FAB_PORT_STATUS_UP, 15)]] ++ regs)
    { fab := { subs := [(127, p)] }, time := { elapsed := now } }
/-- A flit of TYPE 1 with SEQ `seq`. -/
def flit1 (seq : Nat) : List Byte := flitBytes seq 1 4095 false 0 0 0 []

theorem witness_NativeLinks (h : Obligations.NativeLinks) :
    Ran (.flitReceive 127 (List.replicate 256 0) 0) (portUp 1) ∧
    Ran (.flitReceive 127 (flit1 0) 0) (portUp 1) ∧
    Ran (.flitReceive 127 (flit1 1) 0) (portUp 1) ∧
    (({ retry := [⟨4095, 1, 0, []⟩, ⟨0, 1, 0, []⟩] } : SubPort).acked (leAt (flit1 0) 2 2 % 4096) 0).retry = [⟨0, 1, 0, []⟩] ∧
    Ran (.replayTimeout 127) (portUp 1 { retry := [⟨4095, 15, 255, List.replicate 244 1⟩] } (10 * oneUs)) ∧
    Ran (.subportDown 127 true) (portUp 1) ∧
    Ran (.subportDown 127 false) (portUp 1 { replays := 16 }) ∧
    Ran (.fabricLinkUp 127 255 1 2 [5, 6]) (bare [rg FAB_PORT_CFG 6 15 0 [(FAB_PORT_CFG_MODE, 1), (FAB_PORT_CFG_SPLIT, 3)]]) ∧
    Ran (.timingFlit 127 none) (portUp 1 {} oneUs) ∧
    Ran (.timingFlit 127 (some 100)) (portUp 1 {} 0 [rg TIME_CTL HD 0 0 [(TIME_CTL_SRC, 3), (TIME_CTL_UPSTREAM_PORT, 31)]]) :=
  ⟨ran2 ((h (portUp 1) 127 (List.replicate 256 0) 0).1 ⟨by decide, by decide⟩ (by decide +kernel) (by decide +kernel)),
   ran2 ((h (portUp 1) 127 (flit1 0) 0).2.1 ⟨by decide, by decide⟩ (by decide +kernel) (by decide +kernel) (by decide +kernel) (by decide +kernel)),
   ran2 ((h (portUp 1) 127 (flit1 1) 0).2.1 ⟨by decide, by decide⟩ (by decide +kernel) (by decide +kernel) (by decide +kernel) (by decide +kernel)),
   (h (portUp 1 { retry := [⟨4095, 1, 0, []⟩, ⟨0, 1, 0, []⟩] }) 127 (flit1 0) 0).2.2.1 ⟨4095, 1, 0, []⟩ [] [⟨0, 1, 0, []⟩] (by decide) (by decide) (by decide +kernel),
   ran2 ((h (portUp 1 { retry := [⟨4095, 15, 255, List.replicate 244 1⟩] } (10 * oneUs)) 127 [] 0).2.2.2.1 ⟨by decide, by decide⟩ (by decide) (by decide) (by decide +kernel)),
   ran2 ((h (portUp 1) 127 [] 0).2.2.2.2.1 true (by decide) (.inl rfl)),
   ran2 ((h (portUp 1 { replays := 16 }) 127 [] 0).2.2.2.2.1 false (by decide) (.inr ⟨by decide, by decide⟩)),
   ran1 ((h (bare [rg FAB_PORT_CFG 6 15 0 [(FAB_PORT_CFG_MODE, 1), (FAB_PORT_CFG_SPLIT, 3)]]) 127 [] 0).2.2.2.2.2.1 255 1 2 [5, 6] (by decide) (by decide) (by decide) rfl (by decide)),
   ran2 ((h (portUp 1 {} oneUs) 127 [] 0).2.2.2.2.2.2.1 ⟨by decide, by decide⟩ (by decide) (by decide)),
   ran1 ((h (portUp 1 {} 0 [rg TIME_CTL HD 0 0 [(TIME_CTL_SRC, 3), (TIME_CTL_UPSTREAM_PORT, 31)]]) 127 [] 0).2.2.2.2.2.2.2 100 ⟨by decide, by decide⟩ (by decide) (by decide))⟩

/-- A packet of every field at its greatest value, but of OP, length and tag. -/
def packet0 (op lenm1 tag : Nat) : Pkt :=
  { op := op, tagged := true, ordered := true, poison := 255, hops := 15, set := true, dstPhys := 32767, srcPhys := 32767,
    dstLog := 32767, srcLog := 32767, psn := 2 ^ 32 - 1, addr := 2 ^ 41 - 1, lenm1 := lenm1, tid := 16383, tag := tag,
    payload := List.replicate (payLen op tag lenm1) 1 }
/-- An ARP request for 0.0.0.1, of 28 bytes behind 14 of header. -/
def arp : List Byte := List.replicate 6 0xFF ++ List.replicate 6 2 ++ beBytes 2 0x0806 ++ beBytes 8 0x0001080006040001 ++
  List.replicate 16 0 ++ beBytes 4 1
/-- A package with identities 1 and 1, whose first sub-port of plane 0 is up with Ethernet, and whose partner 2 it reaches there. -/
def netRegs (mode : Nat) : List (Nat × Word) :=
  [rg FAB_ID HD 0 0 [(FAB_ID_LOGICAL, 1), (FAB_ID_LVALID, 1), (FAB_ID_PHYS, 1), (FAB_ID_PVALID, 1)],
   rg FAB_PORT_CFG 5 0 0 [(FAB_PORT_CFG_MODE, mode)], rg FAB_PORT_STATUS 5 0 0 [(FAB_PORT_STATUS_UP, 1)],
   rg FAB_PORT_PEER 5 0 0 [(FAB_PORT_PEER_PHYS0, 2), (FAB_PORT_PEER_VALID0, 1)],
   rg FAB_REMAP 5 2 0 [(FAB_REMAP_PHYS, 2), (FAB_REMAP_VALID, 1)], rg FAB_ROUTE 5 2 0 [(FAB_ROUTE_MASK, 1)]]
/-- That package with a state of its fabric, at time `now`. -/
def net (fab : FabSt := {}) (mode : Nat := 2) (ops : List MemOp := []) (now : Nat := 0) (mem : List Host.Cell := []) : State :=
  bare (netRegs mode) { fab := fab, ops := ops, time := { elapsed := now } } mem

theorem witness_PacketsAsBytes (h : Obligations.PacketsAsBytes) :
    (packet0 2 511 0).bytes.length = 544 ∧ (packet0 1 511 0).bytes.length = 32 :=
  ⟨(h (packet0 2 511 0) [] (by decide) (by decide) (by decide) (by decide) (by decide) (by decide) (by decide) (by decide)
     (by decide) (by decide) (by decide) (by decide) (by decide +kernel)).1.trans (by decide +kernel),
   (h (packet0 1 511 0) [1] (by decide) (by decide) (by decide) (by decide) (by decide) (by decide) (by decide) (by decide)
     (by decide) (by decide) (by decide) (by decide) (by decide +kernel)).1.trans (by decide +kernel)⟩

theorem witness_PortsAndFrames (h : Obligations.PortsAndFrames) :
    Ran (.ethFrameReceive 0 [] true) net ∧
    Ran (.ethFrameReceive 0 arp false) net ∧
    Ran (.arpRequest 0 arp) net ∧
    Ran (.portCfgWrite 31 2) net ∧
    Ran (.portCfgWrite 0 2) net ∧
    Ran (.fabIdWrite 0) net ∧
    Ran (.fabRemapWrite 0 32767 0) net :=
  ⟨ran1 ((h net 0 [] 0 0 0 32767).1 true ⟨by decide, by decide⟩),
   ran1 ((h net 0 arp 0 0 0 32767).1 false ⟨by decide, by decide⟩),
   ran1 ((h net 0 arp 0 0 0 32767).2.1 _ _ ⟨by decide, by decide⟩ (by decide) rfl),
   ran1 ((h net 0 [] 31 2 0 32767).2.2.1 (.inr (by decide))),
   ran1 ((h net 0 [] 0 2 0 32767).2.2.1 (.inl ⟨by decide, by decide⟩)),
   ran1 ((h net 0 [] 0 0 0 32767).2.2.2.1),
   ran1 ((h net 0 [] 0 0 0 32767).2.2.2.2)⟩

theorem witness_TransportRequests (h : Obligations.TransportRequests) :
    Ran (.transportRequestSend (.queued 0)) (net { reqs := [{ plane := 0, op := 1, dst := 3, la := 4096, len := 8, data := [], own := .nobody }] }) ∧
    Ran (.transportRequestSend (.queued 0)) (net { reqs := [{ plane := 0, op := 2, dst := 2, la := 4096, len := 8, data := [], own := .nobody }] }) ∧
    Ran (.transportRequestSend (.queued 0)) (net { reqs := [{ plane := 0, op := 3, dst := 2, la := 4096, len := 8, data := [], own := .nobody }] } 1) ∧
    Ran (.transportRequestSend (.thread 0 0)) (bare (netRegs 2 ++ [rg FAB_CTL 5 0 0 []]) { ops := [{ id := 0, pk := 0, thread := 0, pc := 0, aslot := 0, kind := .lds, reqs := [{ va := 0, len := 64, pa := 2 * 2 ^ 41, st := .sent }] }] }) ∧
    Ran (.transportPacketAccept 0 true) (bare [] { fab := { rx := [(0, true, false, { op := 1 })] } }) ∧
    Ran (.transportPacketAccept 0 true) (net { rx := [(0, true, false, { op := 1, dstPhys := 2, hops := 1 })] }) ∧
    Ran (.transportPacketAccept 0 true) (net { rx := [(0, true, false, { op := 1, dstPhys := 2 })] }) ∧
    Ran (.transportPacketAccept 0 true) (net { rx := [(0, true, false, { op := 1, dstPhys := 1 })] }) ∧
    Ran (.transportPacketAccept 0 false) (net { rx := [(0, true, false, { op := 1, dstPhys := 1, dstLog := 1, srcPhys := 2, srcLog := 2 })] }) ∧
    Ran (.transportPacketAccept 0 true) (net { rx := [(0, true, false, { op := 8, dstPhys := 1, dstLog := 1, srcPhys := 2, srcLog := 2 })] }) ∧
    Ran (.transportPacketAccept 0 true) (net { rx := [(0, true, false, { op := 1, dstPhys := 1, dstLog := 1, srcPhys := 2, srcLog := 2 })] }) ∧
    Ran (.read 0) (net { inq := [(0, { op := 1, addr := 0x0C000000000 })] }) ∧
    Ran (.write 0) (net { inq := [(0, { op := 2, addr := 0x0C000000000 })] }) ∧
    Ran (.transportAtomic 0) (net { inq := [(0, { op := 3, addr := 0x0C000000000 })] }) ∧
    Ran (.read 0) (net { inq := [(0, { op := 1, addr := 4096, lenm1 := 511 })] }) ∧
    Ran (.write 0) (net { inq := [(0, { op := 2, addr := 4096, lenm1 := 7, payload := leBytes 8 7 })] }) ∧
    Ran (.transportAtomic 0) (net { inq := [(0, { op := 3, addr := 4092, lenm1 := 23, payload := leBytes 8 10 ++ leBytes 8 7 ++ leBytes 8 9 })] }) :=
  ⟨ran1 (((h (net { reqs := [{ plane := 0, op := 1, dst := 3, la := 4096, len := 8, data := [], own := .nobody }] }) 0).1 0 _ rfl rfl rfl (by decide) (by decide)).1 (.inl (by decide))),
   ran1 (((h (net { reqs := [{ plane := 0, op := 2, dst := 2, la := 4096, len := 8, data := [], own := .nobody }] }) 0).1 0 _ rfl rfl rfl (by decide) (by decide)).2 2 0 ⟨by decide, by decide, by decide, by decide⟩ (by refine ⟨by decide, ?_, by decide⟩; intro _ c hc; cases hc)),
   ran1 (((h (net { reqs := [{ plane := 0, op := 3, dst := 2, la := 4096, len := 8, data := [], own := .nobody }] } 1) 0).1 0 _ rfl rfl rfl (by decide) (by decide)).2 2 0 ⟨by decide, by decide, by decide, by decide⟩ ⟨by decide, fun hm => absurd hm (by decide), fun hm => absurd hm (by decide)⟩),
   ran1 ((h (bare (netRegs 2 ++ [rg FAB_CTL 5 0 0 []]) { ops := [{ id := 0, pk := 0, thread := 0, pc := 0, aslot := 0, kind := .lds, reqs := [{ va := 0, len := 64, pa := 2 * 2 ^ 41, st := .sent }] }] }) 0).2.1 0 0 2 0 _ _ rfl rfl rfl (by decide) rfl rfl ⟨by decide, by decide, by decide, by decide⟩ (by refine ⟨by decide, ?_, by decide⟩; intro _ c hc; cases hc)),
   ran2 (((h (bare [] { fab := { rx := [(0, true, false, { op := 1 })] } }) 0).2.2.1 true false true _ rfl).1 (by decide)),
   ran2 (((h (net { rx := [(0, true, false, { op := 1, dstPhys := 2, hops := 1 })] }) 0).2.2.1 true false true _ rfl).2.1 ⟨by decide, by decide⟩ (by decide) (by decide)),
   ran2 (((h (net { rx := [(0, true, false, { op := 1, dstPhys := 2 })] }) 0).2.2.1 true false true _ rfl).2.2.1 ⟨by decide, by decide⟩ (by decide) rfl),
   ran2 (((h (net { rx := [(0, true, false, { op := 1, dstPhys := 1 })] }) 0).2.2.1 true false true _ rfl).2.2.2.1 ⟨⟨by decide, by decide⟩, by decide, by decide⟩ (by decide)),
   ran2 ((((h (net { rx := [(0, true, false, { op := 1, dstPhys := 1, dstLog := 1, srcPhys := 2, srcLog := 2 })] }) 0).2.2.1 true false false _ rfl).2.2.2.2 ⟨⟨by decide, by decide⟩, by decide, by decide⟩ rfl (fun _ => by decide) (by decide)).1 (by decide) rfl),
   ran1 ((((h (net { rx := [(0, true, false, { op := 8, dstPhys := 1, dstLog := 1, srcPhys := 2, srcLog := 2 })] }) 0).2.2.1 true false true _ rfl).2.2.2.2 ⟨⟨by decide, by decide⟩, by decide, by decide⟩ rfl (fun _ => by decide) (by decide)).2.1 (by decide)),
   ran1 ((((h (net { rx := [(0, true, false, { op := 1, dstPhys := 1, dstLog := 1, srcPhys := 2, srcLog := 2 })] }) 0).2.2.1 true false true _ rfl).2.2.2.2 ⟨⟨by decide, by decide⟩, by decide, by decide⟩ rfl (fun _ => by decide) (by decide)).2.2 (by decide) rfl (by decide) rfl rfl (by decide)),
   ran2 (((h (net { inq := [(0, { op := 1, addr := 0x0C000000000 })] }) 0).2.2.2 1 _ (by decide) (by decide) rfl).1 (by decide)),
   ran2 (((h (net { inq := [(0, { op := 2, addr := 0x0C000000000 })] }) 0).2.2.2 2 _ (by decide) (by decide) rfl).1 (by decide)),
   ran2 (((h (net { inq := [(0, { op := 3, addr := 0x0C000000000 })] }) 0).2.2.2 3 _ (by decide) (by decide) rfl).1 (by decide)),
   ran2 (((h (net { inq := [(0, { op := 1, addr := 4096, lenm1 := 511 })] }) 0).2.2.2 1 _ (by decide) (by decide) rfl).2.1 rfl (by decide) (by decide)),
   ran2 (((h (net { inq := [(0, { op := 2, addr := 4096, lenm1 := 7, payload := leBytes 8 7 })] }) 0).2.2.2 2 _ (by decide) (by decide) rfl).2.2.1 rfl (by decide) rfl (by decide) (by decide) (by decide)),
   ran2 (((h (net { inq := [(0, { op := 3, addr := 4092, lenm1 := 23, payload := leBytes 8 10 ++ leBytes 8 7 ++ leBytes 8 9 })] }) 0).2.2.2 3 _ (by decide) (by decide) rfl).2.2.2 rfl (by decide) (by decide) (by decide) (by decide) (by decide) (by decide) (by decide) (by decide))⟩

/-- A packet of partner 2 for this package. -/
def from2 (op addr tag psn tid : Nat) : Pkt :=
  { op := op, dstPhys := 1, dstLog := 1, srcPhys := 2, srcLog := 2, addr := addr, tag := tag, psn := psn, tid := tid }
/-- A request to partner 2, sent with a number. -/
def asked (op tid : Nat) : TReq := { plane := 0, op := op, dst := 2, la := 0, len := 8, own := .nobody, tid := some tid }
/-- A packet kept. -/
def kept0 (again : Bool) : Kept := { pkt := { op := 1, dstPhys := 2, dstLog := 2, psn := 5, tid := 9 }, since := 0, again := again }
/-- A connection to partner 2 with one packet kept. -/
def conn0 (tries : Nat) (again : Bool) : Conn :=
  { plane := 0, phys := 2, cls := 0, psn := 6, window := 64, tries := tries,
    kept := [kept0 again] }

set_option maxRecDepth 4000 in
theorem witness_TransportResponses (h : Obligations.TransportResponses) :
    Ran (.readData 0) (bare (netRegs 2 ++ [rg FAB_CTL 5 0 0 []]) { fab := { inq := [(0, (from2 4 0 0 0 9))], reqs := [asked 1 9] } }) ∧
    Ran (.writeAck 0) (bare (netRegs 2 ++ [rg FAB_CTL 5 0 0 []]) { fab := { inq := [(0, (from2 5 0 0 0 9))], reqs := [asked 2 9] } }) ∧
    Ran (.atomicData 0) (bare (netRegs 2 ++ [rg FAB_CTL 5 0 0 []]) { fab := { inq := [(0, (from2 6 0 0 0 9))], reqs := [asked 3 9] } }) ∧
    Ran (.ack 0) (net { inq := [(0, (from2 8 0 0 5 0))], conns := [conn0 0 false] }) ∧
    Ran (.nak 0) (net { inq := [(0, (from2 9 (4 * 2) (5 * 2 ^ 16) 5 0))], conns := [conn0 0 false], reqs := [asked 1 9] }) ∧
    Ran (.nak 0) (net { inq := [(0, (from2 9 (4 * 2) (2 * 2 ^ 16) 5 0))], conns := [conn0 0 false], reqs := [asked 1 9] }) ∧
    Ran (.nak 0) (net { inq := [(0, (from2 9 (4 * 2) (1 * 2 ^ 16) 5 0))], conns := [conn0 0 false], reqs := [asked 1 9] }) ∧
    Ran (.ackTimer 0 2 2 2) (net { rconns := [{ plane := 0, phys := 2, cls := 2, unacked := 6 }] } 2 [] (2 * oneUs)) ∧
    Ran (.retransmitTimeout 0 2 0) (net { conns := [conn0 15 true] } 2 [] (10 ^ 40)) ∧
    Ran (.retransmitTimeout 0 2 0) (net { conns := [conn0 0 false] } 2 [] (10 ^ 40)) ∧
    Ran (.heartbeat 0 true) (net { inq := [(0, (from2 32 0 0 0 0))] }) ∧
    Ran (.heartbeat 0 false) (net { conns := [conn0 0 false] }) ∧
    Ran (.heartbeatMiss 0 2) (net { hb := [{ plane := 0, logical := 2, last := 0, waiting := true, misses := 2 }] } 2 [] (10 ^ 40)) ∧
    Ran (.announce 0) (net { inq := [(0, (from2 33 0 (3 * 2 ^ 16) 0 0))] }) ∧
    Ran (.hostHartFence) net ∧
    Ran (.ltReadFence (.queue 0) 0) (withCmd (started 0x32 []) [(BOOT_CAP_EFF_HI.key HD 0 0, 0x3F)]) :=
  ⟨ran2 ((h (bare (netRegs 2 ++ [rg FAB_CTL 5 0 0 []]) { fab := { inq := [(0, (from2 4 0 0 0 9))], reqs := [asked 1 9] } }) 0 (from2 4 0 0 0 9)).1 4 _ (by decide) (by decide) (by decide) rfl (by decide)),
   ran2 ((h (bare (netRegs 2 ++ [rg FAB_CTL 5 0 0 []]) { fab := { inq := [(0, (from2 5 0 0 0 9))], reqs := [asked 2 9] } }) 0 (from2 5 0 0 0 9)).1 5 _ (by decide) (by decide) (by decide) rfl (by decide)),
   ran2 ((h (bare (netRegs 2 ++ [rg FAB_CTL 5 0 0 []]) { fab := { inq := [(0, (from2 6 0 0 0 9))], reqs := [asked 3 9] } }) 0 (from2 6 0 0 0 9)).1 6 _ (by decide) (by decide) (by decide) rfl (by decide)),
   ran2 ((h (net { inq := [(0, (from2 8 0 0 5 0))], conns := [conn0 0 false] }) 0 (from2 8 0 0 5 0)).2.1 _ (by decide) rfl rfl (by decide)),
   ran1 ((h (net { inq := [(0, (from2 9 (4 * 2) (5 * 2 ^ 16) 5 0))], conns := [conn0 0 false], reqs := [asked 1 9] }) 0 (from2 9 (4 * 2) (5 * 2 ^ 16) 5 0)).2.2.1 _ _ (by decide) rfl rfl),
   ran1 ((h (net { inq := [(0, (from2 9 (4 * 2) (2 * 2 ^ 16) 5 0))], conns := [conn0 0 false], reqs := [asked 1 9] }) 0 (from2 9 (4 * 2) (2 * 2 ^ 16) 5 0)).2.2.1 _ _ (by decide) rfl rfl),
   ran1 ((h (net { inq := [(0, (from2 9 (4 * 2) (1 * 2 ^ 16) 5 0))], conns := [conn0 0 false], reqs := [asked 1 9] }) 0 (from2 9 (4 * 2) (1 * 2 ^ 16) 5 0)).2.2.1 _ _ (by decide) rfl rfl),
   ran2 ((h (net { rconns := [{ plane := 0, phys := 2, cls := 2, unacked := 6 }] } 2 [] (2 * oneUs)) 0 (from2 0 0 0 0 0)).2.2.2.1 2 2 2 (by decide) (by decide)),
   ran1 (((h (net { conns := [conn0 15 true] } 2 [] (10 ^ 40)) 0 (from2 0 0 0 0 0)).2.2.2.2.1 2 0 (conn0 15 true) (kept0 true) rfl (by decide +kernel)).1 (by decide)),
   ran2 (((h (net { conns := [conn0 0 false] } 2 [] (10 ^ 40)) 0 (from2 0 0 0 0 0)).2.2.2.2.1 2 0 (conn0 0 false) (kept0 false) rfl (by decide +kernel)).2 (by decide)),
   ran2 ((h (net { inq := [(0, (from2 32 0 0 0 0))] }) 0 (from2 32 0 0 0 0)).2.2.2.2.2.1 (by decide)),
   ran2 ((h (net { conns := [conn0 0 false] }) 0 (from2 0 0 0 0 0)).2.2.2.2.2.2.1 2 (by decide) rfl),
   ran2 ((h (net { hb := [{ plane := 0, logical := 2, last := 0, waiting := true, misses := 2 }] } 2 [] (10 ^ 40)) 0 (from2 0 0 0 0 0)).2.2.2.2.2.2.2.1 2 _ rfl),
   ran2 ((h (net { inq := [(0, (from2 33 0 (3 * 2 ^ 16) 0 0))] }) 0 (from2 33 0 (3 * 2 ^ 16) 0 0)).2.2.2.2.2.2.2.2.1 (by decide)),
   ran1 ((h net 0 (from2 0 0 0 0 0)).2.2.2.2.2.2.2.2.2.1 ),
   ran2 ((h (withCmd (started 0x32 []) [(BOOT_CAP_EFF_HI.key HD 0 0, 0x3F)]) 0 (from2 0 0 0 0 0)).2.2.2.2.2.2.2.2.2.2 (.queue 0) 0 _ rfl (by decide) (by decide))⟩

/-- A SUM ALLREDUCE of one FP32 element by recursive doubling, its group table at 8,192 of queue 0. -/
def post0 : Cmd :=
  { started 0x34 [0 + 1 * 2 ^ 32 + 1 * 2 ^ 48, 5 + 1 * 2 ^ 32, 8192, 1, 1, 0, 0] with
    pkt := packet [0x34, 0 + 1 * 2 ^ 32 + 1 * 2 ^ 48, 5 + 1 * 2 ^ 32, 8192, 1, 1, 0, 0] ++ List.replicate 64 0 }
/-- Its collective, of packages 1 and 2. -/
def coll0 (rank : Nat) : Coll :=
  { cmd := 0, plane := 0, group := [1, 2], rank := rank, digest := 77, vec := [if rank = 0 then 0x3F800000 else 0x40000000],
    msgs := [{ phase := 0, rank := 1 - rank, len := 4, bytes := leBytes 4 (if rank = 0 then 0x40000000 else 0x3F800000) }] }
/-- The collective-assist role, with a collective that offers an item of one element, or one that the thread has taken. -/
def assisting (item : CollItem) (th : Thread) : State :=
  cell0 th {} [rg CELL_ROLE 0 0 0 [(CELL_ROLE_ROLE, 6)]]
    { fab := { colls := [{ coll0 0 with items := some [item] }] }, cmd := { cmds := [post0] } }

theorem witness_Collectives (h : Obligations.Collectives) :
    Ran (.collPost (.queue 0) 0) (bare (slot0 ++ [(BOOT_CAP_EFF_HI.key HD 0 0, 0x3F)]) { cmd := { cmds := [post0] }, xlat := { tlb := [page0] } } [(8192, 2), (8202, 2)]) ∧
    Ran (.coll 0) (bare (netRegs 2) { cmd := { cmds := [post0] }, fab := { inq := [(0, { op := 0x10, addr := 5, srcLog := 2, payload := leBytes 4 77 ++ leBytes 2 0 ++ leBytes 2 0 ++ leBytes 8 4 ++ leBytes 8 0 ++ leBytes 4 0x40000000 })], colls := [coll0 0] } }) ∧
    Ran (.collectiveAbort 0) (bare (netRegs 2) { cmd := { cmds := [post0] }, fab := { inq := [(0, { op := 0x10, addr := 5, srcLog := 2, payload := leBytes 4 77 ++ leBytes 2 0 ++ leBytes 2 1 ++ leBytes 8 4 ++ leBytes 8 0 ++ leBytes 4 0x40000000 })], colls := [coll0 0] } }) ∧
    Ran (.ctake 0 0 (wd 9 0 (0 * 2 ^ 16 + 9 * 2 ^ 26 + 5 * 2 ^ 31 + 7 * 2 ^ 36))) (cell0 { ready with s := ready.s ++ [(9, 196608)] } {} [rg CELL_ROLE 0 0 0 [(CELL_ROLE_ROLE, 6)]]) ∧
    Ran (.ctake 0 0 (wd 9 0 (0 * 2 ^ 16 + 9 * 2 ^ 26 + 5 * 2 ^ 31 + 7 * 2 ^ 36))) (assisting { num := 5, off := 0, count := 1 } { ready with s := ready.s ++ [(9, 196608)] }) ∧
    Ran (.cgive 0 0 (wd 9 1 (1 * 2 ^ 16))) (cell0 { ready with s := ready.s ++ [(9, 196608)] } {} [rg CELL_ROLE 0 0 0 [(CELL_ROLE_ROLE, 6)]]) ∧
    Ran (.cgive 0 0 (wd 9 1 (1 * 2 ^ 16))) (assisting { num := 5, off := 0, count := 1, taken := some (0, 0) } { ready with s := ready.s ++ [(9, 196608)] }) ∧
    (Coll.combine (coll0 1) post0 none).vec = (Coll.combine (coll0 0) post0 none).vec :=
  ⟨ran1 ((h (bare (slot0 ++ [(BOOT_CAP_EFF_HI.key HD 0 0, 0x3F)]) { cmd := { cmds := [post0] }, xlat := { tlb := [page0] } } [(8192, 2), (8202, 2)]) (.queue 0) 0 0 post0 (coll0 0)).1 [(8192, 8)] [(8200, 4)] [] [0, 2] 0
     rfl (by decide) (by decide) (fun hd => absurd hd (by decide)) (by decide) (by decide) (by decide) ⟨mapped1 _ _ (by decide) (by decide) (by decide), by decide⟩ (by decide) (by decide) ⟨mapped1 _ _ (by decide) (by decide) (by decide), by decide⟩ (by decide) (fun hd => absurd hd (by decide)) (by decide) (by decide) (by decide) (by decide) (fun hd => absurd hd (by decide))),
   ran2 ((h (bare (netRegs 2) { cmd := { cmds := [post0] }, fab := { inq := [(0, { op := 0x10, addr := 5, srcLog := 2, payload := leBytes 4 77 ++ leBytes 2 0 ++ leBytes 2 0 ++ leBytes 8 4 ++ leBytes 8 0 ++ leBytes 4 0x40000000 })], colls := [coll0 0] } }) (.queue 0) 0 0 post0 (coll0 0)).2.1 _ 1 ⟨rfl, by decide, by decide, by decide⟩ (by decide) (by decide)),
   ran2 ((h (bare (netRegs 2) { cmd := { cmds := [post0] }, fab := { inq := [(0, { op := 0x10, addr := 5, srcLog := 2, payload := leBytes 4 77 ++ leBytes 2 0 ++ leBytes 2 1 ++ leBytes 8 4 ++ leBytes 8 0 ++ leBytes 4 0x40000000 })], colls := [coll0 0] } }) (.queue 0) 0 0 post0 (coll0 0)).2.2.1 _ _ ⟨rfl, by decide, by decide, by decide⟩ rfl),
   ran1 ((((h (cell0 { ready with s := ready.s ++ [(9, 196608)] } {} [rg CELL_ROLE 0 0 0 [(CELL_ROLE_ROLE, 6)]]) (.queue 0) 0 0 post0 (coll0 0)).2.2.2.1 0 0 (wd 9 0 (0 * 2 ^ 16 + 9 * 2 ^ 26 + 5 * 2 ^ 31 + 7 * 2 ^ 36)) 0).1 (by decide) (by decide) (by decide) ⟨by decide, by decide⟩).1 (by decide)),
   ran1 ((((h (assisting { num := 5, off := 0, count := 1 } { ready with s := ready.s ++ [(9, 196608)] }) (.queue 0) 0 0 post0 ({ coll0 0 with items := some [{ num := 5, off := 0, count := 1 }] })).2.2.2.1 0 0 (wd 9 0 (0 * 2 ^ 16 + 9 * 2 ^ 26 + 5 * 2 ^ 31 + 7 * 2 ^ 36)) 0).1 (by decide) (by decide) (by decide) ⟨by decide, by decide⟩).2 _ _ rfl rfl),
   ran1 ((((h (cell0 { ready with s := ready.s ++ [(9, 196608)] } {} [rg CELL_ROLE 0 0 0 [(CELL_ROLE_ROLE, 6)]]) (.queue 0) 0 0 post0 (coll0 0)).2.2.2.1 0 0 (wd 9 1 (1 * 2 ^ 16)) 0).2 (by decide)).1 rfl),
   ran2 ((((h (assisting { num := 5, off := 0, count := 1, taken := some (0, 0) } { ready with s := ready.s ++ [(9, 196608)] }) (.queue 0) 0 0 post0 ({ coll0 0 with items := some [{ num := 5, off := 0, count := 1, taken := some (0, 0) }] })).2.2.2.1 0 0 (wd 9 1 (1 * 2 ^ 16)) 0).2 (by decide)).2 _ _ rfl (by decide)),
   ((h (bare []) (.queue 0) 0 0 post0 (coll0 0)).2.2.2.2 (coll0 0) (coll0 1) _ _ (by decide) (by decide) (by decide) (by decide) rfl rfl rfl rfl rfl rfl rfl rfl ⟨by decide, by decide +kernel⟩ ⟨by decide, by decide +kernel⟩ (by decide +kernel) (by decide +kernel)).2⟩

/-! ## Arbiters, spares and tests -/

/-- Two heads at an arbiter, that have waited 0 and `w` cycles. -/
def heads2 (w : Nat) : List ArbReq := [{ r := 0, wait := 0, service := 1, queued := 1, first := false }, { r := 1, wait := w, service := 1, queued := 1, first := false }]

theorem witness_ArbiterChoice (h : Obligations.ArbiterChoice) :
    (∃ q ∈ heads2 0, q.r.val = 0) ∧ (∃ q ∈ heads2 (2 ^ 30), q.r.val = 1) ∧ ((bare []).dev.arbWinner 0 0 [] = none) :=
  ⟨(fun ⟨q, hq, hw, _⟩ => ⟨q, hq, hw⟩) ((h (bare []).dev 0 0 (heads2 0) (by decide)).1 0 false (by decide)),
   (fun ⟨q, hq, hw, _⟩ => ⟨q, hq, hw⟩) ((h (bare []).dev 0 0 (heads2 (2 ^ 30)) (by decide)).1 1 true (by decide)),
   (h (bare []).dev 0 0 [] (by decide)).2.2 (.inl rfl)⟩

theorem witness_ArbiterGrants (h : Obligations.ArbiterGrants) :
    Ran (.arbiterGrant 0 0 (heads2 63)) (bare [rg ARB_CTL 0 0 0 [(ARB_CTL_AGE, 1)]]) ∧
    Ran (.arbiterGrant 0 0 (heads2 64)) (bare [rg ARB_CTL 0 0 0 [(ARB_CTL_AGE, 1)]]) ∧
    Ran (.arbWindowEnd 6 65) (bare [] { time := { elapsed := 10 ^ 40 } }) ∧
    Ran (.arbMaxClr 0 212 (2 ^ 17)) (bare []) :=
  ⟨ran1 ((h (bare [rg ARB_CTL 0 0 0 [(ARB_CTL_AGE, 1)]]) 0 0 (heads2 63) 0).1 0 false _ (by decide) rfl (by decide)),
   ran1 ((h (bare [rg ARB_CTL 0 0 0 [(ARB_CTL_AGE, 1)]]) 0 0 (heads2 64) 0).1 1 true _ (by decide) rfl (by decide)),
   ran1 ((h (bare [] { time := { elapsed := 10 ^ 40 } }) 6 65 [] 0).2.1 (by decide) (by decide +kernel)),
   ran1 ((h (bare []) 0 212 [] (2 ^ 17)).2.2 (by decide) (by decide))⟩

theorem witness_PatinaOfUnits (h : Obligations.PatinaOfUnits) :
    ((Tr.setPatina (ukey 2 5 3) 65536).run (bare []).dev).mem = [] ∧
    Ran (.sparePatinaWrite 5) (bare []) ∧
    Ran (.sparePatinaWrite 5) (bare [rg SPARE_SEL HD 0 0 [(SPARE_SEL_KIND, 7), (SPARE_SEL_DIE, 7)]]) ∧
    Ran (.ucieFlitRetry 6 23) (bare [] { links := [(6, { up := true, modules := 2 ^ 24 - 1 })] }) ∧
    Ran (.ucieLaneFailure 6 23 true) (bare [] { links := [(6, { up := true, modules := 2 ^ 24 - 1 })] }) ∧
    Ran (.ucieLaneFailure 6 23 false) (bare [] { links := [(6, { up := true, modules := 2 ^ 24 - 1 })] }) ∧
    Ran (.laneAdaptationPass 1 135 0 65536) (bare []) ∧
    Ran (.hbmCalibrationStep 3 2 63 0 true true) (bare []) ∧
    Ran (.timingMarginSample 4 95 0) (bare []) ∧
    Ran (.timingMarginSample 4 95 0) (bare [rg PWR_STATE HD 0 0 [(PWR_STATE_STATE, 2)]]) :=
  ⟨((h (bare []) 0 0 0 0 0 0 0 0 0 0 false false 0 0 (by decide)).1 (ukey 2 5 3) 65536).1,
   ran1 ((h (bare []) 5 6 23 1 135 0 65536 3 2 63 true true 4 95 (by decide)).2.2.1 _ rfl),
   ran0 ((h (bare [rg SPARE_SEL HD 0 0 [(SPARE_SEL_KIND, 7), (SPARE_SEL_DIE, 7)]]) 5 6 23 1 135 0 65536 3 2 63 true true 4 95 (by decide)).2.2.2.1 (by decide)),
   ran1 ((h (bare [] { links := [(6, { up := true, modules := 2 ^ 24 - 1 })] }) 5 6 23 1 135 0 65536 3 2 63 true true 4 95 (by decide)).2.2.2.2.1 (by decide)).1,
   ran1 ((h (bare [] { links := [(6, { up := true, modules := 2 ^ 24 - 1 })] }) 5 6 23 1 135 0 65536 3 2 63 true true 4 95 (by decide)).2.2.2.2.1 (by decide)).2.1,
   ran1 ((h (bare [] { links := [(6, { up := true, modules := 2 ^ 24 - 1 })] }) 5 6 23 1 135 0 65536 3 2 63 true true 4 95 (by decide)).2.2.2.2.1 (by decide)).2.2,
   ran2 ((h (bare []) 5 6 23 1 135 0 65536 3 2 63 true true 4 95 (by decide)).2.2.2.2.2.1 (by decide) (by decide)),
   ran2 ((h (bare []) 5 6 23 1 135 0 65536 3 2 63 true true 4 95 (by decide)).2.2.2.2.2.2.1),
   ran0 ((h (bare []) 5 6 23 1 135 0 65536 3 2 63 true true 4 95 (by decide)).2.2.2.2.2.2.2.1 (by decide)),
   ran1 ((h (bare [rg PWR_STATE HD 0 0 [(PWR_STATE_STATE, 2)]]) 5 6 23 1 135 0 65536 3 2 63 true true 4 95 (by decide)).2.2.2.2.2.2.2.2 ⟨by decide, by decide, by decide⟩)⟩

theorem witness_SparesAndTests (h : Obligations.SparesAndTests) :
    Ran (.probationTestEnd 1 4 95 true) (bare [] { spare := { probes := [{ unit := ukey 1 4 95, level := 0, inPlace := false }] }, time := { elapsed := 10 ^ 40 } }) ∧
    Ran (.inplaceTestEnd 1 4 95 true) (bare [] { spare := { probes := [{ unit := ukey 1 4 95, level := 0, inPlace := true }] }, time := { elapsed := 10 ^ 40 } }) ∧
    Ran (.hostCoreSwapDone 95) (bare [] { spare := { leaving := [{ out := ukey 1 4 3, st := 3, logical := 95, to_ := 97, ends := 0 }] } }) ∧
    Ran (.wayEvictionDone 3 15) (bare [] { spare := { evicting := [ukey 4 3 15] } }) ∧
    Ran (.sparePprReq 3 1) (bare [rg SPARE_PPR_REQ 3 0 0 [(SPARE_PPR_REQ_GO, 1)]] { spare := { ppr := [(3, 0)] } }) ∧
    Ran (.sparePprReq 3 (1 + 191 * 2 ^ 8 + 6143 * 2 ^ 32)) (bare []) ∧
    Ran (.pprDone 3) (bare [rg SPARE_PPR_REQ 3 0 0 [(SPARE_PPR_REQ_GO, 1)]] { spare := { ppr := [(3, 0)] } }) ∧
    Ran (.laneLoss 31 7 false) (bare [rg FAB_PORT_CFG 6 15 0 [(FAB_PORT_CFG_MODE, 1)], rg FAB_PORT_LANES 6 15 0 [(FAB_PORT_LANES_PHYS_LANE7, 134)]]) ∧
    Ran (.laneLoss 31 7 true) (bare [rg FAB_PORT_CFG 6 15 0 [(FAB_PORT_CFG_MODE, 1)], rg FAB_PORT_LANES 6 15 0 [(FAB_PORT_LANES_PHYS_LANE7, 134)]]) :=
  ⟨ran0 ((h (bare [] { spare := { probes := [{ unit := ukey 1 4 95, level := 0, inPlace := false }] }, time := { elapsed := 10 ^ 40 } }) 1 4 95 true 95 3 15 1 31 7 (by decide)).1 _ ⟨List.mem_singleton.2 rfl, rfl, by decide +kernel, by decide⟩ rfl rfl),
   ran2 ((h (bare [] { spare := { probes := [{ unit := ukey 1 4 95, level := 0, inPlace := true }] }, time := { elapsed := 10 ^ 40 } }) 1 4 95 true 95 3 15 1 31 7 (by decide)).2.1 _ ⟨List.mem_singleton.2 rfl, rfl, by decide +kernel, by decide⟩ rfl rfl),
   ran1 ((h (bare [] { spare := { leaving := [{ out := ukey 1 4 3, st := 3, logical := 95, to_ := 97, ends := 0 }] } }) 1 4 95 true 95 3 15 1 31 7 (by decide)).2.2.1 _ rfl rfl rfl),
   ran1 ((h (bare [] { spare := { evicting := [ukey 4 3 15] } }) 1 4 95 true 95 3 15 1 31 7 (by decide)).2.2.2.1 (by decide) (by decide)),
   ran0 ((h (bare [rg SPARE_PPR_REQ 3 0 0 [(SPARE_PPR_REQ_GO, 1)]] { spare := { ppr := [(3, 0)] } }) 1 4 95 true 95 3 15 1 31 7 (by decide)).2.2.2.2.1.1 (by decide)),
   ran1 ((h (bare []) 1 4 95 true 95 3 15 (1 + 191 * 2 ^ 8 + 6143 * 2 ^ 32) 31 7 (by decide)).2.2.2.2.1.2.1 (by decide) (by decide) (by decide) (by decide)),
   ran1 ((h (bare [rg SPARE_PPR_REQ 3 0 0 [(SPARE_PPR_REQ_GO, 1)]] { spare := { ppr := [(3, 0)] } }) 1 4 95 true 95 3 15 0 31 7 (by decide)).2.2.2.2.1.2.2 _ rfl (fun _ _ => rfl)),
   ran2 (((h (bare [rg FAB_PORT_CFG 6 15 0 [(FAB_PORT_CFG_MODE, 1)], rg FAB_PORT_LANES 6 15 0 [(FAB_PORT_LANES_PHYS_LANE7, 134)]]) 1 4 95 true 95 3 15 0 31 7 (by decide)).2.2.2.2.2 (by decide) (by decide)).1),
   ran1 (((h (bare [rg FAB_PORT_CFG 6 15 0 [(FAB_PORT_CFG_MODE, 1)], rg FAB_PORT_LANES 6 15 0 [(FAB_PORT_LANES_PHYS_LANE7, 134)]]) 1 4 95 true 95 3 15 0 31 7 (by decide)).2.2.2.2.2 (by decide) (by decide)).2 (ukey 2 6 135) (by decide))⟩

/-! ## Power and links -/

theorem witness_PowerStates (h : Obligations.PowerStates) :
    Ran (.pwrgoodDeassert) (bare [rg PWR_STATE HD 0 0 [(PWR_STATE_STATE, 2)]]) ∧
    Ran (.resetNAssert) (bare []) ∧
    Ran (.inputUndervoltage) (bare [rg PWR_STATE HD 0 0 [(PWR_STATE_STATE, 2)]]) ∧
    Ran (.refclkFault false) (bare [rg PWR_STATE HD 0 0 [(PWR_STATE_STATE, 2)]]) ∧
    Ran (.refclkFault true) (bare [rg PWR_STATE HD 0 0 [(PWR_STATE_STATE, 1)]]) ∧
    Ran (.refclkRestored) (bare [rg PWR_STATE HD 0 0 [(PWR_STATE_STATE, 1)]] { boot := { refclkBad := true, fault := true } }) ∧
    Ran (.refclkFault true) (bare [rg PWR_STATE HD 0 0 [(PWR_STATE_STATE, 0)]]) ∧
    Ran (.nightExit true) (bare [rg PWR_STATE HD 0 0 [(PWR_STATE_STATE, 0)]]) ∧
    Ran (.nightExit false) (bare [rg PWR_STATE HD 0 0 [(PWR_STATE_STATE, 2)]]) ∧
    Ran .duskEnd (bare [rg PWR_STATE HD 0 0 [(PWR_STATE_STATE, 2)]]) ∧
    Ran .duskEnd (bare [rg PWR_STATE HD 0 0 [(PWR_STATE_STATE, 3)]] { boot := { duskCause := 3, duskNight := true } }) ∧
    Ran .duskEnd (bare [rg PWR_STATE HD 0 0 [(PWR_STATE_STATE, 3)]] { boot := { duskCause := 3, duskNight := false } }) ∧
    Ran .leaseLow (bare [rg PWR_STATE HD 0 0 [(PWR_STATE_STATE, 2)], rg MGMT_LEASE_CFG HD 0 0 [(MGMT_LEASE_CFG_LOW_PCT, 25)]] { boot := { grant := 8, lease := oneMs } }) ∧
    Ran .leaseLow (bare []) ∧
    Ran (.leaseExpire) (bare []) ∧
    Ran (.leaseExpire) (bare [rg PWR_STATE HD 0 0 [(PWR_STATE_STATE, 2)]]) ∧
    Ran (.hostHeartbeatTimeout 3) (bare [rg PWR_STATE HD 0 0 [(PWR_STATE_STATE, 3)]] { links := [(7, { up := true })], time := { elapsed := 10 ^ 40 } }) ∧
    Ran (.hostHeartbeatTimeout 3) (bare []) :=
  ⟨ran1 ((h (bare [rg PWR_STATE HD 0 0 [(PWR_STATE_STATE, 2)]]) true 3).1 ),
   ran1 ((h (bare []) true 3).2.1 ),
   ran1 ((h (bare [rg PWR_STATE HD 0 0 [(PWR_STATE_STATE, 2)]]) true 3).2.2.1 ),
   ran1 ((h (bare [rg PWR_STATE HD 0 0 [(PWR_STATE_STATE, 2)]]) true 3).2.2.2.1 (by decide)),
   ran0 ((h (bare [rg PWR_STATE HD 0 0 [(PWR_STATE_STATE, 1)]]) true 3).2.2.2.2.1 (by decide)),
   ran0 ((h (bare [rg PWR_STATE HD 0 0 [(PWR_STATE_STATE, 1)]] { boot := { refclkBad := true, fault := true } }) true 3).2.2.2.2.2.1 (by decide) rfl),
   ran0 (((h (bare [rg PWR_STATE HD 0 0 [(PWR_STATE_STATE, 0)]]) true 3).2.2.2.2.2.2.1 (by decide)).1),
   ran1 (((h (bare [rg PWR_STATE HD 0 0 [(PWR_STATE_STATE, 0)]]) true 3).2.2.2.2.2.2.1 (by decide)).2),
   ran0 ((h (bare [rg PWR_STATE HD 0 0 [(PWR_STATE_STATE, 2)]]) false 3).2.2.2.2.2.2.2.1 (by decide)),
   ran0 (((h (bare [rg PWR_STATE HD 0 0 [(PWR_STATE_STATE, 2)]]) true 3).2.2.2.2.2.2.2.2.1).1 (by decide)),
   ran1 (((h (bare [rg PWR_STATE HD 0 0 [(PWR_STATE_STATE, 3)]] { boot := { duskCause := 3, duskNight := true } }) true 3).2.2.2.2.2.2.2.2.1).2 ⟨by decide, by decide⟩ (by decide)),
   ran1 (((h (bare [rg PWR_STATE HD 0 0 [(PWR_STATE_STATE, 3)]] { boot := { duskCause := 3, duskNight := false } }) true 3).2.2.2.2.2.2.2.2.1).2 ⟨by decide, by decide⟩ (by decide)),
   ran1 (((h (bare [rg PWR_STATE HD 0 0 [(PWR_STATE_STATE, 2)], rg MGMT_LEASE_CFG HD 0 0 [(MGMT_LEASE_CFG_LOW_PCT, 25)]] { boot := { grant := 8, lease := oneMs } }) true 3).2.2.2.2.2.2.2.2.2.1).2 ⟨by decide, by decide, by decide⟩),
   ran0 (((h (bare []) true 3).2.2.2.2.2.2.2.2.2.1).1 (by decide)),
   ran0 ((h (bare []) true 3).2.2.2.2.2.2.2.2.2.2.1 (by decide)),
   ran1 ((h (bare [rg PWR_STATE HD 0 0 [(PWR_STATE_STATE, 2)]]) true 3).2.2.2.2.2.2.2.2.2.2.2.1 (by decide) (by decide)),
   ran1 (((h (bare [rg PWR_STATE HD 0 0 [(PWR_STATE_STATE, 3)]] { links := [(7, { up := true })], time := { elapsed := 10 ^ 40 } }) true 3).2.2.2.2.2.2.2.2.2.2.2.2).2 ⟨by decide, by decide, by decide⟩),
   ran0 (((h (bare []) true 3).2.2.2.2.2.2.2.2.2.2.2.2).1 (by decide))⟩

theorem witness_HeartbeatsAndTemperatures (h : Obligations.HeartbeatsAndTemperatures) :
    Ran (.hostHeartbeat) (bare [rg PWR_STATE HD 0 0 [(PWR_STATE_STATE, 2)]] { time := { elapsed := 10 ^ 40, now := 10 ^ 40 } }) ∧
    Ran (.hostHeartbeat) (bare [rg PWR_STATE HD 0 0 [(PWR_STATE_STATE, 2)]]) ∧
    Ran (.hostWdogExpire) (bare [rg PWR_STATE HD 0 0 [(PWR_STATE_STATE, 2)]] { time := { elapsed := 10 ^ 40, now := 10 ^ 40 } }) ∧
    Ran (.hostWdogExpire) (bare []) ∧
    Ran (.hostWdogKick 65537) (bare []) ∧
    Ran (.temperatureSample [96, 111, 0, 0, 0, 0, 95] [106] 255) (bare [rg PWR_STATE HD 0 0 [(PWR_STATE_STATE, 2)]]) ∧
    Ran (.temperatureSample [96, 111, 0, 0, 0, 0, 95] [106] 255) (bare [rg PWR_STATE HD 0 0 [(PWR_STATE_STATE, 0)]]) ∧
    Ran (.avsSetpoint 6 650) (bare [rg PWR_STATE HD 0 0 [(PWR_STATE_STATE, 1)], rg BOOT_STATUS HD 0 0 [(BOOT_STATUS_PHASE, 1)]]) ∧
    Ran (.avsSetpoint 6 800) (bare [rg PWR_STATE HD 0 0 [(PWR_STATE_STATE, 1)], rg BOOT_STATUS HD 0 0 [(BOOT_STATUS_PHASE, 1)]]) ∧
    Ran (.avsSetpoint 6 755) (bare [rg PWR_STATE HD 0 0 [(PWR_STATE_STATE, 2)]] { pwr := { lowMargin := [6], raisedAt := [(6, 0)] }, time := { elapsed := 100 * oneMs } }) ∧
    Ran (.avsSetpoint 6 645) (bare [rg PWR_STATE HD 0 0 [(PWR_STATE_STATE, 1)], rg BOOT_STATUS HD 0 0 [(BOOT_STATUS_PHASE, 1)]]) :=
  ⟨ran1 (((h (bare [rg PWR_STATE HD 0 0 [(PWR_STATE_STATE, 2)]] { time := { elapsed := 10 ^ 40, now := 10 ^ 40 } }) 6 655 [] [] 0 0).1).2 ⟨by decide, by decide⟩),
   ran0 (((h (bare [rg PWR_STATE HD 0 0 [(PWR_STATE_STATE, 2)]]) 6 655 [] [] 0 0).1).1 (by decide)),
   ran1 (((h (bare [rg PWR_STATE HD 0 0 [(PWR_STATE_STATE, 2)]] { time := { elapsed := 10 ^ 40, now := 10 ^ 40 } }) 6 655 [] [] 0 0).2.1).2 ⟨by decide, by decide⟩),
   ran0 (((h (bare []) 6 655 [] [] 0 0).2.1).1 (by decide)),
   ran1 (((h (bare []) 6 655 [] [] 0 65537).2.2.1)),
   ran1 (((h (bare [rg PWR_STATE HD 0 0 [(PWR_STATE_STATE, 2)]]) 6 655 [96, 111, 0, 0, 0, 0, 95] [106] 255 0).2.2.2.1).2 (by decide)),
   ran0 (((h (bare [rg PWR_STATE HD 0 0 [(PWR_STATE_STATE, 0)]]) 6 655 [96, 111, 0, 0, 0, 0, 95] [106] 255 0).2.2.2.1).1 (by decide)),
   ran1 (((h (bare [rg PWR_STATE HD 0 0 [(PWR_STATE_STATE, 1)], rg BOOT_STATUS HD 0 0 [(BOOT_STATUS_PHASE, 1)]]) 6 650 [] [] 0 0).2.2.2.2).2 ⟨by decide, by decide, by decide⟩ (.inl (by decide))),
   ran1 (((h (bare [rg PWR_STATE HD 0 0 [(PWR_STATE_STATE, 1)], rg BOOT_STATUS HD 0 0 [(BOOT_STATUS_PHASE, 1)]]) 6 800 [] [] 0 0).2.2.2.2).2 ⟨by decide, by decide, by decide⟩ (.inl (by decide))),
   ran1 (((h (bare [rg PWR_STATE HD 0 0 [(PWR_STATE_STATE, 2)]] { pwr := { lowMargin := [6], raisedAt := [(6, 0)] }, time := { elapsed := 100 * oneMs } }) 6 755 [] [] 0 0).2.2.2.2).2 ⟨by decide, by decide, by decide⟩ (.inr ⟨by decide, by decide, by decide, fun t ht => by obtain rfl : 0 = t := Option.some.inj ht; decide⟩)),
   ran0 (((h (bare [rg PWR_STATE HD 0 0 [(PWR_STATE_STATE, 1)], rg BOOT_STATUS HD 0 0 [(BOOT_STATUS_PHASE, 1)]]) 6 645 [] [] 0 0).2.2.2.2).1 (fun x => absurd x.1 (by decide)))⟩

theorem witness_LinksBetweenDies (h : Obligations.LinksBetweenDies) :
    Ran (.linkUp 11 (2 ^ 24 - 1) 5 (2 ^ 128 - 1) none) (bare [rg PWR_STATE HD 0 0 [(PWR_STATE_STATE, 1)], rg BOOT_STATUS HD 0 0 [(BOOT_STATUS_PHASE, 1)]]) ∧
    Ran (.linkUp 11 0 5 (2 ^ 128 - 1) none) (bare [rg PWR_STATE HD 0 0 [(PWR_STATE_STATE, 1)]]) ∧
    Ran (.linkDown 11) (bare [rg PWR_STATE HD 0 0 [(PWR_STATE_STATE, 2)]] { links := [(11, { up := true })] }) ∧
    Ran (.linkDown 11) (bare []) ∧
    Ran (.linkRetrainDone 11 5 0) (bare [rg PWR_STATE HD 0 0 [(PWR_STATE_STATE, 2)]] { links := [(11, { downAt := some 0 })] }) ∧
    Ran (.linkLost 11) (bare [rg PWR_STATE HD 0 0 [(PWR_STATE_STATE, 3)]] { links := [(11, { lost := true })] }) ∧
    Ran (.linkLost 11) (bare [rg PWR_STATE HD 0 0 [(PWR_STATE_STATE, 2)]] { links := [(11, { downAt := some 0 })], time := { elapsed := oneMs } }) ∧
    Ran (.linkLost 11) (bare []) :=
  ⟨ran1 ((h (bare [rg PWR_STATE HD 0 0 [(PWR_STATE_STATE, 1)], rg BOOT_STATUS HD 0 0 [(BOOT_STATUS_PHASE, 1)]]) 11 (2 ^ 24 - 1) (5) (2 ^ 128 - 1)).1 (.inl (by decide)) (by decide) (by decide)),
   ran1 ((h (bare [rg PWR_STATE HD 0 0 [(PWR_STATE_STATE, 1)]]) 11 (0) (5) (2 ^ 128 - 1)).1 (.inr ⟨by decide, by decide⟩) (by decide) (by decide)),
   ran1 ((h (bare [rg PWR_STATE HD 0 0 [(PWR_STATE_STATE, 2)]] { links := [(11, { up := true })] }) 11 (2 ^ 24 - 1) (5) (2 ^ 128 - 1)).2.1 (by decide)),
   ran0 ((h (bare []) 11 (2 ^ 24 - 1) (5) (2 ^ 128 - 1)).2.2.1 (by decide)),
   ran1 ((h (bare [rg PWR_STATE HD 0 0 [(PWR_STATE_STATE, 2)]] { links := [(11, { downAt := some 0 })] }) 11 (2 ^ 24 - 1) (5) (0)).2.2.2.1 (by decide) (by decide) (by decide)),
   ran1 ((h (bare [rg PWR_STATE HD 0 0 [(PWR_STATE_STATE, 3)]] { links := [(11, { lost := true })] }) 11 (2 ^ 24 - 1) (5) (2 ^ 128 - 1)).2.2.2.2.1 (by decide) (.inl (by decide))),
   ran1 ((h (bare [rg PWR_STATE HD 0 0 [(PWR_STATE_STATE, 2)]] { links := [(11, { downAt := some 0 })], time := { elapsed := oneMs } }) 11 (2 ^ 24 - 1) (5) (2 ^ 128 - 1)).2.2.2.2.1 (by decide) (.inr (by decide))),
   ran0 ((h (bare []) 11 (2 ^ 24 - 1) (5) (2 ^ 128 - 1)).2.2.2.2.2 (by decide))⟩

/-! ## Boot and the management port -/

/-- A lease message of counter 7 for 600,000 ms (R657), under a key of zeros; the tag is HMAC-SHA3-256 as computed outside the model. -/
def leaseMsg : List Byte := [83, 65, 69, 76, 1, 0, 0, 0, 7, 0, 0, 0, 0, 0, 0, 0, 192, 39, 9, 0, 0, 0, 0, 0, 0, 0, 0, 0, 0, 0, 0, 0] ++
  [109, 27, 221, 10, 53, 97, 110, 214, 208, 183, 147, 94, 81, 140, 199, 148, 181, 173, 126, 179, 144, 156, 54, 25, 199, 48, 155, 81, 133, 216, 122, 55]
/-- A lease message without its tag, in an Ethernet frame from and to all-zero addresses. -/
def leaseFrame (m : List Byte) : List Byte := [0, 0, 0, 0, 0, 0, 0, 0, 0, 0, 0, 0, 8, 0, 69, 0, 0, 92, 0, 0, 0, 0, 64, 17, 122, 146, 0, 0, 0, 0, 0, 0, 0, 0, 0, 0, 0, 0, 0, 72, 0, 0] ++ m

theorem witness_BootPhases (h : Obligations.BootPhases) :
    Ran (.dawnSelftestDone [] none [] [] none) (bare [rg PWR_STATE HD 0 0 [(PWR_STATE_STATE, 1)], rg BOOT_STATUS HD 0 0 [(BOOT_STATUS_PHASE, 1)], (BOOT_CAP_DIE_LO.key HD HD 0, 5)]) ∧
    Ran (.dawnSelftestDone [3 * 2 ^ 20 + 167] (some 6) [2] [3] (some 11)) (bare [rg PWR_STATE HD 0 0 [(PWR_STATE_STATE, 1)], (BOOT_CAP_DIE_LO.key HD HD 0, 5)]) ∧
    Ran (.identity) (bare [rg PWR_STATE HD 0 0 [(PWR_STATE_STATE, 1)], rg BOOT_STATUS HD 0 0 [(BOOT_STATUS_PHASE, 5)]] { boot := { idPub := some [] } }) ∧
    Ran (.enroll) (bare [rg PWR_STATE HD 0 0 [(PWR_STATE_STATE, 1)], rg BOOT_STATUS HD 0 0 [(BOOT_STATUS_PHASE, 5)]] { boot := { idPub := some [] } }) ∧
    Ran (.identity) (bare [rg PWR_STATE HD 0 0 [(PWR_STATE_STATE, 2)]]) ∧
    Ran (.enroll) (bare [rg PWR_STATE HD 0 0 [(PWR_STATE_STATE, 2)]]) ∧
    Ran (.imageReady 4096) (bare [rg PWR_STATE HD 0 0 [(PWR_STATE_STATE, 2)]]) ∧
    Ran (.identity) (bare [rg PWR_STATE HD 0 0 [(PWR_STATE_STATE, 1)], rg BOOT_STATUS HD 0 0 [(BOOT_STATUS_PHASE, 2)]]) ∧
    Ran (.enroll) (bare [rg PWR_STATE HD 0 0 [(PWR_STATE_STATE, 1)], rg BOOT_STATUS HD 0 0 [(BOOT_STATUS_PHASE, 2)]]) ∧
    Ran (.imageReady 4096) (bare [rg PWR_STATE HD 0 0 [(PWR_STATE_STATE, 1)], rg BOOT_STATUS HD 0 0 [(BOOT_STATUS_PHASE, 2)]]) ∧
    Ran (.fabricBoot 0 [1]) (bare [rg PWR_STATE HD 0 0 [(PWR_STATE_STATE, 1)], rg BOOT_STATUS HD 0 0 [(BOOT_STATUS_PHASE, 2)]]) ∧
    Ran (.imageReady 4096) (bare [rg PWR_STATE HD 0 0 [(PWR_STATE_STATE, 1)], rg BOOT_STATUS HD 0 0 [(BOOT_STATUS_PHASE, 2)]] { boot := { idPub := some [] } }) ∧
    Ran (.fabricBoot 0 [1]) (bare [rg PWR_STATE HD 0 0 [(PWR_STATE_STATE, 1)], rg BOOT_STATUS HD 0 0 [(BOOT_STATUS_PHASE, 2)]] { boot := { idPub := some [] } }) ∧
    Ran (.imageVerifyDone) (bare []) ∧
    Ran (.imageVerifyDone) (bare [rg PWR_STATE HD 0 0 [(PWR_STATE_STATE, 1)], rg BOOT_STATUS HD 0 0 [(BOOT_STATUS_PHASE, 3)]]) ∧
    Ran (.imageLoadDone [] []) (bare []) ∧
    Ran (.imageLoadDone [] []) (bare [rg PWR_STATE HD 0 0 [(PWR_STATE_STATE, 1)], rg BOOT_STATUS HD 0 0 [(BOOT_STATUS_PHASE, 4)]]) :=
  ⟨ran1 (((h (bare [rg PWR_STATE HD 0 0 [(PWR_STATE_STATE, 1)], rg BOOT_STATUS HD 0 0 [(BOOT_STATUS_PHASE, 1)], (BOOT_CAP_DIE_LO.key HD HD 0, 5)]) [] none [] [] none 4096 0 [1] [] []).1 (.inl (by decide)) (by decide) (by decide))),
   ran1 (((h (bare [rg PWR_STATE HD 0 0 [(PWR_STATE_STATE, 1)], (BOOT_CAP_DIE_LO.key HD HD 0, 5)]) [3 * 2 ^ 20 + 167] (some 6) [2] [3] (some 11) 4096 0 [1] [] []).1 (.inr ⟨by decide, by decide⟩) (by decide) (by decide))),
   ran1 (((h (bare [rg PWR_STATE HD 0 0 [(PWR_STATE_STATE, 1)], rg BOOT_STATUS HD 0 0 [(BOOT_STATUS_PHASE, 5)]] { boot := { idPub := some [] } }) [] none [] [] none 4096 0 [1] [] []).2.1 (by decide) rfl (by decide) (by decide)).1),
   ran1 (((h (bare [rg PWR_STATE HD 0 0 [(PWR_STATE_STATE, 1)], rg BOOT_STATUS HD 0 0 [(BOOT_STATUS_PHASE, 5)]] { boot := { idPub := some [] } }) [] none [] [] none 4096 0 [1] [] []).2.1 (by decide) rfl (by decide) (by decide)).2),
   ran1 (((h (bare [rg PWR_STATE HD 0 0 [(PWR_STATE_STATE, 2)]]) [] none [] [] none 4096 0 [1] [] []).2.2.1 (by decide) rfl (by decide)).1),
   ran1 (((h (bare [rg PWR_STATE HD 0 0 [(PWR_STATE_STATE, 2)]]) [] none [] [] none 4096 0 [1] [] []).2.2.1 (by decide) rfl (by decide)).2.1),
   ran1 (((h (bare [rg PWR_STATE HD 0 0 [(PWR_STATE_STATE, 2)]]) [] none [] [] none 4096 0 [1] [] []).2.2.1 (by decide) rfl (by decide)).2.2),
   ran1 (((h (bare [rg PWR_STATE HD 0 0 [(PWR_STATE_STATE, 1)], rg BOOT_STATUS HD 0 0 [(BOOT_STATUS_PHASE, 2)]]) [] none [] [] none 4096 0 [1] [] []).2.2.2.1 (by decide) rfl (by decide)).1 rfl),
   ran2 (((h (bare [rg PWR_STATE HD 0 0 [(PWR_STATE_STATE, 1)], rg BOOT_STATUS HD 0 0 [(BOOT_STATUS_PHASE, 2)]]) [] none [] [] none 4096 0 [1] [] []).2.2.2.1 (by decide) rfl (by decide)).2.1),
   ran1 (((h (bare [rg PWR_STATE HD 0 0 [(PWR_STATE_STATE, 1)], rg BOOT_STATUS HD 0 0 [(BOOT_STATUS_PHASE, 2)]]) [] none [] [] none 4096 0 [1] [] []).2.2.2.1 (by decide) rfl (by decide)).2.2.1),
   ran1 (((h (bare [rg PWR_STATE HD 0 0 [(PWR_STATE_STATE, 1)], rg BOOT_STATUS HD 0 0 [(BOOT_STATUS_PHASE, 2)]]) [] none [] [] none 4096 0 [1] [] []).2.2.2.1 (by decide) rfl (by decide)).2.2.2),
   ran1 (((h (bare [rg PWR_STATE HD 0 0 [(PWR_STATE_STATE, 1)], rg BOOT_STATUS HD 0 0 [(BOOT_STATUS_PHASE, 2)]] { boot := { idPub := some [] } }) [] none [] [] none 4096 0 [1] [] []).2.2.2.2.1 (by decide) rfl (by decide)).1),
   ran1 (((h (bare [rg PWR_STATE HD 0 0 [(PWR_STATE_STATE, 1)], rg BOOT_STATUS HD 0 0 [(BOOT_STATUS_PHASE, 2)]] { boot := { idPub := some [] } }) [] none [] [] none 4096 0 [1] [] []).2.2.2.2.1 (by decide) rfl (by decide)).2),
   ran0 (((h (bare []) [] none [] [] none 4096 0 [1] [] []).2.2.2.2.2.1 (by decide))),
   ran1 (((h (bare [rg PWR_STATE HD 0 0 [(PWR_STATE_STATE, 1)], rg BOOT_STATUS HD 0 0 [(BOOT_STATUS_PHASE, 3)]]) [] none [] [] none 4096 0 [1] [] []).2.2.2.2.2.2.1 (by decide))),
   ran0 (((h (bare []) [] none [] [] none 4096 0 [1] [] []).2.2.2.2.2.2.2.1 (by decide))),
   ran1 (((h (bare [rg PWR_STATE HD 0 0 [(PWR_STATE_STATE, 1)], rg BOOT_STATUS HD 0 0 [(BOOT_STATUS_PHASE, 4)]]) [] none [] [] none 4096 0 [1] [] []).2.2.2.2.2.2.2.2 (by decide)))⟩

theorem witness_ManagementPort (h : Obligations.ManagementPort) :
    Ran (.attest) (bare [rg MGMT_CMD_STATUS HD 0 0 [(MGMT_CMD_STATUS_BUSY, 1)]]) ∧
    Ran (.duskOff) (bare [rg PWR_STATE HD 0 0 [(PWR_STATE_STATE, 3)]]) ∧
    Ran (.duskReset) (bare [rg PWR_STATE HD 0 0 [(PWR_STATE_STATE, 1)]]) ∧
    Ran (.duskOff) (bare [rg PWR_STATE HD 0 0 [(PWR_STATE_STATE, 1)]]) ∧
    Ran (.mgmtCmdUnknown 10) (bare [rg PWR_STATE HD 0 0 [(PWR_STATE_STATE, 2)]]) ∧
    Ran (.mgmtCmdUnknown 0) (bare [rg PWR_STATE HD 0 0 [(PWR_STATE_STATE, 1)]]) ∧
    Ran (.duskReset) (bare [rg PWR_STATE HD 0 0 [(PWR_STATE_STATE, 2)]]) ∧
    Ran (.duskOff) (bare [rg PWR_STATE HD 0 0 [(PWR_STATE_STATE, 2)]]) ∧
    Ran (.resetNow) (bare [rg PWR_STATE HD 0 0 [(PWR_STATE_STATE, 3)]]) ∧
    Ran (.debugOn) (bare [rg PWR_STATE HD 0 0 [(PWR_STATE_STATE, 2)]]) ∧
    Ran (.attest) (bare [rg PWR_STATE HD 0 0 [(PWR_STATE_STATE, 1)]]) ∧
    Ran (.attest) (bare [rg PWR_STATE HD 0 0 [(PWR_STATE_STATE, 2)]] { boot := { idPub := some [] } }) ∧
    Ran (.secAttGo .cell) (bare [rg PWR_STATE HD 0 0 [(PWR_STATE_STATE, 2)]]) ∧
    Ran (.secAttGo .hostM) (bare [rg PWR_STATE HD 0 0 [(PWR_STATE_STATE, 2)]]) ∧
    Ran (.attestReportDone) (bare []) ∧
    Ran (.attestReportDone) (bare [] { boot := { atts := [{ nonce := [], toMem := true }] } }) ∧
    Ran (.mgmtDwAddrWrite (4 * 2 ^ 60 + 24)) (bare []) ∧
    Ran (.mgmtDwDataWrite 5) (bare []) ∧
    Ran (.mgmtDwDataWrite 5) (bare [rg PWR_STATE HD 0 0 [(PWR_STATE_STATE, 1)], rg BOOT_STATUS HD 0 0 [(BOOT_STATUS_PHASE, 2)], rg MGMT_DW_ADDR HD 0 0 [(MGMT_DW_ADDR_TARGET, 4), (MGMT_DW_ADDR_OFFSET, 24)]]) ∧
    Ran (.mgmtDwDataRead) (bare []) ∧
    Ran (.mgmtDwDataRead) (bare [rg SEC_STATUS HD 0 0 [(SEC_STATUS_ENROLLED, 1)], rg MGMT_DW_ADDR HD 0 0 [(MGMT_DW_ADDR_TARGET, 1), (MGMT_DW_ADDR_OFFSET, 4088)]]) ∧
    Ran (.leaseGrant 0) (bare []) ∧
    Ran (.leaseGrant 600001) (bare []) ∧
    Ran (.leaseGrant 600000) (bare [rg PWR_STATE HD 0 0 [(PWR_STATE_STATE, 1)], rg BOOT_STATUS HD 0 0 [(BOOT_STATUS_PHASE, 5)]]) ∧
    Ran (.leaseGrant 1) (bare [rg PWR_STATE HD 0 0 [(PWR_STATE_STATE, 2)]]) ∧
    Ran (.leaseMessage []) (bare []) ∧
    Ran (.leaseMessage (leaseFrame leaseMsg)) (bare [rg MGMT_ETH_CFG HD 0 0 [(MGMT_ETH_CFG_EN, 1)]] { boot := { leaseKey := some (List.replicate 32 0), lastCounter := 6 } }) ∧
    Ran (.leaseMessage (leaseFrame leaseMsg)) (bare [rg MGMT_ETH_CFG HD 0 0 [(MGMT_ETH_CFG_EN, 1)]]) ∧
    Ran (.leaseMessage []) (bare [rg MGMT_ETH_CFG HD 0 0 [(MGMT_ETH_CFG_EN, 1)]]) :=
  ⟨ran0 (((h (bare [rg MGMT_CMD_STATUS HD 0 0 [(MGMT_CMD_STATUS_BUSY, 1)]]) 10 (0) .cell []).1 (by decide) .attest (by decide))),
   ran1 (((h (bare [rg PWR_STATE HD 0 0 [(PWR_STATE_STATE, 3)]]) 10 (0) .cell []).2.1 (by decide) (by decide) .duskOff (by decide))),
   ran1 (((h (bare [rg PWR_STATE HD 0 0 [(PWR_STATE_STATE, 1)]]) 10 (0) .cell []).2.2.1 (by decide) (by decide)).1),
   ran1 (((h (bare [rg PWR_STATE HD 0 0 [(PWR_STATE_STATE, 1)]]) 10 (0) .cell []).2.2.1 (by decide) (by decide)).2),
   ran1 (((h (bare [rg PWR_STATE HD 0 0 [(PWR_STATE_STATE, 2)]]) 10 (0) .cell []).2.2.2.1 (by decide) (.inr (by decide)) (.inr (by decide)))),
   ran1 (((h (bare [rg PWR_STATE HD 0 0 [(PWR_STATE_STATE, 1)]]) 0 (0) .cell []).2.2.2.1 (by decide) (.inl (by decide)) (.inl rfl))),
   ran1 (((h (bare [rg PWR_STATE HD 0 0 [(PWR_STATE_STATE, 2)]]) 10 (0) .cell []).2.2.2.2.1 (by decide) (by decide)).1),
   ran1 (((h (bare [rg PWR_STATE HD 0 0 [(PWR_STATE_STATE, 2)]]) 10 (0) .cell []).2.2.2.2.1 (by decide) (by decide)).2),
   ran1 (((h (bare [rg PWR_STATE HD 0 0 [(PWR_STATE_STATE, 3)]]) 10 (0) .cell []).2.2.2.2.2.1 (by decide) (by decide))),
   ran1 (((h (bare [rg PWR_STATE HD 0 0 [(PWR_STATE_STATE, 2)]]) 10 (0) .cell []).2.2.2.2.2.2.1 (by decide) (.inr (by decide))).1),
   ran1 (((h (bare [rg PWR_STATE HD 0 0 [(PWR_STATE_STATE, 1)]]) 10 (0) .cell []).2.2.2.2.2.2.1 (by decide) (.inl (by decide))).2.1 rfl),
   ran1 (((h (bare [rg PWR_STATE HD 0 0 [(PWR_STATE_STATE, 2)]] { boot := { idPub := some [] } }) 10 (0) .cell []).2.2.2.2.2.2.1 (by decide) (.inr (by decide))).2.2 rfl),
   ran0 (((h (bare [rg PWR_STATE HD 0 0 [(PWR_STATE_STATE, 2)]]) 10 (0) .cell []).2.2.2.2.2.2.2.1 (by decide))),
   ran1 (((h (bare [rg PWR_STATE HD 0 0 [(PWR_STATE_STATE, 2)]]) 10 (0) .cell []).2.2.2.2.2.2.2.2.1 (by decide) (by decide))),
   ran0 (((h (bare []) 10 (0) .cell []).2.2.2.2.2.2.2.2.2.1 rfl)),
   ran2 (((h (bare [] { boot := { atts := [{ nonce := [], toMem := true }] } }) 10 (0) .cell []).2.2.2.2.2.2.2.2.2.2.1 _ [] rfl)),
   ran1 (((h (bare []) 10 (4 * 2 ^ 60 + 24) .cell []).2.2.2.2.2.2.2.2.2.2.2.1)),
   ran1 (((h (bare []) 10 (5) .cell []).2.2.2.2.2.2.2.2.2.2.2.2.1 (by decide))),
   ran1 (((h (bare [rg PWR_STATE HD 0 0 [(PWR_STATE_STATE, 1)], rg BOOT_STATUS HD 0 0 [(BOOT_STATUS_PHASE, 2)], rg MGMT_DW_ADDR HD 0 0 [(MGMT_DW_ADDR_TARGET, 4), (MGMT_DW_ADDR_OFFSET, 24)]]) 10 (5) .cell []).2.2.2.2.2.2.2.2.2.2.2.2.2.1 (by decide))),
   ran1 (((h (bare []) 10 (0) .cell []).2.2.2.2.2.2.2.2.2.2.2.2.2.2.1 (by decide))),
   ran1 (((h (bare [rg SEC_STATUS HD 0 0 [(SEC_STATUS_ENROLLED, 1)], rg MGMT_DW_ADDR HD 0 0 [(MGMT_DW_ADDR_TARGET, 1), (MGMT_DW_ADDR_OFFSET, 4088)]]) 10 (0) .cell []).2.2.2.2.2.2.2.2.2.2.2.2.2.2.2.1 (by decide))),
   ran0 (((h (bare []) 10 (0) .cell []).2.2.2.2.2.2.2.2.2.2.2.2.2.2.2.2.1).1 (by decide)),
   ran0 (((h (bare []) 10 (600001) .cell []).2.2.2.2.2.2.2.2.2.2.2.2.2.2.2.2.1).1 (by decide)),
   ran1 (((h (bare [rg PWR_STATE HD 0 0 [(PWR_STATE_STATE, 1)], rg BOOT_STATUS HD 0 0 [(BOOT_STATUS_PHASE, 5)]]) 10 (600000) .cell []).2.2.2.2.2.2.2.2.2.2.2.2.2.2.2.2.1).2 (by decide) (by decide)),
   ran1 (((h (bare [rg PWR_STATE HD 0 0 [(PWR_STATE_STATE, 2)]]) 10 (1) .cell []).2.2.2.2.2.2.2.2.2.2.2.2.2.2.2.2.1).2 (by decide) (by decide)),
   ran0 (((h (bare []) 10 (0) .cell []).2.2.2.2.2.2.2.2.2.2.2.2.2.2.2.2.2.1 (by decide))),
   ran1 (((h (bare [rg MGMT_ETH_CFG HD 0 0 [(MGMT_ETH_CFG_EN, 1)]] { boot := { leaseKey := some (List.replicate 32 0), lastCounter := 6 } }) 10 (0) .cell (leaseFrame leaseMsg)).2.2.2.2.2.2.2.2.2.2.2.2.2.2.2.2.2.2 (by decide)).1 leaseMsg (by decide +kernel) |>.1 (by decide +kernel) (by decide)),
   ran1 (((h (bare [rg MGMT_ETH_CFG HD 0 0 [(MGMT_ETH_CFG_EN, 1)]]) 10 (0) .cell (leaseFrame leaseMsg)).2.2.2.2.2.2.2.2.2.2.2.2.2.2.2.2.2.2 (by decide)).1 leaseMsg (by decide +kernel) |>.2 (by decide)),
   ran1 (((h (bare [rg MGMT_ETH_CFG HD 0 0 [(MGMT_ETH_CFG_EN, 1)]]) 10 (0) .cell []).2.2.2.2.2.2.2.2.2.2.2.2.2.2.2.2.2.2 (by decide)).2 (by decide))⟩

/-! ## Device time -/

theorem witness_DeviceTime (h : Obligations.DeviceTime) :
    Ran (.timeNowRead) (bare []) ∧
    Ran (.timeSet 7) (bare [rg BEAT_CTL HD 0 0 [(BEAT_CTL_RUN, 1)]]) ∧
    Ran (.timeStep 7) (bare [rg BEAT_CTL HD 0 0 [(BEAT_CTL_RUN, 1)]]) ∧
    Ran (.timeSet 7) (bare []) ∧
    Ran (.timeStep (2 ^ 64 - 7)) (bare []) ∧
    Ran (.timeRateWrite (2 ^ 40 - 1)) (bare [rg BEAT_CTL HD 0 0 [(BEAT_CTL_RUN, 1)]]) ∧
    Ran (.timeCtlSrcChange (3 + 2 ^ 27 + 2 ^ 28)) (bare []) ∧
    Ran (.sourceLock 0 [] none) (bare []) ∧
    Ran (.sourceLock (2 ^ 40) [5, 2 ^ 48 - 5] (some (2 ^ 40 - 1))) (bare [rg TIME_CTL HD 0 0 [(TIME_CTL_SRC, 1)]]) ∧
    Ran (.sourceLost) (bare []) ∧
    Ran (.sourceLost) (bare [rg TIME_CTL HD 0 0 [(TIME_CTL_SRC, 1)]] { time := { elapsed := 2 * oneSec } }) ∧
    Ran (.sourceLost) (bare [rg TIME_CTL HD 0 0 [(TIME_CTL_SRC, 3)]]) ∧
    Ran (.ppsInEdge) (bare [] { time := { now := 2 ^ 64 * 5 + 2 ^ 63 } }) ∧
    Ran (.ppsOut) (bare [rg TIME_CTL HD 0 0 [(TIME_CTL_PPS_OUT_EN, 1)], rg TIME_STATUS HD 0 0 [(TIME_STATUS_VALID, 1)]]) ∧
    Ran (.ref10mOut) (bare [rg TIME_CTL HD 0 0 [(TIME_CTL_REF10M_OUT_EN, 1)], rg TIME_STATUS HD 0 0 [(TIME_STATUS_VALID, 1)]]) ∧
    Ran (.ptpMessage { kind := .announce, domain := 0, transport := 2, dataset := 5, stamp := 0 }) (bare []) ∧
    Ran (.ptpMessage { kind := .announce, domain := 0, transport := 2, dataset := 5, stamp := 0 }) (bare [rg TIME_CTL HD 0 0 [(TIME_CTL_PTP_ROLE, 1), (TIME_CTL_PTP_TRANSPORT, 2)], rg MGMT_ETH_CFG HD 0 0 [(MGMT_ETH_CFG_EN, 1)]]) ∧
    Ran (.ptpAnnounceSend 6 33 128 255) (bare [rg TIME_CTL HD 0 0 [(TIME_CTL_PTP_ROLE, 1), (TIME_CTL_PTP_TRANSPORT, 2)], rg MGMT_ETH_CFG HD 0 0 [(MGMT_ETH_CFG_EN, 1)]]) ∧
    Ran (.ptpMessage { kind := .announce, domain := 0, transport := 2, dataset := 5, stamp := 0 }) (bare [rg TIME_CTL HD 0 0 [(TIME_CTL_PTP_ROLE, 2), (TIME_CTL_PTP_TRANSPORT, 2)], rg MGMT_ETH_CFG HD 0 0 [(MGMT_ETH_CFG_EN, 1)]]) ∧
    Ran (.ptpAnnounceSend 6 33 128 255) (bare [rg TIME_CTL HD 0 0 [(TIME_CTL_PTP_ROLE, 2), (TIME_CTL_PTP_TRANSPORT, 2)], rg MGMT_ETH_CFG HD 0 0 [(MGMT_ETH_CFG_EN, 1)]]) ∧
    ∃ n, step (bare []) = .next n :=
  ⟨ran1 (((h (bare []) (0) (0) ([]) (none) { kind := .announce, domain := 0, transport := 2, dataset := 5, stamp := 0 } 0 0 0 0).1)),
   ran1 (((h (bare [rg BEAT_CTL HD 0 0 [(BEAT_CTL_RUN, 1)]]) (7) (0) ([]) (none) { kind := .announce, domain := 0, transport := 2, dataset := 5, stamp := 0 } 0 0 0 0).2.1 (by decide)).1),
   ran1 (((h (bare [rg BEAT_CTL HD 0 0 [(BEAT_CTL_RUN, 1)]]) (7) (0) ([]) (none) { kind := .announce, domain := 0, transport := 2, dataset := 5, stamp := 0 } 0 0 0 0).2.1 (by decide)).2),
   ran1 (((h (bare []) (7) (0) ([]) (none) { kind := .announce, domain := 0, transport := 2, dataset := 5, stamp := 0 } 0 0 0 0).2.2.1 (by decide)).1),
   ran1 (((h (bare []) (2 ^ 64 - 7) (0) ([]) (none) { kind := .announce, domain := 0, transport := 2, dataset := 5, stamp := 0 } 0 0 0 0).2.2.1 (by decide)).2),
   ran1 (((h (bare [rg BEAT_CTL HD 0 0 [(BEAT_CTL_RUN, 1)]]) (2 ^ 40 - 1) (0) ([]) (none) { kind := .announce, domain := 0, transport := 2, dataset := 5, stamp := 0 } 0 0 0 0).2.2.2.1)),
   ran1 (((h (bare []) (3 + 2 ^ 27 + 2 ^ 28) (0) ([]) (none) { kind := .announce, domain := 0, transport := 2, dataset := 5, stamp := 0 } 0 0 0 0).2.2.2.2.1)),
   ran0 (((h (bare []) (0) (0) ([]) (none) { kind := .announce, domain := 0, transport := 2, dataset := 5, stamp := 0 } 0 0 0 0).2.2.2.2.2.1 (by decide))),
   ran1 (((h (bare [rg TIME_CTL HD 0 0 [(TIME_CTL_SRC, 1)]]) (0) (2 ^ 40) ([5, 2 ^ 48 - 5]) (some (2 ^ 40 - 1)) { kind := .announce, domain := 0, transport := 2, dataset := 5, stamp := 0 } 0 0 0 0).2.2.2.2.2.2.1 (by decide))),
   ran0 (((h (bare []) (0) (0) ([]) (none) { kind := .announce, domain := 0, transport := 2, dataset := 5, stamp := 0 } 0 0 0 0).2.2.2.2.2.2.2.1 (by decide))),
   ran1 (((h (bare [rg TIME_CTL HD 0 0 [(TIME_CTL_SRC, 1)]] { time := { elapsed := 2 * oneSec } }) (0) (0) ([]) (none) { kind := .announce, domain := 0, transport := 2, dataset := 5, stamp := 0 } 0 0 0 0).2.2.2.2.2.2.2.2.1 (by decide) (by decide) (.inl (by decide)))),
   ran1 (((h (bare [rg TIME_CTL HD 0 0 [(TIME_CTL_SRC, 3)]]) (0) (0) ([]) (none) { kind := .announce, domain := 0, transport := 2, dataset := 5, stamp := 0 } 0 0 0 0).2.2.2.2.2.2.2.2.1 (by decide) (by decide) (.inr ⟨by decide, by decide⟩))),
   ran1 (((h (bare [] { time := { now := 2 ^ 64 * 5 + 2 ^ 63 } }) (0) (0) ([]) (none) { kind := .announce, domain := 0, transport := 2, dataset := 5, stamp := 0 } 0 0 0 0).2.2.2.2.2.2.2.2.2.1)),
   ran1 (((h (bare [rg TIME_CTL HD 0 0 [(TIME_CTL_PPS_OUT_EN, 1)], rg TIME_STATUS HD 0 0 [(TIME_STATUS_VALID, 1)]]) (0) (0) ([]) (none) { kind := .announce, domain := 0, transport := 2, dataset := 5, stamp := 0 } 0 0 0 0).2.2.2.2.2.2.2.2.2.2.1)),
   ran1 (((h (bare [rg TIME_CTL HD 0 0 [(TIME_CTL_REF10M_OUT_EN, 1)], rg TIME_STATUS HD 0 0 [(TIME_STATUS_VALID, 1)]]) (0) (0) ([]) (none) { kind := .announce, domain := 0, transport := 2, dataset := 5, stamp := 0 } 0 0 0 0).2.2.2.2.2.2.2.2.2.2.2.1)),
   ran0 (((h (bare []) (0) (0) ([]) (none) { kind := .announce, domain := 0, transport := 2, dataset := 5, stamp := 0 } 0 0 0 0).2.2.2.2.2.2.2.2.2.2.2.2.1 (by decide))),
   ran1 (((h (bare [rg TIME_CTL HD 0 0 [(TIME_CTL_PTP_ROLE, 1), (TIME_CTL_PTP_TRANSPORT, 2)], rg MGMT_ETH_CFG HD 0 0 [(MGMT_ETH_CFG_EN, 1)]]) (0) (0) ([]) (none) { kind := .announce, domain := 0, transport := 2, dataset := 5, stamp := 0 } 0 0 0 0).2.2.2.2.2.2.2.2.2.2.2.2.2.1 ⟨by decide, by decide, by decide⟩)),
   ran0 (((h (bare [rg TIME_CTL HD 0 0 [(TIME_CTL_PTP_ROLE, 1), (TIME_CTL_PTP_TRANSPORT, 2)], rg MGMT_ETH_CFG HD 0 0 [(MGMT_ETH_CFG_EN, 1)]]) (0) (0) ([]) (none) { kind := .announce, domain := 0, transport := 2, dataset := 5, stamp := 0 } 6 33 128 255).2.2.2.2.2.2.2.2.2.2.2.2.2.2.1).1 (by decide)),
   ran1 (((h (bare [rg TIME_CTL HD 0 0 [(TIME_CTL_PTP_ROLE, 2), (TIME_CTL_PTP_TRANSPORT, 2)], rg MGMT_ETH_CFG HD 0 0 [(MGMT_ETH_CFG_EN, 1)]]) (0) (0) ([]) (none) { kind := .announce, domain := 0, transport := 2, dataset := 5, stamp := 0 } 0 0 0 0).2.2.2.2.2.2.2.2.2.2.2.2.2.1 ⟨by decide, by decide, by decide⟩)),
   ran1 (((h (bare [rg TIME_CTL HD 0 0 [(TIME_CTL_PTP_ROLE, 2), (TIME_CTL_PTP_TRANSPORT, 2)], rg MGMT_ETH_CFG HD 0 0 [(MGMT_ETH_CFG_EN, 1)]]) (0) (0) ([]) (none) { kind := .announce, domain := 0, transport := 2, dataset := 5, stamp := 0 } 6 33 128 255).2.2.2.2.2.2.2.2.2.2.2.2.2.2.1).2 ⟨by decide, by decide⟩),
   ⟨_, (h (bare []) 0 0 [] none { kind := .announce, domain := 0, transport := 2, dataset := 5, stamp := 0 } 0 0 0 0).2.2.2.2.2.2.2.2.2.2.2.2.2.2.2 rfl rfl⟩⟩

/-! ## Beats -/

/-- A THREAD entry for logical cell 159 of die 3, thread 3. -/
def entry0 : WorkEntry := { index := 0, beat := 0, cell := 639, thread := 3, notify := 0, irq := false, quiet := true, start := 64, arg := 7,
                            aslot := 1, wbase := 63, wsize := 1 }
/-- Logical cell 639 leaves physical cell 159 of die 3 for 167, with its state. -/
def moving0 : Leaving := { out := ukey 0 3 159, st := 2, logical := 639, to_ := 167, ends := 0, carry := true }

theorem witness_Beats (h : Obligations.Beats) :
    Ran (.beatEdge) (bare []) ∧
    Ran (.beatEdge) (bare [rg BEAT_STATUS HD 0 0 [(BEAT_STATUS_RUNNING, 1)]] { beat := { work := [entry0] } }) ∧
    Ran (.beatEdge) (bare [rg BEAT_STATUS HD 0 0 [(BEAT_STATUS_RUNNING, 1)]] { beat := { work := [{ entry0 with recorded := true }] } }) ∧
    Ran (.beatEdge) (bare [rg BEAT_STATUS HD 0 0 [(BEAT_STATUS_RUNNING, 1)], rg BEAT_CTL HD 0 0 [(BEAT_CTL_RUN, 1)]] { beat := { nextEdge := 1 }, time := { now := 2 ^ 200 } }) ∧
    Ran (.beatEdge) (bare [] { beat := { starting := true } }) ∧
    (((Tr.startEntry entry0).run (bare [rg CELL_MAP 3 159 0 [(CELL_MAP_PHYS, 167)]]).dev).threadAt 671 3).st = .ready ∧
    Ran (.beatRunStart 3) (bare [rg TIME_STATUS HD 0 0 [(TIME_STATUS_VALID, 1)]]) ∧
    Ran (.beatRunStart 3) (bare []) ∧
    Ran (.beatRunStop (2 ^ 15)) (bare [rg BEAT_CTL HD 0 0 [(BEAT_CTL_RUN, 1)]]) ∧
    Ran (.planCommit 9) (bare []) ∧
    Ran (.applyWhileStopped) (bare [rg BEAT_STATUS HD 0 0 [(BEAT_STATUS_RUNNING, 1)]]) ∧
    Ran (.applyWhileStopped) (bare []) ∧
    Ran (.cellCopyDone 0 []) (bare []) ∧
    Ran (.cellCopyDone 639 [5]) (bare [rg CELL_MAP 3 159 0 [(CELL_MAP_PHYS, 167)], rg CELL_ROLE 3 167 0 [(CELL_ROLE_CARRY, 1)]] { spare := { leaving := [moving0] } }) :=
  ⟨ran0 (((h (bare []) (0) 0 []).1 (by decide))),
   ran2 (((h (bare [rg BEAT_STATUS HD 0 0 [(BEAT_STATUS_RUNNING, 1)]] { beat := { work := [entry0] } }) (0) 0 []).2.1 ⟨.inl (by decide), by decide⟩ (by decide) rfl (by decide))),
   ran1 (((h (bare [rg BEAT_STATUS HD 0 0 [(BEAT_STATUS_RUNNING, 1)]] { beat := { work := [{ entry0 with recorded := true }] } }) (0) 0 []).2.2.1 ⟨.inl (by decide), by decide⟩ (by decide) rfl (by decide) (by decide))),
   ran2 (((h (bare [rg BEAT_STATUS HD 0 0 [(BEAT_STATUS_RUNNING, 1)], rg BEAT_CTL HD 0 0 [(BEAT_CTL_RUN, 1)]] { beat := { nextEdge := 1 }, time := { now := 2 ^ 200 } }) (0) 0 []).2.2.2.1 ⟨.inl (by decide), by decide⟩ (by decide) rfl (by decide) (by decide) (by decide) rfl)),
   ran2 (((h (bare [] { beat := { starting := true } }) (0) 0 []).2.2.2.2.1 ⟨.inr rfl, by decide⟩ (by decide) rfl)),
   ((h (bare [rg CELL_MAP 3 159 0 [(CELL_MAP_PHYS, 167)]]) 0 0 []).2.2.2.2.2.2.2.1 entry0 671 (by decide) (by decide) (by decide)).1,
   ran1 (((h (bare [rg TIME_STATUS HD 0 0 [(TIME_STATUS_VALID, 1)]]) (3) 0 []).2.2.2.2.2.2.2.2.1)),
   ran1 (((h (bare []) (3) 0 []).2.2.2.2.2.2.2.2.1)),
   ran1 (((h (bare [rg BEAT_CTL HD 0 0 [(BEAT_CTL_RUN, 1)]]) (2 ^ 15) 0 []).2.2.2.2.2.2.2.2.2.1)),
   ran1 (((h (bare []) (9) 0 []).2.2.2.2.2.2.2.2.2.2.1)),
   ran0 (((h (bare [rg BEAT_STATUS HD 0 0 [(BEAT_STATUS_RUNNING, 1)]]) (0) 0 []).2.2.2.2.2.2.2.2.2.2.2.1 (by decide))),
   ran2 (((h (bare []) (0) 0 []).2.2.2.2.2.2.2.2.2.2.2.2.1 (by decide))),
   ran0 (((h (bare []) (0) 0 []).2.2.2.2.2.2.2.2.2.2.2.2.2).1 rfl),
   ran2 (((h (bare [rg CELL_MAP 3 159 0 [(CELL_MAP_PHYS, 167)], rg CELL_ROLE 3 167 0 [(CELL_ROLE_CARRY, 1)]] { spare := { leaving := [moving0] } }) (0) 639 [5]).2.2.2.2.2.2.2.2.2.2.2.2.2).2 moving0 (by decide) (by decide) (by decide) (by decide))⟩

/-! ## Register accesses -/

theorem witness_RegisterAccesses (h : Obligations.RegisterAccesses) :
    Ran (.registerWrite 0 0x7FFFF8 5 .cell) (bare []) ∧
    Ran (.registerWrite 0 458752 (2 ^ 64 - 1) .cell) (bare []) ∧
    Ran (.csrNarrowAccess 0 0 none) (bare []) ∧
    Ran (.csrNarrowAccess 0 0 (some 5)) (bare []) ∧
    Ran (.debugWindowAccess 3 (167 * 2 ^ 16 + 65528) none) (bare [rg BOOT_STATUS HD 0 0 [(BOOT_STATUS_DEBUG, 1)]]) ∧
    Ran (.debugWindowAccess 0 0 (some 5)) (bare [rg BOOT_STATUS HD 0 0 [(BOOT_STATUS_DEBUG, 1)]]) ∧
    Ran (.debugWindowAccess 0 0 none) (bare []) ∧
    Ran (.registerTransfer 0 none 8) (bare [rg PWR_STATE HD 0 0 [(PWR_STATE_STATE, 0)]]) ∧
    Ran (.registerTransfer 0 none 0) (bare [rg PWR_STATE HD 0 0 [(PWR_STATE_STATE, 1)]]) ∧
    Ran (.registerTransfer 0 none 4104) (bare [rg PWR_STATE HD 0 0 [(PWR_STATE_STATE, 1)]]) ∧
    Ran (.registerTransfer 0 none 12) (bare [rg PWR_STATE HD 0 0 [(PWR_STATE_STATE, 1)]]) ∧
    Ran (.registerTransfer 0 none 4096) (bare [rg PWR_STATE HD 0 0 [(PWR_STATE_STATE, 1)]]) :=
  ⟨ran0 (((h (bare []) 0 0x7FFFF8 5 .cell 0 none 0).1 (.inr (by decide)))),
   ran1 (((h (bare []) 0 458752 (2 ^ 64 - 1) .cell 0 none 0).2.1 MTX_CTL 0 0 (by decide) rfl (by decide +kernel))),
   ran1 (((h (bare []) 0 0 0 .hostM 0 none 0).2.2.1)),
   ran0 (((h (bare []) 0 0 5 .hostM 0 none 0).2.2.2.1)),
   ran1 (((h (bare [rg BOOT_STATUS HD 0 0 [(BOOT_STATUS_DEBUG, 1)]]) 3 (167 * 2 ^ 16 + 65528) 0 .hostM 0 none 0).2.2.2.2.1 (by decide))),
   ran0 (((h (bare [rg BOOT_STATUS HD 0 0 [(BOOT_STATUS_DEBUG, 1)]]) 0 0 5 .hostM 0 none 0).2.2.2.2.2.1)),
   ran0 (((h (bare []) 0 0 0 .hostM 0 none 0).2.2.2.2.2.2.1 (by decide))),
   ran0 (((h (bare [rg PWR_STATE HD 0 0 [(PWR_STATE_STATE, 0)]]) 0 0 0 .hostM 0 none 8).2.2.2.2.2.2.2.1 (by decide))),
   ran1 (((h (bare [rg PWR_STATE HD 0 0 [(PWR_STATE_STATE, 1)]]) 0 0 0 .hostM 0 none 0).2.2.2.2.2.2.2.2.1 (by decide) (.inl (by decide)))),
   ran1 (((h (bare [rg PWR_STATE HD 0 0 [(PWR_STATE_STATE, 1)]]) 0 0 0 .hostM 0 none 4104).2.2.2.2.2.2.2.2.1 (by decide) (.inr (.inl (by decide))))),
   ran1 (((h (bare [rg PWR_STATE HD 0 0 [(PWR_STATE_STATE, 1)]]) 0 0 0 .hostM 0 none 12).2.2.2.2.2.2.2.2.1 (by decide) (.inr (.inr (by decide))))),
   ran1 (((h (bare [rg PWR_STATE HD 0 0 [(PWR_STATE_STATE, 1)]]) 0 0 0 .hostM 0 none 4096).2.2.2.2.2.2.2.2.2 (by decide) (by decide) (by decide) (by decide)))⟩


/-- The inner clauses of a transfer: a read outside the windows, a read of one register of HD, and a write of one. -/
theorem witness_RegisterTransfers (h : Obligations.RegisterAccesses) :
    (∃ n, exec (.registerTransfer 0xFFFFFF0 none 8) (bare [rg PWR_STATE HD 0 0 [(PWR_STATE_STATE, 1)]]) = .next n ∧ n.dev.u.rdata = [0]) ∧
    (∃ n, exec (.registerTransfer (5 * 2 ^ 24 + 12582920) none 8) (bare [rg PWR_STATE HD 0 0 [(PWR_STATE_STATE, 1)]]) = .next n ∧ n.dev.u.rdata.length = 1) ∧
    (∃ n, exec (.registerTransfer (5 * 2 ^ 24 + 12582920) (some (leBytes 8 5)) 0) (bare [rg PWR_STATE HD 0 0 [(PWR_STATE_STATE, 1)]]) = .next n ∧
      exec (.registerWrite 4 12582920 5 .mgmt) (bare [rg PWR_STATE HD 0 0 [(PWR_STATE_STATE, 1)]]) = .next n) := by
  refine ⟨?_, ?_, ?_⟩
  · obtain ⟨n, x, -, y, -, -⟩ := (h (bare [rg PWR_STATE HD 0 0 [(PWR_STATE_STATE, 1)]]) 0 0 0 .hostM 0xFFFFFF0 none 8).2.2.2.2.2.2.2.2.2 (by decide) (by decide) (by decide) (by decide)
    refine ⟨n, x, ?_⟩
    rw [y rfl (.inr (by decide)) (by decide)]; rfl
  · obtain ⟨n, x, -, -, y, -⟩ := (h (bare [rg PWR_STATE HD 0 0 [(PWR_STATE_STATE, 1)]]) 4 12582920 0 .hostM (5 * 2 ^ 24 + 12582920) none 8).2.2.2.2.2.2.2.2.2 (by decide) (by decide) (by decide) (by decide)
    refine ⟨n, x, ?_⟩
    rw [(y rfl rfl (by decide) (by decide) ARB_CTL 0 0 rfl (fun e => absurd (congrArg Reg.base e) (by decide)) (fun e => absurd (congrArg Reg.base e) (by decide))).2]; rfl
  · obtain ⟨n, x, -, -, -, y⟩ := (h (bare [rg PWR_STATE HD 0 0 [(PWR_STATE_STATE, 1)]]) 4 12582920 5 .hostM (5 * 2 ^ 24 + 12582920) (some (leBytes 8 5)) 0).2.2.2.2.2.2.2.2.2 (by decide) (by decide) (by decide) (by decide)
    exact ⟨n, x, y (by decide) (by decide) (by decide)⟩

/-! ## The machine -/

/-- A step takes the front command, or lets time pass. -/
theorem witness_StepRunsTheFrontCommand (h : Obligations.StepRunsTheFrontCommand) :
    step { State.reset with pending := [.beatEdge, .duskEnd] } = exec .beatEdge { State.reset with pending := [.duskEnd] } ∧
    ∃ n, step State.reset = .next n :=
  ⟨(h { State.reset with pending := [.beatEdge, .duskEnd] } .beatEdge [.duskEnd]).1 rfl,
   ((h State.reset .beatEdge []).2.1 rfl).imp fun _ x => x.1⟩

/-- The invariant holds at reset. -/
theorem reset_inv : Safety.Inv State.reset := by unfold Safety.Inv; decide

theorem witness_EveryStepKeepsTheInvariant (h : Obligations.EveryStepKeepsTheInvariant) : ∃ n, step State.reset = .next n ∧ Safety.Inv n :=
  (h State.reset reset_inv).imp fun _ x => ⟨x.1, x.2.1⟩

end Sys2Proof.Tests
end

section
/-! PROOFS. Accesses to the CSR windows: fields of masked words, the layout of the register map, what a write by access codes
leaves in each field, register transfers; and obligation O57. -/

namespace Sys2Proof.Machine

/-! ## Fields of masked words -/

theorem bitsOf_and (a b lo w : Nat) : bitsOf (a &&& b) lo w = bitsOf a lo w &&& bitsOf b lo w := by
  simp only [bitsOf, Nat.shiftRight_and_distrib, Nat.and_mod_two_pow]

/-- A mask that covers a field leaves the field alone. -/
theorem Fld.get_and_mask (f : Fld) (x : Word) (m : Nat) (hm : m < 2 ^ 64) (hf : bitsOf m f.lo f.w = 2 ^ f.w - 1) :
    f.get (x &&& w64 m) = f.get x := by
  simp only [Fld.get, w64, BitVec.toNat_and, BitVec.toNat_ofNat, Nat.mod_eq_of_lt hm, bitsOf_and, hf,
    Nat.and_two_pow_sub_one_eq_mod, Nat.mod_eq_of_lt (bitsOf_lt _ _ _)]

/-- A masked word has no bit outside the mask. -/
theorem toNat_and_mask_and_compl (x : Word) (m : Nat) (hm : m < 2 ^ 64) :
    (x &&& w64 m).toNat &&& (2 ^ 64 - 1 - m) = 0 := by
  apply Nat.eq_of_testBit_eq
  intro i
  rw [show 2 ^ 64 - 1 - m = 2 ^ 64 - (m + 1) by omega]
  simp only [w64, BitVec.toNat_and, BitVec.toNat_ofNat, Nat.mod_eq_of_lt hm, Nat.testBit_and,
    Nat.testBit_two_pow_sub_succ hm, Nat.zero_testBit]
  cases m.testBit i <;> simp

theorem Fld.get_lt (f : Fld) (v : Word) : f.get v < 2 ^ f.w := bitsOf_lt _ _ _

/-! ## The layout of the register map -/

/-- Two fields share no bit. -/
abbrev Fld.Apart (f g : Fld) : Prop := f.lo + f.w ≤ g.lo ∨ g.lo + g.w ≤ f.lo

theorem Fld.apart_symm : Std.Symm Fld.Apart := ⟨fun _ _ => Or.symm⟩

/-- The fields of a register lie apart within its 64 bits, and its mask covers each. -/
abbrev Reg.LaidOut (r : Reg) : Prop :=
  r.mask < 2 ^ 64 ∧ r.fields.Pairwise Fld.Apart ∧
    ∀ f ∈ r.fields, f.lo + f.w ≤ 64 ∧ bitsOf r.mask f.lo f.w = 2 ^ f.w - 1

/-- Every register of the map is laid out so. -/
theorem regBlocks_laidOut : ∀ b ∈ regBlocks, ∀ r ∈ b.regs, r.LaidOut := by decide +kernel

/-- The fields of which some written value is discarded on a die (log 50). -/
def Reg.discardable (r : Reg) (die : Nat) : List Fld := (({} : Dev).discards r die 0).map (·.1)

/-- Which fields these are depends on neither the device nor the value. -/
theorem Dev.discards_map_fst (d : Dev) (r : Reg) (die : Nat) (v : Word) :
    (d.discards r die v).map (·.1) = r.discardable die := by
  simp only [Reg.discardable, Dev.discards, apply_ite (List.map Prod.fst), List.map_cons, List.map_nil]

/-- Only RW fields of the register itself discard values. -/
theorem regBlocks_discardable_rw :
    ∀ b ∈ regBlocks, ∀ r ∈ b.regs, ∀ die ∈ r.dies, ∀ f ∈ r.discardable die, f ∈ r.fields ∧ f.acc = .rw := by
  decide +kernel

theorem findIn_some {die off i j : Nat} {r : Reg} {rs : List Reg} (h : findIn die off rs = some (r, i, j)) :
    r ∈ rs ∧ r.at? die off = some (i, j) := by
  induction rs with
  | nil => cases h
  | cons q rs ih =>
    unfold findIn at h
    split at h
    · next hq => cases h; exact ⟨List.mem_cons_self, hq⟩
    · exact (ih h).imp_left (List.mem_cons_of_mem _)

theorem findBlock_some {die off : Nat} {x : Reg × Nat × Nat} {bs : List RegBlock} (h : findBlock die off bs = some x) :
    ∃ b ∈ bs, findIn die off b.regs = some x := by
  induction bs with
  | nil => cases h
  | cons b bs ih =>
    unfold findBlock at h
    split at h
    · exact ⟨b, List.mem_cons_self, h⟩
    · exact (ih h).imp fun _ hb => hb.imp_left (List.mem_cons_of_mem _)

/-- What is found at an offset lies on one of its register's dies, at that offset. -/
theorem Reg.at?_some {r : Reg} {die off i j : Nat} (h : r.at? die off = some (i, j)) :
    die ∈ r.dies ∧ r.key die i j = die * 2 ^ 24 + off := by
  simp only [Reg.at?, Option.ite_none_right_eq_some, Option.some.injEq, Prod.mk.injEq, Bool.and_eq_true,
    List.contains_iff_mem, decide_eq_true_eq] at h
  obtain ⟨⟨hdie, hbase⟩, ⟨hoff, -⟩, rfl, rfl⟩ := h
  refine ⟨hdie, ?_⟩
  unfold Reg.key
  omega

section Found
variable {r : Reg} {die off i j : Nat} (h : findReg die off = some (r, i, j))
include h

theorem findReg_at? : r.at? die off = some (i, j) := by
  obtain ⟨b, -, hr⟩ := findBlock_some h
  exact (findIn_some hr).2

theorem findReg_laidOut : r.LaidOut := by
  obtain ⟨b, hb, hr⟩ := findBlock_some h
  exact regBlocks_laidOut b hb r (findIn_some hr).1

theorem findReg_key : r.key die i j = die * 2 ^ 24 + off := (Reg.at?_some (findReg_at? h)).2

theorem findReg_maskOf (hoff : off < 2 ^ 24) : maskOf (r.key die i j) = w64 r.mask := by
  have hdie : (die * 2 ^ 24 + off) / 2 ^ 24 = die := by omega
  have hrest : (die * 2 ^ 24 + off) % 2 ^ 24 = off := by omega
  rw [findReg_key h, maskOf, hdie, hrest, h]

theorem findReg_fld_le {f : Fld} (hf : f ∈ r.fields) : f.lo + f.w ≤ 64 := by
  obtain ⟨-, -, hl⟩ := findReg_laidOut h
  exact (hl f hf).1

/-- Reserved bits cut off leave the fields alone. -/
theorem findReg_get_maskOf (hoff : off < 2 ^ 24) {f : Fld} (hf : f ∈ r.fields) (x : Word) :
    f.get (x &&& maskOf (r.key die i j)) = f.get x := by
  obtain ⟨hm, -, hl⟩ := findReg_laidOut h
  rw [findReg_maskOf h hoff, f.get_and_mask x _ hm (hl f hf).2]

/-- A field just set reads as the new value, cut to its width. -/
theorem Tr.fld_fld_self (hoff : off < 2 ^ 24) {f : Fld} (hf : f ∈ r.fields) (x : Nat) (d : Dev) :
    ((Tr.fld r f die x i j).run d).fld r f die i j = x % 2 ^ f.w := by
  rw [Dev.fld, Tr.fld_reg_self, findReg_get_maskOf h hoff hf, f.get_put_self _ _ (findReg_fld_le h hf)]

/-- A field that a table names for discarding is an RW field of the register. -/
theorem findReg_discards {d : Dev} {v : Word} {e : Fld × Bool} (he : e ∈ d.discards r die v) :
    e.1 ∈ r.fields ∧ e.1.acc = .rw := by
  obtain ⟨b, hb, hr⟩ := findBlock_some h
  refine regBlocks_discardable_rw b hb r (findIn_some hr).1 die (Reg.at?_some (findReg_at? h)).1 e.1 ?_
  exact d.discards_map_fst r die v ▸ List.mem_map_of_mem he

theorem findReg_not_mem_discards {f : Fld} (hf : f.acc ≠ .rw) (b : Bool) (d : Dev) (v : Word) :
    (f, b) ∉ d.discards r die v := fun he => hf (findReg_discards h he).2

end Found

/-! ## What a write leaves in a field -/

/-- What a write of `v` leaves in field `f` of a register that holds `old` (R8). -/
def Fld.written (f : Fld) (old v : Word) : Nat :=
  match f.acc with
  | .ro => f.get old
  | .wo => f.get old
  | .rw => f.get v
  | .w1c => f.get old &&& (2 ^ f.w - 1 - f.get v)
  | .rw1s => f.get old ||| f.get v

theorem Fld.get_write_self (f : Fld) (old v a : Word) (hf : f.lo + f.w ≤ 64) (ha : f.get a = f.get old) :
    f.get (f.write old v a) = f.written old v := by
  cases hacc : f.acc <;> simp only [Fld.write, Fld.written, hacc]
  case ro | wo => exact ha
  all_goals rw [f.get_put_self _ _ hf, Nat.mod_eq_of_lt]
  case rw => exact f.get_lt v
  case w1c => exact Nat.and_lt_two_pow _ (by have := Nat.two_pow_pos f.w; omega)
  case rw1s => exact Nat.or_lt_two_pow (f.get_lt old) (f.get_lt v)

theorem Fld.get_write_apart (f g : Fld) (old v a : Word) (hg : g.lo + g.w ≤ 64) (hd : f.Apart g) :
    f.get (g.write old v a) = f.get a := by
  cases hacc : g.acc <;> simp only [Fld.write, hacc, g.get_put_ne f _ _ hg hd]

/-- Writes of fields apart from `f` leave `f` alone. -/
theorem Fld.get_foldl_write_apart (f : Fld) (old v : Word) (l : List Fld) (hl : ∀ g ∈ l, g.lo + g.w ≤ 64 ∧ f.Apart g)
    (a : Word) : f.get (l.foldl (fun a g => g.write old v a) a) = f.get a := by
  induction l generalizing a with
  | nil => rfl
  | cons g l ih =>
    obtain ⟨hg, hd⟩ := hl g List.mem_cons_self
    rw [List.foldl_cons, ih fun x hx => hl x (List.mem_cons_of_mem _ hx), f.get_write_apart g _ _ _ hg hd]

/-- Writes of fields that lie apart write each of them by its access code. -/
theorem Fld.get_foldl_write_mem (f : Fld) (old v : Word) (l : List Fld) (hf : f ∈ l) (hp : l.Pairwise Fld.Apart)
    (hl : ∀ g ∈ l, g.lo + g.w ≤ 64) (a : Word) (ha : f.get a = f.get old) :
    f.get (l.foldl (fun a g => g.write old v a) a) = f.written old v := by
  induction l generalizing a with
  | nil => cases hf
  | cons g l ih =>
    obtain ⟨hg, hp⟩ := List.pairwise_cons.mp hp
    have hlo := hl g List.mem_cons_self
    have hl' : ∀ x ∈ l, x.lo + x.w ≤ 64 := fun x hx => hl x (List.mem_cons_of_mem _ hx)
    rw [List.foldl_cons]
    rcases List.mem_cons.mp hf with rfl | hf
    · rw [f.get_foldl_write_apart _ _ l fun x hx => ⟨hl' x hx, hg x hx⟩]
      exact f.get_write_self _ _ _ hlo ha
    · refine ih hf hp hl' _ ?_
      rw [f.get_write_apart g _ _ _ hlo (Fld.apart_symm.symm _ _ (hg f hf)), ha]

/-- A register write treats each field by its access code. -/
theorem Reg.get_write {r : Reg} (hr : r.LaidOut) {f : Fld} (hf : f ∈ r.fields) (old v : Word) :
    f.get (r.write old v) = f.written old v := by
  obtain ⟨-, hp, hl⟩ := hr
  exact f.get_foldl_write_mem old v r.fields hf hp (fun g hg => (hl g hg).1) old rfl

/-- Of a list of fields that may be discarded, each apart from `f` or `f` itself, field `f` is kept where the list says so. -/
theorem Fld.get_foldl_discard (f : Fld) (keep : Fld → Nat) (hk : keep f < 2 ^ f.w) (l : List (Fld × Bool))
    (hl : ∀ e ∈ l, e.1.lo + e.1.w ≤ 64 ∧ (e.1 = f ∨ f.Apart e.1)) (v : Word) :
    f.get (l.foldl (fun v e => if e.2 then e.1.put v (keep e.1) else v) v) =
      if (f, true) ∈ l then keep f else f.get v := by
  induction l generalizing v with
  | nil => rfl
  | cons e l ih =>
    obtain ⟨g, b⟩ := e
    obtain ⟨hg, hd⟩ := hl _ List.mem_cons_self
    rw [List.foldl_cons, ih fun x hx => hl x (List.mem_cons_of_mem _ hx)]
    by_cases hmem : (f, true) ∈ l
    · simp [hmem]
    cases b with
    | false => simp [hmem]
    | true =>
      by_cases hgf : g = f
      · subst hgf
        simp [hmem, g.get_put_self _ _ hg, Nat.mod_eq_of_lt hk]
      · simp [hmem, Ne.symm hgf, g.get_put_ne f _ _ hg (hd.resolve_left hgf)]

section Guarded
variable {r : Reg} {die off i j : Nat} (h : findReg die off = some (r, i, j)) {f : Fld} (hf : f ∈ r.fields)
include h hf

/-- A guarded value has the register's own value in a discarded field, and the written one in every other (log 50). -/
theorem Dev.get_guarded (d : Dev) (v : Word) : f.get (d.guarded r die v i j) =
    if (f, true) ∈ d.discards r die v then d.fld r f die i j else f.get v := by
  obtain ⟨-, hp, -⟩ := findReg_laidOut h
  refine f.get_foldl_discard (fun g => d.fld r g die i j) (f.get_lt _) _ (fun e he => ?_) v
  have hmem := (findReg_discards h he).1
  have := Fld.apart_symm
  exact ⟨findReg_fld_le h hmem, or_iff_not_imp_left.mpr fun hne => hp.forall hf hmem (Ne.symm hne)⟩

/-- Only an RW field is discarded. -/
theorem Fld.written_guarded (d : Dev) (v : Word) :
    f.written (d.reg r die i j) (d.guarded r die v i j) =
      if (f, true) ∈ d.discards r die v then d.fld r f die i j else f.written (d.reg r die i j) v := by
  by_cases hdis : (f, true) ∈ d.discards r die v
  · have hrw : f.acc = .rw := (findReg_discards h hdis).2
    simp [Fld.written, hrw, Dev.get_guarded h hf, hdis]
  · simp [Fld.written, Dev.get_guarded h hf, hdis]

/-- What a guarded write stores reads, field by field, as the access codes and the discards say. -/
theorem Fld.get_stored (hoff : off < 2 ^ 24) (d : Dev) (v : Word) :
    f.get (r.write (d.reg r die i j) (d.guarded r die v i j) &&& maskOf (r.key die i j)) =
      if (f, true) ∈ d.discards r die v then d.fld r f die i j else f.written (d.reg r die i j) v := by
  rw [findReg_get_maskOf h hoff hf, Reg.get_write (findReg_laidOut h) hf, Fld.written_guarded h hf]

end Guarded

/-! ## Writes of one register -/

theorem Tr.guardedWrite_run (r : Reg) (die : Nat) (v : Word) (i j : Nat) (d : Dev) :
    (Tr.guardedWrite r die v i j).run d = (Tr.writeReg r die (d.guarded r die v i j) i j).run d := rfl

theorem Tr.guardedStaged_run (r : Reg) (die : Nat) (v : Word) (i j : Nat) (d : Dev) :
    (Tr.guardedStaged r die v i j).run d = (Tr.writeReg r die (d.guarded r die v i j) i j).run
      ((Tr.units fun u => { u with force := tinsert u.force (r.key die i j) (d.inForce r die i j) }).run d) := rfl

/-- A write that is turned away, by its requester or by its offset, changes nothing (R6, R468, R653). -/
theorem Tr.regWrite_turned_away {d : Dev} {die off : Nat} {v : Word} {who : Requester}
    (h : d.mayWrite die off who = false ∨ findReg die off = none) : (Tr.regWrite die off v who).run d = d := by
  rw [Tr.regWrite, Tr.run_read]
  by_cases hmay : d.mayWrite die off who
  · simp [hmay, h.resolve_left (by simp [hmay])]
  · simp [hmay]

section Plain
variable {d : Dev} {r : Reg} {die off i j : Nat} {v : Word} {who : Requester}
variable (hmay : d.mayWrite die off who = true) (hfind : findReg die off = some (r, i, j))
variable (hplain : specialWrite die r.base i j v who = none)
include hmay hfind hplain

theorem Tr.regWrite_run_plain : (Tr.regWrite die off v who).run d =
    (if stagedAtEdge die r.base then Tr.guardedStaged r die v i j else .guardedWrite r die v i j).run d := by
  rw [Tr.regWrite, Tr.run_read]
  simp [hmay, hfind, hplain]

/-- A plain write stores by the access codes, staged or not (R8, R71). -/
theorem Tr.regWrite_plain_regs : ((Tr.regWrite die off v who).run d).regs =
    tset resetOf d.regs (r.key die i j)
      (r.write (d.reg r die i j) (d.guarded r die v i j) &&& maskOf (r.key die i j)) := by
  rw [Tr.regWrite_run_plain hmay hfind hplain]
  split <;> rfl

theorem Tr.regWrite_plain_mem : ((Tr.regWrite die off v who).run d).mem = d.mem := by
  rw [Tr.regWrite_run_plain hmay hfind hplain]
  split <;> simp [Tr.guardedWrite_run, Tr.guardedStaged_run]

theorem Tr.regWrite_plain_u : ((Tr.regWrite die off v who).run d).u =
    if stagedAtEdge die r.base then
      { d.u with force := tinsert d.u.force (r.key die i j) (d.inForce r die i j) }
    else d.u := by
  rw [Tr.regWrite_run_plain hmay hfind hplain]
  split <;> simp [Tr.guardedWrite_run, Tr.guardedStaged_run]

theorem Tr.regWrite_plain_reg : ((Tr.regWrite die off v who).run d).reg r die i j =
    r.write (d.reg r die i j) (d.guarded r die v i j) &&& maskOf (r.key die i j) := by
  rw [Dev.reg, Dev.get, Tr.regWrite_plain_regs hmay hfind hplain, tget_tset_self]

/-- A plain write takes each field by its access code, but for a discarded one. -/
theorem Tr.regWrite_plain_fld (hoff : off < 2 ^ 24) {f : Fld} (hf : f ∈ r.fields) :
    ((Tr.regWrite die off v who).run d).fld r f die i j =
      if (f, true) ∈ d.discards r die v then d.fld r f die i j else f.written (d.reg r die i j) v := by
  rw [Dev.fld, Tr.regWrite_plain_reg hmay hfind hplain, Fld.get_stored hfind hf hoff]

/-- Reserved bits stay zero (R9). -/
theorem Tr.regWrite_plain_reserved (hoff : off < 2 ^ 24) :
    (((Tr.regWrite die off v who).run d).reg r die i j).toNat &&& (2 ^ 64 - 1 - r.mask) = 0 := by
  rw [Tr.regWrite_plain_reg hmay hfind hplain, findReg_maskOf hfind hoff]
  exact toNat_and_mask_and_compl _ _ (findReg_laidOut hfind).1

theorem Tr.regWrite_plain_get_ne (k : Nat) (hk : k ≠ die * 2 ^ 24 + off) :
    ((Tr.regWrite die off v who).run d).get k = d.get k := by
  rw [Dev.get, Tr.regWrite_plain_regs hmay hfind hplain, tget_tset_ne _ _ _ _ _ (findReg_key hfind ▸ hk), Dev.get]

/-- A staged write leaves in force what was in force (R71). -/
theorem Tr.regWrite_plain_inForce (hst : stagedAtEdge die r.base = true) :
    ((Tr.regWrite die off v who).run d).inForce r die i j = d.inForce r die i j := by
  rw [Dev.inForce, Tr.regWrite_plain_u hmay hfind hplain, if_pos hst, agetD_tinsert_self]

end Plain

/-! ## Transfers of the management port (R652) -/

theorem leBytes_length (k n : Nat) : (leBytes k n).length = k := by
  induction k generalizing n with
  | zero => rfl
  | succ k ih => simp [leBytes, ih]

theorem leNat_leBytes (k n : Nat) : leNat (leBytes k n) = n % 256 ^ k := by
  induction k generalizing n with
  | zero => simp [leBytes, leNat, Nat.mod_one]
  | succ k ih => rw [leBytes, leNat, ih, Nat.pow_succ', Nat.mod_mul, BitVec.toNat_ofNat]

/-- The eight bytes of a word are one word of a transfer. -/
theorem wordsOf_leBytes (v : Word) : wordsOf (leBytes 8 v.toNat) = [some v] := by
  have hv : leAt (leBytes 8 v.toNat) 0 8 = v.toNat := by
    rw [leAt, List.drop_zero, List.take_of_length_le (leBytes_length 8 _).le, leNat_leBytes]
    exact Nat.mod_eq_of_lt v.isLt
  simp [wordsOf, leBytes_length, hv, w64, List.range_succ]

/-- A management address of a die's window names the window and the offset (R652). -/
theorem mgmtAddr_split (die : Die) (off : BitVec 24) :
    ((die.val + 1) * 2 ^ 24 + off.toNat) / 2 ^ 24 = die.val + 1 ∧
      ((die.val + 1) * 2 ^ 24 + off.toNat) % 2 ^ 24 = off.toNat := by
  have := off.isLt
  omega

/-- A word of a transfer at an address in a window is a read or a write of that window. -/
theorem Tr.mgmtWord_read (die : Die) (off : BitVec 24) :
    Tr.mgmtWord ((die.val + 1) * 2 ^ 24 + off.toNat) none = .regRead die.val off.toNat .mgmt .answer := by
  obtain ⟨hw, ho⟩ := mgmtAddr_split die off
  have hdie : die.val + 1 ≤ 7 := die.isLt
  rw [Tr.mgmtWord, hw, ho]
  simp [hdie]

theorem Tr.mgmtWord_write (die : Die) (off : BitVec 24) (v : Word) (hoff : off.toNat % 8 = 0) :
    Tr.mgmtWord ((die.val + 1) * 2 ^ 24 + off.toNat) (some v) = .regWrite die.val off.toNat v .mgmt := by
  obtain ⟨hw, ho⟩ := mgmtAddr_split die off
  have hdie : die.val + 1 ≤ 7 := die.isLt
  rw [Tr.mgmtWord, hw, ho]
  simp [hdie, hoff]

theorem Tr.mgmtWord_unnamed {addr : Nat} (h : addr / 2 ^ 24 = 0 ∨ 7 < addr / 2 ^ 24) :
    Tr.mgmtWord addr none = .answer 0 := by
  rw [Tr.mgmtWord]
  exact if_neg (by simp only [Bool.and_eq_true, decide_eq_true_eq]; omega)

theorem Tr.mgmtWords_single (addr : Nat) (w : Option Word) (d : Dev) :
    (Tr.mgmtWords addr [w]).run d = (Tr.mgmtWord addr w).run d := rfl

/-- Outside the windows a transfer's words lie one after another. -/
theorem mgmtNext_unnamed {addr : Nat} (h : addr / 2 ^ 24 = 0 ∨ 7 < addr / 2 ^ 24) (hlt : addr + 8 < 2 ^ 32) :
    mgmtNext addr = addr + 8 := by
  have hne : addr ≠ (HD + 1) * 2 ^ 24 + MGMT_DW_DATA.base := by
    have : MGMT_DW_DATA.base < 2 ^ 24 := by decide
    unfold HD
    omega
  rw [mgmtNext, if_neg hne, Nat.mod_eq_of_lt hlt]

/-- Reads of words outside the windows answer zeros. -/
theorem Tr.mgmtWords_unnamed (n addr : Nat) (d : Dev) (h : addr / 2 ^ 24 = 0 ∨ 7 < addr / 2 ^ 24)
    (hend : (addr + 8 * n) / 2 ^ 24 = addr / 2 ^ 24) (hlt : addr < 2 ^ 32) :
    (Tr.mgmtWords addr (List.replicate n none)).run d =
      { d with u := { d.u with rdata := d.u.rdata ++ List.replicate n 0 } } := by
  induction n generalizing addr d with
  | zero => simp [Tr.mgmtWords]
  | succ n ih =>
    rw [List.replicate_succ, Tr.mgmtWords, Tr.run_seq_cons, Tr.mgmtWord_unnamed h,
      mgmtNext_unnamed h (by omega), Tr.run_seq_cons, ih (addr + 8) _ (by omega) (by omega) (by omega)]
    simp [Tr.answer, Tr.units, List.replicate_succ]

/-- A read that responds, of a register without a read of its own, shows the register (R8, R9). -/
theorem Tr.regRead_run {d : Dev} {r : Reg} {die off i j : Nat} {who : Requester} (k : Word → Tr)
    (hmay : d.mayRead die off who = true) (hfind : findReg die off = some (r, i, j)) (hnow : r ≠ TIME_NOW)
    (hdw : r ≠ MGMT_DW_DATA) :
    (Tr.regRead die off who k).run d = (k (r.readVal (d.shown r die i j))).run d := by
  have hnow' : ¬ (die = HD ∧ off = TIME_NOW.base) := by
    rintro ⟨rfl, rfl⟩
    rw [show findReg HD TIME_NOW.base = some (TIME_NOW, 0, 0) from rfl] at hfind
    exact hnow (by cases hfind; rfl)
  have hdw' : ¬ (die = HD ∧ off = MGMT_DW_DATA.base) := by
    rintro ⟨rfl, rfl⟩
    rw [show findReg HD MGMT_DW_DATA.base = some (MGMT_DW_DATA, 0, 0) from rfl] at hfind
    exact hdw (by cases hfind; rfl)
  rw [Tr.regRead, Tr.run_read]
  simp [hmay, hfind, ← Bool.decide_and, hnow', hdw']

/-- A transfer that the framing takes runs its words in order. -/
theorem registerTransferTr_run {d : Dev} {addr : BitVec 32} {store : Option (List Byte)} {len : Nat} (hst : d.state ≠ 0)
    (hlo : 8 ≤ store.elim len (·.length)) (hhi : store.elim len (·.length) ≤ 4096)
    (hmod : store.elim len (·.length) % 8 = 0) :
    (registerTransferTr addr store len).run d =
      (Tr.mgmtWords addr.toNat (store.elim (List.replicate (len / 8) none) wordsOf)).run d := by
  rw [registerTransferTr, Tr.run_read]
  rw [if_neg hst, if_neg (by simp only [Bool.or_eq_true, decide_eq_true_eq]; omega)]
  cases store <;> rfl

/-- Any other transfer sets BUS_ERR alone. -/
theorem registerTransferTr_run_framing {d : Dev} {addr : BitVec 32} {store : Option (List Byte)} {len : Nat}
    (hst : d.state ≠ 0) (hbad : store.elim len (·.length) < 8 ∨ 4096 < store.elim len (·.length) ∨
      store.elim len (·.length) % 8 ≠ 0) :
    (registerTransferTr addr store len).run d = (Tr.fld MGMT_CMD_STATUS MGMT_CMD_STATUS_BUS_ERR HD 1).run d := by
  rw [registerTransferTr, Tr.run_read]
  rw [if_neg hst, if_pos (by simp only [Bool.or_eq_true, decide_eq_true_eq]; omega)]

/-! ## The commands -/

theorem exec_registerWrite (die : Die) (off : BitVec 24) (v : Word) (who : Requester) (s : State) :
    exec (.registerWrite die off v who) s = .next { s with dev := (Tr.regWrite die.val off.toNat v who).run s.dev } := rfl

theorem exec_csrNarrowAccess (die : Die) (off : BitVec 24) (store : Option Word) (s : State) :
    exec (.csrNarrowAccess die off store) s = .next { s with dev := (csrNarrowTr store).run s.dev } := rfl

theorem exec_debugWindowAccess (die : Die) (off : BitVec 24) (store : Option Word) (s : State) :
    exec (.debugWindowAccess die off store) s = .next { s with dev := (debugWindowTr die off store).run s.dev } := rfl

theorem exec_registerTransfer (addr : BitVec 32) (store : Option (List Byte)) (len : Nat) (s : State) :
    exec (.registerTransfer addr store len) s = .next { s with dev := (registerTransferTr addr store len).run s.dev } := rfl

theorem Tr.answer_run (w : Word) (d : Dev) :
    (Tr.answer w).run d = { d with u := { d.u with rdata := d.u.rdata ++ [w] } } := rfl

/-- The word of a debug window, where a physical cell lies there (R113). -/
theorem Dev.debugWord_eq (d : Dev) (die off : Nat) : d.debugWord die off =
    if die < 4 ∧ off / 2 ^ 16 < 168 then
      w64 (leNat ((d.cellAt (die * 168 + off / 2 ^ 16)).acc.slice (off % 2 ^ 16 / 8 * 8) 8))
    else 0 := by
  simp [Dev.debugWord]

/-- A debug window answers in debug mode, and reads alone (R44, R113). -/
theorem debugWindowTr_run (die : Die) (off : BitVec 24) (store : Option Word) (d : Dev) :
    (debugWindowTr die off store).run d =
      if d.debugMode ∧ store = none then (Tr.answer (d.debugWord die.val off.toNat)).run d else d := by
  rw [debugWindowTr, Tr.run_read]
  cases d.debugMode <;> cases store <;> simp

/-- In Night no transfer is served. -/
theorem registerTransferTr_run_night {d : Dev} (addr : BitVec 32) (store : Option (List Byte)) (len : Nat)
    (h : d.state = 0) : (registerTransferTr addr store len).run d = d := by
  rw [registerTransferTr, Tr.run_read]
  simp [h]

/-- Settles O57: a plain write stores field by field (`Tr.regWrite_plain_fld`), a narrow or debug access answers or does nothing, and
a transfer is its words in order (`registerTransferTr_run`). -/
theorem registerAccesses : Obligations.RegisterAccesses := by
  intro s die off v who addr store len stays answers size
  have hoff : off.toNat < 2 ^ 24 := off.isLt
  refine ⟨fun h => ?away, fun r i j hmay hfind hplain => ⟨_, exec_registerWrite .., ?write⟩,
    ⟨_, exec_csrNarrowAccess .., rfl, rfl⟩, exec_csrNarrowAccess .., fun hdebug => ⟨_, exec_debugWindowAccess .., ?debug⟩,
    ?debugStore, fun hdebug => ?debugOff, fun hnight => ?night,
    fun hday hbad => ⟨_, exec_registerTransfer .., ?framing⟩,
    fun hday hlo hhi hmod => ⟨_, exec_registerTransfer .., ?transfer⟩⟩
  case away => exact (exec_registerWrite ..).trans (by rw [Tr.regWrite_turned_away h])
  case write =>
    have hmem := Tr.regWrite_plain_mem hmay hfind hplain
    have hu := Tr.regWrite_plain_u hmay hfind hplain
    have hne := Tr.regWrite_plain_get_ne hmay hfind hplain
    have hres := Tr.regWrite_plain_reserved hmay hfind hplain hoff
    have hforce := Tr.regWrite_plain_inForce hmay hfind hplain
    refine ⟨rfl, hmem, fun k hk => hne k (by simpa using hk), fun f hf => ?fields, hres,
      fun hst => by rw [hu, if_neg (by simp [hst])], fun hst => ⟨by rw [hu, if_pos hst], hforce hst⟩⟩
    case fields =>
      rw [Tr.regWrite_plain_fld hmay hfind hplain hoff hf]
      cases hacc : f.acc
      case rw => simp only [Fld.written, hacc]
      all_goals
        have hkeep := findReg_not_mem_discards hfind (f := f) (by simp [hacc]) true s.dev v
        simp only [hkeep, if_false, Fld.written, hacc, Dev.fld]
  case debug =>
    refine ⟨rfl, ?_⟩
    rw [debugWindowTr_run, if_pos ⟨hdebug, rfl⟩, Tr.answer_run, Dev.debugWord_eq]
  case debugStore => exact (exec_debugWindowAccess ..).trans (by rw [debugWindowTr_run, if_neg (by simp)])
  case debugOff => exact (exec_debugWindowAccess ..).trans (by rw [debugWindowTr_run, if_neg (by simp [hdebug])])
  case night => exact (exec_registerTransfer ..).trans (by rw [registerTransferTr_run_night addr store len hnight])
  case framing =>
    rw [registerTransferTr_run_framing hday hbad]
    have hmem := Tr.fld_mem MGMT_CMD_STATUS MGMT_CMD_STATUS_BUS_ERR HD 1 0 0 s.dev
    have hu := Tr.fld_u MGMT_CMD_STATUS MGMT_CMD_STATUS_BUS_ERR HD 1 0 0 s.dev
    have hfind : findReg HD MGMT_CMD_STATUS.base = some (MGMT_CMD_STATUS, 0, 0) := rfl
    have herr := Tr.fld_fld_self hfind (by decide) (f := MGMT_CMD_STATUS_BUS_ERR) (by decide) 1 s.dev
    refine ⟨rfl, hmem, hu, fun k hk => ?_, herr⟩
    rw [Tr.fld_run]
    exact Tr.setKey_get_ne _ _ _ _ (by simpa using hk)
  case transfer =>
    rw [registerTransferTr_run hday hlo hhi hmod]
    refine ⟨rfl, ?unnamed, ?read, ?written⟩
    case unnamed =>
      rintro rfl hout hend
      have hlen : len = 8 * (len / 8) := by have : len % 8 = 0 := hmod; omega
      exact Tr.mgmtWords_unnamed (len / 8) addr.toNat s.dev hout (hlen ▸ hend) addr.isLt
    case read =>
      rintro rfl rfl haddr hmay r i j hfind hnow hdw
      have hone : List.replicate (8 / 8) (none : Option Word) = [none] := rfl
      refine ⟨rfl, ?_⟩
      rw [haddr, Option.elim_none, hone, Tr.mgmtWords_single, Tr.mgmtWord_read, Tr.regRead_run _ hmay hfind hnow hdw,
        Tr.answer_run]
    case written =>
      rintro rfl haddr halign
      rw [exec_registerWrite, haddr, Option.elim_some, wordsOf_leBytes, Tr.mgmtWords_single,
        Tr.mgmtWord_write _ _ _ halign]

end Sys2Proof.Machine
end

section
/-! PROOFS. Device time (R46 to R50, R52 to R59): what a transformer changes among HD's registers and in the time unit, the
transformers of the time unit one by one, and obligation O55. -/

namespace Sys2Proof.Machine

open Sys2Proof.Safety

/-! ## What a transformer changes -/

/-- From `d` to `n` the time unit became `x` and no register but those of `rs` on HD changed; memory and the other units are
as they were. -/
structure Dev.Changes (rs : List Reg) (x : TimeSt) (d n : Dev) : Prop where
  mem : n.mem = d.mem
  u : n.u = { d.u with time := x }
  get : ∀ k, k ∉ rs.map (fun r => r.key HD 0 0) → n.get k = d.get k

namespace Dev.Changes
variable {rs : List Reg} {x : TimeSt} {d n m : Dev}

theorem refl (rs : List Reg) (d : Dev) : Changes rs d.u.time d d := ⟨rfl, rfl, fun _ _ => rfl⟩

/-- A change after another: `f` says what the second makes of the time unit it finds. -/
theorem andThen {qs : List Reg} (h : Changes rs x d n) (f : TimeSt → TimeSt) (g : Changes qs (f n.u.time) n m) (hsub : qs ⊆ rs) :
    Changes rs (f x) d m where
  mem := g.mem.trans h.mem
  u := by rw [g.u, h.u]
  get k hk := (g.get k fun hmem => hk (List.map_subset _ hsub hmem)).trans (h.get k hk)

theorem mono {qs : List Reg} (h : Changes rs x d n) (hsub : rs ⊆ qs) : Changes qs x d n :=
  (refl qs d).andThen (fun _ => x) h hsub

theorem setKey (h : Changes rs x d n) {r : Reg} (hr : r ∈ rs) (v : Word) :
    Changes rs x d ((Tr.setKey (r.key HD 0 0) v).run n) where
  mem := by rw [Tr.setKey_mem, h.mem]
  u := by rw [Tr.setKey_u, h.u]
  get k hk := by
    have hne : k ≠ r.key HD 0 0 := fun e => hk (List.mem_map.mpr ⟨r, hr, e.symm⟩)
    rw [Tr.setKey_get_ne _ _ _ _ hne, h.get k hk]

theorem reg (h : Changes rs x d n) {r : Reg} (hr : r ∈ rs) (v : Word) : Changes rs x d ((Tr.reg r HD v).run n) := by
  rw [Tr.reg_eq]
  exact h.setKey hr v

theorem fld (h : Changes rs x d n) {r : Reg} (hr : r ∈ rs) (f : Fld) (v : Nat) : Changes rs x d ((Tr.fld r f HD v).run n) := by
  rw [Tr.fld_run]
  exact h.setKey hr _

theorem writeReg (h : Changes rs x d n) {r : Reg} (hr : r ∈ rs) (v : Word) : Changes rs x d ((Tr.writeReg r HD v).run n) := by
  rw [Tr.writeReg_run]
  exact h.setKey hr _

theorem time (h : Changes rs x d n) (f : TimeSt → TimeSt) : Changes rs (f x) d ((Tr.time f).run n) where
  mem := h.mem
  u := by
    have hu : ((Tr.time f).run n).u = { n.u with time := f n.u.time } := rfl
    rw [hu, h.u]
  get := h.get

theorem when {b : Bool} {t : Tr} (h : Changes rs x d n) (ht : Changes rs n.u.time n (t.run n)) : Changes rs x d ((Tr.when b t).run n) := by
  cases b
  · exact h
  · exact h.andThen id ht (List.Subset.refl _)

theorem fld_eq (h : Changes rs x d n) {r : Reg} (hr : r.key HD 0 0 ∉ rs.map fun q => q.key HD 0 0) (f : Fld) :
    n.fld r f HD = d.fld r f HD := congrArg f.get (h.get _ hr)

end Dev.Changes

theorem Tr.time_run (f : TimeSt → TimeSt) (d : Dev) :
    (Tr.time f).run d = { d with u := { d.u with time := f d.u.time } } := rfl

@[simp] theorem Tr.time_fld (f : TimeSt → TimeSt) (r : Reg) (g : Fld) (die i j : Nat) (d : Dev) :
    ((Tr.time f).run d).fld r g die i j = d.fld r g die i j := rfl

theorem Tr.each_concat {α : Type} (f : α → Tr) (l : List α) (x : α) (d : Dev) :
    (Tr.each (l ++ [x]) f).run d = (f x).run ((Tr.each l f).run d) := by
  have hfold := each_foldl f id (fun d a => (f a).run d) fun _ _ => rfl
  simp only [id] at hfold
  rw [hfold, hfold, List.foldl_concat]

/-! ## Fields of HD's registers after a write -/

/-- The register map finds `r` at its base on HD. -/
abbrev Reg.OnHD (r : Reg) : Prop := findReg HD r.base = some (r, 0, 0) ∧ r.base < 2 ^ 24

theorem TIME_NOW_FRAC_onHD : TIME_NOW_FRAC.OnHD := ⟨rfl, by decide⟩
theorem TIME_STATUS_onHD : TIME_STATUS.OnHD := ⟨rfl, by decide⟩
theorem TIME_RATE_onHD : TIME_RATE.OnHD := ⟨rfl, by decide⟩
theorem TIME_CTL_onHD : TIME_CTL.OnHD := ⟨rfl, by decide⟩
theorem TIME_PPS_CAPTURE_FRAC_onHD : TIME_PPS_CAPTURE_FRAC.OnHD := ⟨rfl, by decide⟩
theorem MGMT_ALERT_onHD : MGMT_ALERT.OnHD := ⟨rfl, by decide⟩

section OnHD
variable {r : Reg} (h : r.OnHD) {f g : Fld} (hf : f ∈ r.fields)
include h hf

theorem Reg.OnHD.fld_self (x : Nat) (d : Dev) : ((Tr.fld r f HD x).run d).fld r f HD = x % 2 ^ f.w :=
  Tr.fld_fld_self h.1 h.2 hf x d

theorem Reg.OnHD.fld_apart (hg : g ∈ r.fields) (hd : g.Apart f) (x : Nat) (d : Dev) :
    ((Tr.fld r f HD x).run d).fld r g HD = d.fld r g HD := by
  rw [Dev.fld, Tr.fld_reg_self, findReg_get_maskOf h.1 h.2 hg, f.get_put_ne g _ _ (findReg_fld_le h.1 hf) hd, Dev.fld]

theorem Reg.OnHD.writeReg_fld (v : Word) (d : Dev) : ((Tr.writeReg r HD v).run d).fld r f HD = f.written (d.reg r HD) v := by
  rw [Dev.fld, Tr.writeReg_reg_self, findReg_get_maskOf h.1 h.2 hf, Reg.get_write (findReg_laidOut h.1) hf]

end OnHD

theorem Tr.reg_holds (r : Reg) (die v i j : Nat) (d : Dev) : Holds ((Tr.reg r die (w64 v) i j).run d) r die i j v :=
  Tr.reg_reg_self r die (w64 v) i j d

/-- A one-bit field that is not set reads 0. -/
theorem Dev.flag_eq_false_iff {f : Fld} (hw : f.w = 1) (d : Dev) (r : Reg) (die i j : Nat) :
    d.flag r f die i j = false ↔ d.fld r f die i j = 0 := by
  have hlt : d.fld r f die i j < 2 ^ f.w := f.get_lt _
  rw [hw] at hlt
  simp only [Dev.flag, beq_eq_false_iff_ne]
  omega

/-! ## Reading, setting, stepping and slewing (R46 to R50) -/

theorem Dev.nowFrac_lt (d : Dev) : d.nowFrac < 2 ^ 16 :=
  Nat.div_lt_of_lt_mul (Nat.mod_lt _ (Nat.two_pow_pos 64))

/-- The device with the fraction of the instant latched. -/
def Dev.latchedFrac (d : Dev) : Dev := (Tr.fld TIME_NOW_FRAC TIME_NOW_FRAC_FRAC HD d.nowFrac).run d

theorem Tr.readTimeNow_run (d : Dev) : (Tr.readTimeNow .answer).run d = (Tr.answer (w64 d.nowNs)).run d.latchedFrac := rfl

theorem Dev.latchedFrac_changes (d : Dev) : d.Changes [TIME_NOW_FRAC] d.u.time d.latchedFrac :=
  (Dev.Changes.refl [TIME_NOW_FRAC] d).fld (by simp) TIME_NOW_FRAC_FRAC d.nowFrac

theorem Dev.latchedFrac_frac (d : Dev) : d.latchedFrac.fld TIME_NOW_FRAC TIME_NOW_FRAC_FRAC HD = d.nowFrac := by
  rw [Dev.latchedFrac, TIME_NOW_FRAC_onHD.fld_self (by decide)]
  exact Nat.mod_eq_of_lt d.nowFrac_lt

theorem Tr.unlessRunning_run (t : Tr) (d : Dev) : (Tr.unlessRunning t).run d =
    if d.runBit then (Tr.fld TIME_STATUS TIME_STATUS_STEP_REFUSED HD 1).run d else t.run d := Tr.run_ite ..

/-- The device with a step of its time refused. -/
def Dev.stepRefused (d : Dev) : Dev := (Tr.fld TIME_STATUS TIME_STATUS_STEP_REFUSED HD 1).run d

theorem Dev.stepRefused_changes (d : Dev) : d.Changes [TIME_STATUS] d.u.time d.stepRefused :=
  (Dev.Changes.refl [TIME_STATUS] d).fld (by simp) TIME_STATUS_STEP_REFUSED 1

theorem Dev.stepRefused_status (d : Dev) : d.stepRefused.fld TIME_STATUS TIME_STATUS_STEP_REFUSED HD = 1 := by
  rw [Dev.stepRefused, TIME_STATUS_onHD.fld_self (by decide)]
  rfl

theorem timeSetTr_run_refused (v : Word) {d : Dev} (h : d.runBit = true) : (timeSetTr v).run d = d.stepRefused := by
  rw [timeSetTr, Tr.unlessRunning_run, if_pos h, Dev.stepRefused]

theorem timeStepTr_run_refused (v : Word) {d : Dev} (h : d.runBit = true) : (timeStepTr v).run d = d.stepRefused := by
  rw [timeStepTr, Tr.unlessRunning_run, if_pos h, Dev.stepRefused]

theorem timeSetTr_run (v : Word) {d : Dev} (h : d.runBit = false) : (timeSetTr v).run d =
    (Tr.fld TIME_STATUS TIME_STATUS_VALID HD 1).run ((Tr.time fun t => { t with now := v.toNat * oneNs }).run d) := by
  rw [timeSetTr, Tr.unlessRunning_run, if_neg (by simp [h])]
  rfl

theorem timeSetTr_changes (v : Word) {d : Dev} (h : d.runBit = false) :
    d.Changes [TIME_STATUS] { d.u.time with now := v.toNat * oneNs } ((timeSetTr v).run d) := by
  rw [timeSetTr_run v h]
  exact ((Dev.Changes.refl _ d).time fun t => { t with now := v.toNat * oneNs }).fld (by simp) _ _

theorem timeSetTr_valid (v : Word) {d : Dev} (h : d.runBit = false) :
    ((timeSetTr v).run d).fld TIME_STATUS TIME_STATUS_VALID HD = 1 := by
  rw [timeSetTr_run v h, TIME_STATUS_onHD.fld_self (by decide)]
  rfl

theorem signed_toNat (w : Nat) (x : BitVec w) : signed w x.toNat = x.toInt := by
  cases w with
  | zero => simp [signed, BitVec.of_length_zero]
  | succ w =>
    have hhalf : 2 * x.toNat < 2 ^ (w + 1) ↔ x.toNat < 2 ^ w := by rw [Nat.pow_succ']; omega
    simp only [signed, BitVec.toInt, Nat.mod_eq_of_lt x.isLt, Nat.add_sub_cancel, hhalf]

theorem timeStepTr_run (v : Word) {d : Dev} (h : d.runBit = false) : (timeStepTr v).run d =
    (Tr.time fun t => { t with now := ((t.now : Int) + v.toInt * oneNs).toNat }).run d := by
  rw [timeStepTr, Tr.unlessRunning_run, if_neg (by simp [h]), Tr.run_read, signed_toNat]
  rfl

theorem unsigned_lt (w : Nat) (z : Int) : unsigned w z < 2 ^ w := by
  have hpos : (0 : Int) < ((2 ^ w : Nat) : Int) := by positivity
  have := Int.emod_lt_of_pos z hpos
  have := Int.emod_nonneg z hpos.ne'
  unfold unsigned
  omega

theorem Tr.setAdj_run (v : Nat) (d : Dev) :
    (Tr.setAdj v).run d = (Tr.fld TIME_RATE TIME_RATE_ADJ HD (clampAdj d.runBit v)).run d := rfl

theorem Tr.setAdj_adj (v : Nat) (d : Dev) : ((Tr.setAdj v).run d).fld TIME_RATE TIME_RATE_ADJ HD = clampAdj d.runBit v := by
  rw [Tr.setAdj_run, TIME_RATE_onHD.fld_self (by decide)]
  exact Nat.mod_eq_of_lt (unsigned_lt 40 _)

theorem Tr.setAdj_changes (v : Nat) (d : Dev) : d.Changes [TIME_RATE] d.u.time ((Tr.setAdj v).run d) := by
  rw [Tr.setAdj_run]
  exact (Dev.Changes.refl _ d).fld (by simp) _ _

/-! ## Selecting a source (R55) -/

/-- `v` with field `f` of TIME_CTL as it stands where the value to write is reserved. -/
def Dev.keepCtl (d : Dev) (f : Fld) (reserved : Nat → Bool) (v : Word) : Word :=
  if reserved (f.get v) then f.put v (d.fld TIME_CTL f HD) else v

/-- What a write of `v` to TIME_CTL stores: its reserved values are replaced (log 40). -/
def Dev.ctlStored (d : Dev) (v : Word) : Word :=
  d.keepCtl TIME_CTL_PTP_TRANSPORT (· = 3) (d.keepCtl TIME_CTL_PTP_ROLE (· = 3) (d.keepCtl TIME_CTL_SRC (3 < ·) v))

/-- What a change of SRC to `src` does beside the write. -/
def Tr.sourceChange (src : Nat) : Tr :=
  .seq [
    .fld TIME_STATUS TIME_STATUS_LOCKED HD 0,
    .when (src = 0) (.fld TIME_STATUS TIME_STATUS_HOLDOVER HD 0),
    .time fun t => { t with good := 0, lastMeas := t.elapsed }]

theorem timeCtlTr_run (v : Word) (d : Dev) : (timeCtlTr v).run d =
    (Tr.when (TIME_CTL_SRC.get (d.ctlStored v) ≠ d.fld TIME_CTL TIME_CTL_SRC HD)
      (.sourceChange (TIME_CTL_SRC.get (d.ctlStored v)))).run ((Tr.writeReg TIME_CTL HD (d.ctlStored v)).run d) := rfl

theorem Dev.get_keepCtl_self (d : Dev) (f : Fld) (reserved : Nat → Bool) (v : Word) (hf : f.lo + f.w ≤ 64) :
    f.get (d.keepCtl f reserved v) = if reserved (f.get v) then d.fld TIME_CTL f HD else f.get v := by
  unfold Dev.keepCtl
  split
  · rw [f.get_put_self _ _ hf]
    exact Nat.mod_eq_of_lt (f.get_lt _)
  · rfl

theorem Dev.get_keepCtl_apart (d : Dev) (f g : Fld) (reserved : Nat → Bool) (v : Word) (hf : f.lo + f.w ≤ 64) (hd : g.Apart f) :
    g.get (d.keepCtl f reserved v) = g.get v := by
  unfold Dev.keepCtl
  split
  · exact f.get_put_ne g _ _ hf hd
  · rfl

/-- A reserved SRC is replaced by the one that stands. -/
theorem Dev.src_ctlStored (d : Dev) (v : Word) :
    TIME_CTL_SRC.get (d.ctlStored v) = if 3 < v.toNat % 8 then d.fld TIME_CTL TIME_CTL_SRC HD else v.toNat % 8 := by
  have hget : TIME_CTL_SRC.get v = v.toNat % 8 := rfl
  rw [Dev.ctlStored, d.get_keepCtl_apart _ _ _ _ (by decide) (by decide), d.get_keepCtl_apart _ _ _ _ (by decide) (by decide),
    d.get_keepCtl_self _ _ _ (by decide), hget]
  simp

/-- A field that has no reserved value is stored as written. -/
theorem Dev.get_ctlStored {f : Fld} (hsrc : f.Apart TIME_CTL_SRC) (hrole : f.Apart TIME_CTL_PTP_ROLE)
    (htransport : f.Apart TIME_CTL_PTP_TRANSPORT) (d : Dev) (v : Word) : f.get (d.ctlStored v) = f.get v := by
  rw [Dev.ctlStored, d.get_keepCtl_apart _ _ _ _ (by decide) htransport, d.get_keepCtl_apart _ _ _ _ (by decide) hrole,
    d.get_keepCtl_apart _ _ _ _ (by decide) hsrc]

/-- A write of `v` to TIME_CTL keeps the source: its SRC is reserved, or the one that stands. -/
abbrev Dev.KeepsSource (d : Dev) (v : Word) : Prop := 3 < v.toNat % 8 ∨ v.toNat % 8 = d.fld TIME_CTL TIME_CTL_SRC HD

section SourceChange
variable {v : Word} {d : Dev}

theorem Dev.KeepsSource.src_ctlStored (h : d.KeepsSource v) : TIME_CTL_SRC.get (d.ctlStored v) = d.fld TIME_CTL TIME_CTL_SRC HD := by
  rw [d.src_ctlStored]
  split
  · rfl
  · exact h.resolve_left ‹_›

theorem Dev.src_ctlStored_of_changes (h : ¬ d.KeepsSource v) : TIME_CTL_SRC.get (d.ctlStored v) = v.toNat % 8 := by
  rw [d.src_ctlStored, if_neg fun hres => h (.inl hres)]

theorem timeCtlTr_run_kept (h : d.KeepsSource v) :
    (timeCtlTr v).run d = (Tr.writeReg TIME_CTL HD (d.ctlStored v)).run d := by
  rw [timeCtlTr_run, h.src_ctlStored]
  simp

theorem timeCtlTr_run_changed (h : ¬ d.KeepsSource v) :
    (timeCtlTr v).run d = (Tr.sourceChange (v.toNat % 8)).run ((Tr.writeReg TIME_CTL HD (d.ctlStored v)).run d) := by
  rw [timeCtlTr_run, Dev.src_ctlStored_of_changes h]
  simp [(not_or.mp h).2]

theorem Tr.sourceChange_changes (src : Nat) (d : Dev) :
    d.Changes [TIME_STATUS] { d.u.time with good := 0, lastMeas := d.u.time.elapsed } ((Tr.sourceChange src).run d) := by
  have hlocked := (Dev.Changes.refl [TIME_STATUS] d).fld (r := TIME_STATUS) (by simp) TIME_STATUS_LOCKED 0
  have hholdover := hlocked.when (b := src = 0) ((Dev.Changes.refl _ _).fld (r := TIME_STATUS) (by simp) TIME_STATUS_HOLDOVER 0)
  exact hholdover.time fun t => { t with good := 0, lastMeas := t.elapsed }

theorem Tr.sourceChange_locked (src : Nat) (d : Dev) :
    ((Tr.sourceChange src).run d).fld TIME_STATUS TIME_STATUS_LOCKED HD = 0 := by
  by_cases h : src = 0 <;> simp (disch := decide) [Tr.sourceChange, h, TIME_STATUS_onHD.fld_self, TIME_STATUS_onHD.fld_apart]

theorem Tr.sourceChange_holdover (src : Nat) (d : Dev) :
    ((Tr.sourceChange src).run d).fld TIME_STATUS TIME_STATUS_HOLDOVER HD =
      if src = 0 then 0 else d.fld TIME_STATUS TIME_STATUS_HOLDOVER HD := by
  by_cases h : src = 0 <;> simp (disch := decide) [Tr.sourceChange, h, TIME_STATUS_onHD.fld_self, TIME_STATUS_onHD.fld_apart]

theorem timeCtlTr_changes_kept (h : d.KeepsSource v) : d.Changes [TIME_CTL] d.u.time ((timeCtlTr v).run d) := by
  rw [timeCtlTr_run_kept h]
  exact (Dev.Changes.refl _ d).writeReg (by simp) _

theorem timeCtlTr_changes (h : ¬ d.KeepsSource v) :
    d.Changes [TIME_CTL, TIME_STATUS] { d.u.time with good := 0, lastMeas := d.u.time.elapsed } ((timeCtlTr v).run d) := by
  rw [timeCtlTr_run_changed h]
  have hwrite := (Dev.Changes.refl [TIME_CTL, TIME_STATUS] d).writeReg (r := TIME_CTL) (by simp) (d.ctlStored v)
  exact hwrite.andThen (fun t => { t with good := 0, lastMeas := t.elapsed }) (Tr.sourceChange_changes _ _) (by simp)

/-- A field of TIME_CTL reads as the write stored it, whether the source changed or not. -/
theorem timeCtlTr_fld (v : Word) (d : Dev) {f : Fld} (hf : f ∈ TIME_CTL.fields) (hrw : f.acc = .rw) :
    ((timeCtlTr v).run d).fld TIME_CTL f HD = f.get (d.ctlStored v) := by
  have hstored : ((Tr.writeReg TIME_CTL HD (d.ctlStored v)).run d).fld TIME_CTL f HD = f.get (d.ctlStored v) := by
    rw [TIME_CTL_onHD.writeReg_fld hf, Fld.written, hrw]
  by_cases h : d.KeepsSource v
  · rw [timeCtlTr_run_kept h, hstored]
  · rw [timeCtlTr_run_changed h, (Tr.sourceChange_changes _ _).fld_eq (by decide), hstored]

theorem timeCtlTr_src (v : Word) (d : Dev) : ((timeCtlTr v).run d).fld TIME_CTL TIME_CTL_SRC HD =
    if d.KeepsSource v then d.fld TIME_CTL TIME_CTL_SRC HD else v.toNat % 8 := by
  rw [timeCtlTr_fld v d (by decide) rfl]
  split
  · next h => exact h.src_ctlStored
  · next h => exact Dev.src_ctlStored_of_changes h

theorem timeCtlTr_domain (v : Word) (d : Dev) :
    ((timeCtlTr v).run d).fld TIME_CTL TIME_CTL_PTP_DOMAIN HD = bitsOf v.toNat 20 8 := by
  rw [timeCtlTr_fld v d (by decide) rfl, Dev.get_ctlStored (by decide) (by decide) (by decide)]
  rfl

theorem timeCtlTr_ppsOutEn (v : Word) (d : Dev) :
    ((timeCtlTr v).run d).fld TIME_CTL TIME_CTL_PPS_OUT_EN HD = bitsOf v.toNat 28 1 := by
  rw [timeCtlTr_fld v d (by decide) rfl, Dev.get_ctlStored (by decide) (by decide) (by decide)]
  rfl

theorem timeCtlTr_locked (h : ¬ d.KeepsSource v) : ((timeCtlTr v).run d).fld TIME_STATUS TIME_STATUS_LOCKED HD = 0 := by
  rw [timeCtlTr_run_changed h, Tr.sourceChange_locked]

theorem timeCtlTr_holdover (h : ¬ d.KeepsSource v) : ((timeCtlTr v).run d).fld TIME_STATUS TIME_STATUS_HOLDOVER HD =
    if v.toNat % 8 = 0 then 0 else d.fld TIME_STATUS TIME_STATUS_HOLDOVER HD := by
  have hwrite := (Dev.Changes.refl [TIME_CTL] d).writeReg (r := TIME_CTL) (by simp) (d.ctlStored v)
  rw [timeCtlTr_run_changed h, Tr.sourceChange_holdover, hwrite.fld_eq (by decide)]

end SourceChange

/-! ## Lock (R55, R56) -/

theorem Tr.locked_changes (d : Dev) : d.Changes [TIME_STATUS] { d.u.time with everLocked := true } (Tr.locked.run d) :=
  ((((Dev.Changes.refl _ d).fld (by simp) _ _).fld (by simp) _ _).fld (by simp) _ _).time fun t => { t with everLocked := true }

theorem Tr.locked_status (d : Dev) :
    (Tr.locked.run d).fld TIME_STATUS TIME_STATUS_LOCKED HD = 1 ∧ (Tr.locked.run d).fld TIME_STATUS TIME_STATUS_VALID HD = 1 ∧
      (Tr.locked.run d).fld TIME_STATUS TIME_STATUS_HOLDOVER HD = 0 := by
  simp (disch := decide) [Tr.locked, TIME_STATUS_onHD.fld_self, TIME_STATUS_onHD.fld_apart]

/-- A measured offset, in 2^-16 ns, below 8 ns. -/
abbrev SmallOffset (x : BitVec 48) : Prop := (signed 48 x.toNat).natAbs < 8 * 2 ^ 16

/-- The count of good measurements after the offset `x`. -/
def goodAfter (good : Nat) (x : BitVec 48) : Nat := if SmallOffset x then good + 1 else 0

/-- The time unit after the measured offset `x`: from the 16th good one in a row on the source is in lock. -/
def TimeSt.measured (t : TimeSt) (x : BitVec 48) : TimeSt :=
  { t with good := goodAfter t.good x, lastMeas := t.elapsed, everLocked := t.everLocked || decide (16 ≤ goodAfter t.good x) }

/-- An offset shown and counted, before lock is decided. -/
def Dev.shownOffset (d : Dev) (x : BitVec 48) : Dev :=
  (Tr.time fun t => { t with good := goodAfter t.good x, lastMeas := t.elapsed }).run ((Tr.reg TIME_OFFSET HD (w64 x.toNat)).run d)

theorem Tr.measure_run (x : BitVec 48) (d : Dev) :
    (Tr.measure x).run d = (Tr.when (16 ≤ goodAfter d.u.time.good x) .locked).run (d.shownOffset x) := rfl

theorem Tr.measure_run_locks {x : BitVec 48} {d : Dev} (h : 16 ≤ goodAfter d.u.time.good x) :
    (Tr.measure x).run d = Tr.locked.run (d.shownOffset x) := by
  rw [Tr.measure_run, decide_eq_true h, Tr.when_true]

theorem Tr.measure_run_unlocked {x : BitVec 48} {d : Dev} (h : ¬ 16 ≤ goodAfter d.u.time.good x) :
    (Tr.measure x).run d = d.shownOffset x := by
  rw [Tr.measure_run, decide_eq_false h, Tr.when_false, Tr.run_skip]

theorem Dev.shownOffset_changes (d : Dev) (x : BitVec 48) : d.Changes [TIME_OFFSET]
    { d.u.time with good := goodAfter d.u.time.good x, lastMeas := d.u.time.elapsed } (d.shownOffset x) :=
  ((Dev.Changes.refl _ d).reg (by simp) _).time fun t => { t with good := goodAfter t.good x, lastMeas := t.elapsed }

/-- Short of lock a measurement writes TIME_OFFSET alone. -/
theorem Tr.measure_changes_unlocked {x : BitVec 48} {d : Dev} (h : ¬ 16 ≤ goodAfter d.u.time.good x) :
    d.Changes [TIME_OFFSET] (d.u.time.measured x) ((Tr.measure x).run d) := by
  rw [Tr.measure_run_unlocked h, TimeSt.measured, decide_eq_false h, Bool.or_false]
  exact d.shownOffset_changes x

theorem Tr.measure_changes (x : BitVec 48) (d : Dev) :
    d.Changes [TIME_OFFSET, TIME_STATUS] (d.u.time.measured x) ((Tr.measure x).run d) := by
  by_cases h : 16 ≤ goodAfter d.u.time.good x
  · have hshown := (d.shownOffset_changes x).mono (qs := [TIME_OFFSET, TIME_STATUS]) (by simp)
    rw [Tr.measure_run_locks h, TimeSt.measured, decide_eq_true h, Bool.or_true]
    exact hshown.andThen (fun t => { t with everLocked := true }) (Tr.locked_changes _) (by simp)
  · exact (Tr.measure_changes_unlocked h).mono (by simp)

theorem Dev.shownOffset_holds (d : Dev) (x : BitVec 48) : Holds (d.shownOffset x) TIME_OFFSET HD 0 0 x.toNat :=
  Tr.reg_holds TIME_OFFSET HD x.toNat 0 0 d

theorem Tr.measure_holds (x : BitVec 48) (d : Dev) : Holds ((Tr.measure x).run d) TIME_OFFSET HD 0 0 x.toNat := by
  by_cases h : 16 ≤ goodAfter d.u.time.good x
  · rw [Tr.measure_run_locks h]
    exact ((Tr.locked_changes (d.shownOffset x)).get (TIME_OFFSET.key HD 0 0) (by decide)).trans (d.shownOffset_holds x)
  · rw [Tr.measure_run_unlocked h]
    exact d.shownOffset_holds x

theorem Tr.measures_changes (l : List (BitVec 48)) (d : Dev) :
    d.Changes [TIME_OFFSET, TIME_STATUS] (l.foldl TimeSt.measured d.u.time) ((Tr.each l .measure).run d) := by
  induction l generalizing d with
  | nil => exact .refl _ d
  | cons x l ih => exact (Tr.measure_changes x d).andThen (l.foldl TimeSt.measured) (ih _) (List.Subset.refl _)

theorem goodAfter_le (good : Nat) (x : BitVec 48) : goodAfter good x ≤ good + 1 := by
  unfold goodAfter
  split <;> omega

/-- Too few measurements for a lock write TIME_OFFSET alone. -/
theorem Tr.measures_changes_unlocked (l : List (BitVec 48)) (d : Dev) (h : d.u.time.good + l.length < 16) :
    d.Changes [TIME_OFFSET] (l.foldl TimeSt.measured d.u.time) ((Tr.each l .measure).run d) := by
  induction l generalizing d with
  | nil => exact .refl _ d
  | cons x l ih =>
    have hle := goodAfter_le d.u.time.good x
    rw [List.length_cons] at h
    have hx := Tr.measure_changes_unlocked (x := x) (d := d) (by omega)
    exact hx.andThen (l.foldl TimeSt.measured) (ih _ (by rw [hx.u]; simp only [TimeSt.measured]; omega)) (List.Subset.refl _)

theorem TimeSt.now_foldl_measured (l : List (BitVec 48)) (t : TimeSt) : (l.foldl TimeSt.measured t).now = t.now := by
  induction l generalizing t with
  | nil => rfl
  | cons x l ih => exact ih _

theorem TimeSt.elapsed_foldl_measured (l : List (BitVec 48)) (t : TimeSt) : (l.foldl TimeSt.measured t).elapsed = t.elapsed := by
  induction l generalizing t with
  | nil => rfl
  | cons x l ih => exact ih _

/-- Small offsets are counted one by one. -/
theorem TimeSt.good_foldl_measured (l : List (BitVec 48)) (t : TimeSt) (h : ∀ x ∈ l, SmallOffset x) :
    (l.foldl TimeSt.measured t).good = t.good + l.length := by
  induction l generalizing t with
  | nil => rfl
  | cons x l ih =>
    obtain ⟨hx, hl⟩ := List.forall_mem_cons.mp h
    have hgood : (t.measured x).good = t.good + 1 := if_pos hx
    rw [List.foldl_cons, ih _ hl, hgood, List.length_cons]
    omega

/-- A last offset that is not small starts the count again. -/
theorem TimeSt.good_foldl_measured_reset {l : List (BitVec 48)} {x : BitVec 48} (t : TimeSt) (hlast : l.getLast? = some x)
    (hx : ¬ SmallOffset x) : (l.foldl TimeSt.measured t).good = 0 := by
  obtain ⟨ys, rfl⟩ := List.getLast?_eq_some_iff.mp hlast
  rw [List.foldl_concat]
  exact if_neg hx

/-- Until the first lock a first offset `x` above 1 ms makes the device step to the source, where it is not told to run. -/
def TimeSt.firstStep (t : TimeSt) (x : Int) (run : Bool) : TimeSt :=
  { t with now := if t.everLocked = false ∧ run = false ∧ 10 ^ 6 * 2 ^ 16 < x.natAbs then ((t.now : Int) - x * 2 ^ 48).toNat
    else t.now }

/-- The device once the measurements are taken, before the servo sets the rate. -/
def Dev.afterMeasures (d : Dev) (first : BitVec 48) (meas : List (BitVec 48)) : Dev :=
  (Tr.each meas .measure).run ((Tr.time (·.firstStep (signed 48 first.toNat) d.runBit)).run d)

theorem sourceLockTr_run_idle (first : BitVec 48) (meas : List (BitVec 48)) (adj : Option (BitVec 40)) {d : Dev}
    (h : d.measures = false) : (sourceLockTr first meas adj).run d = d := by
  rw [sourceLockTr, Tr.run_read, h]
  rfl

theorem Tr.when_stepTo_run (d : Dev) (x : Int) :
    (Tr.when (!d.u.time.everLocked && !d.runBit && decide (10 ^ 6 * 2 ^ 16 < x.natAbs)) (.stepTo (d.u.time.now - x * 2 ^ 48))).run d =
      (Tr.time (·.firstStep x d.runBit)).run d := by
  have hiff : (!d.u.time.everLocked && !d.runBit && decide (10 ^ 6 * 2 ^ 16 < x.natAbs)) = true ↔
      d.u.time.everLocked = false ∧ d.runBit = false ∧ 10 ^ 6 * 2 ^ 16 < x.natAbs := by
    simp only [Bool.and_eq_true, Bool.not_eq_true', decide_eq_true_eq, and_assoc]
  rw [Tr.time_run, TimeSt.firstStep]
  by_cases h : d.u.time.everLocked = false ∧ d.runBit = false ∧ 10 ^ 6 * 2 ^ 16 < x.natAbs
  · rw [hiff.mpr h, if_pos h]
    rfl
  · rw [Bool.eq_false_iff.mpr (mt hiff.mp h), if_neg h]
    rfl

section SourceLock
variable (first : BitVec 48) (meas : List (BitVec 48)) (d : Dev)

theorem Dev.afterMeasures_changes : d.Changes [TIME_OFFSET, TIME_STATUS]
    (meas.foldl TimeSt.measured (d.u.time.firstStep (signed 48 first.toNat) d.runBit)) (d.afterMeasures first meas) :=
  ((Dev.Changes.refl _ d).time (·.firstStep (signed 48 first.toNat) d.runBit)).andThen (meas.foldl TimeSt.measured)
    (Tr.measures_changes meas _) (List.Subset.refl _)

theorem Dev.afterMeasures_changes_unlocked (h : d.u.time.good + meas.length < 16) : d.Changes [TIME_OFFSET]
    (meas.foldl TimeSt.measured (d.u.time.firstStep (signed 48 first.toNat) d.runBit)) (d.afterMeasures first meas) :=
  ((Dev.Changes.refl _ d).time (·.firstStep (signed 48 first.toNat) d.runBit)).andThen (meas.foldl TimeSt.measured)
    (Tr.measures_changes_unlocked meas _ h) (List.Subset.refl _)

theorem Dev.afterMeasures_runBit : (d.afterMeasures first meas).runBit = d.runBit :=
  congrArg (· == 1) ((d.afterMeasures_changes first meas).fld_eq (r := BEAT_CTL) (by decide) BEAT_CTL_RUN)

/-- The last measurement is the last to act. -/
theorem Dev.afterMeasures_concat (x : BitVec 48) :
    d.afterMeasures first (meas ++ [x]) = (Tr.measure x).run (d.afterMeasures first meas) := Tr.each_concat ..

theorem Dev.afterMeasures_holds {meas : List (BitVec 48)} {x : BitVec 48} (hlast : meas.getLast? = some x) :
    Holds (d.afterMeasures first meas) TIME_OFFSET HD 0 0 x.toNat := by
  obtain ⟨l, rfl⟩ := List.getLast?_eq_some_iff.mp hlast
  rw [Dev.afterMeasures_concat]
  exact Tr.measure_holds x _

/-- Where the last measurement makes 16 good ones in a row, the source is in lock. -/
theorem Dev.afterMeasures_status {meas : List (BitVec 48)} (hne : meas ≠ [])
    (hgood : 16 ≤ (d.afterMeasures first meas).u.time.good) :
    let n := d.afterMeasures first meas
    n.fld TIME_STATUS TIME_STATUS_LOCKED HD = 1 ∧ n.fld TIME_STATUS TIME_STATUS_VALID HD = 1 ∧
      n.fld TIME_STATUS TIME_STATUS_HOLDOVER HD = 0 := by
  obtain ⟨l, x, rfl⟩ := meas.eq_nil_or_concat'.resolve_left hne
  rw [Dev.afterMeasures_concat, (Tr.measure_changes ..).u] at hgood
  rw [Dev.afterMeasures_concat, Tr.measure_run_locks hgood]
  exact Tr.locked_status _

/-- The servo sets TIME_RATE alone. -/
theorem Tr.optAdj_changes (adj : Option (BitVec 40)) :
    d.Changes [TIME_RATE] d.u.time ((Tr.opt adj fun a => .setAdj a.toNat).run d) := by
  cases adj with
  | none => exact .refl _ d
  | some a => exact Tr.setAdj_changes _ d

end SourceLock

section Servo
variable (first : BitVec 48) {meas : List (BitVec 48)} (adj : Option (BitVec 40)) {d : Dev} (h : d.measures = true)
include h

theorem sourceLockTr_run : (sourceLockTr first meas adj).run d =
    (Tr.opt adj fun a => .setAdj a.toNat).run (d.afterMeasures first meas) := by
  rw [sourceLockTr, Tr.run_read, h, Dev.afterMeasures, ← Tr.when_stepTo_run]
  rfl

theorem sourceLockTr_changes : d.Changes [TIME_OFFSET, TIME_STATUS, TIME_RATE]
    (meas.foldl TimeSt.measured (d.u.time.firstStep (signed 48 first.toNat) d.runBit)) ((sourceLockTr first meas adj).run d) := by
  have hmeas := (d.afterMeasures_changes first meas).mono (qs := [TIME_OFFSET, TIME_STATUS, TIME_RATE]) (by simp)
  rw [sourceLockTr_run first adj h]
  exact hmeas.andThen id (Tr.optAdj_changes _ adj) (by simp)

theorem sourceLockTr_changes_unlocked (hfew : d.u.time.good + meas.length < 16) : d.Changes [TIME_OFFSET, TIME_RATE]
    (meas.foldl TimeSt.measured (d.u.time.firstStep (signed 48 first.toNat) d.runBit)) ((sourceLockTr first meas adj).run d) := by
  have hmeas := (d.afterMeasures_changes_unlocked first meas hfew).mono (qs := [TIME_OFFSET, TIME_RATE]) (by simp)
  rw [sourceLockTr_run first adj h]
  exact hmeas.andThen id (Tr.optAdj_changes _ adj) (by simp)

theorem sourceLockTr_holds {x : BitVec 48} (hlast : meas.getLast? = some x) :
    Holds ((sourceLockTr first meas adj).run d) TIME_OFFSET HD 0 0 x.toNat := by
  have hadj := Tr.optAdj_changes (d.afterMeasures first meas) adj
  rw [sourceLockTr_run first adj h]
  exact (hadj.get (TIME_OFFSET.key HD 0 0) (by decide)).trans (d.afterMeasures_holds first hlast)

theorem sourceLockTr_adj (a : BitVec 40) :
    ((sourceLockTr first meas (some a)).run d).fld TIME_RATE TIME_RATE_ADJ HD = clampAdj d.runBit a.toNat := by
  rw [sourceLockTr_run first _ h, Tr.opt_some, Tr.setAdj_adj, Dev.afterMeasures_runBit]

theorem sourceLockTr_good (hsmall : ∀ x ∈ meas, SmallOffset x) :
    ((sourceLockTr first meas adj).run d).u.time.good = d.u.time.good + meas.length := by
  rw [(sourceLockTr_changes first adj h).u, TimeSt.good_foldl_measured _ _ hsmall, TimeSt.firstStep]

theorem sourceLockTr_status (hsmall : ∀ x ∈ meas, SmallOffset x) (h16 : 16 ≤ d.u.time.good + meas.length) (hne : meas ≠ []) :
    let n := (sourceLockTr first meas adj).run d
    n.fld TIME_STATUS TIME_STATUS_LOCKED HD = 1 ∧ n.fld TIME_STATUS TIME_STATUS_VALID HD = 1 ∧
      n.fld TIME_STATUS TIME_STATUS_HOLDOVER HD = 0 := by
  have hadj := Tr.optAdj_changes (d.afterMeasures first meas) adj
  have hgood := sourceLockTr_good first adj h hsmall
  rw [sourceLockTr_run first adj h] at hgood ⊢
  rw [hadj.u] at hgood
  simp only [hadj.fld_eq (r := TIME_STATUS) (by decide)]
  exact d.afterMeasures_status first hne (hgood ▸ h16)

end Servo

/-! ## Loss of the source (R57, R62) -/

/-- The selected source has been silent for 2 s, or is an upstream port that is not up, and the package is not in holdover yet. -/
def Dev.LosesSource (d : Dev) : Prop :=
  d.fld TIME_CTL TIME_CTL_SRC HD ≠ 0 ∧ d.fld TIME_STATUS TIME_STATUS_HOLDOVER HD = 0 ∧
    (2 * oneSec ≤ d.elapsed - d.u.time.lastMeas ∨ d.fld TIME_CTL TIME_CTL_SRC HD = 3 ∧ d.upstreamUp = false)

/-- What the loss of the source does. -/
def Tr.holdover : Tr :=
  .seq [
    .fld TIME_STATUS TIME_STATUS_LOCKED HD 0, .fld TIME_STATUS TIME_STATUS_HOLDOVER HD 1,
    .fld TIME_STATUS TIME_STATUS_SRC_LOST HD 1, .time fun t => { t with good := 0 }, .alert 5]

theorem sourceLostTr_run (d : Dev) : ∃ b, (b = true ↔ d.LosesSource) ∧ sourceLostTr.run d = (Tr.when b .holdover).run d := by
  refine ⟨_, ?_, rfl⟩
  have hhold := Dev.flag_eq_false_iff (f := TIME_STATUS_HOLDOVER) rfl d TIME_STATUS HD 0 0
  simp only [Bool.and_eq_true, Bool.or_eq_true, Bool.not_eq_true', decide_eq_true_eq, hhold, Dev.LosesSource, and_assoc]

theorem sourceLostTr_run_lost {d : Dev} (h : d.LosesSource) : sourceLostTr.run d = Tr.holdover.run d := by
  obtain ⟨b, hb, hrun⟩ := sourceLostTr_run d
  rw [hrun, hb.mpr h, Tr.when_true]

theorem sourceLostTr_run_idle {d : Dev} (h : ¬ d.LosesSource) : sourceLostTr.run d = d := by
  obtain ⟨b, hb, hrun⟩ := sourceLostTr_run d
  rw [hrun, Bool.eq_false_iff.mpr (mt hb.mp h), Tr.when_false, Tr.run_skip]

theorem Tr.alert_run (bit : Nat) (d : Dev) : (Tr.alert bit).run d =
    (Tr.fld MGMT_ALERT MGMT_ALERT_CAUSE HD (putBits (d.fld MGMT_ALERT MGMT_ALERT_CAUSE HD) bit 1 1)).run d := rfl

theorem Tr.alert_changes (bit : Nat) (d : Dev) : d.Changes [MGMT_ALERT] d.u.time ((Tr.alert bit).run d) := by
  rw [Tr.alert_run]
  exact (Dev.Changes.refl _ d).fld (by simp) _ _

theorem Tr.alert_cause (bit : Nat) (hbit : bit < 6) (d : Dev) :
    (((Tr.alert bit).run d).fld MGMT_ALERT MGMT_ALERT_CAUSE HD).testBit bit = true := by
  rw [Tr.alert_run, MGMT_ALERT_onHD.fld_self (by decide), Nat.testBit_mod_two_pow, testBit_putBits]
  simp [MGMT_ALERT_CAUSE, hbit]

theorem Tr.holdover_changes (d : Dev) :
    d.Changes [TIME_STATUS, MGMT_ALERT] { d.u.time with good := 0 } (Tr.holdover.run d) := by
  have hstatus := ((((Dev.Changes.refl [TIME_STATUS, MGMT_ALERT] d).fld (r := TIME_STATUS) (by simp) TIME_STATUS_LOCKED 0).fld
    (r := TIME_STATUS) (by simp) TIME_STATUS_HOLDOVER 1).fld (r := TIME_STATUS) (by simp) TIME_STATUS_SRC_LOST 1).time
      fun t => { t with good := 0 }
  exact hstatus.andThen id (Tr.alert_changes 5 _) (by simp)

theorem Tr.holdover_status (d : Dev) :
    (Tr.holdover.run d).fld TIME_STATUS TIME_STATUS_LOCKED HD = 0 ∧ (Tr.holdover.run d).fld TIME_STATUS TIME_STATUS_HOLDOVER HD = 1 ∧
      (Tr.holdover.run d).fld TIME_STATUS TIME_STATUS_SRC_LOST HD = 1 ∧
      (Tr.holdover.run d).fld TIME_STATUS TIME_STATUS_VALID HD = d.fld TIME_STATUS TIME_STATUS_VALID HD := by
  have halert : ∀ (e : Dev) (f : Fld), ((Tr.alert 5).run e).fld TIME_STATUS f HD = e.fld TIME_STATUS f HD :=
    fun e f => (Tr.alert_changes 5 e).fld_eq (by decide) f
  simp (disch := decide) [Tr.holdover, halert, TIME_STATUS_onHD.fld_self, TIME_STATUS_onHD.fld_apart]

theorem Tr.holdover_alert (d : Dev) : ((Tr.holdover.run d).fld MGMT_ALERT MGMT_ALERT_CAUSE HD).testBit 5 = true := by
  simp [Tr.holdover, Tr.alert_cause]

/-! ## The captured second (R54) -/

theorem ppsInEdgeTr_run (d : Dev) : ppsInEdgeTr.run d = (Tr.fld TIME_PPS_CAPTURE_FRAC TIME_PPS_CAPTURE_FRAC_FRAC HD d.nowFrac).run
    ((Tr.reg TIME_PPS_CAPTURE HD (w64 d.nowNs)).run d) := rfl

theorem ppsInEdgeTr_changes (d : Dev) : d.Changes [TIME_PPS_CAPTURE, TIME_PPS_CAPTURE_FRAC] d.u.time (ppsInEdgeTr.run d) := by
  rw [ppsInEdgeTr_run]
  exact ((Dev.Changes.refl _ d).reg (by simp) _).fld (by simp) _ _

theorem ppsInEdgeTr_holds (d : Dev) : Holds (ppsInEdgeTr.run d) TIME_PPS_CAPTURE HD 0 0 d.nowNs := by
  rw [ppsInEdgeTr_run, Holds, Tr.fld_reg_ne _ _ _ _ _ _ _ _ _ _ _ (by decide)]
  exact Tr.reg_holds TIME_PPS_CAPTURE HD d.nowNs 0 0 d

theorem ppsInEdgeTr_frac (d : Dev) :
    (ppsInEdgeTr.run d).fld TIME_PPS_CAPTURE_FRAC TIME_PPS_CAPTURE_FRAC_FRAC HD = d.nowFrac := by
  rw [ppsInEdgeTr_run, TIME_PPS_CAPTURE_FRAC_onHD.fld_self (by decide)]
  exact Nat.mod_eq_of_lt d.nowFrac_lt

/-! ## Reference outputs (R52, R53) -/

theorem Tr.when_time_run (b : Bool) (f : TimeSt → TimeSt) (d : Dev) :
    (Tr.when b (.time f)).run d = (Tr.time fun t => if b then f t else t).run d := by cases b <;> rfl

theorem ppsOutTr_run (d : Dev) : ppsOutTr.run d = (Tr.time fun t =>
    if (d.flag TIME_CTL TIME_CTL_PPS_OUT_EN HD = true ∧ d.flag TIME_STATUS TIME_STATUS_VALID HD = true) ∧
      d.u.time.now % oneSec < d.tickLen then { t with ppsSecond := t.now / oneSec + 1 } else t).run d := by
  rw [ppsOutTr, Tr.run_read, Tr.when_time_run]
  simp only [Bool.and_eq_true, decide_eq_true_eq]

theorem ref10mOutTr_run (d : Dev) : ref10mOutTr.run d = (Tr.time fun t =>
    if (d.flag TIME_CTL TIME_CTL_REF10M_OUT_EN HD = true ∧ d.flag TIME_STATUS TIME_STATUS_VALID HD = true) ∧
      d.u.time.now % (100 * oneNs) < d.tickLen then { t with refCount := t.now / (100 * oneNs) + 1 } else t).run d := by
  rw [ref10mOutTr, Tr.run_read, Tr.when_time_run]
  simp only [Bool.and_eq_true, decide_eq_true_eq]

/-! ## PTP (R58, R59) -/

/-- A message of the configured domain and transport, where the management port's Ethernet is enabled. -/
def Dev.Hears (d : Dev) (m : PtpMsg) : Prop :=
  d.flag MGMT_ETH_CFG MGMT_ETH_CFG_EN HD = true ∧ m.domain.toNat = d.fld TIME_CTL TIME_CTL_PTP_DOMAIN HD ∧
    m.transport.toNat = d.fld TIME_CTL TIME_CTL_PTP_TRANSPORT HD

/-- The time unit of a package of role `role` after such a message. -/
def TimeSt.heard (t : TimeSt) (m : PtpMsg) (role : Nat) : TimeSt :=
  if m.kind = .delayReq then
    if role = 2 then { t with ptpStamp := t.now / 2 ^ 48, ptpSent := t.ptpSent ++ [(t.now / 2 ^ 48, t.now / 2 ^ 48)] } else t
  else if role ≠ 1 then t
  else if m.kind = .announce then
    { t with ptpStamp := t.now / 2 ^ 48, ptpMaster := some (min (t.ptpMaster.getD m.dataset.toNat) m.dataset.toNat) }
  else { t with ptpStamp := t.now / 2 ^ 48 }

theorem Dev.hears_iff (d : Dev) (m : PtpMsg) :
    (d.flag MGMT_ETH_CFG MGMT_ETH_CFG_EN HD && decide (m.domain.toNat = d.fld TIME_CTL TIME_CTL_PTP_DOMAIN HD) &&
      decide (m.transport.toNat = d.fld TIME_CTL TIME_CTL_PTP_TRANSPORT HD)) = true ↔ d.Hears m := by
  simp only [Bool.and_eq_true, decide_eq_true_eq, Dev.Hears, and_assoc]

theorem ptpMessageTr_run_other {m : PtpMsg} {d : Dev} (h : ¬ d.Hears m) : (ptpMessageTr m).run d = d := by
  rw [ptpMessageTr, Tr.run_read]
  rw [Bool.eq_false_iff.mpr (mt (d.hears_iff m).mp h), Tr.when_false, Tr.run_skip]

theorem ptpMessageTr_run_mine {m : PtpMsg} {d : Dev} (h : d.Hears m) : (ptpMessageTr m).run d =
    (Tr.time fun t => t.heard m (d.fld TIME_CTL TIME_CTL_PTP_ROLE HD)).run d := by
  rw [ptpMessageTr, Tr.run_read]
  rw [(d.hears_iff m).mpr h, Tr.when_true]
  cases hk : m.kind
  case delayReq =>
    by_cases hrole : d.fld TIME_CTL TIME_CTL_PTP_ROLE HD = 2 <;> simp [Tr.time_run, TimeSt.heard, Dev.stamp16, hk, hrole]
  all_goals
    by_cases hrole : d.fld TIME_CTL TIME_CTL_PTP_ROLE HD = 1 <;> simp [Tr.time_run, TimeSt.heard, Dev.stamp16, hk, hrole]

/-- Whether the package announces itself as grandmaster. -/
def Dev.Announces (d : Dev) : Prop :=
  d.flag MGMT_ETH_CFG MGMT_ETH_CFG_EN HD = true ∧ d.fld TIME_CTL TIME_CTL_PTP_ROLE HD = 2

section Announce
variable (cls acc prio1 prio2 : BitVec 8) {d : Dev}

theorem ptpAnnounceSendTr_run_other (h : ¬ d.Announces) : (ptpAnnounceSendTr cls acc prio1 prio2).run d = d := by
  have hb : (d.flag MGMT_ETH_CFG MGMT_ETH_CFG_EN HD && decide (d.fld TIME_CTL TIME_CTL_PTP_ROLE HD = 2)) = false := by
    simpa only [Dev.Announces, ← Bool.not_eq_true, Bool.and_eq_true, decide_eq_true_eq] using h
  rw [ptpAnnounceSendTr, Tr.run_read, hb, Tr.when_false, Tr.run_skip]

theorem ptpAnnounceSendTr_run (h : d.Announces) : (ptpAnnounceSendTr cls acc prio1 prio2).run d =
    (Tr.time fun t => { t with announced := t.announced ++
      [(t.now / 2 ^ 48, prio1.toNat * 2 ^ 24 + cls.toNat * 2 ^ 16 + acc.toNat * 2 ^ 8 + prio2.toNat)] }).run d := by
  obtain ⟨heth, hrole⟩ := h
  rw [ptpAnnounceSendTr, Tr.run_read, heth, hrole]
  rfl

end Announce

/-! ## The passing of time (log 7) -/

theorem tick_run_no_cells {d : Dev} (h : d.u.cells = []) : tick.run d =
    (Tr.time fun t => { t with now := t.now + d.tickLen, elapsed := t.elapsed + d.tickLen }).run d := by
  simp [tick, Tr.time, Tr.units, h]

theorem step_idle {s : State} (hpending : s.pending = []) (hcells : s.dev.u.cells = []) :
    step s = .next { s with dev := { s.dev with u := { s.dev.u with time :=
      { s.dev.u.time with now := s.dev.u.time.now + s.dev.tickLen, elapsed := s.dev.u.time.elapsed + s.dev.tickLen } } } } := by
  have hstep : step s = run tick s := by rw [step, hpending]
  rw [hstep, run_eq, tick_run_no_cells hcells, Tr.time_run]

/-! ## The commands -/

section Commands
variable (s : State)

theorem exec_timeNowRead : exec .timeNowRead s = .next { s with dev := (Tr.readTimeNow .answer).run s.dev } := rfl
theorem exec_timeSet (v : Word) : exec (.timeSet v) s = .next { s with dev := (timeSetTr v).run s.dev } := rfl
theorem exec_timeStep (v : Word) : exec (.timeStep v) s = .next { s with dev := (timeStepTr v).run s.dev } := rfl
theorem exec_timeRateWrite (v : Word) :
    exec (.timeRateWrite v) s = .next { s with dev := (Tr.setAdj (v.toNat % 2 ^ 40)).run s.dev } := rfl
theorem exec_timeCtlSrcChange (v : Word) :
    exec (.timeCtlSrcChange v) s = .next { s with dev := (timeCtlTr v).run s.dev } := rfl
theorem exec_sourceLock (first : BitVec 48) (meas : List (BitVec 48)) (adj : Option (BitVec 40)) :
    exec (.sourceLock first meas adj) s = .next { s with dev := (sourceLockTr first meas adj).run s.dev } := rfl
theorem exec_sourceLost : exec .sourceLost s = .next { s with dev := sourceLostTr.run s.dev } := rfl
theorem exec_ppsInEdge : exec .ppsInEdge s = .next { s with dev := ppsInEdgeTr.run s.dev } := rfl
theorem exec_ppsOut : exec .ppsOut s = .next { s with dev := ppsOutTr.run s.dev } := rfl
theorem exec_ref10mOut : exec .ref10mOut s = .next { s with dev := ref10mOutTr.run s.dev } := rfl
theorem exec_ptpMessage (m : PtpMsg) : exec (.ptpMessage m) s = .next { s with dev := (ptpMessageTr m).run s.dev } := rfl
theorem exec_ptpAnnounceSend (cls acc prio1 prio2 : BitVec 8) : exec (.ptpAnnounceSend cls acc prio1 prio2) s =
    .next { s with dev := (ptpAnnounceSendTr cls acc prio1 prio2).run s.dev } := rfl

end Commands

/-- Settles O55: each command runs its transformer. `Dev.Changes` says what the transformer leaves alone, and the lemma beside it
what it leaves in the fields that it writes. -/
theorem deviceTime : Obligations.DeviceTime := by
  intro s v first meas adj m cls acc prio1 prio2 t fld timeIs regsBut stays refused clamp small src role lost mine out
  have hclamp : ∀ x run, clamp x run = clampAdj run x := fun _ _ => rfl
  refine ⟨⟨_, exec_timeNowRead s, ?read⟩,
    fun hrun => ⟨⟨_, exec_timeSet s v, ?setRefused⟩, ⟨_, exec_timeStep s v, ?stepRefused⟩⟩,
    fun hstop => ⟨⟨_, exec_timeSet s v, ?set⟩, ⟨_, exec_timeStep s v, ?step⟩⟩,
    ⟨_, exec_timeRateWrite s v, ?rate⟩,
    ⟨_, exec_timeCtlSrcChange s v, ?ctl⟩,
    fun hno => ?idleSource, fun hmeas => ⟨_, exec_sourceLock s first meas adj, ?lock⟩,
    fun hkept => ?notLost, fun hsrc hhold hlost => ⟨_, exec_sourceLost s, ?sourceLost⟩,
    ⟨_, exec_ppsInEdge s, ?capture⟩,
    ⟨_, exec_ppsOut s, ?pps⟩, ⟨_, exec_ref10mOut s, ?ref10m⟩,
    fun hother => ?otherMessage, fun hmine => ⟨_, exec_ptpMessage s m, ?message⟩,
    ⟨fun hno => ?noAnnounce, fun hsends => ⟨_, exec_ptpAnnounceSend s cls acc prio1 prio2, ?announce⟩⟩,
    step_idle⟩
  case read =>
    have h := s.dev.latchedFrac_changes
    rw [Tr.readTimeNow_run, Tr.answer_run]
    exact ⟨rfl, h.mem, by rw [h.u], by rw [h.u]; rfl, h.get, s.dev.latchedFrac_frac⟩
  case setRefused =>
    have h := s.dev.stepRefused_changes
    rw [timeSetTr_run_refused v hrun]
    exact ⟨⟨rfl, h.mem, h.u⟩, h.get, s.dev.stepRefused_status⟩
  case stepRefused =>
    have h := s.dev.stepRefused_changes
    rw [timeStepTr_run_refused v hrun]
    exact ⟨⟨rfl, h.mem, h.u⟩, h.get, s.dev.stepRefused_status⟩
  case set =>
    have h := timeSetTr_changes v hstop
    have hvalid := timeSetTr_valid v hstop
    exact ⟨⟨rfl, h.mem, h.u⟩, h.get, hvalid⟩
  case step =>
    rw [timeStepTr_run v hstop]
    exact ⟨⟨rfl, rfl, rfl⟩, rfl⟩
  case rate =>
    have h := Tr.setAdj_changes (v.toNat % 2 ^ 40) s.dev
    have hadj := Tr.setAdj_adj (v.toNat % 2 ^ 40) s.dev
    exact ⟨⟨rfl, h.mem, h.u⟩, h.get, hadj.trans (hclamp _ _).symm⟩
  case ctl =>
    have hsrc := timeCtlTr_src v s.dev
    have hdomain := timeCtlTr_domain v s.dev
    have henable := timeCtlTr_ppsOutEn v s.dev
    by_cases hkept : s.dev.KeepsSource v
    · have h := timeCtlTr_changes_kept hkept
      have hwide := h.mono (qs := [TIME_CTL, TIME_STATUS]) (by simp)
      exact ⟨rfl, h.mem, hwide.get, ⟨hsrc, fun _ => ⟨h.u, h.get⟩, fun hnot => absurd hkept hnot⟩, hdomain, henable⟩
    · have h := timeCtlTr_changes hkept
      have hlocked := timeCtlTr_locked hkept
      have hholdover := timeCtlTr_holdover hkept
      exact ⟨rfl, h.mem, h.get, ⟨hsrc, fun hk => absurd hk hkept, fun _ => ⟨by rw [h.u], hlocked, hholdover⟩⟩, hdomain, henable⟩
  case idleSource => exact (exec_sourceLock s first meas adj).trans (by rw [sourceLockTr_run_idle first meas adj hno])
  case lock =>
    have h := sourceLockTr_changes first (meas := meas) adj hmeas
    refine ⟨rfl, h.mem, ?now, ?elapsed, fun x hx => sourceLockTr_holds first adj hmeas hx, ?adj,
      fun hsmall => ⟨sourceLockTr_good first adj hmeas hsmall, sourceLockTr_status first adj hmeas hsmall⟩,
      fun x hx hbig => ?reset, fun hfew => (sourceLockTr_changes_unlocked first adj hmeas hfew).get⟩
    case now => rw [h.u, TimeSt.now_foldl_measured, TimeSt.firstStep]
    case elapsed => rw [h.u, TimeSt.elapsed_foldl_measured, TimeSt.firstStep]
    case adj =>
      rintro a rfl
      have hadj := sourceLockTr_adj first (meas := meas) hmeas a
      exact hadj.trans (hclamp _ _).symm
    case reset => rw [h.u, TimeSt.good_foldl_measured_reset _ hx hbig]
  case notLost => exact (exec_sourceLost s).trans (by rw [sourceLostTr_run_idle hkept])
  case sourceLost =>
    have h := Tr.holdover_changes s.dev
    obtain ⟨hlocked, hholdover, hsrcLost, hvalid⟩ := Tr.holdover_status s.dev
    rw [sourceLostTr_run_lost ⟨hsrc, hhold, hlost⟩]
    exact ⟨⟨rfl, h.mem, h.u⟩, h.get, hlocked, hholdover, hsrcLost, hvalid, Tr.holdover_alert s.dev⟩
  case capture =>
    have h := ppsInEdgeTr_changes s.dev
    exact ⟨⟨rfl, h.mem, h.u⟩, h.get, ppsInEdgeTr_holds s.dev, ppsInEdgeTr_frac s.dev⟩
  case pps =>
    rw [ppsOutTr_run]
    exact ⟨rfl, rfl, rfl, rfl⟩
  case ref10m =>
    rw [ref10mOutTr_run]
    exact ⟨rfl, rfl, rfl, rfl⟩
  case otherMessage => exact (exec_ptpMessage s m).trans (by rw [ptpMessageTr_run_other hother])
  case message =>
    rw [ptpMessageTr_run_mine hmine]
    exact ⟨rfl, rfl, rfl, rfl⟩
  case noAnnounce => exact (exec_ptpAnnounceSend s ..).trans (by rw [ptpAnnounceSendTr_run_other _ _ _ _ hno])
  case announce =>
    rw [ptpAnnounceSendTr_run _ _ _ _ hsends]
    exact ⟨rfl, rfl, rfl, rfl⟩

end Sys2Proof.Machine
end

section
/-! PROOFS. The scalar class (R127): that the model's arithmetic on numbers is the words' own, modulo 2^64, what an instruction
that sets s[RD] does where it issues, and obligation O1. -/

namespace Sys2Proof.Machine

open Sys2Proof.Safety

/-! ## Two's complement -/

theorem unsigned_toInt (w : Nat) (x : BitVec w) : unsigned w x.toInt = x.toNat := by
  rw [unsigned, ← BitVec.toNat_ofInt, BitVec.ofInt_toInt]

/-- An arithmetic shift to the right divides the signed value, rounding down. -/
theorem unsigned_signed_div (w k : Nat) (x : BitVec w) :
    unsigned w (signed w x.toNat / ((2 ^ k : Nat) : Int)) = (x.sshiftRight k).toNat := by
  rw [signed_toNat, ← unsigned_toInt, BitVec.toInt_sshiftRight, Int.shiftRight_eq_div_pow]

/-! ## The operations on words -/

/-- Operation `f` on numbers is operation `g` on words, modulo 2^64 (R127). -/
def Computes (f : Nat → Nat → Nat) (g : Word → Word → Word) : Prop :=
  ∀ a b : Word, f a.toNat b.toNat % 2 ^ 64 = (g a b).toNat

/-- An operation whose results are words already needs no reduction. -/
theorem Computes.of_eq {f : Nat → Nat → Nat} {g : Word → Word → Word} (h : ∀ a b : Word, f a.toNat b.toNat = (g a b).toNat) :
    Computes f g := fun a b => by rw [h, Nat.mod_eq_of_lt (g a b).isLt]

theorem computes_add : Computes (fun a b => a + b) (fun a b => a + b) := fun a b => (BitVec.toNat_add a b).symm

theorem computes_sub : Computes (fun a b => a + 2 ^ 64 - b) (fun a b => a - b) := fun a b => by
  have hb : b.toNat < 2 ^ 64 := b.isLt
  rw [BitVec.toNat_sub, Nat.add_comm (2 ^ 64 - _), ← Nat.add_sub_assoc hb.le]

theorem computes_and : Computes (fun a b => a &&& b) (fun a b => a &&& b) := .of_eq fun a b => (BitVec.toNat_and a b).symm
theorem computes_or : Computes (fun a b => a ||| b) (fun a b => a ||| b) := .of_eq fun a b => (BitVec.toNat_or a b).symm
theorem computes_xor : Computes (fun a b => a ^^^ b) (fun a b => a ^^^ b) := .of_eq fun a b => (BitVec.toNat_xor a b).symm

theorem computes_shl : Computes (fun a b => a <<< (b % 64)) (fun a b => a <<< (b.toNat % 64)) := fun _ _ =>
  BitVec.toNat_shiftLeft.symm
theorem computes_shr : Computes (fun a b => a >>> (b % 64)) (fun a b => a >>> (b.toNat % 64)) := .of_eq fun a b =>
  (BitVec.toNat_ushiftRight a (b.toNat % 64)).symm
theorem computes_sra : Computes (fun a b => unsigned 64 (signed 64 a / ((2 ^ (b % 64) : Nat) : Int)))
    (fun a b => a.sshiftRight (b.toNat % 64)) := .of_eq fun a b => unsigned_signed_div 64 (b.toNat % 64) a

theorem computes_mul : Computes (fun a b => a * b) (fun a b => a * b) := fun a b => (BitVec.toNat_mul a b).symm

/-- The product of two words fits 128 bits, and its high half fits 64. -/
theorem computes_mulhu : Computes (fun a b => a * b / 2 ^ 64)
    (fun a b => (a.setWidth 128 * b.setWidth 128) >>> 64 |>.setWidth 64) := fun a b => by
  have hwide : ∀ x : Word, (x.setWidth 128).toNat = x.toNat := fun x =>
    (BitVec.toNat_setWidth 128 x).trans (Nat.mod_eq_of_lt (x.isLt.trans (by decide)))
  have hprod : a.toNat * b.toNat < 2 ^ 128 := calc
    a.toNat * b.toNat < 2 ^ 64 * 2 ^ 64 := Nat.mul_lt_mul'' a.isLt b.isLt
    _ = 2 ^ 128 := by norm_num
  rw [BitVec.toNat_setWidth, BitVec.toNat_ushiftRight, BitVec.toNat_mul, hwide, hwide, Nat.mod_eq_of_lt hprod,
    Nat.shiftRight_eq_div_pow]

/-- A choice by the signed order, where it does not matter which of two equal words is called the less. -/
theorem ite_signed_le {α : Type} {a b : Word} {x y : α} (heq : a = b → x = y) :
    (if signed 64 a.toNat ≤ signed 64 b.toNat then x else y) = if a.slt b then x else y := by
  simp only [signed_toNat, BitVec.slt_iff_toInt_lt]
  rcases lt_trichotomy a.toInt b.toInt with h | h | h
  · rw [if_pos h.le, if_pos h]
  · rw [heq (BitVec.eq_of_toInt_eq h), ite_self, ite_self]
  · rw [if_neg h.not_ge, if_neg h.asymm]

theorem computes_min : Computes (fun a b => if signed 64 a ≤ signed 64 b then a else b)
    (fun a b => if a.slt b then a else b) := .of_eq fun a b =>
  (ite_signed_le (congrArg BitVec.toNat)).trans (apply_ite BitVec.toNat _ a b).symm
theorem computes_max : Computes (fun a b => if signed 64 a ≤ signed 64 b then b else a)
    (fun a b => if a.slt b then b else a) := .of_eq fun a b =>
  (ite_signed_le fun h => (congrArg BitVec.toNat h).symm).trans (apply_ite BitVec.toNat _ b a).symm

theorem computes_minu : Computes (fun a b => min a b) (fun a b => if a.ult b then a else b) := .of_eq fun a b => by
  simp only [BitVec.ult_iff_toNat_lt, apply_ite BitVec.toNat]
  split <;> omega
theorem computes_maxu : Computes (fun a b => max a b) (fun a b => if a.ult b then b else a) := .of_eq fun a b => by
  simp only [BitVec.ult_iff_toNat_lt, apply_ite BitVec.toNat]
  split <;> omega

/-! ## Instructions that set s[RD] -/

section Writes
variable {s : State} {c : PCell} {t : Tid} {w : Word128} {cls op used pk : Nat} {i : Instr} {v : Word}

/-- An instruction whose meaning is s[RD] := m writes the word that `m` is modulo 2^64. -/
theorem exec_writesScalar {m : Ctx → Nat}
    (hi : exec i s = run (onWord cls op w (issue c t w used fun x => x.nextWith fun th => th.setS x.rd (m x))) s)
    (h : Issues s.dev c t w cls op used pk) (hm : m (ctxOf s.dev c t w pk) % 2 ^ 64 = v.toNat) :
    ∃ n, exec i s = .next n ∧ WritesScalar cls pk t.val (field w 16 5) v s n := by
  rw [hi, onWord_run h, run_eq, issue_run h, ctx_rd]
  exact ⟨_, rfl, writesScalar_of s cls pk t.val _ v _ hm⟩

/-- A scalar operation with two sources writes its result on words. -/
theorem exec_scalarOp {f : Nat → Nat → Nat} {g : Word → Word → Word} (hfg : Computes f g)
    (hi : exec i s = run (onWord 1 op w (scalarOp f c t w)) s)
    (hv : g (srcA (s.dev.threadAt pk t.val) w) (srcB (s.dev.threadAt pk t.val) w) = v)
    (h : Issues s.dev c t w 1 op aluUsed pk) :
    ∃ n, exec i s = .next n ∧ WritesScalar 1 pk t.val (field w 16 5) v s n :=
  exec_writesScalar hi h (by rw [ctx_rs1, ctx_operand, ← hv]; exact hfg _ _)

end Writes

/-- Settles O1: each of the fourteen operations with two sources computes on words what R127 says (`Computes`), and an instruction
that sets s[RD] changes nothing else (`exec_writesScalar`). -/
theorem scalarOperations : Obligations.ScalarOperations := by
  intro s c t w pk th a b done
  refine ⟨
    exec_scalarOp computes_add rfl rfl, exec_scalarOp computes_sub rfl rfl, exec_scalarOp computes_and rfl rfl,
    exec_scalarOp computes_or rfl rfl, exec_scalarOp computes_xor rfl rfl, exec_scalarOp computes_shl rfl rfl,
    exec_scalarOp computes_shr rfl rfl, exec_scalarOp computes_sra rfl rfl, exec_scalarOp computes_mul rfl rfl,
    exec_scalarOp computes_mulhu rfl rfl, exec_scalarOp computes_min rfl rfl, exec_scalarOp computes_max rfl rfl,
    exec_scalarOp computes_minu rfl rfl, exec_scalarOp computes_maxu rfl rfl,
    fun h => exec_writesScalar rfl h ?imm, fun h => exec_writesScalar rfl h ?selected⟩
  case imm =>
    rw [ctx_imm]
    exact Nat.mod_eq_of_lt (w.extractLsb' 64 64).isLt
  case selected =>
    rw [ctx_f, ctx_rs1, Ctx.rs2, ctx_s, ← sword_toNat, srcA, ← apply_ite BitVec.toNat]
    exact Nat.mod_eq_of_lt (BitVec.isLt _)

end Sys2Proof.Machine
end

section
/-! PROOFS. Resets of dies and the package's states (R10, R635 to R637, R657 to R660, R663, R673, R678): reset values have no
reserved bit, what a transformer changes among registers and units, what entering Night and Dawn leaves, and obligation O50. -/

namespace Sys2Proof.Machine

open Sys2Proof.Safety

/-! ## Reset values (R9, R10) -/

/-- A register with reset bits that its field table does not give. -/
def Reg.hasInit (r : Reg) : Bool :=
  [BOOT_CAP_SELF_LO.base, BOOT_CAP_SELF_HI.base, ARB_CLASS.base, ARB_STATUS.base].contains r.base

theorem regBlocks_hasInit : (regBlocks.flatMap fun b => b.regs.filter Reg.hasInit) =
    [BOOT_CAP_SELF_LO, BOOT_CAP_SELF_HI, ARB_CLASS, ARB_STATUS] := rfl

theorem regBlocks_init : (regBlocks.map fun b => b.regs.map fun r => if r.hasInit then fun _ _ _ => 0 else r.init) =
    regBlocks.map fun b => b.regs.map fun _ _ _ _ => 0 := rfl

/-- No reset value of `r` has a reserved bit. -/
def Reg.ResetDefined (r : Reg) : Prop := ∀ die i j, w64 (r.resetVal die i j) &&& w64 r.mask = w64 (r.resetVal die i j)

/-- The reset bits that the fields of a register give. -/
def Reg.fieldReset (r : Reg) : Nat := r.fields.foldl (fun m f => m + f.reset * 2 ^ f.lo) 0

theorem regBlocks_fieldReset : ∀ b ∈ regBlocks, ∀ r ∈ b.regs, w64 r.fieldReset &&& w64 r.mask = w64 r.fieldReset := by
  decide +kernel

theorem BOOT_CAP_SELF_LO_resetDefined : BOOT_CAP_SELF_LO.ResetDefined := fun _ _ _ => BitVec.and_allOnes
theorem BOOT_CAP_SELF_HI_resetDefined : BOOT_CAP_SELF_HI.ResetDefined := fun _ _ _ => BitVec.and_allOnes

theorem getD_lt {l : List Nat} {n : Nat} (h : ∀ x ∈ l, x < n) (hn : 0 < n) (i : Nat) : l.getD i 0 < n := by
  rw [List.getD_eq_getElem?_getD]
  cases hi : l[i]? with
  | none => exact hn
  | some x => exact h x (List.mem_of_getElem? hi)

theorem arbEgressClass_lt (r : Nat) : arbEgressClass r < 4 := getD_lt (by decide) (by decide) r

theorem arbResetClass_lt (die i r : Nat) : arbResetClass die i r < 4 := by
  have hmod : r % 4 < 4 := Nat.mod_lt _ (by decide)
  have hegress := arbEgressClass_lt r
  unfold arbResetClass
  split_ifs
  · exact hmod
  · exact getD_lt (by decide) (by decide) r
  · exact hmod
  · exact hegress
  · exact hmod
  · exact getD_lt (by decide) (by decide) r
  · exact hegress
  · decide
  · decide
  · decide
  · exact hegress

theorem arbRequesters_lt (die i : Nat) : arbRequesters die i < 25 := by
  unfold arbRequesters
  split_ifs <;> decide

theorem ARB_CLASS_resetDefined : ARB_CLASS.ResetDefined := fun die i j =>
  (by decide : ∀ n < 4, w64 (n + 0 * 2 ^ 0) &&& w64 ARB_CLASS.mask = w64 (n + 0 * 2 ^ 0)) _ (arbResetClass_lt die i j)

theorem ARB_STATUS_resetDefined : ARB_STATUS.ResetDefined := fun die i _ =>
  (by decide : ∀ n < 25, w64 n &&& w64 ARB_STATUS.mask = w64 n) _ (arbRequesters_lt die i)

theorem regBlocks_resetDefined {b : RegBlock} (hb : b ∈ regBlocks) {r : Reg} (hr : r ∈ b.regs) : r.ResetDefined := by
  cases hinit : r.hasInit with
  | false =>
    have hzero := List.map_inj_left.mp (List.map_inj_left.mp regBlocks_init b hb) r hr
    rw [hinit] at hzero
    intro die i j
    have hval : r.resetVal die i j = r.fieldReset := by
      have hz : r.init die i j = 0 := congrFun (congrFun (congrFun hzero die) i) j
      rw [Reg.resetVal, hz, Reg.fieldReset]
    rw [hval, regBlocks_fieldReset b hb r hr]
  | true =>
    have hmem : r ∈ regBlocks.flatMap fun b => b.regs.filter Reg.hasInit :=
      List.mem_flatMap.mpr ⟨b, hb, List.mem_filter.mpr ⟨hr, hinit⟩⟩
    rw [regBlocks_hasInit] at hmem
    simp only [List.mem_cons, List.not_mem_nil, or_false] at hmem
    rcases hmem with rfl | rfl | rfl | rfl
    · exact BOOT_CAP_SELF_LO_resetDefined
    · exact BOOT_CAP_SELF_HI_resetDefined
    · exact ARB_CLASS_resetDefined
    · exact ARB_STATUS_resetDefined

/-- A reset value has no reserved bit. -/
theorem resetOf_and_maskOf (k : Nat) : resetOf k &&& maskOf k = resetOf k := by
  unfold resetOf maskOf
  cases h : findReg (k / 2 ^ 24) (k % 2 ^ 24) with
  | none => exact BitVec.zero_and
  | some x =>
    obtain ⟨r, i, j⟩ := x
    obtain ⟨b, hb, hr⟩ := findBlock_some h
    exact regBlocks_resetDefined hb (findIn_some hr).1 _ i j

theorem tget_of_not_mem {β : Type} (dflt : Nat → β) (t : List (Nat × β)) (k : Nat) (h : k ∉ t.map Prod.fst) :
    tget dflt t k = dflt k := by
  induction t with
  | nil => rfl
  | cons e t ih =>
    simp only [List.map_cons, List.mem_cons, not_or] at h
    obtain ⟨hne, ht⟩ := h
    rw [tget, if_neg (Ne.symm hne), ih ht]

/-! ## What a transformer changes -/

/-- From `d` to `n` memory is as it was, the units became `u`, and no register changed but those whose keys are in `K`. -/
structure Dev.Alters (K : Nat → Prop) (u : Units) (d n : Dev) : Prop where
  mem : n.mem = d.mem
  u : n.u = u
  get : ∀ k, ¬ K k → n.get k = d.get k

namespace Dev.Alters
variable {K : Nat → Prop} {u v : Units} {d n m : Dev}

theorem refl (K : Nat → Prop) (d : Dev) : Alters K d.u d d := ⟨rfl, rfl, fun _ _ => rfl⟩

theorem trans (h : Alters K u d n) (g : Alters K v n m) : Alters K v d m :=
  ⟨g.mem.trans h.mem, g.u, fun k hk => (g.get k hk).trans (h.get k hk)⟩

theorem mono {L : Nat → Prop} (h : Alters K u d n) (hsub : ∀ k, K k → L k) : Alters L u d n :=
  ⟨h.mem, h.u, fun k hk => h.get k (mt (hsub k) hk)⟩

theorem setKey (h : Alters K u d n) {k : Nat} (hk : K k) (w : Word) : Alters K u d ((Tr.setKey k w).run n) where
  mem := by rw [Tr.setKey_mem, h.mem]
  u := by rw [Tr.setKey_u, h.u]
  get j hj := by
    have hne : j ≠ k := fun e => hj (e ▸ hk)
    rw [Tr.setKey_get_ne _ _ _ _ hne, h.get j hj]

theorem reg (h : Alters K u d n) {r : Reg} {die i j : Nat} (hk : K (r.key die i j)) (w : Word) :
    Alters K u d ((Tr.reg r die w i j).run n) := by
  rw [Tr.reg_eq]
  exact h.setKey hk w

theorem fld (h : Alters K u d n) {r : Reg} {die i j : Nat} (hk : K (r.key die i j)) (f : Fld) (x : Nat) :
    Alters K u d ((Tr.fld r f die x i j).run n) := by
  rw [Tr.fld_run]
  exact h.setKey hk _

theorem hdFld (h : Alters K u d n) (r : Reg) (f : Fld) (x : Nat) (hk : K (r.key HD 0 0)) :
    Alters K u d ((Tr.fld r f HD x).run n) := h.fld hk f x

theorem units (h : Alters K u d n) (f : Units → Units) : Alters K (f u) d ((Tr.units f).run n) where
  mem := h.mem
  u := congrArg f h.u
  get := h.get

theorem boot (h : Alters K u d n) (f : BootSt → BootSt) : Alters K { u with boot := f u.boot } d ((Tr.boot f).run n) :=
  h.units fun u => { u with boot := f u.boot }

theorem alert (h : Alters K u d n) (hk : K (MGMT_ALERT.key HD 0 0)) (bit : Nat) : Alters K u d ((Tr.alert bit).run n) := by
  rw [Tr.alert_run]
  exact h.fld hk _ _

theorem fld_eq (h : Alters K u d n) {r : Reg} {die i j : Nat} (hk : ¬ K (r.key die i j)) (f : Fld) :
    n.fld r f die i j = d.fld r f die i j := congrArg f.get (h.get _ hk)

end Dev.Alters

/-! ## Resetting every die (R10, R637) -/

theorem Tr.each_setKey_reset_get (l : List Nat) (k : Nat) (d : Dev) :
    ((Tr.each l fun k => .setKey k (resetOf k)).run d).get k = if k ∈ l then resetOf k else d.get k := by
  induction l generalizing d with
  | nil => simp
  | cons a l ih =>
    rw [Tr.each_cons, Tr.run_andThen, ih]
    by_cases hl : k ∈ l
    · simp [hl]
    · by_cases ha : k = a
      · subst ha
        simp [hl, resetOf_and_maskOf]
      · simp [hl, ha, Tr.setKey_get_ne _ _ _ _ ha]

/-- Every register reads its reset value once all are reset, in a register file in any order. -/
theorem Tr.resetRegs_get (k : Nat) (d : Dev) : ((Tr.resetRegs fun _ => true).run d).get k = resetOf k := by
  have hkeys : (d.regs.filterMap fun e => if (fun _ => true) e.1 then some e.1 else none) = d.regs.map Prod.fst := by
    simp [List.filterMap_eq_map']
  rw [Tr.resetRegs, Tr.run_read, hkeys, Tr.each_setKey_reset_get]
  split
  · rfl
  · next h => exact tget_of_not_mem resetOf d.regs k h

theorem Tr.resetRegs_mem (d : Dev) : ((Tr.resetRegs fun _ => true).run d).mem = d.mem :=
  each_inv _ Dev.mem (fun _ _ => rfl) _ d

theorem Tr.resetRegs_u (d : Dev) : ((Tr.resetRegs fun _ => true).run d).u = d.u :=
  each_inv _ Dev.u (fun _ _ => rfl) _ d

/-- No command is under way, nothing but what was sent is left of the fabric, READY is low, no lease is held, and every thread is idle. -/
def Units.Idle (u : Units) : Prop :=
  u.cmd.cmds = [] ∧ u.fab = { tx := u.fab.tx } ∧ u.boot.ready = false ∧ u.boot.lease = 0 ∧
    ∀ pk t, pk < 672 → ((agetD u.cells pk {}).thread t).st = .idle

theorem agetD_map_self {β : Type} (f : Nat → β) (l : List Nat) {k : Nat} (hk : k ∈ l) (x : β) :
    agetD (l.map fun a => (a, f a)) k x = f k := by
  induction l with
  | nil => cases hk
  | cons a l ih =>
    by_cases ha : a = k
    · simp [agetD, aget?, ha]
    · have htail : k ∈ l := (List.mem_cons.mp hk).resolve_left (Ne.symm ha)
      rw [← ih htail]
      simp [agetD, aget?, ha]

/-- A cell whose contents are undefined from epoch `e` on. -/
def CellSt.afterReset (e : Nat) : CellSt := { spad := { epoch := e }, tiles := { epoch := e }, acc := { epoch := e } }

theorem Units.afterReset_cells (u : Units) (e : Nat) :
    (u.afterReset e).cells = (List.range 672).map fun pk => (pk, CellSt.afterReset e) := by
  simp only [Units.afterReset, CellSt.afterReset]

theorem Units.afterReset_idle (u : Units) (e : Nat) : (u.afterReset e).Idle := by
  refine ⟨rfl, rfl, rfl, rfl, fun pk t hpk => ?_⟩
  rw [Units.afterReset_cells, agetD_map_self (fun _ => CellSt.afterReset e) _ (List.mem_range.mpr hpk)]
  rfl

theorem Units.Idle.withBoot {u : Units} {b : BootSt} (h : u.Idle) (hready : b.ready = false) (hlease : b.lease = 0) :
    { u with boot := b }.Idle := by
  obtain ⟨hcmds, hfab, -, -, hthreads⟩ := h
  exact ⟨hcmds, hfab, hready, hlease, hthreads⟩

/-- The device with every die reset. -/
def Dev.afterReset (d : Dev) : Dev := Tr.resetDies.run d

theorem Dev.afterReset_mem (d : Dev) : d.afterReset.mem = d.mem := Tr.resetRegs_mem d
theorem Dev.afterReset_get (d : Dev) (k : Nat) : d.afterReset.get k = resetOf k := Tr.resetRegs_get k d
theorem Dev.afterReset_u (d : Dev) : d.afterReset.u = { d.u with epoch := d.u.epoch + 1 }.afterReset d.u.epoch := by
  have h := Tr.resetRegs_u d
  have hrun : d.afterReset.u = { ((Tr.resetRegs fun _ => true).run d).u with
      epoch := ((Tr.resetRegs fun _ => true).run d).u.epoch + 1 }.afterReset ((Tr.resetRegs fun _ => true).run d).u.epoch := rfl
  rw [hrun, h]

theorem Dev.afterReset_idle (d : Dev) : d.afterReset.u.Idle := by
  rw [d.afterReset_u]
  exact Units.afterReset_idle _ _

theorem Dev.afterReset_fld (d : Dev) (r : Reg) (f : Fld) (die i j : Nat) :
    d.afterReset.fld r f die i j = f.get (resetOf (r.key die i j)) := congrArg f.get (d.afterReset_get _)

/-! ## Entering Night and Dawn (R635 to R637) -/

@[simp] theorem Tr.boot_fld (f : BootSt → BootSt) (r : Reg) (g : Fld) (die i j : Nat) (d : Dev) :
    ((Tr.boot f).run d).fld r g die i j = d.fld r g die i j := rfl

theorem PWR_STATE_onHD : PWR_STATE.OnHD := ⟨rfl, by decide⟩
theorem BEAT_CTL_onHD : BEAT_CTL.OnHD := ⟨rfl, by decide⟩

/-- Registers but those with keys in `K` were reset, and so were the units. -/
structure Dev.ResetBut (K : Nat → Prop) (n : Dev) : Prop where
  idle : n.u.Idle
  get : ∀ k, ¬ K k → n.get k = resetOf k

/-- `n` is the package in Night: every die was reset but for PWR_STATE, and FAULT_N is low. -/
structure Dev.Night (n : Dev) : Prop extends n.ResetBut (· = PWR_STATE.key HD 0 0) where
  state : n.state = 0
  fault : n.u.boot.fault = true

/-- `n` is the package that has just entered Dawn with a cause: every die was reset but for PWR_STATE and what else is in `K`. -/
structure Dev.Dawn (K : Nat → Prop) (cause : Nat) (n : Dev) : Prop extends n.ResetBut K where
  state : n.state = 1
  phase : n.phase = 0
  lastCause : n.fld PWR_STATE PWR_STATE_LAST_CAUSE HD = cause

/-- What boot keeps of itself through a reset of every die. -/
def BootSt.kept (b : BootSt) : BootSt :=
  { refclkBad := b.refclkBad, pwrGood := b.pwrGood, resetN := b.resetN, pufBad := b.pufBad, ethTx := b.ethTx }

theorem Dev.afterReset_boot (d : Dev) : d.afterReset.u.boot = d.u.boot.kept := congrArg Units.boot d.afterReset_u

theorem Tr.enterNight_run (d : Dev) : Tr.enterNight.run d =
    (Tr.boot fun b => { b with fault := true }).run ((Tr.fld PWR_STATE PWR_STATE_STATE HD 0).run d.afterReset) := rfl

theorem Tr.enterNight_alters (d : Dev) : d.afterReset.Alters (· = PWR_STATE.key HD 0 0)
    { d.afterReset.u with boot := { d.u.boot.kept with fault := true } } (Tr.enterNight.run d) := by
  rw [← d.afterReset_boot, Tr.enterNight_run]
  exact ((Dev.Alters.refl (· = PWR_STATE.key HD 0 0) d.afterReset).hdFld PWR_STATE PWR_STATE_STATE 0 rfl).boot fun b => { b with fault := true }

theorem Tr.enterNight_mem (d : Dev) : (Tr.enterNight.run d).mem = d.mem := (Tr.enterNight_alters d).mem.trans d.afterReset_mem

theorem Tr.enterNight_boot (d : Dev) : (Tr.enterNight.run d).u.boot = { d.u.boot.kept with fault := true } :=
  congrArg Units.boot (Tr.enterNight_alters d).u

theorem Tr.enterNight_night (d : Dev) : (Tr.enterNight.run d).Night where
  idle := by
    rw [(Tr.enterNight_alters d).u]
    exact d.afterReset_idle.withBoot rfl rfl
  get k hk := ((Tr.enterNight_alters d).get k hk).trans (d.afterReset_get k)
  state := by
    rw [Dev.state, Tr.enterNight_run, Tr.boot_fld, PWR_STATE_onHD.fld_self (by decide), Nat.zero_mod]
  fault := by rw [Tr.enterNight_boot]

theorem Tr.enterDawn_run (cause : Nat) (d : Dev) :
    (Tr.enterDawn cause).run d = (Tr.fld PWR_STATE PWR_STATE_LAST_CAUSE HD cause).run d.afterReset := rfl

theorem Tr.enterDawn_alters (cause : Nat) (d : Dev) :
    d.afterReset.Alters (· = PWR_STATE.key HD 0 0) d.afterReset.u ((Tr.enterDawn cause).run d) := by
  rw [Tr.enterDawn_run]
  exact (Dev.Alters.refl (· = PWR_STATE.key HD 0 0) d.afterReset).hdFld PWR_STATE PWR_STATE_LAST_CAUSE cause rfl

theorem Tr.enterDawn_mem (cause : Nat) (d : Dev) : ((Tr.enterDawn cause).run d).mem = d.mem :=
  (Tr.enterDawn_alters cause d).mem.trans d.afterReset_mem

theorem Tr.enterDawn_boot (cause : Nat) (d : Dev) : ((Tr.enterDawn cause).run d).u.boot = d.u.boot.kept :=
  (congrArg Units.boot (Tr.enterDawn_alters cause d).u).trans d.afterReset_boot

theorem Tr.enterDawn_dawn {cause : Nat} (hcause : cause < 256) (d : Dev) :
    ((Tr.enterDawn cause).run d).Dawn (· = PWR_STATE.key HD 0 0) cause where
  idle := by
    rw [(Tr.enterDawn_alters cause d).u]
    exact d.afterReset_idle
  get k hk := ((Tr.enterDawn_alters cause d).get k hk).trans (d.afterReset_get k)
  state := by
    rw [Dev.state, Tr.enterDawn_run, PWR_STATE_onHD.fld_apart (by decide) (by decide) (by decide), Dev.afterReset_fld]
    rfl
  phase := by
    rw [Dev.phase, (Tr.enterDawn_alters cause d).fld_eq (by decide), Dev.afterReset_fld]
    rfl
  lastCause := by
    rw [Tr.enterDawn_run, PWR_STATE_onHD.fld_self (by decide)]
    exact Nat.mod_eq_of_lt hcause

/-! ## Into Night and out of it (R636, R673, R678) -/

theorem Tr.boot_run (f : BootSt → BootSt) (d : Dev) : (Tr.boot f).run d = { d with u := { d.u with boot := f d.u.boot } } := rfl

theorem pwrgoodDeassertTr_run (d : Dev) : pwrgoodDeassertTr.run d =
    Tr.enterNight.run ((Tr.boot fun b => { b with pwrGood := false }).run d) := rfl

theorem resetNAssertTr_run (d : Dev) : resetNAssertTr.run d =
    Tr.enterNight.run ((Tr.boot fun b => { b with resetN := true }).run d) := rfl

theorem pwrgoodDeassertTr_night (d : Dev) : (pwrgoodDeassertTr.run d).Night := Tr.enterNight_night _

theorem pwrgoodDeassertTr_mem (d : Dev) : (pwrgoodDeassertTr.run d).mem = d.mem := Tr.enterNight_mem _

theorem pwrgoodDeassertTr_boot (d : Dev) :
    (pwrgoodDeassertTr.run d).u.boot = { d.u.boot.kept with pwrGood := false, fault := true } := Tr.enterNight_boot _

theorem resetNAssertTr_night (d : Dev) : (resetNAssertTr.run d).Night := Tr.enterNight_night _

theorem resetNAssertTr_mem (d : Dev) : (resetNAssertTr.run d).mem = d.mem := Tr.enterNight_mem _

theorem resetNAssertTr_boot (d : Dev) :
    (resetNAssertTr.run d).u.boot = { d.u.boot.kept with resetN := true, fault := true } := Tr.enterNight_boot _

theorem Dev.inPhase_iff (d : Dev) (p : Nat) : d.inPhase p = true ↔ d.state = 1 ∧ d.phase = p := by
  simp [Dev.inPhase]

theorem refclkFaultTr_run_night (romEnd : Bool) {d : Dev} (h : d.state = 0) : (refclkFaultTr romEnd).run d = d := by
  rw [refclkFaultTr, Tr.run_read, if_pos h, Tr.run_skip]

theorem refclkFaultTr_run_lost {d : Dev} (h : d.state ≠ 0) : (refclkFaultTr false).run d = pwrgoodDeassertTr.run d := by
  rw [refclkFaultTr, Tr.run_read, if_neg h, if_neg Bool.false_ne_true]

theorem refclkFaultTr_run_rom {d : Dev} (h : d.inPhase 0 = true) : (refclkFaultTr true).run d =
    (Tr.boot fun b => { b with refclkBad := true, fault := true }).run d := by
  have hdawn : d.state ≠ 0 := by rw [((d.inPhase_iff 0).mp h).1]; decide
  rw [refclkFaultTr, Tr.run_read, if_neg hdawn, if_pos rfl, h, Tr.when_true]

theorem refclkRestoredTr_run {d : Dev} (h : d.inPhase 0 = true) (hbad : d.u.boot.refclkBad = true) : refclkRestoredTr.run d =
    (Tr.boot fun b => { b with refclkBad := false, fault := false }).run d := by
  rw [refclkRestoredTr, Tr.run_read, h, hbad, Bool.and_self, Tr.when_true]

theorem nightExitTr_run {d : Dev} (auxOff : Bool) (h : d.state = 0) : (nightExitTr auxOff).run d = (Tr.enterDawn 1).run
    ((Tr.boot fun b => { b with pwrGood := true, resetN := false, pufBad := !auxOff, refclkBad := false }).run d) := by
  rw [nightExitTr, Tr.run_read, decide_eq_true h, Tr.when_true]
  rfl

theorem nightExitTr_dawn {d : Dev} (auxOff : Bool) (h : d.state = 0) :
    ((nightExitTr auxOff).run d).Dawn (· = PWR_STATE.key HD 0 0) 1 := by
  rw [nightExitTr_run auxOff h]
  exact Tr.enterDawn_dawn (by decide) _

theorem nightExitTr_mem {d : Dev} (auxOff : Bool) (h : d.state = 0) : ((nightExitTr auxOff).run d).mem = d.mem := by
  rw [nightExitTr_run auxOff h, Tr.enterDawn_mem, Tr.boot_run]

theorem nightExitTr_boot {d : Dev} (auxOff : Bool) (h : d.state = 0) : ((nightExitTr auxOff).run d).u.boot =
    { d.u.boot.kept with pwrGood := true, resetN := false, pufBad := !auxOff, refclkBad := false } := by
  rw [nightExitTr_run auxOff h, Tr.enterDawn_boot]
  rfl

theorem nightExitTr_run_idle {d : Dev} (auxOff : Bool) (h : d.state ≠ 0) : (nightExitTr auxOff).run d = d := by
  rw [nightExitTr, Tr.run_read, decide_eq_false h, Tr.when_false, Tr.run_skip]

/-! ## Out of Dusk (R659) -/

/-- Dusk has drained, or has lasted TIMEOUT_MS. -/
def Dev.DuskOver (d : Dev) : Prop := d.state = 3 ∧ (d.drained = true ∨
  d.fld PWR_DUSK_CFG PWR_DUSK_CFG_TIMEOUT_MS HD * oneMs ≤ d.elapsed - d.u.boot.duskAt)

/-- A transformer that waits for an occasion runs where it has come. -/
theorem Tr.run_read_when {b : Dev → Bool} {t : Dev → Tr} {d : Dev} (h : b d = true) :
    (Tr.read fun d => .when (b d) (t d)).run d = (t d).run d := by
  rw [Tr.run_read, h, Tr.when_true]

/-- A transformer that waits for an occasion changes nothing where it has not come. -/
theorem Tr.run_read_when_not {b : Dev → Bool} {t : Dev → Tr} {d : Dev} (h : ¬ b d = true) :
    (Tr.read fun d => .when (b d) (t d)).run d = d := by
  rw [Tr.run_read, Bool.eq_false_iff.mpr h, Tr.when_false, Tr.run_skip]

theorem Dev.duskOver_iff (d : Dev) : (d.state = 3 && (d.drained ||
    decide (d.fld PWR_DUSK_CFG PWR_DUSK_CFG_TIMEOUT_MS HD * oneMs ≤ d.elapsed - d.u.boot.duskAt))) = true ↔ d.DuskOver := by
  simp [Dev.DuskOver]

theorem duskEndTr_run_idle {d : Dev} (h : ¬ d.DuskOver) : duskEndTr.run d = d :=
  Tr.run_read_when_not (mt d.duskOver_iff.mp h)

theorem duskEndTr_run {d : Dev} (h : d.DuskOver) :
    duskEndTr.run d = if d.u.boot.duskNight then Tr.enterNight.run d else (Tr.enterDawn d.u.boot.duskCause).run d :=
  (Tr.run_read_when (d.duskOver_iff.mpr h)).trans (Tr.run_ite ..)

theorem duskEndTr_run_night {d : Dev} (h : d.DuskOver) (hnight : d.u.boot.duskNight = true) :
    duskEndTr.run d = Tr.enterNight.run d := by rw [duskEndTr_run h, if_pos hnight]

theorem duskEndTr_run_dawn {d : Dev} (h : d.DuskOver) (hdawn : d.u.boot.duskNight = false) :
    duskEndTr.run d = (Tr.enterDawn d.u.boot.duskCause).run d := by
  rw [duskEndTr_run h, hdawn, if_neg Bool.false_ne_true]

/-! ## The lease (R657, R658) -/

/-- The lease is below LOW_PCT of the last grant, and no LEASE_LOW was raised for that grant. -/
def Dev.LeaseIsLow (d : Dev) : Prop := d.awake = true ∧ d.u.boot.lowTold = false ∧
  100 * d.leaseLeft < d.fld MGMT_LEASE_CFG MGMT_LEASE_CFG_LOW_PCT HD * d.u.boot.grant * oneMs

theorem Dev.leaseIsLow_iff (d : Dev) : (d.awake && !d.u.boot.lowTold &&
    decide (100 * d.leaseLeft < d.fld MGMT_LEASE_CFG MGMT_LEASE_CFG_LOW_PCT HD * d.u.boot.grant * oneMs)) = true ↔
      d.LeaseIsLow := by
  simp [Dev.LeaseIsLow, and_assoc]

theorem leaseLowTr_run_idle {d : Dev} (h : ¬ d.LeaseIsLow) : leaseLowTr.run d = d :=
  Tr.run_read_when_not (mt d.leaseIsLow_iff.mp h)

theorem leaseLowTr_run {d : Dev} (h : d.LeaseIsLow) :
    leaseLowTr.run d = (Tr.alert 2).run ((Tr.boot fun b => { b with lowTold := true }).run d) :=
  Tr.run_read_when (d.leaseIsLow_iff.mpr h)

theorem leaseLowTr_alters {d : Dev} (h : d.LeaseIsLow) :
    d.Alters (· ∈ [MGMT_ALERT.key HD 0 0]) { d.u with boot := { d.u.boot with lowTold := true } } (leaseLowTr.run d) := by
  rw [leaseLowTr_run h]
  exact ((Dev.Alters.refl (· ∈ [MGMT_ALERT.key HD 0 0]) d).boot fun b => { b with lowTold := true }).alert (List.mem_singleton.mpr rfl) 2

/-- An alert sets its bit of CAUSE and leaves the others. -/
theorem Tr.alert_fld {bit : Nat} (hbit : bit < 6) (d : Dev) : ((Tr.alert bit).run d).fld MGMT_ALERT MGMT_ALERT_CAUSE HD =
    putBits (d.fld MGMT_ALERT MGMT_ALERT_CAUSE HD) bit 1 1 := by
  rw [Tr.alert_run, MGMT_ALERT_onHD.fld_self (by decide)]
  exact Nat.mod_eq_of_lt (putBits_lt _ _ _ _ 6 (MGMT_ALERT_CAUSE.get_lt _) hbit)

theorem leaseLowTr_alert {d : Dev} (h : d.LeaseIsLow) : (leaseLowTr.run d).fld MGMT_ALERT MGMT_ALERT_CAUSE HD =
    putBits (d.fld MGMT_ALERT MGMT_ALERT_CAUSE HD) 2 1 1 := by
  rw [leaseLowTr_run h, Tr.alert_fld (by decide), Tr.boot_fld]

theorem leaseExpireTr_run_idle {d : Dev} (h : ¬ (d.state = 2 ∧ d.leaseLeft = 0)) : leaseExpireTr.run d = d :=
  Tr.run_read_when_not (mt (by simp) h)

theorem leaseExpireTr_run {d : Dev} (hday : d.state = 2) (hend : d.leaseLeft = 0) :
    leaseExpireTr.run d = (Tr.enterDusk 2 6 false).run d :=
  Tr.run_read_when (by simp [hday, hend])

/-! ## Into Dusk (R659) -/

theorem Tr.each_run_of_idle {α : Type} {f : α → Tr} {l : List α} {d : Dev} (h : ∀ a ∈ l, (f a).run d = d) :
    (Tr.each l f).run d = d := by
  induction l with
  | nil => rfl
  | cons a l ih =>
    obtain ⟨ha, hl⟩ := List.forall_mem_cons.mp h
    rw [Tr.each_cons, Tr.run_andThen, ha, ih hl]

theorem Tr.enterDusk_run (reason cause : Nat) (night : Bool) (d : Dev) : (Tr.enterDusk reason cause night).run d =
    (Tr.fld PWR_STATE PWR_STATE_STATE HD 3).run
      ((Tr.each (tds.flatMap d.onQueues) fun q => .read fun d => .qcfgWrite q (d.reg CMD_QCFG (qDie q) (qIdx q) &&& ~~~1)).run
        ((Tr.beatSt fun b => { b with starting := false }).run
          ((Tr.fld BEAT_CTL BEAT_CTL_RUN HD 0).run
            ((Tr.boot fun b => { b with mInt := b.mInt + 1, duskAt := d.elapsed, duskCause := cause, duskNight := night }).run
              ((Tr.announce reason).run d))))) := rfl

theorem Tr.enterDusk_state (reason cause : Nat) (night : Bool) (d : Dev) :
    ((Tr.enterDusk reason cause night).run d).state = 3 := by
  rw [Tr.enterDusk_run, Dev.state, PWR_STATE_onHD.fld_self (by decide)]
  rfl

/-- No one is told of Dusk, and no queue is ON. -/
structure Dev.Alone (d : Dev) : Prop where
  queues : ∀ t ∈ tds, d.onQueues t = []
  partners : ∀ plane ∈ [0, 1], d.watched plane = []
  peers : ∀ sp, d.peer? sp = none

theorem Tr.announce_run_alone (reason : Nat) {d : Dev} (h : d.Alone) : (Tr.announce reason).run d = d := by
  refine Tr.each_run_of_idle fun plane hplane => ?_
  rw [Tr.run_read, h.partners plane hplane, Tr.run_seq_cons, Tr.run_seq_cons, Tr.run_seq_nil]
  refine Tr.each_run_of_idle (d := d) fun sp _ => ?_
  rw [h.peers sp, Tr.opt_none]
  cases d.carries sp && d.spMode sp = 1 <;> rfl

theorem Tr.enterDusk_run_alone (reason cause : Nat) (night : Bool) {d : Dev} (h : d.Alone) :
    (Tr.enterDusk reason cause night).run d = (Tr.fld PWR_STATE PWR_STATE_STATE HD 3).run
      ((Tr.beatSt fun b => { b with starting := false }).run
        ((Tr.fld BEAT_CTL BEAT_CTL_RUN HD 0).run
          ((Tr.boot fun b => { b with mInt := b.mInt + 1, duskAt := d.elapsed, duskCause := cause, duskNight := night }).run d))) := by
  have hqueues : tds.flatMap d.onQueues = [] := List.flatMap_eq_nil_iff.mpr h.queues
  rw [Tr.enterDusk_run, hqueues, Tr.announce_run_alone reason h]
  rfl

/-- The units in Dusk, of a package that was alone. -/
def Units.atDusk (u : Units) (now cause : Nat) (night : Bool) : Units :=
  { u with
    boot := { u.boot with mInt := u.boot.mInt + 1, duskAt := now, duskCause := cause, duskNight := night }
    beat := { u.beat with starting := false } }

theorem Tr.enterDusk_alters_alone (reason cause : Nat) (night : Bool) {d : Dev} (h : d.Alone) :
    d.Alters (· ∈ [PWR_STATE.key HD 0 0, BEAT_CTL.key HD 0 0]) (d.u.atDusk d.elapsed cause night)
      ((Tr.enterDusk reason cause night).run d) := by
  rw [Tr.enterDusk_run_alone reason cause night h]
  have hboot := (Dev.Alters.refl (· ∈ [PWR_STATE.key HD 0 0, BEAT_CTL.key HD 0 0]) d).boot
    fun b => { b with mInt := b.mInt + 1, duskAt := d.elapsed, duskCause := cause, duskNight := night }
  have hrun := hboot.hdFld BEAT_CTL BEAT_CTL_RUN 0 (by simp)
  have hbeat := hrun.units fun u => { u with beat := { u.beat with starting := false } }
  exact hbeat.hdFld PWR_STATE PWR_STATE_STATE 3 (by simp)

theorem Tr.enterDusk_runBit_alone (reason cause : Nat) (night : Bool) {d : Dev} (h : d.Alone) :
    ((Tr.enterDusk reason cause night).run d).runBit = false := by
  rw [Tr.enterDusk_run_alone reason cause night h]
  refine (Dev.flag_eq_false_iff rfl _ _ _ _ _).mpr ?_
  have hpower : ∀ n : Dev, n.Alters (· = PWR_STATE.key HD 0 0) n.u ((Tr.fld PWR_STATE PWR_STATE_STATE HD 3).run n) :=
    fun n => (Dev.Alters.refl _ n).hdFld PWR_STATE PWR_STATE_STATE 3 rfl
  exact ((hpower _).fld_eq (by decide) BEAT_CTL_RUN).trans (BEAT_CTL_onHD.fld_self (by decide) 0 _)

/-! ## Losing the host die (R663) -/

/-- The tensor die has seen no ALIVE for 100 µs over a link that is up. -/
def Dev.HostLost (d : Dev) (t : Nat) : Prop := d.awake = true ∧ (d.link (4 + t)).up = true ∧
  100 * oneUs ≤ d.elapsed - agetD d.u.boot.aliveAt t 0

theorem Dev.hostLost_iff (d : Dev) (t : Nat) : (d.awake && (d.link (4 + t)).up &&
    decide (100 * oneUs ≤ d.elapsed - agetD d.u.boot.aliveAt t 0)) = true ↔ d.HostLost t := by
  simp [Dev.HostLost, and_assoc]

theorem hostHeartbeatTimeoutTr_run_idle {die : TDie} {d : Dev} (h : ¬ d.HostLost die.val) :
    (hostHeartbeatTimeoutTr die).run d = d :=
  Tr.run_read_when_not (mt (d.hostLost_iff die.val).mp h)

theorem hostHeartbeatTimeoutTr_run {die : TDie} {d : Dev} (h : d.HostLost die.val) :
    (hostHeartbeatTimeoutTr die).run d = (Tr.loss stHOST_LOST).run d :=
  Tr.run_read_when (b := fun d => d.awake && (d.link (4 + die.val)).up &&
    decide (100 * oneUs ≤ d.elapsed - agetD d.u.boot.aliveAt die.val 0)) ((d.hostLost_iff die.val).mpr h)

/-- What a loss ends with, whatever it did before. -/
theorem Tr.loss_run (status : Nat) (d : Dev) : ∃ m : Dev, (Tr.loss status).run d =
    (Tr.alert 1).run ((Tr.enterDawn (if status = stLINK_LOST then 5 else 4)).run m) := by
  simp only [Tr.loss, Tr.run_read, Tr.run_seq_cons, Tr.run_seq_nil]
  exact ⟨_, rfl⟩

theorem Tr.alert_dawn {cause : Nat} {d : Dev} (h : d.Dawn (· = PWR_STATE.key HD 0 0) cause) (bit : Nat) :
    ((Tr.alert bit).run d).Dawn (· ∈ [PWR_STATE.key HD 0 0, MGMT_ALERT.key HD 0 0]) cause := by
  have halert := (Dev.Alters.refl (· = MGMT_ALERT.key HD 0 0) d).alert rfl bit
  refine { idle := ?_, get := fun k hk => ?_, state := ?_, phase := ?_, lastCause := ?_ }
  · rw [halert.u]
    exact h.idle
  · simp only [List.mem_cons, List.not_mem_nil, or_false, not_or] at hk
    obtain ⟨hpower, hcause⟩ := hk
    rw [halert.get k hcause, h.get k hpower]
  · rw [Dev.state, halert.fld_eq (by decide)]
    exact h.state
  · rw [Dev.phase, halert.fld_eq (by decide)]
    exact h.phase
  · rw [halert.fld_eq (by decide)]
    exact h.lastCause

/-- After a loss the package is in Dawn with its cause, and the alert of a loss alone is set. -/
theorem Tr.loss_dawn (status : Nat) (d : Dev) :
    ((Tr.loss status).run d).Dawn (· ∈ [PWR_STATE.key HD 0 0, MGMT_ALERT.key HD 0 0]) (if status = stLINK_LOST then 5 else 4) ∧
      ((Tr.loss status).run d).fld MGMT_ALERT MGMT_ALERT_CAUSE HD = 2 := by
  obtain ⟨m, hrun⟩ := Tr.loss_run status d
  have hcause : (if status = stLINK_LOST then 5 else 4) < 256 := by split <;> decide
  have hdawn := Tr.enterDawn_dawn hcause m
  rw [hrun]
  refine ⟨Tr.alert_dawn hdawn 1, ?_⟩
  rw [Tr.alert_fld (by decide), Dev.fld, Dev.reg, hdawn.get _ (by decide)]
  rfl

/-! ## The events -/

section Events
variable (s : State)

theorem exec_pwrgoodDeassert : exec .pwrgoodDeassert s = .next { s with dev := pwrgoodDeassertTr.run s.dev } := rfl
theorem exec_resetNAssert : exec .resetNAssert s = .next { s with dev := resetNAssertTr.run s.dev } := rfl
theorem exec_inputUndervoltage : exec .inputUndervoltage s = .next { s with dev := pwrgoodDeassertTr.run s.dev } := rfl
theorem exec_refclkFault (romEnd : Bool) : exec (.refclkFault romEnd) s = .next { s with dev := (refclkFaultTr romEnd).run s.dev } := rfl
theorem exec_refclkRestored : exec .refclkRestored s = .next { s with dev := refclkRestoredTr.run s.dev } := rfl
theorem exec_nightExit (auxOff : Bool) : exec (.nightExit auxOff) s = .next { s with dev := (nightExitTr auxOff).run s.dev } := rfl
theorem exec_duskEnd : exec .duskEnd s = .next { s with dev := duskEndTr.run s.dev } := rfl
theorem exec_leaseLow : exec .leaseLow s = .next { s with dev := leaseLowTr.run s.dev } := rfl
theorem exec_leaseExpire : exec .leaseExpire s = .next { s with dev := leaseExpireTr.run s.dev } := rfl
theorem exec_hostHeartbeatTimeout (die : TDie) :
    exec (.hostHeartbeatTimeout die) s = .next { s with dev := (hostHeartbeatTimeoutTr die).run s.dev } := rfl

end Events

/-- Settles O50: each event runs its transformer where its occasion has come and changes nothing elsewhere. `Tr.enterNight_night`,
`Tr.enterDawn_dawn` and `Tr.loss_dawn` say what a reset of every die leaves, `Tr.enterDusk_alters_alone` what Dusk begins with. -/
theorem powerStates : Obligations.PowerStates := by
  intro s b die st boot stays reset onlyPower night dawn alerts
  have hnight : ∀ n : State, n.pending = s.pending → n.dev.mem = s.dev.mem → n.dev.Night → night n :=
    fun n hpending hmem h => ⟨⟨hpending, h.idle⟩, ⟨hmem, h.get⟩, h.state, h.fault⟩
  have hdawn : ∀ (n : State) (K : Nat → Prop) (cause : Nat), n.pending = s.pending → n.dev.Dawn K cause → dawn cause n :=
    fun n K cause hpending h => ⟨⟨hpending, h.idle⟩, h.state, h.phase, h.lastCause⟩
  have hpins : night { s with dev := pwrgoodDeassertTr.run s.dev } :=
    hnight _ rfl (pwrgoodDeassertTr_mem s.dev) (pwrgoodDeassertTr_night s.dev)
  have hpinsBoot := pwrgoodDeassertTr_boot s.dev
  refine ⟨⟨_, exec_pwrgoodDeassert s, hpins, ?powerGood, ?powerReset⟩, ⟨_, exec_resetNAssert s, ?reset, ?resetN, ?resetPower⟩,
    ⟨_, exec_inputUndervoltage s, hpins, ?undervoltage⟩, fun hon => ⟨_, exec_refclkFault s false, ?refclk⟩,
    fun hrom => ?refclkRom, fun hrom hbad => ?restored, fun hoff => ⟨?refclkNight, _, exec_nightExit s b, ?nightExit⟩,
    fun hon => ?noExit, ⟨fun hnot => ?notOver, fun hover hcause => ⟨_, exec_duskEnd s, ?duskEnd⟩⟩,
    ⟨fun hnot => ?notLow, fun hlow => ⟨_, exec_leaseLow s, ?leaseLow⟩⟩, fun hnot => ?notExpired,
    fun hday hend => ⟨_, exec_leaseExpire s, rfl, ?dusk, fun hqueues h0 h1 hpeers => ?alone⟩,
    ⟨fun hnot => ?notLost, fun hlost => ⟨_, exec_hostHeartbeatTimeout s die, ?lost⟩⟩⟩
  case powerGood => rw [hpinsBoot]
  case powerReset => rw [hpinsBoot]; rfl
  case reset => exact hnight _ rfl (resetNAssertTr_mem s.dev) (resetNAssertTr_night s.dev)
  case resetN => rw [resetNAssertTr_boot]
  case resetPower => rw [resetNAssertTr_boot]; rfl
  case undervoltage => rw [hpinsBoot]
  case refclk =>
    rw [refclkFaultTr_run_lost hon]
    exact ⟨hpins, by rw [hpinsBoot]⟩
  case refclkRom => exact (exec_refclkFault s true).trans (by rw [refclkFaultTr_run_rom hrom, Tr.boot_run])
  case restored => exact (exec_refclkRestored s).trans (by rw [refclkRestoredTr_run hrom hbad, Tr.boot_run])
  case refclkNight => exact (exec_refclkFault s b).trans (by rw [refclkFaultTr_run_night b hoff])
  case nightExit =>
    have hentered := nightExitTr_dawn b hoff
    have hboot := nightExitTr_boot b hoff
    refine ⟨hdawn _ _ _ rfl hentered, ⟨nightExitTr_mem b hoff, hentered.get⟩, ?_⟩
    rw [hboot]
    exact ⟨rfl, rfl, rfl⟩
  case noExit => exact (exec_nightExit s b).trans (by rw [nightExitTr_run_idle b hon])
  case notOver => exact (exec_duskEnd s).trans (by rw [duskEndTr_run_idle hnot])
  case duskEnd =>
    cases hends : boot.duskNight with
    | true =>
      have hrun := duskEndTr_run_night hover hends
      have hentered := Tr.enterNight_night s.dev
      have hmem := Tr.enterNight_mem s.dev
      rw [hrun, if_pos rfl]
      exact ⟨⟨hmem, hentered.get⟩, hnight _ rfl hmem hentered⟩
    | false =>
      have hrun := duskEndTr_run_dawn hover hends
      have hentered := Tr.enterDawn_dawn hcause s.dev
      have hmem := Tr.enterDawn_mem boot.duskCause s.dev
      rw [hrun, if_neg Bool.false_ne_true]
      exact ⟨⟨hmem, hentered.get⟩, hdawn _ _ _ rfl hentered⟩
  case notLow => exact (exec_leaseLow s).trans (by rw [leaseLowTr_run_idle hnot])
  case leaseLow =>
    have h := leaseLowTr_alters hlow
    exact ⟨rfl, h.mem, h.u, h.get, leaseLowTr_alert hlow⟩
  case notExpired => exact (exec_leaseExpire s).trans (by rw [leaseExpireTr_run_idle hnot])
  case dusk =>
    rw [leaseExpireTr_run hday hend]
    exact Tr.enterDusk_state 2 6 false s.dev
  case alone =>
    have halone : s.dev.Alone := ⟨hqueues, by simp [h0, h1], hpeers⟩
    have h := Tr.enterDusk_alters_alone 2 6 false halone
    have hstopped := Tr.enterDusk_runBit_alone 2 6 false halone
    have hboot := congrArg Units.boot h.u
    rw [leaseExpireTr_run hday hend]
    refine ⟨h.mem, h.get, hstopped, ?_⟩
    exact hboot
  case notLost => exact (exec_hostHeartbeatTimeout s die).trans (by rw [hostHeartbeatTimeoutTr_run_idle hnot])
  case lost =>
    rw [hostHeartbeatTimeoutTr_run hlost]
    obtain ⟨hentered, halert⟩ := Tr.loss_dawn stHOST_LOST s.dev
    exact ⟨hdawn _ _ _ rfl hentered, halert, hentered.get⟩

end Sys2Proof.Machine
end

section
/-! PROOFS. Dawn (R636, R638, R639, R659): what holds the package and what lets it go on, and management commands. -/

namespace Sys2Proof.Machine

open Sys2Proof.Safety

/-! ## Fields of other registers -/

theorem Tr.fld_fld_ne {r q : Reg} {die e i j k l : Nat} (h : q.key e k l ≠ r.key die i j) (f g : Fld) (x : Nat) (d : Dev) :
    ((Tr.fld r f die x i j).run d).fld q g e k l = d.fld q g e k l :=
  congrArg g.get (Tr.fld_reg_ne _ _ _ _ _ _ _ _ _ _ _ h)

theorem Tr.reg_fld_ne {r q : Reg} {die e i j k l : Nat} (h : q.key e k l ≠ r.key die i j) (g : Fld) (v : Word) (d : Dev) :
    ((Tr.reg r die v i j).run d).fld q g e k l = d.fld q g e k l :=
  congrArg g.get (Tr.reg_reg_ne _ _ _ _ _ _ _ _ _ _ h)

theorem Tr.alert_fld_ne {q : Reg} {e k l : Nat} (h : q.key e k l ≠ MGMT_ALERT.key HD 0 0) (bit : Nat) (g : Fld) (d : Dev) :
    ((Tr.alert bit).run d).fld q g e k l = d.fld q g e k l := by
  rw [Tr.alert_run, Tr.fld_fld_ne h]

theorem Dev.flag_eq (d : Dev) (r : Reg) (f : Fld) (die i j : Nat) : d.flag r f die i j = (d.fld r f die i j == 1) := rfl

theorem BOOT_STATUS_onHD : BOOT_STATUS.OnHD := ⟨rfl, by decide⟩
theorem MGMT_CMD_STATUS_onHD : MGMT_CMD_STATUS.OnHD := ⟨rfl, by decide⟩
theorem SEC_STATUS_onHD : SEC_STATUS.OnHD := ⟨rfl, by decide⟩

/-! ## Phases (R638) -/

/-- The package is held in Dawn (R639). -/
abbrev Dev.held (d : Dev) : Bool := d.flag BOOT_STATUS BOOT_STATUS_HELD HD

theorem Tr.setPhase_run (p : Nat) (d : Dev) : (Tr.setPhase p).run d = (Tr.fld BOOT_STATUS BOOT_STATUS_PHASE HD p).run d := rfl

theorem Tr.setPhase_alters (p : Nat) (d : Dev) : d.Alters (· = BOOT_STATUS.key HD 0 0) d.u ((Tr.setPhase p).run d) :=
  (Dev.Alters.refl _ d).hdFld BOOT_STATUS BOOT_STATUS_PHASE p rfl

theorem Tr.setPhase_phase {p : Nat} (hp : p < 8) (d : Dev) : ((Tr.setPhase p).run d).phase = p := by
  rw [Dev.phase, Tr.setPhase_run, BOOT_STATUS_onHD.fld_self (by decide)]
  exact Nat.mod_eq_of_lt hp

theorem Tr.setPhase_held (p : Nat) (d : Dev) : ((Tr.setPhase p).run d).held = d.held := by
  rw [Dev.held, Dev.flag_eq, Tr.setPhase_run, BOOT_STATUS_onHD.fld_apart (by decide) (by decide) (by decide), Dev.held, Dev.flag_eq]

namespace Dev.Alters
variable {K : Nat → Prop} {u : Units} {d n : Dev}

theorem state_eq (h : Alters K u d n) (hk : ¬ K (PWR_STATE.key HD 0 0)) : n.state = d.state := h.fld_eq hk _

theorem phase_eq (h : Alters K u d n) (hk : ¬ K (BOOT_STATUS.key HD 0 0)) : n.phase = d.phase := h.fld_eq hk _

theorem held_eq (h : Alters K u d n) (hk : ¬ K (BOOT_STATUS.key HD 0 0)) : n.held = d.held := by
  rw [Dev.held, Dev.flag_eq, h.fld_eq hk, Dev.held, Dev.flag_eq]

theorem setPhase (h : Alters K u d n) (p : Nat) (hk : K (BOOT_STATUS.key HD 0 0)) : Alters K u d ((Tr.setPhase p).run n) :=
  h.hdFld BOOT_STATUS BOOT_STATUS_PHASE p hk

theorem when {b : Bool} {t : Tr} (h : Alters K u d n) (ht : Alters K u d (t.run n)) : Alters K u d ((Tr.when b t).run n) := by
  cases b
  · exact h
  · exact ht

end Dev.Alters

/-! ## Holding the package, and trying again (R639) -/

/-- A cause holds the package in a phase of Dawn: BOOT_HOLD names it, FAULT_N is low, and the alert of a hold is set. -/
def Dev.HeldBy (d : Dev) (reason detail phase : Nat) : Prop :=
  d.held = true ∧ d.phase = phase ∧ Holds d BOOT_HOLD HD 0 0 (reason + detail % 65536 * 65536) ∧ d.u.boot.fault = true ∧
    (d.fld MGMT_ALERT MGMT_ALERT_CAUSE HD).testBit 3 = true

/-- The device with a cause shown, in the phase that it was in. -/
def Dev.causeShown (d : Dev) (reason detail : Nat) : Dev :=
  (Tr.alert 3).run ((Tr.boot fun b => { b with fault := true }).run ((Tr.fld BOOT_STATUS BOOT_STATUS_HELD HD 1).run
    ((Tr.reg BOOT_HOLD HD (w64 (reason + detail % 65536 * 65536))).run d)))

theorem Tr.hold_run (reason detail : Nat) (d : Dev) :
    (Tr.hold reason detail).run d = (Tr.when (7 ≤ reason) (.setPhase 2)).run (d.causeShown reason detail) := rfl

abbrev holdKey (k : Nat) : Prop := k ∈ [BOOT_HOLD.key HD 0 0, BOOT_STATUS.key HD 0 0, MGMT_ALERT.key HD 0 0]

theorem Dev.causeShown_alters (d : Dev) (reason detail : Nat) :
    d.Alters holdKey { d.u with boot := { d.u.boot with fault := true } } (d.causeShown reason detail) := by
  have hcause := (Dev.Alters.refl holdKey d).reg (r := BOOT_HOLD) (die := HD) (i := 0) (j := 0) (by decide)
    (w64 (reason + detail % 65536 * 65536))
  have hheld := hcause.hdFld BOOT_STATUS BOOT_STATUS_HELD 1 (by decide)
  exact (hheld.boot fun b => { b with fault := true }).alert (by decide) 3

theorem Tr.hold_alters (reason detail : Nat) (d : Dev) :
    d.Alters holdKey { d.u with boot := { d.u.boot with fault := true } } ((Tr.hold reason detail).run d) := by
  have h := d.causeShown_alters reason detail
  rw [Tr.hold_run]
  exact h.when (h.setPhase 2 (by decide))

theorem Dev.causeShown_heldBy (d : Dev) (reason detail : Nat) : (d.causeShown reason detail).HeldBy reason detail d.phase := by
  refine ⟨?held, ?phase, ?cause, ?fault, ?alert⟩
  case held =>
    rw [Dev.held, Dev.flag_eq]
    simp (disch := decide) [Dev.causeShown, Tr.alert_fld_ne, BOOT_STATUS_onHD.fld_self]
  case phase =>
    simp (disch := decide) [Dev.phase, Dev.causeShown, Tr.alert_fld_ne, Tr.reg_fld_ne, BOOT_STATUS_onHD.fld_apart]
  case cause =>
    have hheld := (Dev.Alters.refl (· ∈ [BOOT_STATUS.key HD 0 0, MGMT_ALERT.key HD 0 0])
      ((Tr.reg BOOT_HOLD HD (w64 (reason + detail % 65536 * 65536))).run d)).hdFld BOOT_STATUS BOOT_STATUS_HELD 1 (by decide)
    have hlater := (hheld.boot fun b => { b with fault := true }).alert (by decide) 3
    have hkept := hlater.get (BOOT_HOLD.key HD 0 0) (by decide)
    exact hkept.trans (Tr.reg_holds BOOT_HOLD HD _ 0 0 d)
  case fault => rw [(d.causeShown_alters reason detail).u]
  case alert => exact Tr.alert_cause 3 (by decide) _

/-- A cause of self-test, link-up or HBM leaves the phase as it was. -/
theorem Tr.hold_heldBy {reason : Nat} (hreason : reason < 7) (detail : Nat) (d : Dev) :
    ((Tr.hold reason detail).run d).HeldBy reason detail d.phase := by
  rw [Tr.hold_run, decide_eq_false (Nat.not_le.mpr hreason), Tr.when_false, Tr.run_skip]
  exact d.causeShown_heldBy reason detail

/-- A refused image, fabric boot or identity leaves the package in AWAIT. -/
theorem Tr.hold_heldBy_await {reason : Nat} (hreason : 7 ≤ reason) (detail : Nat) (d : Dev) :
    ((Tr.hold reason detail).run d).HeldBy reason detail 2 := by
  obtain ⟨hheld, -, hcause, hfault, halert⟩ := d.causeShown_heldBy reason detail
  have hphase := Tr.setPhase_alters 2 (d.causeShown reason detail)
  rw [Tr.hold_run, decide_eq_true hreason, Tr.when_true]
  refine ⟨(Tr.setPhase_held 2 _).trans hheld, Tr.setPhase_phase (by decide) _, ?_, ?_, ?_⟩
  · exact (hphase.get _ (by decide)).trans hcause
  · rw [hphase.u]
    exact hfault
  · rw [hphase.fld_eq (by decide)]
    exact halert

/-- What a new attempt leaves of boot: a package that was held is so no longer. -/
def Dev.bootRetried (d : Dev) : BootSt := { d.u.boot with fault := d.u.boot.fault && !d.held }

theorem Tr.retry_run_free {d : Dev} (h : d.held = false) : Tr.retry.run d = d := Tr.run_read_when_not (Bool.eq_false_iff.mp h)

theorem Tr.retry_run_held {d : Dev} (h : d.held = true) : Tr.retry.run d =
    (Tr.boot fun b => { b with fault := false }).run ((Tr.fld BOOT_STATUS BOOT_STATUS_HELD HD 0).run d) := Tr.run_read_when h

theorem Tr.retry_alters (d : Dev) :
    d.Alters (· = BOOT_STATUS.key HD 0 0) { d.u with boot := d.bootRetried } (Tr.retry.run d) := by
  cases hheld : d.held with
  | false =>
    rw [Tr.retry_run_free hheld, Dev.bootRetried, hheld, Bool.not_false, Bool.and_true]
    exact .refl _ d
  | true =>
    rw [Tr.retry_run_held hheld, Dev.bootRetried, hheld, Bool.not_true, Bool.and_false]
    exact ((Dev.Alters.refl (· = BOOT_STATUS.key HD 0 0) d).hdFld BOOT_STATUS BOOT_STATUS_HELD 0 rfl).boot
      fun b => { b with fault := false }

theorem Tr.retry_held (d : Dev) : (Tr.retry.run d).held = false := by
  cases hheld : d.held with
  | false => rw [Tr.retry_run_free hheld, hheld]
  | true => rw [Tr.retry_run_held hheld, Dev.held, Dev.flag_eq, Tr.boot_fld, BOOT_STATUS_onHD.fld_self (by decide)]; rfl

theorem Tr.retry_phase (d : Dev) : (Tr.retry.run d).phase = d.phase := by
  cases hheld : d.held with
  | false => rw [Tr.retry_run_free hheld]
  | true =>
    rw [Tr.retry_run_held hheld, Dev.phase, Tr.boot_fld, BOOT_STATUS_onHD.fld_apart (by decide) (by decide) (by decide), Dev.phase]

/-! ## Management commands (R636, R659) -/

/-- A management command is carried out: not in Night or Dusk, and none executes. -/
structure Dev.TakesCmd (d : Dev) : Prop where
  notNight : d.state ≠ 0
  notDusk : d.state ≠ 3
  idle : d.flag MGMT_CMD_STATUS MGMT_CMD_STATUS_BUSY HD = false

theorem Tr.mgmtErr_alters (e : Nat) (d : Dev) : d.Alters (· ∈ [MGMT_CMD_STATUS.key HD 0 0]) d.u ((Tr.mgmtErr e).run d) :=
  (Dev.Alters.refl _ d).hdFld MGMT_CMD_STATUS MGMT_CMD_STATUS_ERR e (List.mem_singleton.mpr rfl)

theorem Tr.mgmtErr_err {e : Nat} (he : e < 16) (d : Dev) :
    ((Tr.mgmtErr e).run d).fld MGMT_CMD_STATUS MGMT_CMD_STATUS_ERR HD = e := by
  rw [Tr.mgmtErr, MGMT_CMD_STATUS_onHD.fld_self (by decide)]
  exact Nat.mod_eq_of_lt he

/-- The device with a management command begun. -/
def Dev.cmdBegun (d : Dev) : Dev := (Tr.mgmtErr 0).run d

theorem Dev.cmdBegun_alters (d : Dev) : d.Alters (· ∈ [MGMT_CMD_STATUS.key HD 0 0]) d.u d.cmdBegun := Tr.mgmtErr_alters 0 d
theorem Dev.cmdBegun_err (d : Dev) : d.cmdBegun.fld MGMT_CMD_STATUS MGMT_CMD_STATUS_ERR HD = 0 := Tr.mgmtErr_err (by decide) d
theorem Dev.cmdBegun_u (d : Dev) : d.cmdBegun.u = d.u := d.cmdBegun_alters.u
theorem Dev.cmdBegun_state (d : Dev) : d.cmdBegun.state = d.state := d.cmdBegun_alters.state_eq (by decide)
theorem Dev.cmdBegun_phase (d : Dev) : d.cmdBegun.phase = d.phase := d.cmdBegun_alters.phase_eq (by decide)
theorem Dev.cmdBegun_held (d : Dev) : d.cmdBegun.held = d.held := d.cmdBegun_alters.held_eq (by decide)
theorem Dev.cmdBegun_inPhase (d : Dev) (p : Nat) : d.cmdBegun.inPhase p = d.inPhase p := by
  rw [Dev.inPhase, d.cmdBegun_state, d.cmdBegun_phase, Dev.inPhase]

/-- The device with a management command refused. -/
def Dev.cmdRefused (d : Dev) (e : Nat) : Dev := (Tr.mgmtErr e).run d.cmdBegun

theorem Dev.cmdRefused_alters (d : Dev) (e : Nat) : d.Alters (· ∈ [MGMT_CMD_STATUS.key HD 0 0]) d.u (d.cmdRefused e) := by
  have h := Tr.mgmtErr_alters e d.cmdBegun
  rw [d.cmdBegun_u] at h
  exact d.cmdBegun_alters.trans h

theorem Dev.cmdRefused_err {e : Nat} (he : e < 16) (d : Dev) :
    (d.cmdRefused e).fld MGMT_CMD_STATUS MGMT_CMD_STATUS_ERR HD = e := Tr.mgmtErr_err he d.cmdBegun

theorem refuses_of_exec {c : Instr} {s : State} {e : Nat} (he : e < 16)
    (h : exec c s = .next { s with dev := s.dev.cmdRefused e }) :
    ∃ n, exec c s = .next n ∧ n.pending = s.pending ∧ n.dev.mem = s.dev.mem ∧ n.dev.u = s.dev.u ∧
      SameRegsBut [MGMT_CMD_STATUS.key HD 0 0] s n ∧ n.dev.fld MGMT_CMD_STATUS MGMT_CMD_STATUS_ERR HD = e :=
  have hrefused := s.dev.cmdRefused_alters e
  have herr := s.dev.cmdRefused_err he
  ⟨_, h, rfl, hrefused.mem, hrefused.u, hrefused.get, herr⟩

section Taken
variable {d : Dev} (h : d.TakesCmd) (k : Tr)
include h

theorem Tr.mgmtCmd_run (dusk : Bool) : (Tr.mgmtCmd dusk k).run d = k.run d.cmdBegun := by
  have hon : ¬ (decide (d.state = 0) || d.flag MGMT_CMD_STATUS MGMT_CMD_STATUS_BUSY HD) = true := by
    simp [h.notNight, h.idle]
  have hlight : ¬ (decide (d.state = 3) && !dusk) = true := by simp [h.notDusk]
  rw [Tr.mgmtCmd, Tr.run_read, if_neg hon, if_neg hlight]
  rfl

theorem Tr.identityCmd_run_again (hid : d.u.boot.idPub.isSome = true) : (Tr.identityCmd k).run d = d.cmdRefused 2 := by
  rw [Tr.identityCmd, Tr.mgmtCmd_run h, Tr.run_read, d.cmdBegun_u, if_pos hid, Dev.cmdRefused]

theorem Tr.identityCmd_run_elsewhere (hid : d.u.boot.idPub = none) (hphase : d.inPhase 2 = false) :
    (Tr.identityCmd k).run d = d.cmdRefused 4 := by
  rw [Tr.identityCmd, Tr.mgmtCmd_run h, Tr.run_read, d.cmdBegun_u, hid, if_neg (by simp), d.cmdBegun_inPhase, hphase,
    if_neg Bool.false_ne_true, Dev.cmdRefused]

theorem Tr.identityCmd_run (hid : d.u.boot.idPub = none) (hphase : d.inPhase 2 = true) :
    (Tr.identityCmd k).run d = k.run d.cmdBegun := by
  rw [Tr.identityCmd, Tr.mgmtCmd_run h, Tr.run_read, d.cmdBegun_u, hid, if_neg (by simp), d.cmdBegun_inPhase, hphase, if_pos rfl]

theorem Tr.imageCmd_run_unidentified (hid : d.u.boot.idPub = none) : (Tr.imageCmd k).run d = d.cmdRefused 2 := by
  rw [Tr.imageCmd, Tr.mgmtCmd_run h, Tr.run_read, d.cmdBegun_u, hid, if_pos (by simp), Dev.cmdRefused]

theorem Tr.imageCmd_run (hid : d.u.boot.idPub.isSome = true) (hphase : d.inPhase 2 = true) :
    (Tr.imageCmd k).run d = k.run (Tr.retry.run d.cmdBegun) := by
  have hsome : ¬ d.u.boot.idPub.isNone = true := by simp [Option.isSome_iff_ne_none.mp hid]
  rw [Tr.imageCmd, Tr.mgmtCmd_run h, Tr.run_read, d.cmdBegun_u, if_neg hsome, d.cmdBegun_inPhase, hphase, if_pos rfl]
  rfl

end Taken

end Sys2Proof.Machine
end

section
/-! PROOFS. Identity and images in Dawn (R641, R642, R644, R647, R648, R650). -/

namespace Sys2Proof.Machine

open Sys2Proof.Safety

/-! ## Identity (R641, R642) -/

/-- The package goes on, held no longer; FAULT_N is low only for what did not come from a hold. -/
def Dev.GoesOn (d m : Dev) : Prop := m.held = false ∧ m.u.boot.fault = (d.u.boot.fault && !d.held)

theorem Tr.fresh_run (f : Nat → Tr) (d : Dev) : (Tr.fresh f).run d = (f d.u.fresh).run (freshBy 1 d) := rfl

/-- The public identity key of some helper data. -/
def identityPub (h : List Byte) : List Byte := (List.range 1952).map (Config.identityKey h)

/-- The package `m` has the identity of helper data `h`, derived in AWAIT from `d`. -/
def Dev.IdentifiedAs (d : Dev) (h : List Byte) (m : Dev) : Prop :=
  m.u.boot.idHelper = h ∧ m.u.boot.idPub = some (identityPub h) ∧ d.GoesOn m ∧
    m.fld SEC_STATUS SEC_STATUS_IDENTITY HD = 1 ∧ m.fld MGMT_CMD_STATUS MGMT_CMD_STATUS_ERR HD = 0 ∧ m.phase = 2

theorem Tr.identify_run (h : List Byte) (d : Dev) : (Tr.identify h).run d =
    (Tr.fld SEC_STATUS SEC_STATUS_IDENTITY HD 1).run
      ((Tr.boot fun b => { b with idHelper := h, idPub := some (identityPub h) }).run (Tr.retry.run d)) := rfl

abbrev identityKeys (k : Nat) : Prop := k ∈ [BOOT_STATUS.key HD 0 0, SEC_STATUS.key HD 0 0]

theorem Tr.identify_alters (h : List Byte) (d : Dev) : d.Alters identityKeys
    { d.u with boot := { d.bootRetried with idHelper := h, idPub := some (identityPub h) } } ((Tr.identify h).run d) := by
  have hretry := (Tr.retry_alters d).mono (L := identityKeys) (by simp)
  rw [Tr.identify_run]
  exact (hretry.boot fun b => { b with idHelper := h, idPub := some (identityPub h) }).hdFld SEC_STATUS SEC_STATUS_IDENTITY 1
    (by decide)

/-- What follows the new attempt leaves the phase and HELD. -/
theorem Tr.identify_alters_retry (h : List Byte) (d : Dev) : (Tr.retry.run d).Alters (· = SEC_STATUS.key HD 0 0)
    { (Tr.retry.run d).u with boot := { (Tr.retry.run d).u.boot with idHelper := h, idPub := some (identityPub h) } }
    ((Tr.identify h).run d) :=
  ((Dev.Alters.refl (· = SEC_STATUS.key HD 0 0) (Tr.retry.run d)).boot
    fun b => { b with idHelper := h, idPub := some (identityPub h) }).hdFld SEC_STATUS SEC_STATUS_IDENTITY 1 rfl

theorem Tr.identify_held (h : List Byte) (d : Dev) : ((Tr.identify h).run d).held = false :=
  ((Tr.identify_alters_retry h d).held_eq (by decide)).trans (Tr.retry_held d)

theorem Tr.identify_phase (h : List Byte) (d : Dev) : ((Tr.identify h).run d).phase = d.phase :=
  ((Tr.identify_alters_retry h d).phase_eq (by decide)).trans (Tr.retry_phase d)

theorem Tr.identify_identity (h : List Byte) (d : Dev) :
    ((Tr.identify h).run d).fld SEC_STATUS SEC_STATUS_IDENTITY HD = 1 := by
  rw [Tr.identify_run, SEC_STATUS_onHD.fld_self (by decide)]
  rfl

/-- The device with an identity command begun: it has drawn a free value. -/
def Dev.identityBegun (d : Dev) : Dev := freshBy 1 d.cmdBegun

theorem Dev.identityBegun_alters (d : Dev) :
    d.Alters (· ∈ [MGMT_CMD_STATUS.key HD 0 0]) { d.u with fresh := d.u.fresh + 1 } d.identityBegun :=
  d.cmdBegun_alters.units fun u => { u with fresh := u.fresh + 1 }

theorem Dev.identityBegun_err (d : Dev) : d.identityBegun.fld MGMT_CMD_STATUS MGMT_CMD_STATUS_ERR HD = 0 := d.cmdBegun_err
theorem Dev.identityBegun_boot (d : Dev) : d.identityBegun.u.boot = d.u.boot := by
  rw [d.identityBegun_alters.u]
theorem Dev.identityBegun_held (d : Dev) : d.identityBegun.held = d.held := d.cmdBegun_held
theorem Dev.identityBegun_phase (d : Dev) : d.identityBegun.phase = d.phase := d.cmdBegun_phase

/-- Helper data identify the package, wherever in the units they were put before. -/
theorem Tr.identify_identifiedAs (h : List Byte) (f : BootSt → BootSt) (hf : ∀ b, (f b).fault = b.fault) {d : Dev} (hphase : d.phase = 2) :
    d.IdentifiedAs h ((Tr.identify h).run ((Tr.boot f).run d.identityBegun)) := by
  have halters := Tr.identify_alters h ((Tr.boot f).run d.identityBegun)
  refine ⟨?helper, ?key, ⟨Tr.identify_held h _, ?fault⟩, Tr.identify_identity h _, ?err, ?phase⟩
  case helper => rw [halters.u]
  case key => rw [halters.u]
  case fault =>
    have hheld : ((Tr.boot f).run d.identityBegun).held = d.held := d.identityBegun_held
    rw [halters.u, Dev.bootRetried, hheld, Tr.boot_run]
    simp only [hf, d.identityBegun_boot]
  case err => exact (halters.fld_eq (by decide) _).trans d.identityBegun_err
  case phase => exact (Tr.identify_phase h _).trans (d.identityBegun_phase.trans hphase)

theorem Dev.TakesCmd.of_inPhase {d : Dev} {p : Nat} (h : d.inPhase p = true)
    (hidle : d.flag MGMT_CMD_STATUS MGMT_CMD_STATUS_BUSY HD = false) : d.TakesCmd := by
  obtain ⟨hdawn, -⟩ := (d.inPhase_iff p).mp h
  exact ⟨by rw [hdawn]; decide, by rw [hdawn]; decide, hidle⟩

/-- The helper data in the data window. -/
abbrev Dev.helperData (d : Dev) : List Byte := bufBytes d.u.boot.helper 0 4096

section Identity
variable {d : Dev} (h : d.TakesCmd) (hid : d.u.boot.idPub = none) (hphase : d.inPhase 2 = true)
include h hid hphase

theorem identityTr_run : identityTr.run d =
    (if Config.helperGood d.helperData && !(d.u.boot.pufBad && Config.freeBit d.u.fresh) then .identify d.helperData
      else Tr.seq [.mgmtErr 3, .hold 9 0]).run d.identityBegun := by
  rw [identityTr, Tr.identityCmd_run h _ hid hphase, Tr.run_read, Tr.fresh_run, d.cmdBegun_u]
  rfl

theorem identityTr_run_good (hpuf : d.u.boot.pufBad = false) (hgood : Config.helperGood d.helperData = true) :
    identityTr.run d = (Tr.identify d.helperData).run d.identityBegun := by
  rw [identityTr_run h hid hphase, hpuf, hgood, Bool.false_and, Bool.not_false, Bool.and_self, if_pos rfl]

theorem identityTr_run_bad (hbad : Config.helperGood d.helperData = false) :
    identityTr.run d = (Tr.hold 9 0).run ((Tr.mgmtErr 3).run d.identityBegun) := by
  rw [identityTr_run h hid hphase, hbad, Bool.false_and, if_neg Bool.false_ne_true]
  rfl

/-- The helper data that ENROLL makes. -/
def Dev.enrolled (d : Dev) : List Byte := (List.range 4096).map (Config.enrolData d.u.fresh)

omit h hid hphase in
theorem Dev.enrolled_length : d.enrolled.length = 4096 := by rw [Dev.enrolled, List.length_map, List.length_range]

/-- The buffer that holds some bytes. -/
def bufOf (bs : List Byte) : List (Nat × Byte) := bs.zipIdx.map fun e => (e.2, e.1)

theorem enrollTr_run : enrollTr.run d = (Tr.fld SEC_STATUS SEC_STATUS_ENROLLED HD 1).run
    ((Tr.identify d.enrolled).run ((Tr.boot fun b => { b with helper := bufOf d.enrolled }).run d.identityBegun)) := by
  rw [enrollTr, Tr.identityCmd_run h _ hid hphase, Tr.fresh_run, d.cmdBegun_u]
  rfl

end Identity

theorem agetD_zipIdx_swap (l : List Byte) (k i : Nat) :
    agetD ((l.zipIdx k).map fun e => (e.2, e.1)) (k + i) 0 = l.getD i 0 := by
  induction l generalizing k i with
  | nil => rfl
  | cons b l ih =>
    rw [List.zipIdx_cons, List.map_cons]
    cases i with
    | zero => simp [agetD, aget?]
    | succ i =>
      have hne : k ≠ k + (i + 1) := by omega
      have hnext := ih (k + 1) i
      rw [Nat.add_right_comm, Nat.add_assoc] at hnext
      simpa [agetD, aget?, hne] using hnext

theorem agetD_bufOf (bs : List Byte) (i : Nat) : agetD (bufOf bs) i 0 = bs.getD i 0 := by
  have h := agetD_zipIdx_swap bs 0 i
  rwa [Nat.zero_add] at h

theorem bufBytes_bufOf (bs : List Byte) : bufBytes (bufOf bs) 0 bs.length = bs := by
  apply List.ext_getElem
  · simp [bufBytes]
  · intro i _ hi
    simp only [bufBytes, List.getElem_map, List.getElem_range, Nat.zero_add, agetD_bufOf]
    exact List.getD_eq_getElem bs 0 hi

/-! ## Images (R644, R647, R648) -/

/-- The device with an image command begun: the package is held no longer. -/
def Dev.imageBegun (d : Dev) : Dev := Tr.retry.run d.cmdBegun

abbrev imageKeys (k : Nat) : Prop := k ∈ [MGMT_CMD_STATUS.key HD 0 0, BOOT_STATUS.key HD 0 0]

theorem Dev.cmdBegun_bootRetried (d : Dev) : d.cmdBegun.bootRetried = d.bootRetried := by
  rw [Dev.bootRetried, d.cmdBegun_u, d.cmdBegun_held, Dev.bootRetried]

theorem Dev.imageBegun_alters (d : Dev) : d.Alters imageKeys { d.u with boot := d.bootRetried } d.imageBegun := by
  have hbegun := d.cmdBegun_alters.mono (L := imageKeys) (by simp)
  have hretry := (Tr.retry_alters d.cmdBegun).mono (L := imageKeys) (by simp)
  rw [d.cmdBegun_u, d.cmdBegun_bootRetried] at hretry
  exact hbegun.trans hretry

theorem Dev.imageBegun_err (d : Dev) : d.imageBegun.fld MGMT_CMD_STATUS MGMT_CMD_STATUS_ERR HD = 0 :=
  ((Tr.retry_alters d.cmdBegun).fld_eq (by decide) _).trans d.cmdBegun_err

/-- Phase VERIFY on an image of `len` bytes has begun in `m`, from `d`. -/
def Dev.Verifies (d : Dev) (len : Nat) (fabric : Bool) (m : Dev) : Prop :=
  m.phase = 3 ∧ m.fld MGMT_CMD_STATUS MGMT_CMD_STATUS_BUSY HD = 1 ∧ d.GoesOn m ∧
    m.fld MGMT_CMD_STATUS MGMT_CMD_STATUS_ERR HD = 0 ∧ m.u.boot.imageLen = len ∧ m.u.boot.fabricBoot = fabric

theorem Tr.verifyBegins_run (len : Nat) (fabric : Bool) (d : Dev) : (Tr.verifyBegins len fabric).run d =
    (Tr.boot fun b => { b with imageLen := len, fabricBoot := fabric }).run
      ((Tr.fld MGMT_CMD_STATUS MGMT_CMD_STATUS_BUSY HD 1).run ((Tr.setPhase 3).run d)) := rfl

theorem Tr.verifyBegins_alters (len : Nat) (fabric : Bool) (d : Dev) : d.Alters imageKeys
    { d.u with boot := { d.u.boot with imageLen := len, fabricBoot := fabric } } ((Tr.verifyBegins len fabric).run d) := by
  have hphase := (Dev.Alters.refl imageKeys d).setPhase 3 (by decide)
  exact (hphase.hdFld MGMT_CMD_STATUS MGMT_CMD_STATUS_BUSY 1 (by decide)).boot
    fun b => { b with imageLen := len, fabricBoot := fabric }

/-- After the change of phase, BOOT_STATUS is left alone. -/
theorem Tr.verifyBegins_alters_phase (len : Nat) (fabric : Bool) (d : Dev) :
    ((Tr.setPhase 3).run d).Alters (· = MGMT_CMD_STATUS.key HD 0 0)
      { d.u with boot := { d.u.boot with imageLen := len, fabricBoot := fabric } } ((Tr.verifyBegins len fabric).run d) := by
  have h := ((Dev.Alters.refl (· = MGMT_CMD_STATUS.key HD 0 0) ((Tr.setPhase 3).run d)).hdFld MGMT_CMD_STATUS
    MGMT_CMD_STATUS_BUSY 1 rfl).boot fun b => { b with imageLen := len, fabricBoot := fabric }
  rwa [(Tr.setPhase_alters 3 d).u] at h

theorem Tr.verifyBegins_phase (len : Nat) (fabric : Bool) (d : Dev) : ((Tr.verifyBegins len fabric).run d).phase = 3 :=
  ((Tr.verifyBegins_alters_phase len fabric d).phase_eq (by decide)).trans (Tr.setPhase_phase (by decide) d)

theorem Tr.verifyBegins_held (len : Nat) (fabric : Bool) (d : Dev) : ((Tr.verifyBegins len fabric).run d).held = d.held :=
  ((Tr.verifyBegins_alters_phase len fabric d).held_eq (by decide)).trans (Tr.setPhase_held 3 d)

theorem Tr.verifyBegins_busy (len : Nat) (fabric : Bool) (d : Dev) :
    ((Tr.verifyBegins len fabric).run d).fld MGMT_CMD_STATUS MGMT_CMD_STATUS_BUSY HD = 1 := by
  rw [Tr.verifyBegins_run, Tr.boot_fld, MGMT_CMD_STATUS_onHD.fld_self (by decide)]
  rfl

theorem Tr.verifyBegins_err (len : Nat) (fabric : Bool) (d : Dev) :
    ((Tr.verifyBegins len fabric).run d).fld MGMT_CMD_STATUS MGMT_CMD_STATUS_ERR HD = d.fld MGMT_CMD_STATUS MGMT_CMD_STATUS_ERR HD := by
  rw [Tr.verifyBegins_run, Tr.boot_fld, MGMT_CMD_STATUS_onHD.fld_apart (by decide) (by decide) (by decide),
    (Tr.setPhase_alters 3 d).fld_eq (by decide)]

/-- VERIFY of an image command begins, whatever it staged before. -/
theorem Tr.verifyBegins_verifies (len : Nat) (fabric : Bool) (f : BootSt → BootSt) (hf : ∀ b, (f b).fault = b.fault) (d : Dev) :
    d.Verifies len fabric ((Tr.verifyBegins len fabric).run ((Tr.boot f).run d.imageBegun)) := by
  have halters := Tr.verifyBegins_alters len fabric ((Tr.boot f).run d.imageBegun)
  refine ⟨Tr.verifyBegins_phase len fabric _, Tr.verifyBegins_busy len fabric _, ⟨?held, ?fault⟩, ?err, ?len, ?fabric⟩
  case held => exact (Tr.verifyBegins_held len fabric _).trans (Tr.retry_held d.cmdBegun)
  case fault =>
    rw [halters.u, Tr.boot_run]
    simp only [hf, d.imageBegun_alters.u, Dev.bootRetried]
  case err => exact (Tr.verifyBegins_err len fabric _).trans d.imageBegun_err
  case len => rw [halters.u]
  case fabric => rw [halters.u]

/-- The bytes of an image of `len` bytes that fit the staging buffer. -/
def stagedOf (image : List Byte) (len : Nat) : List Byte := image.take (min len (64 * 2 ^ 20))

theorem fabricBootTr_eq (status : BitVec 16) (image : List Byte) : fabricBootTr status image = .imageCmd (.read fun d =>
    if status.toNat ≠ stOK then .hold 8 status.toNat
    else .seq [.boot fun b => { b with staging := bufOf (stagedOf image (d.fld BOOT_FABRIC_LEN BOOT_FABRIC_LEN_VALUE HD)) },
      .verifyBegins (d.fld BOOT_FABRIC_LEN BOOT_FABRIC_LEN_VALUE HD) true]) := rfl

section Images
variable {d : Dev} (h : d.TakesCmd) (hid : d.u.boot.idPub.isSome = true) (hphase : d.inPhase 2 = true)
include h hid hphase

theorem imageReady_run (length : BitVec 56) : (Tr.imageCmd (.verifyBegins length.toNat false)).run d =
    (Tr.verifyBegins length.toNat false).run ((Tr.boot id).run d.imageBegun) := Tr.imageCmd_run h _ hid hphase

theorem fabricBootTr_run_lost {status : BitVec 16} (image : List Byte) (hst : status.toNat ≠ stOK) :
    (fabricBootTr status image).run d = (Tr.hold 8 status.toNat).run d.imageBegun := by
  rw [fabricBootTr_eq, Tr.imageCmd_run h _ hid hphase, Tr.run_read, if_pos hst, Dev.imageBegun]

theorem fabricBootTr_run {status : BitVec 16} (image : List Byte) (hst : status.toNat = stOK) :
    (fabricBootTr status image).run d = (Tr.verifyBegins (d.fld BOOT_FABRIC_LEN BOOT_FABRIC_LEN_VALUE HD) true).run
      ((Tr.boot fun b => { b with staging := bufOf (stagedOf image (d.fld BOOT_FABRIC_LEN BOOT_FABRIC_LEN_VALUE HD)) }).run
        d.imageBegun) := by
  have hlen := d.imageBegun_alters.fld_eq (r := BOOT_FABRIC_LEN) (die := HD) (i := 0) (j := 0) (by decide) BOOT_FABRIC_LEN_VALUE
  rw [fabricBootTr_eq, Tr.imageCmd_run h _ hid hphase, ← Dev.imageBegun, Tr.run_read, if_neg (not_not.mpr hst), hlen]
  rfl

end Images

theorem imageVerifyDoneTr_run_idle {d : Dev} (h : d.inPhase 3 = false) : imageVerifyDoneTr.run d = d :=
  Tr.run_read_when_not (Bool.eq_false_iff.mp h)

/-- The device with the command that started VERIFY done. -/
def Dev.verified (d : Dev) : Dev := (Tr.mgmtBusy false).run d

theorem Dev.verified_alters (d : Dev) : d.Alters (· = MGMT_CMD_STATUS.key HD 0 0) d.u d.verified :=
  (Dev.Alters.refl _ d).hdFld MGMT_CMD_STATUS MGMT_CMD_STATUS_BUSY 0 rfl

theorem Dev.verified_busy (d : Dev) : d.verified.fld MGMT_CMD_STATUS MGMT_CMD_STATUS_BUSY HD = 0 :=
  (MGMT_CMD_STATUS_onHD.fld_self (by decide) 0 d).trans (Nat.zero_mod _)

theorem imageVerifyDoneTr_run_fault {d : Dev} (h : d.inPhase 3 = true) {f : Nat}
    (hfault : imageFault d.image d.u.boot.imageLen = some f) : imageVerifyDoneTr.run d = (Tr.hold 7 f).run d.verified := by
  rw [imageVerifyDoneTr, Tr.run_read, h, Tr.when_true, hfault]
  rfl

/-- What boot keeps of a verified image. -/
def BootSt.withImage (b : BootSt) (image : List Byte) : BootSt :=
  { b with version := leAt image 8 8, manifest := sha3 (image.take 4064), comps := imageComps image }

theorem imageVerifyDoneTr_run_good {d : Dev} (h : d.inPhase 3 = true)
    (hgood : imageFault d.image d.u.boot.imageLen = none) :
    imageVerifyDoneTr.run d = (Tr.setPhase 4).run ((Tr.boot fun b => b.withImage d.image).run d.verified) := by
  rw [imageVerifyDoneTr, Tr.run_read, h, Tr.when_true, hgood]
  rfl

/-! ## Loading an image (R650) -/

/-- What every step of a list keeps holds after all of them. -/
theorem Tr.each_keeps {α : Type} {f : α → Tr} {l : List α} {I : Dev → Prop} (hI : ∀ a ∈ l, ∀ d, I d → I ((f a).run d)) {d : Dev}
    (hd : I d) : I ((Tr.each l f).run d) := by
  induction l generalizing d with
  | nil => exact hd
  | cons a l ih =>
    obtain ⟨ha, hl⟩ := List.forall_mem_cons.mp hI
    exact ih hl (ha d hd)

/-- What one step of a list makes true, and no other step undoes, holds after all of them. -/
theorem Tr.each_establishes {α : Type} {f : α → Tr} {l : List α} {I G : Dev → Prop} {a : α} (ha : a ∈ l)
    (hI : ∀ b ∈ l, ∀ d, I d → I ((f b).run d)) (hG : ∀ b ∈ l, ∀ d, I d → G d → G ((f b).run d))
    (hw : ∀ d, I d → G ((f a).run d)) {d : Dev} (hd : I d) : G ((Tr.each l f).run d) := by
  induction l generalizing d with
  | nil => cases ha
  | cons b l ih =>
    obtain ⟨hIb, hIl⟩ := List.forall_mem_cons.mp hI
    obtain ⟨hGb, hGl⟩ := List.forall_mem_cons.mp hG
    rcases List.mem_cons.mp ha with rfl | hmem
    · exact (Tr.each_keeps (I := fun d => I d ∧ G d) (fun b hb d h => ⟨hIl b hb d h.1, hGl b hb d h.1 h.2⟩)
        ⟨hIb d hd, hw d hd⟩).2
    · exact ih hmem hIl hGl (hIb d hd)

/-- From `d` to `n` boot kept its state, and no register changed but those whose keys are in `K`. -/
structure Dev.BootsBut (K : Nat → Prop) (d n : Dev) : Prop where
  boot : n.u.boot = d.u.boot
  get : ∀ k, ¬ K k → n.get k = d.get k

theorem Dev.BootsBut.refl (K : Nat → Prop) (d : Dev) : d.BootsBut K d := ⟨rfl, fun _ _ => rfl⟩

section BootsBut
variable {K : Nat → Prop} {d n m : Dev}

theorem Dev.BootsBut.trans (h : d.BootsBut K n) (g : n.BootsBut K m) : d.BootsBut K m :=
  ⟨g.boot.trans h.boot, fun k hk => (g.get k hk).trans (h.get k hk)⟩

theorem Dev.BootsBut.fld (h : d.BootsBut K n) (r : Reg) (f : Fld) (die x : Nat) (hk : K (r.key die 0 0)) :
    d.BootsBut K ((Tr.fld r f die x).run n) :=
  have g := (Dev.Alters.refl K n).fld hk f x
  h.trans ⟨congrArg Units.boot g.u, g.get⟩

theorem Dev.BootsBut.rawStore (h : d.BootsBut K n) (la : Nat) (bs : List Byte) : d.BootsBut K ((Tr.rawStore la bs).run n) :=
  Tr.each_keeps (I := d.BootsBut K) (fun _ _ _ hm => hm.trans ⟨rfl, fun _ _ => rfl⟩) h

theorem Dev.BootsBut.clearSectors (h : d.BootsBut K n) (la len : Nat) : d.BootsBut K ((Tr.clearSectors la len).run n) :=
  h.trans ⟨rfl, fun _ _ => rfl⟩

theorem Dev.BootsBut.placeComp (h : d.BootsBut K n) (image : List Byte) (c : Nat × Nat × Nat × List Byte) (la : Nat) :
    d.BootsBut K ((Tr.placeComp image c la).run n) := by
  rw [Tr.placeComp, Tr.run_seq_cons, Tr.run_seq_cons, Tr.run_seq_nil]
  exact (h.rawStore la _).clearSectors la _

end BootsBut

/-- The component of a type in the verified image. -/
def Dev.comp (d : Dev) (t : Nat) : Option (Nat × Nat × Nat × List Byte) := d.u.boot.comps.find? (·.1 = t)

/-- The component of a type placed at a local address, where the image has one. -/
def Dev.placed (d : Dev) (t la : Nat) : Tr := .opt (d.comp t) fun c => .placeComp d.image c la

theorem Dev.BootsBut.placed {K : Nat → Prop} {d n : Dev} (h : d.BootsBut K n) (e : Dev) (t la : Nat) :
    d.BootsBut K ((e.placed t la).run n) := by
  rw [Dev.placed]
  cases e.comp t with
  | none => exact h
  | some c => exact h.placeComp e.image c la

/-- The length of the component of a type; 0 where the image has none. -/
def Dev.compSize (d : Dev) (t : Nat) : Nat :=
  match d.comp t with
  | some c => c.2.2.1
  | none => 0

theorem Dev.compSize_eq (d : Dev) (t : Nat) : d.compSize t = ((d.comp t).map fun c => c.2.2.1).getD 0 := by
  unfold Dev.compSize
  cases d.comp t <;> rfl

/-- Where component 7 and the boot information block lie. -/
def Dev.osAt (d : Dev) : Nat := cdiv (d.compSize 2) (2 * 2 ^ 20) * (2 * 2 ^ 20)

def Dev.infoAt (d : Dev) : Nat :=
  cdiv (if (d.comp 7).isSome then d.osAt + d.compSize 7 else d.compSize 2) 4096 * 4096

/-- What loading does on tensor die `t`. -/
def Dev.loadedOn (d : Dev) (ingAt collAt : List (BitVec 41)) (t : Nat) : Tr :=
  .seq [d.placed 4 (ingAt.getD t 0).toNat, d.placed 5 (collAt.getD t 0).toNat,
    .fld ING_IMAGE ING_IMAGE_BASE t (d.globalOf (ingAt.getD t 0).toNat / 4096)]

/-- What loading does besides, before BOOT_INFO shows the information block, of bytes `bs`. -/
def Dev.loadedRest (d : Dev) (collAt : List (BitVec 41)) (bs : List Byte) : Tr :=
  .seq [
    .each [5, 6] fun p => .fld COLL_ASSIST_IMAGE COLL_ASSIST_IMAGE_BASE p (d.globalOf (collAt.getD (2 * (p - 5)) 0).toNat / 4096),
    d.placed 2 0, d.placed 7 d.osAt, .rawStore d.infoAt bs, .clearSectors d.infoAt 4096]

theorem imageLoadDoneTr_run_idle (ingAt collAt : List (BitVec 41)) {d : Dev} (h : d.inPhase 4 = false) :
    (imageLoadDoneTr ingAt collAt).run d = d := Tr.run_read_when_not (Bool.eq_false_iff.mp h)

theorem imageLoadDoneTr_run (ingAt collAt : List (BitVec 41)) {d : Dev} (h : d.inPhase 4 = true) :
    ∃ bs, (imageLoadDoneTr ingAt collAt).run d = (Tr.setPhase 5).run ((Tr.reg BOOT_INFO HD (w64 d.infoAt)).run
      ((d.loadedRest collAt bs).run ((Tr.each tds fun t => d.loadedOn ingAt collAt t).run d))) := by
  rw [imageLoadDoneTr, Tr.run_read, h, Tr.when_true]
  simp only [Dev.loadedRest, Dev.loadedOn, Dev.placed, Dev.infoAt, Dev.osAt, Dev.compSize, Dev.comp, Tr.run_seq_cons, Tr.run_seq_nil]
  generalize (List.range 4096).map _ = bs
  exact ⟨bs, rfl⟩

abbrev imageBases (k : Nat) : Prop := k ∈ tds.map fun t => ING_IMAGE.key t 0 0

abbrev assistBases (k : Nat) : Prop := k ∈ [5, 6].map fun p => COLL_ASSIST_IMAGE.key p 0 0

theorem Dev.loadedOn_bootsBut (e : Dev) (ingAt collAt : List (BitVec 41)) (t : Nat) (d : Dev) :
    d.BootsBut (· = ING_IMAGE.key t 0 0) ((e.loadedOn ingAt collAt t).run d) := by
  rw [Dev.loadedOn, Tr.run_seq_cons, Tr.run_seq_cons, Tr.run_seq_cons, Tr.run_seq_nil]
  exact (((Dev.BootsBut.refl _ d).placed e 4 _).placed e 5 _).fld ING_IMAGE ING_IMAGE_BASE t _ rfl

theorem ING_IMAGE_onTd {t : Nat} (ht : t ∈ tds) : findReg t ING_IMAGE.base = some (ING_IMAGE, 0, 0) := by
  fin_cases ht <;> rfl

theorem Dev.loadedOn_base (e : Dev) (ingAt collAt : List (BitVec 41)) {t : Nat} (ht : t ∈ tds) (d : Dev) :
    ((e.loadedOn ingAt collAt t).run d).fld ING_IMAGE ING_IMAGE_BASE t =
      e.globalOf (ingAt.getD t 0).toNat / 4096 % 2 ^ ING_IMAGE_BASE.w := by
  rw [Dev.loadedOn, Tr.run_seq_cons, Tr.run_seq_cons, Tr.run_seq_cons, Tr.run_seq_nil]
  exact Tr.fld_fld_self (ING_IMAGE_onTd ht) (by decide) (by decide) _ _

theorem ING_IMAGE_key_inj {t a : Nat} (h : ING_IMAGE.key t 0 0 = ING_IMAGE.key a 0 0) : t = a := by
  unfold Reg.key at h
  omega

/-- The device with an image loaded on the tensor dies. -/
def Dev.loadedTds (d : Dev) (ingAt collAt : List (BitVec 41)) : Dev := (Tr.each tds fun t => d.loadedOn ingAt collAt t).run d

theorem Dev.loadedTds_bootsBut (d : Dev) (ingAt collAt : List (BitVec 41)) : d.BootsBut imageBases (d.loadedTds ingAt collAt) := by
  refine Tr.each_keeps (I := d.BootsBut imageBases) (fun t ht n hn => ?_) (.refl _ d)
  have h := d.loadedOn_bootsBut ingAt collAt t n
  refine hn.trans ⟨h.boot, fun k hk => h.get k fun hkey => hk ?_⟩
  exact hkey ▸ List.mem_map_of_mem ht

theorem Dev.loadedTds_base (d : Dev) (ingAt collAt : List (BitVec 41)) {t : Nat} (ht : t ∈ tds) :
    (d.loadedTds ingAt collAt).fld ING_IMAGE ING_IMAGE_BASE t =
      d.globalOf (ingAt.getD t 0).toNat / 4096 % 2 ^ ING_IMAGE_BASE.w := by
  refine Tr.each_establishes (I := fun _ => True) (G := fun n => n.fld ING_IMAGE ING_IMAGE_BASE t = _) ht (fun _ _ _ _ => trivial)
    (fun a ha n _ hn => ?_) (fun n _ => d.loadedOn_base ingAt collAt ht n) trivial
  by_cases hta : t = a
  · subst hta
    exact d.loadedOn_base ingAt collAt ha n
  · have hkept := (d.loadedOn_bootsBut ingAt collAt a n).get (ING_IMAGE.key t 0 0) (mt ING_IMAGE_key_inj hta)
    exact (congrArg ING_IMAGE_BASE.get hkept).trans hn

theorem Dev.loadedRest_bootsBut (e : Dev) (collAt : List (BitVec 41)) (bs : List Byte) (d : Dev) :
    d.BootsBut assistBases ((e.loadedRest collAt bs).run d) := by
  simp only [Dev.loadedRest, Tr.run_seq_cons, Tr.run_seq_nil]
  have hassist : d.BootsBut assistBases ((Tr.each [5, 6] fun p => .fld COLL_ASSIST_IMAGE COLL_ASSIST_IMAGE_BASE p
      (e.globalOf (collAt.getD (2 * (p - 5)) 0).toNat / 4096)).run d) :=
    Tr.each_keeps (I := d.BootsBut assistBases)
      (fun p hp n hn => hn.fld COLL_ASSIST_IMAGE COLL_ASSIST_IMAGE_BASE p _ (List.mem_map_of_mem hp)) (.refl _ d)
  exact (((hassist.placed e 2 0).placed e 7 e.osAt).rawStore e.infoAt bs).clearSectors e.infoAt 4096

/-- What loading leaves: phase READY, boot as it was, BOOT_INFO and the images' bases. -/
theorem imageLoadDoneTr_loaded (ingAt collAt : List (BitVec 41)) {d : Dev} (h : d.inPhase 4 = true) :
    ((imageLoadDoneTr ingAt collAt).run d).phase = 5 ∧ ((imageLoadDoneTr ingAt collAt).run d).u.boot = d.u.boot ∧
      Holds ((imageLoadDoneTr ingAt collAt).run d) BOOT_INFO HD 0 0 d.infoAt ∧
      ∀ t ∈ tds, ((imageLoadDoneTr ingAt collAt).run d).fld ING_IMAGE ING_IMAGE_BASE t =
        d.globalOf (ingAt.getD t 0).toNat / 4096 % 2 ^ ING_IMAGE_BASE.w := by
  obtain ⟨bs, hrun⟩ := imageLoadDoneTr_run ingAt collAt h
  rw [hrun, ← Dev.loadedTds]
  have hrest := d.loadedRest_bootsBut collAt bs (d.loadedTds ingAt collAt)
  generalize (d.loadedRest collAt bs).run (d.loadedTds ingAt collAt) = m at hrest ⊢
  have hphase := Tr.setPhase_alters 5 ((Tr.reg BOOT_INFO HD (w64 d.infoAt)).run m)
  refine ⟨Tr.setPhase_phase (by decide) _, ?boot, ?info, fun t ht => ?base⟩
  case boot => rw [hphase.u, Tr.reg_u, hrest.boot, (d.loadedTds_bootsBut ingAt collAt).boot]
  case info => exact (hphase.get _ (by decide)).trans (Tr.reg_holds BOOT_INFO HD d.infoAt 0 0 m)
  case base =>
    have hbase := d.loadedTds_base ingAt collAt ht
    have hapart : ING_IMAGE.key t 0 0 ≠ BOOT_STATUS.key HD 0 0 ∧ ING_IMAGE.key t 0 0 ≠ BOOT_INFO.key HD 0 0 ∧
        ¬ assistBases (ING_IMAGE.key t 0 0) := by fin_cases ht <;> decide
    obtain ⟨hstatus, hinfo, hassist⟩ := hapart
    rw [hphase.fld_eq hstatus, Tr.reg_fld_ne hinfo, ← hbase]
    exact congrArg ING_IMAGE_BASE.get (hrest.get _ hassist)

end Sys2Proof.Machine
end

section
/-! PROOFS. The end of self-test (R24, R26, R87, R340, R541, R608, R638). -/

namespace Sys2Proof.Machine

open Sys2Proof.Safety

/-! ## Self-test begins (R638, R678) -/

/-- Self-test can begin or has begun: phase ROM has not to wait for REFCLK100. -/
def Dev.CanTest (d : Dev) : Prop := d.inPhase 1 = true ∨ d.inPhase 0 = true ∧ d.u.boot.refclkBad = false

theorem Tr.selftestBegins_run_begun {d : Dev} (h : d.inPhase 1 = true) : Tr.selftestBegins.run d = d := by
  obtain ⟨-, hphase⟩ := (d.inPhase_iff 1).mp h
  have hnot : ¬ (d.inPhase 0 && !d.u.boot.refclkBad) = true := by simp [Dev.inPhase, hphase]
  exact Tr.run_read_when_not hnot

theorem Tr.selftestBegins_run_rom {d : Dev} (h : d.inPhase 0 = true) (hclk : d.u.boot.refclkBad = false) :
    Tr.selftestBegins.run d = (Tr.setPhase 1).run d :=
  Tr.run_read_when (b := fun d => d.inPhase 0 && !d.u.boot.refclkBad) (by simp [h, hclk])

/-- The device in phase SELFTEST. -/
def Dev.testing (d : Dev) : Dev := Tr.selftestBegins.run d

theorem Dev.testing_alters {d : Dev} (h : d.CanTest) : d.Alters (· = BOOT_STATUS.key HD 0 0) d.u d.testing := by
  rcases h with hbegun | ⟨hrom, hclk⟩
  · rw [Dev.testing, Tr.selftestBegins_run_begun hbegun]
    exact .refl _ d
  · rw [Dev.testing, Tr.selftestBegins_run_rom hrom hclk]
    exact Tr.setPhase_alters 1 d

theorem Dev.testing_phase {d : Dev} (h : d.CanTest) : d.testing.phase = 1 := by
  rcases h with hbegun | ⟨hrom, hclk⟩
  · rw [Dev.testing, Tr.selftestBegins_run_begun hbegun]
    exact ((d.inPhase_iff 1).mp hbegun).2
  · rw [Dev.testing, Tr.selftestBegins_run_rom hrom hclk]
    exact Tr.setPhase_phase (by decide) d

theorem Dev.testing_held {d : Dev} (h : d.CanTest) : d.testing.held = d.held := by
  rcases h with hbegun | ⟨hrom, hclk⟩
  · rw [Dev.testing, Tr.selftestBegins_run_begun hbegun]
  · rw [Dev.testing, Tr.selftestBegins_run_rom hrom hclk, Tr.setPhase_held]

theorem Dev.testing_inPhase {d : Dev} (h : d.CanTest) : d.testing.inPhase 1 = true := by
  have hstate : d.state = 1 := by
    rcases h with hbegun | ⟨hrom, -⟩
    · exact ((d.inPhase_iff 1).mp hbegun).1
    · exact ((d.inPhase_iff 0).mp hrom).1
  exact (d.testing.inPhase_iff 1).mpr ⟨((testing_alters h).state_eq (by decide)).trans hstate, testing_phase h⟩

/-! ## The survey of cells, lanes, ways and SRAM (R87, R377, R541, R608) -/

/-- The physical cells of a tensor die that Dawn puts into service, ascending. -/
def SpareSt.serving (s : SpareSt) (die : Nat) : List Nat := (List.range 168).filter fun p => s.dawnState 0 die p = 0

/-- What CELL_MAP shows of physical cell `p`. -/
def mapWord (p : Nat) : Nat := p + p / 14 * 2 ^ 8 + p % 14 * 2 ^ 12

/-- The device with the cells in service of a die shown in CELL_MAP. -/
def Dev.cellsMapped (d : Dev) (die : Nat) : Dev :=
  (Tr.each (d.u.spare.serving die).zipIdx fun e => .reg CELL_MAP die (w64 (mapWord e.1)) e.2).run d

theorem Tr.dawnCells_run (die : Nat) (d : Dev) : (Tr.dawnCells die).run d =
    (Tr.each (d.u.spare.serving die).zipIdx fun e => .fld CELL_PHYS CELL_PHYS_LOGICAL die e.2 e.1).run
      ((Tr.each (List.range 168) fun p => .reg CELL_PHYS die (w64 (d.u.spare.dawnState 0 die p)) p).run (d.cellsMapped die)) := by
  simp only [Tr.dawnCells, Dev.cellsMapped, SpareSt.serving, mapWord, Tr.run_read, Tr.run_seq_cons, Tr.run_seq_nil]

theorem SpareSt.serving_lt (s : SpareSt) (die : Nat) {p : Nat} (h : p ∈ s.serving die) : p < 168 :=
  List.mem_range.mp (List.mem_of_mem_filter h)

theorem SpareSt.serving_length (s : SpareSt) (die : Nat) : (s.serving die).length ≤ 168 := by
  have h := List.length_filter_le (fun p => decide (s.dawnState 0 die p = 0)) (List.range 168)
  rwa [List.length_range] at h

theorem SpareSt.mem_serving_zipIdx {s : SpareSt} {die : Nat} {e : Nat × Nat} (h : e ∈ (s.serving die).zipIdx) :
    e.1 < 168 ∧ e.2 < 168 ∧ (s.serving die)[e.2]? = some e.1 := by
  have hget := List.mem_zipIdx_iff_getElem?.mp h
  have hlt : e.2 < (s.serving die).length := (List.getElem?_eq_some_iff.mp hget).1
  exact ⟨s.serving_lt die (List.mem_of_getElem? hget), Nat.lt_of_lt_of_le hlt (s.serving_length die), hget⟩

/-- Keys of the cell registers of a die, and of those of them that follow CELL_MAP. -/
def cellKeys (die k : Nat) : Prop := k / 2 ^ 24 = die ∧ 0x41000 ≤ k % 2 ^ 24 ∧ k % 2 ^ 24 < 0x42000
def physKeys (die k : Nat) : Prop := k / 2 ^ 24 = die ∧ 0x41800 ≤ k % 2 ^ 24 ∧ k % 2 ^ 24 < 0x42000

theorem CELL_MAP_key (die l : Nat) : CELL_MAP.key die l 0 = die * 2 ^ 24 + 0x41000 + l * 8 := by
  simp [Reg.key, CELL_MAP]
theorem CELL_PHYS_key (die p : Nat) : CELL_PHYS.key die p 0 = die * 2 ^ 24 + 0x41800 + p * 8 := by
  simp [Reg.key, CELL_PHYS]

theorem cellKeys_map (die : Nat) {l : Nat} (hl : l < 168) : cellKeys die (CELL_MAP.key die l 0) := by
  rw [cellKeys, CELL_MAP_key]
  omega

theorem physKeys_phys (die : Nat) {p : Nat} (hp : p < 168) : physKeys die (CELL_PHYS.key die p 0) := by
  rw [physKeys, CELL_PHYS_key]
  omega

theorem not_physKeys_map (die : Nat) {l : Nat} (hl : l < 168) : ¬ physKeys die (CELL_MAP.key die l 0) := by
  rw [physKeys, CELL_MAP_key]
  omega

section Cells
variable {K : Nat → Prop} {u : Units} {d n : Dev}

/-- Steps that each alter only registers in `K` alter only those together. -/
theorem Dev.Alters.each {α : Type} {f : α → Tr} {l : List α} (h : d.Alters K u n)
    (hf : ∀ a ∈ l, ∀ m, d.Alters K u m → d.Alters K u ((f a).run m)) : d.Alters K u ((Tr.each l f).run n) :=
  Tr.each_keeps (I := d.Alters K u) hf h

theorem Dev.cellsMapped_alters (d : Dev) (die : Nat) : d.Alters (cellKeys die) d.u (d.cellsMapped die) := by
  refine (Dev.Alters.refl (cellKeys die) d).each fun e he m hm => ?_
  obtain ⟨-, hl, -⟩ := SpareSt.mem_serving_zipIdx he
  exact hm.reg (cellKeys_map die hl) _

/-- Once CELL_MAP is set, the survey of the cells writes CELL_PHYS alone. -/
theorem Tr.dawnCells_alters_phys (die : Nat) (d : Dev) :
    (d.cellsMapped die).Alters (physKeys die) (d.cellsMapped die).u ((Tr.dawnCells die).run d) := by
  rw [Tr.dawnCells_run]
  refine ((Dev.Alters.refl (physKeys die) (d.cellsMapped die)).each fun p hp m hm => ?_).each fun e he m hm => ?_
  · exact hm.reg (physKeys_phys die (List.mem_range.mp hp)) _
  · obtain ⟨hp, -, -⟩ := SpareSt.mem_serving_zipIdx he
    exact hm.fld (physKeys_phys die hp) _ _

theorem Tr.dawnCells_alters (die : Nat) (d : Dev) : d.Alters (cellKeys die) d.u ((Tr.dawnCells die).run d) := by
  have hmap := d.cellsMapped_alters die
  have hphys := (Tr.dawnCells_alters_phys die d).mono (L := cellKeys die) fun k ⟨hdie, hlo, hhi⟩ => ⟨hdie, by omega, hhi⟩
  rw [hmap.u] at hphys
  exact hmap.trans hphys

/-- A cell in service shows in CELL_MAP of its die. -/
theorem Dev.cellsMapped_holds (d : Dev) (die : Nat) {l p : Nat} (h : (d.u.spare.serving die)[l]? = some p) :
    Holds (d.cellsMapped die) CELL_MAP die l 0 (mapWord p) := by
  have hmem : (p, l) ∈ (d.u.spare.serving die).zipIdx := List.mem_zipIdx_iff_getElem?.mpr h
  refine Tr.each_establishes (I := fun _ => True) (G := fun m => Holds m CELL_MAP die l 0 (mapWord p)) hmem
    (fun _ _ _ _ => trivial) (fun e he m _ hm => ?_) (fun m _ => Tr.reg_holds CELL_MAP die (mapWord p) l 0 m) trivial
  by_cases hsame : e.2 = l
  · obtain ⟨-, -, hget⟩ := SpareSt.mem_serving_zipIdx he
    have hp : e.1 = p := Option.some.inj (hget.symm.trans (hsame ▸ h))
    rw [hsame, hp]
    exact Tr.reg_holds CELL_MAP die (mapWord p) l 0 m
  · have hne : CELL_MAP.key die l 0 ≠ CELL_MAP.key die e.2 0 := by
      rw [CELL_MAP_key, CELL_MAP_key]
      omega
    exact (Tr.reg_reg_ne _ _ _ _ _ _ _ _ _ _ hne).trans hm

theorem Tr.dawnCells_map (die : Nat) (d : Dev) {l p : Nat} (h : (d.u.spare.serving die)[l]? = some p) :
    Holds ((Tr.dawnCells die).run d) CELL_MAP die l 0 (mapWord p) := by
  have hmem : (p, l) ∈ (d.u.spare.serving die).zipIdx := List.mem_zipIdx_iff_getElem?.mpr h
  obtain ⟨-, hl, -⟩ := SpareSt.mem_serving_zipIdx hmem
  have hkept := (Tr.dawnCells_alters_phys die d).get _ (not_physKeys_map die hl)
  exact hkept.trans (d.cellsMapped_holds die h)

end Cells

/-- Keys of the port registers of a die that show its lanes. -/
def laneKeys (die k : Nat) : Prop := k / 2 ^ 24 = die ∧ 0x41000 ≤ k % 2 ^ 24 ∧ k % 2 ^ 24 < 0x42000

theorem laneKeys_lanes (die : Nat) {k : Nat} (hk : k < 16) : laneKeys die (FAB_PORT_LANES.key die k 0) := by
  have hkey : FAB_PORT_LANES.key die k 0 = die * 2 ^ 24 + 0x41018 + k * 0x100 := by simp [Reg.key, FAB_PORT_LANES]
  rw [laneKeys, hkey]
  omega

theorem laneKeys_status (die : Nat) {k : Nat} (hk : k < 16) : laneKeys die (FAB_PORT_STATUS.key die k 0) := by
  have hkey : FAB_PORT_STATUS.key die k 0 = die * 2 ^ 24 + 0x41008 + k * 0x100 := by simp [Reg.key, FAB_PORT_STATUS]
  rw [laneKeys, hkey]
  omega

section Survey
variable {K : Nat → Prop} {u : Units} {d n : Dev}

theorem Dev.Alters.setLane (h : d.Alters K u n) {die k : Nat} (hsub : ∀ a, laneKeys die a → K a) (hk : k < 16) (i p : Nat) :
    d.Alters K u ((Tr.setLane die k i p).run n) := by
  rw [Tr.setLane, Tr.run_seq_cons, Tr.run_seq_cons, Tr.run_seq_nil, Tr.run_read, Tr.run_read]
  exact (h.reg (hsub _ (laneKeys_lanes die hk)) _).fld (hsub _ (laneKeys_status die hk)) _ _

theorem Dev.Alters.dawnLanes (h : d.Alters K u n) {die : Nat} (hsub : ∀ a, laneKeys die a → K a) :
    d.Alters K u ((Tr.dawnLanes die).run n) := by
  rw [Tr.dawnLanes, Tr.run_read, Tr.run_seq_cons, Tr.run_seq_cons, Tr.run_seq_nil]
  refine (h.each fun k hk m hm => ?lanes).each fun j hj m hm => ?spares
  case lanes => exact hm.reg (hsub _ (laneKeys_lanes die (List.mem_range.mp hk))) _
  case spares =>
    refine hm.when ?_
    cases hfirst : (List.range 16).find? fun i => n.u.spare.failed.contains (ukey 2 die (17 * j + i)) with
    | none => exact hm
    | some i =>
      have hi : i < 16 := List.mem_range.mp (List.mem_of_find?_eq_some hfirst)
      have hj : j < 8 := List.mem_range.mp hj
      exact hm.setLane hsub (by omega) _ _

theorem Dev.Alters.dirWays (h : d.Alters K u n) {home : Nat} (hk : K (COH_DIR_STATUS.key home 0 0)) :
    d.Alters K u ((Tr.dirWays home).run n) := by
  rw [Tr.dirWays, Tr.run_read, Tr.run_seq_cons, Tr.run_seq_cons, Tr.run_seq_nil]
  exact (h.fld hk _ _).fld hk _ _

theorem Dev.Alters.dawnSram (h : d.Alters K u n) {die : Nat} (hk : K (SPARE_SRAM.key die 0 0)) (r c : Nat) :
    d.Alters K u ((Tr.dawnSram die r c).run n) := by
  unfold Tr.dawnSram
  rcases repairStock die with ⟨rs, cs⟩
  exact h.reg hk _

end Survey

/-- What follows the survey of the cells: lanes, ways of the directories and SRAM. -/
def Tr.dawnOthers (rows cols : List (BitVec 16)) : Tr :=
  .seq [.each [5, 6] .dawnLanes, .each tdsHd .dirWays,
    .each allDies fun n => .dawnSram n (rows.getD n 0).toNat (cols.getD n 0).toNat]

/-- Keys of the registers that the survey of a die writes, and of those among them that do not show cells. -/
def otherKeys (k : Nat) : Prop := laneKeys 5 k ∨ laneKeys 6 k ∨ k % 2 ^ 24 = 0x7a008 ∨ k % 2 ^ 24 = 0xb0000
def surveyKeys (k : Nat) : Prop := otherKeys k ∨ k / 2 ^ 24 < 4 ∧ 0x41000 ≤ k % 2 ^ 24 ∧ k % 2 ^ 24 < 0x42000

theorem Tr.dawnOthers_alters (rows cols : List (BitVec 16)) (d : Dev) :
    d.Alters otherKeys d.u ((Tr.dawnOthers rows cols).run d) := by
  rw [Tr.dawnOthers, Tr.run_seq_cons, Tr.run_seq_cons, Tr.run_seq_cons, Tr.run_seq_nil]
  refine (((Dev.Alters.refl otherKeys d).each fun die hdie m hm => ?lanes).each fun home hhome m hm => ?ways).each
    fun die hdie m hm => ?sram
  case lanes =>
    simp only [List.mem_cons, List.not_mem_nil, or_false] at hdie
    rcases hdie with rfl | rfl
    · exact hm.dawnLanes fun _ => Or.inl
    · exact hm.dawnLanes fun _ => Or.inr ∘ Or.inl
  case ways => exact hm.dirWays (.inr (.inr (.inl (by fin_cases hhome <;> rfl))))
  case sram => exact hm.dawnSram (.inr (.inr (.inr (by fin_cases hdie <;> rfl)))) _ _

/-- The device with the cells of every tensor die surveyed. -/
def Dev.cellsSurveyed (d : Dev) : Dev := (Tr.each tds .dawnCells).run d

theorem Dev.cellsSurveyed_alters (d : Dev) : d.Alters surveyKeys d.u d.cellsSurveyed := by
  refine (Dev.Alters.refl surveyKeys d).each fun die hdie m hm => ?_
  have hlt : die < 4 := by fin_cases hdie <;> decide
  have hcells := (Tr.dawnCells_alters die m).mono (L := surveyKeys) fun k ⟨hk, hoff⟩ => .inr ⟨hk ▸ hlt, hoff⟩
  rw [hm.u] at hcells
  exact hm.trans hcells

theorem Dev.cellsSurveyed_map (d : Dev) {t l p : Nat} (ht : t ∈ tds) (h : (d.u.spare.serving t)[l]? = some p) :
    Holds d.cellsSurveyed CELL_MAP t l 0 (mapWord p) := by
  have hmem : (p, l) ∈ (d.u.spare.serving t).zipIdx := List.mem_zipIdx_iff_getElem?.mpr h
  obtain ⟨-, hl, -⟩ := SpareSt.mem_serving_zipIdx hmem
  refine Tr.each_establishes (I := fun m => m.u = d.u) (G := fun m => Holds m CELL_MAP t l 0 (mapWord p)) ht
    (fun die _ m hm => (Tr.dawnCells_alters die m).u.trans hm) (fun die _ m hm hmap => ?_)
    (fun m hm => Tr.dawnCells_map t m (hm ▸ h)) rfl
  by_cases hdie : t = die
  · subst hdie
    exact Tr.dawnCells_map t m (hm ▸ h)
  · have hapart : ¬ cellKeys die (CELL_MAP.key t l 0) := fun hkey => hdie ((cellKeys_map t hl).1.symm.trans hkey.1)
    exact ((Tr.dawnCells_alters die m).get _ hapart).trans hmap

/-- The device at the end of the survey. -/
def Dev.surveyed (d : Dev) (rows cols : List (BitVec 16)) : Dev := (Tr.dawnOthers rows cols).run d.cellsSurveyed

theorem Dev.surveyed_alters (d : Dev) (rows cols : List (BitVec 16)) : d.Alters surveyKeys d.u (d.surveyed rows cols) := by
  have hothers := (Tr.dawnOthers_alters rows cols d.cellsSurveyed).mono (L := surveyKeys) fun _ => Or.inl
  rw [d.cellsSurveyed_alters.u] at hothers
  exact d.cellsSurveyed_alters.trans hothers

theorem not_otherKeys_map {t l : Nat} (ht : t ∈ tds) (hl : l < 168) : ¬ otherKeys (CELL_MAP.key t l 0) := by
  have hlt : t < 4 := by fin_cases ht <;> decide
  rw [otherKeys, laneKeys, laneKeys, CELL_MAP_key]
  omega

theorem Dev.surveyed_map (d : Dev) (rows cols : List (BitVec 16)) {t l p : Nat} (ht : t ∈ tds)
    (h : (d.u.spare.serving t)[l]? = some p) : Holds (d.surveyed rows cols) CELL_MAP t l 0 (mapWord p) := by
  have hmem : (p, l) ∈ (d.u.spare.serving t).zipIdx := List.mem_zipIdx_iff_getElem?.mpr h
  obtain ⟨-, hl, -⟩ := SpareSt.mem_serving_zipIdx hmem
  have hkept := (Tr.dawnOthers_alters rows cols d.cellsSurveyed).get _ (not_otherKeys_map ht hl)
  exact hkept.trans (d.cellsSurveyed_map ht h)

end Sys2Proof.Machine
end

section
/-! PROOFS. The capability words of the dies (R24, R26, R28). -/

namespace Sys2Proof.Machine

open Sys2Proof.Safety

/-! ## The capability words resolved (R24, R26, R28) -/

section Caps
variable {d n : Dev} (hcap : ∀ i < 7, n.capWord i = d.capWord i)
include hcap

theorem Dev.capDies_congr : n.capDies = d.capDies := by
  refine List.filter_congr fun i hi => ?_
  rw [hcap i (List.mem_range.mp hi)]

omit hcap in
theorem Dev.lt_of_mem_capDies {i : Nat} (h : i ∈ d.capDies) : i < 7 := List.mem_range.mp (List.mem_of_mem_filter h)

theorem Dev.effective_congr : n.effective = d.effective := by
  rw [Dev.effective, Dev.capDies_congr hcap, Dev.effective]
  refine Prod.ext (List.foldl_ext _ _ _ fun _ i hi => ?_) (List.foldl_ext _ _ _ fun _ i hi => ?_)
  · rw [hcap i (lt_of_mem_capDies hi)]
  · rw [hcap i (lt_of_mem_capDies hi)]

theorem Dev.refusal_congr (hlinks : n.u.links = d.u.links) : n.refusal = d.refusal := by
  have hlink : ∀ l, n.link l = d.link l := fun l => by rw [Dev.link, hlinks, Dev.link]
  have hfind : ∀ p : Nat → Nat → Bool, d.capDies.find? (fun i => p i (n.capWord i)) = d.capDies.find? fun i => p i (d.capWord i) :=
    fun p => List.find?_congr fun i hi => by rw [hcap i (lt_of_mem_capDies hi)]
  rw [Dev.refusal, Dev.capDies_congr hcap, Dev.effective_congr hcap,
    hfind fun _ w => decide (capVer w < 0x100), hfind fun _ w => decide (d.effective.1 < capFloor w),
    hfind fun i w => decide (capType w ≠ dieType i), Dev.refusal]
  simp only [hlink]

end Caps

/-- What BOOT_LINKUP_STATUS shows of a refusal, if there is one, and of the effective version. -/
def linkupWord (refused : Option (Nat × Nat × Nat)) (ver : Nat) : Nat :=
  1 + b01 refused.isSome * 2 + (refused.getD (0, 0, 0)).1 * 16 + (refused.getD (0, 0, 0)).2.1 * 256 +
    (refused.getD (0, 0, 0)).2.2 * 2 ^ 16 + ver % 256 * 2 ^ 24 + ver / 256 * 2 ^ 32

/-- The effective capability word, version and features, shown on a die. -/
def Tr.showEff (eff : Nat × Nat) (die : Nat) : Tr :=
  .seq [.reg BOOT_CAP_EFF_LO die (w64 eff.1), .reg BOOT_CAP_EFF_HI die (w64 eff.2)]

/-- The device with a word shown in BOOT_LINKUP_STATUS, and the effective word on every die unless the words are refused. -/
def Dev.resolvedTo (d : Dev) (status : Word) (refuse : Bool) (eff : Nat × Nat) : Dev :=
  (Tr.when (!refuse) (.each allDies (.showEff eff))).run ((Tr.reg BOOT_LINKUP_STATUS HD status).run d)

/-- The device with its capability words resolved, or refused. -/
def Dev.resolved (d : Dev) : Dev :=
  d.resolvedTo (w64 (linkupWord d.refusal d.effective.1)) d.refusal.isSome d.effective

/-- What `Tr.resolveCaps` does first: HD takes its own word if it has not. -/
def Tr.ownCaps (d : Dev) : Tr := .when (d.capWord HD = 0)
  (.capReceived HD ((d.reg BOOT_CAP_SELF_LO HD).toNat + (d.reg BOOT_CAP_SELF_HI HD).toNat * 2 ^ 64))

theorem Tr.ownCaps_run {d : Dev} (hcap : d.capWord HD ≠ 0) : (Tr.ownCaps d).run d = d := by
  rw [Tr.ownCaps, decide_eq_false hcap, Tr.when_false, Tr.run_skip]

/-- What `Tr.resolveCaps` does then. -/
def Tr.showCaps (k : Bool → Tr) (refused : Option (Nat × Nat × Nat)) (eff : Nat × Nat) : Tr :=
  .seq [.reg BOOT_LINKUP_STATUS HD (w64 (linkupWord refused eff.1)), .when refused.isNone (.each allDies (.showEff eff)),
    k refused.isSome]

theorem Tr.showCaps_run (k : Bool → Tr) (refused : Option (Nat × Nat × Nat)) (eff : Nat × Nat) (d : Dev) :
    (Tr.showCaps k refused eff).run d =
      (k refused.isSome).run (d.resolvedTo (w64 (linkupWord refused eff.1)) refused.isSome eff) := by
  rw [Tr.showCaps, Dev.resolvedTo, Tr.run_seq_cons, Tr.run_seq_cons, Tr.run_seq_cons, Tr.run_seq_nil, Option.not_isSome]

theorem Tr.resolveCaps_eq (k : Bool → Tr) :
    Tr.resolveCaps k = .seq [.read .ownCaps, .read fun d => .showCaps k d.refusal d.effective] := by
  rw [Tr.resolveCaps]
  refine congrArg (fun f => Tr.seq [.read .ownCaps, .read f]) (funext fun d => ?_)
  generalize d.effective = eff
  generalize d.refusal = refused
  obtain ⟨ver, feats⟩ := eff
  rcases refused with _ | ⟨reason, die, link⟩
  · rfl
  · rfl

theorem Tr.resolveCaps_run (k : Bool → Tr) {d : Dev} (hcap : d.capWord HD ≠ 0) :
    (Tr.resolveCaps k).run d = (k d.refusal.isSome).run d.resolved := by
  rw [Tr.resolveCaps_eq, Tr.run_seq_cons, Tr.run_read, Tr.ownCaps_run hcap, Tr.run_seq_cons, Tr.run_seq_nil, Tr.run_read,
    Tr.showCaps_run, Dev.resolved]

/-- Keys of the effective capability words, and of what shows how the words resolved. -/
def effKeys (k : Nat) : Prop := k % 2 ^ 24 = 0x110 ∨ k % 2 ^ 24 = 0x118
def capKeys (k : Nat) : Prop := effKeys k ∨ k % 2 ^ 24 = 0x120

theorem BOOT_CAP_EFF_LO_key (die : Nat) : BOOT_CAP_EFF_LO.key die 0 0 = die * 2 ^ 24 + 0x110 := by
  simp [Reg.key, BOOT_CAP_EFF_LO]
theorem BOOT_CAP_EFF_HI_key (die : Nat) : BOOT_CAP_EFF_HI.key die 0 0 = die * 2 ^ 24 + 0x118 := by
  simp [Reg.key, BOOT_CAP_EFF_HI]

/-- Keys of the effective capability word of a die. -/
def effKeysOn (die k : Nat) : Prop := k = die * 2 ^ 24 + 0x110 ∨ k = die * 2 ^ 24 + 0x118

section Resolved
variable (eff : Nat × Nat) (die : Nat) (d : Dev)

theorem Tr.showEff_run : (Tr.showEff eff die).run d =
    (Tr.reg BOOT_CAP_EFF_HI die (w64 eff.2)).run ((Tr.reg BOOT_CAP_EFF_LO die (w64 eff.1)).run d) := rfl

theorem Tr.showEff_alters : d.Alters (effKeysOn die) d.u ((Tr.showEff eff die).run d) := by
  rw [Tr.showEff_run]
  exact ((Dev.Alters.refl (effKeysOn die) d).reg (.inl (BOOT_CAP_EFF_LO_key die)) _).reg (.inr (BOOT_CAP_EFF_HI_key die)) _

/-- A die shows the effective capability word. -/
def Dev.ShowsEff : Prop :=
  Holds d BOOT_CAP_EFF_LO die 0 0 eff.1 ∧ Holds d BOOT_CAP_EFF_HI die 0 0 eff.2

theorem Tr.showEff_shows : ((Tr.showEff eff die).run d).ShowsEff eff die := by
  have hapart : BOOT_CAP_EFF_LO.key die 0 0 ≠ BOOT_CAP_EFF_HI.key die 0 0 := by
    rw [BOOT_CAP_EFF_LO_key, BOOT_CAP_EFF_HI_key]
    omega
  rw [Tr.showEff_run]
  refine ⟨?_, Tr.reg_holds BOOT_CAP_EFF_HI die eff.2 0 0 _⟩
  exact (Tr.reg_reg_ne _ _ _ _ _ _ _ _ _ _ hapart).trans (Tr.reg_holds BOOT_CAP_EFF_LO die eff.1 0 0 d)

section Linkup
variable (status : Word) (refuse : Bool)

theorem Dev.resolvedTo_alters_eff :
    ((Tr.reg BOOT_LINKUP_STATUS HD status).run d).Alters effKeys d.u (d.resolvedTo status refuse eff) := by
  have hstart := Dev.Alters.refl effKeys ((Tr.reg BOOT_LINKUP_STATUS HD status).run d)
  refine hstart.when (hstart.each fun n _ m hm => ?_)
  have heff := (Tr.showEff_alters eff n m).mono (L := effKeys) fun k hk => by
    unfold effKeysOn at hk
    unfold effKeys
    omega
  rw [hm.u] at heff
  exact hm.trans heff

theorem capKeys_linkup : capKeys (BOOT_LINKUP_STATUS.key HD 0 0) := by
  unfold capKeys
  exact .inr (by decide)

theorem Dev.resolvedTo_alters : d.Alters capKeys d.u (d.resolvedTo status refuse eff) := by
  have hstatus := (Dev.Alters.refl capKeys d).reg capKeys_linkup status
  exact hstatus.trans ((d.resolvedTo_alters_eff eff status refuse).mono fun _ => Or.inl)

theorem Dev.resolvedTo_linkup : (d.resolvedTo status refuse eff).reg BOOT_LINKUP_STATUS HD =
    status &&& maskOf (BOOT_LINKUP_STATUS.key HD 0 0) := by
  have hapart : ¬ effKeys (BOOT_LINKUP_STATUS.key HD 0 0) := by
    unfold effKeys
    decide
  have hkept := (d.resolvedTo_alters_eff eff status refuse).get _ hapart
  exact hkept.trans (Tr.reg_reg_self BOOT_LINKUP_STATUS HD status 0 0 d)

end Linkup

variable {die}

theorem Dev.resolvedTo_shows (status : Word) (hdie : die ∈ allDies) : (d.resolvedTo status false eff).ShowsEff eff die := by
  refine Tr.each_establishes (I := fun _ => True) (G := Dev.ShowsEff eff die) hdie (fun _ _ _ _ => trivial)
    (fun other _ m _ hm => ?_) (fun m _ => Tr.showEff_shows eff die m) trivial
  by_cases hsame : die = other
  · subst hsame
    exact Tr.showEff_shows eff die m
  · have halters := Tr.showEff_alters eff other m
    obtain ⟨hlo, hhi⟩ := hm
    refine ⟨(halters.get _ ?_).trans hlo, (halters.get _ ?_).trans hhi⟩
    · rw [effKeysOn, BOOT_CAP_EFF_LO_key]
      omega
    · rw [effKeysOn, BOOT_CAP_EFF_HI_key]
      omega

end Resolved

end Sys2Proof.Machine
end

section
/-! PROOFS. What self-test ends with (R26, R340, R638, R639). -/

namespace Sys2Proof.Machine

open Sys2Proof.Safety

/-! ## HBM reads as zero (R340) -/

theorem Tr.byte_zero_keeps_zero {a : Nat} (c : Nat) {d : Dev} (h : d.byte a = 0) : ((Tr.byte c 0).run d).byte a = 0 := by
  by_cases hsame : a = c
  · rw [hsame, Tr.byte_byte_self]
  · rw [Tr.byte_byte_ne _ _ _ _ hsame, h]

/-- The device with its bytes below an address zero. -/
def Dev.zeroedBelow (d : Dev) (top : Nat) : Dev := (Tr.each (d.mem.filter (·.1 < top)) fun e => .byte e.1 0).run d

theorem Dev.zeroedBelow_byte {top a : Nat} (ha : a < top) (d : Dev) : (d.zeroedBelow top).byte a = 0 := by
  by_cases hset : a ∈ d.mem.map Prod.fst
  · obtain ⟨e, he, rfl⟩ := List.mem_map.mp hset
    exact Tr.each_establishes (I := fun _ => True) (G := fun m => m.byte e.1 = 0)
      (List.mem_filter.mpr ⟨he, decide_eq_true ha⟩) (fun _ _ _ _ => trivial)
      (fun c _ _ _ hm => Tr.byte_zero_keeps_zero c.1 hm) (fun m _ => Tr.byte_byte_self e.1 0 m) trivial
  · exact Tr.each_keeps (I := fun m => m.byte a = 0) (fun c _ _ hm => Tr.byte_zero_keeps_zero c.1 hm)
      (tget_of_not_mem memDflt d.mem a hset)

theorem Dev.zeroedBelow_u (d : Dev) (top : Nat) : (d.zeroedBelow top).u = d.u :=
  Tr.each_keeps (I := fun m => m.u = d.u) (fun _ _ _ hm => hm) rfl

theorem Dev.zeroedBelow_get (d : Dev) (top k : Nat) : (d.zeroedBelow top).get k = d.get k :=
  Tr.each_keeps (I := fun m => m.get k = d.get k) (fun _ _ _ hm => hm) rfl

section ZeroHbm
variable (d : Dev)

theorem Tr.zeroHbm_byte {a : Nat} (ha : a < 4 * hbmWindow) : (Tr.zeroHbm.run d).byte a = 0 := d.zeroedBelow_byte ha

theorem Tr.zeroHbm_boot : (Tr.zeroHbm.run d).u.boot = d.u.boot := by
  have hboot : (Tr.zeroHbm.run d).u.boot = (d.zeroedBelow (4 * hbmWindow)).u.boot := rfl
  rw [hboot, d.zeroedBelow_u]

theorem Tr.zeroHbm_spare : (Tr.zeroHbm.run d).u.spare = d.u.spare := by
  have hspare : (Tr.zeroHbm.run d).u.spare = (d.zeroedBelow (4 * hbmWindow)).u.spare := rfl
  rw [hspare, d.zeroedBelow_u]

theorem Tr.zeroHbm_get (k : Nat) : (Tr.zeroHbm.run d).get k = d.get k := d.zeroedBelow_get (4 * hbmWindow) k

end ZeroHbm

/-! ## The causes of self-test, link-up and HBM (R26, R638, R639) -/

/-- The last step of self-test: a cause holds the package, or it awaits an image. `few` is a die with too few cells, `bad` one that fails
otherwise, `linkup` what BOOT_LINKUP_STATUS shows. -/
def Tr.testEnds (hbmBad : Option (Fin 12)) (few bad : Option Nat) (refused : Bool) (linkup : Nat) : Tr :=
  match few, bad, refused, hbmBad with
  | some t, _, _, _ => .hold 2 t
  | none, some t, _, _ => .hold 3 t
  | none, none, true, _ => .hold 1 linkup
  | none, none, false, some k => .hold 6 k.val
  | none, none, false, none => .seq [.zeroHbm, .setPhase 2]

/-- The package awaits an image: nothing holds it, and HBM reads as zero. -/
def Dev.Awaits (n : Dev) (fault : Bool) : Prop :=
  n.phase = 2 ∧ n.held = false ∧ n.u.boot.fault = fault ∧ ∀ a, a < 4 * hbmWindow → n.byte a = 0

/-- What self-test left: a hold by the first of its causes, or a package that awaits an image. `ver` is the effective version, `fault`
whether FAULT_N was low. -/
def Dev.TestEnded (hbmBad : Option (Fin 12)) (few bad : Option Nat) (refusal : Option (Nat × Nat × Nat)) (ver : Nat) (fault : Bool)
    (n : Dev) : Prop :=
  match few, bad, refusal, hbmBad with
  | some t, _, _, _ => n.HeldBy 2 t 1
  | none, some t, _, _ => n.HeldBy 3 t 1
  | none, none, some r, _ => n.HeldBy 1 (n.reg BOOT_LINKUP_STATUS HD).toNat 1 ∧
      Holds n BOOT_LINKUP_STATUS HD 0 0 (3 + r.1 * 16 + r.2.1 * 256 + r.2.2 * 2 ^ 16 + ver % 256 * 2 ^ 24 + ver / 256 * 2 ^ 32)
  | none, none, none, some k => n.HeldBy 6 k.val 1
  | none, none, none, none => n.Awaits fault

theorem Tr.testEnds_few (hbmBad : Option (Fin 12)) (t : Nat) (bad : Option Nat) (refused : Bool) (linkup : Nat) :
    Tr.testEnds hbmBad (some t) bad refused linkup = .hold 2 t := rfl
theorem Tr.testEnds_bad (hbmBad : Option (Fin 12)) (t : Nat) (refused : Bool) (linkup : Nat) :
    Tr.testEnds hbmBad none (some t) refused linkup = .hold 3 t := rfl
theorem Tr.testEnds_refused (hbmBad : Option (Fin 12)) (linkup : Nat) : Tr.testEnds hbmBad none none true linkup = .hold 1 linkup := rfl
theorem Tr.testEnds_hbm (k : Fin 12) (linkup : Nat) : Tr.testEnds (some k) none none false linkup = .hold 6 k.val := rfl

theorem Tr.testEnds_run_good (linkup : Nat) (d : Dev) :
    (Tr.testEnds none none none false linkup).run d = (Tr.setPhase 2).run (Tr.zeroHbm.run d) := by
  rw [Tr.testEnds, Tr.run_seq_cons, Tr.run_seq_cons, Tr.run_seq_nil]

theorem Tr.awaits_awaits {d : Dev} (h : d.held = false) : ((Tr.setPhase 2).run (Tr.zeroHbm.run d)).Awaits d.u.boot.fault := by
  have hphase := Tr.setPhase_alters 2 (Tr.zeroHbm.run d)
  refine ⟨Tr.setPhase_phase (by decide) _, ?held, ?fault, fun a ha => ?hbm⟩
  case held =>
    have hkept : (Tr.zeroHbm.run d).held = d.held := by
      rw [Dev.held, Dev.flag_eq, Dev.held, Dev.flag_eq]
      exact congrArg (fun w => BOOT_STATUS_HELD.get w == 1) (Tr.zeroHbm_get d _)
    rw [Tr.setPhase_held, hkept, h]
  case fault => rw [hphase.u, Tr.zeroHbm_boot]
  case hbm =>
    have hbyte : ((Tr.setPhase 2).run (Tr.zeroHbm.run d)).byte a = (Tr.zeroHbm.run d).byte a := by
      rw [Dev.byte, hphase.mem, Dev.byte]
    rw [hbyte, Tr.zeroHbm_byte d ha]

/-- The last step of self-test leaves the spares, and every register but those that show a hold. -/
structure Dev.EndsTest (d n : Dev) : Prop where
  spare : n.u.spare = d.u.spare
  get : ∀ k, ¬ holdKey k → n.get k = d.get k

theorem Tr.hold_endsTest (reason detail : Nat) (d : Dev) : d.EndsTest ((Tr.hold reason detail).run d) :=
  have h := Tr.hold_alters reason detail d
  ⟨by rw [h.u], h.get⟩

theorem Tr.awaits_endsTest (d : Dev) : d.EndsTest ((Tr.setPhase 2).run (Tr.zeroHbm.run d)) := by
  have hphase := Tr.setPhase_alters 2 (Tr.zeroHbm.run d)
  refine ⟨?_, fun k hk => (hphase.get k fun h => hk (by simp [h])).trans (Tr.zeroHbm_get d k)⟩
  rw [hphase.u, Tr.zeroHbm_spare]

theorem Tr.testEnds_endsTest (hbmBad : Option (Fin 12)) (few bad : Option Nat) (refused : Bool) (linkup : Nat) (d : Dev) :
    d.EndsTest ((Tr.testEnds hbmBad few bad refused linkup).run d) := by
  rcases few with _ | t
  · rcases bad with _ | t
    · cases refused
      · rcases hbmBad with _ | k
        · rw [Tr.testEnds_run_good]
          exact Tr.awaits_endsTest d
        · exact Tr.hold_endsTest 6 k.val d
      · exact Tr.hold_endsTest 1 linkup d
    · exact Tr.hold_endsTest 3 t d
  · exact Tr.hold_endsTest 2 t d

theorem linkupWord_some (r : Nat × Nat × Nat) (ver : Nat) : linkupWord (some r) ver =
    3 + r.1 * 16 + r.2.1 * 256 + r.2.2 * 2 ^ 16 + ver % 256 * 2 ^ 24 + ver / 256 * 2 ^ 32 := by
  simp only [linkupWord, Option.isSome_some, Option.getD_some, b01, if_true, Nat.one_mul, Nat.reduceAdd]

theorem Tr.testEnds_ended (hbmBad : Option (Fin 12)) (few bad : Option Nat) {refusal : Option (Nat × Nat × Nat)} {ver : Nat} {d : Dev}
    (hphase : d.phase = 1) (hheld : d.held = false) (hlinkup : Holds d BOOT_LINKUP_STATUS HD 0 0 (linkupWord refusal ver)) :
    Dev.TestEnded hbmBad few bad refusal ver d.u.boot.fault
      ((Tr.testEnds hbmBad few bad refusal.isSome (d.reg BOOT_LINKUP_STATUS HD).toNat).run d) := by
  have hhold : ∀ reason < 7, ∀ detail, ((Tr.hold reason detail).run d).HeldBy reason detail 1 := by
    intro reason hreason detail
    have h := Tr.hold_heldBy hreason detail d
    rwa [hphase] at h
  rcases few with _ | t
  · rcases bad with _ | t
    · rcases refusal with _ | r
      · rcases hbmBad with _ | k
        · rw [Option.isSome_none, Tr.testEnds_run_good]
          exact Tr.awaits_awaits hheld
        · rw [Option.isSome_none, Tr.testEnds_hbm]
          exact hhold 6 (by decide) k.val
      · have hkept := (Tr.hold_endsTest 1 (d.reg BOOT_LINKUP_STATUS HD).toNat d).get (BOOT_LINKUP_STATUS.key HD 0 0) (by decide)
        rw [linkupWord_some] at hlinkup
        rw [Option.isSome_some, Tr.testEnds_refused]
        refine ⟨?_, hkept.trans hlinkup⟩
        have hreg : ((Tr.hold 1 (d.reg BOOT_LINKUP_STATUS HD).toNat).run d).reg BOOT_LINKUP_STATUS HD = d.reg BOOT_LINKUP_STATUS HD := hkept
        rw [hreg]
        exact hhold 1 (by decide) _
    · rw [Tr.testEnds_bad]
      exact hhold 3 (by decide) t
  · rw [Tr.testEnds_few]
    exact hhold 2 (by decide) t

/-! ## Self-test (R638) -/

/-- The failed units that a self-test reports, of those that exist and are tested. -/
def failedUnits (failed : List (BitVec 28)) : List Nat := (failed.map (·.toNat)).filter fun k =>
  unitExists (ukKind k) (ukDie k) (ukIdx k) && [0, 1, 2, 4, 5].contains (ukKind k)

/-- The spares with their failed units as self-test found them. -/
def Dev.sparesTested (d : Dev) (units : List Nat) : SpareSt := { d.u.spare with failed := units }

/-- The device in self-test with its failed units known. -/
def Dev.unitsTested (d : Dev) (units : List Nat) : Dev := (Tr.spareSt fun s => { s with failed := units }).run d.testing

/-- The device surveyed at the end of self-test. -/
def Dev.tested (d : Dev) (units : List Nat) (rows cols : List (BitVec 16)) : Dev := (d.unitsTested units).surveyed rows cols

/-- The last step of self-test, on what it reads of the device. -/
def Tr.lastStep (sram : Option Die) (hbmBad : Option (Fin 12)) (refused : Bool) : Tr := .read fun d =>
  .testEnds hbmBad d.u.spare.fewCells (d.u.spare.short.or (sram.map (·.val))) refused (d.reg BOOT_LINKUP_STATUS HD).toNat

theorem Tr.lastStep_run (sram : Option Die) (hbmBad : Option (Fin 12)) (refused : Bool) (d : Dev) :
    (Tr.lastStep sram hbmBad refused).run d = (Tr.testEnds hbmBad d.u.spare.fewCells (d.u.spare.short.or (sram.map (·.val))) refused
      (d.reg BOOT_LINKUP_STATUS HD).toNat).run d := Tr.run_read _ d

/-- What the end of self-test does in phase SELFTEST of a package that is not held. -/
def Tr.surveyAndEnd (units : List Nat) (sram : Option Die) (rows cols : List (BitVec 16)) (hbmBad : Option (Fin 12)) : Tr :=
  .seq [.spareSt fun s => { s with failed := units }, .each tds .dawnCells, .each [5, 6] .dawnLanes, .each tdsHd .dirWays,
    .each allDies fun n => .dawnSram n (rows.getD n 0).toNat (cols.getD n 0).toNat,
    .resolveCaps (.lastStep sram hbmBad)]

theorem dawnSelftestDoneTr_eq (failed : List (BitVec 28)) (sram : Option Die) (rows cols : List (BitVec 16)) (hbmBad : Option (Fin 12)) :
    dawnSelftestDoneTr failed sram rows cols hbmBad = .seq [.selftestBegins,
      .read fun d => .when (d.inPhase 1 && !d.held) (.surveyAndEnd (failedUnits failed) sram rows cols hbmBad)] := rfl

theorem Tr.surveyAndEnd_run (units : List Nat) (sram : Option Die) (rows cols : List (BitVec 16)) (hbmBad : Option (Fin 12)) (d : Dev) :
    (Tr.surveyAndEnd units sram rows cols hbmBad).run d.testing =
      (Tr.resolveCaps (.lastStep sram hbmBad)).run (d.tested units rows cols) := by
  rw [Tr.surveyAndEnd, Dev.tested, Dev.surveyed, Tr.dawnOthers, Dev.cellsSurveyed, Dev.unitsTested]
  simp only [Tr.run_seq_cons, Tr.run_seq_nil]

/-- Keys of the registers that self-test writes before it resolves the capability words. -/
def testKeys (k : Nat) : Prop := surveyKeys k ∨ k = BOOT_STATUS.key HD 0 0

theorem not_surveyKeys_status : ¬ surveyKeys (BOOT_STATUS.key HD 0 0) := by
  unfold surveyKeys otherKeys laneKeys
  decide

theorem not_testKeys_capDie {i : Nat} (hi : i < 7) :
    ¬ testKeys (BOOT_CAP_DIE_LO.key HD i 0) ∧ ¬ testKeys (BOOT_CAP_DIE_HI.key HD i 0) := by
  have hlo : BOOT_CAP_DIE_LO.key HD i 0 = 4 * 2 ^ 24 + 0x140 + i * 0x10 := by simp [Reg.key, BOOT_CAP_DIE_LO, HD]
  have hhi : BOOT_CAP_DIE_HI.key HD i 0 = 4 * 2 ^ 24 + 0x148 + i * 0x10 := by simp [Reg.key, BOOT_CAP_DIE_HI, HD]
  have hstatus : BOOT_STATUS.key HD 0 0 = 4 * 2 ^ 24 + 0x200 := by simp [Reg.key, BOOT_STATUS, HD]
  rw [hlo, hhi]
  unfold testKeys surveyKeys otherKeys laneKeys
  rw [hstatus]
  constructor
  · omega
  · omega

theorem not_capKeys_status : ¬ capKeys (BOOT_STATUS.key HD 0 0) := by
  unfold capKeys effKeys
  decide

/-- The word that shows how the capability words resolved. -/
def Dev.linkupStatus (d : Dev) : Word := w64 (linkupWord d.refusal d.effective.1)

/-- The device with its capability words resolved at the end of self-test. -/
def Dev.linkedUp (d : Dev) (units : List Nat) (rows cols : List (BitVec 16)) : Dev :=
  (d.tested units rows cols).resolvedTo d.linkupStatus d.refusal.isSome d.effective

section Tested
variable {d : Dev} (h : d.CanTest) (units : List Nat) (rows cols : List (BitVec 16))
include h

theorem Dev.tested_alters : d.Alters testKeys { d.u with spare := d.sparesTested units } (d.tested units rows cols) := by
  have hunits := ((Dev.testing_alters h).mono (L := testKeys) fun _ => Or.inr).units
    fun u => { u with spare := { u.spare with failed := units } }
  have hsurvey := ((d.unitsTested units).surveyed_alters rows cols).mono (L := testKeys) fun _ => Or.inl
  have hu : (d.unitsTested units).u = { d.u with spare := d.sparesTested units } := hunits.u
  rw [hu] at hsurvey
  exact hunits.trans hsurvey

theorem Dev.tested_phase : (d.tested units rows cols).phase = 1 :=
  (((d.unitsTested units).surveyed_alters rows cols).phase_eq not_surveyKeys_status).trans (Dev.testing_phase h)

theorem Dev.tested_held : (d.tested units rows cols).held = d.held :=
  (((d.unitsTested units).surveyed_alters rows cols).held_eq not_surveyKeys_status).trans (Dev.testing_held h)

theorem Dev.tested_capWord {i : Nat} (hi : i < 7) : (d.tested units rows cols).capWord i = d.capWord i := by
  have halters := Dev.tested_alters h units rows cols
  obtain ⟨hlo, hhi⟩ := not_testKeys_capDie hi
  have hloEq : (d.tested units rows cols).reg BOOT_CAP_DIE_LO HD i = d.reg BOOT_CAP_DIE_LO HD i := halters.get _ hlo
  have hhiEq : (d.tested units rows cols).reg BOOT_CAP_DIE_HI HD i = d.reg BOOT_CAP_DIE_HI HD i := halters.get _ hhi
  rw [Dev.capWord, hloEq, hhiEq, Dev.capWord]

theorem Dev.tested_effective : (d.tested units rows cols).effective = d.effective :=
  Dev.effective_congr fun _ hi => Dev.tested_capWord h units rows cols hi

theorem Dev.tested_refusal : (d.tested units rows cols).refusal = d.refusal :=
  Dev.refusal_congr (fun _ hi => Dev.tested_capWord h units rows cols hi) (by rw [(Dev.tested_alters h units rows cols).u])

theorem Dev.linkedUp_alters : (d.tested units rows cols).Alters capKeys { d.u with spare := d.sparesTested units }
    (d.linkedUp units rows cols) := by
  have halters := Dev.resolvedTo_alters d.effective (d.tested units rows cols) d.linkupStatus d.refusal.isSome
  rwa [(Dev.tested_alters h units rows cols).u] at halters

theorem Dev.linkedUp_phase : (d.linkedUp units rows cols).phase = 1 :=
  ((Dev.linkedUp_alters h units rows cols).phase_eq not_capKeys_status).trans (Dev.tested_phase h units rows cols)

theorem Dev.linkedUp_held : (d.linkedUp units rows cols).held = d.held :=
  ((Dev.linkedUp_alters h units rows cols).held_eq not_capKeys_status).trans (Dev.tested_held h units rows cols)

theorem Dev.linkedUp_spare : (d.linkedUp units rows cols).u.spare = d.sparesTested units := by
  rw [(Dev.linkedUp_alters h units rows cols).u]

theorem Dev.linkedUp_boot : (d.linkedUp units rows cols).u.boot = d.u.boot := by
  rw [(Dev.linkedUp_alters h units rows cols).u]

/-- A cell in service shows in CELL_MAP when the capability words are resolved. -/
theorem Dev.linkedUp_map {t l p : Nat} (ht : t ∈ tds) (hserves : ((d.sparesTested units).serving t)[l]? = some p) :
    Holds (d.linkedUp units rows cols) CELL_MAP t l 0 (mapWord p) := by
  have hspare : (d.unitsTested units).u.spare = d.sparesTested units := by
    have htesting : d.testing.u = d.u := (Dev.testing_alters h).u
    rw [Dev.unitsTested, Tr.spareSt, Tr.units_u, htesting, Dev.sparesTested]
  have hmap := (d.unitsTested units).surveyed_map rows cols ht (hspare ▸ hserves)
  have hmem : (p, l) ∈ ((d.sparesTested units).serving t).zipIdx := List.mem_zipIdx_iff_getElem?.mpr hserves
  obtain ⟨-, hl, -⟩ := SpareSt.mem_serving_zipIdx hmem
  have hapart : ¬ capKeys (CELL_MAP.key t l 0) := by
    unfold capKeys effKeys
    rw [CELL_MAP_key]
    omega
  exact ((Dev.linkedUp_alters h units rows cols).get _ hapart).trans hmap

end Tested

section SelftestDone
variable {d : Dev} (h : d.CanTest) (hheld : d.held = false) (hcap : d.capWord HD ≠ 0) (failed : List (BitVec 28)) (sram : Option Die)
  (rows cols : List (BitVec 16)) (hbmBad : Option (Fin 12))
include h

theorem Tr.resolveCaps_run_tested (k : Bool → Tr) (units : List Nat) (hcap : d.capWord HD ≠ 0) :
    (Tr.resolveCaps k).run (d.tested units rows cols) = (k d.refusal.isSome).run (d.linkedUp units rows cols) := by
  have hown : (d.tested units rows cols).capWord HD ≠ 0 := by rwa [Dev.tested_capWord h units rows cols (by decide)]
  rw [Tr.resolveCaps_run k hown, Dev.resolved, Dev.tested_refusal h, Dev.tested_effective h, Dev.linkedUp, Dev.linkupStatus]

include hheld hcap

theorem dawnSelftestDoneTr_run : (dawnSelftestDoneTr failed sram rows cols hbmBad).run d =
    (Tr.lastStep sram hbmBad d.refusal.isSome).run (d.linkedUp (failedUnits failed) rows cols) := by
  have htest : (d.testing.inPhase 1 && !d.testing.held) = true := by
    rw [Dev.testing_inPhase h, Dev.testing_held h, hheld]
    rfl
  rw [dawnSelftestDoneTr_eq, Tr.run_seq_cons, Tr.run_seq_cons, Tr.run_seq_nil, ← Dev.testing, Tr.run_read, htest, Tr.when_true,
    Tr.surveyAndEnd_run, Tr.resolveCaps_run_tested h rows cols _ _ hcap]

theorem dawnSelftestDoneTr_endsTest :
    (d.linkedUp (failedUnits failed) rows cols).EndsTest ((dawnSelftestDoneTr failed sram rows cols hbmBad).run d) := by
  rw [dawnSelftestDoneTr_run h hheld hcap, Tr.lastStep_run]
  exact Tr.testEnds_endsTest _ _ _ _ _ _

theorem dawnSelftestDoneTr_failed :
    ((dawnSelftestDoneTr failed sram rows cols hbmBad).run d).u.spare.failed = failedUnits failed := by
  rw [(dawnSelftestDoneTr_endsTest h hheld hcap failed sram rows cols hbmBad).spare, Dev.linkedUp_spare h, Dev.sparesTested]

theorem dawnSelftestDoneTr_map {t l p : Nat} (ht : t ∈ tds)
    (hserves : ((d.sparesTested (failedUnits failed)).serving t)[l]? = some p) :
    Holds ((dawnSelftestDoneTr failed sram rows cols hbmBad).run d) CELL_MAP t l 0 (mapWord p) := by
  have hkeys : ¬ holdKey (CELL_MAP.key t l 0) := by
    have hmem : (p, l) ∈ ((d.sparesTested (failedUnits failed)).serving t).zipIdx := List.mem_zipIdx_iff_getElem?.mpr hserves
    obtain ⟨-, hl, -⟩ := SpareSt.mem_serving_zipIdx hmem
    have hbase : CELL_MAP.key t l 0 ∉ [BOOT_HOLD.key HD 0 0, BOOT_STATUS.key HD 0 0, MGMT_ALERT.key HD 0 0] := by
      rw [CELL_MAP_key]
      simp only [Reg.key, BOOT_HOLD, BOOT_STATUS, MGMT_ALERT, HD, List.mem_cons, List.not_mem_nil, or_false]
      omega
    exact hbase
  exact ((dawnSelftestDoneTr_endsTest h hheld hcap failed sram rows cols hbmBad).get _ hkeys).trans
    (Dev.linkedUp_map h _ rows cols ht hserves)

theorem dawnSelftestDoneTr_showsEff (hrefusal : d.refusal = none) {die : Nat} (hdie : die ∈ allDies) :
    ((dawnSelftestDoneTr failed sram rows cols hbmBad).run d).ShowsEff d.effective die := by
  have hends := dawnSelftestDoneTr_endsTest h hheld hcap failed sram rows cols hbmBad
  have hshows : (d.linkedUp (failedUnits failed) rows cols).ShowsEff d.effective die := by
    rw [Dev.linkedUp, hrefusal]
    exact Dev.resolvedTo_shows _ _ _ hdie
  obtain ⟨hlo, hhi⟩ := hshows
  have hapart : ¬ holdKey (BOOT_CAP_EFF_LO.key die 0 0) ∧ ¬ holdKey (BOOT_CAP_EFF_HI.key die 0 0) := by
    fin_cases hdie <;> decide
  obtain ⟨hloApart, hhiApart⟩ := hapart
  exact ⟨(hends.get _ hloApart).trans hlo, (hends.get _ hhiApart).trans hhi⟩

theorem dawnSelftestDoneTr_ended : Dev.TestEnded hbmBad (d.sparesTested (failedUnits failed)).fewCells
    ((d.sparesTested (failedUnits failed)).short.or (sram.map (·.val))) d.refusal d.effective.1 d.u.boot.fault
    ((dawnSelftestDoneTr failed sram rows cols hbmBad).run d) := by
  have hphase := Dev.linkedUp_phase h (failedUnits failed) rows cols
  have hfree := (Dev.linkedUp_held h (failedUnits failed) rows cols).trans hheld
  have hlinkup : Holds (d.linkedUp (failedUnits failed) rows cols) BOOT_LINKUP_STATUS HD 0 0 (linkupWord d.refusal d.effective.1) :=
    Dev.resolvedTo_linkup d.effective (d.tested (failedUnits failed) rows cols) d.linkupStatus d.refusal.isSome
  have hended := Tr.testEnds_ended hbmBad (d.sparesTested (failedUnits failed)).fewCells
    ((d.sparesTested (failedUnits failed)).short.or (sram.map (·.val))) hphase hfree hlinkup
  rw [dawnSelftestDoneTr_run h hheld hcap, Tr.lastStep_run, Dev.linkedUp_spare h]
  rwa [Dev.linkedUp_boot h] at hended

end SelftestDone

end Sys2Proof.Machine
end

section
/-! PROOFS. Obligation O53 (R24, R26, R87, R340, R638, R639, R641, R642, R644, R647, R648, R650). -/

namespace Sys2Proof.Machine

open Sys2Proof.Safety

/-! ## The events of Dawn -/

section Exec
variable (s : State)

theorem exec_dawnSelftestDone (failed : List (BitVec 28)) (sram : Option Die) (rows cols : List (BitVec 16)) (hbmBad : Option (Fin 12)) :
    exec (.dawnSelftestDone failed sram rows cols hbmBad) s =
      .next { s with dev := (dawnSelftestDoneTr failed sram rows cols hbmBad).run s.dev } := rfl
theorem exec_identity : exec .identity s = .next { s with dev := identityTr.run s.dev } := rfl
theorem exec_enroll : exec .enroll s = .next { s with dev := enrollTr.run s.dev } := rfl
theorem exec_imageReady (length : BitVec 56) :
    exec (.imageReady length) s = .next { s with dev := (Tr.imageCmd (.verifyBegins length.toNat false)).run s.dev } := rfl
theorem exec_fabricBoot (status : BitVec 16) (image : List Byte) :
    exec (.fabricBoot status image) s = .next { s with dev := (fabricBootTr status image).run s.dev } := rfl
theorem exec_imageVerifyDone : exec .imageVerifyDone s = .next { s with dev := imageVerifyDoneTr.run s.dev } := rfl
theorem exec_imageLoadDone (ingAt collAt : List (BitVec 41)) :
    exec (.imageLoadDone ingAt collAt) s = .next { s with dev := (imageLoadDoneTr ingAt collAt).run s.dev } := rfl

end Exec

theorem exec_stays {c : Instr} {s : State} {n : Dev} (hexec : exec c s = .next { s with dev := n }) (h : n = s.dev) : exec c s = .next s := by
  rw [hexec, h]

/-! ## What an identity command leaves (R641, R642) -/

/-- Helper data that fail hold the package in AWAIT, without an identity. -/
def Dev.Unidentified (n : Dev) : Prop :=
  n.HeldBy 9 0 2 ∧ n.u.boot.idPub = none ∧ n.fld MGMT_CMD_STATUS MGMT_CMD_STATUS_ERR HD = 3

theorem MGMT_CMD_STATUS_not_hold : ¬ holdKey (MGMT_CMD_STATUS.key HD 0 0) := by decide

section Identity
variable {d : Dev} (h : d.TakesCmd) (hid : d.u.boot.idPub = none) (hphase : d.inPhase 2 = true)
include h hid hphase

theorem identityTr_identified (hpuf : d.u.boot.pufBad = false) (hgood : Config.helperGood d.helperData = true) :
    (identityTr.run d).mem = d.mem ∧ d.IdentifiedAs d.helperData (identityTr.run d) := by
  rw [identityTr_run_good h hid hphase hpuf hgood]
  have halters := Tr.identify_alters d.helperData d.identityBegun
  exact ⟨halters.mem.trans d.identityBegun_alters.mem,
    Tr.identify_identifiedAs d.helperData id (fun _ => rfl) ((d.inPhase_iff 2).mp hphase).2⟩

theorem identityTr_unidentified (hbad : Config.helperGood d.helperData = false) :
    (identityTr.run d).mem = d.mem ∧ (identityTr.run d).Unidentified := by
  rw [identityTr_run_bad h hid hphase hbad]
  have herr := Tr.mgmtErr_alters 3 d.identityBegun
  have hhold := Tr.hold_alters 9 0 ((Tr.mgmtErr 3).run d.identityBegun)
  refine ⟨hhold.mem.trans (herr.mem.trans d.identityBegun_alters.mem), Tr.hold_heldBy_await (by decide) 0 _, ?pub, ?err⟩
  case pub => rw [hhold.u, herr.u, d.identityBegun_alters.u, hid]
  case err => rw [hhold.fld_eq MGMT_CMD_STATUS_not_hold, Tr.mgmtErr_err (by decide)]

omit h hid hphase in
/-- SEC_STATUS.ENROLLED does not bear on the identity. -/
theorem Dev.IdentifiedAs.enrolledShown {hs : List Byte} {m : Dev} (hm : d.IdentifiedAs hs m) :
    d.IdentifiedAs hs ((Tr.fld SEC_STATUS SEC_STATUS_ENROLLED HD 1).run m) := by
  have halters := (Dev.Alters.refl (· = SEC_STATUS.key HD 0 0) m).hdFld SEC_STATUS SEC_STATUS_ENROLLED 1 rfl
  obtain ⟨hhelper, hkey, ⟨hheld, hfault⟩, hidentity, herr, hphase⟩ := hm
  refine ⟨?_, ?_, ⟨(halters.held_eq (by decide)).trans hheld, ?_⟩, ?identity, (halters.fld_eq (by decide) _).trans herr,
    (halters.phase_eq (by decide)).trans hphase⟩
  case identity => rw [SEC_STATUS_onHD.fld_apart (by decide) (by decide) (by decide), hidentity]
  all_goals rwa [halters.u]

theorem enrollTr_identified : (enrollTr.run d).mem = d.mem ∧ d.IdentifiedAs d.enrolled (enrollTr.run d) ∧
    bufBytes (enrollTr.run d).u.boot.helper 0 4096 = d.enrolled ∧ (enrollTr.run d).fld SEC_STATUS SEC_STATUS_ENROLLED HD = 1 := by
  rw [enrollTr_run h hid hphase]
  have hbegun := (Dev.Alters.refl (· = SEC_STATUS.key HD 0 0) d.identityBegun).boot fun b => { b with helper := bufOf d.enrolled }
  have hidentify := Tr.identify_alters d.enrolled ((Tr.boot fun b => { b with helper := bufOf d.enrolled }).run d.identityBegun)
  have hidentified : d.IdentifiedAs d.enrolled ((Tr.identify d.enrolled).run
      ((Tr.boot fun b => { b with helper := bufOf d.enrolled }).run d.identityBegun)) :=
    Tr.identify_identifiedAs d.enrolled (fun b => { b with helper := bufOf d.enrolled }) (fun _ => rfl) ((d.inPhase_iff 2).mp hphase).2
  have hshown := hidentify.hdFld SEC_STATUS SEC_STATUS_ENROLLED 1 (by decide)
  refine ⟨hshown.mem.trans (hbegun.mem.trans d.identityBegun_alters.mem), hidentified.enrolledShown, ?helper, ?shown⟩
  case helper =>
    have hbytes := bufBytes_bufOf d.enrolled
    rw [d.enrolled_length] at hbytes
    rw [hshown.u, Dev.bootRetried, hbegun.u, hbytes]
  case shown => exact SEC_STATUS_onHD.fld_self (by decide) 1 _

end Identity

/-! ## What an image command leaves (R644, R647) -/

section Images
variable {d : Dev} (h : d.TakesCmd) (hid : d.u.boot.idPub.isSome = true) (hphase : d.inPhase 2 = true)
include h hid hphase

theorem imageReady_verifies (length : BitVec 56) : let n := (Tr.imageCmd (.verifyBegins length.toNat false)).run d
    n.mem = d.mem ∧ d.Verifies length.toNat false n ∧ n.u.boot.staging = d.u.boot.staging := by
  intro n
  have hrun : n = (Tr.verifyBegins length.toNat false).run d.imageBegun := imageReady_run h hid hphase length
  have halters := Tr.verifyBegins_alters length.toNat false d.imageBegun
  rw [hrun]
  refine ⟨halters.mem.trans d.imageBegun_alters.mem,
    Tr.verifyBegins_verifies length.toNat false id (fun _ => rfl) d, ?_⟩
  rw [halters.u, d.imageBegun_alters.u, Dev.bootRetried]

/-- The image that the fabric brought is in the staging buffer and is verified. -/
theorem fabricBootTr_verifies {status : BitVec 16} (image : List Byte) (hst : status.toNat = stOK) :
    ((fabricBootTr status image).run d).mem = d.mem ∧
      d.Verifies (d.fld BOOT_FABRIC_LEN BOOT_FABRIC_LEN_VALUE HD) true ((fabricBootTr status image).run d) ∧
      ∀ i, agetD ((fabricBootTr status image).run d).u.boot.staging i 0 =
        (stagedOf image (d.fld BOOT_FABRIC_LEN BOOT_FABRIC_LEN_VALUE HD)).getD i 0 := by
  rw [fabricBootTr_run h hid hphase image hst]
  generalize d.fld BOOT_FABRIC_LEN BOOT_FABRIC_LEN_VALUE HD = len
  have hstaged := (Dev.Alters.refl imageKeys d.imageBegun).boot fun b => { b with staging := bufOf (stagedOf image len) }
  have halters := Tr.verifyBegins_alters len true ((Tr.boot fun b => { b with staging := bufOf (stagedOf image len) }).run d.imageBegun)
  refine ⟨halters.mem.trans (hstaged.mem.trans d.imageBegun_alters.mem),
    Tr.verifyBegins_verifies len true (fun b => { b with staging := bufOf (stagedOf image len) }) (fun _ => rfl) d, fun i => ?_⟩
  rw [halters.u, hstaged.u]
  exact agetD_bufOf _ i

theorem fabricBootTr_held {status : BitVec 16} (image : List Byte) (hst : status.toNat ≠ stOK) :
    ((fabricBootTr status image).run d).mem = d.mem ∧ ((fabricBootTr status image).run d).HeldBy 8 status.toNat 2 ∧
      ((fabricBootTr status image).run d).u.boot.staging = d.u.boot.staging := by
  rw [fabricBootTr_run_lost h hid hphase image hst]
  have hhold := Tr.hold_alters 8 status.toNat d.imageBegun
  refine ⟨hhold.mem.trans d.imageBegun_alters.mem, Tr.hold_heldBy_await (by decide) _ _, ?_⟩
  rw [hhold.u, d.imageBegun_alters.u, Dev.bootRetried]

end Images

/-! ## What the end of VERIFY leaves (R648) -/

theorem imageVerifyDoneTr_held {d : Dev} (h : d.inPhase 3 = true) {f : Nat} (hfault : imageFault d.image d.u.boot.imageLen = some f) :
    (imageVerifyDoneTr.run d).mem = d.mem ∧ (imageVerifyDoneTr.run d).fld MGMT_CMD_STATUS MGMT_CMD_STATUS_BUSY HD = 0 ∧
      (imageVerifyDoneTr.run d).HeldBy 7 f 2 := by
  rw [imageVerifyDoneTr_run_fault h hfault]
  have hhold := Tr.hold_alters 7 f d.verified
  exact ⟨hhold.mem.trans d.verified_alters.mem, (hhold.fld_eq MGMT_CMD_STATUS_not_hold _).trans d.verified_busy,
    Tr.hold_heldBy_await (by decide) f _⟩

theorem imageVerifyDoneTr_good {d : Dev} (h : d.inPhase 3 = true) (hgood : imageFault d.image d.u.boot.imageLen = none) :
    (imageVerifyDoneTr.run d).mem = d.mem ∧ (imageVerifyDoneTr.run d).fld MGMT_CMD_STATUS MGMT_CMD_STATUS_BUSY HD = 0 ∧
      (imageVerifyDoneTr.run d).phase = 4 ∧ (imageVerifyDoneTr.run d).u.boot = d.u.boot.withImage d.image := by
  rw [imageVerifyDoneTr_run_good h hgood]
  have hkept := d.verified_alters.boot fun b => b.withImage d.image
  have hphase := Tr.setPhase_alters 4 ((Tr.boot fun b => b.withImage d.image).run d.verified)
  refine ⟨hphase.mem.trans hkept.mem, ?_, Tr.setPhase_phase (by decide) _, ?_⟩
  · rw [hphase.fld_eq (by decide), Tr.boot_fld, d.verified_busy]
  · rw [hphase.u, hkept.u]

/-! ## Obligation O53 -/

/-- Settles O53: an equation for the run of each event, from which follows what it leaves; self-test is the survey of the units, the
capability words resolved, and one last step that takes the causes in their order. -/
theorem bootPhases : Obligations.BootPhases := by
  intro s failed sram rows cols hbmBad length status image ingAt collAt boot held stat goes idle refuses key ident verify
  have refused : ∀ {c : Instr} {e : Nat}, e < 16 → exec c s = .next { s with dev := s.dev.cmdRefused e } → refuses c e :=
    fun he hexec => refuses_of_exec he hexec
  refine ⟨fun htest hfree hcap => ?selftest, fun hidle hid hasleep hon => ?again, fun hidle hid hday => ?elsewhere,
    fun hidle hid hphase => ?await, fun hidle hid hphase => ?images, fun hnot => ?notVerifying, fun hphase => ?verified,
    fun hnot => ?notLoading, fun hphase => ?loaded⟩
  case selftest =>
    intro units sp serving
    have hfailed := dawnSelftestDoneTr_failed htest hfree hcap failed sram rows cols hbmBad
    have hended := dawnSelftestDoneTr_ended htest hfree hcap failed sram rows cols hbmBad
    refine ⟨_, exec_dawnSelftestDone s failed sram rows cols hbmBad, rfl, hfailed, fun t l p ht hserves => ?map,
      fun hrefusal die hdie => dawnSelftestDoneTr_showsEff htest hfree hcap failed sram rows cols hbmBad hrefusal hdie, ?outcome⟩
    case map =>
      have htd : t ∈ tds := by
        interval_cases t <;> decide
      exact dawnSelftestDoneTr_map htest hfree hcap failed sram rows cols hbmBad htd hserves
    case outcome =>
      have hsp : s.dev.sparesTested (failedUnits failed) = sp := rfl
      rw [hsp] at hended
      generalize (dawnSelftestDoneTr failed sram rows cols hbmBad).run s.dev = n at hended ⊢
      generalize sp.fewCells = few, sp.short.or (sram.map (·.val)) = bad, s.dev.refusal = refusal, s.dev.effective.1 = ver at hended ⊢
      -- Split first: the matches of the goal and of `Dev.TestEnded` are compared branch by branch.
      rcases few with _ | t
      · rcases bad with _ | t
        · rcases refusal with _ | r
          · rcases hbmBad with _ | k
            · exact hended
            · exact hended
          · exact hended
        · exact hended
      · exact hended
  case again =>
    have hcmd : s.dev.TakesCmd := ⟨hon, fun hdusk => by simp [Dev.awake, hdusk] at hasleep, hidle⟩
    exact ⟨refused (by decide) (by rw [exec_identity, identityTr, Tr.identityCmd_run_again hcmd _ hid]),
      refused (by decide) (by rw [exec_enroll, enrollTr, Tr.identityCmd_run_again hcmd _ hid])⟩
  case elsewhere =>
    have hcmd : s.dev.TakesCmd := ⟨by rw [hday]; decide, by rw [hday]; decide, hidle⟩
    have hphase : s.dev.inPhase 2 = false := by simp [Dev.inPhase, hday]
    exact ⟨refused (by decide) (by rw [exec_identity, identityTr, Tr.identityCmd_run_elsewhere hcmd _ hid hphase]),
      refused (by decide) (by rw [exec_enroll, enrollTr, Tr.identityCmd_run_elsewhere hcmd _ hid hphase]),
      refused (by decide) (by rw [exec_imageReady, Tr.imageCmd_run_unidentified hcmd _ hid])⟩
  case await =>
    have hcmd := Dev.TakesCmd.of_inPhase hphase hidle
    refine ⟨fun hpuf => ?identity, ?enroll,
      refused (by decide) (by rw [exec_imageReady, Tr.imageCmd_run_unidentified hcmd _ hid]),
      refused (by decide) (by rw [exec_fabricBoot, fabricBootTr, Tr.imageCmd_run_unidentified hcmd _ hid])⟩
    case identity =>
      intro h
      cases hgood : Config.helperGood h with
      | true =>
        obtain ⟨hmem, hident⟩ := identityTr_identified hcmd hid hphase hpuf hgood
        exact ⟨_, exec_identity s, rfl, hmem, hident⟩
      | false =>
        obtain ⟨hmem, hbad⟩ := identityTr_unidentified hcmd hid hphase hgood
        exact ⟨_, exec_identity s, rfl, hmem, hbad⟩
    case enroll =>
      obtain ⟨hmem, hident, hhelper, henrolled⟩ := enrollTr_identified hcmd hid hphase
      exact ⟨_, s.dev.enrolled, exec_enroll s, rfl, hmem, hident, hhelper, henrolled⟩
  case images =>
    have hcmd := Dev.TakesCmd.of_inPhase hphase hidle
    refine ⟨?ready, ?fabric⟩
    case ready =>
      obtain ⟨hmem, hverify, hstaging⟩ := imageReady_verifies hcmd hid hphase length
      exact ⟨_, exec_imageReady s length, rfl, hmem, hverify, hstaging⟩
    case fabric =>
      intro len
      by_cases hst : status.toNat = stOK
      · obtain ⟨hmem, hverify, hstaged⟩ := fabricBootTr_verifies hcmd hid hphase image hst
        exact ⟨_, exec_fabricBoot s status image, rfl, hmem, by rw [if_pos hst]; exact ⟨hverify, hstaged⟩⟩
      · obtain ⟨hmem, hheld, hstaging⟩ := fabricBootTr_held hcmd hid hphase image hst
        exact ⟨_, exec_fabricBoot s status image, rfl, hmem, by rw [if_neg hst]; exact ⟨hheld, hstaging⟩⟩
  case notVerifying => exact exec_stays (exec_imageVerifyDone s) (imageVerifyDoneTr_run_idle hnot)
  case verified =>
    cases hfault : imageFault s.dev.image boot.imageLen with
    | some f =>
      obtain ⟨hmem, hbusy, hheld⟩ := imageVerifyDoneTr_held hphase hfault
      exact ⟨_, exec_imageVerifyDone s, rfl, hmem, hbusy, hheld⟩
    | none =>
      obtain ⟨hmem, hbusy, hload, hboot⟩ := imageVerifyDoneTr_good hphase hfault
      exact ⟨_, exec_imageVerifyDone s, rfl, hmem, hbusy, hload, hboot⟩
  case notLoading => exact exec_stays (exec_imageLoadDone s ingAt collAt) (imageLoadDoneTr_run_idle ingAt collAt hnot)
  case loaded =>
    intro size osAt info
    have hsize : ∀ t, size t = s.dev.compSize t := fun t => (s.dev.compSize_eq t).symm
    have hinfo : info = s.dev.infoAt := by
      have hos : osAt = s.dev.osAt := by rw [Dev.osAt, ← hsize]
      rw [Dev.infoAt, ← hos, ← hsize, ← hsize, Dev.comp]
    obtain ⟨hready, hboot, hshown, hbase⟩ := imageLoadDoneTr_loaded ingAt collAt hphase
    refine ⟨_, exec_imageLoadDone s ingAt collAt, rfl, hready, hboot, ?_, fun t ht => hbase t ?_⟩
    · rw [hinfo]
      exact hshown
    · interval_cases t <;> decide

end Sys2Proof.Machine
end
